-- ==== Sys2Proof/Word.lean ====
section
/-! DEFINITION. The word types of the machine (R4, R39) and one record that firmware hands it. -/

namespace Sys2Proof

/-- A 64-bit register, pointer or control register. -/
abbrev Word := BitVec 64

/-- A 32-bit word: an instruction word, a tile word, a counter. -/
abbrev W32 := BitVec 32

/-- One byte. -/
abbrev Byte := BitVec 8

/-- A 512-bit vector register (R39). -/
abbrev VReg := BitVec 512

/-- An accumulator tile: 256 words of 32 bits, word n in bits 32n+31:32n (R40, R121). -/
abbrev Tile := BitVec 8192

/-- A 6-bit register field of a word (R80). -/
abbrev RF := BitVec 6

/-- A 12-bit core id: die 11:10, cluster 9:4, core 3:0 (R32). -/
abbrev CoreId := BitVec 12

/-- A 12-bit tenant id (R34). -/
abbrev Tenant := BitVec 12

/-- A context number 0-10 (R36); 11 names the service turn. -/
abbrev SlotNo := BitVec 4

/-- An HDM decoder as firmware writes it (R395): a range of pool addresses, and the root ports that it interleaves, port p of
die d being number 2d + p, by a granularity in bytes. -/
structure HdmDec where
  base : Nat
  size : Nat
  ports : List (BitVec 3)
  gran : Nat
  deriving DecidableEq, Repr

end Sys2Proof
end

