-- ==== Sys2Proof/Config.lean ====
section
/-! DEFINITION. What one machine fixes and the values the spec leaves open: constants without a body,
so that nothing can be proved of their values. -/

namespace Sys2Proof.Config

/-- R162: whether the signature hash makes two different lines intersect. The hash is not architected. -/
opaque sigCollide : Nat → Nat → Bool

/-- R254, R397: whether a device id of the domain is reachable from this device. -/
opaque reachable : BitVec 10 → Bool

/-- R394: whether the link that an operation with this id uses fails after the fabric's retries. -/
opaque linkFails : Nat → Bool

/-- What another device's memory, or a unit outside the package, returns: byte `a` of the reply drawn
as free value number `n`. -/
opaque outerByte : Nat → Nat → Byte

/-- The word that another device returns to an atomic, a ring operation or a status read. -/
opaque outerWord : Nat → Word

/-- R143: the host's own tables: the fault code of a host page for a tenant and an access kind, or none. -/
opaque hostFault : Nat → Tenant → Nat → Option (BitVec 2)

/-- R395: whether a read of the pool address returns poisoned data. -/
opaque poolPoison : Nat → Bool

/-- R394, R405: the retries of a UCIe link before it gives up on an operation with this id. -/
opaque linkRetries : Nat → Nat

/-- R144, R145: the table entry that a walk reads at an address outside the die's memory. -/
opaque noTable : Nat → BitVec 64

/-- R144, R149: where firmware places a die's tenant translation table, in its memory, and its descriptor array, in its
atomizer's SRAM; and how many pool frames have their descriptors there. -/
opaque ttBase : BitVec 2 → Nat
opaque descBase : BitVec 2 → Nat
opaque poolDescs : BitVec 2 → Nat

/-- R254: how an operation with this id fails at another device: 1 protection, 4 poisoned data, 5 translation, 6 range lock; any
other value: it is performed. The second gives the fault code of a translation. -/
opaque outerFails : Nat → BitVec 4
opaque outerCode : Nat → BitVec 2

/-- R179: the page of another device's memory that a resolved pointer names has T = 1. -/
opaque outerT : BitVec 64 → Bool

/-- R357: byte `o` of the device image in the save area that a SAVE writes, by the free value number drawn for it. -/
opaque imageByte : Nat → Nat → Byte

/-- R149: whether a pool frame's descriptor has its home on a die of this device, and at which index. -/
opaque poolHome : Nat → Option (BitVec 2 × Nat)

/-- R401: the 57-byte secret fused in the package. -/
opaque fusedSecret : List Byte

/-- R400: the 64-byte key hash fused in the package. -/
opaque fusedKeyHash : List Byte

/-- R401: what the certificate's signature covers, by the alias public key and the device id. -/
opaque certBody : List Byte → Nat → List Byte

/-- R402: the bytes that CFGMEAS measures, by the fenced units, the HDM decoders, VW and AGE. -/
opaque configBytes : List Nat → List HdmDec → List Nat → Nat → List Byte

/-- R341, R345: what the 4-bit NREP field holds of a replay set of 16 operations. -/
opaque nrepFull : BitVec 4

/-- R340, R357: the 64 KiB frame of its die's memory at which the save area of a core begins before any SAVE names one. -/
opaque firstArea : Nat → Nat

/-- R350, R365, R370: the context number in the record of an error that is charged to no context. -/
opaque noContext : BitVec 4

/-- R336, R138: the bundle word that ADDR reports when the PC itself cannot be fetched from. -/
opaque noBundle : BitVec 64

/-- R278: the pointer that ADDR reports for a slot area beyond the scratchpad, by offset, size and count. -/
opaque areaPtr : Nat → Nat → Nat → BitVec 64

/-- R285, R283: the pointer that a trap or an error record reports for a ring operation, by object index. -/
opaque ringPtr : Nat → BitVec 64

/-- R336, R322: whether FORMAT for a pair of operands that do not go together reports ring B's index. -/
opaque pairIsB : Bool

/-- R325, R326: the cycles that a command abandoned for its bindings occupies the accord. -/
opaque abandonCycles : Nat

/-- FREE VALUE (DESIGN CHOICE, log 79). Word i of a sample that an invocation did not hold and the region as it now stands asks for
(R420), by the free value number. -/
opaque lateWord : Nat → Nat → BitVec 32

end Sys2Proof.Config
end

