-- ==== Sys2Proof/Syntax.lean ====
section
/-! DEFINITION. The instruction set and the events of the device: one constructor per row of the
opcode table. The instructions stand in its order; of the events, those that the machine raises itself
come before those that only the outside raises. The rows of a bundle's words carry their operand fields; the
rows of events carry what names the event and what comes from outside the machine. -/

namespace Sys2Proof

/-- One step of the table. L and S of word 0 belong to the bundle, not to an instruction (R72). -/
inductive Instr where
  -- control transfers (R210-R213)
  | nop
  | nopA
  | br (p : BitVec 3) (n : BitVec 1) (d : BitVec 20)
  | jmp (d : BitVec 24)
  | call (d : BitVec 24)
  | jmpi (a : RF)
  | ret
  | loop (a : RF) (d : BitVec 18)
  | park (a : RF)
  -- helper control (R215-R221)
  | hstart (a b : RF)
  | hend
  | hjoin (a b : RF)
  | hsave (a b : RF)
  | hload (a b : RF)
  | hresume (a : RF)
  -- system (R222-R231)
  | trap (a : RF)
  | eret
  | hret
  | upret
  | brk
  | tmark (a : RF)
  | cnt (a : RF)
  | pshare (a b : RF)
  | halt
  -- control registers (R232)
  | crr (a : RF) (n : BitVec 12)
  | crw (a : RF) (n : BitVec 12)
  | crs (a : RF) (n : BitVec 12)
  | crc (a : RF) (n : BitVec 12)
  -- loads and stores (R237-R244); w is log2 of the width in bytes
  | ld (w : BitVec 2) (a b : RF) (e : BitVec 12)
  | ldn (w : BitVec 2) (a b : RF) (e : BitVec 12)
  | st (w : BitVec 2) (a b : RF) (e : BitVec 12)
  | ldx (a b c : RF) (w : BitVec 3)
  | stx (a b c : RF) (w : BitVec 2)
  | vld (v : BitVec 4) (b : RF) (e : BitVec 12)
  | vst (v : BitVec 4) (b : RF) (e : BitVec 12)
  | vldf (v : BitVec 4) (b c : RF) (t : BitVec 3)
  | vstf (v : BitVec 4) (b c : RF) (m t : BitVec 3)
  | vldt (v : BitVec 4) (b c : RF) (t : BitVec 3)
  | vgath (v : BitVec 4) (b : RF) (x : BitVec 4) (t : BitVec 3)
  | vscat (v : BitVec 4) (b : RF) (x : BitVec 4) (t : BitVec 3)
  -- atomics, fences and messages (R245-R252)
  | amo (a b c : RF) (w : BitVec 1) (op : BitVec 4)
  | acas (a b c : RF) (w : BitVec 1)
  | red (b c : RF) (w : BitVec 1) (op : BitVec 4)
  | fence (k : BitVec 2)
  | post (a b c : RF) (n : BitVec 6)
  | recv (a b : RF)
  | ipeek (a : RF)
  -- key map (R267-R278)
  | klook (a b : RF)
  | kclaim (a b c : RF)
  | kready (a : RF)
  | kwait (a b c : RF)
  | kunbind (a b : RF)
  | kpin (a b : RF)
  | kunpin (a b : RF)
  | kscan (a : RF)
  | kload (a b c : RF)
  | kinv (a : RF)
  | kwin (d a b : RF) (w1 : BitVec 6) (base : BitVec 12)
  | kcfg (sz : BitVec 4) (cnt1 : BitVec 12) (off : BitVec 18)
  -- rings (R282)
  | rclaim (a b c : RF)
  | rpush (a : RF)
  | rwait (a b c : RF)
  | rrel (a : RF)
  | rstat (a b : RF)
  | rset (a b : RF)
  -- copy channels (R290)
  | cpset (a b : RF)
  | cpgo (a b : RF)
  | cpwp (a b : RF)
  | cpwait (a b c : RF)
  | cpabort (a : RF)
  -- mailbox counters (R299)
  | mbinc (a b : RF)
  | mbwait (a b c : RF)
  | mbrd (a b : RF)
  | mbset (a b : RF)
  -- tasks (R358)
  | spend (a : RF)
  | amsg (a b c : RF)
  | wfield (a : RF) (n : BitVec 6)
  | tgnew (a b : RF)
  | tgdone
  | tglaunch (a b : RF)
  | tgstat (a b : RF)
  | spawn (a : RF) (d : BitVec 18)
  -- enfleurage (R421)
  | apxOn (p : BitVec 3) (b : RF)
  | apxIn (a : RF)
  | apxOut (k : BitVec 6) (b : RF)
  | apxRes (a : RF) (k : BitVec 6)
  | apxEnd
  | apxInv (a : RF)
  | apxSt (a b : RF)
  | apxLd (a b : RF)
  -- alembic (R434)
  | cbPush (a b c : RF)
  | cbPull (a b c : RF)
  | cbDone (a b : RF)
  | cbEnd (a : RF)
  | cbSt (a b : RF)
  -- integer operations on registers (R195)
  | add (d a b : RF) (g : BitVec 3)
  | sub (d a b : RF) (g : BitVec 3)
  | mul (d a b : RF) (g : BitVec 3)
  | mulh (d a b : RF) (g : BitVec 3)
  | mulhn (d a b : RF) (g : BitVec 3)
  | div (d a b : RF) (g : BitVec 3)
  | divn (d a b : RF) (g : BitVec 3)
  | rem (d a b : RF) (g : BitVec 3)
  | remn (d a b : RF) (g : BitVec 3)
  | and (d a b : RF) (g : BitVec 3)
  | or (d a b : RF) (g : BitVec 3)
  | xor (d a b : RF) (g : BitVec 3)
  | shl (d a b : RF) (g : BitVec 3)
  | shr (d a b : RF) (g : BitVec 3)
  | sra (d a b : RF) (g : BitVec 3)
  | min (d a b : RF) (g : BitVec 3)
  | max (d a b : RF) (g : BitVec 3)
  | minn (d a b : RF) (g : BitVec 3)
  | maxn (d a b : RF) (g : BitVec 3)
  | clz (d a : RF) (g : BitVec 3)
  | ctz (d a : RF) (g : BitVec 3)
  | popc (d a : RF) (g : BitVec 3)
  | sel (d a b : RF) (p : BitVec 3)
  -- immediate operations (R197-R200)
  | addi (d a : RF) (i : BitVec 14)
  | andi (d a : RF) (i : BitVec 14)
  | ori (d a : RF) (i : BitVec 14)
  | xori (d a : RF) (i : BitVec 14)
  | shli (d a : RF) (n : BitVec 6)
  | shri (d a : RF) (n : BitVec 6)
  | srai (d a : RF) (n : BitVec 6)
  | movi (d : RF) (i : BitVec 20)
  | movh (d : RF) (i : BitVec 20)
  | movl (d : RF) (m : BitVec 2) (i : W32)
  -- comparisons and bit fields (R201, R202)
  | cmp (p : BitVec 3) (a b : RF) (g c : BitVec 3)
  | cmpi (p c : BitVec 3) (a : RF) (i : BitVec 14)
  | bfx (d a pos len : RF) (s : BitVec 1)
  | bfi (d a pos len : RF) (z : BitVec 1)
  -- pointer operations (R203-R209)
  | padd (d a b : RF) (g : BitVec 3)
  | paddi (d a : RF) (i : BitVec 14)
  | pidx (d a b : RF) (g : BitVec 3)
  | ptag (d a : RF) (f : BitVec 5) (l : BitVec 3)
  | pget (d a k : RF) (g : BitVec 3)
  | pchk (p : BitVec 3) (a b : RF) (g : BitVec 3)
  | pmk (d a b : RF) (g : BitVec 3)
  -- vector operations (R302)
  | vadd (d a b : BitVec 4) (m t : BitVec 3)
  | vsub (d a b : BitVec 4) (m t : BitVec 3)
  | vmul (d a b : BitVec 4) (m t : BitVec 3)
  | vfma (d a b c : BitVec 4) (m t : BitVec 3)
  | vfms (d a b c : BitVec 4) (m t : BitVec 3)
  | vnfma (d a b c : BitVec 4) (m t : BitVec 3)
  | vmin (d a b : BitVec 4) (m t : BitVec 3)
  | vmax (d a b : BitVec 4) (m t : BitVec 3)
  | vabs (d a : BitVec 4) (m t : BitVec 3)
  | vneg (d a : BitVec 4) (m t : BitVec 3)
  | vdiv (d a b : BitVec 4) (m : BitVec 3)
  | vsqrt (d a : BitVec 4) (m : BitVec 3)
  | vrcp (d a : BitVec 4) (m : BitVec 3)
  | vrsq (d a : BitVec 4) (m : BitVec 3)
  | vexp2 (d a : BitVec 4) (m : BitVec 3)
  | vlog2 (d a : BitVec 4) (m : BitVec 3)
  | vcvt (d a : BitVec 4) (x : BitVec 1) (s m t : BitVec 3) (r : BitVec 4)
  | vcmp (p : BitVec 3) (a b : BitVec 4) (m t : BitVec 3) (c : BitVec 4)
  | vsel (d a b : BitVec 4) (m t : BitVec 3)
  | vsum (d a : BitVec 4) (m t : BitVec 3)
  | vmaxr (d a : BitVec 4) (m t : BitVec 3)
  | vbc (d : BitVec 4) (g : RF) (m t : BitVec 3)
  | vins (d : BitVec 4) (g : RF) (l : BitVec 4) (m t : BitVec 3)
  | vext (a : BitVec 4) (g : RF) (l : BitVec 4) (m t : BitVec 3)
  | vperm (d a b : BitVec 4) (m t : BitVec 3)
  | vslide (d a b n : BitVec 4) (m t : BitVec 3)
  | vpack (d a b : BitVec 4) (m t : BitVec 3)
  | vunpack (d a : BitVec 4) (h : BitVec 1) (m t : BitVec 3)
  | vbsc (d a : BitVec 4) (l : BitVec 3) (f : BitVec 4) (m t : BitVec 3) (r : BitVec 4)
  | vand (d a b : BitVec 4) (m t : BitVec 3)
  | vor (d a b : BitVec 4) (m t : BitVec 3)
  | vxor (d a b : BitVec 4) (m t : BitVec 3)
  | vshift (d a b : BitVec 4) (m t : BitVec 3)
  -- accord (R320, R327)
  | mmac (acc : BitVec 2) (na nb fresh ka kb : BitVec 1) (ra rb : BitVec 16) (mode : BitVec 2)
  | mzero (acc : BitVec 2)
  | mget (acc : BitVec 2) (a : RF)
  | mput (acc : BitVec 2) (a : RF)
  | mwait (a : RF)
  | mstat (d : RF)
  -- the words that are no bundle
  | unassignedEncoding (w0 w1 : W32)
  -- events of a core's turns and of the operations it sent
  | rotationBoundary (core : CoreId)
  | serviceTurn (core : CoreId)
  | serviceRequestArrival (id : Nat)
  | ringCancel (id : Nat)
  | remoteAccessArrival (id : Nat)
  | farOperationArrival (id : Nat)
  | acknowledgement (id : Nat)
  | longResultReturn (core : CoreId) (slot : SlotNo) (id : Nat)
  | waitConditionMet (core : CoreId) (slot : SlotNo)
  | waitx (core : CoreId) (slot : SlotNo)
  | chunkCommit (core : CoreId) (slot : SlotNo)
  -- traps and remote errors
  | privilegedTrap (core : CoreId) (slot : SlotNo)
  | upcallRecord (core : CoreId) (slot : SlotNo)
  | upcallDelivery (core : CoreId)
  | remoteError (id : Nat)
  | errorRecordAck (die : BitVec 2) (n : Nat)
  -- migration of contexts, core assignment, pages
  | registerContextMessage (core : CoreId) (slot : SlotNo)
  | contextArrival (id : Nat)
  | lateReplyForward (core : CoreId) (n : Nat)
  | coreAssign (core : CoreId) (tenant : Tenant) (pc spill : Word) (cap : Nat)
  | coreUnassign (core : CoreId)
  | coreResume (core : CoreId)
  | pageInvalidation (tenant : Tenant) (pool : Bool) (die : BitVec 2) (va : Nat) (large : Bool)
  | pageMigration (tenant : Tenant) (die : BitVec 2) (va : Nat) (large : Bool) (frame : Nat)
  | contextMigration (core : CoreId) (slot : SlotNo) (dest : CoreId)
  -- pre-emption
  | save (core : CoreId) (area spill : Nat) (cap : Nat)
  | withdrawalAnswer (core : CoreId) (slot : SlotNo)
  | saveAreaWrite (core : CoreId)
  | restore (core : CoreId) (area spill : Nat) (cap : Nat)
  | restoreComplete (core : CoreId)
  | divertedArrival (id : Nat)
  | gangHold (core : CoreId) (tag : BitVec 16)
  | gangHoldLift (core : CoreId) (tag : BitVec 16)
  -- scheduling
  | hostActiveMessage (core : CoreId) (q : BitVec 2) (pc w1 w2 : Word) (tenant : Tenant)
  | activeMessageArrival (id : Nat)
  | slotViewReport (core : CoreId)
  | launchPlacement (die : BitVec 2)
  | launchCompletion (die : BitVec 2) (tag : BitVec 16)
  | gangStart (die : BitVec 2)
  | stealRequest (victim thief : CoreId)
  | stealNone (thief : CoreId)
  | stealBackoffExpiry (core : CoreId)
  -- engines
  | copyWrite (core : CoreId) (ch : BitVec 1)
  | copyComplete (core : CoreId) (ch : BitVec 1)
  | copyError (core : CoreId) (ch : BitVec 1)
  | accordCommandBegin (half : BitVec 9)
  | accordCommandRetire (half : BitVec 9)
  | mgetTileRead (core : CoreId)
  | mgetComplete (core : CoreId)
  | surrogateResult (core : CoreId) (slot : SlotNo)
  | heldConstraintReturn (core : CoreId) (slot : SlotNo)
  -- writes of control registers with an effect of their own
  | qwgtWrite (core : CoreId) (x : Word)
  | slotOwnWrite (core : CoreId) (x : Word)
  | kmCfgWrite (core : CoreId) (x : Word)
  | accWgtWrite (core : CoreId) (x : Word)
  | trapCauseWrite (core : CoreId) (x : Word)
  | dbgBpWrite (core : CoreId) (x : Word)
  | dbgWpWrite (core : CoreId) (x : Word)
  -- trace
  | sillageAccept (die : BitVec 2)
  | loss (die : BitVec 2)
  | traceFrame (die : BitVec 2)
  -- fabric
  | outputArbitration (router port : Nat)
  | urgPromotion (router inp : Nat) (vc : BitVec 2)
  | creditReturn (router inp : Nat) (buf : Nat)
  -- debug
  | clusterFreeze (core : CoreId)
  | freeze (cluster : BitVec 8)
  | release (cluster : BitVec 8) (who : Option (CoreId × SlotNo))
  | step (core : CoreId) (slot : SlotNo)
  -- the host's commands to sillage and the fabric
  | filterProgramLoad (die : BitVec 2) (words : List W32) (wgate : Bool)
  | filterCounterRead (die : BitVec 2) (n : BitVec 4)
  | linkFailure (link : Nat)
  | fabricConfig (vw : List Nat) (age : Nat)
  -- bring-up, services and the host's other commands
  | deviceReset
  | sramSelfTest (failing : List Nat)
  | ucieTraining (devId : BitVec 10) (hdm : List HdmDec)
  | accordCalibration
  | firmwareVerification (pub digest body sig : List Byte)
  | identityDerivation
  | normalService
  | devIdWrite (x : BitVec 10)
  | devSvcWrite (die : BitVec 2) (cause : BitVec 4)
  | powerLimit (high : Bool)
  | trapVectorWrite (core : CoreId) (pc : Word)
  | attestationRequest (nonce : List Byte)
  | dieCounterAccess (die : BitVec 2) (n : BitVec 4) (sel : Option (BitVec 8))
  | softError (core : CoreId) (slot : SlotNo) (kind : BitVec 2) (what : Word)
  | unitFence (unit : Nat)
  | traceLaneDown (lane : BitVec 3) (up : Bool)
  deriving DecidableEq, Repr

end Sys2Proof
end

