-- ==== Sys2Proof/WellFormed.lean ====
section
/-! DEFINITION. Which instructions are well formed: what the encoding tables require of the operands
beyond the width of their fields (R78-R90, R302). -/

namespace Sys2Proof

/-- The control-register numbers of R90. -/
def crNumbers : List Nat :=
  [0x000, 0x001, 0x002, 0x003, 0x004, 0x005, 0x006] ++
  [0x008, 0x009, 0x00A, 0x00B, 0x00C, 0x00D, 0x00E, 0x00F] ++
  [0x010, 0x011, 0x018, 0x019, 0x01A, 0x020, 0x021] ++
  [0x028, 0x029, 0x02A, 0x02B, 0x02C, 0x02D, 0x02E, 0x02F, 0x040, 0x041] ++
  [0x800, 0x801, 0x802, 0x803, 0x808, 0x809] ++
  [0x810, 0x811, 0x812, 0x813, 0x814, 0x815, 0x816, 0x817] ++
  [0x818, 0x819, 0x81A, 0x81B, 0x81C, 0x81D, 0x81E, 0x81F, 0x820, 0x828, 0x829]

/-- R90: the number names a control register. -/
def crExists (n : BitVec 12) : Bool := crNumbers.contains n.toNat

/-- R82: a group of n registers from f stays within g63. -/
def groupOk (f : RF) (n : Nat) : Bool := f.toNat + n ≤ 64

/-- R85, R302: a lane type 0-6. -/
def typeOk (t : BitVec 3) : Bool := t != 7

/-- A lane type of AOP 0x20 SUB 8, 9: 0-5 (R302). -/
def typeOk5 (t : BitVec 3) : Bool := t.toNat ≤ 5

/-- Lanes of a type (R300). -/
def laneCount (t : BitVec 3) : Nat :=
  match t.toNat with
  | 0 => 16 | 1 => 32 | 2 => 32 | 3 => 16 | 4 => 32 | 5 => 64 | _ => 64

/-- R104: the BLG values of a format code; false for the reserved codes. -/
def blgOk (f : Nat) (l : Nat) : Bool :=
  if f ≤ 12 then l == 0
  else if f ≤ 17 then 3 ≤ l && l ≤ 7
  else if f == 18 then l == 3
  else if f ≤ 20 then l == 4
  else if f ≤ 26 then 3 ≤ l && l ≤ 7
  else if f ≤ 28 then l == 0
  else false

/-- R314: the selectors of `vbsc`. -/
def vbscOk (l : BitVec 3) (f : BitVec 4) (t : BitVec 3) (r : BitVec 4) : Bool :=
  r.toNat ≤ 4 && t.toNat ≤ 2 && f != 0 && f != 15 && blgOk (f.toNat + 12) l.toNat &&
    decide (2 ^ l.toNat ≤ laneCount t)

/-- The operands meet what the encoding tables require. -/
def Instr.wf : Instr → Bool
  | .loop a _ => a != 0
  | .hstart _ b => groupOk b 3
  | .crr _ n | .crw _ n | .crs _ n | .crc _ n => crExists n
  | .ldn w .. => w != 3
  | .ldx _ _ _ w => w != 7
  | .vldf _ _ _ t | .vldt _ _ _ t => typeOk t
  | .vstf _ _ _ m t => m.toNat ≤ 4 && typeOk t
  | .vgath _ _ _ t | .vscat _ _ _ t => typeOk t
  | .amo _ _ _ w op => op.toNat ≤ 9 && !(op == 1 && w == 1)
  | .red _ _ w op => op.toNat ≤ 8 && !(op == 1 && w == 1)
  | .post _ _ c n => 1 ≤ n.toNat && n.toNat ≤ 8 && groupOk c n.toNat
  | .recv a _ => groupOk a 8
  | .kcfg sz _ off => 4 ≤ sz.toNat && sz.toNat ≤ 14 && off.extractLsb' 0 4 == 0
  | .amsg _ _ c => groupOk c 3
  | .wfield _ n => n.toNat ≤ 5
  | .apxOut k _ => k.toNat ≤ 15
  | .apxRes _ k => k.toNat ≤ 15
  | .cbPush _ b _ => groupOk b 5
  | .cbPull a _ _ => groupOk a 5
  | .movl _ m _ => m != 3
  | .bfx _ _ pos len _ | .bfi _ _ pos len _ => pos.toNat + len.toNat + 1 ≤ 64
  | .pget _ _ k _ => k.toNat ≤ 5
  | .vadd _ _ _ _ t | .vsub _ _ _ _ t | .vmul _ _ _ _ t | .vmin _ _ _ _ t
  | .vmax _ _ _ _ t => typeOk t
  | .vfma _ _ _ _ _ t | .vfms _ _ _ _ _ t | .vnfma _ _ _ _ _ t => typeOk t
  | .vabs _ _ _ t | .vneg _ _ _ t => typeOk5 t
  | .vcvt _ _ _ s _ t r => r.toNat ≤ 4 && typeOk s && typeOk t
  | .vcmp _ _ _ _ t c => c.toNat ≤ 7 && typeOk t && !(6 ≤ c.toNat && t.toNat ≤ 2)
  | .vsel _ _ _ _ t | .vperm _ _ _ _ t | .vpack _ _ _ _ t | .vand _ _ _ _ t | .vor _ _ _ _ t
  | .vxor _ _ _ _ t => typeOk t
  | .vsum _ _ _ t | .vmaxr _ _ _ t | .vbc _ _ _ t => typeOk t
  | .vins _ _ _ _ t | .vext _ _ _ _ t | .vunpack _ _ _ _ t => typeOk t
  | .vslide _ _ _ _ _ t => typeOk t
  | .vshift _ _ _ _ t => 3 ≤ t.toNat && typeOk t
  | .vbsc _ _ l f _ t r => vbscOk l f t r
  | .mmac _ _ _ _ _ _ _ _ mode => mode.toNat ≤ 1
  | _ => true

end Sys2Proof
end

