-- ==== Sys2Proof/Decode.lean ====
section
/-! DEFINITION. The decoder of bundles (R71-R89), total on any two words, and after it the encoder
written from the same tables. A word that no table assigns decodes to a reason code of R88. -/

namespace Sys2Proof

/-! ## Fields -/

/-- Bits `hi:lo` of a word, as a number of `n = hi - lo + 1` bits. -/
def fld (w : W32) (lo n : Nat) : BitVec n := w.extractLsb' lo n

/-- The outcome of decoding one word: an instruction; an instruction but for a register field out of range (reason 5),
which still names the destinations it has (R75, R88); or the lowest reason code it meets. -/
inductive Dec where
  | ok (i : Instr)
  | far (i : Instr)
  | bad (reason : Nat)
  deriving DecidableEq, Repr

/-- One fault of item 1 of R76: the code, when the condition holds. -/
def flt (c : Bool) (reason : Nat) : Nat := if c then reason else 0

/-- The lowest nonzero code of a list, 0 when there is none (R88: the lowest reason). -/
def lowest : List Nat → Nat
  | [] => 0
  | r :: t => let m := lowest t
    if r = 0 then m else if m = 0 then r else min r m

/-- The instruction, unless one of the faults is met. -/
def decIf (faults : List Nat) (i : Instr) : Dec :=
  if lowest faults = 0 then .ok i else if lowest faults = 5 then .far i else .bad (lowest faults)

/-- The same of an instruction whose destination is a field that must be in range: out of range it names no register. -/
def decDst (range : Nat) (faults : List Nat) (i : Instr) : Dec :=
  if range = 0 then decIf faults i else decIf (range :: faults) .nop

/-- A field that an instruction does not use is nonzero: reason 3 (R83, R88). -/
def nz {n : Nat} (x : BitVec n) : Nat := flt (x != 0) 3

/-- A selector outside what the table assigns: reason 2. -/
def sel2 (ok : Bool) : Nat := flt (!ok) 2

/-- A register field out of range: reason 5 (R80, R82). -/
def reg5 (ok : Bool) : Nat := flt (!ok) 5

/-- R80: a 6-bit field that names a vector register. -/
def vecField (x : RF) : Nat := reg5 (x.extractLsb' 4 2 == 0)

/-- R80: a 6-bit field that names a predicate register. -/
def predField (x : RF) : Nat := reg5 (x.extractLsb' 3 3 == 0)

/-! ## C words -/

/-- COP 0x08 (R222). -/
def decSystem (a b c sub : RF) : Dec :=
  match sub.toNat with
  | 0 => decIf [nz b, nz c] (.trap a)
  | 1 => decIf [nz a, nz b, nz c] .eret
  | 2 => decIf [nz a, nz b, nz c] .hret
  | 3 => decIf [nz a, nz b, nz c] .upret
  | 4 => decIf [nz a, nz b, nz c] .brk
  | 5 => decIf [nz b, nz c] (.tmark a)
  | 6 => decIf [nz b, nz c] (.cnt a)
  | 7 => decIf [nz c] (.pshare a b)
  | 8 => decIf [nz a, nz b, nz c] .halt
  | _ => .bad 2

/-- COP 0x07 (R215). -/
def decHelper (a b c sub : RF) : Dec :=
  match sub.toNat with
  | 0 => decIf [nz c, reg5 (groupOk b 3)] (.hstart a b)
  | 1 => decIf [nz a, nz b, nz c] .hend
  | 2 => decIf [nz c] (.hjoin a b)
  | 3 => decIf [nz c] (.hsave a b)
  | 4 => decIf [nz c] (.hload a b)
  | 5 => decIf [nz b, nz c] (.hresume a)
  | _ => .bad 2

/-- COP 0x30 (R267). -/
def decKey (a b c sub : RF) : Dec :=
  match sub.toNat with
  | 0 => decIf [nz c] (.klook a b)
  | 1 => .ok (.kclaim a b c)
  | 2 => decIf [nz b, nz c] (.kready a)
  | 3 => .ok (.kwait a b c)
  | 4 => decIf [nz c] (.kunbind a b)
  | 5 => decIf [nz c] (.kpin a b)
  | 6 => decIf [nz c] (.kunpin a b)
  | 7 => decIf [nz b, nz c] (.kscan a)
  | 8 => .ok (.kload a b c)
  | 9 => decIf [nz b, nz c] (.kinv a)
  | _ => .bad 2

/-- COP 0x31 (R282). -/
def decRing (a b c sub : RF) : Dec :=
  match sub.toNat with
  | 0 => .ok (.rclaim a b c)
  | 1 => decIf [nz b, nz c] (.rpush a)
  | 2 => .ok (.rwait a b c)
  | 3 => decIf [nz b, nz c] (.rrel a)
  | 4 => decIf [nz c] (.rstat a b)
  | 5 => decIf [nz c] (.rset a b)
  | _ => .bad 2

/-- COP 0x32 (R290). -/
def decCopy (a b c sub : RF) : Dec :=
  match sub.toNat with
  | 0 => decIf [nz c] (.cpset a b)
  | 1 => decIf [nz c] (.cpgo a b)
  | 2 => decIf [nz c] (.cpwp a b)
  | 3 => .ok (.cpwait a b c)
  | 4 => decIf [nz b, nz c] (.cpabort a)
  | _ => .bad 2

/-- COP 0x33 (R299). -/
def decMailbox (a b c sub : RF) : Dec :=
  match sub.toNat with
  | 0 => decIf [nz c] (.mbinc a b)
  | 1 => .ok (.mbwait a b c)
  | 2 => decIf [nz c] (.mbrd a b)
  | 3 => decIf [nz c] (.mbset a b)
  | _ => .bad 2

/-- COP 0x34 (R358). -/
def decTask (a b c sub : RF) : Dec :=
  match sub.toNat with
  | 0 => decIf [nz b, nz c] (.spend a)
  | 1 => decIf [reg5 (groupOk c 3)] (.amsg a b c)
  | 2 => decIf [sel2 (b.toNat ≤ 5), nz c] (.wfield a b)
  | 3 => decIf [nz c] (.tgnew a b)
  | 4 => decIf [nz a, nz b, nz c] .tgdone
  | 5 => decIf [nz c] (.tglaunch a b)
  | 6 => decIf [nz c] (.tgstat a b)
  | _ => .bad 2

/-- COP 0x36 (R421). -/
def decApx (a b c sub : RF) : Dec :=
  match sub.toNat with
  | 0 => decDst (predField a) [nz c] (.apxOn (a.extractLsb' 0 3) b)
  | 1 => decIf [nz b, nz c] (.apxIn a)
  | 2 => decIf [sel2 (a.toNat ≤ 15), nz c] (.apxOut a b)
  | 3 => decIf [sel2 (b.toNat ≤ 15), nz c] (.apxRes a b)
  | 4 => decIf [nz a, nz b, nz c] .apxEnd
  | 5 => decIf [nz b, nz c] (.apxInv a)
  | 6 => decIf [nz c] (.apxSt a b)
  | 7 => decIf [nz c] (.apxLd a b)
  | _ => .bad 2

/-- COP 0x37 (R434). -/
def decAlembic (a b c sub : RF) : Dec :=
  match sub.toNat with
  | 0 => decIf [reg5 (groupOk b 5)] (.cbPush a b c)
  | 1 => decIf [reg5 (groupOk a 5)] (.cbPull a b c)
  | 2 => decIf [nz c] (.cbDone a b)
  | 3 => decIf [nz b, nz c] (.cbEnd a)
  | 4 => decIf [nz c] (.cbSt a b)
  | _ => .bad 2

/-- COP 0x28 and 0x2A: width and operation in SUB (R84, R245). -/
def decAtomic (red : Bool) (a b c sub : RF) : Dec :=
  let op := sub.extractLsb' 0 4
  let w := sub.extractLsb' 4 1
  let bad2 := sel2 (op.toNat ≤ (if red then 8 else 9) && !(op == 1 && w == 1))
  let res := flt (sub.extractLsb' 5 1 != 0) 3
  if red then decIf [bad2, res, nz a] (.red b c w op)
  else decIf [bad2, res] (.amo a b c w op)

/-- A C word with L = 0 (R72, R77, R84). Bits 31:30 are the bundle's. -/
def decodeC (w : W32) : Dec :=
  let a : RF := fld w 18 6
  let b : RF := fld w 12 6
  let c : RF := fld w 6 6
  let sub : RF := fld w 0 6
  let imm : BitVec 12 := fld w 0 12
  match (fld w 24 6).toNat with
  | 0x00 => decIf [flt (sub != 0) 2, nz a, nz b, nz c] .nop
  | 0x01 => .ok (.br (fld w 21 3) (fld w 20 1) (fld w 0 20))
  | 0x02 => .ok (.jmp (fld w 0 24))
  | 0x03 => .ok (.call (fld w 0 24))
  | 0x04 => match sub.toNat with
    | 0 => decIf [nz b, nz c] (.jmpi a)
    | 1 => decIf [nz a, nz b, nz c] .ret
    | _ => .bad 2
  | 0x05 => decIf [reg5 (a != 0)] (.loop a (fld w 0 18))
  | 0x06 => decIf [sel2 (sub == 0), nz b, nz c] (.park a)
  | 0x07 => decHelper a b c sub
  | 0x08 => decSystem a b c sub
  | 0x09 => decIf [sel2 (crExists imm), nz b] (.crr a imm)
  | 0x0A => decIf [sel2 (crExists imm), nz b] (.crw a imm)
  | 0x0B => decIf [sel2 (crExists imm), nz b] (.crs a imm)
  | 0x0C => decIf [sel2 (crExists imm), nz b] (.crc a imm)
  | 0x10 => .ok (.ld 0 a b imm)
  | 0x11 => .ok (.ld 1 a b imm)
  | 0x12 => .ok (.ld 2 a b imm)
  | 0x13 => .ok (.ld 3 a b imm)
  | 0x14 => .ok (.ldn 0 a b imm)
  | 0x15 => .ok (.ldn 1 a b imm)
  | 0x16 => .ok (.ldn 2 a b imm)
  | 0x18 => .ok (.st 0 a b imm)
  | 0x19 => .ok (.st 1 a b imm)
  | 0x1A => .ok (.st 2 a b imm)
  | 0x1B => .ok (.st 3 a b imm)
  | 0x1C => decIf [sel2 (sub.extractLsb' 0 3 != 7), flt (sub.extractLsb' 3 3 != 0) 3]
      (.ldx a b c (sub.extractLsb' 0 3))
  | 0x1D => decIf [sel2 (sub.extractLsb' 2 1 == 0), flt (sub.extractLsb' 3 3 != 0) 3]
      (.stx a b c (sub.extractLsb' 0 2))
  | 0x20 => decDst (vecField a) [] (.vld (a.extractLsb' 0 4) b imm)
  | 0x21 => decIf [vecField a] (.vst (a.extractLsb' 0 4) b imm)
  | 0x22 => decDst (vecField a) [sel2 (typeOk (sub.extractLsb' 0 3)), flt (sub.extractLsb' 3 3 != 0) 3]
      (.vldf (a.extractLsb' 0 4) b c (sub.extractLsb' 0 3))
  | 0x23 => decIf [sel2 (typeOk (sub.extractLsb' 0 3) && (sub.extractLsb' 3 3).toNat ≤ 4), vecField a]
      (.vstf (a.extractLsb' 0 4) b c (sub.extractLsb' 3 3) (sub.extractLsb' 0 3))
  | 0x24 => decDst (vecField a) [sel2 (typeOk (sub.extractLsb' 0 3)), flt (sub.extractLsb' 3 3 != 0) 3]
      (.vldt (a.extractLsb' 0 4) b c (sub.extractLsb' 0 3))
  | 0x25 => decDst (vecField a) [sel2 (typeOk (sub.extractLsb' 0 3)), flt (sub.extractLsb' 3 3 != 0) 3,
      vecField c] (.vgath (a.extractLsb' 0 4) b (c.extractLsb' 0 4) (sub.extractLsb' 0 3))
  | 0x26 => decIf [sel2 (typeOk (sub.extractLsb' 0 3)), flt (sub.extractLsb' 3 3 != 0) 3, vecField a,
      vecField c] (.vscat (a.extractLsb' 0 4) b (c.extractLsb' 0 4) (sub.extractLsb' 0 3))
  | 0x28 => decAtomic false a b c sub
  | 0x29 => decIf [flt (sub.extractLsb' 0 4 != 0) 3, flt (sub.extractLsb' 5 1 != 0) 3]
      (.acas a b c (sub.extractLsb' 4 1))
  | 0x2A => decAtomic true a b c sub
  | 0x2B => decIf [sel2 (sub.toNat ≤ 3), nz a, nz b, nz c] (.fence (sub.extractLsb' 0 2))
  | 0x2C => decIf [sel2 (1 ≤ sub.toNat && sub.toNat ≤ 8), reg5 (groupOk c sub.toNat)] (.post a b c sub)
  | 0x2D => decIf [sel2 (sub == 0), nz c, reg5 (groupOk a 8)] (.recv a b)
  | 0x2E => decIf [sel2 (sub == 0), nz b, nz c] (.ipeek a)
  | 0x30 => decKey a b c sub
  | 0x31 => decRing a b c sub
  | 0x32 => decCopy a b c sub
  | 0x33 => decMailbox a b c sub
  | 0x34 => decTask a b c sub
  | 0x35 => .ok (.spawn a (fld w 0 18))
  | 0x36 => decApx a b c sub
  | 0x37 => decAlembic a b c sub
  | _ => .bad 1

/-! ## A words -/

/-- AOP 0x01 (R195). -/
def decInt (d a b : RF) (g : BitVec 3) (sub : BitVec 5) : Dec :=
  match sub.toNat with
  | 0 => .ok (.add d a b g)
  | 1 => .ok (.sub d a b g)
  | 2 => .ok (.mul d a b g)
  | 3 => .ok (.mulh d a b g)
  | 4 => .ok (.mulhn d a b g)
  | 5 => .ok (.div d a b g)
  | 6 => .ok (.divn d a b g)
  | 7 => .ok (.rem d a b g)
  | 8 => .ok (.remn d a b g)
  | 9 => .ok (.and d a b g)
  | 10 => .ok (.or d a b g)
  | 11 => .ok (.xor d a b g)
  | 12 => .ok (.shl d a b g)
  | 13 => .ok (.shr d a b g)
  | 14 => .ok (.sra d a b g)
  | 15 => .ok (.min d a b g)
  | 16 => .ok (.max d a b g)
  | 17 => .ok (.minn d a b g)
  | 18 => .ok (.maxn d a b g)
  | 19 => decIf [nz b] (.clz d a g)
  | 20 => decIf [nz b] (.ctz d a g)
  | 21 => decIf [nz b] (.popc d a g)
  | 22 => .ok (.sel d a b g)
  | _ => .bad 2

/-- AOP 0x20 (R302). -/
def decVArith (vd va vb vc : BitVec 4) (m t : BitVec 3) (sub : BitVec 4) : Dec :=
  match sub.toNat with
  | 0 => decIf [sel2 (typeOk t), nz vc] (.vadd vd va vb m t)
  | 1 => decIf [sel2 (typeOk t), nz vc] (.vsub vd va vb m t)
  | 2 => decIf [sel2 (typeOk t), nz vc] (.vmul vd va vb m t)
  | 3 => decIf [sel2 (typeOk t)] (.vfma vd va vb vc m t)
  | 4 => decIf [sel2 (typeOk t)] (.vfms vd va vb vc m t)
  | 5 => decIf [sel2 (typeOk t)] (.vnfma vd va vb vc m t)
  | 6 => decIf [sel2 (typeOk t), nz vc] (.vmin vd va vb m t)
  | 7 => decIf [sel2 (typeOk t), nz vc] (.vmax vd va vb m t)
  | 8 => decIf [sel2 (typeOk5 t), nz vb, nz vc] (.vabs vd va m t)
  | 9 => decIf [sel2 (typeOk5 t), nz vb, nz vc] (.vneg vd va m t)
  | _ => .bad 2

/-- AOP 0x21 (R302, R306): type f32 alone. -/
def decVLong (vd va vb vc : BitVec 4) (m t : BitVec 3) (sub : BitVec 4) : Dec :=
  match sub.toNat with
  | 0 => decIf [sel2 (t == 0), nz vc] (.vdiv vd va vb m)
  | 1 => decIf [sel2 (t == 0), nz vb, nz vc] (.vsqrt vd va m)
  | 2 => decIf [sel2 (t == 0), nz vb, nz vc] (.vrcp vd va m)
  | 3 => decIf [sel2 (t == 0), nz vb, nz vc] (.vrsq vd va m)
  | 4 => decIf [sel2 (t == 0), nz vb, nz vc] (.vexp2 vd va m)
  | 5 => decIf [sel2 (t == 0), nz vb, nz vc] (.vlog2 vd va m)
  | _ => .bad 2

/-- AOP 0x26 (R302, R311, R312); `g` and `z` are bits 21:16 and 15:14 of the AV-G form. -/
def decVMove (vd va vb vc : BitVec 4) (g : RF) (z : BitVec 2) (m t : BitVec 3) (sub : BitVec 4) : Dec :=
  match sub.toNat with
  | 0 => decIf [sel2 (typeOk t), nz z, nz vc] (.vbc vd g m t)
  | 1 => decIf [sel2 (typeOk t), nz z] (.vins vd g vc m t)
  | 2 => decIf [sel2 (typeOk t), nz z] (.vext vd g vc m t)
  | 3 => decIf [sel2 (typeOk t), nz vc] (.vperm vd va vb m t)
  | 4 => decIf [sel2 (typeOk t)] (.vslide vd va vb vc m t)
  | _ => .bad 2

/-- An A word (R72, R78, R85). -/
def decodeA (w : W32) : Dec :=
  let d : RF := fld w 20 6
  let a : RF := fld w 14 6
  let b : RF := fld w 8 6
  let g : BitVec 3 := fld w 5 3
  let sub5 : BitVec 5 := fld w 0 5
  let imm : BitVec 14 := fld w 0 14
  let vd : BitVec 4 := fld w 22 4
  let va : BitVec 4 := fld w 18 4
  let vb : BitVec 4 := fld w 14 4
  let vc : BitVec 4 := fld w 10 4
  let m : BitVec 3 := fld w 7 3
  let t : BitVec 3 := fld w 4 3
  let sub : BitVec 4 := fld w 0 4
  match (fld w 26 6).toNat with
  | 0x00 => decIf [nz (fld w 0 26)] .nopA
  | 0x01 => decInt d a b g sub5
  | 0x02 => .ok (.addi d a imm)
  | 0x03 => .ok (.andi d a imm)
  | 0x04 => .ok (.ori d a imm)
  | 0x05 => .ok (.xori d a imm)
  | 0x06 => decIf [nz (fld w 6 8)] (.shli d a (fld w 0 6))
  | 0x07 => decIf [nz (fld w 6 8)] (.shri d a (fld w 0 6))
  | 0x08 => decIf [nz (fld w 6 8)] (.srai d a (fld w 0 6))
  | 0x09 => .ok (.movi d (fld w 0 20))
  | 0x0A => .ok (.movh d (fld w 0 20))
  | 0x0B => decIf [sel2 (sub5.toNat ≤ 7), nz (fld w 20 3)] (.cmp (fld w 23 3) a b g (fld w 0 3))
  | 0x0C => .ok (.cmpi (fld w 23 3) (fld w 20 3) a imm)
  | 0x0D => decIf [sel2 (b.toNat + (fld w 2 6).toNat + 1 ≤ 64), nz (fld w 0 1)]
      (.bfx d a b (fld w 2 6) (fld w 1 1))
  | 0x0E => decIf [sel2 (b.toNat + (fld w 2 6).toNat + 1 ≤ 64), nz (fld w 1 1)]
      (.bfi d a b (fld w 2 6) (fld w 0 1))
  | 0x10 => decIf [sel2 (sub5 == 0)] (.padd d a b g)
  | 0x11 => .ok (.paddi d a imm)
  | 0x12 => decIf [sel2 (sub5 == 0)] (.pidx d a b g)
  | 0x13 => decIf [nz (fld w 13 1), nz (fld w 5 3), nz (fld w 0 2)] (.ptag d a (fld w 8 5) (fld w 2 3))
  | 0x14 => decIf [sel2 (sub5 == 0), sel2 (b.toNat ≤ 5)] (.pget d a b g)
  | 0x15 => decIf [sel2 (sub5 == 0), nz (fld w 20 3)] (.pchk (fld w 23 3) a b g)
  | 0x16 => decIf [sel2 (sub5 == 0)] (.pmk d a b g)
  | 0x20 => decVArith vd va vb vc m t sub
  | 0x21 => decVLong vd va vb vc m t sub
  | 0x22 => decIf [sel2 (sub.toNat ≤ 4), sel2 (typeOk (fld w 10 3)), sel2 (typeOk t), nz vb]
      (.vcvt vd va (fld w 13 1) (fld w 10 3) m t sub)
  | 0x23 => decIf [sel2 (sub.toNat ≤ 7), sel2 (typeOk t), sel2 (!(6 ≤ sub.toNat && t.toNat ≤ 2)),
      nz vc, nz (fld w 25 1)] (.vcmp (fld w 22 3) va vb m t sub)
  | 0x24 => decIf [sel2 (sub == 0), sel2 (typeOk t), nz vc] (.vsel vd va vb m t)
  | 0x25 => match sub.toNat with
    | 0 => decIf [sel2 (typeOk t), nz vb, nz vc] (.vsum vd va m t)
    | 1 => decIf [sel2 (typeOk t), nz vb, nz vc] (.vmaxr vd va m t)
    | _ => .bad 2
  | 0x26 => decVMove vd va vb vc (fld w 16 6) (fld w 14 2) m t sub
  | 0x27 => match sub.toNat with
    | 0 => decIf [sel2 (typeOk t), nz vc] (.vpack vd va vb m t)
    | 1 => decIf [sel2 (typeOk t), nz vb, nz (fld w 11 3)] (.vunpack vd va (fld w 10 1) m t)
    | _ => .bad 2
  | 0x28 => decIf [sel2 (vbscOk (fld w 14 3) vc t sub), nz (fld w 17 1)]
      (.vbsc vd va (fld w 14 3) vc m t sub)
  | 0x29 => match sub.toNat with
    | 0 => decIf [sel2 (typeOk t), nz vc] (.vand vd va vb m t)
    | 1 => decIf [sel2 (typeOk t), nz vc] (.vor vd va vb m t)
    | 2 => decIf [sel2 (typeOk t), nz vc] (.vxor vd va vb m t)
    | 3 => decIf [sel2 (3 ≤ t.toNat && typeOk t), nz vc] (.vshift vd va vb m t)
    | _ => .bad 2
  | _ => .bad 1

/-! ## Lone forms -/

/-- A bundle with L = 1 (R72, R79, R86). -/
def decodeLone (w0 w1 : W32) : Dec :=
  let acc : BitVec 2 := fld w0 21 2
  match (fld w0 29 1).toNat, (fld w0 23 6).toNat with
  | 0, 0x02 => decIf [nz (fld w0 21 2), nz (fld w0 0 3), nz (fld w1 0 14)]
      (.kwin (fld w0 15 6) (fld w0 9 6) (fld w0 3 6) (fld w1 26 6) (fld w1 14 12))
  | 0, 0x03 => decIf [sel2 (4 ≤ (fld w0 19 4).toNat && (fld w0 19 4).toNat ≤ 14), nz (fld w0 12 7),
      nz (fld w1 18 14), nz (fld w1 0 4)] (.kcfg (fld w0 19 4) (fld w0 0 12) (fld w1 0 18))
  | 0, 0x04 => decIf [sel2 ((fld w1 14 2).toNat ≤ 1), nz (fld w1 0 14)]
      (.mmac acc (fld w0 20 1) (fld w0 19 1) (fld w0 18 1) (fld w0 17 1) (fld w0 16 1) (fld w0 0 16)
        (fld w1 16 16) (fld w1 14 2))
  | 0, 0x05 => decIf [nz (fld w0 0 21), nz w1] (.mzero acc)
  | 0, 0x06 => decIf [nz (fld w0 0 15), nz w1] (.mget acc (fld w0 15 6))
  | 0, 0x07 => decIf [nz (fld w0 0 15), nz w1] (.mput acc (fld w0 15 6))
  | 0, 0x08 => decIf [nz (fld w0 21 2), nz (fld w0 0 15), nz w1] (.mwait (fld w0 15 6))
  | 0, 0x09 => decIf [nz (fld w0 21 2), nz (fld w0 0 15), nz w1] (.mstat (fld w0 15 6))
  | 1, 0x01 => decIf [sel2 (fld w0 21 2 != 3), nz (fld w0 0 15)] (.movl (fld w0 15 6) (fld w0 21 2) w1)
  | _, _ => .bad 1

/-! ## Bundles -/

/-- The registers of a group of n from a, those up to g63 (R82). -/
def groupOf (a : RF) (n : Nat) : List RF :=
  ((List.range n).filter fun k => a.toNat + k < 64).map fun k => a + BitVec.ofNat 6 k

/-- The general registers that an instruction names as destination, as field values (R75, R82). R210 and R378 count the link of
`call` and `spawn` as written. What `eret`, `upret` and the fast path of `spend` put back is taken as not written under R94, of which
no rule speaks (DESIGN CHOICE, log 80). -/
def Instr.destG : Instr → List RF
  | .call _ | .spawn _ _ => [63]
  | .loop a _ | .hstart a _ | .cnt a | .pshare a _ | .crr a _ => [a]
  | .ld _ a _ _ | .ldn _ a _ _ | .ldx a _ _ _ | .amo a _ _ _ _ | .acas a _ _ _ | .post a _ _ _ => [a]
  | .recv a _ => groupOf a 8
  | .cbPull a _ _ => groupOf a 5
  | .ipeek a | .klook a _ | .kclaim a _ _ | .kwait a _ _ | .kunbind a _ | .kpin a _ | .kunpin a _
  | .kscan a | .kload a _ _ => [a]
  | .kwin d _ _ _ _ => [d]
  | .rclaim a _ _ | .rwait a _ _ | .rstat a _ | .cpgo a _ | .cpwp a _ | .cpwait a _ _ | .mbrd a _ => [a]
  | .amsg a _ _ | .wfield a _ | .tgnew a _ | .tglaunch a _ | .tgstat a _ => [a]
  | .apxRes a _ | .apxSt a _ | .cbSt a _ => [a]
  | .add d _ _ _ | .sub d _ _ _ | .mul d _ _ _ | .mulh d _ _ _ | .mulhn d _ _ _ | .div d _ _ _
  | .divn d _ _ _ | .rem d _ _ _ | .remn d _ _ _ | .and d _ _ _ | .or d _ _ _ | .xor d _ _ _
  | .shl d _ _ _ | .shr d _ _ _ | .sra d _ _ _ | .min d _ _ _ | .max d _ _ _ | .minn d _ _ _
  | .maxn d _ _ _ | .clz d _ _ | .ctz d _ _ | .popc d _ _ | .sel d _ _ _ => [d]
  | .addi d _ _ | .andi d _ _ | .ori d _ _ | .xori d _ _ | .shli d _ _ | .shri d _ _ | .srai d _ _
  | .movi d _ | .movh d _ | .movl d _ _ | .bfx d _ _ _ _ | .bfi d _ _ _ _ => [d]
  | .padd d _ _ _ | .paddi d _ _ | .pidx d _ _ _ | .ptag d _ _ _ | .pget d _ _ _ | .pmk d _ _ _ => [d]
  | .vext _ g _ _ _ => [g]
  | .mstat d => [d]
  | _ => []

/-- The vector registers that an instruction names as destination. -/
def Instr.destV : Instr → List (BitVec 4)
  | .vld v _ _ | .vldf v _ _ _ | .vldt v _ _ _ | .vgath v _ _ _ => [v]
  | .vadd d _ _ _ _ | .vsub d _ _ _ _ | .vmul d _ _ _ _ | .vfma d _ _ _ _ _ | .vfms d _ _ _ _ _
  | .vnfma d _ _ _ _ _ | .vmin d _ _ _ _ | .vmax d _ _ _ _ | .vabs d _ _ _ | .vneg d _ _ _
  | .vdiv d _ _ _ | .vsqrt d _ _ | .vrcp d _ _ | .vrsq d _ _ | .vexp2 d _ _ | .vlog2 d _ _
  | .vcvt d _ _ _ _ _ _ | .vsel d _ _ _ _ | .vsum d _ _ _ | .vmaxr d _ _ _ | .vbc d _ _ _
  | .vins d _ _ _ _ | .vperm d _ _ _ _ | .vslide d _ _ _ _ _ | .vpack d _ _ _ _ | .vunpack d _ _ _ _
  | .vbsc d _ _ _ _ _ _ | .vand d _ _ _ _ | .vor d _ _ _ _ | .vxor d _ _ _ _ | .vshift d _ _ _ _ => [d]
  | _ => []

/-- The predicate registers that an instruction names as destination. -/
def Instr.destP : Instr → List (BitVec 3)
  | .cmp p _ _ _ _ | .cmpi p _ _ _ | .pchk p _ _ _ | .vcmp p _ _ _ _ _ | .apxOn p _ => [p]
  | _ => []

/-- R75: the two instructions name one register as destination; g0 and p0 are exempt. -/
def sameDest (c a : Instr) : Bool :=
  c.destG.any (fun r => r != 0 && a.destG.contains r) || c.destV.any (fun r => a.destV.contains r) ||
    c.destP.any (fun r => r != 0 && a.destP.contains r)

/-- A decoded bundle: two instructions, one lone instruction, or the reason it takes ILLEGAL. -/
inductive Bundle where
  | pair (c a : Instr)
  | lone (i : Instr)
  | bad (reason : Nat)
  deriving DecidableEq, Repr

/-- The reason of a decoded word, 0 when it is an instruction. -/
def Dec.reason : Dec → Nat
  | .ok _ => 0
  | .far _ => 5
  | .bad r => r

/-- The instruction whose destinations a decoded word names. -/
def Dec.named : Dec → Option Instr
  | .ok i | .far i => some i
  | .bad _ => none

/-- Reason 4 of two words: they name one register as destination (R75). -/
def clash (x y : Dec) : Nat :=
  match x.named, y.named with
  | some c, some a => flt (sameDest c a) 4
  | _, _ => 0

/-- A bundle of words 0 and 1 (R72, R75, R88). Every pair of words is one bundle or a reason (R89): the lowest of those of
either word and of reason 4. -/
def decodeBundle (w0 w1 : W32) : Bundle :=
  if fld w0 31 1 == 1 then
    match decodeLone w0 w1 with
    | .ok i => .lone i
    | .far _ => .bad 5
    | .bad r => .bad r
  else
    match decodeC w0, decodeA w1 with
    | .ok c, .ok a => if sameDest c a then .bad 4 else .pair c a
    | x, y => .bad (lowest [x.reason, y.reason, clash x y])

/-- The S bit of a bundle (R72). -/
def bundleS (w0 : W32) : Bool := fld w0 30 1 == 1

/-! ## The encoder -/

/-- A CR word from its fields (R77), bits 31:30 zero. -/
def encCR (cop : BitVec 6) (a b c sub : RF) : W32 := (0 : BitVec 2) ++ cop ++ a ++ b ++ c ++ sub

/-- A CI word (R77). -/
def encCI (cop : BitVec 6) (a b : RF) (imm : BitVec 12) : W32 := (0 : BitVec 2) ++ cop ++ a ++ b ++ imm

/-- An AR word (R78). -/
def encAR (aop : BitVec 6) (d a b : RF) (g : BitVec 3) (sub : BitVec 5) : W32 := aop ++ d ++ a ++ b ++ g ++ sub

/-- An AI word (R78). -/
def encAI (aop : BitVec 6) (d a : RF) (imm : BitVec 14) : W32 := aop ++ d ++ a ++ imm

/-- An AV word (R78). -/
def encAV (aop : BitVec 6) (vd va vb vc : BitVec 4) (m t : BitVec 3) (sub : BitVec 4) : W32 :=
  aop ++ vd ++ va ++ vb ++ vc ++ m ++ t ++ sub

/-- An AV-G word (R78). -/
def encAVG (vd : BitVec 4) (g : RF) (vc : BitVec 4) (m t : BitVec 3) (sub : BitVec 4) : W32 :=
  (0x26 : BitVec 6) ++ vd ++ g ++ (0 : BitVec 2) ++ vc ++ m ++ t ++ sub

/-- Word 0 of a lone form with K = 0 from LOP and bits 22:0 (R72). -/
def encLone (lop : BitVec 6) (f : BitVec 23) : W32 := (1 : BitVec 1) ++ (0 : BitVec 2) ++ lop ++ f

/-- Where an instruction stands in a bundle. -/
inductive Place where
  | c | a | lone | event
  deriving DecidableEq, Repr

/-- Words 0 and 1 of a bundle that holds the instruction, S = 0, the partner word `nop`
(R77-R79, R84-R86). Events have no words and answer zero. -/
def encode : Instr → Place × W32 × W32
  | .nop => (.c, 0, 0)
  | .nopA => (.a, 0, 0)
  | .br p n d => (.c, (0 : BitVec 2) ++ (0x01 : BitVec 6) ++ p ++ n ++ d, 0)
  | .jmp d => (.c, (0 : BitVec 2) ++ (0x02 : BitVec 6) ++ d, 0)
  | .call d => (.c, (0 : BitVec 2) ++ (0x03 : BitVec 6) ++ d, 0)
  | .jmpi a => (.c, encCR 0x04 a 0 0 0, 0)
  | .ret => (.c, encCR 0x04 0 0 0 1, 0)
  | .loop a d => (.c, (0 : BitVec 2) ++ (0x05 : BitVec 6) ++ a ++ d, 0)
  | .park a => (.c, encCR 0x06 a 0 0 0, 0)
  | .hstart a b => (.c, encCR 0x07 a b 0 0, 0)
  | .hend => (.c, encCR 0x07 0 0 0 1, 0)
  | .hjoin a b => (.c, encCR 0x07 a b 0 2, 0)
  | .hsave a b => (.c, encCR 0x07 a b 0 3, 0)
  | .hload a b => (.c, encCR 0x07 a b 0 4, 0)
  | .hresume a => (.c, encCR 0x07 a 0 0 5, 0)
  | .trap a => (.c, encCR 0x08 a 0 0 0, 0)
  | .eret => (.c, encCR 0x08 0 0 0 1, 0)
  | .hret => (.c, encCR 0x08 0 0 0 2, 0)
  | .upret => (.c, encCR 0x08 0 0 0 3, 0)
  | .brk => (.c, encCR 0x08 0 0 0 4, 0)
  | .tmark a => (.c, encCR 0x08 a 0 0 5, 0)
  | .cnt a => (.c, encCR 0x08 a 0 0 6, 0)
  | .pshare a b => (.c, encCR 0x08 a b 0 7, 0)
  | .halt => (.c, encCR 0x08 0 0 0 8, 0)
  | .crr a n => (.c, encCI 0x09 a 0 n, 0)
  | .crw a n => (.c, encCI 0x0A a 0 n, 0)
  | .crs a n => (.c, encCI 0x0B a 0 n, 0)
  | .crc a n => (.c, encCI 0x0C a 0 n, 0)
  | .ld w a b e => (.c, encCI ((0x04 : BitVec 4) ++ w) a b e, 0)
  | .ldn w a b e => (.c, encCI ((0x05 : BitVec 4) ++ w) a b e, 0)
  | .st w a b e => (.c, encCI ((0x06 : BitVec 4) ++ w) a b e, 0)
  | .ldx a b c w => (.c, encCR 0x1C a b c ((0 : BitVec 3) ++ w), 0)
  | .stx a b c w => (.c, encCR 0x1D a b c ((0 : BitVec 4) ++ w), 0)
  | .vld v b e => (.c, encCI 0x20 ((0 : BitVec 2) ++ v) b e, 0)
  | .vst v b e => (.c, encCI 0x21 ((0 : BitVec 2) ++ v) b e, 0)
  | .vldf v b c t => (.c, encCR 0x22 ((0 : BitVec 2) ++ v) b c ((0 : BitVec 3) ++ t), 0)
  | .vstf v b c m t => (.c, encCR 0x23 ((0 : BitVec 2) ++ v) b c (m ++ t), 0)
  | .vldt v b c t => (.c, encCR 0x24 ((0 : BitVec 2) ++ v) b c ((0 : BitVec 3) ++ t), 0)
  | .vgath v b x t => (.c, encCR 0x25 ((0 : BitVec 2) ++ v) b ((0 : BitVec 2) ++ x) ((0 : BitVec 3) ++ t), 0)
  | .vscat v b x t => (.c, encCR 0x26 ((0 : BitVec 2) ++ v) b ((0 : BitVec 2) ++ x) ((0 : BitVec 3) ++ t), 0)
  | .amo a b c w op => (.c, encCR 0x28 a b c ((0 : BitVec 1) ++ w ++ op), 0)
  | .acas a b c w => (.c, encCR 0x29 a b c ((0 : BitVec 1) ++ w ++ (0 : BitVec 4)), 0)
  | .red b c w op => (.c, encCR 0x2A 0 b c ((0 : BitVec 1) ++ w ++ op), 0)
  | .fence k => (.c, encCR 0x2B 0 0 0 ((0 : BitVec 4) ++ k), 0)
  | .post a b c n => (.c, encCR 0x2C a b c n, 0)
  | .recv a b => (.c, encCR 0x2D a b 0 0, 0)
  | .ipeek a => (.c, encCR 0x2E a 0 0 0, 0)
  | .klook a b => (.c, encCR 0x30 a b 0 0, 0)
  | .kclaim a b c => (.c, encCR 0x30 a b c 1, 0)
  | .kready a => (.c, encCR 0x30 a 0 0 2, 0)
  | .kwait a b c => (.c, encCR 0x30 a b c 3, 0)
  | .kunbind a b => (.c, encCR 0x30 a b 0 4, 0)
  | .kpin a b => (.c, encCR 0x30 a b 0 5, 0)
  | .kunpin a b => (.c, encCR 0x30 a b 0 6, 0)
  | .kscan a => (.c, encCR 0x30 a 0 0 7, 0)
  | .kload a b c => (.c, encCR 0x30 a b c 8, 0)
  | .kinv a => (.c, encCR 0x30 a 0 0 9, 0)
  | .kwin d a b w1 base => (.lone, encLone 0x02 ((0 : BitVec 2) ++ d ++ a ++ b ++ (0 : BitVec 3)),
      w1 ++ base ++ (0 : BitVec 14))
  | .kcfg sz cnt off => (.lone, encLone 0x03 (sz ++ (0 : BitVec 7) ++ cnt), (0 : BitVec 14) ++ off)
  | .rclaim a b c => (.c, encCR 0x31 a b c 0, 0)
  | .rpush a => (.c, encCR 0x31 a 0 0 1, 0)
  | .rwait a b c => (.c, encCR 0x31 a b c 2, 0)
  | .rrel a => (.c, encCR 0x31 a 0 0 3, 0)
  | .rstat a b => (.c, encCR 0x31 a b 0 4, 0)
  | .rset a b => (.c, encCR 0x31 a b 0 5, 0)
  | .cpset a b => (.c, encCR 0x32 a b 0 0, 0)
  | .cpgo a b => (.c, encCR 0x32 a b 0 1, 0)
  | .cpwp a b => (.c, encCR 0x32 a b 0 2, 0)
  | .cpwait a b c => (.c, encCR 0x32 a b c 3, 0)
  | .cpabort a => (.c, encCR 0x32 a 0 0 4, 0)
  | .mbinc a b => (.c, encCR 0x33 a b 0 0, 0)
  | .mbwait a b c => (.c, encCR 0x33 a b c 1, 0)
  | .mbrd a b => (.c, encCR 0x33 a b 0 2, 0)
  | .mbset a b => (.c, encCR 0x33 a b 0 3, 0)
  | .spend a => (.c, encCR 0x34 a 0 0 0, 0)
  | .amsg a b c => (.c, encCR 0x34 a b c 1, 0)
  | .wfield a n => (.c, encCR 0x34 a n 0 2, 0)
  | .tgnew a b => (.c, encCR 0x34 a b 0 3, 0)
  | .tgdone => (.c, encCR 0x34 0 0 0 4, 0)
  | .tglaunch a b => (.c, encCR 0x34 a b 0 5, 0)
  | .tgstat a b => (.c, encCR 0x34 a b 0 6, 0)
  | .spawn a d => (.c, (0 : BitVec 2) ++ (0x35 : BitVec 6) ++ a ++ d, 0)
  | .apxOn p b => (.c, encCR 0x36 ((0 : BitVec 3) ++ p) b 0 0, 0)
  | .apxIn a => (.c, encCR 0x36 a 0 0 1, 0)
  | .apxOut k b => (.c, encCR 0x36 k b 0 2, 0)
  | .apxRes a k => (.c, encCR 0x36 a k 0 3, 0)
  | .apxEnd => (.c, encCR 0x36 0 0 0 4, 0)
  | .apxInv a => (.c, encCR 0x36 a 0 0 5, 0)
  | .apxSt a b => (.c, encCR 0x36 a b 0 6, 0)
  | .apxLd a b => (.c, encCR 0x36 a b 0 7, 0)
  | .cbPush a b c => (.c, encCR 0x37 a b c 0, 0)
  | .cbPull a b c => (.c, encCR 0x37 a b c 1, 0)
  | .cbDone a b => (.c, encCR 0x37 a b 0 2, 0)
  | .cbEnd a => (.c, encCR 0x37 a 0 0 3, 0)
  | .cbSt a b => (.c, encCR 0x37 a b 0 4, 0)
  | .add d a b g => (.a, 0, encAR 0x01 d a b g 0)
  | .sub d a b g => (.a, 0, encAR 0x01 d a b g 1)
  | .mul d a b g => (.a, 0, encAR 0x01 d a b g 2)
  | .mulh d a b g => (.a, 0, encAR 0x01 d a b g 3)
  | .mulhn d a b g => (.a, 0, encAR 0x01 d a b g 4)
  | .div d a b g => (.a, 0, encAR 0x01 d a b g 5)
  | .divn d a b g => (.a, 0, encAR 0x01 d a b g 6)
  | .rem d a b g => (.a, 0, encAR 0x01 d a b g 7)
  | .remn d a b g => (.a, 0, encAR 0x01 d a b g 8)
  | .and d a b g => (.a, 0, encAR 0x01 d a b g 9)
  | .or d a b g => (.a, 0, encAR 0x01 d a b g 10)
  | .xor d a b g => (.a, 0, encAR 0x01 d a b g 11)
  | .shl d a b g => (.a, 0, encAR 0x01 d a b g 12)
  | .shr d a b g => (.a, 0, encAR 0x01 d a b g 13)
  | .sra d a b g => (.a, 0, encAR 0x01 d a b g 14)
  | .min d a b g => (.a, 0, encAR 0x01 d a b g 15)
  | .max d a b g => (.a, 0, encAR 0x01 d a b g 16)
  | .minn d a b g => (.a, 0, encAR 0x01 d a b g 17)
  | .maxn d a b g => (.a, 0, encAR 0x01 d a b g 18)
  | .clz d a g => (.a, 0, encAR 0x01 d a 0 g 19)
  | .ctz d a g => (.a, 0, encAR 0x01 d a 0 g 20)
  | .popc d a g => (.a, 0, encAR 0x01 d a 0 g 21)
  | .sel d a b p => (.a, 0, encAR 0x01 d a b p 22)
  | .addi d a i => (.a, 0, encAI 0x02 d a i)
  | .andi d a i => (.a, 0, encAI 0x03 d a i)
  | .ori d a i => (.a, 0, encAI 0x04 d a i)
  | .xori d a i => (.a, 0, encAI 0x05 d a i)
  | .shli d a n => (.a, 0, encAI 0x06 d a ((0 : BitVec 8) ++ n))
  | .shri d a n => (.a, 0, encAI 0x07 d a ((0 : BitVec 8) ++ n))
  | .srai d a n => (.a, 0, encAI 0x08 d a ((0 : BitVec 8) ++ n))
  | .movi d i => (.a, 0, (0x09 : BitVec 6) ++ d ++ i)
  | .movh d i => (.a, 0, (0x0A : BitVec 6) ++ d ++ i)
  | .movl d m i => (.lone, (1 : BitVec 1) ++ (0 : BitVec 1) ++ (1 : BitVec 1) ++ (0x01 : BitVec 6) ++ m ++ d ++
      (0 : BitVec 15), i)
  | .cmp p a b g c => (.a, 0, encAR 0x0B (p ++ (0 : BitVec 3)) a b g ((0 : BitVec 2) ++ c))
  | .cmpi p c a i => (.a, 0, encAI 0x0C (p ++ c) a i)
  | .bfx d a pos len sg => (.a, 0, (0x0D : BitVec 6) ++ d ++ a ++ pos ++ len ++ sg ++ (0 : BitVec 1))
  | .bfi d a pos len z => (.a, 0, (0x0E : BitVec 6) ++ d ++ a ++ pos ++ len ++ (0 : BitVec 1) ++ z)
  | .padd d a b g => (.a, 0, encAR 0x10 d a b g 0)
  | .paddi d a i => (.a, 0, encAI 0x11 d a i)
  | .pidx d a b g => (.a, 0, encAR 0x12 d a b g 0)
  | .ptag d a f l => (.a, 0, (0x13 : BitVec 6) ++ d ++ a ++ (0 : BitVec 1) ++ f ++ (0 : BitVec 3) ++ l ++
      (0 : BitVec 2))
  | .pget d a k g => (.a, 0, encAR 0x14 d a k g 0)
  | .pchk p a b g => (.a, 0, encAR 0x15 (p ++ (0 : BitVec 3)) a b g 0)
  | .pmk d a b g => (.a, 0, encAR 0x16 d a b g 0)
  | .vadd d a b m t => (.a, 0, encAV 0x20 d a b 0 m t 0)
  | .vsub d a b m t => (.a, 0, encAV 0x20 d a b 0 m t 1)
  | .vmul d a b m t => (.a, 0, encAV 0x20 d a b 0 m t 2)
  | .vfma d a b c m t => (.a, 0, encAV 0x20 d a b c m t 3)
  | .vfms d a b c m t => (.a, 0, encAV 0x20 d a b c m t 4)
  | .vnfma d a b c m t => (.a, 0, encAV 0x20 d a b c m t 5)
  | .vmin d a b m t => (.a, 0, encAV 0x20 d a b 0 m t 6)
  | .vmax d a b m t => (.a, 0, encAV 0x20 d a b 0 m t 7)
  | .vabs d a m t => (.a, 0, encAV 0x20 d a 0 0 m t 8)
  | .vneg d a m t => (.a, 0, encAV 0x20 d a 0 0 m t 9)
  | .vdiv d a b m => (.a, 0, encAV 0x21 d a b 0 m 0 0)
  | .vsqrt d a m => (.a, 0, encAV 0x21 d a 0 0 m 0 1)
  | .vrcp d a m => (.a, 0, encAV 0x21 d a 0 0 m 0 2)
  | .vrsq d a m => (.a, 0, encAV 0x21 d a 0 0 m 0 3)
  | .vexp2 d a m => (.a, 0, encAV 0x21 d a 0 0 m 0 4)
  | .vlog2 d a m => (.a, 0, encAV 0x21 d a 0 0 m 0 5)
  | .vcvt d a x sv m t r => (.a, 0, encAV 0x22 d a 0 (x ++ sv) m t r)
  | .vcmp p a b m t c => (.a, 0, encAV 0x23 ((0 : BitVec 1) ++ p) a b 0 m t c)
  | .vsel d a b m t => (.a, 0, encAV 0x24 d a b 0 m t 0)
  | .vsum d a m t => (.a, 0, encAV 0x25 d a 0 0 m t 0)
  | .vmaxr d a m t => (.a, 0, encAV 0x25 d a 0 0 m t 1)
  | .vbc d g m t => (.a, 0, encAVG d g 0 m t 0)
  | .vins d g l m t => (.a, 0, encAVG d g l m t 1)
  | .vext a g l m t => (.a, 0, encAVG a g l m t 2)
  | .vperm d a b m t => (.a, 0, encAV 0x26 d a b 0 m t 3)
  | .vslide d a b n m t => (.a, 0, encAV 0x26 d a b n m t 4)
  | .vpack d a b m t => (.a, 0, encAV 0x27 d a b 0 m t 0)
  | .vunpack d a h m t => (.a, 0, encAV 0x27 d a 0 ((0 : BitVec 3) ++ h) m t 1)
  | .vbsc d a l f m t r => (.a, 0, encAV 0x28 d a ((0 : BitVec 1) ++ l) f m t r)
  | .vand d a b m t => (.a, 0, encAV 0x29 d a b 0 m t 0)
  | .vor d a b m t => (.a, 0, encAV 0x29 d a b 0 m t 1)
  | .vxor d a b m t => (.a, 0, encAV 0x29 d a b 0 m t 2)
  | .vshift d a b m t => (.a, 0, encAV 0x29 d a b 0 m t 3)
  | .mmac acc na nb fr ka kb ra rb mode => (.lone, encLone 0x04 (acc ++ na ++ nb ++ fr ++ ka ++ kb ++ ra),
      rb ++ mode ++ (0 : BitVec 14))
  | .mzero acc => (.lone, encLone 0x05 (acc ++ (0 : BitVec 21)), 0)
  | .mget acc a => (.lone, encLone 0x06 (acc ++ a ++ (0 : BitVec 15)), 0)
  | .mput acc a => (.lone, encLone 0x07 (acc ++ a ++ (0 : BitVec 15)), 0)
  | .mwait a => (.lone, encLone 0x08 ((0 : BitVec 2) ++ a ++ (0 : BitVec 15)), 0)
  | .mstat d => (.lone, encLone 0x09 ((0 : BitVec 2) ++ d ++ (0 : BitVec 15)), 0)
  | _ => (.event, 0, 0)

/-- Where the instruction stands in a bundle. -/
def Instr.place (i : Instr) : Place := (encode i).1

/-! ## The table's numbering -/

/-- The instruction of a bundle whose partner word is `nop`. -/
def Bundle.only : Bundle → Option Instr
  | .lone i => some i
  | .pair c a => if c = .nop then (if a = .nopA then some .nop else some a) else some c
  | .bad _ => none

/-- How `decodeTableWord` reads a row of at most 32 bits: the table numbers a C word and an A word
alike, so the word is taken as a C word when it is one with S = 0, and as an A word otherwise. -/
def tableAsA (w : Nat) : Bool :=
  match decodeC (BitVec.ofNat 32 w) with
  | .ok _ => !(w < 2 ^ 30) || w = 0
  | _ => w < 2 ^ 31 || (decodeBundle (BitVec.ofNat 32 w) 0).only.isNone

/-- The two words of the bundle that holds a table row's instruction: a C or lone word stands as
word 0, an A word as word 1 with word 0 `nop`. -/
def tableWords (nbits w : Nat) : W32 × W32 :=
  if nbits ≤ 32 ∧ w < 2 ^ 32 ∧ tableAsA w then (0, BitVec.ofNat 32 w)
  else (BitVec.ofNat 32 w, BitVec.ofNat 32 (w / 2 ^ 32))

/-- The instruction the decoder reads from an instruction whose bits are `w`, numbered as
opcode_table.json numbers them. -/
def decodeTableWord (nbits w : Nat) : Option Instr :=
  (decodeBundle (tableWords nbits w).1 (tableWords nbits w).2).only

end Sys2Proof
end

