-- ==== Sys2Proof/Machine/Numbers.lean ====
section
/-! DEFINITION. Number formats, exact values, rounding and quantisation (R104-R120, R122, R128-R130). -/

namespace Sys2Proof.Machine

/-! ## Exact values -/

/-- An exact value: NaN, an infinity, or a signed rational `n / d` with `d > 0` (zero keeps its sign). -/
inductive Num where
  | nan
  | inf (neg : Bool)
  | fin (neg : Bool) (n d : Nat)
  deriving DecidableEq, Repr

/-- `2^e` times a natural, as a rational. -/
def Num.scaled (neg : Bool) (m : Nat) (e : Int) : Num :=
  if 0 ≤ e then .fin neg (m * 2 ^ e.toNat) 1 else .fin neg m (2 ^ (-e).toNat)

/-- An integer. -/
def Num.ofInt (x : Int) : Num := .fin (x < 0) x.natAbs 1

/-- The value is a zero. -/
def Num.isZero : Num → Bool
  | .fin _ n _ => n = 0
  | _ => false

/-- The value is NaN. -/
def Num.isNan : Num → Bool
  | .nan => true
  | _ => false

/-- The value is an infinity. -/
def Num.isInf : Num → Bool
  | .inf _ => true
  | _ => false

/-- The sign: true below zero and for -0. -/
def Num.sign : Num → Bool
  | .nan => false
  | .inf s => s
  | .fin s _ _ => s

/-- Changes the sign of everything but NaN (R123). -/
def Num.neg : Num → Num
  | .nan => .nan
  | .inf s => .inf (!s)
  | .fin s n d => .fin (!s) n d

/-- The exact product; infinity times zero is NaN (R111, R122). -/
def Num.mul : Num → Num → Num
  | .nan, _ => .nan
  | _, .nan => .nan
  | .inf s, .inf t => .inf (s != t)
  | .inf s, .fin t n _ => if n = 0 then .nan else .inf (s != t)
  | .fin s n _, .inf t => if n = 0 then .nan else .inf (s != t)
  | .fin s n d, .fin t m e => .fin (s != t) (n * m) (d * e)

/-- The product is an invalid operation: infinity times zero of two values that are not NaN. -/
def Num.mulInvalid (x y : Num) : Bool := !x.isNan && !y.isNan && (x.mul y).isNan

/-- A signed numerator. -/
def signedNat (neg : Bool) (n : Nat) : Int := if neg then -(n : Int) else n

/-- The exact sum by the rules of R122: NaN, infinities of both signs, and the sign of an exact zero. -/
def Num.sum2 (x y : Num) : Num :=
  match x, y with
  | .nan, _ => .nan
  | _, .nan => .nan
  | .inf s, .inf t => if s = t then .inf s else .nan
  | .inf s, .fin _ _ _ => .inf s
  | .fin _ _ _, .inf t => .inf t
  | .fin s n d, .fin t m e =>
    let z := signedNat s n * e + signedNat t m * d
    if z = 0 then .fin (s && t && n = 0 && m = 0) 0 1 else .fin (z < 0) z.natAbs (d * e)

/-- The sum of a nonempty list of addends (R122). -/
def Num.sum : List Num → Num
  | [] => .fin false 0 1
  | [x] => x
  | x :: t => x.sum2 (Num.sum t)

/-- A sum is an invalid operation: no addend is NaN and infinities of both signs occur. -/
def Num.sumInvalid (xs : List Num) : Bool := xs.all (fun x => !x.isNan) && (Num.sum xs).isNan

/-- The order of values that are not NaN; zeros are equal. -/
def Num.cmp : Num → Num → Ordering
  | .nan, _ => .eq
  | _, .nan => .eq
  | .inf s, .inf t => if s = t then .eq else if s then .lt else .gt
  | .inf s, .fin _ _ _ => if s then .lt else .gt
  | .fin _ _ _, .inf t => if t then .gt else .lt
  | .fin s n d, .fin t m e => compare (signedNat s n * e) (signedNat t m * d)

/-- The exact quotient of finite values, the divisor not zero. -/
def Num.divFin : Num → Num → Num
  | .fin s n d, .fin t m e => .fin (s != t) (n * e) (d * m)
  | _, _ => .nan

/-! ## Float formats -/

/-- A float format of R105: exponent and fraction bits, bias, largest finite code without sign, the
codes of infinity and of the canonical NaN. -/
structure FFmt where
  e : Nat
  m : Nat
  bias : Nat
  maxc : Nat
  inf : Option Nat
  nan : Option Nat
  deriving DecidableEq, Repr

/-- The float formats by code (R105, R108). -/
def ffmt : Nat → FFmt
  | 1 => { e := 8, m := 7, bias := 127, maxc := 0x7F7F, inf := some 0x7F80, nan := some 0x7FC0 }
  | 2 => { e := 5, m := 10, bias := 15, maxc := 0x7BFF, inf := some 0x7C00, nan := some 0x7E00 }
  | 3 => { e := 8, m := 23, bias := 127, maxc := 0x7F7FFFFF, inf := some 0x7F800000, nan := some 0x7FC00000 }
  | 4 => { e := 4, m := 3, bias := 7, maxc := 0x7E, inf := none, nan := some 0x7F }
  | 5 => { e := 5, m := 2, bias := 15, maxc := 0x7B, inf := some 0x7C, nan := some 0x7E }
  | 6 => { e := 3, m := 2, bias := 3, maxc := 0x1F, inf := none, nan := none }
  | 7 => { e := 2, m := 3, bias := 1, maxc := 0x1F, inf := none, nan := none }
  | _ => { e := 2, m := 1, bias := 1, maxc := 0x7, inf := none, nan := none }

/-- The element format of a code: 1-8 floats, 9-12 integers (R104, R118, R119). -/
def elemFmt : Nat → Nat
  | 13 => 4 | 14 => 5 | 15 => 6 | 16 => 7 | 17 => 8 | 18 => 8 | 19 => 4 | 20 => 6
  | 21 => 9 | 22 => 10 | 23 => 11 | 24 => 12 | 25 => 9 | 26 => 11 | f => f

/-- The element width in bits (R104): 8 for RAW as `pidx` counts it (R205). -/
def elemWidth (f : Nat) : Nat :=
  match elemFmt f with
  | 0 => 8 | 1 => 16 | 2 => 16 | 3 => 32 | 8 => 4 | 11 => 4 | 12 => 4 | 27 => 4 | _ => 8

/-- A blocked format: scaled or affine (R110). -/
def isBlocked (f : Nat) : Bool := 13 ≤ f && f ≤ 26

/-- Block bytes beside the elements: the scale, and the zero point of codes 21-24 (R110). -/
def zeroPt (f : Nat) : Nat := if 21 ≤ f && f ≤ 24 then 1 else 0

/-- Bytes of a block of 2^l elements (R110). -/
def blockBytes (f l : Nat) : Nat := 1 + zeroPt f + 2 ^ l * elemWidth f / 8

/-- The value of a float code (R105). -/
def decodeFloat (f : Nat) (code : Nat) : Num :=
  let x := ffmt f
  let m := code % 2 ^ x.m
  let e := code / 2 ^ x.m % 2 ^ x.e
  let s := code / 2 ^ (x.m + x.e) % 2 = 1
  if f = 4 ∧ e = 15 ∧ m = 7 then .nan
  else if x.inf.isSome ∧ e = 2 ^ x.e - 1 then (if m = 0 then .inf s else .nan)
  else if e = 0 then Num.scaled s m (1 - (x.bias : Int) - x.m)
  else Num.scaled s (2 ^ x.m + m) ((e : Int) - x.bias - x.m)

/-- Two's complement of `w` bits. -/
def toSigned (w x : Nat) : Int :=
  let y := x % 2 ^ w
  if 2 ^ w ≤ 2 * y then (y : Int) - 2 ^ w else y

/-- The value of an integer code (R107). -/
def decodeInt (f : Nat) (code : Nat) : Int :=
  match f with
  | 9 => toSigned 8 code
  | 11 => toSigned 4 code
  | 12 => (code % 16 : Nat)
  | _ => (code % 256 : Nat)

/-- The value of an element code of an unscaled format 1-12 (R111). -/
def decodeElem (f : Nat) (code : Nat) : Num :=
  if 9 ≤ f then Num.ofInt (decodeInt f code) else decodeFloat f code

/-- The value of an E3M5 scale (R109). -/
def e3m5 (c : Nat) : Num :=
  let e := c / 32 % 8; let m := c % 32
  if e = 0 then Num.scaled false m (-7) else Num.scaled false (32 + m) ((e : Int) - 3 - 5)

/-- The value of an E5M3 scale (R109). -/
def e5m3 (c : Nat) : Num :=
  let e := c / 8 % 32; let m := c % 8
  if e = 0 then Num.scaled false m (-17) else Num.scaled false (8 + m) ((e : Int) - 15 - 3)

/-! ## Flags of FP.FLAGS (R131) -/

def flagNV : BitVec 6 := 1
def flagDZ : BitVec 6 := 2
def flagOF : BitVec 6 := 4
def flagUF : BitVec 6 := 8
def flagNX : BitVec 6 := 16
def flagSAT : BitVec 6 := 32

/-! ## Rounding -/

/-- Rounds the rational `n / d` to a natural under a mode (R114), for a value of sign `neg`. -/
def roundNat (mode : Nat) (neg : Bool) (n d : Nat) : Nat :=
  let q := n / d; let r := n % d
  let up := match mode with
    | 0 => d < 2 * r || (d = 2 * r && q % 2 = 1)
    | 1 => false
    | 2 => !neg && r ≠ 0
    | 3 => neg && r ≠ 0
    | _ => d ≤ 2 * r
  if up then q + 1 else q

/-- floor(log2(n / d)) of a positive rational. -/
def floorLog2 (n d : Nat) : Int :=
  let l : Int := (Nat.log2 n : Int) - Nat.log2 d
  if 0 ≤ l then (if n < d * 2 ^ l.toNat then l - 1 else l)
  else (if n * 2 ^ (-l).toNat < d then l - 1 else l)

/-- `n / d` divided by `2^e`, as numerator and denominator. -/
def overPow (n d : Nat) (e : Int) : Nat × Nat :=
  if 0 ≤ e then (n, d * 2 ^ e.toNat) else (n * 2 ^ (-e).toNat, d)

/-- A code with its flags. -/
structure Rounded where
  code : Nat
  flags : BitVec 6
  deriving DecidableEq, Repr

/-- The sign bit of a format. -/
def signBit (x : FFmt) (neg : Bool) : Nat := if neg then 2 ^ (x.e + x.m) else 0

/-- The result of an overflow (R115). -/
def overflow (x : FFmt) (mode : Nat) (sat neg : Bool) : Rounded :=
  match x.inf with
  | some i =>
    if sat then { code := signBit x neg + x.maxc, flags := flagSAT ||| flagNX }
    else
      let toInf := match mode with
        | 0 => true | 1 => false | 2 => !neg | 3 => neg | _ => true
      { code := signBit x neg + (if toInf then i else x.maxc), flags := flagOF ||| flagNX }
  | none => { code := signBit x neg + x.maxc, flags := flagSAT ||| flagNX }

/-- `Round(x, fmt, mode)` to a float format with its flags (R115, R116, R131). -/
def roundFloat (f mode : Nat) (sat : Bool) (v : Num) : Rounded :=
  let x := ffmt f
  match v with
  | .nan => match x.nan with
    | some c => { code := c, flags := 0 }
    | none => { code := 0, flags := flagNV }
  | .inf s => match x.inf with
    | some i => if sat then { code := signBit x s + x.maxc, flags := flagSAT ||| flagNX }
        else { code := signBit x s + i, flags := 0 }
    | none => { code := signBit x s + x.maxc, flags := flagSAT ||| flagNX }
  | .fin s n d =>
    if n = 0 then { code := signBit x s, flags := 0 }
    else
      let emin : Int := 1 - (x.bias : Int)
      let et := floorLog2 n d
      let e := if et < emin then emin else et
      let q := overPow n d (e - x.m)
      let k := roundNat mode s q.1 q.2
      let exact : Bool := k * q.2 = q.1
      -- tiny: rounded with an unbounded exponent range, still below the smallest normal
      let qt := overPow n d (et - x.m)
      let tiny : Bool := et < emin && (et + 1 < emin || roundNat mode s qt.1 qt.2 < 2 ^ (x.m + 1))
      let code := if k < 2 ^ x.m then k else (e + x.bias - 1).toNat * 2 ^ x.m + k
      if x.maxc < code then overflow x mode sat s
      else { code := signBit x s + code,
             flags := (if exact then 0 else flagNX) ||| (if tiny && !exact then flagUF else 0) }

/-- The range of an integer format (R107). -/
def intRange (f : Nat) : Int × Int :=
  match f with
  | 9 => (-128, 127)
  | 11 => (-8, 7)
  | 12 => (0, 15)
  | _ => (0, 255)

/-- Rounds to an integer under a mode, unclamped; NaN and infinities give 0. -/
def roundInt (mode : Nat) : Num → Int
  | .fin s n d => signedNat s (roundNat mode s n d)
  | _ => 0

/-- The rounding to an integer is inexact. -/
def intInexact (mode : Nat) : Num → Bool
  | .fin s n d => roundNat mode s n d * d != n
  | _ => false

/-- An integer with its flags. -/
structure RoundedInt where
  val : Int
  flags : BitVec 6
  deriving DecidableEq, Repr

/-- `Round` to a range of integers: always saturating; NaN gives 0 with NV (R115-R117). -/
def roundRange (lo hi : Int) (mode : Nat) (v : Num) : RoundedInt :=
  match v with
  | .nan => { val := 0, flags := flagNV }
  | .inf s => { val := if s then lo else hi, flags := flagSAT ||| flagNX }
  | .fin s n d =>
    let y := signedNat s (roundNat mode s n d)
    if y < lo then { val := lo, flags := flagSAT ||| flagNX }
    else if hi < y then { val := hi, flags := flagSAT ||| flagNX }
    else { val := y, flags := if intInexact mode v then flagNX else 0 }

/-- The pattern of an integer in `w` bits. -/
def patOf (w : Nat) (x : Int) : Nat := (x % (2 ^ w : Nat)).toNat

/-- `Round` to an unscaled format 1-12, the code in the element's width. -/
def roundElem (f mode : Nat) (sat : Bool) (v : Num) : Rounded :=
  if 9 ≤ f then
    let r := roundRange (intRange f).1 (intRange f).2 mode v
    { code := patOf (elemWidth f) r.val, flags := r.flags }
  else roundFloat f mode sat v

/-- RNE32 (R122): the FP32 pattern of a sum, without flags. -/
def rne32 (v : Num) : Nat := (roundFloat 3 0 false v).code

/-- The value of an FP32 pattern. -/
def fp32 (x : Nat) : Num := decodeFloat 3 x

/-- R106: the accord's reading of an FP32 element, fraction bits 12:0 taken as zero. -/
def e8m10 (x : Nat) : Num :=
  if x / 2 ^ 23 % 256 = 255 then fp32 x else fp32 (x / 2 ^ 13 * 2 ^ 13)

/-! ## Block quantisation -/

/-- The first code 1-255 from `c` on whose scale `s` meets `x <= bound * s`; `c` counts up with the fuel. -/
def findScale (scale : Nat → Num) (bound : Nat) (x : Num) : Nat → Nat → Option Nat
  | 0, _ => none
  | fuel + 1, c =>
    match (x.cmp ((Num.ofInt bound).mul (scale c))) with
    | .gt => findScale scale bound x fuel (c + 1)
    | _ => some c

/-- The element bound M of R118 in halves (7.5 is 15 halves). -/
def elemMax2 (f : Nat) : Nat :=
  match f with
  | 25 => 254 | 26 => 14
  | f => match elemFmt f with
    | 4 => 896 | 5 => 114688 | 6 => 56 | 7 => 15 | _ => 12

/-- The magnitude of a value, NaN kept. -/
def Num.abs : Num → Num
  | .nan => .nan
  | .inf _ => .inf false
  | .fin _ n d => .fin false n d

/-- The larger of two values, NaN excluded. -/
def Num.maxN (x y : Num) : Num :=
  if x.isNan then y else if y.isNan then x else match x.cmp y with | .lt => y | _ => x

/-- The smaller of two values, NaN excluded. -/
def Num.minN (x y : Num) : Num :=
  if x.isNan then y else if y.isNan then x else match x.cmp y with | .gt => y | _ => x

/-- A quantised block: scale byte, zero-point byte of codes 21-24, element codes, flags. -/
structure Block where
  scale : Nat
  zero : Nat
  codes : List Nat
  flags : BitVec 6
  deriving DecidableEq, Repr

/-- ORs a list of flags. -/
def orFlags (l : List (BitVec 6)) : BitVec 6 := l.foldl (· ||| ·) 0

/-- A value divided by a positive finite scale. -/
def Num.divBy (x s : Num) : Num :=
  match x with
  | .fin _ _ _ => x.divFin s
  | y => y

/-- Only NX, SAT and NV are flags of quantisation (R120). -/
def quantMask : BitVec 6 := flagNX ||| flagSAT ||| flagNV

/-- R118: scaled formats 13-20, 25, 26. DESIGN CHOICE (log 74): a NaN element sets NV alone, as R116 states; R120 does not say
whether its code, which does not give it back, sets NX too. -/
def quantScaled (f mode : Nat) (xs : List Num) : Block :=
  let x := (xs.map Num.abs).foldl Num.maxN (.fin false 0 1)
  let ef := elemFmt f
  if x.isZero then
    let el := xs.map fun y => if y.isNan then roundElem ef mode true .nan else { code := 0, flags := 0 }
    { scale := 0, zero := 0, codes := el.map (·.code), flags := orFlags (el.map (·.flags)) &&& quantMask }
  else
    let c := (findScale e3m5 (elemMax2 f) ((Num.ofInt 2).mul x) 255 1).getD 255
    let el := xs.map fun y => roundElem ef mode true (y.divBy (e3m5 c))
    { scale := c, zero := 0, codes := el.map (·.code), flags := orFlags (el.map (·.flags)) &&& quantMask }

/-- R119: affine formats 21-24. DESIGN CHOICE (log 74): a NaN element sets NV alone. -/
def quantAffine (f mode : Nat) (xs : List Num) : Block :=
  let zero : Num := .fin false 0 1
  let hi := xs.foldl Num.maxN zero
  let lo := xs.foldl Num.minN zero
  let (qmin, qmax) := intRange (elemFmt f)
  let w := elemWidth f
  if hi.cmp lo = .eq then
    { scale := 0, zero := 0, codes := xs.map fun _ => 0,
      flags := orFlags (xs.map fun y => if y.isNan then flagNV else 0) }
  else
    let c := (findScale e5m3 (qmax - qmin).toNat (hi.sum2 lo.neg) 255 1).getD 255
    let s := e5m3 c
    let z := match lo with
      | .inf _ => qmax
      | l => (roundRange qmin qmax 0 ((Num.ofInt qmin).sum2 (l.divBy s).neg)).val
    let el := xs.map fun y =>
      if y.isNan then (z, flagNV)
      else match y with
        | .inf n => (if n then qmin else qmax, flagSAT ||| flagNX)
        | y =>
          let t := roundInt mode (y.divBy s) + z
          if t < qmin then (qmin, flagSAT ||| flagNX)
          else if qmax < t then (qmax, flagSAT ||| flagNX)
          else (t, if (Num.ofInt (t - z)).mul s |>.cmp y |> (· == .eq) then 0 else flagNX)
    { scale := c, zero := patOf 8 z, codes := el.map fun p => patOf w p.1, flags := orFlags (el.map (·.2)) }

/-- Quantises one block by its format (R118, R119). -/
def quantBlock (f mode : Nat) (xs : List Num) : Block :=
  if 21 ≤ f && f ≤ 24 then quantAffine f mode xs else quantScaled f mode xs

/-! ## Memory layout of elements (R110) -/

/-- The bytes of a number, little-endian. -/
def natBytes (n x : Nat) : List Byte := (List.range n).map fun i => BitVec.ofNat 8 (x / 256 ^ i)

/-- Packs 4-bit codes two to a byte, the lower index in bits 3:0. -/
def packNibbles : List Nat → List Byte
  | a :: b :: t => BitVec.ofNat 8 (a % 16 + 16 * (b % 16)) :: packNibbles t
  | [a] => [BitVec.ofNat 8 (a % 16)]
  | [] => []

/-- Packs element codes of `w` bits into bytes (R110). -/
def packElems (w : Nat) (codes : List Nat) : List Byte :=
  if w = 4 then packNibbles codes else (codes.map (natBytes (w / 8))).flatten

/-- Bytes of a list from `i`, little-endian, `n` bytes. -/
def leBytes (bs : List Byte) (i n : Nat) : Nat :=
  match n with
  | 0 => 0
  | n + 1 => (bs.getD i 0).toNat + 256 * leBytes bs (i + 1) n

/-- The code of element `k` of `w` bits in packed bytes. -/
def elemCode (w : Nat) (bs : List Byte) (k : Nat) : Nat :=
  if w = 4 then (bs.getD (k / 2) 0).toNat / (if k % 2 = 0 then 1 else 16) % 16
  else leBytes bs (k * (w / 8)) (w / 8)

/-- The bytes of a block (R110). -/
def blockLayout (f : Nat) (b : Block) : List Byte :=
  BitVec.ofNat 8 b.scale :: (if zeroPt f = 1 then [BitVec.ofNat 8 b.zero] else []) ++
    packElems (elemWidth f) b.codes

/-- Cuts a list into runs of `n`, with fuel. -/
def cutBy {α : Type} (n : Nat) : Nat → List α → List (List α)
  | 0, _ => []
  | fuel + 1, l => if l.isEmpty then [] else l.take n :: cutBy n fuel (l.drop n)

/-- Encodes values into a format: bytes and flags. Codes 1-12 by `Round`, 13-26 by quantisation. -/
def encodeElems (f l mode : Nat) (sat : Bool) (xs : List Num) : List Byte × BitVec 6 :=
  if isBlocked f then
    let bl := (cutBy (2 ^ l) xs.length xs).map (quantBlock f mode)
    ((bl.map (blockLayout f)).flatten, orFlags (bl.map (·.flags)))
  else
    let el := xs.map (roundElem f mode sat)
    (packElems (elemWidth f) (el.map (·.code)), orFlags (el.map (·.flags)))

/-- The bytes that `n` elements of a format occupy (R110, R240). -/
def formBytes (f l n : Nat) : Nat :=
  if isBlocked f then n / 2 ^ l * blockBytes f l else n * elemWidth f / 8

/-- A zero-point byte outside its range: I4A outside -8..7, N4A outside 0..15 (R113). -/
def zpBad (f z : Nat) : Bool :=
  if f = 23 then toSigned 8 z < -8 || 7 < toSigned 8 z else if f = 24 then 15 < z else false

/-- The zero point of a block byte. -/
def zpVal (f z : Nat) : Int := if f = 21 || f = 23 then toSigned 8 z else z

/-- The exact value of an element code in its block (R111), band scale 1. -/
def scaledVal (f scale zp code : Nat) : Num :=
  if 21 ≤ f && f ≤ 24 then
    let q := decodeInt (elemFmt f) code - zpVal f zp
    if q = 0 || scale = 0 then .fin false 0 1 else (Num.ofInt q).mul (e5m3 scale)
  else (decodeElem (elemFmt f) code).mul (e3m5 scale)

/-- `Decode(fmt, element k of bytes)` (R110, R111). -/
def decodeAt (f l : Nat) (bs : List Byte) (k : Nat) : Num :=
  if isBlocked f then
    let b := bs.drop (k / 2 ^ l * blockBytes f l)
    let z := zeroPt f
    scaledVal f (b.getD 0 0).toNat (b.getD 1 0).toNat
      (elemCode (elemWidth f) (b.drop (1 + z)) (k % 2 ^ l))
  else decodeElem f (elemCode (elemWidth f) bs k)

/-- Some block of the bytes has a zero-point byte out of range (R113). -/
def zpAnyBad (f l n : Nat) (bs : List Byte) : Bool :=
  (f = 23 || f = 24) && (List.range (n / 2 ^ l)).any fun b => zpBad f (bs.getD (b * blockBytes f l + 1) 0).toNat

/-- R104: the tag of a pointer names a format and block length that a rule admits. -/
def tagOk (f l : Nat) : Bool := blgOk f l

/-! ## Square roots, powers and logarithms (R129) -/

/-- The integer square root, bit by bit from bit `i` down. -/
def isqrtGo (n : Nat) : Nat → Nat → Nat
  | 0, r => r
  | i + 1, r => let t := r + 2 ^ i
    isqrtGo n i (if t * t ≤ n then t else r)

/-- floor(sqrt n). -/
def isqrt (n : Nat) : Nat := isqrtGo n (Nat.log2 n / 2 + 1) 0

/-- A value close enough to the square root of `n / d` that every rounding of it is the root's: the root
itself when exact, otherwise a point strictly between the two neighbours at 2^-k. -/
def sqrtNum (n d : Nat) : Num :=
  let k := 200 + Nat.log2 d
  let y := n * 2 ^ (2 * k) / d
  let r := isqrt y
  if r * r * d = n * 2 ^ (2 * k) then .fin false r (2 ^ k) else .fin false (2 * r + 1) (2 ^ (k + 1))

/-- Fraction bits of the fixed-point work of `vexp2` and `vlog2`. -/
def fixBits : Nat := 512

/-- The product over the bits of `f / 2^j` of the roots of 2: `root` is 2^(2^-i) in fixed point, and the
bits of `f` are taken from the most significant of `j`. -/
def exp2Go (f : Nat) : Nat → Nat → Nat → Nat
  | 0, _, acc => acc
  | j + 1, root, acc =>
    let root' := isqrt (root * 2 ^ fixBits)
    exp2Go f j root' (if f / 2 ^ j % 2 = 1 then acc * root' / 2 ^ fixBits else acc)

/-- 2^x for a finite x = ± n / d: exact for integers, otherwise a fixed-point value that rounds as the
exact power does. -/
def exp2Num (neg : Bool) (n d : Nat) : Num :=
  let j := Nat.log2 d
  let x := signedNat neg n * 2 ^ j / d          -- floor of x times 2^j; d is a power of two
  let i := x / 2 ^ j
  let f := (x % 2 ^ j).toNat
  if 1024 < i then Num.scaled false 1 1024        -- overflows FP32 by R115
  else if i < -1024 then Num.scaled false 1 (-1024)
  else if f = 0 then Num.scaled false 1 i
  else
    let r := exp2Go f j (2 * 2 ^ fixBits) (2 ^ fixBits)
    Num.scaled false (2 * r + 1) (i - fixBits - 1)

/-- Fraction bits of log2 of `y / 2^fixBits` in [1, 2), by repeated squaring. -/
def log2Go : Nat → Nat → Nat → Nat
  | 0, _, acc => acc
  | j + 1, y, acc =>
    let y2 := y * y / 2 ^ fixBits
    if 2 * 2 ^ fixBits ≤ y2 then log2Go j (y2 / 2) (2 * acc + 1) else log2Go j y2 (2 * acc)

/-- log2 of a positive n / d: exact for powers of two, otherwise a point that rounds as the logarithm. -/
def log2Num (n d : Nat) : Num :=
  let e := floorLog2 n d
  let q := overPow n d e                          -- in [1, 2)
  if q.1 = q.2 then Num.ofInt e
  else
    let t := log2Go 200 (q.1 * 2 ^ fixBits / q.2) 0
    let v : Int := e * 2 ^ 201 + (2 * t + 1)
    .fin (v < 0) v.natAbs (2 ^ 201)

end Sys2Proof.Machine
end

