-- ==== Sys2Proof/Machine/State.lean ====
section
/-! DEFINITION. The state of the machine as plain data: every piece of state the spec names, and the
model's own fields (the turn, the agenda, the issue record, two counters). -/

namespace Sys2Proof.Machine

/-! ## Vectors and keyed lists -/

/-- Element `i` of a vector, `d` beyond its end. -/
def vget {α : Type} {n : Nat} (x : Vector α n) (i : Nat) (d : α) : α := x.toList.getD i d

/-- The vector with element `i` replaced; unchanged beyond its end. -/
def vset {α : Type} {n : Nat} (x : Vector α n) (i : Nat) (a : α) : Vector α n := x.setIfInBounds i a

/-- The value of a key. -/
def kget {α : Type} (l : List (Nat × α)) (k : Nat) : Option α :=
  match l with
  | [] => none
  | (j, a) :: t => if j = k then some a else kget t k

/-- The list with key `k` holding `a`, in ascending order of keys. -/
def kset {α : Type} (l : List (Nat × α)) (k : Nat) (a : α) : List (Nat × α) :=
  match l with
  | [] => [(k, a)]
  | (j, b) :: t => if j = k then (k, a) :: t else if k < j then (k, a) :: (j, b) :: t else (j, b) :: kset t k a

/-! ## Why a machine stops -/

/-- Why a step stops with a fault. No rule of the spec stops the machine: every trap is a next state.
No meaning raises one; the type is closed so that a claim can say so. Safe. -/
inductive Fault where
  | none
  deriving DecidableEq, Repr

/-- Why a step has no meaning. `notModelled` is raised by `exec`'s arms alone, for an instruction
that has no meaning yet. Safe: no claim can be proved of a refused step. -/
inductive Refusal where
  | notModelled (mnemonic : String)
  deriving DecidableEq, Repr

/-! ## Memory -/

/-- Memory: bytes by physical key in ascending order, none zero; an unlisted byte reads as zero. -/
abbrev Mem := List Host.Cell

/-! ## Traps -/

/-- A trap to be taken (R336): cause 0 stands for a freeze by a watchpoint or breakpoint (R456). -/
structure Pend where
  cause : BitVec 8
  info0 : Word
  info1 : Word
  /-- the held PC -/
  pc : Word
  /-- the PC of the faulting bundle -/
  fpc : Word
  /-- KMISS: field a and the status word of the miss (R275) -/
  aux : Word
  aux2 : Word
  wonly : Bool
  dfr : Bool
  /-- a trap that waits belongs to the bundle at the held PC: WAITX, or a deferred fault whose chunk was squashed (R338, R342) -/
  own : Bool := false
  deriving DecidableEq, Repr

/-! ## Long operations and requests -/

/-- A destination register of a long operation (R93). -/
inductive Dst where
  | none
  | g (n : BitVec 6)
  | h (n : BitVec 4)
  | v (n : BitVec 4)
  | p (n : BitVec 3)
  deriving DecidableEq, Repr

/-- How the bytes of a reply become the register's value. -/
inductive Conv where
  | word
  | sx (w : Nat)
  | zx (w : Nat)
  | vec
  | vform (fmt blg n : Nat) (t : BitVec 3)
  | lanes (t : BitVec 3)
  /-- an output of the surrogate, once PEND is 0 (R424) -/
  | surr
  deriving DecidableEq, Repr

/-- A destination of the order of R176: a device, the pool, or the host. -/
inductive DestDev where
  | dev (d : BitVec 10)
  | pool
  | host
  deriving DecidableEq, Repr

/-- Ring operations at an owner (R283). -/
inductive RingOp where
  | claim | push | wait | rel | set | stat
  deriving DecidableEq, Repr

/-- Mailbox operations (R299). -/
inductive MbOp where
  | inc | set | rd
  deriving DecidableEq, Repr

/-- The registers of a context that a chunk's snapshot holds (R39, R161). -/
structure Arch where
  g : Vector Word 64
  v : Vector VReg 16
  p : Vector Word 8
  pc : Word
  wid : Word
  widf : Word
  ltag : BitVec 16
  fpf : BitVec 6
  pipe : Vector (BitVec 16) 8
  /-- the scoreboard: general, vector and predicate registers -/
  sg : BitVec 64
  sv : BitVec 16
  sp : BitVec 8
  wonly : Bool
  deriving DecidableEq, Repr

/-- R43: every register zero. -/
def Arch.zero : Arch :=
  { g := Vector.replicate 64 0, v := Vector.replicate 16 0, p := Vector.replicate 8 0, pc := 0, wid := 0, widf := 0,
    ltag := 0, fpf := 0, pipe := Vector.replicate 8 0, sg := 0, sv := 0, sp := 0, wonly := false }

/-- The enfleurage invocation state of a context (R415). `res` holds the surrogate's results until
they reach OUT. -/
structure Inv where
  ist : BitVec 3
  nin : Nat
  nout : BitVec 4
  mask : BitVec 16
  role : BitVec 2
  pend : Bool
  obj : BitVec 16
  eng : BitVec 8
  inp : Vector W32 32
  out : Vector W32 16
  res : List W32
  deriving DecidableEq, Repr

/-- IDLE, every byte zero. -/
def Inv.zero : Inv :=
  { ist := 0, nin := 0, nout := 0, mask := 0, role := 0, pend := false, obj := 0, eng := 0,
    inp := Vector.replicate 32 0, out := Vector.replicate 16 0, res := [] }

/-- Work that starts a context in a vacant slot (R43, R65): `src` is the START source code (R445). -/
structure Entry where
  q : BitVec 2
  pc : Word
  w1 : Word
  w2 : Word
  wid : Word
  widf : Word
  ltag : BitVec 16
  tenant : Tenant
  succ : W32
  src : Nat
  pipe : Vector (BitVec 16) 8
  deriving DecidableEq, Repr

/-- A register-context message of a migration or a steal (R190, R193, R376). -/
structure CtxMsg where
  arch : Arch
  priv : Bool
  succ : W32
  inv : Inv
  hold : Vector Word 16
  /-- a member of a gang (R372) -/
  member : Bool
  /-- where it left -/
  core : CoreId
  slot : SlotNo
  /-- the reserved slot at its destination -/
  dest : CoreId
  dslot : SlotNo
  steal : Bool
  /-- cancelled loads still in flight (R190) -/
  late : List Nat
  deriving DecidableEq, Repr

/-- What a request asks of the unit that performs it. Pointers are resolved (R135). -/
inductive Body where
  | load (ptrs : List Word) (w : Nat)
  /-- a far store; `sc`: an element of a `vscat` -/
  | store (ptr : Word) (bytes : List Byte) (sc : Bool)
  | probe (ptrs : List Word) (w : Nat)
  | amo (ptr x : Word) (w : BitVec 1) (op : BitVec 4)
  | acas (ptr cmp new : Word) (w : BitVec 1)
  | post (ptr : Word) (words : List Word) (ret : Bool)
  | ring (op : RingOp) (owner : CoreId) (dev : BitVec 10) (obj : BitVec 16) (x : Word) (entry : Vector Word 8)
      (shape : Option (Vector Word 8))
  | mb (op : MbOp) (ptr x : Word)
  | start (dest : CoreId) (dev : BitVec 10) (e : Entry) (op : Nat)
  | tgdone (h : W32)
  | pshare (ptr : Word)
  | ctx (m : CtxMsg)
  | bump (ptr : Word) (thief : CoreId) (frame : Word)
  /-- a steal request that a pre-empted core has diverted (R382) -/
  | steal (victim : CoreId)
  deriving DecidableEq, Repr

/-- What has come back for a request. -/
inductive Reply where
  | none
  | ok (bytes : List Byte) (word : Word)
  /-- PAGE: the faulting pointer and the fault word (R148) -/
  | page (ptr fw : Word)
  /-- a remote error: kind and fault word (R350), the pointer -/
  | err (kind : Nat) (fw : BitVec 5) (ptr : Word)
  /-- a ring request withdrawn, with the indices the owner reports (R285) -/
  | withdrawn (i1 : Word)
  deriving DecidableEq, Repr

/-- An operation on its way between a context and the unit that performs it (R174-R176, R387). -/
structure Req where
  id : Nat
  core : CoreId
  slot : SlotNo
  /-- which occupant of the slot issued it -/
  occ : Nat
  tenant : Tenant
  priv : Bool
  wid : Word
  widf : Word
  ltag : BitVec 16
  /-- an operation of R175, and its destination device for the order of R176 -/
  ord : Bool
  dest : DestDev
  /-- TSO toward the host: an access to SPC 3 or a T page (R179) -/
  tso : Bool
  /-- the requester waits for a register result (R93) -/
  ret : Bool
  body : Body
  /-- the pointer that the operation was given, of an operation that names one by a pointer: as the program wrote it -/
  given : Option Word
  /-- of a store or an atomic that was translated at issue: the keys of its bytes -/
  phys : List Nat
  reply : Reply
  /-- the requester asked to withdraw it (R285, R356) -/
  cancel : Bool
  /-- the issuing context was gone when the operation failed (R350 LOST) -/
  orphan : Bool
  deriving DecidableEq, Repr

/-- A store in a chunk's buffer (R163): one key per byte; near stores carry physical keys. `sc`: an element
of a `vscat`. -/
structure StoreRec where
  ptr : Word
  /-- the pointer as the program gave it -/
  given : Word
  bytes : List Byte
  keys : List Nat
  near : Bool
  tso : Bool
  sc : Bool
  /-- of a store to a page of the own die with T = 1, which is translated at issue (R137, R160): the keys of its bytes -/
  phys : List Nat
  deriving DecidableEq, Repr

/-- An outstanding long operation (R93). -/
structure LongOp where
  id : Nat
  dst : Dst
  conv : Conv
  /-- issued by the open chunk, or before it opened -/
  inChunk : Bool
  /-- a near load, or a `vscat`, that holds back the commit (R166) -/
  near : Bool
  cancelled : Bool
  /-- a result computed at issue, and the core cycle at which a fixed figure returns it (R100) -/
  val : Option Nat
  due : Option Nat
  flags : BitVec 6
  /-- own buffered bytes at issue (R163) -/
  own : List (Option Byte)
  byHandler : Bool
  pc : Word
  bundle : Word
  /-- for the replay set (R339) -/
  body : Option Body
  ord : Bool
  /-- the pointer as the program gave it -/
  given : Option Word
  /-- the element stores of a `vscat` (R244) -/
  scat : List StoreRec
  /-- how many bundles of its chunk had issued before its own (R338) -/
  pos : Nat
  deriving DecidableEq, Repr

/-- The open or ENDING chunk of a context (R161-R166). -/
structure Chunk where
  snap : Arch
  snapH : Vector Word 16
  snapSh : BitVec 16
  rsig : List Nat
  wsig : List Nat
  buf : List StoreRec
  n : Nat
  ending : Bool
  /-- the trap to take once the chunk has committed (R173) -/
  trap : Option Pend
  /-- the chunk holds an instruction of R416 issued on the true path -/
  viol : Bool
  deriving DecidableEq, Repr

/-- Slot states (R51). -/
inductive SlotState where
  | vacant | ready | parked | waiting | handler | bankwait | upcall | frozen | departing
  | hparked | hwaiting | hupcall
  deriving DecidableEq, Repr

/-- A wait-table entry (R54): the waiting instruction, its operands as read at issue, the cycles left
(none: without bound), its request at another unit. -/
structure Wait where
  i : Instr
  vals : List Word
  left : Option Nat
  req : Option Nat
  /-- `hjoin`: the occupant present at issue; `fence`: the operations awaited -/
  occ : Nat
  ids : List Nat
  sbit : Bool
  bundle : Word
  deriving DecidableEq, Repr

/-- What has become of the bundle being executed. A bundle that ENTERED has issued and completed, and its context has then
taken the trap of its C word (R223, R225, R226); a STALLED one has a trap that waits for BUSY (R342). -/
inductive Fate where
  | issued | entered | trapped | stalled | watched | held
  deriving DecidableEq, Repr

/-- A trap of a word has decided the bundle: no later word is looked at. -/
def Fate.stops : Fate → Bool
  | .trapped | .stalled => true
  | _ => false

/-- The bundle has issued. -/
def Fate.goes : Fate → Bool
  | .issued | .entered => true
  | _ => false

/-- The issue record: the context whose bundle is being executed, the bundle, and the registers its
words read (R74). -/
structure Iss where
  core : CoreId
  slot : SlotNo
  bundle : Word
  pc : Word
  src : Option Arch
  srcH : Vector Word 16
  srcSh : BitVec 16
  /-- operations of its context with this id or a later one belong to the bundle itself -/
  first : Nat
  fate : Fate
  deriving DecidableEq, Repr

/-- Eight zero dwords. -/
def noEntry : Vector Word 8 := Vector.replicate 8 0

/-- A release whose chunk has committed and which waits for the far stores of that commit (R167, R188): its instruction, the
record of its issue, the object's entry as read at issue, and the S bit of its bundle. -/
structure Rel where
  i : Instr
  iss : Iss
  e : Vector Word 8
  sbit : Bool
  deriving DecidableEq, Repr

/-- One context slot, 0-10 (R39, R52). -/
structure Ctx where
  a : Arch
  priv : Bool
  st : SlotState
  /-- the state held when FROZEN (R52) -/
  held : SlotState
  long : List LongOp
  chunk : Option Chunk
  squashes : Nat
  wait : Option Wait
  succ : W32
  inv : Inv
  hold : Vector Word 16
  /-- the replay set (R338), and the replays that must return before the held bundle issues (R339) -/
  replay : List LongOp
  replaying : Bool
  replayIds : List Nat
  /-- a deferred fault: at the bundle whose PC it names, which is so many bundles after the first of its chunk (R338) -/
  dfault : Option (Pend × Nat)
  /-- traps that wait for the context's next bundle, in order: deferred, REMOTE, or held by BUSY (R338, R342, R349) -/
  tpend : List Pend
  /-- the key miss of a context in BANKWAIT (R52) -/
  kmiss : Option Pend
  /-- an upcall whose record is not yet written, and the rotation count at its fault (R345) -/
  upc : Option (Pend × BitVec 40)
  /-- the last upcall's record is written (R345) -/
  recorded : Bool
  /-- resumed by `hresume` in this rotation: issues in the following one (R221) -/
  later : Bool
  /-- `hend`, `spend`, a remote error: VACANT at a boundary (R52) -/
  retiring : Bool
  ended : Bool
  /-- a wait whose condition has held: its instruction completes in the context's next turn, by the S bit of its bundle (R52) -/
  compl : Option Bool
  /-- a release of the last bundle that is still to be performed (R188): nothing issues before it -/
  rel : Option Rel
  /-- a count of the slot's occupants, for `hjoin` (R58) -/
  occ : Nat
  /-- a member of the gang whose tag it carries (R372) -/
  member : Bool
  /-- the migration under way: destination core and slot (R193) -/
  depart : Option (CoreId × SlotNo)
  /-- the watchpoint (true) or breakpoint entry whose trap stopped the context last, and whether the context has returned to issue
  since, so that its next bundle does not match that entry; the entry whose hit froze it, which its first bundle after a release or a
  step does not match (R456) -/
  stopBy : Option (Bool × Nat)
  skipStop : Bool
  frozeBy : Option (Bool × Nat)
  /-- issued a bundle in this rotation; class of the slot in this rotation (R448) -/
  cls : BitVec 2
  /-- the pusher's own count: bundles issued after a freeze hit (R457) -/
  skid : Nat
  /-- bundles that contexts of the slot have issued, for the skid of a filter's freeze (R454) -/
  bundles : Nat
  deriving DecidableEq, Repr

/-- A VACANT slot, every register zero. -/
def Ctx.zero : Ctx :=
  { a := Arch.zero, priv := false, st := .vacant, held := .vacant, long := [], chunk := none, squashes := 0,
    wait := none, succ := 0, inv := Inv.zero, hold := Vector.replicate 16 0, replay := [], replaying := false, replayIds := [],
    dfault := none, tpend := [], kmiss := none, upc := none, recorded := false, later := false, retiring := false, ended := false, compl := none, rel := none, occ := 0,
    member := false, depart := none, stopBy := none, skipStop := false, frozeBy := none, cls := 0, skid := 0, bundles := 0 }

/-- A context that has left its slot with a release of its last bundle still to be performed (R170, R188, R349), and what gives it
its tenant. -/
structure Gone where
  slot : SlotNo
  ctx : Ctx
  asg : Option Tenant
  qwgt : Word
  slotOwn : BitVec 20
  deriving DecidableEq, Repr

/-! ## A core -/

/-- An EXACT entry of the key map (R263). -/
structure KExact where
  key : BitVec 56
  slot : Nat
  valid : Bool
  pin : Nat
  deriving DecidableEq, Repr

/-- A window position: INVALID, BUSY or VALID with its tag and pins. -/
structure KPos where
  tag : BitVec 24
  st : BitVec 2
  pin : Nat
  deriving DecidableEq, Repr

/-- A WINDOW entry (R263). -/
structure KWindow where
  prefix32 : W32
  base : Nat
  head : BitVec 24
  pos : List KPos
  deriving DecidableEq, Repr

/-- The key map and KM.CFG (R261, R263). -/
structure KeyMap where
  offset : BitVec 14
  sizelog : BitVec 4
  count : BitVec 12
  hand : BitVec 12
  exact_ : List KExact
  wins : List KWindow
  deriving DecidableEq, Repr

/-- Reset: unconfigured, empty. -/
def KeyMap.zero : KeyMap := { offset := 0, sizelog := 0, count := 0, hand := 0, exact_ := [], wins := [] }

/-- A hardware ring (R280, R321). `entry` is the captured RING entry, `shape` the captured SHAPE entry. -/
structure Ring where
  obj : Option (BitVec 16)
  tenant : Tenant
  entry : Vector Word 8
  shape : Option (Vector Word 8)
  w : W32
  c : W32
  f : W32
  rc : W32
  drops : W32
  pushx : Bool
  relx : Bool
  deriving DecidableEq, Repr

/-- Reset: unbound, N = 0. -/
def Ring.zero : Ring :=
  { obj := none, tenant := 0, entry := Vector.replicate 8 0, shape := none, w := 0, c := 0, f := 0, rc := 0, drops := 0,
    pushx := false, relx := false }

/-- Channel states (R287). -/
inductive ChanState where
  | idle | active | done | error | aborted
  deriving DecidableEq, Repr

/-- A cached translation (R143): space (true: pool), tenant, page number of 64 KiB, frame byte address,
the leaf's attribute bits 8:2. -/
structure Tlb where
  pool : Bool
  tenant : Tenant
  page : Nat
  large : Bool
  frame : Nat
  attr : BitVec 7
  deriving DecidableEq, Repr

/-- A copy channel (R287, R294). `pos` counts the bytes or tokens handled; the identity is that of the
context that issued `cpgo`; `obj` is the BINSET or CODE entry read at `cpgo`. -/
structure Chan where
  shadow : Vector Word 8
  active : Vector Word 8
  obj : Vector Word 8
  /-- the RING entry read at `cpgo` -/
  ring : Vector Word 8
  wp : Word
  pos : Nat
  xid : W32
  st : ChanState
  cause : BitVec 4
  fw : BitVec 5
  slot : SlotNo
  tenant : Tenant
  priv : Bool
  wid : Word
  ltag : BitVec 16
  /-- page translations that the copy holds (R152), each with the die whose interface made it -/
  pages : List (BitVec 2 × Tlb)
  /-- how far the completion has come (R293): 1 once the ring has advanced, 2 once the counters are bumped; and the requests that it
  awaits -/
  comp : Nat
  acks : List Nat
  deriving DecidableEq, Repr

/-- Reset: IDLE. -/
def Chan.zero : Chan :=
  { shadow := Vector.replicate 8 0, active := Vector.replicate 8 0, obj := Vector.replicate 8 0, ring := Vector.replicate 8 0, wp := 0,
    pos := 0, xid := 0, st := .idle, cause := 0, fw := 0, slot := 0, tenant := 0, priv := false, wid := 0, ltag := 0,
    pages := [], comp := 0, acks := [] }

/-- An operand of the accord: its shape and the bytes of its slot (R323). -/
structure Opnd where
  e : Vector Word 8
  bs : List Byte
  deriving DecidableEq, Repr

/-- An accord command (R316). `res` is the tile it will write, once begun. -/
structure AccCmd where
  seq : Nat
  i : Instr
  ringA : Nat
  ringB : Nat
  ptr : Word
  ltag : BitVec 16
  begun : Bool
  /-- none: abandoned for its bindings, or not begun -/
  res : Option Tile
  bind : Bool
  band : Bool
  zp : Bool
  clamp : Bool
  /-- the operands it has read, once begun -/
  oa : Option Opnd
  ob : Option Opnd
  deriving DecidableEq, Repr

/-- An `mget` that has not completed (R331). -/
structure Mget where
  seq : Nat
  id : Nat
  slot : SlotNo
  acc : BitVec 2
  ptr : Word
  keys : List Nat
  bytes : Option (List Byte)
  due : Nat
  deriving DecidableEq, Repr

/-- The core's sticky accord error fields (R333). -/
structure AccErr where
  facc : BitVec 2
  nerr : BitVec 8
  ebind : Bool
  iclamp : Bool
  ezp : Bool
  eband : Bool
  deriving DecidableEq, Repr

/-- A continuation deque entry (R376). -/
structure DqEntry where
  slot : SlotNo
  occ : Nat
  priv : Bool
  tenant : Tenant
  frame : Word
  arch : Arch
  succ : W32
  /-- the invocation state of the context (R415) -/
  inv : Inv
  /-- its context is a member of a gang (R372) -/
  member : Bool
  /-- operations of R175 issued before the `spawn` (R192) -/
  before : List Nat
  leaving : Option CoreId
  deriving DecidableEq, Repr

/-- Pre-emption states (R353). -/
inductive PreState where
  | running | stopping | draining | saving | saved | restoring
  deriving DecidableEq, Repr

/-- What arrives for step 3 of R59. -/
inductive Arrival where
  | start (e : Entry) (req : Nat)
  | ctx (m : CtxMsg)
  | gang (slot : SlotNo) (e : Entry)
  deriving DecidableEq, Repr

/-- A captured breakpoint or watchpoint entry (R455). -/
structure Dbg where
  n : Nat
  d0 : Word
  d1 : Word
  d2 : Word
  d3 : Word
  deriving DecidableEq, Repr

/-- An `hstart` request that the next boundary to serve them serves (R56). -/
structure HStart where
  id : Nat
  pc : Word
  w1 : Word
  w2 : Word
  deriving DecidableEq, Repr

/-- Why a VACANT slot is reserved (R373, R381, R193). -/
inductive Resv where
  | none
  | gang (tag : BitVec 16)
  | steal
  | migrate
  deriving DecidableEq, Repr

/-- Control registers of core scope and the trap registers (R90). -/
structure CoreRegs where
  dqCount : W32
  kmHandler : Word
  upcEntry : Word
  upcPc : Word
  /-- UPC.BASE: BASE, EN, MASK, WONLY, and the helpers with PEND, earliest first (R344, R346) -/
  upcBase : BitVec 12
  upcEn : Bool
  upcMask : Bool
  upcWonly : Bool
  upcPend : List SlotNo
  /-- the bundle that the mark in UPC.BASE belongs to (R459) -/
  upcMark : Word
  cntSel : Vector Word 4
  cntVal : Vector Word 4
  qwgt : Word
  slotOwn : BitVec 20
  trapCause : Word
  trapPc : Word
  trapInfo0 : Word
  trapInfo1 : Word
  /-- the bundle that the mark in TRAP.CAUSE belongs to (R459); none: software has set the mark, for the PC of its `eret` -/
  trapMark : Option Word
  trapVec : Word
  otBase : Word
  protBase : Vector Word 8
  protSize : Vector Word 8
  trcCfg : Word
  dbgBp : Word
  dbgWp : Word
  deriving DecidableEq, Repr

/-- SLOT.OWN at reset: (s - 1) mod 4 for slot s (R66): 0xE4 repeated. -/
def slotOwnReset : BitVec 20 := 0x4E4E4

/-- R139, R66, R64, R341: the reset values of the registers of core scope. -/
def CoreRegs.zero : CoreRegs :=
  { dqCount := 0, kmHandler := 0, upcEntry := 0, upcPc := 0, upcBase := 0, upcEn := false, upcMask := false,
    upcWonly := false, upcPend := [], upcMark := 0, cntSel := Vector.replicate 4 0, cntVal := Vector.replicate 4 0,
    qwgt := 0x1000100010001000, slotOwn := slotOwnReset, trapCause := 0, trapPc := 0, trapInfo0 := 0, trapInfo1 := 0,
    trapMark := none, trapVec := 0, otBase := 0,
    protBase := vset (Vector.replicate 8 0) 0 (0x0008000000000000 : Word),
    protSize := vset (Vector.replicate 8 0) 0 (0x40038 : Word),
    trcCfg := 0, dbgBp := 0, dbgWp := 0 }

/-- The accord side of a core (R316, R331, R333). -/
structure AccSide where
  tiles : Vector Tile 4
  q : List AccCmd
  mgets : List Mget
  seq : Nat
  err : AccErr
  /-- what the A and B latch hold: ring, index C and the operand (R325) -/
  latchA : Option (Nat × W32 × Opnd)
  latchB : Option (Nat × W32 × Opnd)
  deriving DecidableEq, Repr

/-- Reset: tiles zero, no command. -/
def AccSide.zero : AccSide :=
  { tiles := Vector.replicate 4 0, q := [], mgets := [], seq := 0,
    err := { facc := 0, nerr := 0, ebind := false, iclamp := false, ezp := false, eband := false },
    latchA := none, latchB := none }

/-- A steal request outstanding (R381): the victim asked, how many cores have been asked, and the cycle of the asking. -/
structure Seek where
  victim : CoreId
  asked : Nat
  at_ : Nat
  deriving DecidableEq, Repr

/-- Launch queues, deque and steal state of a core (R64-R67, R376, R381). -/
structure SchedSide where
  q : Vector (List Entry) 4
  dq : Vector Int 4
  spillBase : Nat
  spillCap : Nat
  spill : List Entry
  /-- entries that have been spilled, for the place of the next in the circular area -/
  spillCount : Nat
  deque : List DqEntry
  resv : Vector Resv 11
  seek : Option Seek
  ptrs : Vector Nat 3
  backoff : Nat
  /-- the cores whose steal requests were delivered here at a RESTORE, in order, and are served before any other (R355, R382) -/
  thieves : List CoreId
  hstart : List HStart
  arrivals : List Arrival
  /-- the last slot states reported to the task graph unit (R365) -/
  dirty : Bool
  deriving DecidableEq, Repr

/-- Reset: empty queues. -/
def SchedSide.zero : SchedSide :=
  { q := Vector.replicate 4 [], dq := Vector.replicate 4 0, spillBase := 0, spillCap := 0, spill := [], spillCount := 0, deque := [],
    resv := Vector.replicate 11 .none, seek := none, ptrs := Vector.replicate 3 0, backoff := 0, thieves := [], hstart := [],
    arrivals := [], dirty := false }

/-- A core (R32-R41, R90). -/
structure Core where
  ctxs : Vector Ctx 11
  asg : Option Tenant
  /-- the shadow bank, its scoreboard, its holder and the BANKWAIT contexts in order (R41, R52, R99) -/
  h : Vector Word 16
  sh : BitVec 16
  holder : Option SlotNo
  bankq : List SlotNo
  rot : BitVec 40
  /-- cycles of the core, counted without bound for due times -/
  cyc : Nat
  r : CoreRegs
  acc : AccSide
  km : KeyMap
  rings : Vector Ring 32
  mbox : Vector W32 64
  chan : Vector Chan 2
  sched : SchedSide
  /-- service queue and ring-wait table, by request id; the ring-wait table is served next (R37) -/
  svcq : List Nat
  rwait : List Nat
  rwNext : Bool
  /-- `halt` asked for; out of issue (R231, R340, R342) -/
  halting : Bool
  halted : Bool
  /-- fenced off by firmware: it issues nothing (R397, R406) -/
  fenced : Bool
  pre : PreState
  /-- the save area that the last SAVE or RESTORE named (R352) -/
  saveArea : Nat
  /-- the save area whose first 64 bytes are the trap save block (R340, R357); none: the one that the core has before any SAVE -/
  trapArea : Option Nat
  /-- arrivals diverted while pre-empted (R354), in order, and the spill queue's capacity -/
  divert : List Nat
  divBase : Nat
  divCap : Nat
  /-- gangs that hold members of this core (R374) -/
  gheld : List (BitVec 16)
  /-- a cluster freeze to apply at the next boundary: its DEBUG cause; applied (R457) -/
  freezing : Option Nat
  /-- the cycle from which the skid of that freeze counts -/
  freezeAt : Nat
  frozen : Bool
  /-- a step under way (R458) -/
  stepping : Option SlotNo
  /-- forwarding entries (R191): request ids and the new core -/
  fwd : List (List Nat × CoreId × SlotNo)
  /-- cancelled operations of contexts that are gone, which count until they arrive (R97, R170) -/
  stray : List Nat
  /-- cancelled operations taken over with an arrived context (R190) -/
  took : List (SlotNo × List Nat)
  /-- contexts that have left their slots with a release still to be performed (R170, R188, R349), in order -/
  gone : List Gone
  bps : List Dbg
  wps : List Dbg
  bins : Vector Word 12
  /-- trace units of a cycle, in order, that the core offers at its end, behind the ISSUE record (R444) -/
  kept : List (List (BitVec 128))
  /-- trace units that stall mode holds (R451) -/
  stall : List (List (BitVec 128))
  deriving DecidableEq, Repr

/-- A core right after reset: unassigned, every slot VACANT. -/
def Core.zero : Core :=
  { ctxs := Vector.replicate 11 Ctx.zero, asg := none, h := Vector.replicate 16 0, sh := 0, holder := none, bankq := [],
    rot := 0, cyc := 0, r := CoreRegs.zero, acc := AccSide.zero, km := KeyMap.zero, rings := Vector.replicate 32 Ring.zero,
    mbox := Vector.replicate 64 0, chan := Vector.replicate 2 Chan.zero, sched := SchedSide.zero, svcq := [], rwait := [],
    rwNext := true, halting := false, halted := false, fenced := false, pre := .running, saveArea := 0, trapArea := none, divert := [], divBase := 0,
    divCap := 0, gheld := [], freezing := none, freezeAt := 0, frozen := false, stepping := none, fwd := [], stray := [], took := [], gone := [],
    bps := [], wps := [], bins := Vector.replicate 12 0, kept := [], stall := [] }

/-! ## Half-clusters, clusters, dies -/

/-- An accord's arbiter (R317, R318). -/
structure Half where
  wgt : W32
  cred : Vector Nat 8
  ptr : Nat
  begun : Option (BitVec 3)
  deriving DecidableEq, Repr

/-- Reset: every weight 1, CRED = WGT, PTR 0, free. -/
def Half.zero : Half := { wgt := 0x11111111, cred := Vector.replicate 8 1, ptr := 0, begun := none }

/-- A region entry of an enfleurage engine (R407, R417). -/
structure Region where
  tenant : Tenant
  obj : BitVec 16
  entry : Vector Word 8
  st : Nat
  base : Nat
  params : List W32
  held : List (List W32 × List W32)
  mins : List W32
  maxs : List W32
  n : Nat
  steps : Nat
  strikes : Nat
  passes : Nat
  oob : W32
  drops : W32
  abandon : W32
  served : W32
  /-- order of invalidation (R407) -/
  stamp : Nat
  deriving DecidableEq, Repr

/-- The enfleurage engine of a cluster (R407). -/
structure Engine where
  regions : List (Option Region)
  noroom : W32
  ldrej : BitVec 16
  stamp : Nat
  deriving DecidableEq, Repr

/-- Reset: 16 free entries. -/
def Engine.zero : Engine := { regions := List.replicate 16 none, noroom := 0, ldrej := 0, stamp := 0 }

/-- A constraint of the alembic (R430, R431). -/
structure Cons where
  id : W32
  bodies : List W32
  ticket : BitVec 30
  reissue : Bool
  /-- 0 PENDING, 1 ADMITTED, 2 PULLED -/
  st : BitVec 2
  deriving DecidableEq, Repr

/-- A hardware stream (R427): state 0 FREE, 1 OPEN, 2 CLOSING, 3 ENDED. -/
structure Stream where
  tenant : Tenant
  obj : BitVec 16
  gmax : Nat
  st : BitVec 2
  group : W32
  pushed : W32
  reissue : W32
  badop : W32
  cons : List Cons
  gen : BitVec 16
  /-- waiting pushes and pulls, in order of arrival (R433) -/
  waiters : List (CoreId × SlotNo)
  deriving DecidableEq, Repr

/-- FREE, every count 0. -/
def Stream.zero : Stream :=
  { tenant := 0, obj := 0, gmax := 0, st := 0, group := 0, pushed := 0, reissue := 0, badop := 0, cons := [], gen := 0,
    waiters := [] }

/-- A node of the task graph unit (R361). -/
structure Node where
  e : Entry
  gen : BitVec 16
  count : BitVec 16
  aff : BitVec 2
  target : CoreId
  creator : CoreId
  deriving DecidableEq, Repr

/-- A launch or gang that is live (R367-R373). -/
structure Launch where
  tag : BitVec 16
  tenant : Tenant
  priv : Bool
  core : CoreId
  obj : Vector Word 8
  /-- work ids placed so far, and the last core used -/
  next : Nat
  last : Option CoreId
  expanded : Bool
  started : Word
  errors : Word
  lost : Word
  reduced : Bool
  gang : Bool
  /-- gang: kernel PC and count; pipes; slots held -/
  kernels : List (Word × Nat)
  pipes : Vector (BitVec 16) 8
  slots : List (CoreId × SlotNo)
  deriving DecidableEq, Repr

/-- The task graph unit of a die (R361). -/
structure Tgu where
  nodes : List (Nat × Node)
  gens : List (Nat × BitVec 16)
  stale : W32
  launches : List Launch
  nextTag : Nat
  refusal : BitVec 4
  /-- the view of VACANT helper slots (R365) -/
  view : List (Nat × BitVec 11)
  deriving DecidableEq, Repr

/-- A range-lock entry (R183): the bytes of `first` to `last` of the space of `first`; for MCAST the mask. -/
structure Lock where
  dst : Bool
  xid : W32
  tenant : Tenant
  first : Word
  last : Word
  mask : BitVec 16
  /-- the channel whose write pointer shrinks it -/
  core : CoreId
  ch : Nat
  shrinks : Bool
  deriving DecidableEq, Repr

/-- An invalidation or a migration that waits (R152, R153): the new frame of a migration; the ranges of keys under the dropped
entries; the open chunks, by context and the count of its bundles at their start, the copies, by channel and transfer id, and the
`mget`s, by operation, that hold translations of a dropped entry. -/
structure PageCmd where
  frame : Option Nat
  tenant : Tenant
  pool : Bool
  die : BitVec 2
  va : Nat
  large : Bool
  ranges : List (Nat × Nat)
  chunks : List (CoreId × SlotNo × Nat)
  copies : List (CoreId × Nat × W32)
  mgets : List (CoreId × Nat)
  deriving DecidableEq, Repr

/-- The cycle in which a unit was offered, the cluster of its core, and the bundles that the contexts of that cluster had issued by the
end of the cycle: the skid of a filter's freeze counts from there (R454). -/
structure SkidMark where
  at_ : Nat
  cl : BitVec 8
  counts : List Nat
  deriving DecidableEq, Repr

/-- The trace core of a die (R449-R454). -/
structure Sillage where
  inq : List (List (BitVec 128))
  /-- for each unit of the input queue, when it was offered -/
  marks : List SkidMark
  outq : List (BitVec 128)
  drops : Nat
  prog : List W32
  wgate : Bool
  win : Bool
  fc : Vector Word 16
  seq : BitVec 16
  up0 : Bool
  up1 : Bool
  sent : List (BitVec 3 × BitVec 160)
  /-- extension records at the front of the output queue whose head has been sent -/
  part : Nat
  /-- when each lane is free again, in sixteenths of a cycle of the model's clock (R452) -/
  free0 : Nat
  free1 : Nat
  deriving DecidableEq, Repr

/-- Reset: no program, window open, lanes up. -/
def Sillage.zero : Sillage :=
  { inq := [], marks := [], outq := [], drops := 0, prog := [], wgate := false, win := true, fc := Vector.replicate 16 0, seq := 0,
    up0 := true, up1 := true, sent := [], part := 0, free0 := 0, free1 := 0 }

/-- A die (R32, R183, R361, R396, R427, R449). -/
structure Die where
  /-- DEV.SVC: CAUSE, STAGE, SVC (R396) -/
  svc : BitVec 8
  locks : List Lock
  xid : W32
  token : Option (CoreId × SlotNo)
  tokenq : List (CoreId × SlotNo)
  tlb : List Tlb
  /-- the bases of the tenant translation table and of the descriptor array: firmware sets them (R144, R149) -/
  ttBase : Nat
  descBase : Nat
  pageCmds : List PageCmd
  tgu : Tgu
  streams : Vector Stream 4
  /-- error records not acknowledged, and their counts (R351) -/
  records : List (Vector Word 8)
  dropped : W32
  recSeq : W32
  sil : Sillage
  cnt : Vector Word 16
  cntSel : Vector (BitVec 8) 16
  hostUp : Bool
  deriving DecidableEq, Repr

/-- A die right after reset. -/
def Die.zero : Die :=
  { svc := 0x15, locks := [], xid := 1, token := none, tokenq := [], tlb := [], ttBase := 0, descBase := 0, pageCmds := [],
    tgu := { nodes := [], gens := [], stale := 0, launches := [], nextTag := 1, refusal := 0, view := [] },
    streams := Vector.replicate 4 Stream.zero, records := [], dropped := 0, recSeq := 0, sil := Sillage.zero,
    cnt := Vector.replicate 16 0, cntSel := Vector.replicate 16 0, hostUp := true }

/-! ## The fabric and the device -/

/-- A packet in a router or at the endpoint that sends it (R387): the request it serves, its channel, flits, header and data
bytes, input port, destination and urgency; the up-link it has taken at this level (R385), and the buffers that its flits
spent: 0-3 a reserve, 4 the shared pool, of the flits that stand here, oldest first (R389). `got` flits of it have come to
this router and `sent` of them have gone on: a packet may stand in several routers while its flits pass. `wait` counts the
cycles of its header at the head of its queue here (R391). -/
structure Packet where
  /-- its own number, which no other packet has -/
  pid : Nat
  id : Nat
  vc : BitVec 2
  flits : Nat
  hdr : BitVec 512
  data : List Byte
  inp : Nat
  dest : Nat
  urg : Bool
  up : Option Nat
  bufs : List Nat
  got : Nat
  sent : Nat
  wait : Nat
  deriving DecidableEq, Repr

/-- An output port that a packet holds until its last flit has crossed: the packet, by its number, and the next node and its
input port (R390). -/
structure Grant where
  port : Nat
  pid : Nat
  dest : Nat × Nat
  deriving DecidableEq, Repr

/-- An input port's credits at its sender: reserves of the four channels, shared (R389). -/
structure Credits where
  r : Vector Nat 4
  shared : Nat
  /-- buffers whose flits have left and whose credits are on their way back: 0-3 reserve, 4 shared -/
  owed : List Nat
  deriving DecidableEq, Repr

/-- A router, or an endpoint of the fabric (R389, R390): packets in order of arrival, of an endpoint those that it sends;
credits of the input ports; per output port the arbiter's state; the output ports that a packet holds. -/
structure Router where
  pkts : List Packet
  inCred : List (Nat × Credits)
  cred : List (Nat × Vector Nat 4)
  vptr : List (Nat × Nat)
  iptr : List (Nat × Nat)
  held : List Grant
  deriving DecidableEq, Repr

/-- An empty router, full credits. -/
def Router.zero : Router := { pkts := [], inCred := [], cred := [], vptr := [], iptr := [], held := [] }

/-- What the device tells the host. -/
inductive HostMsg where
  | ok (what : String) (core : CoreId)
  | refused (what : String) (core : CoreId)
  | stopped (core : CoreId)
  | report (bytes : List Byte)
  | value (x : Word)
  | unit (n : Nat)
  | failed (what : String)
  deriving DecidableEq, Repr

/-- What SAVE of a core wrote (R357): its area and its device image. -/
structure Saved where
  area : Nat
  img : Core
  /-- the regions of the area as written, the scratchpad apart, for the check value -/
  parts : List (Nat × List Byte)
  deriving DecidableEq, Repr

/-- Whose cycle comes next on the model's clock: slots 0-10, 11 the service turn, 12 the engines. -/
structure Turn where
  core : CoreId
  slot : Nat
  deriving DecidableEq, Repr

/-- Firmware and identity (R400-R402). -/
structure Firmware where
  accepted : Bool
  /-- a verification has failed: the device stays at stage 4 (R397) -/
  failed : Bool
  /-- the change of service under way: the power has risen above its limit, or fallen below it (R398, R406) -/
  power : Option Bool
  digest : List Byte
  keys : Bool
  rootPub : List Byte
  aliasSeed : List Byte
  aliasPub : List Byte
  cert : List Byte
  deriving DecidableEq, Repr

/-- The whole machine. -/
structure State where
  cores : List (Nat × Core)
  halves : List (Nat × Half)
  engines : List (Nat × Engine)
  dies : Vector Die 4
  mem : Mem
  net : List Req
  nextId : Nat
  saved : List (Nat × Saved)
  devId : BitVec 10
  stage : Nat
  fw : Firmware
  fenced : List Nat
  downLinks : List Nat
  hdm : List HdmDec
  lanesOn : Bool
  vw : Vector Nat 4
  age : Nat
  routers : List (Nat × Router)
  /-- the number of the next packet (R387) -/
  packets : Nat
  /-- sequence tags: operations of R175 that each core has sent toward each destination device (R176, R387) -/
  seqs : List (Nat × W32)
  /-- operations of R175 that wait at their core for room in the reorder window, by id, in order (R176) -/
  unsent : List Nat
  hostOut : List HostMsg
  /-- writes of the host to bytes of this device, by key, in order of arrival (R169): no instruction or event makes one -/
  hostIn : List (Nat × List Byte)
  turn : Turn
  /-- cycles of the model's clock so far -/
  now : Nat
  agenda : List Instr
  iss : Iss
  free : Nat
  deriving DecidableEq, Repr

/-- The issue record before any bundle has issued. -/
def Iss.zero : Iss :=
  { core := 0, slot := 0, bundle := 0, pc := 0, src := none, srcH := Vector.replicate 16 0, srcSh := 0, first := 0, fate := .issued }

/-- R397: the machine right after reset, at stage 2 with SVC = 1 and CAUSE = 1, no core assigned. -/
def State.reset : State :=
  { cores := [], halves := [], engines := [], dies := Vector.replicate 4 Die.zero, mem := [], net := [], nextId := 0,
    saved := [], devId := 0, stage := 2,
    fw := { accepted := false, failed := false, power := none, digest := [], keys := false, rootPub := [], aliasSeed := [], aliasPub := [], cert := [] },
    fenced := [], downLinks := [], hdm := [], lanesOn := false, vw := Vector.replicate 4 2 |> (vset · 1 4) |> (vset · 3 1),
    age := 256, routers := [], packets := 0, seqs := [], unsent := [], hostOut := [], hostIn := [], turn := { core := 0, slot := 0 }, now := 0, agenda := [], iss := Iss.zero, free := 0 }

end Sys2Proof.Machine
end

