-- ==== Sys2Proof/Machine/Operands.lean ====
section
/-! DEFINITION. Operands: the parts of the state by name, the registers that fields name (R39, R41,
R80-R82), fat pointers (R134-R136, R194), immediates, and which registers an instruction reads. -/

namespace Sys2Proof.Machine

/-! ## Parts of the state -/

/-- The core of an id; a core never touched is as reset leaves it. -/
def State.core (s : State) (c : CoreId) : Core := (kget s.cores c.toNat).getD Core.zero

/-- The state with one core replaced. -/
def State.setCore (s : State) (c : CoreId) (k : Core) : State := { s with cores := kset s.cores c.toNat k }

/-- The state with one core changed. -/
def State.modCore (s : State) (c : CoreId) (f : Core → Core) : State := s.setCore c (f (s.core c))

/-- The context of a slot. -/
def Core.ctx (k : Core) (n : SlotNo) : Ctx := vget k.ctxs n.toNat Ctx.zero

/-- The core with one context replaced. -/
def Core.setCtx (k : Core) (n : SlotNo) (x : Ctx) : Core := { k with ctxs := vset k.ctxs n.toNat x }

/-- The context of a slot of a core. -/
def State.ctx (s : State) (c : CoreId) (n : SlotNo) : Ctx := (s.core c).ctx n

/-- The state with one context changed. -/
def State.modCtx (s : State) (c : CoreId) (n : SlotNo) (f : Ctx → Ctx) : State :=
  s.modCore c fun k => k.setCtx n (f (k.ctx n))

/-- A die. -/
def State.die (s : State) (d : BitVec 2) : Die := vget s.dies d.toNat Die.zero

/-- The state with one die changed. -/
def State.modDie (s : State) (d : BitVec 2) (f : Die → Die) : State :=
  { s with dies := vset s.dies d.toNat (f (s.die d)) }

/-- The enfleurage engine of a cluster (die and cluster number). -/
def State.engine (s : State) (cl : BitVec 8) : Engine := (kget s.engines cl.toNat).getD Engine.zero

/-- The state with one engine replaced. -/
def State.setEngine (s : State) (cl : BitVec 8) (e : Engine) : State := { s with engines := kset s.engines cl.toNat e }

/-- The accord arbiter of a half-cluster (core id bits 11:3). -/
def State.half (s : State) (h : BitVec 9) : Half := (kget s.halves h.toNat).getD Half.zero

/-- The state with one half-cluster replaced. -/
def State.setHalf (s : State) (h : BitVec 9) (x : Half) : State := { s with halves := kset s.halves h.toNat x }

/-- The die, cluster and half-cluster of a core (R32). -/
def dieOf (c : CoreId) : BitVec 2 := c.extractLsb' 10 2
def clusterOf (c : CoreId) : BitVec 8 := c.extractLsb' 4 8
def halfOf (c : CoreId) : BitVec 9 := c.extractLsb' 3 9

/-- The quadrant of a core: cluster[5:4] (R32). -/
def quadOf (c : CoreId) : Nat := (c.extractLsb' 8 2).toNat

/-- The context whose bundle is being executed. -/
def State.me (s : State) : Ctx := s.ctx s.iss.core s.iss.slot

/-- The core whose bundle is being executed. -/
def State.mine (s : State) : Core := s.core s.iss.core

/-- Changes the issuing context. -/
def State.modMe (s : State) (f : Ctx → Ctx) : State := s.modCtx s.iss.core s.iss.slot f

/-- Changes the issuing core. -/
def State.modMine (s : State) (f : Core → Core) : State := s.modCore s.iss.core f

/-- The owner queue of helper slot n (R66). -/
def ownerQ (own : BitVec 20) (n : Nat) : Nat := own.toNat / 4 ^ (n - 1) % 4

/-- The tenant and weight of a launch queue (R64). -/
def qTenant (qw : Word) (q : Nat) : Tenant := BitVec.ofNat 12 (qw.toNat / 2 ^ (16 * q))
def qWeight (qw : Word) (q : Nat) : Nat := qw.toNat / 2 ^ (16 * q + 12) % 16

/-- The tenant of a context: the core's for slot 0, its owner queue's for a helper (R66). -/
def Core.tenantOf (k : Core) (n : SlotNo) : Tenant :=
  if n = 0 then k.asg.getD 0 else qTenant k.r.qwgt (ownerQ k.r.slotOwn n.toNat)

/-- The tenant of the issuing context. -/
def State.tenant (s : State) : Tenant := s.mine.tenantOf s.iss.slot

/-- The slot holds the shadow bank (R41). -/
def Core.holds (k : Core) (n : SlotNo) : Bool := k.holder == some n

/-! ## Registers -/

/-- R39: g0 reads 0. -/
def Arch.rdG (a : Arch) (r : Nat) : Word := if r = 0 then 0 else vget a.g r 0

/-- R39: p0 reads all ones. -/
def Arch.rdP (a : Arch) (r : Nat) : Word := if r = 0 then BitVec.allOnes 64 else vget a.p r 0

/-- Writes to g0 are discarded. -/
def Arch.wrG (a : Arch) (r : Nat) (x : Word) : Arch := if r = 0 then a else { a with g := vset a.g r x }

/-- Writes to p0 are discarded. -/
def Arch.wrP (a : Arch) (r : Nat) (x : Word) : Arch := if r = 0 then a else { a with p := vset a.p r x }

/-- Writes a vector register. -/
def Arch.wrV (a : Arch) (r : Nat) (x : VReg) : Arch := { a with v := vset a.v r x }

/-- The registers a bundle reads: those at issue (R74). -/
def State.src (s : State) : Arch := s.iss.src.getD s.me.a

/-- The shadow bank a bundle reads. -/
def State.srcBank (s : State) : Vector Word 16 := if s.iss.src.isSome then s.iss.srcH else s.mine.h

/-- The scoreboard of the shadow bank that a bundle meets: that at issue (R94). -/
def State.srcShadow (s : State) : BitVec 16 := if s.iss.src.isSome then s.iss.srcSh else s.mine.sh

/-- The field value names a shadow register of the issuing context (R81). -/
def State.isShadow (s : State) (r : RF) : Bool := s.mine.holds s.iss.slot && 48 ≤ r.toNat

/-- The general register that a field names, as a source (R74, R81). -/
def State.rdG (s : State) (r : RF) : Word :=
  if s.isShadow r then vget s.srcBank (r.toNat - 48) 0 else s.src.rdG r.toNat

/-- Writes the general register that a field names. -/
def State.wrG (s : State) (r : RF) (x : Word) : State :=
  if s.isShadow r then s.modMine fun k => { k with h := vset k.h (r.toNat - 48) x }
  else s.modMe fun c => { c with a := c.a.wrG r.toNat x }

/-- A vector source, and a write of a vector register. -/
def State.rdV (s : State) (r : BitVec 4) : VReg := vget s.src.v r.toNat 0
def State.wrV (s : State) (r : BitVec 4) (x : VReg) : State := s.modMe fun c => { c with a := c.a.wrV r.toNat x }

/-- A predicate source, and a write of a predicate. -/
def State.rdP (s : State) (r : BitVec 3) : Word := s.src.rdP r.toNat
def State.wrP (s : State) (r : BitVec 3) (x : Word) : State := s.modMe fun c => { c with a := c.a.wrP r.toNat x }

/-- True64 (R194). -/
def true64 (t : Bool) : Word := if t then BitVec.allOnes 64 else 0

/-- The guard of an AR word holds (R78). -/
def State.guard (s : State) (g : BitVec 3) : Bool := (s.rdP g).getLsbD 0

/-- Register k of a consecutive group that starts at a field value (R82). -/
def grp (r : RF) (k : Nat) : RF := r + BitVec.ofNat 6 k

/-- ORs flags into FP.FLAGS of the issuing context (R132). -/
def State.orFlags (s : State) (f : BitVec 6) : State := s.modMe fun c => { c with a := { c.a with fpf := c.a.fpf ||| f } }

/-- The destination of a long result that a general-register field names (R93). -/
def State.dstG (s : State) (r : RF) : Dst :=
  if s.isShadow r then .h (BitVec.ofNat 4 (r.toNat - 48)) else if r = 0 then .none else .g r

/-! ## Fat pointers -/

/-- Fields of a pointer (R134). -/
def pFmt (p : Word) : Nat := (p.extractLsb' 59 5).toNat
def pBlg (p : Word) : Nat := (p.extractLsb' 56 3).toNat
def pSpc (p : Word) : Nat := (p.extractLsb' 54 2).toNat
def pDev (p : Word) : BitVec 10 := p.extractLsb' 44 10
def pCore (p : Word) : CoreId := p.extractLsb' 32 12
def pDie (p : Word) : BitVec 2 := p.extractLsb' 42 2

/-- OffW (R194): the width of the offset field. -/
def offW (p : Word) : Nat := if pSpc p = 0 then 18 else if pSpc p = 1 then 39 else 48

/-- The offset of a pointer. DESIGN CHOICE (log 84): the BASE, BAND and CODEBOOK pointers of R323, whose space is ignored, have the
offset width that their space field gives. -/
def pOff (p : Word) : Nat := p.toNat % 2 ^ offW p

/-- A pointer with its offset field replaced. -/
def setOff (p : Word) (o : Nat) : Word := BitVec.ofNat 64 (p.toNat / 2 ^ offW p * 2 ^ offW p + o % 2 ^ offW p)

/-- The must-be-zero fields of a pointer are zero (R134). -/
def mbzOk (p : Word) : Bool :=
  match pSpc p with
  | 0 => p.extractLsb' 18 14 == 0
  | 1 => p.extractLsb' 39 3 == 0
  | _ => p.extractLsb' 48 6 == 0

/-- An offset moved by a signed count, or none when it leaves the offset field (R136). -/
def moveOff (p : Word) (y : Int) : Option Word :=
  let o : Int := pOff p + y
  if o < 0 || (2 ^ offW p : Nat) ≤ o then none else some (setOff p o.toNat)

/-- R135: a pointer with its self values replaced by explicit ids. -/
def resolve (dev : BitVec 10) (c : CoreId) (p : Word) : Word :=
  if pSpc p = 0 then
    if pDev p = 0x3FF then
      let core := if pCore p = 0xFFF then c else pCore p
      p.extractLsb' 54 10 ++ dev ++ core ++ p.extractLsb' 0 32
    else p
  else if pSpc p = 1 then
    if pDev p = 0x3FF then p.extractLsb' 54 10 ++ dev ++ p.extractLsb' 0 44 else p
  else p

/-- A pointer resolved against the issuing core. -/
def State.res (s : State) (p : Word) : Word := resolve s.devId s.iss.core p

/-- The resolved pointer names a core's scratchpad of this device. -/
def isSp (s : State) (c : CoreId) (q : Word) : Bool := pSpc q = 0 && pDev q = s.devId && pCore q = c

/-- A scratchpad pointer of a core by explicit ids. -/
def spPtr (dev : BitVec 10) (c : CoreId) (o : Nat) : Word :=
  (0 : BitVec 10) ++ dev ++ c ++ BitVec.ofNat 32 (o % 2 ^ 18)

/-- A die-memory pointer by explicit ids. -/
def dmPtr (dev : BitVec 10) (d : BitVec 2) (va : Nat) : Word :=
  (1 : BitVec 10) ++ dev ++ d ++ BitVec.ofNat 42 (va % 2 ^ 39)

/-- FetchOK (R194) as a core of this device judges it. -/
def fetchOkAt (s : State) (c : CoreId) (t : Word) : Bool :=
  let q := resolve s.devId c t
  t.extractLsb' 0 3 == 0 && mbzOk t && ((pSpc q = 0 && isSp s c q) || (pSpc q = 1 && pDev q = s.devId))

/-- FetchOK for the issuing core. -/
def State.fetchOk (s : State) (t : Word) : Bool := fetchOkAt s s.iss.core t

/-- The address `d` bundles from a PC (R194 Target), or none where it would carry. -/
def targetOf (pc : Word) (d : Int) : Option Word := moveOff pc (8 * d)

/-- NextPC of the bundle being executed (R103). -/
def State.nextPc (s : State) : Option Word := targetOf s.iss.pc 1

/-- A sign-extended immediate as an integer. -/
def sx {n : Nat} (x : BitVec n) : Int := x.toInt

/-- An immediate sign-extended to a word. -/
def sxw {n : Nat} (x : BitVec n) : Word := x.signExtend 64

end Sys2Proof.Machine

namespace Sys2Proof

/-! ## Which registers an instruction reads (R94) -/

/-- General registers read, as field values. `hret` reads h1 after its wait of R99, so that read takes no HAZARD, a point on which
R94 and R99 are silent (DESIGN CHOICE, log 80). -/
def Instr.readsG : Instr → List RF
  | .jmpi a | .park a | .trap a | .tmark a => [a]
  | .ret => [63]
  | .loop a _ => [a]
  | .hstart _ b => [b, Machine.grp b 1, Machine.grp b 2]
  | .hjoin a b | .hsave a b | .hload a b => [a, b]
  | .hresume a => [a]
  | .pshare _ b => [b]
  | .crw a _ | .crs a _ | .crc a _ => [a]
  | .ld _ _ b _ | .ldn _ _ b _ => [b]
  | .st _ a b _ => [a, b]
  | .ldx _ b c _ => [b, c]
  | .stx a b c _ => [a, b, c]
  | .vld _ b _ | .vst _ b _ => [b]
  | .vldf _ b c _ | .vstf _ b c _ _ | .vldt _ b c _ => [b, c]
  | .vgath _ b _ _ | .vscat _ b _ _ => [b]
  | .amo _ b c _ _ => [b, c]
  | .acas a b c _ => [a, b, c]
  | .red b c _ _ => [b, c]
  | .post _ b c n => b :: (List.range n.toNat).map (Machine.grp c)
  | .recv _ b => [b]
  | .klook _ b => [b]
  | .kclaim _ b c | .kwait _ b c | .kload _ b c => [b, c]
  | .kready a | .kinv a => [a]
  | .kunbind _ b | .kpin _ b | .kunpin _ b => [b]
  | .kwin _ a b _ _ => [a, b]
  | .rclaim _ b c | .rwait _ b c => [b, c]
  | .rpush a | .rrel a => [a]
  | .rstat _ b => [b]
  | .rset a b => [a, b]
  | .cpset a b => [a, b]
  | .cpgo _ b | .cpwp _ b => [b]
  | .cpwait _ b c => [b, c]
  | .cpabort a => [a]
  | .mbinc a b | .mbset a b => [a, b]
  | .mbwait a b c => [a, b, c]
  | .mbrd _ b => [b]
  | .spend a => [a, 63]
  | .amsg _ b c => [b, c, Machine.grp c 1, Machine.grp c 2]
  | .tgnew _ b | .tglaunch _ b | .tgstat _ b => [b]
  | .spawn a _ => [a, 63]
  | .apxOn _ b => [b]
  | .apxIn a | .apxInv a => [a]
  | .apxOut _ b => [b]
  | .apxSt _ b => [b]
  | .apxLd a b => [a, b]
  | .cbPush a b c => a :: c :: (List.range 5).map (Machine.grp b)
  | .cbPull _ b c => [b, c]
  | .cbDone a b => [a, b]
  | .cbEnd a => [a]
  | .cbSt _ b => [b]
  | .add _ a b _ | .sub _ a b _ | .mul _ a b _ | .mulh _ a b _ | .mulhn _ a b _ | .div _ a b _
  | .divn _ a b _ | .rem _ a b _ | .remn _ a b _ | .and _ a b _ | .or _ a b _ | .xor _ a b _
  | .shl _ a b _ | .shr _ a b _ | .sra _ a b _ | .min _ a b _ | .max _ a b _ | .minn _ a b _
  | .maxn _ a b _ | .sel _ a b _ => [a, b]
  | .clz _ a _ | .ctz _ a _ | .popc _ a _ => [a]
  | .addi _ a _ | .andi _ a _ | .ori _ a _ | .xori _ a _ | .shli _ a _ | .shri _ a _ | .srai _ a _ => [a]
  | .movh d _ => [d]
  | .movl d m _ => if m = 2 then [d] else []
  | .cmp _ a b _ _ => [a, b]
  | .cmpi _ _ a _ => [a]
  | .bfx _ a _ _ _ => [a]
  | .bfi d a _ _ _ => [a, d]
  | .padd _ a b _ | .pidx _ a b _ | .pmk _ a b _ => [a, b]
  | .paddi _ a _ | .ptag _ a _ _ | .pget _ a _ _ => [a]
  | .pchk _ a b _ => [a, b]
  | .vbc _ g _ _ | .vins _ g _ _ _ => [g]
  | .mget _ a | .mput _ a | .mwait a => [a]
  | _ => []

/-- Vector registers read. A masked write leaves lanes of its destination, which it only writes. -/
def Instr.readsV : Instr → List (BitVec 4)
  | .vst v _ _ | .vstf v _ _ _ _ => [v]
  | .vgath _ _ x _ => [x]
  | .vscat v _ x _ => [v, x]
  | .vadd _ a b _ _ | .vsub _ a b _ _ | .vmul _ a b _ _ | .vmin _ a b _ _ | .vmax _ a b _ _
  | .vdiv _ a b _ | .vcmp _ a b _ _ _ | .vsel _ a b _ _ | .vperm _ a b _ _ | .vslide _ a b _ _ _
  | .vpack _ a b _ _ | .vand _ a b _ _ | .vor _ a b _ _ | .vxor _ a b _ _ | .vshift _ a b _ _ => [a, b]
  | .vfma _ a b c _ _ | .vfms _ a b c _ _ | .vnfma _ a b c _ _ => [a, b, c]
  | .vabs _ a _ _ | .vneg _ a _ _ | .vsqrt _ a _ | .vrcp _ a _ | .vrsq _ a _ | .vexp2 _ a _ | .vlog2 _ a _
  | .vcvt _ a _ _ _ _ _ | .vsum _ a _ _ | .vmaxr _ a _ _ | .vext a _ _ _ _ | .vunpack _ a _ _ _
  | .vbsc _ a _ _ _ _ _ => [a]
  | _ => []

/-- Predicate registers read: guards, masks, branch and selecting predicates. -/
def Instr.readsP : Instr → List (BitVec 3)
  | .br p _ _ => [p]
  | .add _ _ _ g | .sub _ _ _ g | .mul _ _ _ g | .mulh _ _ _ g | .mulhn _ _ _ g | .div _ _ _ g
  | .divn _ _ _ g | .rem _ _ _ g | .remn _ _ _ g | .and _ _ _ g | .or _ _ _ g | .xor _ _ _ g
  | .shl _ _ _ g | .shr _ _ _ g | .sra _ _ _ g | .min _ _ _ g | .max _ _ _ g | .minn _ _ _ g
  | .maxn _ _ _ g | .clz _ _ g | .ctz _ _ g | .popc _ _ g | .sel _ _ _ g => [g]
  | .cmp _ _ _ g _ | .padd _ _ _ g | .pidx _ _ _ g | .pget _ _ _ g | .pchk _ _ _ g | .pmk _ _ _ g => [g]
  | .vadd _ _ _ m _ | .vsub _ _ _ m _ | .vmul _ _ _ m _ | .vfma _ _ _ _ m _ | .vfms _ _ _ _ m _
  | .vnfma _ _ _ _ m _ | .vmin _ _ _ m _ | .vmax _ _ _ m _ | .vabs _ _ m _ | .vneg _ _ m _
  | .vdiv _ _ _ m | .vsqrt _ _ m | .vrcp _ _ m | .vrsq _ _ m | .vexp2 _ _ m | .vlog2 _ _ m
  | .vcvt _ _ _ _ m _ _ | .vcmp _ _ _ m _ _ | .vsel _ _ _ m _ | .vsum _ _ m _ | .vmaxr _ _ m _
  | .vbc _ _ m _ | .vins _ _ _ m _ | .vext _ _ _ m _ | .vperm _ _ _ m _ | .vslide _ _ _ _ m _
  | .vpack _ _ _ m _ | .vunpack _ _ _ m _ | .vbsc _ _ _ _ m _ _ | .vand _ _ _ m _ | .vor _ _ _ m _
  | .vxor _ _ _ m _ | .vshift _ _ _ m _ => [m]
  | _ => []

end Sys2Proof

namespace Sys2Proof.Machine

/-! ## HAZARD (R94) -/

/-- The first info word of HAZARD: class, number, read or write. -/
def hazardInfo (cls num : Nat) (write : Bool) : Word :=
  BitVec.ofNat 64 (64 * cls + num + (if write then 256 else 0))

/-- The scoreboard finding of one general-register field. -/
def State.busyG (s : State) (write : Bool) (r : RF) : Option Word :=
  if s.isShadow r then
    (if s.srcShadow.getLsbD (r.toNat - 48) then some (hazardInfo 3 (r.toNat - 48) write) else none)
  else if s.src.sg.getLsbD r.toNat then some (hazardInfo 0 r.toNat write) else none

/-- The scoreboard finding of one vector and one predicate register. -/
def State.busyV (s : State) (write : Bool) (r : BitVec 4) : Option Word :=
  if s.src.sv.getLsbD r.toNat then some (hazardInfo 1 r.toNat write) else none
def State.busyP (s : State) (write : Bool) (r : BitVec 3) : Option Word :=
  if s.src.sp.getLsbD r.toNat then some (hazardInfo 2 r.toNat write) else none

/-- R94: the info word of HAZARD when the instruction reads or writes a register whose bit is set. Of several such registers
the word names one by the model's choice (log 7): reads before writes, then general before vector before predicate
registers, in the order of the operand fields. -/
def State.hazard (s : State) (i : Instr) : Option Word :=
  (i.readsG.findSome? (s.busyG false)).or <| (i.readsV.findSome? (s.busyV false)).or <|
  (i.readsP.findSome? (s.busyP false)).or <| (i.destG.findSome? (s.busyG true)).or <|
  (i.destV.findSome? (s.busyV true)).or (i.destP.findSome? (s.busyP true))

end Sys2Proof.Machine
end

