-- ==== Sys2Proof/Machine/Memory.lean ====
section
/-! DEFINITION. Memory: the bytes by physical key, translation (R143-R150), the protection unit
(R139-R141), range locks (R183-R187), and the checks of an access (R136, R234). -/

namespace Sys2Proof.Machine

/-! ## Bytes -/

/-- The byte at a key; an unlisted key reads as zero. -/
def memGet (m : Mem) (k : Nat) : Byte :=
  match m with
  | [] => 0
  | (j, b) :: t => if j = k then b else memGet t k

/-- Inserts a nonzero byte in ascending order of keys, replacing the one of its key. -/
def memIns (m : Mem) (k : Nat) (b : Byte) : Mem :=
  match m with
  | [] => [(k, b)]
  | (j, c) :: t => if j = k then (k, b) :: t else if k < j then (k, b) :: (j, c) :: t else (j, c) :: memIns t k b

/-- Removes a key. -/
def memDel (m : Mem) (k : Nat) : Mem :=
  match m with
  | [] => []
  | (j, c) :: t => if j = k then memDel t k else (j, c) :: memDel t k

/-- Writes one byte, keeping the canonical form: writing zero removes the entry. -/
def memSet (m : Mem) (k : Nat) (b : Byte) : Mem := if b = 0 then memDel m k else memIns m k b

/-- The canonical form: keys strictly rising, no zero byte. -/
def Mem.wf : Mem → Bool
  | [] => true
  | [(_, b)] => b != 0
  | (k, b) :: (j, c) :: t => b != 0 && decide (k < j) && Mem.wf ((j, c) :: t)

/-- Writes bytes at keys, in order. -/
def memSetAll (m : Mem) : List (Nat × Byte) → Mem
  | [] => m
  | (k, b) :: t => memSetAll (memSet m k b) t

/-- `n` bytes from a key. -/
def memRead (m : Mem) (k n : Nat) : List Byte := (List.range n).map fun i => memGet m (k + i)

/-- Writes bytes from a key. -/
def memWrite (m : Mem) (k : Nat) (bs : List Byte) : Mem := memSetAll m (bs.mapIdx fun i b => (k + i, b))

/-- A little-endian number of `n` bytes at a key (R4). -/
def memNat (m : Mem) (k n : Nat) : Nat := leBytes (memRead m k n) 0 n

/-- The eight dwords of 64 bytes. -/
def dwords8 (bs : List Byte) : Vector Word 8 := Vector.ofFn fun i => BitVec.ofNat 64 (leBytes bs (8 * i.val) 8)

/-- The bytes of a word. -/
def wordBytes (x : Word) : List Byte := natBytes 8 x.toNat

/-! ## Physical keys -/

/-- The key of a scratchpad byte: 256 KiB per core (R2). -/
def spKey (c : CoreId) (o : Nat) : Nat := c.toNat * 2 ^ 18 + o

/-- The key of a byte of a die's 384 MiB. -/
def dmKey (d : BitVec 2) (pa : Nat) : Nat := 2 ^ 40 + d.toNat * 2 ^ 32 + pa

/-- The key of a byte of a die's atomizer SRAM: 32 frames of 64 KiB (R146). -/
def sramKey (d : BitVec 2) (o : Nat) : Nat := 2 ^ 41 + d.toNat * 2 ^ 32 + o

/-- The keys of pool and host-shared memory. -/
def poolKey (pa : Nat) : Nat := 2 ^ 50 + pa
def hostKey (ha : Nat) : Nat := 2 ^ 51 + ha

/-- Bytes of a die's memory. -/
def dmSize : Nat := 384 * 2 ^ 20

/-- The 64-byte line of a key. -/
def lineOf (k : Nat) : Nat := k / 64

/-- The lines of a list of keys, each once. -/
def linesOf (ks : List Nat) : List Nat := (ks.map lineOf).eraseDups

/-! ## Page tables (R144-R147) -/

/-- Attribute bits 8:2 of a leaf: R, W, X, U, T, S, D from bit 0. -/
abbrev Attr := BitVec 7

def attrT (a : Attr) : Bool := a.getLsbD 4
def attrS (a : Attr) : Bool := a.getLsbD 5
def attrD (a : Attr) : Bool := a.getLsbD 6

/-- Access kinds (R148): 0 load, 1 store, 2 atomic, 3 fetch, 4 engine read, 5 engine write. The rights of
R146 allow the kind and mode. -/
def rightsOk (a : Attr) (kind : Nat) (priv : Bool) : Bool :=
  (priv || a.getLsbD 3) &&
  match kind with
  | 0 => a.getLsbD 0
  | 1 => a.getLsbD 1
  | 2 => a.getLsbD 0 && a.getLsbD 1
  | 3 => a.getLsbD 2
  | 4 => a.getLsbD 0
  | _ => a.getLsbD 1

/-- A leaf that a walk found: base address of the page's frame, size and attributes; the faults by code. -/
inductive Walk where
  | fault (code : Nat)
  | leaf (frame : Nat) (large : Bool) (attr : Attr)
  deriving DecidableEq, Repr

/-- Reserved bits of a table entry, and of a leaf (R146). -/
def tableRsv (e : Nat) : Bool := e / 2 ^ 52 != 0 || e / 4 % 64 != 0
def leafRsv (e : Nat) : Bool := e / 2 ^ 52 != 0 || e / 2 ^ 9 % 128 != 0

/-- R395: the decoder maps a pool address. -/
def hdmHolds (d : HdmDec) (a : Nat) : Bool := d.base ≤ a && a < d.base + d.size

/-- R147, R395: every 64 KiB of a page of the pool lies in a range of the HDM decoders. -/
def hdmMaps (hdm : List HdmDec) (frame : Nat) (large : Bool) : Bool :=
  (List.range (if large then 32 else 1)).all fun i =>
    hdm.any fun r => r.base ≤ (frame + i) * 2 ^ 16 && (frame + i + 1) * 2 ^ 16 ≤ r.base + r.size

/-- R395: a decoder that the device supports: 1, 2, 4 or 8 root ports, by 256 bytes to 16 KiB. -/
def hdmOk (d : HdmDec) : Bool :=
  [1, 2, 4, 8].contains d.ports.length && [2 ^ 8, 2 ^ 9, 2 ^ 10, 2 ^ 11, 2 ^ 12, 2 ^ 13, 2 ^ 14].contains d.gran

/-- R395: the root port of a pool address: the ports of its decoder take turns by its granularity. -/
def rootPort (hdm : List HdmDec) (a : Nat) : BitVec 3 :=
  match hdm.find? fun d => hdmHolds d a with
  | some d => d.ports.getD ((a - d.base) / d.gran % d.ports.length) 0
  | none => 0

/-- The die of the root port of a pool address. -/
def State.poolPort (s : State) (a : Nat) : BitVec 2 := (rootPort s.hdm a).extractLsb' 1 2

/-- The end of a walk: the checks of a leaf (R147). -/
def walkLeaf (hdm : List HdmDec) (pool large : Bool) (e : Nat) : Walk :=
  let frame := e / 2 ^ 16 % 2 ^ 36
  let attr : Attr := BitVec.ofNat 7 (e / 4)
  if leafRsv e then .fault 2
  else if large && (frame % 32 != 0 || attrS attr) then .fault 2
  else if attrS attr && (pool || 31 < frame) then .fault 2
  else if !attrS attr && (if pool then !hdmMaps hdm frame large else dmSize ≤ frame * 2 ^ 16) then .fault 2
  else .leaf (frame * 2 ^ 16) large attr

/-- R144, R145: the 8-byte entry at a physical address of a die's memory. What a walk reads at an address that lies
outside that memory is free. -/
def tableWord (s : State) (d : BitVec 2) (a : Nat) : Nat :=
  if a + 8 ≤ dmSize then memNat s.mem (dmKey d a) 8 else (Config.noTable a).toNat

/-- R147: a walk of die `d`'s tables for a tenant. Walks read die memory by physical address. -/
def walk (s : State) (d : BitVec 2) (pool : Bool) (t : Tenant) (va : Nat) : Walk :=
  let rd := tableWord s d
  let root := rd ((s.die d).ttBase + 16 * t.toNat + (if pool then 8 else 0))
  if root % 2 = 0 then .fault 0
  else
    let e1 := rd (root / 256 % 2 ^ 44 * 256 + 8 * (va / 2 ^ 34 % 2 ^ 14))
    if e1 % 2 = 0 then .fault 0
    else if e1 / 2 % 2 = 1 || tableRsv e1 || e1 / 256 % 256 != 0 then .fault 2
    else
      let e2 := rd (e1 / 256 % 2 ^ 44 * 256 + 8 * (va / 2 ^ 21 % 2 ^ 13))
      if e2 % 2 = 0 then .fault 0
      else if e2 / 2 % 2 = 1 then walkLeaf s.hdm pool true e2
      else if tableRsv e2 then .fault 2
      else
        let e3 := rd (e2 / 256 % 2 ^ 44 * 256 + 8 * (va / 2 ^ 16 % 32))
        if e3 % 2 = 0 then .fault 0
        else if e3 / 2 % 2 = 0 then .fault 2
        else walkLeaf s.hdm pool false e3

/-- A translation covers an address of a tenant in a space. -/
def Tlb.covers (e : Tlb) (pool : Bool) (t : Tenant) (va : Nat) : Bool :=
  e.pool == pool && e.tenant == t && (if e.large then e.page / 32 == va / 2 ^ 21 else e.page == va / 2 ^ 16)

/-- The cached translation of an address at a die's interfaces. -/
def tlbFind (s : State) (d : BitVec 2) (pool : Bool) (t : Tenant) (va : Nat) : Option Tlb :=
  (s.die d).tlb.find? fun e => e.covers pool t va

/-- The leaf of a cached translation. -/
def Tlb.leaf (e : Tlb) : Walk := .leaf e.frame e.large e.attr

/-- Translation as an interface holds it now: the cache, and a walk on a miss. -/
def xlate (s : State) (d : BitVec 2) (pool : Bool) (t : Tenant) (va : Nat) : Walk :=
  match tlbFind s d pool t va with
  | some e => e.leaf
  | none => walk s d pool t va

/-- The key of an address under a leaf. -/
def leafKey (d : BitVec 2) (pool : Bool) (va frame : Nat) (large : Bool) (a : Attr) : Nat :=
  let o := if large then va % 2 ^ 21 else va % 2 ^ 16
  if pool then poolKey (frame + o) else if attrS a then sramKey d (frame + o) else dmKey d (frame + o)

/-- What a translated access finds: the key and attributes, or the fault code (R147, rights included). -/
inductive Xl where
  | ok (key : Nat) (attr : Attr)
  | fault (code : Nat)
  deriving DecidableEq, Repr

/-- What an access of an address finds under a translation; a DECODE source needs D (R147). -/
def leafFor (w : Walk) (d : BitVec 2) (pool : Bool) (va kind : Nat) (priv dec : Bool) : Xl :=
  match w with
  | .fault c => .fault c
  | .leaf fr lg a =>
    if rightsOk a kind priv && (!dec || attrD a) then .ok (leafKey d pool va fr lg a) a else .fault 1

/-- Translates an address for an access. -/
def xlateFor (s : State) (d : BitVec 2) (pool : Bool) (t : Tenant) (va kind : Nat) (priv dec : Bool) : Xl :=
  leafFor (xlate s d pool t va) d pool va kind priv dec

/-- A translation faults. -/
def Xl.faults : Xl → Bool
  | .ok _ _ => false
  | .fault _ => true

/-- The entries of a die's array of descriptors (R149): the die's 6,176 frames, and the pool frames whose home it is. -/
def descCount (d : BitVec 2) : Nat := 6176 + Config.poolDescs d

/-- The home of a pool frame's descriptor: a die of this device and an index in its array; none for a home elsewhere (log 8). -/
def poolEntry (f : Nat) : Option (BitVec 2 × Nat) := (Config.poolHome f).filter fun h => decide (h.2 < descCount h.1)

/-- Where the descriptor of a frame lies (R149): die-memory frames by number, atomizer frames at 6,144 on. -/
def descKey (s : State) (d : BitVec 2) (pool : Bool) (frame : Nat) (a : Attr) : Option Nat :=
  if pool then (poolEntry (frame / 2 ^ 16)).map fun h => sramKey h.1 ((s.die h.1).descBase + 8 * h.2)
  else some (sramKey d ((s.die d).descBase + 8 * (if attrS a then 6144 + frame / 2 ^ 16 else frame / 2 ^ 16)))

/-- R149: a byte as it is written at a key: bits 63:58 of a descriptor stay zero, whoever writes them. -/
def State.cutByte (s : State) (k : Nat) (b : Byte) : Byte :=
  if k < 2 ^ 41 || 2 ^ 50 ≤ k then b
  else
    let d : BitVec 2 := BitVec.ofNat 2 (k / 2 ^ 32)
    let o := k % 2 ^ 32
    let z := (s.die d).descBase
    if z ≤ o && o < z + 8 * descCount d && (o - z) % 8 = 7 then b &&& 0x03 else b

/-- Bytes as they are written at keys. -/
def State.cutBytes (s : State) (ks : List Nat) (bs : List Byte) : List Byte := (ks.zip bs).map fun p => s.cutByte p.1 p.2

/-- R150: the update of a descriptor at a walk by a core of quadrant q. -/
def descUpdate (x : Nat) (q : Nat) : Nat :=
  let miss := min (x / 2 ^ 10 % 2 ^ 16 + 1) 65535
  let qs := (List.range 4).map fun i => x / 2 ^ (26 + 8 * i) % 256
  let qs := if qs.getD q 0 = 255 then qs.map (· / 2) else qs
  let qs := qs.mapIdx fun i v => if i = q then v + 1 else v
  x % 2 ^ 10 + miss * 2 ^ 10 + (qs.mapIdx fun i v => v * 2 ^ (26 + 8 * i)).sum

/-- A page number of 64 KiB. -/
def pageOf (va : Nat) : Nat := va / 2 ^ 16

/-- Counts one event of a die's source, by its place in R405's list. -/
def Die.count (x : Die) (src : Nat) : Die :=
  { x with cnt := Vector.ofFn fun i =>
      if (vget x.cntSel i.val 0).toNat = src + 1 then vget x.cnt i.val 0 + 1 else vget x.cnt i.val 0 }

/-- Counts n events of a die's source. -/
def Die.countMany (x : Die) (src n : Nat) : Die :=
  { x with cnt := Vector.ofFn fun i =>
      if (vget x.cntSel i.val 0).toNat = src + 1 then vget x.cnt i.val 0 + BitVec.ofNat 64 n else vget x.cnt i.val 0 }

/-- Performs a translation at an interface for an access of a kind and mode, a DECODE source or not: on a miss the walk
fills the cache and updates the descriptor of the frame found (R143, R150), at the atomizer of its die (R149, R405). A walk that
faults, for its rights too, does neither (R147, R150). -/
def touch (s : State) (d : BitVec 2) (pool : Bool) (t : Tenant) (va quad kind : Nat) (priv dec : Bool) : State :=
  match tlbFind s d pool t va with
  | some _ => s
  | none =>
    let w := walk s d pool t va
    let s := s.modDie d fun x => x.count 16
    match w with
    | .fault _ => s
    | .leaf fr lg a =>
      if !(rightsOk a kind priv && (!dec || attrD a)) then s
      else
        let s := match descKey s d pool fr a with
          | some k =>
            { s with mem := memWrite s.mem k (natBytes 8 (descUpdate (memNat s.mem k 8) quad)) }.modDie (BitVec.ofNat 2 (k / 2 ^ 32)) fun x => x.count 4
          | none => s
        let e : Tlb := { pool := pool, tenant := t, page := pageOf va, large := lg, frame := fr, attr := a }
        s.modDie d fun x => { x with tlb := x.tlb ++ [e] }

/-- The translations that an access of n bytes performs at an interface: of its first page, and, unless that faults, of its last
(R137, R143). -/
def touchSpan (s : State) (d : BitVec 2) (pool : Bool) (t : Tenant) (va n quad kind : Nat) (priv dec : Bool) : State :=
  let u := touch s d pool t va quad kind priv dec
  if (xlateFor s d pool t va kind priv dec).faults then u else touch u d pool t (va + n - 1) quad kind priv dec

/-- The open chunk of a context, by the count of its bundles at the chunk's start, is still open. -/
def openSince (s : State) (h : CoreId × SlotNo × Nat) : Bool :=
  let x := s.ctx h.1 h.2.1
  match x.chunk with
  | some ch => x.bundles - ch.n == h.2.2
  | none => false

/-- R153: an access of n bytes that needs a translation of a page under migration waits at the interface. A context whose open chunk
the migration waits for is not held: its chunk could not end (DEDUCED, log 55). -/
def pageHeld (s : State) (d : BitVec 2) (pool : Bool) (t : Tenant) (va n : Nat) (by_ : Option (CoreId × SlotNo)) : Bool :=
  (s.die d).pageCmds.any fun m => m.frame.isSome && m.tenant == t && !pool && m.die == d &&
    (if m.large then (m.va / 2 ^ 21 == va / 2 ^ 21) || (m.va / 2 ^ 21 == (va + n - 1) / 2 ^ 21)
     else (m.va / 2 ^ 16 == va / 2 ^ 16) || (m.va / 2 ^ 16 == (va + n - 1) / 2 ^ 16)) &&
    !(m.chunks.any fun h => by_ == some (h.1, h.2.1) && openSince s h)

/-! ## Scratchpad protection (R139-R141) -/

/-- One region grants rights on n bytes from o (R140). -/
def regionGrants (base size : Word) (t : Tenant) (priv : Bool) (o n : Nat) (need : Nat) : Bool :=
  let sz := size.toNat / 64 % 2 ^ 13
  let b := base.toNat / 64 % 2 ^ 12
  let rights := if priv then size.toNat / 8 % 8 else size.toNat % 8
  sz != 0 && (base.getLsbD 51 || base.extractLsb' 52 12 == t) &&
    64 * b ≤ o && o + n ≤ 64 * (b + sz) && o + n ≤ 2 ^ 18 && Nat.land rights need == need

/-- The rights an access kind needs: R 1, W 2, X 4 (R140). -/
def needOf (kind : Nat) : Nat :=
  match kind with
  | 0 => 1 | 1 => 2 | 2 => 3 | 3 => 4 | 4 => 1 | _ => 2

/-- R140: the protection unit of a core permits an access. -/
def protOk (k : Core) (t : Tenant) (priv : Bool) (o n kind : Nat) : Bool :=
  (List.range 8).any fun i => regionGrants (vget k.r.protBase i 0) (vget k.r.protSize i 0) t priv o n (needOf kind)

/-! ## Range locks (R183-R187) -/

/-- The place of a resolved pointer in the order of locations: its space, device, core or die, and offset (R183). -/
def posOf (q : Word) : Nat := q.toNat % 2 ^ 56

/-- The place from which an entry locks on: a shrinking destination locks from the write pointer on, and nothing once the
pointer has passed the last offset of the space and wrapped (R187). For MCAST the places are offsets. -/
def lockFirst (s : State) (l : Lock) : Nat :=
  let at_ := fun (q : Word) => if l.mask == 0 then posOf q else pOff q
  let h := vget (s.core l.core).chan l.ch Chan.zero
  if !(l.dst && l.shrinks) then at_ l.first
  else if pOff h.wp = 0 && 0 < h.pos then at_ l.last + 1
  else max (at_ l.first) (at_ (resolve s.devId l.core h.wp))

/-- An entry covers a byte of the n bytes at a resolved pointer, for an access of a tenant (R186): physical bytes of SPC 0
for every tenant, virtual bytes for its own. R186 does not name SPC 3: its bytes are taken as virtual ones (DESIGN CHOICE, log 81). -/
def lockMeets (s : State) (l : Lock) (t : Tenant) (q : Word) (n : Nat) : Bool :=
  0 < n && (pSpc q == 0 || t == l.tenant) &&
  if l.mask == 0 then posOf q ≤ posOf l.last && lockFirst s l < posOf q + n
  else pSpc q == 0 && pDev q == pDev l.first && clusterOf (pCore q) == clusterOf (pCore l.first) && l.mask.getLsbD ((pCore q).toNat % 16) &&
    pOff q ≤ pOff l.last && lockFirst s l < pOff q + n

/-- R186: the entry of the die's table that an access of a kind meets; of several the first in the table (DESIGN CHOICE, log 81). -/
def lockHit (s : State) (d : BitVec 2) (t : Tenant) (q : Word) (n kind : Nat) : Option Lock :=
  (s.die d).locks.find? fun l => (l.dst || kind = 1 || kind = 2) && lockMeets s l t q n

/-! ## Traps of an access -/

/-- A trap with its info words (R336), and the two words that KMISS carries besides (R275). -/
structure Trap where
  cause : BitVec 8
  i0 : Word
  i1 : Word
  aux : Word
  aux2 : Word
  deriving DecidableEq, Repr

/-- A trap with two info words. -/
def mkTrap (c : BitVec 8) (i0 i1 : Word) : Trap := { cause := c, i0 := i0, i1 := i1, aux := 0, aux2 := 0 }

def cILLEGAL : BitVec 8 := 0x01
def cHAZARD : BitVec 8 := 0x02
def cADDR : BitVec 8 := 0x03
def cPROT : BitVec 8 := 0x04
def cFORMAT : BitVec 8 := 0x05
def cOBJ : BitVec 8 := 0x06
def cLOCKED : BitVec 8 := 0x07
def cWAITX : BitVec 8 := 0x08
def cKMISS : BitVec 8 := 0x09
def cPINOVF : BitVec 8 := 0x0A
def cPAGE : BitVec 8 := 0x0B
def cBRK : BitVec 8 := 0x0C
def cWATCH : BitVec 8 := 0x0D
def cSOFT : BitVec 8 := 0x0E
def cREMOTE : BitVec 8 := 0x0F
def cSERVICE : BitVec 8 := 0x10

/-- No trap: what a bundle has to read is held at an interface (R153), and the bundle does not issue. -/
def heldRead : Trap := mkTrap 0xFF 0 0

/-- Traps whose second word is the bundle (R336). -/
def State.tAddr (s : State) (p : Word) : Trap := mkTrap cADDR p s.iss.bundle
def State.tFormat (s : State) (p : Word) : Trap := mkTrap cFORMAT p s.iss.bundle
def State.tIllegal (s : State) (reason : Nat) : Trap := mkTrap cILLEGAL (BitVec.ofNat 64 reason) s.iss.bundle
def State.tObj (s : State) (idx reason : Nat) : Trap := mkTrap cOBJ (BitVec.ofNat 64 (idx % 2 ^ 16 + reason * 2 ^ 16)) s.iss.bundle

/-- PROT on an access (R336): the pointer and the access kind. -/
def tProt (p : Word) (kind : Nat) : Trap := mkTrap cPROT p (BitVec.ofNat 64 kind)

/-- The fault word of PAGE (R148). -/
def faultWord (code kind : Nat) : Word := BitVec.ofNat 64 (code + 4 * kind)

/-- A resolved pointer names memory of the issuing die (R160), or its own scratchpad. -/
def State.ownDie (s : State) (q : Word) : Bool := pSpc q == 1 && pDev q == s.devId && pDie q == dieOf s.iss.core
def State.ownSp (s : State) (q : Word) : Bool := isSp s s.iss.core q

/-- A resolved pointer names a scratchpad of the issuing die. -/
def State.dieSp (s : State) (q : Word) : Bool := pSpc q == 0 && pDev q == s.devId && dieOf (pCore q) == dieOf s.iss.core

/-- The first page of n bytes whose translation faults for an access of own-die memory, with the code
and the pointer: both pages are translated before any byte is performed (R137). -/
def State.pageFault (s : State) (q : Word) (n kind : Nat) (t : Tenant) (priv : Bool) : Option (Nat × Word) :=
  let d := dieOf s.iss.core
  let at_ := fun (o : Nat) => match xlateFor s d false t o kind priv false with
    | .fault c => some (c, q)
    | .ok _ _ => none
  (at_ (pOff q)).or (if pageOf (pOff q + n - 1) != pageOf (pOff q) then at_ (pOff q + n - 1) else none)

/-- R136: ADDR of n bytes at a pointer. -/
def addrBad (p : Word) (n align : Nat) : Bool :=
  !mbzOk p || 2 ^ offW p < pOff p + n || (n != 0 && pOff p % align != 0)

/-- `Check(q, n, kind, align)` without its ADDR part: PROT, LOCKED, PAGE (R234). -/
def State.checkProt (s : State) (p : Word) (n kind : Nat) : Option Trap :=
  if n != 0 && s.ownSp (s.res p) && !protOk s.mine s.tenant s.me.priv (pOff p) n kind then some (tProt p kind) else none

def State.checkLock (s : State) (p : Word) (n kind : Nat) : Option Trap :=
  (lockHit s (dieOf s.iss.core) s.tenant (s.res p) n kind).map fun l => mkTrap cLOCKED p (l.xid.setWidth 64)

/-- R153: an access of the issuing context to own-die memory waits for the migration of its page. -/
def State.ownHeld (s : State) (q : Word) (n : Nat) : Bool :=
  s.ownDie q && pageHeld s (dieOf s.iss.core) false s.tenant (pOff q) n (some (s.iss.core, s.iss.slot))

/-- R148: PAGE of a store or an atomic of own-die memory. One held for a migration of its page does not fault (R153). -/
def State.checkPage (s : State) (p : Word) (n kind : Nat) : Option Trap :=
  if n != 0 && s.ownDie (s.res p) && (kind == 1 || kind == 2) then
    if s.ownHeld (s.res p) n then some heldRead
    else (s.pageFault (s.res p) n kind s.tenant s.me.priv).map fun f => mkTrap cPAGE p (faultWord f.1 kind)
  else none

/-- `Check(q, n, kind, align)` (R234). -/
def State.check (s : State) (p : Word) (n kind align : Nat) : Option Trap :=
  if addrBad p n align then some (s.tAddr p)
  else (s.checkProt p n kind).or ((s.checkLock p n kind).or (s.checkPage p n kind))

/-- The first trap of a list of checks. -/
def firstTrap : List (Option Trap) → Option Trap
  | [] => none
  | t :: r => t.or (firstTrap r)

/-! ## Where the bytes of an access lie -/

/-- A key for a byte that is not near: the resolved space, location and offset. -/
def farKey (q : Word) (i : Nat) : Nat := 2 ^ 60 + q.toNat % 2 ^ 56 + i

/-- The attributes of the page of a resolved pointer to own-die memory, if it translates. -/
def State.ownAttr (s : State) (q : Word) : Option Attr :=
  match xlate s (dieOf s.iss.core) false s.tenant (pOff q) with
  | .leaf _ _ a => some a
  | .fault _ => none

/-- R160: the location is near to the issuing core. Own-die memory whose translation faults is near. An access that spans a
page with T = 0 and one with T = 1 is of the class of its first byte (DESIGN CHOICE, log 66). -/
def State.near (s : State) (q : Word) : Bool :=
  s.dieSp q || (s.ownDie q && match s.ownAttr q with | some a => !attrT a | none => true)

/-- R160: the location of a load of n bytes is near: also where its translation, of either page (R137), faults. -/
def State.nearLoad (s : State) (q : Word) (n : Nat) : Bool :=
  s.near q || (s.ownDie q && n != 0 && (s.pageFault q n 0 s.tenant s.me.priv).isSome)

/-- An access that follows total store order toward the host: SPC 3, or a page with T = 1 (R179): of die memory by the tables of the
die that holds it, of this device or of another, or of the pool by those of the issuing die (R143, R146). -/
def tsoOf (s : State) (c : CoreId) (t : Tenant) (q : Word) : Bool :=
  let page := fun (d : BitVec 2) (pool : Bool) => match xlate s d pool t (pOff q) with
    | .leaf _ _ a => attrT a
    | .fault _ => false
  match pSpc q with
  | 0 => false
  | 1 => if pDev q = s.devId then page (pDie q) false else Config.outerT q
  | 2 => page (dieOf c) true
  | _ => true

/-- The same of the issuing context. -/
def State.isTso (s : State) (q : Word) : Bool := tsoOf s s.iss.core s.tenant q

/-- The key of byte i at a resolved pointer as the issuing context names it. -/
def State.byteKey (s : State) (q : Word) (i : Nat) : Nat :=
  if s.dieSp q then spKey (pCore q) (pOff q + i)
  else if s.near q then
    match xlate s (dieOf s.iss.core) false s.tenant (pOff q + i) with
    | .leaf fr lg a => leafKey (dieOf s.iss.core) false (pOff q + i) fr lg a
    | .fault _ => farKey q i
  else farKey q i

/-- The keys of n bytes. -/
def State.byteKeys (s : State) (q : Word) (n : Nat) : List Nat := (List.range n).map (s.byteKey q)

/-- The byte of the context's own buffered store at a key: the youngest one (R163). -/
def bufByte (buf : List StoreRec) (k : Nat) : Option Byte :=
  buf.foldl (fun acc r => match (r.keys.zip r.bytes).foldl (fun a kb => if kb.1 = k then some kb.2 else a) none with
    | some b => some b
    | none => acc) none

/-- The context's own buffered byte at a key. -/
def Ctx.bufAt (x : Ctx) (k : Nat) : Option Byte :=
  match x.chunk with
  | some c => bufByte c.buf k
  | none => none

/-- The keys of n bytes of own-die memory under their translations, whatever T; none elsewhere. -/
def State.physKeys (s : State) (q : Word) (n : Nat) : List Nat :=
  if s.ownDie q then
    (List.range n).map fun i => match xlate s (dieOf s.iss.core) false s.tenant (pOff q + i) with
      | .leaf fr lg a => leafKey (dieOf s.iss.core) false (pOff q + i) fr lg a
      | .fault _ => farKey q i
  else []

/-- The translations that an access of own-die memory performs (R137, R143). -/
def State.touchOwn (s : State) (q : Word) (n kind : Nat) : State :=
  if s.ownDie q && n != 0 then touchSpan s (dieOf s.iss.core) false s.tenant (pOff q) n (quadOf s.iss.core) kind s.me.priv false else s

end Sys2Proof.Machine
end

