-- ==== Sys2Proof/Machine/Trace.lean ====
section
/-! DEFINITION. Event counters (R403, R404) and the trace records that cores offer (R443-R448, R451). -/

namespace Sys2Proof.Machine

/-! ## Event counters -/

/-- Counter k of a core counts the event: a core event, or a context event whose context and mode are
selected (R403). -/
def cntSelects (sel : Word) (ev : Nat) (ctx : Option (SlotNo × Bool)) : Bool :=
  (sel.toNat % 256 == ev) && ev != 0 && ev ≤ 24 &&
  match ctx with
  | none => true
  | some (n, priv) => sel.getLsbD (8 + n.toNat) && sel.getLsbD (if priv then 21 else 20)

/-- Adds `k` events to the counters that select them. -/
def cntAdd (r : CoreRegs) (ev k : Nat) (ctx : Option (SlotNo × Bool)) : CoreRegs :=
  { r with cntVal := Vector.ofFn fun i =>
      if cntSelects (vget r.cntSel i.val 0) ev ctx then vget r.cntVal i.val 0 + BitVec.ofNat 64 k
      else vget r.cntVal i.val 0 }

/-- A context event of a context, in its mode. -/
def State.countCtx (s : State) (c : CoreId) (n : SlotNo) (ev : Nat) : State :=
  s.modCore c fun k => { k with r := cntAdd k.r ev 1 (some (n, (k.ctx n).priv)) }

/-- `m` core events. -/
def State.countCore (s : State) (c : CoreId) (ev m : Nat) : State :=
  s.modCore c fun k => { k with r := cntAdd k.r ev m none }

/-- The die counters by source, in the order of R405's list. -/
def State.countDie (s : State) (d : BitVec 2) (src : Nat) : State :=
  s.modDie d fun x => x.count src

/-! ## Records -/

/-- A head record (R443). -/
def headRec (type xn : Nat) (c : CoreId) (ctx : Nat) (ltag : Nat) (widlo : Nat) (rot : Nat) (p0 : Nat) : BitVec 128 :=
  BitVec.ofNat 128 (type + xn * 2 ^ 4 + c.toNat * 2 ^ 8 + ctx * 2 ^ 20 + ltag % 2 ^ 16 * 2 ^ 24 +
    widlo % 2 ^ 32 * 2 ^ 40 + rot % 2 ^ 40 * 2 ^ 72 + p0 % 2 ^ 16 * 2 ^ 112)

/-- An extension record with fields A and B. -/
def extRec (a : Word) (b : Nat) : BitVec 128 := BitVec.ofNat 128 (15 + a.toNat * 2 ^ 4 + b % 2 ^ 60 * 2 ^ 68)

/-- A head record of a context. -/
def State.ctxRec (s : State) (type xn : Nat) (c : CoreId) (n : SlotNo) (p0 : Nat) : BitVec 128 :=
  let x := s.ctx c n
  headRec type xn c n.toNat x.a.ltag.toNat x.a.wid.toNat (s.core c).rot.toNat p0

/-- R454: the mark of a unit that a core offers now. -/
def State.bundleMark (s : State) (c : CoreId) : SkidMark :=
  { at_ := s.now, cl := clusterOf c
    counts := ((List.range 16).map fun i => (s.core (clusterOf c ++ BitVec.ofNat 4 i)).ctxs.toList.map (·.bundles)).flatten }

/-- The place of a context in a mark. -/
def markAt (c : CoreId) (n : Nat) : Nat := 11 * (c.toNat % 16) + n

/-- R454: a bundle that a context issues counts for the marks that its cluster has set in this cycle. -/
def State.markIssue (s : State) (c : CoreId) (n : SlotNo) : State :=
  let mine := fun (m : SkidMark) => m.at_ == s.now && m.cl == clusterOf c
  let bump := fun (m : SkidMark) =>
    if mine m then { m with counts := m.counts.mapIdx fun i b => if i = markAt c n.toNat then b + 1 else b } else m
  if (s.die (dieOf c)).sil.marks.any mine then
    s.modDie (dieOf c) fun x => { x with sil := { x.sil with marks := x.sil.marks.map bump } }
  else s

/-- Records of the input queue (R449). -/
def inCount (q : List (List (BitVec 128))) : Nat := (q.map List.length).sum

/-- Offers one unit: accepted whole when it fits, held in stall mode, dropped and counted otherwise
(R449-R451). -/
def State.offer (s : State) (c : CoreId) (u : List (BitVec 128)) : State :=
  let k := s.core c
  let d := dieOf c
  let sil := (s.die d).sil
  if k.stall.isEmpty && inCount sil.inq + u.length ≤ 256 then
    s.modDie d fun x => { x with sil := { x.sil with inq := x.sil.inq ++ [u], marks := x.sil.marks ++ [s.bundleMark c] } }
  else if k.r.trcCfg.getLsbD 6 then s.modCore c fun k => { k with stall := k.stall ++ [u] }
  else s.modDie d fun x => { x with sil := { x.sil with drops := min (x.sil.drops + u.length) (2 ^ 48 - 1) } }

/-- A unit other than ISSUE, SLOT and COUNT, when a bit of TRC.CFG is set (R447): it stands behind the ISSUE record of the cycle
(R444). -/
def State.offerIf (s : State) (c : CoreId) (bit : Nat) (u : List (BitVec 128)) : State :=
  if (s.core c).r.trcCfg.getLsbD bit then s.modCore c fun k => { k with kept := k.kept ++ [u] } else s

/-- R444: the end of a cycle of a core, or what stands before the SLOT record of a boundary: its other units are offered. -/
def State.offerKept (s : State) (c : CoreId) : State :=
  (s.core c).kept.foldl (fun s u => s.offer c u) (s.modCore c fun k => { k with kept := [] })

/-- ISSUE (R445): bit 0 holds the shadow bank, bit 1 privileged mode. -/
def State.traceIssue (s : State) (c : CoreId) (n : SlotNo) (pc bundle : Word) : State :=
  if (s.core c).r.trcCfg.getLsbD 0 && (s.core c).r.trcCfg.getLsbD (8 + n.toNat) then
    s.offer c [s.ctxRec 1 2 c n ((if (s.core c).holds n then 1 else 0) + (if (s.ctx c n).priv then 2 else 0)),
      extRec pc 0, extRec bundle 0]
  else s

/-- START (R445). -/
def State.traceStart (s : State) (c : CoreId) (n : SlotNo) (src : Nat) : State :=
  let x := s.ctx c n
  s.offerIf c 2 [s.ctxRec 3 2 c n src, extRec x.a.wid (x.a.widf.toNat % 2 ^ 39), extRec x.a.pc 0]

/-- EVENT with a context (R446). -/
def State.traceEvent (s : State) (c : CoreId) (n : SlotNo) (code p : Nat) (ext : List (BitVec 128)) : State :=
  s.offerIf c 3 (s.ctxRec 4 ext.length c n (code + 256 * p) :: ext)

/-- EVENT 7: a pre-emption state is entered (R446). -/
def State.tracePre (s : State) (c : CoreId) (code : Nat) : State :=
  s.offerIf c 3 [headRec 4 0 c 15 0 0 (s.core c).rot.toNat (7 + 256 * code)]

/-- DEBUG (R445): skid, the next PC, cause, entry number and access kind. -/
def State.traceDebug (s : State) (c : CoreId) (n : SlotNo) (skid cause entry kind : Nat) : State :=
  if n.toNat = 11 then
    s.offerIf c 3 [headRec 8 1 c 11 0 0 (s.core c).rot.toNat (skid % 2 ^ 16), extRec 0 (cause + 8 * entry + 64 * kind)]
  else
    s.offerIf c 3 [s.ctxRec 8 1 c n (skid % 2 ^ 16), extRec (s.ctx c n).a.pc (cause + 8 * entry + 64 * kind)]

/-- USER (R445, R228). -/
def State.traceUser (s : State) (c : CoreId) (n : SlotNo) (x : Word) : State :=
  s.offerIf c 4 [s.ctxRec 5 1 c n 0, extRec x 0]

/-- SLOT at a rotation boundary (R445, R448): classes of slots 0-10 and the number that issued. -/
def State.traceSlot (s : State) (c : CoreId) (cls : List (BitVec 2)) (ready : Nat) (rot : BitVec 40) : State :=
  let body := (cls.mapIdx fun i x => x.toNat * 4 ^ i).sum + ready * 2 ^ 22
  if (s.core c).r.trcCfg.getLsbD 1 then s.offer c [BitVec.ofNat 128 (2 + c.toNat * 2 ^ 8 + 15 * 2 ^ 20 + body * 2 ^ 24 + rot.toNat * 2 ^ 72)] else s

/-- COUNT: the 16 items (R445, R448), by the core as the rotation left it. -/
def State.traceCounts (s : State) (c : CoreId) (k : Core) : State :=
  (List.range 16).foldl (fun s i =>
    s.offer c [headRec 6 1 c 15 0 0 k.rot.toNat i,
      extRec (if i < 4 then vget k.r.cntVal i 0 else vget k.bins (i - 4) 0) 0]) s

end Sys2Proof.Machine
end

