-- ==== Sys2Proof/Machine/Ops.lean ====
section
/-! DEFINITION. The shared operations: squash and commit of chunks (R161-R173), taking a trap and
returning from one (R337-R347), long operations (R93-R99), waits (R54, R98, R459), requests (R174-R177),
and the frames that every meaning of a word is written in (R76, R165). -/

namespace Sys2Proof.Machine

/-! ## Folds over cores and slots -/

/-- The core ids of a state's touched cores on a die, ascending. -/
def State.coresOfDie (s : State) (d : BitVec 2) : List CoreId :=
  (s.cores.map fun p => BitVec.ofNat 12 p.1).filter fun c => dieOf c == d

/-- The context slots 0-10. -/
def allSlots : List SlotNo := (List.range 11).map (BitVec.ofNat 4)

/-- The helper slots 1-10. -/
def helperSlots : List SlotNo := (List.range 10).map fun i => BitVec.ofNat 4 (i + 1)

/-! ## Slots and the shadow bank -/

/-- The issuing state of a slot: HANDLER while it holds the bank, else READY (R52). -/
def Core.liveState (k : Core) (n : SlotNo) : SlotState := if k.holds n then .handler else .ready

/-- A wait in a chunk whose state squashes to its issuing state (R52). -/
def Core.afterSquash (k : Core) (n : SlotNo) (x : Ctx) : Ctx :=
  match x.st with
  | .ready | .parked | .waiting | .handler | .hparked | .hwaiting => { x with st := k.liveState n }
  | .frozen => { x with held := k.liveState n }
  | _ => x

/-- Releases the shadow bank if the slot holds it, and withdraws its BANKWAIT entry (R349). -/
def Core.dropBank (k : Core) (n : SlotNo) : Core :=
  { k with holder := if k.holds n then none else k.holder, bankq := k.bankq.filter (· != n) }

/-! ## Requests -/

/-- The router number of a core's mesh router, a quadrant router, a die root, the host, outside (R383). -/
def nodeCore (c : CoreId) : Nat := c.toNat
def nodeQuad (c : CoreId) : Nat := 4096 + (c.extractLsb' 8 4).toNat
def nodeRoot (d : BitVec 2) : Nat := 4112 + d.toNat
def nodeHost : Nat := 4116
def nodeOut : Nat := 4117

/-- Where a resolved pointer of a core is served: of the pool, at the die of the root port that the translation of the issuing die's
pool interface selects (R143). -/
def nodeOfPtr (s : State) (c : CoreId) (t : Tenant) (q : Word) : Nat :=
  match pSpc q with
  | 0 => if pDev q = s.devId then nodeCore (pCore q) else nodeOut
  | 1 => if pDev q = s.devId then nodeRoot (pDie q) else nodeOut
  | 2 => match xlate s (dieOf c) true t (pOff q) with
    | .leaf fr lg a => nodeRoot (s.poolPort (leafKey (dieOf c) true (pOff q) fr lg a - 2 ^ 50))
    | .fault _ => nodeRoot (dieOf c)
  | _ => nodeHost

/-- The node at which the byte of a key lies, and that of the first of some keys, or of a core where there is none. -/
def keyNode (s : State) (k : Nat) : Nat :=
  if k < 2 ^ 30 then k / 2 ^ 18
  else if k < 2 ^ 50 then nodeRoot (BitVec.ofNat 2 (k / 2 ^ 32))
  else if k < 2 ^ 51 then nodeRoot (s.poolPort (k - 2 ^ 50))
  else nodeHost
def keysNode (s : State) (c : CoreId) (ks : List Nat) : Nat := (ks.head?.map (keyNode s)).getD (nodeCore c)

/-- The destination device of a resolved pointer (R176). -/
def destOf (q : Word) : DestDev := if pSpc q ≤ 1 then .dev (pDev q) else if pSpc q = 2 then .pool else .host

/-- The code of an operation in an error record (R350). -/
def opCode (b : Body) (ret : Bool) : Nat :=
  match b with
  | .load ps _ => if 1 < ps.length then 12 else 1
  | .store _ _ sc => if sc then 12 else 2
  | .probe _ _ => 12
  | .amo _ _ _ _ => if ret then 3 else 5
  | .acas _ _ _ _ => 4
  | .post _ _ _ => 6
  | .ring _ _ _ _ _ _ _ => 9
  | .mb op _ _ => match op with | .inc => 7 | .set => 8 | .rd => 14
  | .start _ _ _ op => if op = 0 then 10 else op
  | .tgdone _ => 13
  | .pshare _ => 14
  | .ctx _ | .steal _ => 14
  | .bump _ _ _ => 7

/-- The pointer that names an operation's destination, resolved. -/
def bodyAddr (s : State) (b : Body) : Word :=
  match b with
  | .load ps _ | .probe ps _ => ps.headD 0
  | .store p _ _ | .amo p _ _ _ | .acas p _ _ _ | .post p _ _ | .mb _ p _ | .pshare p | .bump p _ _ => p
  | .ring _ c d obj _ _ _ => let q := Config.ringPtr obj.toNat; if pSpc q = 0 && pDev q = d && pCore q = c then q else spPtr d c 0
  | .start c d _ _ => spPtr d c 0
  | .tgdone h => dmPtr s.devId (h.extractLsb' 13 2) 0
  | .ctx m => spPtr s.devId m.dest 0
  | .steal v => spPtr s.devId v 0

/-- The pointers of an operation: of every element, or the one of its destination. -/
def bodyPtrs (s : State) (b : Body) : List Word :=
  match b with
  | .load ps _ => ps
  | b => [bodyAddr s b]

/-! ## Packets (R387, R388)

What crosses the fabric beside the state of a request: log 35. -/

/-- The endpoint behind a router: of a core, or of a die's memory and units. The host and what lies outside the package are
endpoints themselves. -/
def endOf (node : Nat) : Nat := if node < 4096 then 8192 + node else if node < 4116 then 12288 + (node - 4112) else node

/-- The identity that a packet carries (R387): tenant and mode, core and context, `WID` and `CTX.LTAG`, and the request id. -/
structure Ident where
  tenant : Tenant
  priv : Bool
  core : CoreId
  slot : SlotNo
  wid : Word
  ltag : BitVec 16
  rid : Nat
  deriving DecidableEq, Repr

/-- A packet of no context: of a host command, or of a die's units. -/
def Ident.ofCore (c : CoreId) : Ident := { tenant := 0, priv := false, core := c, slot := 0, wid := 0, ltag := 0, rid := 0 }

/-- The identity of a request. -/
def Req.ident (r : Req) : Ident :=
  { tenant := r.tenant, priv := r.priv, core := r.core, slot := r.slot, wid := r.wid, ltag := r.ltag, rid := r.id }

/-- The identity of a context of a core. -/
def State.ident (s : State) (c : CoreId) (n : SlotNo) : Ident :=
  { tenant := (s.core c).tenantOf n, priv := (s.ctx c n).priv, core := c, slot := n, wid := (s.ctx c n).a.wid, ltag := (s.ctx c n).a.ltag, rid := 0 }

/-- R387: a header flit, URG clear. -/
def headerFlit (op ndata : Nat) (w : Ident) (dev : BitVec 10) (seq : W32) (addr : Word) (opnd : BitVec 128) : BitVec 512 :=
  BitVec.ofNat 512 (op + (ndata % 8 + if w.priv then 16 else 0) * 2 ^ 8 + w.tenant.toNat * 2 ^ 16 +
    (dev.toNat + w.core.toNat * 2 ^ 10 + w.slot.toNat * 2 ^ 22) * 2 ^ 32 + seq.toNat * 2 ^ 64 + addr.toNat * 2 ^ 96 + w.wid.toNat * 2 ^ 160 +
    w.ltag.toNat * 2 ^ 224 + w.rid % 2 ^ 16 * 2 ^ 240 + opnd.toNat * 2 ^ 256)

/-- R387: flit i of a packet: the header with its URG bit, or 64 data bytes. -/
def Packet.flit (p : Packet) (i : Nat) : BitVec 512 :=
  if i = 0 then (if p.urg then p.hdr ||| BitVec.twoPow 512 11 else p.hdr) else BitVec.ofNat 512 (leBytes p.data (64 * (i - 1)) 64)

/-- R387: the link tag with which flit i crosses a link, having spent a buffer. -/
def Packet.tag (p : Packet) (i buf : Nat) : BitVec 8 :=
  BitVec.ofNat 8 (p.vc.toNat + (if buf = 4 then 4 else 0) + if i + 1 = p.flits then 8 else 0)

/-- The packets of one transfer: a header and at most four data flits each (R387). -/
def packetsOf (id vc dest : Nat) (hdr : Nat → BitVec 512) (data : List Byte) : List Packet :=
  (List.range (max 1 ((data.length + 255) / 256))).map fun i =>
    let b := (data.drop (256 * i)).take 256
    let n := (b.length + 63) / 64
    { pid := 0, id := id, vc := BitVec.ofNat 2 vc, flits := 1 + n, hdr := hdr n, data := b, inp := 0, dest := dest, urg := false, up := none, bufs := [],
      got := 1 + n, sent := 0, wait := 0 }

/-- Packets, each with a number of its own, wait at the endpoint of a router for their way into the fabric (R389). -/
def State.emit (s : State) (node : Nat) (ps : List Packet) : State :=
  let r := (kget s.routers (endOf node)).getD Router.zero
  { s with
    routers := kset s.routers (endOf node) { r with pkts := r.pkts ++ ps.mapIdx fun i p => { p with pid := s.packets + i } }
    packets := s.packets + ps.length }

/-- Packets beside those of a request, from one node to another: an operation code, the identity that they carry, a resolved pointer
and data. -/
def State.note (s : State) (node dest vc op : Nat) (w : Ident) (addr : Word) (data : List Byte) : State :=
  s.emit node (packetsOf w.rid vc dest (fun n => headerFlit op n w s.devId 0 addr 0) data)

/-- The number of a destination of R176. -/
def destCode : DestDev → Nat
  | .dev d => d.toNat
  | .pool => 1024
  | .host => 1025

/-- R176, R387: the key of a core's sequence tags toward a destination. -/
def seqKey (c : CoreId) (d : DestDev) : Nat := c.toNat * 2 ^ 11 + destCode d

/-- OPND of a request (R387): its operand words, whose places the spec leaves open. -/
def bodyOpnd : Body → BitVec 128
  | .load _ w | .probe _ w => BitVec.ofNat 128 w
  | .amo _ x _ _ | .mb _ _ x | .ring _ _ _ _ x _ _ => x.setWidth 128
  | .acas _ cmp new _ => new ++ cmp
  | .start _ _ e _ => e.w2 ++ e.w1
  | .tgdone h => h.setWidth 128
  | _ => 0

/-- The data bytes of a request, as far as it has any: the data of a store or a post, the PC and fields of a start, and the
2,048 bytes of a register context, whose form is free. -/
def bodyData (free : Nat) : Body → List Byte
  | .store _ bs _ => bs
  | .post _ ws _ => (ws.map wordBytes).flatten
  | .start _ _ e _ => ([e.pc, e.widf].map wordBytes).flatten
  | .ctx _ => (List.range 2048).map (Config.imageByte free)
  | _ => []

/-- R388: the channel of a request: one that returns a value rides as a request, every other as posted. -/
def Req.chan (r : Req) : Nat := if r.ret then 0 else 2

/-- A request of a context of a core, in the identity the context has. -/
def State.request (s : State) (c : CoreId) (n : SlotNo) (ord : Bool) (dest : DestDev) (tso ret : Bool) (body : Body) (given : Option Word) :
    Req :=
  let x := s.ctx c n
  { id := s.nextId, core := c, slot := n, occ := x.occ, tenant := (s.core c).tenantOf n, priv := x.priv, wid := x.a.wid,
    widf := x.a.widf, ltag := x.a.ltag, ord := ord, dest := dest, tso := tso, ret := ret, body := body, given := given,
    phys := [], reply := .none, cancel := false, orphan := false }

/-- The packets of a request. -/
def Req.packets (s : State) (r : Req) : List Packet :=
  packetsOf r.id r.chan (nodeOfPtr s r.core r.tenant (bodyAddr s r.body)) (fun n => headerFlit (opCode r.body r.ret) n r.ident s.devId
    (if r.ord then (kget s.seqs (seqKey r.core r.dest)).getD 0 else 0) (bodyAddr s r.body) (bodyOpnd r.body)) (bodyData s.free r.body)

/-- R143, R388: an access to SPC 3 is translated at the host die: a translation on the request channel goes before it. -/
def hostXlate (s : State) (r : Req) : State :=
  if pSpc (bodyAddr s r.body) = 3 then s.note (nodeRoot (dieOf r.core)) nodeHost 0 14 r.ident (bodyAddr s r.body) [] else s

/-- The packets of a request leave its core, with the sequence tag that is next (R176, R387). -/
def State.leaveCore (s : State) (r : Req) : State :=
  let s := { s with seqs := if r.ord then kset s.seqs (seqKey r.core r.dest) ((kget s.seqs (seqKey r.core r.dest)).getD 0 + 1) else s.seqs }
  (hostXlate s r).emit (nodeCore r.core) (r.packets s)

/-- R176: an operation of R175 would be the 65th that its core has sent to its destination and that is not yet performed. -/
def State.windowFull (s : State) (r : Req) : Bool :=
  r.ord && decide (64 ≤ s.net.countP fun e =>
    e.ord && e.reply == Reply.none && e.dest == r.dest && e.core == r.core && e.id != r.id && !s.unsent.contains e.id)

/-- Sends a request into the fabric; it is named by the id that was next (R175). One that finds no room in the reorder window waits
at its core (R176). -/
def State.send (s : State) (r : Req) : State :=
  let wait := s.windowFull r
  let s := { s with net := s.net ++ [r], nextId := s.nextId + 1, unsent := if wait then s.unsent ++ [r.id] else s.unsent }
  -- R175, R404: an `amo` or `acas` with a result is no operation of R175; a `red` is one
  let atomic := match r.body with | .amo _ _ _ _ | .acas _ _ _ _ => r.ret | _ => false
  let s := if r.ord && !atomic then s.countCtx r.core r.slot 12 else s
  if wait then s else s.leaveCore r

/-- The request of an id. -/
def State.req (s : State) (id : Nat) : Option Req := s.net.find? (·.id == id)

/-- R176: operations that wait at their cores are sent as far as there is room now. -/
def State.fillWindow (s : State) : State :=
  s.unsent.foldl (fun s id =>
    match s.req id with
    | none => { s with unsent := s.unsent.erase id }
    | some r => if s.windowFull r then s else ({ s with unsent := s.unsent.erase id } : State).leaveCore r) s

/-- Changes a request. -/
def State.modReq (s : State) (id : Nat) (f : Req → Req) : State :=
  { s with net := s.net.map fun r => if r.id = id then f r else r }

/-- R285, R388: the issuing core asks a request back: one cancel on the request channel. -/
def State.sendCancel (s : State) (id : Nat) (orphan : Bool) : State :=
  match s.req id with
  | some r =>
    let t := s.modReq id fun r => { r with cancel := true, orphan := r.orphan || orphan }
    if r.cancel then t
    else t.note (nodeCore r.core) (nodeOfPtr s r.core r.tenant (bodyAddr s r.body)) 0 14 r.ident (bodyAddr s r.body) []
  | none => s

/-- Removes a request. -/
def State.dropReq (s : State) (id : Nat) : State := { s with net := s.net.filter (·.id != id) }

/-- Draws a free value number. -/
def State.draw (s : State) : State := { s with free := s.free + 1 }

/-! ## Scoreboard and long operations -/

/-- Sets or clears the scoreboard bit of a destination in a register set. -/
def Arch.setBusy (a : Arch) (d : Dst) (b : Bool) : Arch :=
  match d with
  | .g n => { a with sg := if b then a.sg ||| BitVec.twoPow 64 n.toNat else a.sg &&& ~~~ BitVec.twoPow 64 n.toNat }
  | .v n => { a with sv := if b then a.sv ||| BitVec.twoPow 16 n.toNat else a.sv &&& ~~~ BitVec.twoPow 16 n.toNat }
  | .p n => { a with sp := if b then a.sp ||| BitVec.twoPow 8 n.toNat else a.sp &&& ~~~ BitVec.twoPow 8 n.toNat }
  | _ => a

/-- Sets or clears a bit of the shadow bank's scoreboard (R99). -/
def busyH (sh : BitVec 16) (d : Dst) (b : Bool) : BitVec 16 :=
  match d with
  | .h n => if b then sh ||| BitVec.twoPow 16 n.toNat else sh &&& ~~~ BitVec.twoPow 16 n.toNat
  | _ => sh

/-- Cancelled operations that came to a slot with an arrived context (R190). -/
def Core.tookOf (k : Core) (n : SlotNo) : Nat := ((k.took.filter fun p => p.1 == n).map fun p => p.2.length).sum

/-- Operations outstanding that count for a slot (R97, R170, R190). -/
def Core.longOf (k : Core) (n : SlotNo) : Nat := (k.ctx n).long.length + k.tookOf n

/-- Operations outstanding in the core (R97). -/
def Core.longAll (k : Core) : Nat := (allSlots.map k.longOf).sum + k.stray.length

/-- R97: `m` more long operations of the issuing context are within its limits. -/
def State.roomFor (s : State) (m : Nat) : Bool := s.mine.longOf s.iss.slot + m ≤ 16 && s.mine.longAll + m ≤ 64

/-- R97: one more long operation of the issuing context is within its limits. -/
def State.canLong (s : State) : Bool := s.mine.longOf s.iss.slot < 16 && s.mine.longAll < 64

/-- The long operations of the issuing context that were outstanding before its bundle. A long A word of the bundle is none of
them (DESIGN CHOICE, log 80). -/
def State.oldLong (s : State) : List LongOp := s.me.long.filter (·.id < s.iss.first)

/-- Issues a long operation: its destination's bit is set and the count rises (R93). -/
def State.addLong (s : State) (l : LongOp) : State :=
  (s.modMe fun x => { x with long := x.long ++ [l], a := x.a.setBusy l.dst true }).modMine
    fun k => { k with sh := busyH k.sh l.dst true }

/-- A long operation of the issuing context with no particulars. -/
def State.newLong (s : State) (id : Nat) (dst : Dst) (conv : Conv) : LongOp :=
  { id := id, dst := dst, conv := conv, inChunk := s.me.chunk.isSome, near := false, cancelled := false, val := none, due := none,
    flags := 0, own := [], byHandler := s.mine.holds s.iss.slot, pc := s.iss.pc, bundle := s.iss.bundle, body := none,
    ord := false, given := none, scat := [], pos := (s.me.chunk.map (·.n)).getD 0 }

/-- A fresh operation id. -/
def State.freshId (s : State) : State := { s with nextId := s.nextId + 1 }

/-- The near loads and `vscat`s of the open chunk that hold back its commit (R166). -/
def Ctx.nearOut (x : Ctx) : Bool := x.long.any fun l => l.near && l.inChunk && !l.cancelled

/-! ## Chunks -/

/-- A chunk that opens with the registers as they stand (R161). -/
def freshChunk (a : Arch) (h : Vector Word 16) (sh : BitVec 16) : Chunk :=
  { snap := a, snapH := h, snapSh := sh, rsig := [], wsig := [], buf := [], n := 0, ending := false, trap := none, viol := false }

/-- Opens a chunk if none is open (R161, R173). -/
def State.openChunk (s : State) (c : CoreId) (n : SlotNo) : State :=
  let k := s.core c
  s.modCtx c n fun x => { x with chunk := some (x.chunk.getD (freshChunk x.a k.h k.sh)) }

/-- Changes the open chunk of the issuing context. -/
def State.modChunk (s : State) (f : Chunk → Chunk) : State := s.modMe fun x => { x with chunk := x.chunk.map f }

/-- Two sets of lines intersect as signatures do (R162). -/
def sigMeet (xs ys : List Nat) : Bool := xs.any fun l => ys.any fun k => l == k || Config.sigCollide l k

/-- The chunk's read or write signature meets the lines. -/
def Chunk.meets (ch : Chunk) (lines : List Nat) : Bool := sigMeet lines (ch.rsig ++ ch.wsig)

/-- R171: a free token goes to the earliest request. -/
def grantToken (s : State) (d : BitVec 2) : State :=
  let x := s.die d
  match x.token, x.tokenq with
  | none, (c, n) :: t =>
    let s := s.modDie d fun x => { x with token := some (c, n), tokenq := t }
    (s.countCtx c n 9).countDie d 2
  | _, _ => s

/-- R171: the context requests the token, unless it holds or has requested it. -/
def requestToken (s : State) (c : CoreId) (n : SlotNo) : State :=
  let s := s.modDie (dieOf c) fun d =>
    if d.token == some (c, n) || d.tokenq.contains (c, n) then d else { d with tokenq := d.tokenq ++ [(c, n)] }
  grantToken s (dieOf c)

/-- R171: the holder releases the token, or withdraws its request, and the next request is granted. -/
def releaseToken (s : State) (c : CoreId) (n : SlotNo) : State :=
  let s := s.modDie (dieOf c) fun d =>
    { d with token := if d.token == some (c, n) then none else d.token, tokenq := d.tokenq.filter (· != (c, n)) }
  grantToken s (dieOf c)

/-- R170: squashes the open chunk of a context, if one is open. -/
def squash (s : State) (c : CoreId) (n : SlotNo) : State :=
  let k := s.core c
  let x := k.ctx n
  match x.chunk with
  | none => s
  | some ch =>
    let x' := k.afterSquash n { x with
      a := ch.snap, chunk := none, wait := none, compl := none, squashes := x.squashes + 1,
      long := x.long.map fun l => if l.inChunk then { l with cancelled := true, inChunk := false, dst := .none } else l }
    let k' := (k.setCtx n x')
    let k' := if k.holds n then { k' with h := ch.snapH, sh := ch.snapSh } else k'
    let s := (s.setCore c k').countCtx c n 8
    let s := s.countDie (dieOf c) 1
    -- R171: squashed twice with no commit between: request the serial token
    if 2 ≤ x.squashes + 1 then requestToken s c n else s

/-- The chunk of the die's token holder, when it is another context than the one given (R171). -/
def State.tokenChunk (s : State) (d : BitVec 2) (me : Option (CoreId × SlotNo)) : Option Chunk :=
  match (s.die d).token with
  | some (c, n) => if me == some (c, n) then none else (s.ctx c n).chunk
  | none => none

/-- A write of R169 or a registration of R185 on these lines waits for the token holder (R171). -/
def State.tokenHolds (s : State) (d : BitVec 2) (rlines wlines : List Nat) : Bool :=
  match s.tokenChunk d none with
  | some ch => sigMeet rlines ch.wsig || ch.meets wlines
  | none => false

/-- Squashes every other chunk of the die that meets the lines (R168, R169). -/
def squashMeeting (s : State) (d : BitVec 2) (except_ : Option (CoreId × SlotNo)) (lines : List Nat) : State :=
  if lines.isEmpty then s else
  (s.coresOfDie d).foldl (fun s c => allSlots.foldl (fun s n =>
    if except_ == some (c, n) then s
    else match (s.ctx c n).chunk with
      | some ch => if ch.meets lines then squash s c n else s
      | none => s) s) s

/-- The die a key belongs to, for the writes of R169. -/
def dieOfKey (k : Nat) : BitVec 2 :=
  if k < 2 ^ 30 then BitVec.ofNat 2 (k / 2 ^ 28) else BitVec.ofNat 2 (k / 2 ^ 32)

/-- A write to a near location of a die that squashes as R169 gives. -/
def writeSquash (s : State) (k : Nat) (bs : List Byte) : State :=
  if bs.isEmpty then s else
  let s := { s with mem := memWrite s.mem k bs }
  squashMeeting s (dieOfKey k) none (linesOf ((List.range bs.length).map (k + ·)))

/-- The far stores of a chunk enter the fabric in program order (R167, R175). -/
def sendStores (s : State) (c : CoreId) (n : SlotNo) (rs : List StoreRec) : State :=
  rs.foldl (fun s r =>
    s.send { s.request c n true (destOf r.ptr) r.tso false (.store r.ptr r.bytes r.sc) (some r.given) with phys := r.phys }) s

/-! ## Ending a context (R349) -/

/-- A push or a pull that waits at a stream of the die. -/
def isCbWait : Instr → Bool
  | .cbPush _ _ _ | .cbPull _ _ _ => true
  | _ => false

/-- A wait leaves where it waits: its request at another core is asked to be withdrawn, and nobody waits for its answer (R285); a push
or a pull leaves its stream (R433). -/
def cancelWait (s : State) (c : CoreId) (n : SlotNo) : State :=
  match (s.ctx c n).wait with
  | none => s
  | some w =>
    let s := if isCbWait w.i then
        s.modDie (dieOf c) fun d => { d with streams := d.streams.map fun x => { x with waiters := x.waiters.filter (· != (c, n)) } }
      else s
    match w.req with
    | some id => s.sendCancel id true
    | none => s

/-- Discards the open chunk and the wait, and cancels the long operations of a context; a token it holds is released. -/
def dropWork (s : State) (c : CoreId) (n : SlotNo) : State :=
  let s := squash (cancelWait s c n) c n
  let s := releaseToken s c n
  s.modCore c fun k =>
    let x := k.ctx n
    let gone := x.long.map (·.id) ++ ((k.took.filter fun p => p.1 == n).map (·.2)).flatten
    { (k.setCtx n { x with long := [], replay := [], dfault := none, tpend := [], kmiss := none, upc := none, wait := none }) with
      stray := k.stray ++ gone, took := k.took.filter fun p => p.1 != n }

/-- R349: a helper is ended by a remote error or by `eret` with KILL. Its held constraints and its open
invocation are closed by their own rules. It issues nothing more, and its slot keeps its state until it is VACANT at the
next boundary (R52). DESIGN CHOICE (log 84): its PEND bit clears, and an upcall of it that has not been delivered never is. -/
def endContext (s : State) (c : CoreId) (n : SlotNo) : State :=
  let s := dropWork s c n
  s.modCore c fun k =>
    let k := k.dropBank n
    { (k.setCtx n { k.ctx n with ended := true, wait := none, compl := none }) with
      r := { k.r with upcPend := k.r.upcPend.filter (· != n) } }

/-! ## Error records (R348-R351) -/

/-- What an error record says of the failed operation (R350). -/
structure ErrOp where
  kind : Nat
  fw : BitVec 5
  op : Nat
  ptr : Word
  wid : Word
  ltag : BitVec 16
  slot : SlotNo
  xid : W32
  deriving DecidableEq, Repr

/-- Changes the live launch of a tag (R367, R370). -/
def State.modLaunch (s : State) (tag : BitVec 16) (f : Launch → Launch) : State :=
  if tag = 0 then s
  else s.modDie (tag.extractLsb' 14 2) fun d =>
    { d with tgu := { d.tgu with launches := d.tgu.launches.map fun l => if l.tag == tag then f l else l } }

/-- The slot number that stands for no context, whose records carry a free context number (R365, R370). -/
def noSlot : SlotNo := 15

/-- Dword 0 of a record. -/
def errWord (s : State) (e : ErrOp) (ended lost : Bool) : Word :=
  BitVec.ofNat 64 (0x0F + e.kind % 256 * 2 ^ 8 + e.fw.toNat * 2 ^ 16 + e.op % 256 * 2 ^ 24 + e.ltag.toNat * 2 ^ 32 +
    (if e.slot = noSlot then Config.noContext else e.slot).toNat * 2 ^ 48 + (if ended then 2 ^ 52 else 0) + (if lost then 2 ^ 53 else 0) + s.devId.toNat * 2 ^ 54)

/-- R350, R351: the issuing core composes a record; a die holds 256, and drops and counts what exceeds
them. A lost operation is counted in its launch (R255). -/
def composeError (s : State) (c : CoreId) (e : ErrOp) (ended lost : Bool) : State :=
  let d := s.die (dieOf c)
  let w0 := errWord s e ended lost
  let s := if lost then s.modLaunch e.ltag fun l => { l with lost := l.lost + 1 } else s
  let rec8 : Vector Word 8 := Vector.ofFn fun i => match i.val with
    | 0 => w0
    | 1 => e.wid
    | 2 => e.ptr
    | 3 => e.xid ++ (0 : BitVec 20) ++ c
    | 4 => (s.core c).rot.setWidth 64
    | 5 => d.recSeq ++ d.dropped
    | _ => 0
  let s := s.modDie (dieOf c) fun d =>
    if d.records.length < 256 then { d with records := d.records ++ [rec8], recSeq := d.recSeq + 1 }
    else { d with dropped := d.dropped + 1, recSeq := d.recSeq + 1 }
  -- R388, R393: a record that is held goes to the host on the posted channel
  let w : Ident := { s.ident c e.slot with slot := if e.slot = noSlot then Config.noContext else e.slot, wid := e.wid, ltag := e.ltag }
  let s := if d.records.length < 256 then
    s.note (nodeRoot (dieOf c)) nodeHost 2 14 w (resolve s.devId c e.ptr) (rec8.toList.map wordBytes).flatten else s
  s.offerIf c 3 [headRec 4 1 c e.slot.toNat (if e.slot = noSlot then 0 else e.ltag.toNat) (if e.slot = noSlot then 0 else e.wid.toNat)
    (s.core c).rot.toNat 6, extRec w0 0]

/-- R349, R254: a remote error charged to the occupant of a slot. A live helper is ended; the control context
takes REMOTE before its next bundle; an occupant that is gone has lost an operation. -/
def chargeError (s : State) (c : CoreId) (occ : Nat) (e : ErrOp) : State :=
  let x := s.ctx c e.slot
  if x.st == .vacant || x.occ != occ || x.ended || x.retiring then composeError s c e false true
  else if e.slot = 0 then
    let w0 := errWord s e false false
    let s := composeError s c e false false
    s.modCtx c 0 fun x => if x.tpend.any (·.cause == cREMOTE) then x
      else { x with tpend := x.tpend ++ [{ cause := cREMOTE, info0 := e.ptr, info1 := w0, pc := x.a.pc, fpc := x.a.pc, aux := 0,
                                           aux2 := 0, wonly := false, dfr := false }] }
  else
    let s := composeError s c e true false
    let s := s.modLaunch e.ltag fun l => { l with errors := l.errors + 1 }
    endContext s c e.slot

/-- The violation of a region by the true path of a context (R416, R418, R419): the region goes to
INELIGIBLE and drops its samples. -/
def violate (s : State) (c : CoreId) (n : SlotNo) : State :=
  let x := s.ctx c n
  let t := (s.core c).tenantOf n
  let e := s.engine x.inv.eng
  match e.regions.findIdx? fun r => match r with | some r => r.tenant == t && r.obj == x.inv.obj | none => false with
  | none => s
  | some i =>
    match e.regions.getD i none with
    | none => s
    | some r =>
      if r.st = 0 || r.st = 9 then s
      else
        let s := s.setEngine x.inv.eng { e with regions := e.regions.set i (some { r with st := 7, held := [] }) }
        if r.st = 7 then s
        else s.traceEvent c n 4 (r.st + 16 * 7) [extRec (BitVec.ofNat 64 (x.inv.obj.toNat + i * 2 ^ 16 + x.inv.eng.toNat * 2 ^ 20)) 0]

/-- The context is on a true path: IST TRUE or ABANDONED, user mode, no shadow bank (R416). -/
def State.onTruePath (s : State) (c : CoreId) (n : SlotNo) : Bool :=
  let x := s.ctx c n
  (x.inv.ist == 2 || x.inv.ist == 4) && !x.priv && !(s.core c).holds n

/-- A context whose chunk has committed: no chunk open, no squash counted, its marks cleared. -/
def Ctx.committed (x : Ctx) : Ctx :=
  { x with
    chunk := none, squashes := 0, dfault := none, a := { x.a with wonly := false },
    long := x.long.map fun l => { l with inChunk := false, near := false } }

/-- R168, R171: the chunk of the token holder refuses the commit of a chunk that writes a line of its own. -/
def commitRefused (s : State) (c : CoreId) (n : SlotNo) (ch : Chunk) : Bool :=
  match s.tokenChunk (dieOf c) (some (c, n)) with
  | some t => t.meets ch.wsig
  | none => false

/-- R141, R254: the protection unit of the core whose scratchpad a near store names admits it. -/
def nearAllowed (s : State) (c : CoreId) (n : SlotNo) (r : StoreRec) : Bool :=
  pSpc r.ptr != 0 || pCore r.ptr == c ||
    protOk (s.core (pCore r.ptr)) ((s.core c).tenantOf n) (s.ctx c n).priv (pOff r.ptr) r.bytes.length 1

/-- The key of a scratchpad's first byte: its copy in the save area while the core is SAVED, and until that copy has been read
back (R354). -/
def spBase (s : State) (c : CoreId) : Nat :=
  let k := s.core c
  if k.pre == .saved || k.pre == .restoring then dmKey (dieOf c) (k.saveArea + 0x30000) else spKey c 0

/-- R354: where a near store to a key is performed: a byte of a SAVED core's scratchpad, on its copy. -/
def nearKey (s : State) (k : Nat) : Nat :=
  if k < 2 ^ 30 then spBase s (BitVec.ofNat 12 (k / 2 ^ 18)) + k % 2 ^ 18 else k

/-- The bytes that the near stores of a buffer write, in order. -/
def nearCells (s : State) (c : CoreId) (n : SlotNo) (ch : Chunk) : List (Nat × Byte) :=
  ((ch.buf.filter fun r => r.near && nearAllowed s c n r).map fun r => (r.keys.map (nearKey s)).zip r.bytes).flatten

/-- R236, R405: the near stores to S pages, whose bytes lie in atomizer frames, are operations of the die's atomizer. -/
def countStores (s : State) (d : BitVec 2) (rs : List StoreRec) : State :=
  (rs.filter fun r => r.keys.head?.any fun k => decide (2 ^ 41 ≤ k) && decide (k < 2 ^ 50)).foldl (fun s _ => s.countDie d 4) s

/-- R167: a commit that is not refused: the near stores are performed in order, the context keeps its registers, the
token is released, the far stores enter the fabric, and the chunks that the writes meet are squashed. -/
def performChunk (s : State) (c : CoreId) (n : SlotNo) (ch : Chunk) : State :=
  let x := s.ctx c n
  let refused := ch.buf.filter fun r => r.near && !nearAllowed s c n r
  let s := { s with mem := memSetAll s.mem (nearCells s c n ch) }
  let s := s.modCtx c n Ctx.committed
  let s := releaseToken s c n
  let s := sendStores s c n (ch.buf.filter fun r => !r.near)
  let s := squashMeeting s (dieOf c) (some (c, n)) ch.wsig
  let s := (s.countCtx c n 7).countDie (dieOf c) 0
  let s := countStores s (dieOf c) (ch.buf.filter fun r => r.near && nearAllowed s c n r)
  let s := if ch.viol then violate s c n else s
  -- R254: a store that another core's protection unit refuses is not performed
  refused.foldl (fun s r => chargeError s c x.occ
    { kind := 1, fw := 0, op := if r.sc then 12 else 2, ptr := r.given, wid := x.a.wid, ltag := x.a.ltag, slot := n, xid := 0 }) s

/-- R167, R168, R171: commits the chunk of a context; false when the token holder's chunk refuses it,
and then the chunk is squashed. With no chunk open there is nothing to commit. -/
def commitChunk (s : State) (c : CoreId) (n : SlotNo) : State × Bool :=
  match (s.ctx c n).chunk with
  | none => (s, true)
  | some ch => if commitRefused s c n ch then (squash s c n, false) else (performChunk s c n ch, true)

/-! ## Taking a trap -/

/-- The core stops as `halt` stops it (R231, R340, R342): at the first rotation boundary with no long
operation of the core outstanding, and then the host is notified. -/
def stopCore (s : State) (c : CoreId) : State :=
  s.modCore c fun k => { k with halting := true }

/-- BUSY of TRAP.CAUSE, and the context it names (R341). -/
def Core.busyBit (k : Core) : Bool := k.r.trapCause.getLsbD 63
def Core.busyCtx (k : Core) : SlotNo := k.r.trapCause.extractLsb' 8 4

/-- The register that number 56 + i names in a context (R340). -/
def Core.named56 (k : Core) (n : SlotNo) (i : Nat) : Word :=
  if k.holds n then vget k.h (8 + i) 0 else vget (k.ctx n).a.g (56 + i) 0

/-- NREP (R341, R345): the count of the replay set, which 4 bits hold up to 15; the value for 16 is free. -/
def nrepField (n : Nat) : BitVec 4 := if n < 16 then BitVec.ofNat 4 n else Config.nrepFull

/-- R340: the key of a core's trap save block, in the memory of its die. -/
def Core.trapBlock (k : Core) (c : CoreId) : Nat := dmKey (dieOf c) (k.trapArea.getD (2 ^ 16 * Config.firstArea c.toNat))

/-- A register in the trap save block of a core. -/
def State.savedReg (s : State) (c : CoreId) (i : Nat) : Word := BitVec.ofNat 64 (memNat s.mem ((s.core c).trapBlock c + 8 * i) 8)

/-- The TRAP.CAUSE word of a trap (R341). -/
def causeWord (p : Pend) (n : SlotNo) (priv : Bool) (nrep : Nat) : Word :=
  BitVec.ofNat 64 (p.cause.toNat + n.toNat * 2 ^ 8 + (if priv then 2 ^ 12 else 0) + (if p.dfr then 2 ^ 13 else 0) +
    (if p.wonly then 2 ^ 14 else 0) + (nrepField nrep).toNat * 2 ^ 16 + 2 ^ 63)

/-- A trap or upcall taken on the true path abandons the invocation (R416). -/
def Inv.abandon (v : Inv) : Inv := if v.ist == 2 then { v with ist := 4 } else v

/-- EVENT 1 and counter 14 of a trap or upcall taken (R404, R446). -/
def State.traceTrap (s : State) (c : CoreId) (n : SlotNo) (p : Pend) : State :=
  (s.countCtx c n 14).traceEvent c n 1 p.cause.toNat [extRec p.pc 0, extRec (if p.cause = cKMISS then 0 else p.info0) 0]

/-- The traps that still wait once p is taken. -/
def Ctx.without (x : Ctx) (p : Pend) : List Pend := x.tpend.erase p

/-- R340, R342: a privileged trap of a context. While BUSY names another context it waits; raised by the
context that BUSY names it stops the core. -/
def enterPriv (s : State) (c : CoreId) (n : SlotNo) (p : Pend) : State :=
  let k := s.core c
  if k.busyBit then
    if k.busyCtx = n then stopCore (s.modCtx c n fun x => { x with tpend := x.without p }) c
    else s.modCtx c n fun x => { x with tpend := if x.tpend.contains p then x.tpend else x.tpend ++ [p] }
  else
    let x := k.ctx n
    let s := s.traceTrap c n p
    let s := { s with mem := memWrite s.mem (k.trapBlock c) ((List.range 8).map fun i => wordBytes (k.named56 n i)).flatten }
    let s := s.modCore c fun k =>
      let r := { k.r with trapCause := causeWord p n x.priv x.replay.length, trapPc := p.pc, trapInfo0 := p.info0, trapInfo1 := p.info1,
                             trapMark := some p.pc }
      let k := { k with r := r }
      k.setCtx n { k.ctx n with
        priv := true, st := k.liveState n, wait := none, replaying := false, tpend := Ctx.without (k.ctx n) p, inv := (k.ctx n).inv.abandon,
        a := { (k.ctx n).a with pc := k.r.trapVec, wonly := false } }
    if fetchOkAt s c k.r.trapVec then s else stopCore s c

/-- R345 step 1: a helper enters UPCALL, or HUPCALL when it holds the bank; its record follows. -/
def enterUpcall (s : State) (c : CoreId) (n : SlotNo) (p : Pend) : State :=
  let s := s.traceTrap c n p
  s.modCore c fun k => k.setCtx n { k.ctx n with
    st := if k.holds n then .hupcall else .upcall, upc := some (p, k.rot), recorded := false, wait := none, replaying := false,
    tpend := Ctx.without (k.ctx n) p,
    inv := (k.ctx n).inv.abandon, a := { (k.ctx n).a with pc := p.pc, wonly := p.wonly } }

/-- R275: a context takes the free shadow bank for its key miss. -/
def takeBank (s : State) (c : CoreId) (n : SlotNo) (p : Pend) : State :=
  s.modCore c fun k =>
    let h := vset (vset (vset (vset k.h 0 p.info0) 1 p.pc) 2 p.aux) 3 p.aux2
    let k := { k with holder := some n, sh := 0, h := h, bankq := k.bankq.filter (· != n) }
    k.setCtx n { k.ctx n with st := .handler, kmiss := none, wait := none, inv := (k.ctx n).inv.abandon,
                              a := { (k.ctx n).a with pc := k.r.kmHandler, wonly := false } }

/-- R275: the bank is taken, or the context joins BANKWAIT (R52). -/
def enterHandler (s : State) (c : CoreId) (n : SlotNo) (p : Pend) : State :=
  let s := s.traceTrap c n p
  if (s.core c).holder.isNone && (s.core c).bankq.isEmpty then takeBank s c n p
  else
    s.modCore c fun k =>
      let k' := k.setCtx n { k.ctx n with st := .bankwait, kmiss := some p, inv := (k.ctx n).inv.abandon }
      { k' with bankq := k.bankq ++ [n] }

/-- R456: the context becomes FROZEN at its bundle. -/
def freezeCtx (s : State) (c : CoreId) (n : SlotNo) : State :=
  s.modCtx c n fun x => if x.st == .frozen || x.st == .vacant then x
    else { x with st := .frozen, held := x.st }

/-- The cores of a cluster. -/
def coresOf (cl : BitVec 8) : List CoreId := (List.range 16).map fun i => (cl ++ BitVec.ofNat 4 i : BitVec 12)

/-- A cluster freeze reaches the 16 cores of a cluster; one already under way changes nothing (R457). The skid of a context
counts from this cycle, or, of a filter's freeze, from the bundles that `mark` says it had issued (R454). -/
def broadcastFreeze (s : State) (cl : BitVec 8) (cause : Nat) (mark : List Nat) : State :=
  let ids := coresOf cl
  if ids.any fun c => (s.core c).frozen || (s.core c).freezing.isSome then s
  else ids.foldl (fun s c => s.modCore c fun k =>
    { k with freezing := some cause, freezeAt := s.now, ctxs := Vector.ofFn fun i =>
        let x := vget k.ctxs i.val Ctx.zero
        { x with skid := x.bundles - mark.getD (markAt c i.val) x.bundles } }) s

/-- The causes whose receiver is the control context when the helper is in user mode and EN = 1 (R336). -/
def upcallClass (c : BitVec 8) : Bool :=
  c == cHAZARD || c == cADDR || c == cFORMAT || c == cOBJ || c == cLOCKED || c == cWAITX || c == cPINOVF ||
  c == cPAGE || c == cBRK || c == cSOFT

/-- The trap goes to privileged software (R336). -/
def goesPriv (k : Core) (n : SlotNo) (cause : BitVec 8) : Bool :=
  cause != cKMISS && cause != 0 &&
  !(n != 0 && !(k.ctx n).priv && k.r.upcEn && upcallClass cause)

/-- Takes a trap of a context whose chunk has committed: by its receiver (R336). Cause 0 freezes. -/
def deliver (s : State) (c : CoreId) (n : SlotNo) (p : Pend) : State :=
  let s :=
    if p.cause = cWATCH || p.cause = 0 || (p.cause = cBRK && p.info0 = 1) then
      let e := some (decide (p.cause = cWATCH) || decide (p.cause = 0) && decide (p.info0 = 1), p.aux.toNat)
      s.modCtx c n fun x => if p.cause = 0 then { x with frozeBy := e } else { x with stopBy := e, skipStop := false }
    else s
  if p.cause = 0 then freezeCtx s c n
  else if p.cause = cKMISS then enterHandler s c n p
  else if goesPriv (s.core c) n p.cause then enterPriv s c n p
  else enterUpcall s c n p

/-- R342: a trap of a context waits while BUSY names another context. -/
def heldByBusy (s : State) (c : CoreId) (n : SlotNo) (cause : BitVec 8) : Bool :=
  goesPriv (s.core c) n cause && (s.core c).busyBit && (s.core c).busyCtx != n

/-- R456, R457: a hit with ACTION 2 freezes the cluster from its cycle on. -/
def hitFreeze (s : State) (c : CoreId) (p : Pend) : State :=
  if p.cause = 0 && p.info1 = 2 then broadcastFreeze s (clusterOf c) p.info0.toNat [] else s

/-- R337, R164: a trap at a bundle of the issuing context. The chunk ends before the bundle and commits,
and then the trap is taken; while near loads are outstanding the chunk is ENDING (R166, R173). DESIGN CHOICE (log 85): the chunk whose
first bundle traps holds no bundle; it is dropped without a commit, and a token, the count of squashes and event 7 stay as they are. -/
def raiseAs (s : State) (f : Fate) (p : Pend) : State :=
  let c := s.iss.core; let n := s.iss.slot
  if heldByBusy s c n p.cause then { s with iss := { s.iss with fate := .stalled } }
  else
    let s := { s with iss := { s.iss with fate := f } }
    let s := hitFreeze (if p.cause = cLOCKED then s.countCtx c n 17 else s) c p
    match s.me.chunk with
    | none => deliver s c n p
    | some ch =>
      if ch.n = 0 then deliver (s.modMe fun x => { x with chunk := none, dfault := none }) c n p
      else if s.me.nearOut then s.modChunk fun ch => { ch with ending := true, trap := some p }
      else
        let r := commitChunk s c n
        if r.2 then deliver r.1 c n p else r.1

/-- A trap pending at the bundle being executed. -/
def State.pendAt (s : State) (t : Trap) : Pend :=
  { cause := t.cause, info0 := t.i0, info1 := t.i1, pc := s.iss.pc, fpc := s.iss.pc, aux := t.aux, aux2 := t.aux2,
    wonly := s.me.a.wonly, dfr := false }

/-- A trap at the bundle being executed. A watchpoint hit, WATCH or a freeze, stands behind the other
word's traps and offers its DEBUG record (R456): `aux` and `aux2` are its entry and access kind. -/
def raise (s : State) (t : Trap) : State :=
  if t = heldRead then { s with iss := { s.iss with fate := .stalled } }
  else if t.cause = cWATCH || t.cause = 0 then
    if heldByBusy s s.iss.core s.iss.slot t.cause then { s with iss := { s.iss with fate := .stalled } }
    else raiseAs (s.traceDebug s.iss.core s.iss.slot 0 1 t.aux.toNat t.aux2.toNat) .watched (s.pendAt t)
  else raiseAs s .trapped (s.pendAt t)

/-- The bundle does not issue: the context retries it in a later turn. -/
def holdTurn (s : State) : State := { s with iss := { s.iss with fate := .held } }

/-- The bundle is held back by R97, and event 20 counts it. DESIGN CHOICE (log 85): it counts once in each turn in which it is held; a
bundle that another rule holds, be it "as under R97" (R99, R166, R342, R378, R380, R425), is not counted. -/
def hold97 (s : State) : State := (holdTurn s).countCtx s.iss.core s.iss.slot 20

/-! ## Long results -/

/-- The value of a register from a reply's bytes (R237, R239, R241, R244). -/
def convVal (cv : Conv) (bs : List Byte) (w : Word) : Nat :=
  match cv with
  | .word | .surr => w.toNat
  | .sx n => patOf 64 (toSigned (8 * n) (leBytes bs 0 n))
  | .zx n => leBytes bs 0 n
  | .vec => leBytes bs 0 64
  | .vform f l n t => Id.run (vformVal f l n t bs)
  | .lanes t => leBytes bs 0 (16 * (if t.toNat = 0 || t.toNat = 3 then 4 else if t.toNat ≤ 4 then 2 else 1))
where
  /-- R241: elements decoded and rounded to the lane type under RNE. -/
  vformVal (f l n : Nat) (t : BitVec 3) (bs : List Byte) : Nat :=
    let w := if t.toNat = 0 || t.toNat = 3 then 32 else if t.toNat ≤ 4 then 16 else 8
    let lane := fun k =>
      let x := decodeAt f l bs k
      match t.toNat with
      | 0 => (roundFloat 3 0 false x).code
      | 1 => (roundFloat 1 0 false x).code
      | 2 => (roundFloat 2 0 false x).code
      | 6 => patOf w (roundRange 0 255 0 x).val
      | _ => patOf w (roundRange (-(2 ^ (w - 1) : Nat)) ((2 ^ (w - 1) : Nat) - 1) 0 x).val
    ((List.range n).map fun k => lane k * 2 ^ (w * k)).sum

/-- The bytes of a reply with the context's own buffered bytes in their places (R163). -/
def overlay (own : List (Option Byte)) (bs : List Byte) : List Byte :=
  bs.mapIdx fun i b => (own.getD i none).getD b

/-- Writes a long result into a register set. -/
def Arch.put (a : Arch) (d : Dst) (v : Nat) : Arch :=
  match d with
  | .g n => a.wrG n.toNat (BitVec.ofNat 64 v)
  | .v n => a.wrV n.toNat (BitVec.ofNat 512 v)
  | .p n => a.wrP n.toNat (BitVec.ofNat 64 v)
  | _ => a

/-- The register set once a result has returned: written, its bit cleared, flags ORed (R93, R132). -/
def Arch.returned (a : Arch) (d : Dst) (v : Option Nat) (f : BitVec 6) : Arch :=
  let a := match v with | some v => a.put d v | none => a
  { (a.setBusy d false) with fpf := a.fpf ||| f }

/-- PARKED and HPARKED end when the last outstanding operation has returned (R52, R95). -/
def Core.unpark (k : Core) (n : SlotNo) : Core :=
  let x := k.ctx n
  if k.longOf n = 0 then
    match x.st with
    | .parked => k.setCtx n { x with st := .ready }
    | .hparked => k.setCtx n { x with st := .handler }
    | .frozen => k.setCtx n { x with held := match x.held with | .parked => .ready | .hparked => .handler | st => st }
    | _ => k
  else k

/-- The operation returns: the register is written, its bit cleared and the count falls. An operation
issued before the open chunk opened is written into that chunk's snapshot as well (R132, R170). -/
def finishLong (s : State) (c : CoreId) (n : SlotNo) (l : LongOp) (v : Option Nat) (f : BitVec 6) : State :=
  s.modCore c fun k =>
    let x := k.ctx n
    let ch := x.chunk.map fun ch =>
      let ch := if l.inChunk then ch else { ch with snap := ch.snap.returned l.dst v f }
      match l.dst, v with
      | .h r, some v => if l.inChunk then ch else
          { ch with snapH := vset ch.snapH r.toNat (BitVec.ofNat 64 v), snapSh := busyH ch.snapSh l.dst false }
      | .h _, none => if l.inChunk then ch else { ch with snapSh := busyH ch.snapSh l.dst false }
      | _, _ => ch
    let x := { x with a := x.a.returned l.dst v f, chunk := ch.map fun ch => { ch with buf := ch.buf ++ l.scat },
                      long := x.long.filter (·.id != l.id) }
    let k := { k with sh := busyH k.sh l.dst false,
                      h := match l.dst, v with | .h r, some v => vset k.h r.toNat (BitVec.ofNat 64 v) | _, _ => k.h }
    (k.setCtx n x).unpark n

/-- A cancelled operation arrives: it is discarded and no longer counts (R170). -/
def discardLong (s : State) (c : CoreId) (n : SlotNo) (id : Nat) : State :=
  s.modCore c fun k =>
    let x := k.ctx n
    let took : List (SlotNo × List Nat) := k.took.map fun p => (p.1, p.2.filter (· != id))
    let k := k.setCtx n { x with long := x.long.filter (·.id != id) }
    Core.unpark { k with stray := k.stray.filter (· != id), took := took } n

/-- R339: the replay set with one more operation, in the order of issue. -/
def insReplay (ls : List LongOp) (l : LongOp) : List LongOp := ls.takeWhile (·.id < l.id) ++ l :: ls.dropWhile (·.id < l.id)

/-- R339: replays of a context that have not been performed when one of them faults stay in the set, to be issued again. -/
def keepReplays (s : State) (c : CoreId) (n : SlotNo) (id : Nat) : State :=
  let x := s.ctx c n
  if !x.replayIds.contains id then s
  else
    let kept := x.long.filter fun m =>
      m.id != id && x.replayIds.contains m.id && (s.net.any fun r => r.id == m.id && r.reply == .none)
    let s := s.modCtx c n fun x => { x with
      replay := kept.foldl insReplay x.replay, long := x.long.filter fun m => !kept.any fun k => k.id == m.id }
    ({ s with net := s.net.filter fun r => !kept.any fun k => k.id == r.id } : State).fillWindow

/-- R338: a fault reported by the reply of operation l. An operation of the open chunk squashes it and
meets the fault again at its bundle; one of a committed chunk joins the replay set in its place by the order of issue
(R339), and the fault is taken with DEF set. DESIGN CHOICE (log 85): that of a helper in UPCALL or HUPCALL for another cause joins the
replay set, and no fault of its own is taken. DESIGN CHOICE (log 84): a deferred fault that a privileged trap has taken is pending no
longer, and a further one raises a trap of its own. -/
def deferFault (s : State) (c : CoreId) (n : SlotNo) (l : LongOp) (cause : BitVec 8) (i0 i1 : Word) : State :=
  if l.inChunk then
    let s := squash s c n
    let s := discardLong s c n l.id
    let p : Pend := { cause := cause, info0 := i0, info1 := i1, pc := l.pc, fpc := l.pc, aux := 0, aux2 := 0, wonly := false, dfr := false }
    s.modCtx c n fun x => { x with dfault := some (p, l.pos) }
  else
    let open_ := (s.ctx c n).chunk.isSome
    let s := keepReplays (squash s c n) c n l.id
    s.modCore c fun k =>
      let x := k.ctx n
      let x := { x with long := x.long.filter (·.id != l.id), replay := insReplay x.replay l }
      let p : Pend :=
        { cause := cause, info0 := i0, info1 := i1, pc := x.a.pc, fpc := l.pc, aux := 0, aux2 := 0, wonly := false, dfr := true, own := open_ }
      let x := if x.tpend.any (·.dfr) || x.upc.isSome then x else { x with tpend := x.tpend ++ [p] }
      (k.setCtx n x).unpark n

/-! ## Waits -/

/-- The cycles of a wait's limit: all ones waits without bound (R69). -/
def limitOf (x : Word) : Option Nat := if x = BitVec.allOnes 64 then none else some x.toNat

/-- A wait of the issuing context. -/
def State.newWait (s : State) (i : Instr) (vals : List Word) (left : Option Nat) : Wait :=
  { i := i, vals := vals, left := left, req := none, occ := 0, ids := [], sbit := false, bundle := s.iss.bundle }

/-- Parks the issuing context in its wait-table entry (R54, R98). -/
def park (s : State) (w : Wait) : State :=
  s.modMine fun k => k.setCtx s.iss.slot { k.ctx s.iss.slot with
    st := if k.holds s.iss.slot then .hwaiting else .waiting, wait := some w }

/-- The issue record names a context between its bundles; its registers are read as they stand. -/
def asCtx (s : State) (c : CoreId) (n : SlotNo) (bundle : Word) : State :=
  { s with iss := { core := c, slot := n, bundle := bundle, pc := (s.ctx c n).a.pc, src := none, srcH := Vector.replicate 16 0,
                    srcSh := 0, first := s.nextId, fate := .issued } }

/-- The context is parked in a waiting instruction. -/
def Ctx.isWaiting (x : Ctx) : Bool := x.st == .waiting || x.st == .hwaiting

/-- The context no longer waits: its issuing state, which a FROZEN context holds until its release; a DEPARTING one stays so. -/
def Ctx.goLive (x : Ctx) (st : SlotState) : Ctx :=
  if x.st == .frozen then { x with wait := none, held := st }
  else if x.st == .departing then { x with wait := none }
  else { x with wait := none, st := st }

/-- R52, R98: the condition of a wait holds, and its context is READY or in HANDLER: the instruction completes in its next
turn, by the S bit of its bundle. -/
def wakeCtx (s : State) (c : CoreId) (n : SlotNo) (sbit : Bool) : State :=
  s.modCore c fun k => k.setCtx n { (k.ctx n).goLive (k.liveState n) with compl := some sbit }

/-- The waits of a context are tested: its core is assigned, in issue, and held by no pre-emption and no gang. -/
def Core.tests (k : Core) (n : SlotNo) : Bool :=
  k.asg.isSome && !k.halted && (k.pre == .running || k.pre == .stopping) &&
    !((k.ctx n).member && k.gheld.contains (k.ctx n).a.ltag) && !k.fenced && !(k.ctx n).retiring && !(k.ctx n).ended

/-- Issues nothing more until its operations return, when any is outstanding (R95). -/
def Core.parkS (k : Core) (n : SlotNo) : Core :=
  if k.longOf n = 0 then k
  else match (k.ctx n).st with
    | .ready => k.setCtx n { k.ctx n with st := .parked }
    | .handler => k.setCtx n { k.ctx n with st := .hparked }
    | _ => k

/-! ## Watchpoints (R455) -/

/-- The captured entry admits the mode. -/
def Dbg.admits (e : Dbg) (priv : Bool) : Bool := !priv || e.d3.getLsbD 17

/-- The entry watches n bytes at a resolved pointer for a kind: 0-3 by the kinds of R148, 4 service-turn
operations. -/
def Dbg.watches (e : Dbg) (q : Word) (n kind : Nat) : Bool :=
  e.d3.getLsbD kind && kind ≤ 4 && pSpc q = pSpc e.d0 && pSpc q ≤ 1 && pDev q = pDev e.d0 &&
  (if pSpc q = 0 then pCore q = pCore e.d0 else pDie q = pDie e.d0) &&
  n != 0 && pOff q ≤ e.d2.toNat && e.d1.toNat < pOff q + n

/-- ACTION of a captured entry. -/
def Dbg.action (e : Dbg) : Nat := (e.d3.extractLsb' 18 2).toNat

/-- The stop of a context by entry e: cause 0 freezes, with the DEBUG cause and ACTION. -/
def watchStop (e : Dbg) (p : Word) (kind : Nat) : Trap :=
  if e.action = 0 then { cause := cWATCH, i0 := p, i1 := BitVec.ofNat 64 kind, aux := BitVec.ofNat 64 e.n, aux2 := BitVec.ofNat 64 kind }
  else { cause := 0, i0 := 1, i1 := BitVec.ofNat 64 e.action, aux := BitVec.ofNat 64 e.n, aux2 := BitVec.ofNat 64 kind }

/-- R456: the next bundle of the context is its first one since it returned to issue, and does not match the entry that stopped it: by a
trap, before `eret` or `hresume`, or by a freeze, before a release or a step. -/
def Ctx.skips (x : Ctx) (e : Bool × Nat) : Bool := (x.skipStop && x.stopBy == some e) || x.frozeBy == some e

/-- R455, R456: the watchpoint hit of an access of the issuing context, lowest entry first. -/
def State.watch (s : State) (p : Word) (n kind : Nat) : Option Trap :=
  (s.mine.wps.find? fun e => e.admits s.me.priv && e.watches (s.res p) n kind && kind ≤ 3 &&
    !s.me.skips (true, e.n)).map fun e => watchStop e p kind

/-! ## Returning from a trap (R343, R347, R225) -/

/-- R339: the context returns to issue with operations to replay, or with replays that have not returned. -/
def Ctx.mustReplay (x : Ctx) : Bool := !x.replay.isEmpty || !x.replayIds.isEmpty

/-- R459: a mark belongs to the bundle at a PC; a context that resumes at any other loses it. -/
def marks (held : Option Word) (pc : Word) : Bool := held.all (· == pc)

/-- A trap that waits is taken before the bundle at which the context stands: one that belongs to a bundle there alone, WAITX while the
waiting instruction is what the bundle still performs (R338, R342, R459). -/
def Ctx.meetsPend (x : Ctx) (p : Pend) : Bool := !p.own || (p.pc == x.a.pc && (p.cause != cWAITX || x.a.wonly))

/-- The trap that a context takes before its next bundle. -/
def Ctx.nextPend (x : Ctx) : Option Pend := x.tpend.find? x.meetsPend

/-- The context goes on at a PC with a mark or without it. A trap that waits for a bundle elsewhere goes on waiting if `away` says that
the context has not come from that bundle, or is still to return to it; else WAITX no longer waits, and a deferred fault is taken at
the next bundle (R338, R342). -/
def Ctx.resumeAt (x : Ctx) (pc : Word) (wonly : Bool) (away : Word → Bool) : Ctx :=
  let y := { x with a := { x.a with pc := pc, wonly := wonly } }
  let stays := fun (p : Pend) => y.meetsPend p || away p.pc
  { y with tpend := (y.tpend.filter fun p => stays p || p.cause != cWAITX).map fun p => { p with own := p.own && stays p } }

/-- The bundle at a PC is not the one at which the trap of an `eret` was taken, or it is the one to which an upcall of the control context
returns. -/
def Core.awayTrap (k : Core) (n : SlotNo) (pc : Word) : Bool :=
  k.r.trapMark.any (· != pc) || (n == 0 && k.r.upcMask && k.r.upcMark == pc)

/-- R343: after the commit of `eret`. The registers named 56-63 of the issuing context come back, BUSY
clears, and the context goes on at TRAP.PC in the mode of the trap, marked if the mark belongs to that bundle; with KILL set
the trapped helper ends. -/
def retTrap (s : State) : State :=
  let c := s.iss.core; let n := s.iss.slot
  let tc := s.mine.r.trapCause
  let s := s.modMine fun k =>
    let k := { k with r := { k.r with trapCause := tc &&& ~~~ BitVec.twoPow 64 63 } }
    if k.holds n then { k with h := Vector.ofFn fun i => if i.val < 8 then vget k.h i.val 0 else s.savedReg c (i.val - 8) }
    else k.setCtx n { k.ctx n with a := { (k.ctx n).a with
      g := Vector.ofFn fun i => if i.val < 56 then vget (k.ctx n).a.g i.val 0 else s.savedReg c (i.val - 56) } }
  let who : SlotNo := tc.extractLsb' 8 4
  if tc.getLsbD 62 && who != 0 then
    endContext (s.modMine fun k => { k with r := { k.r with trapCause := k.r.trapCause &&& ~~~ BitVec.twoPow 64 62 } }) c who
  else
    s.modMe fun x =>
      ({ x with priv := tc.getLsbD 12, replaying := x.mustReplay, skipStop := true } : Ctx).resumeAt s.mine.r.trapPc
        (tc.getLsbD 14 && marks s.mine.r.trapMark s.mine.r.trapPc) (s.mine.awayTrap n)

/-- R347: after the commit of `upret`. G[60] and G[61] come back from the upcall header, and the control
context goes on at UPC.PC with the mark held there, if it belongs to that bundle. -/
def retUpcall (s : State) : State :=
  let r := s.mine.r
  let o := spKey s.iss.core (64 * r.upcBase.toNat)
  let g60 : Word := BitVec.ofNat 64 (memNat s.mem (o + 8) 8)
  let g61 : Word := BitVec.ofNat 64 (memNat s.mem (o + 16) 8)
  let s := (s.wrG 60 g60).wrG 61 g61
  let s := s.modMine fun k => { k with r := { k.r with upcMask := false, upcWonly := false } }
  s.modMe fun x => x.resumeAt r.upcPc (r.upcWonly && marks (some r.upcMark) r.upcPc) (· != r.upcMark)

/-- R225: after the commit of `hret`: the bank is released and the context goes on at h1, or takes ADDR
while still in HANDLER. -/
def retHandler (s : State) : State :=
  let t := vget s.mine.h 1 0
  if s.fetchOk t then
    (s.modMine fun k => k.dropBank s.iss.slot).modMe fun x => { x with st := .ready, a := { x.a with pc := t, wonly := false } }
  else { deliver s s.iss.core s.iss.slot (s.pendAt (s.tAddr t)) with iss := { s.iss with fate := .entered } }

/-! ## The replay set (R339) -/

/-- The operations of the replay set are issued again, in their first order, as new operations: each in its own order toward the host
(R179), and, with no chunk open, over no bytes of the context's own. -/
def replayAll (s : State) (c : CoreId) (n : SlotNo) : State :=
  let x := s.ctx c n
  (x.replay.foldl (fun s l =>
    match l.body with
    | none => s
    | some b =>
      let id := s.nextId
      let tso := (bodyPtrs s b).any (tsoOf s c ((s.core c).tenantOf n))
      let s := s.send (s.request c n l.ord (destOf (bodyAddr s b)) tso true b l.given)
      s.modCtx c n fun x => { x with
        long := x.long ++ [{ l with id := id, inChunk := false, near := false, cancelled := false, own := [] }], replayIds := x.replayIds ++ [id] }) s).modCtx
    c n fun x => { x with replay := [] }

/-! ## The frames of the meanings -/

/-- The issuing context's mode or kind forbids the instruction, whatever its registers hold (R76 item 2,
R215, R222, R358, R421). -/
def State.forbidden (s : State) (i : Instr) : Option Nat :=
  let ctl := s.iss.slot == 0
  let bank := s.mine.holds s.iss.slot
  let ist := s.me.inv.ist
  let need := fun (ok : Bool) (r : Nat) => if ok then none else some r
  match i with
  | .hstart _ _ | .hjoin _ _ | .hsave _ _ | .hload _ _ | .hresume _ => need ctl 6
  | .hend => if ctl then some 6 else need (!bank) 7
  | .trap _ => need (!s.me.priv) 6
  | .eret | .halt => need s.me.priv 6
  | .hret => need bank 7
  | .upret => need ctl 6
  | .spend _ => if ctl then some 6 else need (!bank) 7
  | .spawn _ _ => need (!ctl) 6
  | .tgdone => need (!bank) 7
  | .apxOn _ _ => need (!bank && ist == 1) 7
  | .apxIn _ => need (!bank && (ist == 0 || (ist == 1 && s.me.inv.nin < 32))) 7
  | .apxOut k _ => need (!bank && (ist == 2 || ist == 4) && k.toNat ≤ s.me.inv.nout.toNat) 7
  | .apxRes _ k => need (!bank && ist == 3 && k.toNat ≤ s.me.inv.nout.toNat) 7
  | .apxEnd => need (!bank && (ist == 2 || ist == 3 || ist == 4)) 7
  | .apxInv _ | .apxSt _ _ | .apxLd _ _ => need (!bank) 7
  | .cbPull _ _ _ => need (s.me.hold.toList.any fun h => !h.getLsbD 63) 7
  | _ => none

/-- Items 2 and 3 of R76 for one instruction. -/
def State.early (s : State) (i : Instr) : Option Trap :=
  match s.forbidden i with
  | some r => some (s.tIllegal r)
  | none => (s.hazard i).map fun w => mkTrap cHAZARD w s.iss.bundle

/-- What an instruction comes to: a next state, a trap, or a turn held back. -/
inductive Res where
  | ok (s : State)
  | trap (t : Trap)
  /-- a trap, after the translations that led to it (R147, R150) -/
  | fault (s : State) (t : Trap)
  /-- held back, by R97 if the flag is set -/
  | hold (r97 : Bool)
  /-- the store buffer has no entry left: the chunk ends before the bundle (R164) -/
  | full

/-- Moves the PC of the issuing context; a WONLY mark is lost (R459). -/
def State.setPc (s : State) (pc : Word) : State := s.modMe fun x => { x with a := { x.a with pc := pc, wonly := false } }

/-- The next PC, or the same PC where none exists (the frame has checked it, R71). -/
def State.advance (s : State) : State := s.setPc (s.nextPc.getD s.iss.pc)

/-- Instructions that record a violation on the true path (R416). -/
def isViol : Instr → Bool
  | .st _ _ _ _ | .stx _ _ _ _ | .vst _ _ _ | .vstf _ _ _ _ _ | .vscat _ _ _ _ | .vldt _ _ _ _ => true
  | .amo _ _ _ _ _ | .acas _ _ _ _ | .red _ _ _ _ | .pshare _ _ => true
  | .post _ _ _ _ | .recv _ _ | .amsg _ _ _ | .tgnew _ _ | .tgdone | .tglaunch _ _ | .spawn _ _ | .spend _
  | .hstart _ _ | .hsave _ _ | .hload _ _ | .hresume _ => true
  | .cpset _ _ | .cpgo _ _ | .cpabort _ | .mmac _ _ _ _ _ _ _ _ _ | .mzero _ | .mput _ _ | .mget _ _
  | .rclaim _ _ _ | .rpush _ | .rwait _ _ _ | .rrel _ | .rset _ _ | .mbinc _ _ | .mbset _ _
  | .cbPush _ _ _ | .cbPull _ _ _ | .cbDone _ _ | .cbEnd _ | .apxInv _ | .apxLd _ _ => true
  | .kclaim _ _ _ | .kready _ | .kunbind _ _ | .kpin _ _ | .kunpin _ _ | .kscan _ | .kinv _ | .kwin _ _ _ _ _
  | .kcfg _ _ _ => true
  | .crw _ n | .crs _ n | .crc _ n => !(n.toNat ≤ 5 && n.toNat != 2) && !(8 ≤ n.toNat && n.toNat ≤ 15)
  | _ => false

/-- Marks the open chunk of a violation (R416). -/
def State.markViol (s : State) (i : Instr) : State :=
  if isViol i && s.onTruePath s.iss.core s.iss.slot then s.modChunk fun ch => { ch with viol := true } else s

/-- R164: the chunk ends before the bundle, which issues again in the next chunk. -/
def endBefore (s : State) : State :=
  let s := { s with iss := { s.iss with fate := .trapped } }
  if s.me.nearOut then s.modChunk fun ch => { ch with ending := true } else (commitChunk s s.iss.core s.iss.slot).1

/-- Performs what a word comes to: a trap, a hold, the end of the chunk, or the state. -/
def settle (s0 : State) (r : Res) : State :=
  match r with
  | .ok s => s
  | .trap t => raise s0 t
  | .fault s t => if heldByBusy s0 s0.iss.core s0.iss.slot t.cause then raise s0 t else raise s t
  | .hold b => if b then hold97 s0 else holdTurn s0
  | .full => endBefore s0

/-- The frame of a C or lone instruction that stays in its chunk and falls through: items 2 and 3 of
R76, the NextPC check of R71, then its own traps and effect. -/
def runC (i : Instr) (s : State) (body : State → Res) : State :=
  let s := s.openChunk s.iss.core s.iss.slot
  match s.early i with
  | some t => raise s t
  | none =>
    if s.nextPc.isNone then raise s (s.tAddr s.iss.pc)
    else match body s with
      | .ok s' => (s'.markViol i).advance
      | r => settle s r

/-- The frame of a control transfer: its body forms the next PC itself. -/
def runJ (i : Instr) (s : State) (body : State → Res) : State :=
  let s := s.openChunk s.iss.core s.iss.slot
  match s.early i with
  | some t => raise s t
  | none => settle s (body s)

/-- The frame of an A instruction: it leaves the PC to word 0. -/
def runA (i : Instr) (s : State) (body : State → Res) : State :=
  match s.early i with
  | some t => raise s t
  | none => settle s (body s)

/-- The commit of a chunk-ending instruction, and its violation on the true path (R165-R167, R416). A chunk
that the commit arbiter refuses is squashed, and the operation is not performed. `op` is told the state right after the commit. -/
def commitThen (i : Instr) (s : State) (op : State → State → State) : State :=
  let c := s.iss.core; let n := s.iss.slot
  let viol := isViol i && s.onTruePath c n
  let r := commitChunk s c n
  if r.2 then op r.1 (if viol then violate r.1 c n else r.1)
  else { r.1 with iss := { r.1.iss with fate := .trapped } }

/-- The operation of a release: where the far stores that its commit has just sent hold it back (R188), it stays with the
context, which issues nothing before it, and is performed whatever becomes of the context (R170). -/
def orDefer (i : Instr) (held : Option Bool) (e : Vector Word 8) (op : State → State) (s : State) : State :=
  match held with
  | none => op s
  | some _ => s.modMe fun x => { x with rel := some { i := i, iss := s.iss, e := e, sbit := false } }

/-- What stands before the commit of a chunk-ending instruction: its own traps; while a near load of the chunk is outstanding, or
`hold` says so (true: by R97), the bundle does not issue. `next` asks for the check of NextPC. -/
def endFrame (i : Instr) (s : State) (next : Bool) (chk : State → Option Trap) (hold : State → Option Bool)
    (op : State → State → State) : State :=
  let s := s.openChunk s.iss.core s.iss.slot
  match s.early i with
  | some t => raise s t
  | none =>
    if next && s.nextPc.isNone then raise s (s.tAddr s.iss.pc)
    else match chk s with
      | some t => raise s t
      | none =>
        if s.me.nearOut then holdTurn s
        else match hold s with
          | some b => settle s (.hold b)
          | none => commitThen i s op

/-- The frame of a chunk-ending instruction (R165-R167): its own traps, then the commit, then its operation, which moves
the PC. -/
def runE (i : Instr) (s : State) (next : Bool) (chk : State → Option Trap) (hold : State → Option Bool) (op : State → State) : State :=
  endFrame i s next chk hold fun _ => op

/-- The frame of a release (R188): what holds it back is asked before the commit and after it. -/
def runR (i : Instr) (s : State) (next : Bool) (chk : State → Option Trap) (hold : State → Option Bool) (e : Vector Word 8)
    (op : State → State) : State := endFrame i s next chk hold fun u => orDefer i (hold u) e op

/-- R342: a privileged trap of the issuing context waits while BUSY names another context. -/
def holdBusy (cause : BitVec 8) (s : State) : Option Bool :=
  if heldByBusy s s.iss.core s.iss.slot cause then some false else none

/-- Bytes at keys as the issuing context sees them: its own buffered stores first (R163). -/
def State.readOwn (s : State) (ks : List Nat) : List Byte := ks.map fun k => (s.me.bufAt k).getD (memGet s.mem k)

/-- A write of n bytes at a key of a die waits for the token holder (R171). -/
def State.writeHeld (s : State) (k n : Nat) : Bool :=
  s.tokenHolds (dieOfKey k) [] (linesOf ((List.range n).map (k + ·)))

/-- A write that the issuing context performs after its own commit waits for another context that holds the
token (R171). -/
def State.holdWrite (s : State) (k n : Nat) : Option Bool :=
  match s.tokenChunk (dieOfKey k) (some (s.iss.core, s.iss.slot)) with
  | some ch => if ch.meets (linesOf ((List.range n).map (k + ·))) then some false else none
  | none => none

/-- The translations of an own-die access of n bytes that ends in the trap PAGE (R147, R150), unless its bundle traps before that
or the trap waits (R342). -/
def walkPage (i : Instr) (s : State) (p : Word) (n kind : Nat) (t : Option Trap) : State :=
  if (t.any fun t => t.cause == cPAGE) && (s.early i).isNone && s.nextPc.isSome && !heldByBusy s s.iss.core s.iss.slot cPAGE then
    s.touchOwn (s.res p) n kind
  else s

/-- Nothing holds the bundle back. -/
def noHold (_ : State) : Option Bool := none

/-- R176, R188: an operation of R175 of the issuing context to this device has not been performed yet. -/
def State.behind (s : State) : Bool :=
  s.net.any fun r => r.core == s.iss.core && r.slot == s.iss.slot && r.occ == s.me.occ && r.ord && r.dest == .dev s.devId &&
    r.reply == Reply.none

/-- R188: a release that the issuing context performs in its own turn waits for its earlier operations. -/
def holdRelease (s : State) : Option Bool := if s.behind then some false else none

/-- R97 for one more long operation. -/
def holdLong (s : State) : Option Bool := if s.canLong then none else some true

/-- A wait begun at issue: it completes at once when its condition holds, else the context parks (R98, R102). -/
def beginWait (s : State) (w : Wait) (done : State → Wait → Option State) : State :=
  match done s w with
  | some s' => s'.advance
  | none => park s w

/-- The frame of a waiting instruction that keeps its chunk open (R165). -/
def runW (i : Instr) (s : State) (chk : State → Option Trap) (mk : State → Wait) (done : State → Wait → Option State) : State :=
  let s := s.openChunk s.iss.core s.iss.slot
  match s.early i with
  | some t => raise s t
  | none =>
    if s.nextPc.isNone then raise s (s.tAddr s.iss.pc)
    else match chk s with
      | some t => raise s t
      | none => beginWait (s.markViol i) (mk s) done

/-- The frame of a waiting instruction that waits after its chunk has committed (R167). -/
def runEW (i : Instr) (s : State) (chk : State → Option Trap) (mk : State → State × Wait) (done : State → Wait → Option State) : State :=
  runE i s true chk noHold fun s => beginWait (mk s).1 (mk s).2 done

end Sys2Proof.Machine
end

