-- ==== Sys2Proof/Machine/Issue.lean ====
section
/-! DEFINITION. Issuing a bundle: fetch (R138), breakpoints (R455, R456), the order of the traps of both
words (R76), the order of their effects (R74, R165), and what follows an issue (R95, R164, R171, R458). -/

namespace Sys2Proof.Machine

/-- The outcomes of a step. -/
abbrev Out := Host.Outcome State Fault Refusal

/-- What a fetch finds: the two words of the bundle, or its trap. -/
inductive Fetched where
  | ok (w0 w1 : W32)
  | trap (t : Trap)
  deriving DecidableEq, Repr

/-- Words 0 and 1 of the bundle whose bytes lie at a key (R71). -/
def bundleAt (m : Mem) (k : Nat) : Fetched := .ok (BitVec.ofNat 32 (memNat m k 4)) (BitVec.ofNat 32 (memNat m (k + 4) 4))

/-- The fetch of the bundle at the PC of the issue record (R138, R186, R147). -/
def fetchBundle (s : State) : Fetched :=
  let pc := s.iss.pc
  let q := s.res pc
  if !s.fetchOk pc then .trap (s.tAddr pc)
  else match (s.checkProt pc 8 3).or (s.checkLock pc 8 3) with
    | some t => .trap t
    | none =>
      if pSpc q = 0 then bundleAt s.mem (spKey (pCore q) (pOff q))
      else match xlateFor s (pDie q) false s.tenant (pOff q) 3 s.me.priv false with
        | .fault c => .trap (mkTrap cPAGE pc (faultWord c 3))
        | .ok k _ => bundleAt s.mem k

/-- The translation that a fetch from die memory performs (R143, R150). -/
def touchFetch (s : State) : State :=
  let q := s.res s.iss.pc
  if pSpc q = 1 && s.fetchOk s.iss.pc then touch s (pDie q) false s.tenant (pOff q) (quadOf s.iss.core) 3 s.me.priv false else s

/-- R153: the fetch waits for the migration of its page. -/
def fetchHeld (s : State) : Bool :=
  let q := s.res s.iss.pc
  pSpc q == 1 && pageHeld s (pDie q) false s.tenant (pOff q) 8 (some (s.iss.core, s.iss.slot))

/-- The breakpoint that matches the bundle, lowest entry first (R455, R456). -/
def State.breakpoint (s : State) : Option Dbg :=
  let a := s.me.a
  s.mine.bps.find? fun e =>
    resolve s.devId s.iss.core s.iss.pc &&& BitVec.ofNat 64 (2 ^ 56 - 1)
      == resolve s.devId s.iss.core e.d0 &&& BitVec.ofNat 64 (2 ^ 56 - 1) &&
    ((a.wid ^^^ e.d1) &&& e.d2) == 0 && (e.d3.getLsbD 16 || e.d3.extractLsb' 0 16 == a.ltag) && e.admits s.me.priv &&
    !s.me.skips (false, e.n)

/-- R456: a breakpoint hit raises BRK with INFO0 = 1, or freezes. -/
def breakHit (s : State) (e : Dbg) : State :=
  let t : Trap := if e.action = 0 then mkTrap cBRK 1 0 else mkTrap 0 0 (BitVec.ofNat 64 e.action)
  if heldByBusy s s.iss.core s.iss.slot t.cause then holdTurn s
  else
    raiseAs (s.traceDebug s.iss.core s.iss.slot 0 0 e.n 0) .trapped { s.pendAt t with aux := BitVec.ofNat 64 e.n }

/-- The chunk-ending instructions (R165). -/
def endsChunk : Instr → Bool
  | .amo _ _ _ _ _ | .acas _ _ _ _ | .red _ _ _ _ | .fence _ | .post _ _ _ _ | .recv _ _ | .pshare _ _ => true
  | .kclaim _ _ _ | .kready _ | .kunbind _ _ | .kpin _ _ | .kunpin _ _ | .kscan _ | .kinv _ | .kwin _ _ _ _ _
  | .kcfg _ _ _ => true
  | .rclaim _ _ _ | .rpush _ | .rwait _ _ _ | .rrel _ | .rset _ _ => true
  | .cpset _ _ | .cpgo _ _ | .cpabort _ | .mbinc _ _ | .mbset _ _ => true
  | .mmac _ _ _ _ _ _ _ _ _ | .mzero _ | .mget _ _ | .mput _ _ => true
  | .spawn _ _ | .spend _ | .amsg _ _ _ | .tgnew _ _ | .tgdone | .tglaunch _ _ => true
  | .apxOn _ _ | .apxIn _ | .apxOut _ _ | .apxRes _ _ | .apxEnd | .apxInv _ | .apxSt _ _ | .apxLd _ _ => true
  | .cbPush _ _ _ | .cbPull _ _ _ | .cbDone _ _ | .cbEnd _ => true
  | .hstart _ _ | .hend | .hsave _ _ | .hload _ _ | .hresume _ | .trap _ | .eret | .hret | .upret | .brk | .halt => true
  | .crw _ n | .crs _ n | .crc _ n => !(n.toNat ≤ 5 && n.toNat != 2) && !(8 ≤ n.toNat && n.toNat ≤ 15)
  | _ => false

/-- The waiting instructions (R100). -/
def isWaitInstr : Instr → Bool
  | .park _ | .hjoin _ _ | .hsave _ _ | .fence _ | .recv _ _ | .kwait _ _ _ | .rclaim _ _ _ | .rwait _ _ _
  | .cpwait _ _ _ | .mbwait _ _ _ | .mwait _ | .cbPush _ _ _ | .cbPull _ _ _ => true
  | _ => false

/-- Instructions that an outstanding `vscat` holds back (R244). -/
def afterScatter (i : Instr) : Bool :=
  endsChunk i || match i with
  | .ld _ _ _ _ | .ldn _ _ _ _ | .st _ _ _ _ | .ldx _ _ _ _ | .stx _ _ _ _ | .vld _ _ _ | .vst _ _ _ | .vldf _ _ _ _
  | .vstf _ _ _ _ _ | .vldt _ _ _ _ | .vgath _ _ _ _ | .vscat _ _ _ _ | .kload _ _ _ => true
  | _ => false

/-- An outstanding `vscat` of the context. -/
def Ctx.scatterOut (x : Ctx) : Bool := x.long.any fun l => !l.scat.isEmpty && !l.cancelled

/-- What a meaning has left: the fate of the bundle, or the other outcome. -/
def afterIssue (o : Out) (f : State → Out) : Out :=
  match o with
  | .next s => f s
  | o => o

/-- Items 2 and 3 of R76 for both words of a bundle. -/
def State.pairEarly (s : State) (c a : Instr) : Option Trap :=
  (((s.forbidden c).or (s.forbidden a)).map s.tIllegal).or (((s.hazard c).or (s.hazard a)).map fun w => mkTrap cHAZARD w s.iss.bundle)

/-- The word C takes effect before the word A (R74). A chunk-ending C other than a return from a trap, an upcall or a child is
performed after the commit of the chunk to which A's effects belong (R165): `trap`, `brk`, `spawn` and `hret` go by the
registers as they stand after the A word (R223, R225, R226, R378), and no other of them but `spend`, whose fast path restores
registers that A may write (R380), writes a register that A writes (R75). -/
def cFirst (c : Instr) : Bool :=
  match c with
  | .eret | .upret | .spend _ => true
  | _ => !endsChunk c

/-- R455, R456: the watchpoint hit of the fetch of the bundle. -/
def fetchWatch (s : State) : Option Trap := s.watch s.iss.pc 8 3

/-- R97: the long operations that a word of the bundle has issued in the state it leaves. -/
def newLongs (s r : State) : Nat := r.me.long.length - s.me.long.length

/-- Executes both words of a bundle on `s`, whose chunk is open. First the traps in the order of R76: items 2 and 3 of either
word, C's own, A's own. Then what holds the bundle back, in the state before it, of both words together. Then their effects. -/
def runPair (ex : Instr → State → Out) (c a : Instr) (s : State) : Out :=
  match s.pairEarly c a with
  | some t => .next (raise s t)
  | none =>
    afterIssue (ex c s) fun r =>
      if r.iss.fate.stops then .next r
      else afterIssue (ex a s) fun t =>
        if t.iss.fate.stops then .next t
        else match fetchWatch s with
          | some w => .next (raise s w)
          | none =>
            if r.iss.fate = .watched || r.iss.fate = .held then .next r
            else if t.iss.fate = .held then .next t
            else if newLongs s r != 0 && newLongs s t != 0 && !s.roomFor (newLongs s r + newLongs s t) then .next (hold97 s)
            else
              let s := s.traceIssue s.iss.core s.iss.slot s.iss.pc s.iss.bundle
              if cFirst c then afterIssue (ex c s) fun r => if r.iss.fate.goes then ex a r else .next r
              else afterIssue (ex a s) (ex c)

/-- Executes a lone instruction. -/
def runLone (ex : Instr → State → Out) (i : Instr) (s : State) : Out :=
  afterIssue (ex i s) fun r =>
    if r.iss.fate.stops then .next r
    else match fetchWatch s with
      | some w => .next (raise s w)
      | none => if r.iss.fate.goes then ex i (s.traceIssue s.iss.core s.iss.slot s.iss.pc s.iss.bundle) else .next r

/-- R164, R171: the chunk of a context ends after this bundle when it is its 256th, or the context holds
the serial token, or steps (R458). -/
def endChunkAfter (s : State) (c : CoreId) (n : SlotNo) : State :=
  let s := s.modCtx c n fun x => { x with chunk := x.chunk.map fun ch => { ch with n := ch.n + 1 } }
  match (s.ctx c n).chunk with
  | none => s
  | some ch =>
    if 256 ≤ ch.n || (s.die (dieOf c)).token == some (c, n) || (s.core c).stepping == some n then
      if (s.ctx c n).nearOut then s.modCtx c n fun x => { x with chunk := some { ch with ending := true } }
      else (commitChunk s c n).1
    else s

/-- R458: the stepped context is FROZEN again in the state that its turn has left, unless a hit has frozen it there; its record tells
of a bundle that it has issued. -/
def endStep (s : State) (c : CoreId) (n : SlotNo) : State :=
  if (s.core c).stepping == some n then
    let s := s.modCore c fun k => { k with stepping := none }
    let s := s.modCtx c n fun x => if x.st == .vacant || x.st == .frozen then x else { x with st := .frozen, held := x.st }
    if (s.ctx c n).cls == 1 then s.traceDebug c n 1 5 0 0 else s
  else s

/-- What follows the issue of a bundle: counts (R404, R448, R457), the switch marker (R95, R98), the end of its chunk, which a refused
commit squashes (R52), a step's end. A first bundle after a return to issue by `eret` or `hresume`, as `first` says, or after a release
or a step, has not met the entry that stopped its context; what the bundle itself sets stands for the next one (R456). -/
def issued (s : State) (sbit first : Bool) : State :=
  let c := s.iss.core; let n := s.iss.slot
  let s := (s.countCtx c n 3).markIssue c n
  let s := s.modCtx c n fun x =>
    { x with cls := 1, bundles := x.bundles + 1,
             skid := if (s.core c).freezing.isSome && (s.core c).freezeAt < s.now then x.skid + 1 else x.skid,
             stopBy := if first then none else x.stopBy, skipStop := x.skipStop && !first, frozeBy := none,
             wait := x.wait.map fun w => { w with sbit := sbit }
             rel := x.rel.map fun w => { w with sbit := sbit } }
  let s := if sbit then s.modCore c fun k => k.parkS n else s
  endStep (endChunkAfter s c n) c n

/-- What is left of a bundle by its fate: a held bundle leaves the chunk as it was; S has no effect on a bundle that traps
(R95). -/
def settleBundle (x : Ctx) (sbit : Bool) (r : State) : State :=
  match r.iss.fate with
  | .issued => issued r sbit x.skipStop
  | .entered => issued r false x.skipStop
  | .held | .stalled => r.modMe fun y => { y with chunk := x.chunk }
  | _ => endStep r r.iss.core r.iss.slot

/-- Issues the bundle of words 0 and 1 (R71-R76). A context marked WONLY performs its waiting instruction
alone (R459). -/
def issueWords (ex : Instr → State → Out) (s : State) (w0 w1 : W32) : Out :=
  let x := s.me
  let s := { s with iss := { s.iss with bundle := w1 ++ w0 } }
  let o := s.openChunk s.iss.core s.iss.slot
  let fin := fun (out : Out) => afterIssue out fun r => .next (settleBundle x (bundleS w0) r)
  match decodeBundle w0 w1 with
  | .bad _ => fin (ex (.unassignedEncoding w0 w1) o)
  | .pair c a =>
    let a := if x.a.wonly then Instr.nopA else a
    let c := if x.a.wonly && !isWaitInstr c then Instr.nop else c
    if x.scatterOut && afterScatter c then .next (holdTurn s) else fin (runPair ex c a o)
  | .lone i => if x.scatterOut && afterScatter i then .next (holdTurn s) else fin (runLone ex i o)

/-- The turn of a context that may issue: a deferred fault at this bundle (R338), which is the one whose operation reported
it when as many bundles of the chunk stand before it; the fetch, a breakpoint, the bundle. -/
def issueTurn (ex : Instr → State → Out) (s : State) (c : CoreId) (n : SlotNo) : Out :=
  let k := s.core c
  let x := k.ctx n
  let s := { s with iss := { core := c, slot := n, bundle := Config.noBundle, pc := x.a.pc, src := some x.a, srcH := k.h,
                             srcSh := k.sh, first := s.nextId, fate := .issued } }
  match x.dfault with
  | some (p, m) =>
    if p.fpc = x.a.pc && (x.chunk.map (·.n)).getD 0 == m then
      let r := raiseAs (s.modMe fun x => { x with dfault := none }) .trapped { p with wonly := x.a.wonly }
      if r.iss.fate = .stalled then .next (holdTurn s) else .next (endStep r c n)
    else fetched s
  | none => fetched s
where
  fetched (s : State) : Out :=
    if fetchHeld s then .next (holdTurn s)
    else match fetchBundle s with
    | .trap t => .next (settleBundle s.me false (settle s (if t.cause = cPAGE then .fault (touchFetch s) t else .trap t)))
    | .ok w0 w1 =>
      let s := touchFetch s
      match s.breakpoint with
      | some e => .next (settleBundle s.me false (breakHit s e))
      | none => issueWords ex s w0 w1

end Sys2Proof.Machine
end

