-- ==== Sys2Proof/Machine/Integer.lean ====
section
/-! DEFINITION. Integer operations on registers, immediates, comparisons and bit fields (R195-R202), with
integer division (R133). -/

namespace Sys2Proof.Machine

/-! ## Shapes -/

/-- An operation that writes G[d] with a value of the state, under an AR guard (R78). -/
def aluW (i : Instr) (d : RF) (g : BitVec 3) (f : State → Word) (s : State) : State :=
  runA i s fun s => .ok (if s.guard g then s.wrG d (f s) else s)

/-- The same on G[a] and G[b]. -/
def aluRR (i : Instr) (d a b : RF) (g : BitVec 3) (f : Word → Word → Word) (s : State) : State :=
  aluW i d g (fun s => f (s.rdG a) (s.rdG b)) s

/-- A division: a long result that returns 40 cycles after issue; a guard that fails starts nothing
(R196, R100). -/
def divOp (i : Instr) (d a b : RF) (g : BitVec 3) (f : Word → Word → Word) (s : State) : State :=
  runA i s fun s =>
    if !s.guard g then .ok s
    else if !s.canLong then .hold true
    else
      let l := { s.newLong s.nextId (s.dstG d) .word with
        val := some (f (s.rdG a) (s.rdG b)).toNat, due := some (s.mine.cyc + 40) }
      .ok (s.freshId.addLong l)

/-! ## Values -/

/-- Bits 127:64 of the signed and of the natural product. -/
def mulhW (x y : Word) : Word := BitVec.ofInt 64 (x.toInt * y.toInt / 2 ^ 64)
def mulhnW (x y : Word) : Word := BitVec.ofNat 64 (x.toNat * y.toNat / 2 ^ 64)

/-- The quotients and remainders of R133. -/
def divW (n d : Word) : Word :=
  if d = 0 then (if n.toInt < 0 then 1 else BitVec.allOnes 64) else BitVec.ofInt 64 (n.toInt.tdiv d.toInt)
def remW (n d : Word) : Word := if d = 0 then n else BitVec.ofInt 64 (n.toInt.tmod d.toInt)
def divnW (n d : Word) : Word := if d = 0 then BitVec.allOnes 64 else BitVec.ofNat 64 (n.toNat / d.toNat)
def remnW (n d : Word) : Word := if d = 0 then n else BitVec.ofNat 64 (n.toNat % d.toNat)

/-- A shift count: bits 5:0 (R196). -/
def shc (x : Word) : Nat := x.toNat % 64

/-- The signed and natural smaller and larger. -/
def minW (x y : Word) : Word := if x.toInt ≤ y.toInt then x else y
def maxW (x y : Word) : Word := if x.toInt ≤ y.toInt then y else x
def minnW (x y : Word) : Word := if x.toNat ≤ y.toNat then x else y
def maxnW (x y : Word) : Word := if x.toNat ≤ y.toNat then y else x

/-- Zero bits above the highest 1, below the lowest 1, and the number of 1 bits. -/
def clzW (x : Word) : Word := if x = 0 then 64 else BitVec.ofNat 64 (63 - Nat.log2 x.toNat)
def ctzW (x : Word) : Word := BitVec.ofNat 64 (((List.range 64).find? fun i => x.getLsbD i).getD 64)
def popcW (x : Word) : Word := BitVec.ofNat 64 ((List.range 64).countP fun i => x.getLsbD i)

/-- The conditions of R201. -/
def condOk (c : BitVec 3) (x y : Word) : Bool :=
  match c.toNat with
  | 0 => x == y
  | 1 => x != y
  | 2 => x.toInt < y.toInt
  | 3 => x.toInt ≤ y.toInt
  | 4 => y.toInt < x.toInt
  | 5 => y.toInt ≤ x.toInt
  | 6 => x.toNat < y.toNat
  | _ => x.toNat ≤ y.toNat

/-- R202: the field of `n` bits at `pos`, signed or natural. -/
def bfxW (x : Word) (pos n : Nat) (sgn : Bool) : Word :=
  let f := x.toNat / 2 ^ pos % 2 ^ n
  if sgn then BitVec.ofInt 64 (toSigned n f) else BitVec.ofNat 64 f

/-- R202: the low `n` bits of `x` placed at `pos`, over zero or over `old`. -/
def bfiW (old x : Word) (pos n : Nat) (z : Bool) : Word :=
  let f := BitVec.ofNat 64 (x.toNat % 2 ^ n * 2 ^ pos)
  let m := BitVec.ofNat 64 ((2 ^ n - 1) * 2 ^ pos)
  if z then f else (old &&& ~~~m) ||| f

/-- R199, R200: the high word replaced, the low word kept. -/
def highW (old : Word) (hi : Nat) : Word := BitVec.ofNat 64 (hi * 2 ^ 32 + old.toNat % 2 ^ 32)

/-! ## R195 -/

/-- R195 SUB 0. -/
def execAdd (d a b : RF) (g : BitVec 3) (s : State) : Out := .next (aluRR (.add d a b g) d a b g (· + ·) s)
/-- R195 SUB 1. -/
def execSub (d a b : RF) (g : BitVec 3) (s : State) : Out := .next (aluRR (.sub d a b g) d a b g (· - ·) s)
/-- R195 SUB 2. -/
def execMul (d a b : RF) (g : BitVec 3) (s : State) : Out := .next (aluRR (.mul d a b g) d a b g (· * ·) s)
/-- R195 SUB 3. -/
def execMulh (d a b : RF) (g : BitVec 3) (s : State) : Out := .next (aluRR (.mulh d a b g) d a b g mulhW s)
/-- R195 SUB 4. -/
def execMulhn (d a b : RF) (g : BitVec 3) (s : State) : Out := .next (aluRR (.mulhn d a b g) d a b g mulhnW s)
/-- R195 SUB 5, R133. -/
def execDiv (d a b : RF) (g : BitVec 3) (s : State) : Out := .next (divOp (.div d a b g) d a b g divW s)
/-- R195 SUB 6, R133. -/
def execDivn (d a b : RF) (g : BitVec 3) (s : State) : Out := .next (divOp (.divn d a b g) d a b g divnW s)
/-- R195 SUB 7, R133. -/
def execRem (d a b : RF) (g : BitVec 3) (s : State) : Out := .next (divOp (.rem d a b g) d a b g remW s)
/-- R195 SUB 8, R133. -/
def execRemn (d a b : RF) (g : BitVec 3) (s : State) : Out := .next (divOp (.remn d a b g) d a b g remnW s)
/-- R195 SUB 9. -/
def execAnd (d a b : RF) (g : BitVec 3) (s : State) : Out := .next (aluRR (.and d a b g) d a b g (· &&& ·) s)
/-- R195 SUB 10. -/
def execOr (d a b : RF) (g : BitVec 3) (s : State) : Out := .next (aluRR (.or d a b g) d a b g (· ||| ·) s)
/-- R195 SUB 11. -/
def execXor (d a b : RF) (g : BitVec 3) (s : State) : Out := .next (aluRR (.xor d a b g) d a b g (· ^^^ ·) s)
/-- R195 SUB 12. -/
def execShl (d a b : RF) (g : BitVec 3) (s : State) : Out :=
  .next (aluRR (.shl d a b g) d a b g (fun x y => x <<< shc y) s)
/-- R195 SUB 13. -/
def execShr (d a b : RF) (g : BitVec 3) (s : State) : Out :=
  .next (aluRR (.shr d a b g) d a b g (fun x y => x >>> shc y) s)
/-- R195 SUB 14. -/
def execSra (d a b : RF) (g : BitVec 3) (s : State) : Out :=
  .next (aluRR (.sra d a b g) d a b g (fun x y => x.sshiftRight (shc y)) s)
/-- R195 SUB 15. -/
def execMin (d a b : RF) (g : BitVec 3) (s : State) : Out := .next (aluRR (.min d a b g) d a b g minW s)
/-- R195 SUB 16. -/
def execMax (d a b : RF) (g : BitVec 3) (s : State) : Out := .next (aluRR (.max d a b g) d a b g maxW s)
/-- R195 SUB 17. -/
def execMinn (d a b : RF) (g : BitVec 3) (s : State) : Out := .next (aluRR (.minn d a b g) d a b g minnW s)
/-- R195 SUB 18. -/
def execMaxn (d a b : RF) (g : BitVec 3) (s : State) : Out := .next (aluRR (.maxn d a b g) d a b g maxnW s)
/-- R195 SUB 19. -/
def execClz (d a : RF) (g : BitVec 3) (s : State) : Out := .next (aluW (.clz d a g) d g (fun s => clzW (s.rdG a)) s)
/-- R195 SUB 20. -/
def execCtz (d a : RF) (g : BitVec 3) (s : State) : Out := .next (aluW (.ctz d a g) d g (fun s => ctzW (s.rdG a)) s)
/-- R195 SUB 21. -/
def execPopc (d a : RF) (g : BitVec 3) (s : State) : Out := .next (aluW (.popc d a g) d g (fun s => popcW (s.rdG a)) s)
/-- R195 SUB 22: bits 7:5 select, there is no guard (R196). -/
def execSel (d a b : RF) (p : BitVec 3) (s : State) : Out :=
  .next (aluW (.sel d a b p) d 0 (fun s => if (s.rdP p).getLsbD 0 then s.rdG a else s.rdG b) s)

/-! ## Immediates -/

/-- R197. -/
def execAddi (d a : RF) (i : BitVec 14) (s : State) : Out := .next (aluW (.addi d a i) d 0 (fun s => s.rdG a + sxw i) s)
/-- R197. -/
def execAndi (d a : RF) (i : BitVec 14) (s : State) : Out := .next (aluW (.andi d a i) d 0 (fun s => s.rdG a &&& sxw i) s)
/-- R197. -/
def execOri (d a : RF) (i : BitVec 14) (s : State) : Out := .next (aluW (.ori d a i) d 0 (fun s => s.rdG a ||| sxw i) s)
/-- R197. -/
def execXori (d a : RF) (i : BitVec 14) (s : State) : Out := .next (aluW (.xori d a i) d 0 (fun s => s.rdG a ^^^ sxw i) s)
/-- R198. -/
def execShli (d a : RF) (n : BitVec 6) (s : State) : Out := .next (aluW (.shli d a n) d 0 (fun s => s.rdG a <<< n.toNat) s)
/-- R198. -/
def execShri (d a : RF) (n : BitVec 6) (s : State) : Out := .next (aluW (.shri d a n) d 0 (fun s => s.rdG a >>> n.toNat) s)
/-- R198. -/
def execSrai (d a : RF) (n : BitVec 6) (s : State) : Out :=
  .next (aluW (.srai d a n) d 0 (fun s => (s.rdG a).sshiftRight n.toNat) s)
/-- R199. -/
def execMovi (d : RF) (i : BitVec 20) (s : State) : Out := .next (aluW (.movi d i) d 0 (fun _ => sxw i) s)
/-- R199. -/
def execMovh (d : RF) (i : BitVec 20) (s : State) : Out := .next (aluW (.movh d i) d 0 (fun s => highW (s.rdG d) i.toNat) s)

/-- The value that `movl` writes (R200). -/
def movlW (old : Word) (m : BitVec 2) (i : W32) : Word :=
  match m.toNat with
  | 0 => sxw i
  | 1 => i.setWidth 64
  | _ => highW old i.toNat

/-- R200: a lone instruction. -/
def execMovl (d : RF) (m : BitVec 2) (i : W32) (s : State) : Out :=
  .next (runC (.movl d m i) s fun s => .ok (s.wrG d (movlW (s.rdG d) m i)))

/-! ## Comparisons and bit fields -/

/-- R201: writes a whole predicate. -/
def execCmp (p : BitVec 3) (a b : RF) (g c : BitVec 3) (s : State) : Out :=
  .next (runA (.cmp p a b g c) s fun s =>
    .ok (if s.guard g then s.wrP p (true64 (condOk c (s.rdG a) (s.rdG b))) else s))

/-- R201. -/
def execCmpi (p c : BitVec 3) (a : RF) (i : BitVec 14) (s : State) : Out :=
  .next (runA (.cmpi p c a i) s fun s => .ok (s.wrP p (true64 (condOk c (s.rdG a) (sxw i)))))

/-- R202. -/
def execBfx (d a pos len : RF) (sg : BitVec 1) (s : State) : Out :=
  .next (aluW (.bfx d a pos len sg) d 0 (fun s => bfxW (s.rdG a) pos.toNat (len.toNat + 1) (sg == 1)) s)

/-- R202. -/
def execBfi (d a pos len : RF) (z : BitVec 1) (s : State) : Out :=
  .next (aluW (.bfi d a pos len z) d 0 (fun s => bfiW (s.rdG d) (s.rdG a) pos.toNat (len.toNat + 1) (z == 1)) s)

end Sys2Proof.Machine
end

