-- ==== Sys2Proof/Machine/Pointer.lean ====
section
/-! DEFINITION. Pointer operations (R203-R209). -/

namespace Sys2Proof.Machine

/-- A pointer operation that writes G[d], or traps, under an AR guard. -/
def ptrOp (i : Instr) (d : RF) (g : BitVec 3) (f : State → Except Trap Word) (s : State) : State :=
  runA i s fun s =>
    if !s.guard g then .ok s
    else match f s with
      | .ok x => .ok (s.wrG d x)
      | .error t => .trap t

/-- R204: a pointer moved by a signed byte count, or ADDR reporting it. -/
def paddW (s : State) (p : Word) (y : Int) : Except Trap Word :=
  match moveOff p y with
  | some q => .ok q
  | none => .error (s.tAddr p)

/-- R204. -/
def execPadd (d a b : RF) (g : BitVec 3) (s : State) : Out :=
  .next (ptrOp (.padd d a b g) d g (fun s => paddW s (s.rdG a) (s.rdG b).toInt) s)

/-- R204. -/
def execPaddi (d a : RF) (i : BitVec 14) (s : State) : Out :=
  .next (ptrOp (.paddi d a i) d 0 (fun s => paddW s (s.rdG a) i.toInt) s)

/-- R205: the byte count of a number of elements of a format, or none where it is no whole number. -/
def elemBytes (f l : Nat) (i : Int) : Option Int :=
  if isBlocked f then
    if i % (2 ^ l : Nat) ≠ 0 then none else some (i / (2 ^ l : Nat) * blockBytes f l)
  else if elemWidth f = 4 then
    if i % 2 ≠ 0 then none else some (i / 2)
  else some (i * (elemWidth f / 8 : Nat))

/-- R205: FORMAT, then ADDR for alignment, then as `padd`. -/
def pidxW (s : State) (p : Word) (i : Int) : Except Trap Word :=
  if !tagOk (pFmt p) (pBlg p) then .error (s.tFormat p)
  else match elemBytes (pFmt p) (pBlg p) i with
    | some y => paddW s p y
    | none => .error (s.tAddr p)

/-- R205. -/
def execPidx (d a b : RF) (g : BitVec 3) (s : State) : Out :=
  .next (ptrOp (.pidx d a b g) d g (fun s => pidxW s (s.rdG a) (s.rdG b).toInt) s)

/-- R206: bits 63:59 and 58:56 replaced. -/
def ptagW (p : Word) (f : BitVec 5) (l : BitVec 3) : Word := f ++ l ++ p.extractLsb' 0 56

/-- R206. -/
def execPtag (d a : RF) (f : BitVec 5) (l : BitVec 3) (s : State) : Out :=
  .next (ptrOp (.ptag d a f l) d 0 (fun s => .ok (ptagW (s.rdG a) f l)) s)

/-- R207: a field as written, zero-extended. -/
def pgetW (p : Word) (k : Nat) : Word :=
  match k with
  | 0 => (p.extractLsb' 59 5).setWidth 64
  | 1 => (p.extractLsb' 56 3).setWidth 64
  | 2 => (p.extractLsb' 54 2).setWidth 64
  | 3 => if pSpc p ≤ 1 then (pDev p).setWidth 64 else 0
  | 4 => if pSpc p = 0 then (pCore p).setWidth 64 else if pSpc p = 1 then (pDie p).setWidth 64 else 0
  | _ => BitVec.ofNat 64 (pOff p)

/-- R207. -/
def execPget (d a k : RF) (g : BitVec 3) (s : State) : Out :=
  .next (ptrOp (.pget d a k g) d g (fun s => .ok (pgetW (s.rdG a) k.toNat)) s)

/-- R208: an access of n bytes would pass the address and format checks. -/
def pchkOk (p : Word) (n : Nat) : Bool := mbzOk p && pOff p + n ≤ 2 ^ offW p && tagOk (pFmt p) (pBlg p)

/-- R208. -/
def execPchk (p : BitVec 3) (a b : RF) (g : BitVec 3) (s : State) : Out :=
  .next (runA (.pchk p a b g) s fun s =>
    .ok (if s.guard g then s.wrP p (true64 (pchkOk (s.rdG a) (s.rdG b).toNat)) else s))

/-- R209: the location of a pointer replaced by one in the layout of CTX.ID. -/
def pmkW (s : State) (p l : Word) : Except Trap Word :=
  let dev : BitVec 10 := l.extractLsb' 16 10
  if pSpc p = 0 then .ok (p.extractLsb' 54 10 ++ dev ++ l.extractLsb' 4 12 ++ p.extractLsb' 0 32)
  else if pSpc p = 1 then .ok (p.extractLsb' 54 10 ++ dev ++ l.extractLsb' 14 2 ++ p.extractLsb' 0 42)
  else .error (s.tAddr p)

/-- R209. -/
def execPmk (d a b : RF) (g : BitVec 3) (s : State) : Out :=
  .next (ptrOp (.pmk d a b g) d g (fun s => pmkW s (s.rdG a) (s.rdG b)) s)

end Sys2Proof.Machine
end

