-- ==== Sys2Proof/Machine/Control.lean ====
section
/-! DEFINITION. The `nop`s, control transfers (R210-R213) and unassigned encodings (R88). -/

namespace Sys2Proof.Machine

/-- R73: the C word of zeros. -/
def execNop (s : State) : Out := .next (runC .nop s .ok)

/-- R73: the A word of zeros. -/
def execNopA (s : State) : Out := .next (runA .nopA s .ok)

/-- R88, R89: the words of the bundle being executed are no bundle: ILLEGAL with the lowest reason. Words
that are a bundle raise nothing here. -/
def execUnassignedEncoding (w0 w1 : W32) (s : State) : Out :=
  match decodeBundle w0 w1 with
  | .bad r =>
    let s := s.openChunk s.iss.core s.iss.slot
    .next (raise s (mkTrap cILLEGAL (BitVec.ofNat 64 r) (w1 ++ w0)))
  | _ => .next s

/-- Goes on at a target, or ADDR reporting the PC (R71, R194). -/
def goto (s : State) (t : Option Word) : Res :=
  match t with
  | some pc => .ok (s.setPc pc)
  | none => .trap (s.tAddr s.iss.pc)

/-- R210: taken when P[p][0] differs from N. -/
def execBr (p : BitVec 3) (n : BitVec 1) (d : BitVec 20) (s : State) : Out :=
  .next (runJ (.br p n d) s fun s =>
    goto s (if (s.rdP p).getLsbD 0 != (n == 1) then targetOf s.iss.pc d.toInt else s.nextPc))

/-- R210. -/
def execJmp (d : BitVec 24) (s : State) : Out := .next (runJ (.jmp d) s fun s => goto s (targetOf s.iss.pc d.toInt))

/-- R210: G[63] takes NextPC. -/
def execCall (d : BitVec 24) (s : State) : Out :=
  .next (runJ (.call d) s fun s =>
    match targetOf s.iss.pc d.toInt, s.nextPc with
    | some t, some n => .ok ((s.wrG 63 n).setPc t)
    | _, _ => .trap (s.tAddr s.iss.pc))

/-- R211: a jump to a register's value, which must pass FetchOK. -/
def jumpTo (s : State) (t : Word) : Res := if s.fetchOk t then .ok (s.setPc t) else .trap (s.tAddr t)

/-- R211. -/
def execJmpi (a : RF) (s : State) : Out := .next (runJ (.jmpi a) s fun s => jumpTo s (s.rdG a))

/-- R211. -/
def execRet (s : State) : Out := .next (runJ .ret s fun s => jumpTo s (s.rdG 63))

/-- R212. -/
def execLoop (a : RF) (d : BitVec 18) (s : State) : Out :=
  .next (runJ (.loop a d) s fun s =>
    let n := s.rdG a - 1
    match (if n = 0 then s.nextPc else targetOf s.iss.pc d.toInt) with
    | some t => .ok ((s.wrG a n).setPc t)
    | none => .trap (s.tAddr s.iss.pc))

/-- R213: the inbox holds an entry. -/
def donePark (s : State) (_ : Wait) : Option State :=
  let r := vget s.mine.rings 0 Ring.zero
  if r.w ≠ r.c then some s else none

/-- R213. -/
def execPark (a : RF) (s : State) : Out :=
  .next (runW (.park a) s (fun _ => none) (fun s => s.newWait (.park a) [] (limitOf (s.rdG a))) donePark)

end Sys2Proof.Machine
end

