-- ==== Sys2Proof/Machine/Helper.lean ====
section
/-! DEFINITION. Helper control (R215-R221) and the context image (R61, R415, R439). -/

namespace Sys2Proof.Machine

/-! ## The context image -/

/-- IHDR (R415). -/
def ihdr (v : Inv) : Nat :=
  v.ist.toNat + v.nin % 64 * 2 ^ 3 + v.nout.toNat * 2 ^ 9 + v.mask.toNat * 2 ^ 13 + v.role.toNat * 2 ^ 29 +
    (if v.pend then 2 ^ 31 else 0) + v.obj.toNat * 2 ^ 32 + v.eng.toNat * 2 ^ 48

/-- The architected registers of an image, bytes 0 to 1,703 (R61). -/
def archBytes (a : Arch) : List Byte :=
  ((List.range 64).map fun i => wordBytes (a.rdG i)).flatten ++
  ((List.range 16).map fun i => natBytes 64 (vget a.v i 0).toNat).flatten ++
  ((List.range 8).map fun i => wordBytes (a.rdP i)).flatten ++
  wordBytes a.pc ++ wordBytes a.wid ++ wordBytes a.widf ++
  natBytes 8 (a.ltag.toNat + if a.wonly then 2 ^ 16 else 0) ++ natBytes 8 a.fpf.toNat ++
  ((List.range 8).map fun i => natBytes 8 (vget a.pipe i 0).toNat).flatten

/-- The UNIT bytes, 1,704 to 2,047 (R415, R439). -/
def unitBytes (v : Inv) (hold : Vector Word 16) : List Byte :=
  natBytes 8 (ihdr v) ++ ((List.range 32).map fun i => natBytes 4 (vget v.inp i 0).toNat).flatten ++
  ((List.range 16).map fun i => natBytes 4 (vget v.out i 0).toNat).flatten ++
  ((List.range 16).map fun i => wordBytes (vget hold i 0)).flatten ++ List.replicate 16 0

/-- The context image of 2,048 bytes (R61). -/
def imageBytes (x : Ctx) : List Byte := archBytes x.a ++ unitBytes x.inv x.hold

/-- A dword of an image. -/
def imgWord (bs : List Byte) (o : Nat) : Word := BitVec.ofNat 64 (leBytes bs o 8)

/-- The registers that an image holds, scoreboard clear. -/
def archOf (bs : List Byte) : Arch :=
  { g := Vector.ofFn fun i => if i.val = 0 then 0 else imgWord bs (8 * i.val)
    v := Vector.ofFn fun i => BitVec.ofNat 512 (leBytes bs (512 + 64 * i.val) 64)
    p := Vector.ofFn fun i => if i.val = 0 then 0 else imgWord bs (1536 + 8 * i.val)
    pc := imgWord bs 1600, wid := imgWord bs 1608, widf := imgWord bs 1616
    ltag := (imgWord bs 1624).extractLsb' 0 16, fpf := (imgWord bs 1632).extractLsb' 0 6
    pipe := Vector.ofFn fun i => (imgWord bs (1640 + 8 * i.val)).extractLsb' 0 16
    sg := 0, sv := 0, sp := 0, wonly := (imgWord bs 1624).getLsbD 16 }

/-- The invocation state that an image holds. -/
def invOf (bs : List Byte) : Inv :=
  let h := imgWord bs 1704
  { ist := h.extractLsb' 0 3, nin := (h.extractLsb' 3 6).toNat, nout := h.extractLsb' 9 4, mask := h.extractLsb' 13 16
    role := h.extractLsb' 29 2, pend := h.getLsbD 31, obj := h.extractLsb' 32 16, eng := h.extractLsb' 48 8
    inp := Vector.ofFn fun i => BitVec.ofNat 32 (leBytes bs (1712 + 4 * i.val) 4)
    out := Vector.ofFn fun i => BitVec.ofNat 32 (leBytes bs (1840 + 4 * i.val) 4), res := [] }

/-- The held list that an image holds. -/
def holdOf (bs : List Byte) : Vector Word 16 := Vector.ofFn fun i => imgWord bs (1904 + 8 * i.val)

/-- R46: a valid WID.FIELDS. -/
def widfOk (w : Word) : Bool :=
  let nf := w.toNat % 8
  let wd := fun i => w.toNat / 2 ^ (3 + 6 * i) % 64
  w.toNat / 2 ^ 39 == 0 && nf ≤ 6 && (List.range 6).all (fun i => if i < nf then wd i != 0 else wd i == 0) &&
    ((List.range 6).map wd).sum ≤ 64

/-! ## `hstart`, `hend`, `hjoin` -/

/-- R216: the request is served at the next rotation boundary. -/
def execHstart (a b : RF) (s : State) : Out :=
  .next (runE (.hstart a b) s true
    (fun s => if s.fetchOk (s.rdG b) then none else some (s.tAddr (s.rdG b))) holdLong
    fun s =>
      let q : HStart := { id := s.nextId, pc := s.rdG b, w1 := s.rdG (grp b 1), w2 := s.rdG (grp b 2) }
      let l := s.newLong s.nextId (s.dstG a) .word
      ((s.freshId.addLong { l with inChunk := false }).modMine fun k =>
        { k with sched := { k.sched with hstart := k.sched.hstart ++ [q] } }).advance)

/-- Retirement by `hend` (R57, R217): the slot vacates at the first boundary with nothing outstanding. -/
def retire (s : State) : State := s.modMe fun x => { x with retiring := true }

/-- R217; the retirement is a release (R188, R189). -/
def execHend (s : State) : Out := .next (runR .hend s false (fun _ => none) holdRelease (Vector.replicate 8 0) retire)

/-- The helper slot that a register names: ILLEGAL with reason 7 outside 1-10 (R215). -/
def helperSlot (x : Word) : Option SlotNo := if 1 ≤ x.toNat && x.toNat ≤ 10 then some (BitVec.ofNat 4 x.toNat) else none

/-- The slot's context, VACANT for a value that names none. -/
def State.helper (s : State) (x : Word) : Ctx := s.mine.ctx ((helperSlot x).getD 15)

/-- R58: the slot is VACANT, or the occupant present at issue has left it. -/
def doneHjoin (s : State) (w : Wait) : Option State :=
  let x := s.helper (w.vals.headD 0)
  if x.st == .vacant || x.occ != w.occ then some s else none

/-- R218. -/
def execHjoin (a b : RF) (s : State) : Out :=
  .next (runW (.hjoin a b) s
    (fun s => if (helperSlot (s.rdG a)).isNone then some (s.tIllegal 7) else none)
    (fun s => { s.newWait (.hjoin a b) [s.rdG a] (limitOf (s.rdG b)) with occ := (s.helper (s.rdG a)).occ }) doneHjoin)

/-! ## `hsave`, `hload`, `hresume` -/

/-- R219 items 2-4: an image of 2,048 bytes in the issuer's scratchpad, for an access kind. -/
def imageCheck (s : State) (p : Word) (kind : Nat) : Option Trap :=
  if !s.ownSp (s.res p) then some (s.tAddr p) else s.check p 2048 kind 64

/-- R455: the watchpoints on the access of an image. -/
def imageWatch (s : State) (p : Word) (kind : Nat) : Option Trap := s.watch p 2048 kind

/-- The slot is in UPCALL, or FROZEN since (R52, R457). -/
def Ctx.inUpcall (x : Ctx) : Bool := x.st == .upcall || (x.st == .frozen && x.held == .upcall)

/-- R60, R219: the slot's long operations have returned, or it is no longer in UPCALL; then the image is written in one step of the
die's order (R169, R171). -/
def doneHsave (s : State) (w : Wait) : Option State :=
  let slot := w.vals.headD 0
  let x := s.helper slot
  let k := spKey s.iss.core (pOff (w.vals.getD 1 0))
  if !x.inUpcall then some s
  else if s.mine.longOf ((helperSlot slot).getD 15) != 0 || s.writeHeld k 2048 then none
  else some (writeSquash s k (imageBytes x))

/-- R219. -/
def execHsave (a b : RF) (s : State) : Out :=
  .next (runEW (.hsave a b) s
    (fun s =>
      let x := s.helper (s.rdG a)
      if x.st != .upcall || !x.replay.isEmpty then some (s.tIllegal 7) else (imageCheck s (s.rdG b) 1).or (imageWatch s (s.rdG b) 1))
    (fun s => (s, s.newWait (.hsave a b) [s.rdG a, s.rdG b] none)) doneHsave)

/-- The bytes of the image at a pointer as the issuer sees them. -/
def imageAt (s : State) (p : Word) : List Byte :=
  s.readOwn ((List.range 2048).map fun i => spKey s.iss.core (pOff p + i))

/-- R220: the refusals of an image. -/
def imageRefused (s : State) (bs : List Byte) : Option Trap :=
  if !widfOk (imgWord bs 1616) || (imgWord bs 1624).toNat / 2 ^ 17 != 0 then some (s.tObj 0xFFFF 4)
  else if (imgWord bs 1600).extractLsb' 0 3 != 0 then some (s.tAddr (imgWord bs 1600))
  else none

/-- The slot's whole context replaced; the slot stays in UPCALL (R220). -/
def loadImage (x : Ctx) (bs : List Byte) : Ctx :=
  { x with a := archOf bs, inv := invOf bs, hold := holdOf bs, stopBy := none, skipStop := false, frozeBy := none, chunk := none, dfault := none }

/-- R220. -/
def execHload (a b : RF) (s : State) : Out :=
  .next (runE (.hload a b) s true
    (fun s =>
      let x := s.helper (s.rdG a)
      if x.st != .upcall || !x.recorded || !x.replay.isEmpty then some (s.tIllegal 7)
      else (imageCheck s (s.rdG b) 0).or ((imageRefused s (imageAt s (s.rdG b))).or (imageWatch s (s.rdG b) 0))) noHold
    fun s =>
      let bs := imageAt s (s.rdG b)
      match helperSlot (s.rdG a) with
      | some n => (s.modCtx s.iss.core n fun x => loadImage x bs).advance
      | none => s.advance)

/-- R221, R339: the slot issues again in the following rotation, its replay set first. -/
def resumeCtx (x : Ctx) : Ctx :=
  match x.st with
  | .upcall => { x with st := .ready, upc := none, recorded := false, later := true, replaying := x.mustReplay, skipStop := true }
  | .hupcall => { x with st := .handler, upc := none, recorded := false, later := true, replaying := x.mustReplay, skipStop := true }
  | _ => x

/-- R221; R138: a slot that would resume at a place from which nothing is fetched takes ADDR here, reporting its PC. -/
def execHresume (a : RF) (s : State) : Out :=
  .next (runE (.hresume a) s true
    (fun s =>
      let x := s.helper (s.rdG a)
      if !(x.st == .upcall || x.st == .hupcall) || !x.recorded then some (s.tIllegal 7)
      else if !s.fetchOk x.a.pc then some (s.tAddr x.a.pc) else none) noHold
    fun s =>
      match helperSlot (s.rdG a) with
      | some n => (s.modCtx s.iss.core n resumeCtx).advance
      | none => s.advance)

end Sys2Proof.Machine
end

