-- ==== Sys2Proof/Machine/System.lean ====
section
/-! DEFINITION. System instructions (R222-R231). -/

namespace Sys2Proof.Machine

/-- A trap raised by an instruction that completes its bundle: the held PC is NextPC (R223, R226). -/
def trapAfter (s : State) (cause : BitVec 8) (i0 : Word) : State :=
  let s := s.advance
  { deliver s s.iss.core s.iss.slot
      { cause := cause, info0 := i0, info1 := 0, pc := s.me.a.pc, fpc := s.iss.pc, aux := 0, aux2 := 0, wonly := false, dfr := false } with
    iss := { s.iss with fate := .entered } }

/-- R223: SERVICE. -/
def execTrap (a : RF) (s : State) : Out :=
  .next (runE (.trap a) s true (fun _ => none) (holdBusy cSERVICE) fun s => trapAfter s cSERVICE (s.rdG a))

/-- R224, R343. -/
def execEret (s : State) : Out :=
  .next (runE .eret s false
    (fun s => if s.fetchOk s.mine.r.trapPc then none else some (s.tAddr s.mine.r.trapPc)) noHold retTrap)

/-- R225, R99: waits for every long operation of the handler that is older than its bundle. A long A word of the bundle itself returns
into the bank afterwards, which the spec leaves open (DESIGN CHOICE, log 80). -/
def execHret (s : State) : Out :=
  .next (runE .hret s false (fun _ => none)
    (fun s => if s.oldLong.any (·.byHandler) then some false else none) retHandler)

/-- R227, R347. -/
def execUpret (s : State) : Out :=
  .next (runE .upret s false
    (fun s => if s.fetchOk s.mine.r.upcPc then none else some (s.tAddr s.mine.r.upcPc)) noHold retUpcall)

/-- R226: BRK with INFO0 = 0. -/
def execBrk (s : State) : Out :=
  .next (runE .brk s true (fun _ => none) (holdBusy cBRK) fun s => trapAfter s cBRK 0)

/-- R228. -/
def execTmark (a : RF) (s : State) : Out :=
  .next (runC (.tmark a) s fun s => .ok (s.traceUser s.iss.core s.iss.slot (s.rdG a)))

/-- R229. -/
def execCnt (a : RF) (s : State) : Out := .next (runC (.cnt a) s fun s => .ok (s.wrG a (s.mine.rot.setWidth 64)))

/-- R230: ADDR by R136 and R151, then PAGE where this die translates, once no migration of the page holds the access (R153). -/
def pshareCheck (s : State) (p : Word) : Option Trap :=
  let q := s.res p
  if addrBad p 0 1 || pSpc p = 0 || pSpc p = 3 then some (s.tAddr p)
  else if s.ownHeld q 1 then some heldRead
  else if pSpc q = 2 || s.ownDie q then
    match xlateFor s (dieOf s.iss.core) (pSpc q = 2) s.tenant (pOff q) 0 s.me.priv false with
    | .fault c => some (mkTrap cPAGE p (faultWord c 0))
    | .ok _ _ => none
  else none

/-- R230, R151: the update is performed at the atomizer after the commit. -/
def execPshare (a b : RF) (s : State) : Out :=
  .next (runE (.pshare a b) s true (fun s => pshareCheck s (s.rdG b)) holdLong fun s =>
    let p := s.rdG b
    let q := s.res p
    let body := Body.pshare q
    let l := s.newLong s.nextId (s.dstG a) .word
    let s' := s.send (s.request s.iss.core s.iss.slot false (destOf q) false true body (some p))
    (s'.addLong { l with inChunk := false, body := some body, given := some p }).advance)

/-- R231: the core leaves issue at the first boundary with no long operation outstanding. -/
def execHalt (s : State) : Out :=
  .next (runE .halt s true (fun _ => none) noHold fun s => stopCore s.advance s.iss.core)

end Sys2Proof.Machine
end

