-- ==== Sys2Proof/Machine/KeyMap.lean ====
section
/-! DEFINITION. The key map (R261-R279). -/

namespace Sys2Proof.Machine

/-! ## State and lookup -/

/-- Slots: COUNT + 1, none while unconfigured (R261). -/
def KeyMap.slots (m : KeyMap) : Nat := if m.sizelog = 0 then 0 else m.count.toNat + 1

/-- Entries in use (INUSE). -/
def KeyMap.inUse (m : KeyMap) : Nat := m.exact_.length + m.wins.length

/-- A key, its prefix and its block (R263). -/
def keyOf (x : Word) : BitVec 56 := x.extractLsb' 0 56
def keyPre (k : BitVec 56) : W32 := k.extractLsb' 24 32
def keyBlock (k : BitVec 56) : BitVec 24 := k.extractLsb' 0 24

/-- States of a window position. -/
def posInvalid : BitVec 2 := 0
def posBusy : BitVec 2 := 1
def posValid : BitVec 2 := 2

/-- Lookup statuses (R265). -/
def stMISS : Nat := 0
def stHIT : Nat := 1
def stBUSY : Nat := 2
def stGAP : Nat := 3

/-- The position that a block maps to, and what it holds. -/
def KWindow.posOf (w : KWindow) (b : BitVec 24) : Nat := b.toNat % w.pos.length
def KWindow.at_ (w : KWindow) (j : Nat) : KPos := w.pos.getD j { tag := 0, st := 0, pin := 0 }

/-- R264: status and slot of a key. -/
def KeyMap.lookup (m : KeyMap) (k : BitVec 56) : Nat × Nat :=
  match m.exact_.find? (·.key == k) with
  | some e => (if e.valid then stHIT else stBUSY, e.slot)
  | none =>
    match m.wins.find? (·.prefix32 == keyPre k) with
    | none => (stMISS, 0)
    | some w =>
      let j := w.posOf (keyBlock k)
      let p := w.at_ j
      let s := w.base + j
      if p.st != posInvalid && p.tag == keyBlock k then (if p.st == posValid then stHIT else stBUSY, s)
      else
        let d := (keyBlock k - w.head - 1).toNat
        if d = 0 then (stMISS, s) else if d < 2 ^ 23 then (stGAP, s) else (stMISS, s)

/-- The block is older than the window: MISS, and not the next block. -/
def KWindow.older (w : KWindow) (b : BitVec 24) : Bool := 2 ^ 23 ≤ (b - w.head - 1).toNat

/-- A status word, and a failure word (R265). -/
def kStatus (st slot : Nat) : Word := BitVec.ofNat 64 (st * 2 ^ 62 + slot % 2 ^ 12)
def kFail (st slot reason : Nat) : Word := BitVec.ofNat 64 (st * 2 ^ 62 + reason * 2 ^ 56 + slot % 2 ^ 12)

/-- A slot is bound to an EXACT entry or a window position (R263). -/
def KeyMap.bound (m : KeyMap) (slot : Nat) : Bool :=
  m.exact_.any (·.slot == slot) || m.wins.any fun w => w.base ≤ slot && slot < w.base + w.pos.length

/-- Changes one position of the window of a prefix. -/
def KeyMap.modPos (m : KeyMap) (p : W32) (j : Nat) (f : KPos → KPos) : KeyMap :=
  { m with wins := m.wins.map fun w => if w.prefix32 == p then { w with pos := w.pos.set j (f (w.at_ j)) } else w }

/-- Changes the EXACT entry of a key. -/
def KeyMap.modExact (m : KeyMap) (k : BitVec 56) (f : KExact → KExact) : KeyMap :=
  { m with exact_ := m.exact_.map fun e => if e.key == k then f e else e }

/-! ## Operations: the map afterwards and the result word -/

/-- R269: claims a key, for a slot or (all ones) its window position. -/
def KeyMap.claim (m : KeyMap) (k : BitVec 56) (c : Word) : KeyMap × Word :=
  let l := m.lookup k
  let fail := fun (r : Nat) => (m, kFail l.1 l.2 r)
  if c = BitVec.allOnes 64 then
    match m.wins.find? (·.prefix32 == keyPre k) with
    | none => fail 8
    | some w =>
      let j := w.posOf (keyBlock k)
      if l.1 = stHIT || l.1 = stBUSY then fail 1
      else if l.1 = stGAP then fail 10
      else if w.older (keyBlock k) then fail 9
      else if (w.at_ j).pin != 0 then (m, kFail stBUSY l.2 4)
      else (m.modPos (keyPre k) j fun _ => { tag := keyBlock k, st := posBusy, pin := 0 }, 0)
  else if m.exact_.any (·.key == k) then fail 1
  else if m.slots ≤ c.toNat then fail 7
  else if m.bound c.toNat then fail 2
  else if 1024 ≤ m.inUse then fail 3
  else ({ m with exact_ := m.exact_ ++ [{ key := k, slot := c.toNat, valid := false, pin := 0 }] }, 0)

/-- R270: BUSY becomes VALID; a window's head becomes the block. -/
def KeyMap.ready (m : KeyMap) (k : BitVec 56) : KeyMap :=
  if (m.lookup k).1 ≠ stBUSY then m
  else if m.exact_.any (·.key == k) then m.modExact k fun e => { e with valid := true }
  else { m with wins := m.wins.map fun w =>
    if w.prefix32 == keyPre k then
      let j := w.posOf (keyBlock k)
      { w with head := keyBlock k, pos := w.pos.set j { w.at_ j with st := posValid } }
    else w }

/-- R272: removes an EXACT entry. -/
def KeyMap.unbind (m : KeyMap) (k : BitVec 56) : KeyMap × Word :=
  let l := m.lookup k
  let fail := fun (r : Nat) => (m, kFail l.1 l.2 r)
  if l.1 = stMISS || l.1 = stGAP then fail 6
  else match m.exact_.find? (·.key == k) with
    | none => fail 8
    | some e =>
      if l.1 = stBUSY then fail 5
      else if e.pin != 0 then fail 4
      else ({ m with exact_ := m.exact_.filter (·.key != k) }, 0)

/-- The pin count of the entry or position that a key resolves to. -/
def KeyMap.pinOf (m : KeyMap) (k : BitVec 56) : Nat :=
  match m.exact_.find? (·.key == k) with
  | some e => e.pin
  | none => match m.wins.find? (·.prefix32 == keyPre k) with
    | some w => (w.at_ (w.posOf (keyBlock k))).pin
    | none => 0

/-- The map with that pin count set. -/
def KeyMap.setPin (m : KeyMap) (k : BitVec 56) (n : Nat) : KeyMap :=
  if m.exact_.any (·.key == k) then m.modExact k fun e => { e with pin := n }
  else match m.wins.find? (·.prefix32 == keyPre k) with
    | some w => m.modPos (keyPre k) (w.posOf (keyBlock k)) fun p => { p with pin := n }
    | none => m

/-- R273: the key resolves to an entry. -/
def KeyMap.bindsKey (m : KeyMap) (k : BitVec 56) : Bool := (m.lookup k).1 = stHIT || (m.lookup k).1 = stBUSY

/-- R273: adds a pin below 15. -/
def KeyMap.pin (m : KeyMap) (k : BitVec 56) : KeyMap × Word :=
  if m.bindsKey k then (m.setPin k (m.pinOf k + 1), 0) else (m, kFail (m.lookup k).1 (m.lookup k).2 6)

/-- R273: removes a pin. -/
def KeyMap.unpin (m : KeyMap) (k : BitVec 56) : KeyMap × Word :=
  if !m.bindsKey k then (m, kFail (m.lookup k).1 (m.lookup k).2 6)
  else if m.pinOf k = 0 then (m, kFail (m.lookup k).1 (m.lookup k).2 11)
  else (m.setPin k (m.pinOf k - 1), 0)

/-- R274: the first slot from HAND bound to a VALID EXACT entry with no pin, and the hand after it. -/
def KeyMap.scan (m : KeyMap) : KeyMap × Word :=
  let ord := (List.range m.slots).map fun i => (m.hand.toNat + i) % m.slots
  match ord.find? fun sl => m.exact_.any fun e => e.slot == sl && e.valid && e.pin == 0 with
  | some sl => ({ m with hand := BitVec.ofNat 12 ((sl + 1) % m.slots) }, kStatus stHIT sl)
  | none => (m, 0)

/-- R276: removes the entry that a selector names. -/
def KeyMap.inv (m : KeyMap) (x : Word) : KeyMap :=
  if x.getLsbD 63 then { m with wins := m.wins.filter (·.prefix32 != x.extractLsb' 0 32) }
  else { m with exact_ := m.exact_.filter (·.key != keyOf x) }

/-- R277: creates a window. -/
def KeyMap.window (m : KeyMap) (p : W32) (head : BitVec 24) (w base : Nat) : KeyMap × Word :=
  let taken := (List.range w).find? fun i => m.bound (base + i)
  if m.wins.any (·.prefix32 == p) then (m, kFail 0 base 1)
  else if m.slots < base + w then (m, kFail 0 base 7)
  else match taken with
    | some i => (m, kFail 0 (base + i) 2)
    | none =>
      if 1024 ≤ m.inUse then (m, kFail 0 base 3)
      else ({ m with wins := m.wins ++ [{ prefix32 := p, base := base, head := head,
                                          pos := List.replicate w { tag := 0, st := 0, pin := 0 } }] }, 0)

/-- R278: a configuration, every entry removed. -/
def KeyMap.config (off : BitVec 14) (sizelog : BitVec 4) (count : BitVec 12) : KeyMap :=
  { offset := off, sizelog := sizelog, count := count, hand := 0, exact_ := [], wins := [] }

/-- R278: an area whose end passes offset 0x3_FFFF. -/
def areaBad (off sizelog count : Nat) : Bool := 2 ^ 18 < 16 * off + (count + 1) * 2 ^ sizelog

/-- The offset of a slot (R261). -/
def KeyMap.slotOff (m : KeyMap) (slot : Nat) : Nat := 16 * m.offset.toNat + slot * 2 ^ m.sizelog.toNat

/-! ## The instructions -/

/-- The issuing core with its key map changed. -/
def State.setKm (s : State) (m : KeyMap) : State := s.modMine fun k => { k with km := m }

/-- A key-map operation after the commit, with a result register (R266). -/
def kmOp (i : Instr) (s : State) (a : RF) (f : State → KeyMap → KeyMap × Word) : State :=
  runE i s true (fun _ => none) noHold fun s =>
    let r := f s s.mine.km
    ((s.setKm r.1).wrG a r.2).advance

/-- The count of `klook` and `kload` by status (R404). -/
def State.countLook (s : State) (st : Nat) : State := s.countCtx s.iss.core s.iss.slot (if st = stHIT then 15 else 16)

/-- R268. -/
def execKlook (a b : RF) (s : State) : Out :=
  .next (runC (.klook a b) s fun s =>
    let l := s.mine.km.lookup (keyOf (s.rdG b))
    .ok ((s.countLook l.1).wrG a (kStatus l.1 l.2)))

/-- R269. -/
def execKclaim (a b c : RF) (s : State) : Out :=
  .next (kmOp (.kclaim a b c) s a fun s m => m.claim (keyOf (s.rdG b)) (s.rdG c))

/-- R270: after the commit. -/
def kreadyOp (x : Word) (s : State) : State := (s.setKm (s.mine.km.ready (keyOf x))).advance

/-- R270, R188. -/
def execKready (a : RF) (s : State) : Out :=
  .next (runR (.kready a) s true (fun _ => none) holdRelease noEntry (kreadyOp (s.rdG a)))

/-- R271: the key no longer resolves to BUSY; the status word is written. -/
def doneKwait (a : RF) (s : State) (w : Wait) : Option State :=
  let l := s.mine.km.lookup (keyOf (w.vals.headD 0))
  if l.1 = stBUSY then none else some (s.wrG a (kStatus l.1 l.2))

/-- R271. -/
def execKwait (a b c : RF) (s : State) : Out :=
  .next (runW (.kwait a b c) s (fun _ => none)
    (fun s => s.newWait (.kwait a b c) [s.rdG b] (limitOf (s.rdG c))) (doneKwait a))

/-- R272. -/
def execKunbind (a b : RF) (s : State) : Out := .next (kmOp (.kunbind a b) s a fun s m => m.unbind (keyOf (s.rdG b)))

/-- R273: at 15 pins PINOVF reports the key. -/
def execKpin (a b : RF) (s : State) : Out :=
  .next (runE (.kpin a b) s true
    (fun s =>
      let k := keyOf (s.rdG b)
      if s.mine.km.bindsKey k && 15 ≤ s.mine.km.pinOf k then some (mkTrap cPINOVF (k.setWidth 64) s.iss.bundle) else none)
    noHold fun s =>
      let r := s.mine.km.pin (keyOf (s.rdG b))
      ((s.setKm r.1).wrG a r.2).advance)

/-- R273. -/
def execKunpin (a b : RF) (s : State) : Out := .next (kmOp (.kunpin a b) s a fun s m => m.unpin (keyOf (s.rdG b)))

/-- R274. -/
def execKscan (a : RF) (s : State) : Out := .next (kmOp (.kscan a) s a fun _ m => m.scan)

/-- R276. -/
def execKinv (a : RF) (s : State) : Out :=
  .next (runE (.kinv a) s true (fun _ => none) noHold fun s => (s.setKm (s.mine.km.inv (s.rdG a))).advance)

/-- R277. -/
def execKwin (d a b : RF) (w1 : BitVec 6) (base : BitVec 12) (s : State) : Out :=
  .next (kmOp (.kwin d a b w1 base) s d fun s m =>
    m.window ((s.rdG a).extractLsb' 0 32) ((s.rdG b).extractLsb' 0 24) (w1.toNat + 1) base.toNat)

/-- R278: ADDR for an area beyond the scratchpad. -/
def areaTrap (s : State) (off sizelog count : Nat) : Option Trap :=
  if areaBad off sizelog count then some (s.tAddr (Config.areaPtr off sizelog count)) else none

/-- R278. -/
def execKcfg (sz : BitVec 4) (cnt1 : BitVec 12) (off : BitVec 18) (s : State) : Out :=
  .next (runE (.kcfg sz cnt1 off) s true (fun s => areaTrap s (off.toNat / 16) sz.toNat cnt1.toNat) noHold fun s =>
    (s.setKm (KeyMap.config (off.extractLsb' 4 14) sz cnt1)).advance)

/-- R275: KMISS of a miss, ADDR for a handler that cannot be fetched, ILLEGAL inside a handler (R53). -/
def keyMiss (s : State) (a : RF) (key : Word) (st slot : Nat) : Trap :=
  if s.mine.holds s.iss.slot then s.tIllegal 7
  else if !s.fetchOk s.mine.r.kmHandler then s.tAddr s.mine.r.kmHandler
  else { cause := cKMISS, i0 := key, i1 := 0, aux := a.setWidth 64, aux2 := kStatus st slot }

/-- R275: the offset of a `kload` is outside its slot. -/
def kloadBad (m : KeyMap) (o : Nat) : Bool := m.sizelog = 0 || o % 8 ≠ 0 || 2 ^ m.sizelog.toNat < o + 8

/-- R275: a hit reads 8 bytes of the slot as a near load. The look counts by what it finds, whatever trap follows it (R404). -/
def kloadBody (a b c : RF) (s : State) : Res :=
  let m := s.mine.km
  let o := (s.rdG c).toNat
  if kloadBad m o then .trap (s.tAddr (s.rdG c))
  else
    let l := m.lookup (keyOf (s.rdG b))
    if l.1 ≠ stHIT then .fault (s.countLook l.1) (keyMiss s a (s.rdG b) l.1 l.2)
    else
      let at_ := m.slotOff l.2 + o
      let q : Word := (0 : BitVec 10) ++ (0x3FF : BitVec 10) ++ (0xFFF : BitVec 12) ++ BitVec.ofNat 32 (at_ % 2 ^ 18)
      match (s.check q 8 0 8).or (s.watch q 8 0) with
      | some t => .fault (s.countLook stHIT) t
      | none =>
        let ks := (List.range 8).map fun i => spKey s.iss.core (at_ + i)
        let v := leBytes (s.readOwn ks) 0 8
        let s := (s.countLook stHIT).countCtx s.iss.core s.iss.slot 10
        .ok ((s.modChunk fun ch => { ch with rsig := ch.rsig ++ linesOf ks }).wrG a (BitVec.ofNat 64 v))

/-- R275. -/
def execKload (a b c : RF) (s : State) : Out := .next (runC (.kload a b c) s (kloadBody a b c))

end Sys2Proof.Machine
end

