-- ==== Sys2Proof/Machine/ControlRegs.lean ====
section
/-! DEFINITION. Control registers: values, writable fields, writes with an effect of their own (R90-R92,
R232, R233), and the table's steps that are such writes. -/

namespace Sys2Proof.Machine

/-! ## Values -/

/-- The state codes of R51. -/
def stateCode : SlotState → Nat
  | .vacant => 0 | .ready => 1 | .parked => 2 | .waiting => 3 | .handler => 4 | .bankwait => 5 | .upcall => 6
  | .frozen => 7 | .departing => 8 | .hparked => 9 | .hwaiting => 10 | .hupcall => 11

/-- CTX.STAT as a context reads it (R51). -/
def ctxStat (k : Core) (me : SlotNo) : Word :=
  BitVec.ofNat 64 ((allSlots.map fun n =>
    (if n = me then (if k.holds n then 4 else 1) else stateCode (k.ctx n).st) * 2 ^ (4 * n.toNat)).sum)

/-- KM.CFG (R261). -/
def kmCfgWord (m : KeyMap) : Word :=
  BitVec.ofNat 64 (m.inUse % 2 ^ 11 * 2 ^ 46 + m.hand.toNat * 2 ^ 34 + m.count.toNat * 2 ^ 22 + m.sizelog.toNat * 2 ^ 18 +
    m.offset.toNat * 2 ^ 4)

/-- UPC.BASE (R344). -/
def upcBaseWord (r : CoreRegs) : Word :=
  BitVec.ofNat 64 ((if r.upcWonly then 2 ^ 29 else 0) + (if r.upcMask then 2 ^ 28 else 0) +
    ((helperSlots.filter fun n => r.upcPend.contains n).map fun n => 2 ^ (17 + n.toNat)).sum + r.upcBase.toNat * 2 ^ 6 +
    if r.upcEn then 1 else 0)

/-- CTX.ID of the issuing context (R50). -/
def ctxId (s : State) : Word :=
  BitVec.ofNat 64 (s.tenant.toNat * 2 ^ 26 + s.devId.toNat * 2 ^ 16 + s.iss.core.toNat * 2 ^ 4 + s.iss.slot.toNat)

/-- The value of a control register as the issuing context reads it (R90). -/
def crRead (s : State) (n : Nat) : Word :=
  let k := s.mine; let r := k.r; let a := s.me.a
  if n = 0 then ctxId s
  else if n = 1 then a.ltag.setWidth 64
  else if n = 2 then ctxStat k s.iss.slot
  else if n = 3 then a.wid
  else if n = 4 then a.widf
  else if n = 5 then a.fpf.setWidth 64
  else if n = 6 then BitVec.ofNat 64 (k.sched.deque.length * 2 ^ 32 + r.dqCount.toNat)
  else if 8 ≤ n && n ≤ 15 then (vget a.pipe (n - 8) 0).setWidth 64
  else if n = 0x10 then kmCfgWord k.km
  else if n = 0x11 then r.kmHandler
  else if n = 0x18 then r.upcEntry
  else if n = 0x19 then upcBaseWord r
  else if n = 0x1A then r.upcPc
  else if n = 0x20 then s.devId.setWidth 64
  else if n = 0x21 then (s.die (dieOf s.iss.core)).svc.setWidth 64
  else if 0x28 ≤ n && n ≤ 0x2B then vget r.cntSel (n - 0x28) 0
  else if 0x2C ≤ n && n ≤ 0x2F then vget r.cntVal (n - 0x2C) 0
  else if n = 0x40 then r.qwgt
  else if n = 0x41 then r.slotOwn.setWidth 64
  else if n = 0x800 then r.trapCause
  else if n = 0x801 then r.trapPc
  else if n = 0x802 then r.trapInfo0
  else if n = 0x803 then r.trapInfo1
  else if n = 0x808 then r.otBase
  else if n = 0x809 then (s.half (halfOf s.iss.core)).wgt.setWidth 64
  else if 0x810 ≤ n && n ≤ 0x817 then vget r.protBase (n - 0x810) 0
  else if 0x818 ≤ n && n ≤ 0x81F then vget r.protSize (n - 0x818) 0
  else if n = 0x820 then r.trcCfg
  else if n = 0x828 then r.dbgBp
  else r.dbgWp

/-! ## Writable fields -/

/-- Bits hi:lo. -/
def bits (hi lo : Nat) : Word := BitVec.ofNat 64 ((2 ^ (hi - lo + 1) - 1) * 2 ^ lo)

/-- The bits of a register that a mode may write (R90 and the layouts). -/
def crMask (n : Nat) (priv : Bool) : Word :=
  let p := fun (w : Word) => if priv then w else 0
  if n = 1 then p (bits 15 0)
  else if n = 3 then p (bits 63 0)
  else if n = 4 then p (bits 38 0)
  else if n = 5 then bits 5 0
  else if n = 6 then bits 31 0
  else if 8 ≤ n && n ≤ 15 then p (bits 15 0)
  else if n = 0x10 then p (bits 45 4)
  else if n = 0x11 then bits 63 0
  else if n = 0x18 || n = 0x1A then bits 63 3
  else if n = 0x19 then bits 17 6 ||| bits 0 0
  else if 0x28 ≤ n && n ≤ 0x2B then bits 21 20 ||| bits 18 8 ||| bits 7 0
  else if 0x2C ≤ n && n ≤ 0x2F then bits 63 0
  else if n = 0x40 then p (bits 63 0)
  else if n = 0x41 then p (bits 19 0)
  else if n = 0x800 then p (bits 63 62 ||| bits 14 14)
  else if 0x801 ≤ n && n ≤ 0x803 then p (bits 63 0)
  else if n = 0x808 then p (bits 63 46 ||| bits 38 6)
  else if n = 0x809 then p (bits 31 0)
  else if 0x810 ≤ n && n ≤ 0x817 then p (bits 63 51 ||| bits 17 6)
  else if 0x818 ≤ n && n ≤ 0x81F then p (bits 18 0)
  else if n = 0x820 then p (bits 31 20 ||| bits 18 8 ||| bits 6 0)
  else if n = 0x828 then p (bits 63 56 ||| bits 28 6)
  else if n = 0x829 then p (bits 59 56 ||| bits 28 6)
  else 0

/-! ## Writes with an effect of their own -/

/-- R67: a write of QWGT sets every deficit counter to 0. -/
def setQwgt (s : State) (c : CoreId) (x : Word) : State :=
  s.modCore c fun k => { k with r := { k.r with qwgt := x }, sched := { k.sched with dq := Vector.replicate 4 0 } }

/-- R66: the owner fields of occupied slots keep their values. -/
def setSlotOwn (s : State) (c : CoreId) (x : Word) : State :=
  s.modCore c fun k =>
    let own := (helperSlots.map fun n =>
      (if (k.ctx n).st == .vacant then x.toNat / 4 ^ (n.toNat - 1) % 4 else ownerQ k.r.slotOwn n.toNat) * 4 ^ (n.toNat - 1)).sum
    { k with r := { k.r with slotOwn := BitVec.ofNat 20 own } }

/-- R261: a write that changes OFFSET, SIZELOG or COUNT configures anew; HAND keeps within the slots. -/
def setKmCfg (m : KeyMap) (x : Word) : KeyMap :=
  let off : BitVec 14 := x.extractLsb' 4 14
  let sz : BitVec 4 := x.extractLsb' 18 4
  let cnt : BitVec 12 := x.extractLsb' 22 12
  let hand : BitVec 12 := x.extractLsb' 34 12
  if off == m.offset && sz == m.sizelog && cnt == m.count then
    if hand.toNat < m.slots then { m with hand := hand } else m
  else
    let m' := KeyMap.config off sz cnt
    if hand.toNat < m'.slots then { m' with hand := hand } else m'

/-- R261, R278: the trap of such a write: ILLEGAL for a SIZELOG of 1-3 or 15, ADDR for the area. -/
def kmCfgTrap (s : State) (x : Word) : Option Trap :=
  let m := s.mine.km
  let off := (x.extractLsb' 4 14).toNat
  let sz := (x.extractLsb' 18 4).toNat
  let cnt := (x.extractLsb' 22 12).toNat
  if off = m.offset.toNat && sz = m.sizelog.toNat && cnt = m.count.toNat then none
  else if sz = 0 then none
  else if sz < 4 || 14 < sz then some (s.tIllegal 2)
  else areaTrap s off sz cnt

/-- R317: a weight written 0 is held as 1; credits take the weights, the pointer returns to 0. -/
def setAccWgt (s : State) (c : CoreId) (x : Word) : State :=
  let w := (List.range 8).map fun i => max 1 (x.toNat / 16 ^ i % 16)
  let h := s.half (halfOf c)
  s.setHalf (halfOf c) { h with
    wgt := BitVec.ofNat 32 ((w.mapIdx fun i v => v * 16 ^ i).sum), cred := Vector.ofFn fun i => w.getD i.val 1, ptr := 0 }

/-- R341: the writable fields of TRAP.CAUSE. A WONLY mark that software writes belongs to the bundle at which `eret` goes on (R343,
R459). -/
def setTrapCause (s : State) (c : CoreId) (x : Word) : State :=
  s.modCore c fun k => { k with r := { k.r with
    trapCause := (k.r.trapCause &&& ~~~ crMask 0x800 true) ||| (x &&& crMask 0x800 true)
    trapMark := if x.getLsbD 14 then none else k.r.trapMark } }

/-- R455: the entry `e` of a debug table, unless it is disabled, has a nonzero reserved bit or ACTION 3. -/
def captureDbg (m : Mem) (d : BitVec 2) (x : Word) (wp : Bool) (e : Nat) : Option Dbg :=
  let k := dmKey d (x.toNat % 2 ^ 29 / 64 * 64 + 32 * e)
  let dw := fun i => BitVec.ofNat 64 (memNat m (k + 8 * i) 8)
  let rsv : Word := if wp then ~~~ (bits 5 0 ||| bits 19 17) else ~~~ bits 19 0
  let en : Dbg := { n := e, d0 := dw 0, d1 := dw 1, d2 := dw 2, d3 := dw 3 }
  if x.getLsbD (56 + e) && dw 3 &&& rsv == 0 && en.action != 3 then some en else none

/-- R455: a write of DBG.BP captures the enabled entries. -/
def setDbgBp (s : State) (c : CoreId) (x : Word) : State :=
  s.modCore c fun k => { k with r := { k.r with dbgBp := x }, bps := (List.range 8).filterMap (captureDbg s.mem (dieOf c) x false) }

/-- R455: a write of DBG.WP captures the enabled entries. -/
def setDbgWp (s : State) (c : CoreId) (x : Word) : State :=
  s.modCore c fun k => { k with r := { k.r with dbgWp := x }, wps := (List.range 4).filterMap (captureDbg s.mem (dieOf c) x true) }

/-- The registers of core scope of the issuing core changed. -/
def State.modR (s : State) (f : CoreRegs → CoreRegs) : State := s.modMine fun k => { k with r := f k.r }

/-- Writes a whole value into a control register. -/
def crWrite (s : State) (n : Nat) (x : Word) : State :=
  let c := s.iss.core
  let arch := fun (f : Arch → Arch) => s.modMe fun y => { y with a := f y.a }
  if n = 1 then arch fun a => { a with ltag := x.extractLsb' 0 16 }
  else if n = 3 then arch fun a => { a with wid := x }
  else if n = 4 then arch fun a => { a with widf := x }
  else if n = 5 then arch fun a => { a with fpf := x.extractLsb' 0 6 }
  else if n = 6 then s.modR fun r => { r with dqCount := x.extractLsb' 0 32 }
  else if 8 ≤ n && n ≤ 15 then arch fun a => { a with pipe := vset a.pipe (n - 8) (x.extractLsb' 0 16) }
  else if n = 0x10 then s.modMine fun k => { k with km := setKmCfg k.km x }
  else if n = 0x11 then s.modR fun r => { r with kmHandler := x }
  else if n = 0x18 then s.modR fun r => { r with upcEntry := x }
  else if n = 0x19 then s.modR fun r => { r with upcBase := x.extractLsb' 6 12, upcEn := x.getLsbD 0 }
  else if n = 0x1A then s.modR fun r => { r with upcPc := x }
  else if 0x28 ≤ n && n ≤ 0x2B then s.modR fun r => { r with cntSel := vset r.cntSel (n - 0x28) x }
  else if 0x2C ≤ n && n ≤ 0x2F then s.modR fun r => { r with cntVal := vset r.cntVal (n - 0x2C) x }
  else if n = 0x40 then setQwgt s c x
  else if n = 0x41 then setSlotOwn s c x
  else if n = 0x800 then setTrapCause s c x
  else if n = 0x801 then s.modR fun r => { r with trapPc := x }
  else if n = 0x802 then s.modR fun r => { r with trapInfo0 := x }
  else if n = 0x803 then s.modR fun r => { r with trapInfo1 := x }
  else if n = 0x808 then s.modR fun r => { r with otBase := x }
  else if n = 0x809 then setAccWgt s c x
  else if 0x810 ≤ n && n ≤ 0x817 then s.modR fun r => { r with protBase := vset r.protBase (n - 0x810) x }
  else if 0x818 ≤ n && n ≤ 0x81F then s.modR fun r => { r with protSize := vset r.protSize (n - 0x818) x }
  else if n = 0x820 then s.modR fun r => { r with trcCfg := x }
  else if n = 0x828 then setDbgBp s c x
  else if n = 0x829 then setDbgWp s c x
  else s

/-! ## The instructions -/

/-- PROT on a control register (R232, R336): the number and kind 6. -/
def crProt (n : BitVec 12) : Trap := mkTrap cPROT (n.setWidth 64) 6

/-- R232 item 2: a privileged number in user mode. -/
def crPriv (s : State) (n : BitVec 12) : Option Trap := if 0x800 ≤ n.toNat && !s.me.priv then some (crProt n) else none

/-- The value that a write leaves: the operation on the writable bits, the other bits as they are (R91). -/
def crMerge (op : Nat) (old x m : Word) : Word :=
  match op with
  | 0 => (old &&& ~~~m) ||| (x &&& m)
  | 1 => old ||| (x &&& m)
  | _ => old &&& ~~~(x &&& m)

/-- The traps of `crw`, `crs`, `crc` (R232), and those of a key-map configuration (R261). -/
def crWriteTrap (s : State) (op : Nat) (n : BitVec 12) (x : Word) : Option Trap :=
  (crPriv s n).or <|
  if crMask n.toNat s.me.priv = 0 then some (crProt n)
  else if n = 0x10 then kmCfgTrap s (crMerge op (crRead s n.toNat) x (crMask n.toNat s.me.priv))
  else none

/-- The effect of a write (R91). A `crs` or `crc` that does not name WONLY of TRAP.CAUSE leaves the mark as it is (R459). -/
def crStore (s : State) (op : Nat) (n : BitVec 12) (x : Word) : State :=
  let t := crWrite s n.toNat (crMerge op (crRead s n.toNat) x (crMask n.toNat s.me.priv))
  if n = 0x800 && op != 0 && !x.getLsbD 14 then t.modR fun r => { r with trapMark := s.mine.r.trapMark } else t

/-- R232, R233: a register of context scope is written inside the chunk, any other after its commit. -/
def crWriteOp (i : Instr) (op : Nat) (a : RF) (n : BitVec 12) (s : State) : State :=
  if endsChunk i then
    runE i s true (fun s => crWriteTrap s op n (s.rdG a)) noHold fun s => (crStore s op n (s.rdG a)).advance
  else
    runC i s fun s =>
      match crWriteTrap s op n (s.rdG a) with
      | some t => .trap t
      | none => .ok (crStore s op n (s.rdG a))

/-- R232. -/
def execCrr (a : RF) (n : BitVec 12) (s : State) : Out :=
  .next (runC (.crr a n) s fun s =>
    match crPriv s n with
    | some t => .trap t
    | none => .ok (s.wrG a (crRead s n.toNat)))

/-- R232. -/
def execCrw (a : RF) (n : BitVec 12) (s : State) : Out := .next (crWriteOp (.crw a n) 0 a n s)

/-- R232. -/
def execCrs (a : RF) (n : BitVec 12) (s : State) : Out := .next (crWriteOp (.crs a n) 1 a n s)

/-- R232. -/
def execCrc (a : RF) (n : BitVec 12) (s : State) : Out := .next (crWriteOp (.crc a n) 2 a n s)

/-! ## The table's steps that are writes -/

/-- QWGT_WRITE: R64, R67. -/
def execQwgtWrite (core : CoreId) (x : Word) (s : State) : Out := .next (setQwgt s core x)

/-- SLOT_OWN_WRITE: R66. -/
def execSlotOwnWrite (core : CoreId) (x : Word) (s : State) : Out := .next (setSlotOwn s core x)

/-- KM_CFG_WRITE: R261. A value whose SIZELOG or area R278 refuses changes nothing. -/
def execKmCfgWrite (core : CoreId) (x : Word) (s : State) : Out :=
  let sz := (x.extractLsb' 18 4).toNat
  let bad := sz != 0 && (sz < 4 || 14 < sz || areaBad (x.extractLsb' 4 14).toNat sz (x.extractLsb' 22 12).toNat)
  .next (if bad then s else s.modCore core fun k => { k with km := setKmCfg k.km x })

/-- ACC_WGT_WRITE: R317, R233. -/
def execAccWgtWrite (core : CoreId) (x : Word) (s : State) : Out := .next (setAccWgt s core x)

/-- TRAP_CAUSE_WRITE: R341, R342. -/
def execTrapCauseWrite (core : CoreId) (x : Word) (s : State) : Out := .next (setTrapCause s core x)

/-- DBG_BP_WRITE: R455. -/
def execDbgBpWrite (core : CoreId) (x : Word) (s : State) : Out :=
  .next (setDbgBp s core (x &&& crMask 0x828 true))

/-- DBG_WP_WRITE: R455. -/
def execDbgWpWrite (core : CoreId) (x : Word) (s : State) : Out :=
  .next (setDbgWp s core (x &&& crMask 0x829 true))

end Sys2Proof.Machine
end

