-- ==== Sys2Proof/Machine/LoadStore.lean ====
section
/-! DEFINITION. Loads and stores (R234-R244, R253). -/

namespace Sys2Proof.Machine

/-! ## Loads -/

/-- The own buffered bytes of an access at issue (R163). -/
def State.ownBytes (s : State) (ks : List Nat) : List (Option Byte) := ks.map s.me.bufAt

/-- The lines that a near load adds to the read signature (R162). -/
def State.addRead (s : State) (ks : List Nat) : State := s.modChunk fun ch => { ch with rsig := ch.rsig ++ linesOf ks }

/-- Starts a long load of n bytes at a pointer (R93, R174, R236). -/
def startLoad (s : State) (q : Word) (n : Nat) (dst : Dst) (conv : Conv) : State :=
  let r := s.res q
  let near := s.nearLoad r n
  let ks := s.byteKeys r n
  let body := Body.load [r] n
  let l := { s.newLong s.nextId dst conv with near := near, own := s.ownBytes ks, body := some body, given := some q }
  let s' := if near then s.addRead ks else s
  let s' := s'.countCtx s.iss.core s.iss.slot (if near then 10 else 11)
  let s' := s'.send (s.request s.iss.core s.iss.slot false (destOf r) (s.isTso r) true body (some q))
  s'.addLong l

/-- Goes on unless the watchpoints hit an access (R456: after the traps of items 1 to 5 of R76). -/
def watched (s : State) (q : Word) (n kind : Nat) (f : Unit → Res) : Res :=
  match s.watch q n kind with
  | some t => .trap t
  | none => f ()

/-- R237: the checks of a load, then its bytes at once in the issuer's scratchpad and long elsewhere. `wr`
writes bytes read at issue, or traps on them. -/
def loadAt (s : State) (q : Word) (n align : Nat) (dst : Dst) (conv : Conv) (wr : State → List Byte → Res) : Res :=
  match s.check q n 0 align with
  | some t => .trap t
  | none =>
    if s.ownSp (s.res q) then
      let ks := s.byteKeys (s.res q) n
      match wr s (s.readOwn ks) with
      | .ok s' => watched s q n 0 fun _ => .ok ((s'.addRead ks).countCtx s.iss.core s.iss.slot 10)
      | o => o
    else
      watched s q n 0 fun _ =>
        if !s.canLong then .hold true
        else if n = 0 then
          .ok (s.freshId.addLong { s.newLong s.nextId dst conv with val := some (convVal conv [] 0), due := some s.mine.cyc })
        else .ok (startLoad s q n dst conv)

/-- Bytes of a width code. -/
def widthOf (w : Nat) : Nat := 2 ^ w

/-- A scalar load into G[a], sign- or zero-extended. -/
def scalarLoad (s : State) (a : RF) (q : Word) (n : Nat) (zx : Bool) : Res :=
  let cv : Conv := if zx then .zx n else .sx n
  loadAt s q n n (s.dstG a) cv fun s bs => .ok (s.wrG a (BitVec.ofNat 64 (convVal cv bs 0)))

/-- The effective address of a displacement, or ADDR reporting the base (R234). -/
def withEA (s : State) (p : Word) (y : Int) (f : Word → Res) : Res :=
  match moveOff p y with
  | some q => f q
  | none => .trap (s.tAddr p)

/-- R237. -/
def execLd (w : BitVec 2) (a b : RF) (e : BitVec 12) (s : State) : Out :=
  .next (runC (.ld w a b e) s fun s => withEA s (s.rdG b) e.toInt fun q => scalarLoad s a q (widthOf w.toNat) false)

/-- R237. -/
def execLdn (w : BitVec 2) (a b : RF) (e : BitVec 12) (s : State) : Out :=
  .next (runC (.ldn w a b e) s fun s => withEA s (s.rdG b) e.toInt fun q => scalarLoad s a q (widthOf w.toNat) true)

/-- R238. -/
def execLdx (a b c : RF) (w : BitVec 3) (s : State) : Out :=
  .next (runC (.ldx a b c w) s fun s =>
    withEA s (s.rdG b) (s.rdG c).toInt fun q => scalarLoad s a q (widthOf (w.toNat % 4)) (4 ≤ w.toNat))

/-- R239. -/
def execVld (v : BitVec 4) (b : RF) (e : BitVec 12) (s : State) : Out :=
  .next (runC (.vld v b e) s fun s =>
    withEA s (s.rdG b) (64 * e.toInt) fun q =>
      loadAt s q 64 64 (.v v) .vec fun s bs => .ok (s.wrV v (BitVec.ofNat 512 (convVal .vec bs 0))))

/-! ## Stores -/

/-- Lines that a context's store buffer holds, entries reserved by an outstanding `vscat` included (R163,
R244). -/
def Ctx.bufLines (x : Ctx) : List Nat :=
  let ch := match x.chunk with | some c => c.buf | none => []
  let sc := (x.long.filter fun l => !l.cancelled).map (·.scat)
  linesOf ((ch ++ sc.flatten).map (·.keys)).flatten

/-- A store record of bytes at a pointer. -/
def State.storeRec (s : State) (q : Word) (bs : List Byte) : StoreRec :=
  let r := s.res q
  let ks := s.byteKeys r bs.length
  { ptr := r, given := q, bytes := s.cutBytes ks bs, keys := ks, near := s.near r, tso := s.isTso r, sc := false,
    phys := if s.near r then [] else s.physKeys r bs.length }

/-- The store buffer has room for the records (R164). -/
def Ctx.hasRoom (x : Ctx) (rs : List StoreRec) : Bool :=
  (linesOf (((rs.map (·.keys)).flatten) ++ x.bufLines.map (64 * ·))).length ≤ 32

/-- Records enter the store buffer and the write signature (R162, R163). -/
def State.buffer (s : State) (rs : List StoreRec) : State :=
  s.modChunk fun ch => { ch with
    buf := ch.buf ++ rs, wsig := ch.wsig ++ linesOf ((rs.filter (·.near)).map (·.keys)).flatten }

/-- A trap of a store of n bytes; PAGE follows on its translations. -/
def storeTrap (s : State) (q : Word) (n : Nat) (t : Trap) : Res :=
  if t.cause = cPAGE then .fault (s.touchOwn (s.res q) n 1) t else .trap t

/-- R237: the checks of a store, then its bytes into the store buffer. -/
def storeAt (s : State) (q : Word) (n align : Nat) (bs : List Byte) : Res :=
  match (s.check q n 1 align).or (s.watch q n 1) with
  | some t => storeTrap s q n t
  | none =>
    if n = 0 then .ok s
    else
      let r := s.storeRec q bs
      if !s.me.hasRoom [r] then .full else .ok ((s.touchOwn (s.res q) n 1).buffer [r])

/-- R237. -/
def execSt (w : BitVec 2) (a b : RF) (e : BitVec 12) (s : State) : Out :=
  .next (runC (.st w a b e) s fun s =>
    let n := widthOf w.toNat
    withEA s (s.rdG b) e.toInt fun q => storeAt s q n n (natBytes n (s.rdG a).toNat))

/-- R238. -/
def execStx (a b c : RF) (w : BitVec 2) (s : State) : Out :=
  .next (runC (.stx a b c w) s fun s =>
    let n := widthOf w.toNat
    withEA s (s.rdG b) (s.rdG c).toInt fun q => storeAt s q n n (natBytes n (s.rdG a).toNat))

/-- R239. -/
def execVst (v : BitVec 4) (b : RF) (e : BitVec 12) (s : State) : Out :=
  .next (runC (.vst v b e) s fun s =>
    withEA s (s.rdG b) (64 * e.toInt) fun q => storeAt s q 64 64 (natBytes 64 (s.rdV v).toNat))

/-! ## Formatted vectors -/

/-- Width in bits and format code (1-3, or 0 for integers) of a lane type (R300). -/
def laneBits (t : BitVec 3) : Nat := if t.toNat = 0 || t.toNat = 3 then 32 else if t.toNat ≤ 4 then 16 else 8

/-- The pattern of lane k. -/
def laneOf (t : BitVec 3) (v : VReg) (k : Nat) : Nat := v.toNat / 2 ^ (laneBits t * k) % 2 ^ laneBits t

/-- The exact value of a lane (R300). -/
def laneNum (t : BitVec 3) (x : Nat) : Num :=
  match t.toNat with
  | 0 => decodeFloat 3 x
  | 1 => decodeFloat 1 x
  | 2 => decodeFloat 2 x
  | 6 => Num.ofInt x
  | _ => Num.ofInt (toSigned (laneBits t) x)

/-- R240: the sizing of a formatted access: the trap, or its bytes. -/
def formSize (s : State) (p : Word) (n : Nat) (t : BitVec 3) : Except Trap Nat :=
  let f := pFmt p; let l := pBlg p
  if f = 0 || 27 ≤ f || !blgOk f l then .error (s.tFormat p)
  else if laneCount t < n then .error (s.tAddr p)
  else if isBlocked f then
    if n % 2 ^ l ≠ 0 then .error (s.tAddr p) else .ok (formBytes f l n)
  else if elemWidth f = 4 && n % 2 ≠ 0 then .error (s.tAddr p)
  else .ok (formBytes f l n)

/-- Goes on with the bytes of a formatted access. -/
def withForm (s : State) (p : Word) (n : Nat) (t : BitVec 3) (f : Nat → Res) : Res :=
  match formSize s p n t with
  | .ok nb => f nb
  | .error tr => .trap tr

/-- R241: item 6 of R235, then the decoded lanes. -/
def formWrite (v : BitVec 4) (p : Word) (n : Nat) (t : BitVec 3) (s : State) (bs : List Byte) : Res :=
  if zpAnyBad (pFmt p) (pBlg p) n bs then .trap (s.tFormat p)
  else .ok (s.wrV v (BitVec.ofNat 512 (convVal (.vform (pFmt p) (pBlg p) n t) bs 0)))

/-- R241. -/
def execVldf (v : BitVec 4) (b c : RF) (t : BitVec 3) (s : State) : Out :=
  .next (runC (.vldf v b c t) s fun s =>
    let p := s.rdG b
    let n := (s.rdG c).toNat
    withForm s p n t fun nb => loadAt s p nb 1 (.v v) (.vform (pFmt p) (pBlg p) n t) (formWrite v p n t))

/-- R242. -/
def execVstf (v : BitVec 4) (b c : RF) (m t : BitVec 3) (s : State) : Out :=
  .next (runC (.vstf v b c m t) s fun s =>
    let p := s.rdG b
    let n := (s.rdG c).toNat
    withForm s p n t fun nb =>
      let xs := (List.range n).map fun k => laneNum t (laneOf t (s.rdV v) k)
      let r := encodeElems (pFmt p) (pBlg p) m.toNat false xs
      match storeAt s p nb 1 r.1 with
      | .ok s' => .ok (s'.orFlags r.2)
      | o => o)

/-- R243: loads from the issuer's scratchpad and zeroes what it read, in one step. -/
def execVldt (v : BitVec 4) (b c : RF) (t : BitVec 3) (s : State) : Out :=
  .next (runC (.vldt v b c t) s fun s =>
    let p := s.rdG b
    let n := (s.rdG c).toNat
    withForm s p n t fun nb =>
      if addrBad p nb 1 || !s.ownSp (s.res p) then .trap (s.tAddr p)
      else
        match firstTrap [s.checkProt p nb 0, s.checkProt p nb 1, s.checkLock p nb 0, s.checkLock p nb 1] with
        | some tr => .trap tr
        | none =>
          let ks := s.byteKeys (s.res p) nb
          match formWrite v p n t s (s.readOwn ks) with
          | .ok s' =>
            match (s.watch p nb 0).or (s.watch p nb 1) with
            | some tr => .trap tr
            | none =>
              if nb = 0 then .ok s'
              else
                let r := s.storeRec p (List.replicate nb 0)
                if !s.me.hasRoom [r] then .full
                else .ok (((s'.addRead ks).countCtx s.iss.core s.iss.slot 10).buffer [r])
          | o => o)

/-! ## Gather and scatter -/

/-- The element addresses of R244, in order; none where one is not formed. -/
def elemPtrs (p : Word) (x : VReg) (w : Nat) : List (Option Word) :=
  (List.range 16).map fun k => moveOff p (toSigned 32 (laneOf 0 x k) * w)

/-- R235: the first trap of an item's check over the elements in order. -/
def overElems (qs : List Word) (f : Word → Option Trap) : Option Trap := qs.findSome? f

/-- R235: each item is checked over all elements before the next item; an address that is not formed reports the base p. -/
def elemChecks (s : State) (p : Word) (es : List (Option Word)) (w kind : Nat) : Option Trap :=
  let addr := fun (e : Option Word) => match e with
    | none => some (s.tAddr p)
    | some q => if addrBad q w w then some (s.tAddr q) else none
  let qs := es.filterMap id
  (es.findSome? addr).or <|
  (overElems qs fun q => s.checkProt q w kind).or <|
  (overElems qs fun q => s.checkLock q w kind).or <|
  (overElems qs fun q => s.checkPage q w kind).or <|
  overElems qs fun q => s.watch q w kind

/-- The translations of the elements of a scatter, in order, up to the first that faults (R235, R150). -/
def touchElems (s : State) (w : Nat) : List Word → State
  | [] => s
  | q :: t =>
    let u := s.touchOwn (s.res q) w 1
    if (s.checkPage q w 1).isSome then u else touchElems u w t

/-- R244: long; the result is written when all 16 elements have returned. DESIGN CHOICE (log 85): event 10 counts a gather with a near
element once, event 11 one that has none. -/
def execVgath (v : BitVec 4) (b : RF) (x : BitVec 4) (t : BitVec 3) (s : State) : Out :=
  .next (runC (.vgath v b x t) s fun s =>
    let w := laneBits t / 8
    let es := elemPtrs (s.rdG b) (s.rdV x) w
    let qs := es.filterMap id
    match elemChecks s (s.rdG b) es w 0 with
    | some tr => .trap tr
    | none =>
        if !s.canLong then .hold true
        else
          let rs := qs.map s.res
          let nearKs := ((rs.filter fun r => s.nearLoad r w).map fun r => s.byteKeys r w).flatten
          let ks := (rs.map fun r => s.byteKeys r w).flatten
          let l := { s.newLong s.nextId (.v v) (.lanes t) with near := !nearKs.isEmpty, own := s.ownBytes ks, given := some (s.rdG b) }
          let s' := (s.addRead nearKs).countCtx s.iss.core s.iss.slot (if nearKs.isEmpty then 11 else 10)
          if rs.all s.ownSp then
            .ok (s'.freshId.addLong { l with val := some (convVal (.lanes t) (s.readOwn ks) 0), due := some (s.mine.cyc + 24) })
          else
            let body := Body.load rs w
            let s' := s'.send (s.request s.iss.core s.iss.slot false (destOf (rs.headD 0)) (rs.any s.isTso) true body (some (s.rdG b)))
            .ok (s'.addLong { l with body := some body }))

/-- R244: long; the 16 element stores enter the buffer together at completion. DESIGN CHOICE (log 84): their near lines join the write
signature at issue, which R244 does not say. -/
def execVscat (v : BitVec 4) (b : RF) (x : BitVec 4) (t : BitVec 3) (s : State) : Out :=
  .next (runC (.vscat v b x t) s fun s =>
    let w := laneBits t / 8
    let es := elemPtrs (s.rdG b) (s.rdV x) w
    let qs := es.filterMap id
    match elemChecks s (s.rdG b) es w 1 with
    | some tr => if tr.cause = cPAGE then .fault (touchElems s w qs) tr else .trap tr
    | none =>
      let rs := qs.mapIdx fun k q => { s.storeRec q (natBytes w (laneOf t (s.rdV v) k)) with sc := true }
      if !s.me.hasRoom rs then .full
      else if !s.canLong then .hold true
      else
        let l := { s.newLong s.nextId .none .word with near := true, scat := rs, given := some (s.rdG b) }
        let s' := touchElems s w qs
        let s' := s'.modChunk fun ch => { ch with wsig := ch.wsig ++ linesOf ((rs.filter (·.near)).map (·.keys)).flatten }
        if qs.all fun q => s.ownSp (s.res q) then
          .ok (s'.freshId.addLong { l with val := some 0, due := some (s.mine.cyc + 24) })
        else
          let body := Body.probe (qs.map s.res) w
          let s' := s'.send (s.request s.iss.core s.iss.slot false (destOf (rs.headD (s.storeRec 0 [])).ptr) false true body
            (some (s.rdG b)))
          .ok (s'.addLong { l with body := some body }))

end Sys2Proof.Machine
end

