-- ==== Sys2Proof/Machine/Atomics.lean ====
section
/-! DEFINITION. Atomics, `fence` and inbox messages (R245-R252). -/

namespace Sys2Proof.Machine

/-! ## Sending -/

/-- Bytes of an atomic's word. -/
def amoBytes (w : BitVec 1) : Nat := if w = 1 then 8 else 4

/-- The bytes of an atomic. -/
def atomicBytes : Body → Nat
  | .amo _ _ w _ | .acas _ _ _ w => amoBytes w
  | _ => 4

/-- Sends an operation of the issuing context on a resolved pointer; `given` is the pointer as the program gave it. An atomic on
own-die memory is translated at issue (R148). -/
def sendOp (s : State) (ord ret : Bool) (q : Word) (body : Body) (given : Option Word) : State :=
  s.send { s.request s.iss.core s.iss.slot ord (destOf q) (s.isTso q) ret body given with
    phys := match body with | .amo _ _ _ _ | .acas _ _ _ _ => s.physKeys q (atomicBytes body) | _ => [] }

/-- Sends a long operation of the issuing context on a resolved pointer; its reply is one word. -/
def startOp (s : State) (ord : Bool) (q : Word) (body : Body) (dst : Dst) (p : Word) : State :=
  let l := s.newLong s.nextId dst .word
  (sendOp s ord true q body (some p)).addLong { l with inChunk := false, body := some body, ord := ord, given := some p }

/-! ## Atomics -/

/-- R245, R122: the new word of n bytes, for old value m and operand x. -/
def amoNew (op n m x : Nat) : Nat :=
  let sm := toSigned (8 * n) m
  let sx := toSigned (8 * n) x
  match op with
  | 0 => (m + x) % 2 ^ (8 * n)
  | 1 => rne32 ((fp32 m).sum2 (fp32 x))
  | 2 => if sm ≤ sx then m else x
  | 3 => if sm ≤ sx then x else m
  | 4 => if m ≤ x then m else x
  | 5 => if m ≤ x then x else m
  | 6 => Nat.land m x
  | 7 => Nat.lor m x
  | 8 => Nat.xor m x
  | _ => x

/-- R245: the result of an atomic, by its old value. -/
def amoResult (op n m : Nat) : Word :=
  if n = 4 && (op = 0 || op = 2 || op = 3) then BitVec.ofInt 64 (toSigned 32 m) else BitVec.ofNat 64 m

/-- The operand cut to the width. -/
def cutTo (n : Nat) (x : Word) : Nat := x.toNat % 2 ^ (8 * n)

/-- An indivisible read and write of n bytes at a key (R169, R180); none writes nothing. -/
def atomicAt (s : State) (k n : Nat) (f : Nat → Option Nat) : State :=
  match f (memNat s.mem k n) with
  | some v => writeSquash s k (natBytes n v)
  | none => s

/-- R245: the checks of an atomic; SPC 3 takes PROT (R180). -/
def atomicCheck (s : State) (p : Word) (n : Nat) : Option Trap :=
  if addrBad p n n then some (s.tAddr p)
  else if pSpc p = 3 then some (tProt p 2)
  else (s.check p n 2 n).or (s.watch p n 2)

/-- The key of an access of the issuer's own scratchpad. -/
def State.ownKey (s : State) (p : Word) : Nat := spKey s.iss.core (pOff p)

/-- The frame of `amo` and `acas`: local ones in the issuer's turn, others long (R246, R247). -/
def amoRun (i : Instr) (s : State) (a : RF) (p : Word) (n : Nat) (f : Nat → Option Nat) (res : Nat → Word)
    (body : Word → Body) : State :=
  runE i (walkPage i s p n 2 (atomicCheck s p n)) true (fun s => atomicCheck s p n)
    (fun s => if s.ownSp (s.res p) then s.holdWrite (s.ownKey p) n else holdLong s)
    fun s =>
      let q := s.res p
      if s.ownSp q then
        let m := memNat s.mem (s.ownKey p) n
        ((atomicAt s (s.ownKey p) n f).wrG a (res m)).advance
      else (startOp (s.touchOwn q n 2) true q (body q) (s.dstG a) p).advance

/-- R246. -/
def execAmo (a b c : RF) (w : BitVec 1) (op : BitVec 4) (s : State) : Out :=
  let n := amoBytes w
  let x := s.rdG c
  .next (amoRun (.amo a b c w op) s a (s.rdG b) n (fun m => some (amoNew op.toNat n m (cutTo n x)))
    (amoResult op.toNat n) fun q => .amo q x w op)

/-- The new word of `acas`, if the comparand matches. -/
def casNew (n m : Nat) (cmp new : Word) : Option Nat := if m = cutTo n cmp then some (cutTo n new) else none

/-- R246. -/
def execAcas (a b c : RF) (w : BitVec 1) (s : State) : Out :=
  let n := amoBytes w
  let cmp := s.rdG a
  let new := s.rdG c
  .next (amoRun (.acas a b c w) s a (s.rdG b) n (fun m => casNew n m cmp new) (fun m => BitVec.ofNat 64 m)
    fun q => .acas q cmp new w)

/-- R246: on the issuer's own scratchpad in the turn of its commit, in the order of R176; the token may hold its write (R171). -/
def redHold (p : Word) (w : BitVec 1) (s : State) : Option Bool :=
  if s.ownSp (s.res p) then (holdRelease s).or (s.holdWrite (s.ownKey p) (amoBytes w)) else none

/-- R246: after the commit; posted everywhere else. -/
def redOp (p x : Word) (w : BitVec 1) (op : BitVec 4) (s : State) : State :=
  let n := amoBytes w
  let q := s.res p
  if s.ownSp q then (atomicAt s (s.ownKey p) n fun m => some (amoNew op.toNat n m (cutTo n x))).advance
  else (sendOp (s.touchOwn q n 2) true false q (.amo q x w op) (some p)).advance

/-- R246. -/
def execRed (b c : RF) (w : BitVec 1) (op : BitVec 4) (s : State) : Out :=
  let p := s.rdG b
  let i := Instr.red b c w op
  .next (runR i (walkPage i s p (amoBytes w) 2 (atomicCheck s p (amoBytes w))) true (fun s => atomicCheck s p (amoBytes w)) (redHold p w) noEntry (redOp p (s.rdG c) w op))

/-! ## Fences -/

/-- R178: the operation of R175 is among those that a fence awaits. -/
def fenceTakes (dev : BitVec 10) (k : Nat) (r : Req) : Bool :=
  r.ord && match r.dest with
  | .dev d => 2 ≤ k || (k = 1 && d == dev)
  | .pool => 2 ≤ k
  | .host => k = 3

/-- R178: the ids of the operations that a fence of the issuing context awaits. -/
def fenceIds (s : State) (k : Nat) : List Nat :=
  let loads := s.me.long.filter fun l => !l.cancelled && match l.body with | some (.load _ _) => true | _ => false
  let ops := s.net.filter fun r => r.core == s.iss.core && r.slot == s.iss.slot && r.occ == s.me.occ && fenceTakes s.devId k r
  loads.map (·.id) ++ ops.map (·.id)

/-- R178: every operation awaited has returned, been acknowledged, or ended as a remote error. -/
def doneFence (s : State) (w : Wait) : Option State :=
  if w.ids.all fun id => (s.req id).isNone && !(s.me.long.any (·.id == id)) then some s else none

/-- R248. -/
def execFence (k : BitVec 2) (s : State) : Out :=
  .next (runEW (.fence k) s (fun _ => none)
    (fun s => (s, { s.newWait (.fence k) [] none with ids := fenceIds s k.toNat })) doneFence)

/-! ## Rings and the inbox -/

/-- Fields of a captured RING entry (R280). -/
def Ring.n (r : Ring) : Nat := if r.obj.isNone then 0 else 2 ^ ((vget r.entry 0 0).extractLsb' 42 4).toNat
def Ring.slotBytes (r : Ring) : Nat := 2 ^ (((vget r.entry 0 0).extractLsb' 38 4).toNat + 4)
def Ring.off (r : Ring) : Nat := ((vget r.entry 1 0).extractLsb' 0 18).toNat
def Ring.pk (r : Ring) : Bool := (vget r.entry 0 0).getLsbD 46
def Ring.ck (r : Ring) : Nat := ((vget r.entry 0 0).extractLsb' 47 2).toNat

/-- The offset of slot i (R281). -/
def Ring.slotOff (r : Ring) (i : W32) : Nat := r.off + i.toNat % r.n * r.slotBytes

/-- Ring j of a core, and a core with it replaced. -/
def Core.ring (k : Core) (j : Nat) : Ring := vget k.rings j Ring.zero
def Core.setRing (k : Core) (j : Nat) (r : Ring) : Core := { k with rings := vset k.rings j r }

/-- The inbox has no room: N = 0 or W - C = N (R250). -/
def Ring.inboxFull (r : Ring) : Bool := (r.w - r.c).toNat == r.n

/-- The 64 bytes of an entry. -/
def entryBytes (ws : List Word) : List Byte := ((List.range 8).map fun i => wordBytes (ws.getD i 0)).flatten

/-- R250: the append at the target, and r. A refusal that no issuer learns of is counted (R249). -/
def appendInbox (s : State) (c : CoreId) (ws : List Word) (ret : Bool) : State × Word :=
  let r := (s.core c).ring 0
  if r.inboxFull then
    (if ret then s else s.modCore c fun k => k.setRing 0 { r with drops := r.drops + 1 }, BitVec.allOnes 64)
  else
    let s := writeSquash s (spKey c (r.slotOff r.w)) (entryBytes ws)
    (s.modCore c fun k => k.setRing 0 { r with w := r.w + 1 }, BitVec.ofNat 64 (r.n - (r.w + 1 - r.c).toNat))

/-- The pointer of the entry that the next append writes. -/
def inboxNext (s : State) (c : CoreId) : Word := spPtr s.devId c (((s.core c).ring 0).slotOff ((s.core c).ring 0).w)

/-- R250: the checks of `post`, those of an own inbox's entry among them. -/
def postCheck (s : State) (p : Word) : Option Trap :=
  if pSpc p ≠ 0 || p.extractLsb' 18 14 ≠ 0 then some (s.tAddr p)
  else if s.ownSp (s.res p) && !(s.mine.ring 0).inboxFull then
    let q := inboxNext s s.iss.core
    (s.checkProt q 64 1).or ((s.checkLock q 64 1).or (s.watch q 64 1))
  else none

/-- R188, R171, R97: what holds a `post` back: to the own inbox it is a release and writes in its own turn, elsewhere it is long where
it has a result. -/
def postHold (a : RF) (p : Word) (s : State) : Option Bool :=
  if s.ownSp (s.res p) then
    (holdRelease s).or
      (if (s.mine.ring 0).inboxFull then none else s.holdWrite (spKey s.iss.core ((s.mine.ring 0).slotOff (s.mine.ring 0).w)) 64)
  else if a != 0 then holdLong s else none

/-- R250: after the commit. -/
def postOp (a : RF) (p : Word) (ws : List Word) (s : State) : State :=
  let q := s.res p
  if s.ownSp q then
    let r := appendInbox s s.iss.core ws (a != 0)
    (r.1.wrG a r.2).advance
  else if a != 0 then (startOp s true q (.post q ws true) (s.dstG a) p).advance
  else (sendOp s true false q (.post q ws false) (some p)).advance

/-- The words that a `post` sends. -/
def postWords (c : RF) (n : BitVec 6) (s : State) : List Word := (List.range n.toNat).map fun i => s.rdG (grp c i)

/-- R250. -/
def execPost (a b c : RF) (n : BitVec 6) (s : State) : Out :=
  let p := s.rdG b
  .next (runR (.post a b c n) s true (fun s => postCheck s p) (postHold a p) noEntry (postOp a p (postWords c n s)))

/-- R251: the oldest entry is taken, its words into eight registers. -/
def doneRecv (a : RF) (s : State) (_ : Wait) : Option State :=
  let r := s.mine.ring 0
  if r.w = r.c then none
  else
    let k := spKey s.iss.core (r.slotOff r.c)
    let ws := (List.range 8).map fun i => BitVec.ofNat 64 (memNat s.mem (k + 8 * i) 8)
    let s := (List.range 8).foldl (fun s i => s.wrG (grp a i) (ws.getD i 0)) s
    some (s.modMine fun m => m.setRing 0 { r with c := r.c + 1, f := r.c + 1 })

/-- R186: the first n bytes of the entry at C meet a range lock. -/
def entryLocked (s : State) (n : Nat) : Option Trap :=
  let r := s.mine.ring 0
  if r.n = 0 then none else s.checkLock (spPtr s.devId s.iss.core (r.slotOff r.c)) n 0

/-- R251; the entry that it names at issue is checked against the range locks (R186). -/
def execRecv (a b : RF) (s : State) : Out :=
  .next (runEW (.recv a b) s (fun s => entryLocked s 64) (fun s => (s, s.newWait (.recv a b) [] (limitOf (s.rdG b)))) (doneRecv a))

/-- R252. -/
def execIpeek (a : RF) (s : State) : Out :=
  .next (runC (.ipeek a) s fun s =>
    let r := s.mine.ring 0
    let u := (r.w - r.c).toNat
    let d := memNat s.mem (spKey s.iss.core (r.slotOff r.c)) 4
    match if u = 0 then none else entryLocked s 4 with
    | some t => .trap t
    | none => .ok (s.wrG a (if u = 0 then 0 else BitVec.ofNat 64 (d * 2 ^ 32 + u))))

end Sys2Proof.Machine
end

