-- ==== Sys2Proof/Machine/Objects.lean ====
section
/-! DEFINITION. The object table (R142, R257, R258) and the SHAPE and RING entries (R259, R260, R280). -/

namespace Sys2Proof.Machine

/-! ## Reading an entry -/

/-- Kinds of R257. -/
def kSHAPE : Nat := 1
def kRING : Nat := 2
def kLAUNCH : Nat := 3
def kREGION : Nat := 4
def kBINSET : Nat := 5
def kCODE : Nat := 6
def kSTREAM : Nat := 7

/-- Rights of R257, as bits 7:4 of dword 0. -/
def rR : Nat := 1
def rW : Nat := 2
def rENG : Nat := 4
def rACC : Nat := 8

/-- LIMIT, the die and the address of entry i (R142). -/
def otLimit (ot : Word) : Nat := (ot.extractLsb' 48 16).toNat
def otDie (ot : Word) : BitVec 2 := ot.extractLsb' 46 2
def otVa (ot : Word) (i : Nat) : Nat := (ot.extractLsb' 6 33).toNat * 64 + 64 * i

/-- The tenant whose table the issuing core uses. -/
def State.otTenant (s : State) : Tenant := s.mine.asg.getD 0

/-- R153: the read of an entry waits for the migration of its page. -/
def objHeld (s : State) (idx : Nat) : Bool :=
  let ot := s.mine.r.otBase
  pageHeld s (otDie ot) false s.otTenant (otVa ot idx) 64 (some (s.iss.core, s.iss.slot))

/-- Entry idx as it stands: OBJ with reason 1 above LIMIT, PAGE where the read does not translate (R148). DESIGN CHOICE (log 67):
the pointer that PAGE reports names the device by its id, with FMT and BLG 0, and an entry whose address passes the last VA of
die memory is walked with that address as it is. -/
def readObj (s : State) (idx : Nat) : Except Trap (Vector Word 8) :=
  let ot := s.mine.r.otBase
  if otLimit ot < idx then .error (s.tObj idx 1)
  else if objHeld s idx then .error heldRead
  else
    match xlateFor s (otDie ot) false s.otTenant (otVa ot idx) 0 true false with
    | .fault c => .error (mkTrap cPAGE (dmPtr s.devId (otDie ot) (otVa ot idx)) (faultWord c 0))
    | .ok k _ => .ok (dwords8 (memRead s.mem k 64))

/-- A use of an entry: its kind and a right (R257). -/
def useObj (s : State) (idx kind right : Nat) : Except Trap (Vector Word 8) :=
  match readObj s idx with
  | .error t => .error t
  | .ok e =>
    let d0 := (vget e 0 0).toNat
    if d0 % 16 ≠ kind then .error (s.tObj idx 2)
    else if Nat.land (d0 / 16) right = 0 then .error (s.tObj idx 3)
    else .ok e

/-- The read of an entry faults, and its trap waits (R342). -/
def objStalls (s : State) (idx : Nat) : Bool :=
  heldByBusy s s.iss.core s.iss.slot cPAGE &&
    (xlateFor s (otDie s.mine.r.otBase) false s.otTenant (otVa s.mine.r.otBase idx) 0 true false).faults

/-- The translation that an entry's read performs (R143, R150), unless the bundle traps first. -/
def walkObj (i : Instr) (s : State) (idx : Nat) : State :=
  let ot := s.mine.r.otBase
  if (s.early i).isSome || s.nextPc.isNone || otLimit ot < idx || objHeld s idx || objStalls s idx then s
  else touch s (otDie ot) false s.otTenant (otVa ot idx) (quadOf s.iss.core) 0 true false

/-- The trap of a result. -/
def trapOf {α : Type} : Except Trap α → Option Trap
  | .error t => some t
  | .ok _ => none

/-- The value of a result, or a default. -/
def valOf {α : Type} (d : α) : Except Trap α → α
  | .error _ => d
  | .ok a => a

/-- The object index that a register names. -/
def objIdx (x : Word) : Nat := x.toNat % 2 ^ 16

/-- Dword i of an entry, and its bits lo to lo + n - 1. -/
def dw (e : Vector Word 8) (i : Nat) : Word := vget e i 0
def df (e : Vector Word 8) (i lo n : Nat) : Nat := (dw e i).toNat / 2 ^ lo % 2 ^ n

/-! ## SHAPE -/

/-- Fields of a SHAPE entry (R259). -/
def shTrans (e : Vector Word 8) : Bool := (dw e 0).getLsbD 8
def shRows (e : Vector Word 8) : Nat := df e 0 16 16
def shCols (e : Vector Word 8) : Nat := df e 0 32 16
def shBase (e : Vector Word 8) : Word := dw e 1
def shRStride (e : Vector Word 8) : Int := (dw e 2).toInt
def shCStride (e : Vector Word 8) : Int := (dw e 3).toInt
def shBand (e : Vector Word 8) : Word := dw e 4
def shBook (e : Vector Word 8) : Word := dw e 5

/-- R259, R260: a malformed shape. -/
def shapeBad (e : Vector Word 8) : Bool :=
  let f := pFmt (shBase e)
  let l := 2 ^ pBlg (shBase e)
  let scols := if shTrans e then shRows e else shCols e
  df e 0 9 7 != 0 || df e 0 48 16 != 0 || dw e 6 != 0 || dw e 7 != 0 || shRows e == 0 || shCols e == 0 ||
  (isBlocked f && (shCStride e != 1 || shRStride e % (l : Int) != 0 || scols % l != 0)) ||
  (18 ≤ f && f ≤ 20 && shBand e == 0) || ((f == 27 || f == 28) && shBook e == 0)

/-! ## RING -/

/-- Fields of a RING entry (R280). -/
def rnNum (e : Vector Word 8) : Nat := df e 0 8 5
def rnOwner (e : Vector Word 8) : CoreId := BitVec.ofNat 12 (df e 0 16 12)
def rnDev (e : Vector Word 8) : BitVec 10 := BitVec.ofNat 10 (df e 0 28 10)
def rnSlotLog (e : Vector Word 8) : Nat := df e 0 38 4
def rnCountLog (e : Vector Word 8) : Nat := df e 0 42 4
def rnPk (e : Vector Word 8) : Nat := df e 0 46 1
def rnCk (e : Vector Word 8) : Nat := df e 0 47 2
def rnShv (e : Vector Word 8) : Bool := (dw e 0).getLsbD 49
def rnOff (e : Vector Word 8) : Nat := df e 1 0 18
def rnShape (e : Vector Word 8) : Nat := df e 1 32 16

/-- R280: a malformed RING entry. -/
def ringBad (e : Vector Word 8) : Bool :=
  df e 0 13 3 != 0 || df e 0 50 14 != 0 || df e 1 18 14 != 0 || df e 1 48 16 != 0 || dw e 2 != 0 || dw e 3 != 0 ||
  dw e 4 != 0 || dw e 5 != 0 || dw e 6 != 0 || dw e 7 != 0 || decide (10 < rnSlotLog e) || decide (2 ≤ rnCk e) ||
  rnOff e % 16 != 0 || decide (2 ^ 18 < rnOff e + 2 ^ rnCountLog e * 2 ^ (rnSlotLog e + 4)) ||
  (rnNum e == 0 && (rnSlotLog e != 2 || rnPk e != 0 || rnCk e != 0 || rnShv e))

/-- The owner device of a ring, the self value resolved. -/
def rnDevOf (s : State) (e : Vector Word 8) : BitVec 10 := if rnDev e = 0x3FF then s.devId else rnDev e

/-- The issuing core owns the ring. -/
def ownRing (s : State) (e : Vector Word 8) : Bool := rnDevOf s e == s.devId && rnOwner e == s.iss.core

end Sys2Proof.Machine
end

