-- ==== Sys2Proof/Machine/Rings.lean ====
section
/-! DEFINITION. Rings (R281-R285), and the answers to operations at another unit (R387, R388). -/

namespace Sys2Proof.Machine

/-! ## Answers -/

/-- Kinds of R350. -/
def eProt : Nat := 1
def eUnreach : Nat := 2
def eLink : Nat := 3
def ePoison : Nat := 4
def eXlate : Nat := 5
def eLock : Nat := 6
def eCopy : Nat := 7
def eBind : Nat := 8

/-- R387: OP of an answer, and its data: 15 reply, 16 acknowledgement, 17 negative reply. -/
def replyOp (r : Req) : Reply → Nat
  | .ok _ _ => if r.ret then 15 else 16
  | _ => 17
def replyData (r : Req) : Reply → List Byte
  | .ok bs w => if bs.isEmpty && r.ret then wordBytes w else bs
  | _ => []

/-- Where an answer comes from: from where the operation was performed; one that found no way there ends at its own die (R394). -/
def replyNode (s : State) (r : Req) (a : Reply) : Nat :=
  match a with
  | .err k _ _ => if k = eLink || k = eUnreach then nodeRoot (dieOf r.core) else nodeOfPtr s r.core r.tenant (bodyAddr s r.body)
  | _ => nodeOfPtr s r.core r.tenant (bodyAddr s r.body)

/-- R388: a reply, an acknowledgement or a negative reply goes back on the reply channel. -/
def State.replyPacket (s : State) (r : Req) (a : Reply) : State :=
  s.emit (replyNode s r a) (packetsOf r.id 1 (nodeCore r.core) (fun n => headerFlit (replyOp r a) n r.ident s.devId 0
    (bodyAddr s r.body) 0) (replyData r a))

/-- The unit that performed an operation answers; what waited at its core for the room is sent (R176). -/
def State.answer (s : State) (id : Nat) (a : Reply) : State :=
  let t := s.modReq id fun r => { r with reply := a }
  match s.req id with
  | some r => if r.reply == .none && a != .none then (t.replyPacket r a).fillWindow else t
  | none => t

/-- The answer of an operation without a result. -/
def ack : Reply := .ok [] 0

/-! ## At the owner -/

/-- R283: the condition of a ring operation. -/
def Ring.ready (r : Ring) (op : RingOp) : Bool :=
  match op with
  | .claim => (r.w + r.rc - r.f).toNat != r.n
  | .wait => r.w != r.c
  | _ => true

/-- R281: the pointer of slot i, with a format and block-length tag. -/
def Ring.slotPtr (r : Ring) (dev : BitVec 10) (c : CoreId) (tag : BitVec 8) (i : W32) : Word :=
  tag ++ (spPtr dev c (r.slotOff i)).extractLsb' 0 56

/-- R283: W advances as `rpush` does. -/
def Ring.push (r : Ring) : Ring := if r.rc = 0 then { r with pushx := true } else { r with w := r.w + 1, rc := r.rc - 1 }

/-- R283: F advances as `rrel` does. -/
def Ring.rel (r : Ring) : Ring := if r.f = r.c then { r with relx := true } else { r with f := r.f + 1 }

/-- R284: the words of `rstat`. -/
def Ring.stat (r : Ring) (sel : Nat) : Word :=
  match sel with
  | 0 => r.c ++ r.w
  | 1 => r.rc ++ r.f
  | 2 => BitVec.ofNat 64 (r.drops.toNat + (if r.pushx then 2 ^ 32 else 0) + if r.relx then 2 ^ 33 else 0)
  | _ => match r.obj with
    | some o => BitVec.ofNat 64 (o.toNat + r.n * 2 ^ 16)
    | none => 0

/-- R283: a ring bound to an entry at a start index. -/
def Ring.bind (idx : Nat) (t : Tenant) (e : Vector Word 8) (shape : Option (Vector Word 8)) (x : W32) : Ring :=
  { Ring.zero with obj := some (BitVec.ofNat 16 idx), tenant := t, entry := e, shape := shape, w := x, c := x, f := x }

/-- R283: a ring operation at its owner: the ring afterwards and the result. `x` is the start index, the
selector, or the tag of the slot pointer. -/
def Ring.op (r : Ring) (dev : BitVec 10) (c : CoreId) (op : RingOp) (idx : Nat) (t : Tenant) (x : Word) (e : Vector Word 8)
    (shape : Option (Vector Word 8)) : Ring × Word :=
  match op with
  | .claim => ({ r with rc := r.rc + 1 }, r.slotPtr dev c (x.extractLsb' 0 8) (r.w + r.rc))
  | .push => (r.push, 0)
  | .wait => ({ r with c := r.c + 1 }, r.slotPtr dev c (x.extractLsb' 0 8) r.c)
  | .rel => (r.rel, 0)
  | .set => (Ring.bind idx t e shape (x.extractLsb' 0 32), 0)
  | .stat => (r, r.stat (x.extractLsb' 0 2).toNat)

/-- R321, R325: a ring that is bound anew is another ring to the latches: they hold no operand of it any more, and a command that
has begun keeps none of it (DEDUCED, log 42). -/
def Core.forget (k : Core) (j : Nat) : Core :=
  let keep := fun (l : Option (Nat × W32 × Opnd)) => l.filter fun p => p.1 != j
  { k with acc := { k.acc with
    latchA := keep k.acc.latchA, latchB := keep k.acc.latchB
    q := k.acc.q.map fun a => { a with oa := if a.ringA = j then none else a.oa, ob := if a.ringB = j then none else a.ob } } }

/-- R281, R285: ring j is bound anew, and the requests that wait in the core's ring-wait table for it are re-evaluated: one that names
another object fails there and then. -/
def dropUnbound (s : State) (c : CoreId) (j : Nat) : State :=
  let at_ := fun (id : Nat) => match (s.req id).map (·.body) with
    | some (.ring _ _ _ obj _ e _) => if rnNum e = j && ((s.core c).ring j).obj != some obj then some (id, obj) else none
    | _ => none
  let gone := (s.core c).rwait.filterMap at_
  (gone.foldl (fun s p => s.answer p.1 (.err eBind 0 (Config.ringPtr p.2.toNat))) s).modCore c fun k =>
    { k with rwait := k.rwait.filter fun id => !gone.any fun p => p.1 == id }

/-- Performs a ring operation on ring j of a core. -/
def ringAt (s : State) (c : CoreId) (j : Nat) (op : RingOp) (idx : Nat) (t : Tenant) (x : Word) (e : Vector Word 8)
    (shape : Option (Vector Word 8)) : State × Word :=
  let r := ((s.core c).ring j).op s.devId c op idx t x e shape
  let t := s.modCore c fun k => (if op == .set then k.forget j else k).setRing j r.1
  (if op == .set && !(s.core c).rwait.isEmpty then dropUnbound t c j else t, r.2)

/-! ## Checks at issue (R258, R282) -/

/-- The right that an operation needs. -/
def ringRight : RingOp → Nat
  | .claim | .push | .set => rW
  | .wait | .rel | .stat => rR

/-- Producers and consumers of contexts only: the entry refuses the operation (R283). -/
def ringRefuses (op : RingOp) (e : Vector Word 8) : Bool :=
  ringBad e || (op == .push && rnPk e == 1) || ((op == .wait || op == .rel) && rnCk e == 1)

/-- R282: the checks at issue, in its order, and then those of R285 and of `rset`. -/
def ringUse (s : State) (op : RingOp) (idx : Nat) : Except Trap (Vector Word 8) :=
  match useObj s idx kRING (ringRight op) with
  | .error t => .error t
  | .ok e =>
    let bits4 := op == .claim || op == .push || op == .wait || op == .rel
    if rnNum e = 0 && bits4 then .error (s.tIllegal 7)
    else if ringRefuses op e then .error (s.tObj idx 4)
    else if op != .set && ownRing s e && (s.mine.ring (rnNum e)).obj != some (BitVec.ofNat 16 idx) then .error (s.tObj idx 5)
    else if (op == .claim || op == .wait) && !(rnDevOf s e == s.devId && dieOf (rnOwner e) == dieOf s.iss.core) then
      .error (s.tAddr (Config.ringPtr idx))
    else if op == .set && ownRing s e && s.mine.asg != some s.tenant then .error (tProt (Config.ringPtr idx) 1)
    else .ok e

/-- R258: the SHAPE attached to a ring, whose BASE gives a slot pointer its format. -/
def ringShape (s : State) (e : Vector Word 8) : Except Trap (BitVec 8) :=
  if !rnShv e then .ok 0
  else match useObj s (rnShape e) kSHAPE rR with
    | .error t => .error t
    | .ok sh => if shapeBad sh then .error (s.tObj (rnShape e) 4) else .ok ((shBase sh).extractLsb' 56 8)

/-- R321: what `rset` captures of the SHAPE entry of a ring with CK = 1; absent above LIMIT. -/
def ringCapture (s : State) (e : Vector Word 8) : Except Trap (Option (Vector Word 8)) :=
  if rnCk e ≠ 1 || otLimit s.mine.r.otBase < rnShape e then .ok none
  else match readObj s (rnShape e) with
    | .error t => .error t
    | .ok sh => .ok (some sh)

/-- The translations under which a ring operation reads its entry, and the SHAPE entry that it asks for (R143). -/
def walkRing (i : Instr) (s : State) (op : RingOp) (idx : Nat) : State :=
  let u := walkObj i s idx
  match ringUse u op idx with
  | .error _ => u
  | .ok e =>
    if ((op == .claim || op == .wait) && rnShv e) || (op == .set && rnCk e == 1) then walkObj i u (rnShape e) else u

/-- The request of a ring operation at another owner, and the pointer that names its destination. -/
def ringBody (s : State) (op : RingOp) (idx : Nat) (x : Word) (e : Vector Word 8) (shape : Option (Vector Word 8)) : Body :=
  .ring op (rnOwner e) (rnDevOf s e) (BitVec.ofNat 16 idx) x e shape
def ringDest (s : State) (e : Vector Word 8) : Word := spPtr (rnDevOf s e) (rnOwner e) (rnOff e)

/-! ## `rclaim` and `rwait` -/

/-- The condition of R283 holds on the issuing core's ring, or the owner's reply has come (R285): the slot
pointer is written. -/
def doneRing (op : RingOp) (a : RF) (s : State) (w : Wait) : Option State :=
  match w.req with
  | some id =>
    match (s.req id).map (·.reply) with
    | some (Reply.ok _ x) => some ((s.dropReq id).wrG a x)
    | _ => none
  | none =>
    let j := (w.vals.getD 1 0).toNat
    if (s.mine.ring j).ready op then
      let r := ringAt s s.iss.core j op (objIdx (w.vals.headD 0)) s.tenant (w.vals.getD 2 0) noEntry none
      some (r.1.wrG a r.2)
    else none

/-- `rclaim` and `rwait`: values index, ring number, tag. -/
def ringWait (i : Instr) (s : State) (op : RingOp) (a : RF) (x lim : Word) : State :=
  let idx := objIdx x
  let s := walkRing i s op idx
  let use := ringUse s op idx
  let e := valOf noEntry use
  let tag := ringShape s e
  runEW i s (fun _ => (trapOf use).or (trapOf tag))
    (fun s =>
      let w := s.newWait i [BitVec.ofNat 64 idx, BitVec.ofNat 64 (rnNum e), (valOf 0 tag).setWidth 64] (limitOf lim)
      if ownRing s e then (s, w)
      else (sendOp s false true (ringDest s e) (ringBody s op idx ((valOf 0 tag).setWidth 64) e none) none,
         { w with req := some s.nextId }))
    (doneRing op a)

/-- R283. -/
def execRclaim (a b c : RF) (s : State) : Out := .next (ringWait (.rclaim a b c) s .claim a (s.rdG b) (s.rdG c))

/-- R283. -/
def execRwait (a b c : RF) (s : State) : Out := .next (ringWait (.rwait a b c) s .wait a (s.rdG b) (s.rdG c))

/-! ## `rpush`, `rrel`, `rset`, `rstat` -/

/-- R188: `rpush` and `rrel` at an own ring are releases. -/
def ringHold (op : RingOp) (e : Vector Word 8) (s : State) : Option Bool := if ownRing s e && op != .set then holdRelease s else none

/-- An operation without a result, after the commit: in the issuer's turn at its own ring, posted to another core's. -/
def ringPostOp (op : RingOp) (idx : Nat) (y : Word) (e : Vector Word 8) (sh : Option (Vector Word 8)) (s : State) : State :=
  if ownRing s e then (ringAt s s.iss.core (rnNum e) op idx s.tenant y e sh).1.advance
  else (sendOp s true false (ringDest s e) (ringBody s op idx y e sh) none).advance

/-- The frame of `rpush`, `rrel` and `rset`. -/
def ringPost (i : Instr) (s : State) (op : RingOp) (x y : Word) : State :=
  let idx := objIdx x
  let s := walkRing i s op idx
  let use := ringUse s op idx
  let e := valOf noEntry use
  let sh := if op == .set then ringCapture s e else .ok none
  runR i s true (fun _ => (trapOf use).or (trapOf sh)) (ringHold op e) e (ringPostOp op idx y e (valOf none sh))

/-- R283. -/
def execRpush (a : RF) (s : State) : Out := .next (ringPost (.rpush a) s .push (s.rdG a) 0)

/-- R283. -/
def execRrel (a : RF) (s : State) : Out := .next (ringPost (.rrel a) s .rel (s.rdG a) 0)

/-- R283, R321. -/
def execRset (a b : RF) (s : State) : Out := .next (ringPost (.rset a b) s .set (s.rdG a) (s.rdG b))

/-- R284: short on the owner core, long elsewhere. Index 0 names the issuing core's ring 0 while it is unbound. -/
def execRstat (a b : RF) (s : State) : Out :=
  let i := Instr.rstat a b
  let idx := objIdx (s.rdG b)
  let sel : Word := (s.rdG b).extractLsb' 16 2 |>.setWidth 64
  if idx = 0 && (s.mine.ring 0).obj.isNone then
    .next (runC i s fun s => .ok (s.wrG a ((s.mine.ring 0).stat (sel.extractLsb' 0 2).toNat)))
  else
    .next (runC i (walkObj i s idx) fun s =>
      match ringUse s .stat idx with
      | .error t => .trap t
      | .ok e =>
        if ownRing s e then .ok (s.wrG a ((s.mine.ring (rnNum e)).stat (sel.extractLsb' 0 2).toNat))
        else if !s.canLong then .hold true
        else
          let l := s.newLong s.nextId (s.dstG a) .word
          let body := ringBody s .stat idx sel e none
          .ok ((sendOp s false true (ringDest s e) body none).addLong { l with body := some body }))

end Sys2Proof.Machine
end

