-- ==== Sys2Proof/Machine/Perform.lean ====
section
/-! DEFINITION. Where an access is performed for an identity that travels with it (R141, R143, R148, R236,
R254): the keys of its bytes, or how it fails. -/

namespace Sys2Proof.Machine

/-- What an access finds where it is performed: memory of this device, pool or host; another device; or its
failure, by kind and fault word (R350). -/
inductive Found where
  | ok (keys : List Nat)
  | outside
  | err (kind : Nat) (fw : BitVec 5)
  deriving DecidableEq, Repr

/-- Another device is in reach: normal service has begun, and the domain has the id (R254, R397). -/
def reachable (s : State) (d : BitVec 10) : Bool := s.lanesOn && Config.reachable d

/-- Accesses to the scratchpad are held at the interface (R354). -/
def spHeld (s : State) (c : CoreId) : Bool := (s.core c).pre == .saving || (s.core c).pre == .restoring

/-- The distances from an address at which a new page of 64 KiB begins, among n bytes, that of the first byte with them. -/
def pageCuts (va n : Nat) : List Nat := (List.range n).filter fun i => i = 0 || (va + i) % 2 ^ 16 = 0

/-- An access of n bytes in a translated space, die (of the tables) and pool, under the translations of its addresses. -/
def xlateAt (tr : Nat → Walk) (d : BitVec 2) (pool : Bool) (priv : Bool) (va n kind : Nat) (dec : Bool) : Found :=
  let at_ := fun (i : Nat) => leafFor (tr (va + i)) d pool (va + i) kind priv dec
  let bad := (pageCuts va n).findSome? fun i => match at_ i with
    | .fault c => some c
    | .ok _ _ => none
  match bad with
  | some c => .err eXlate (BitVec.ofNat 5 (c + 4 * kind))
  | none => .ok ((List.range n).filterMap fun i => match at_ i with
      | .ok k _ => some k
      | .fault _ => none)

/-- The number of a link: a die pair, or the host link of a die. -/
def pairLink (a b : BitVec 2) : Nat := 4 * min a.toNat b.toNat + max a.toNat b.toNat
def hostLink (d : BitVec 2) : Nat := 16 + d.toNat

/-- R394: the link of a die to the host is up. -/
def hostUp (s : State) (d : BitVec 2) : Bool := !s.downLinks.contains (hostLink d)

/-- The number of the link of one of the four ports by which a die leaves the package (R383). -/
def outLink (d : BitVec 2) (k : Nat) : Nat := 20 + 4 * d.toNat + k

/-- R394, R397: the ports by which a die can leave the package: none before the lanes are enabled. -/
def outPorts (s : State) (d : BitVec 2) : List Nat := (List.range 4).filter fun k => s.lanesOn && !s.downLinks.contains (outLink d k)

/-- R394: the way of an operation of a core to another device has failed: no port of its die is left, or its link fails. -/
def outDown (s : State) (c : CoreId) (id : Nat) : Bool :=
  (List.range 4).all (fun k => s.downLinks.contains (outLink (dieOf c) k)) || Config.linkFails id

/-- R394: the link between two dies is up. -/
def dieUp (s : State) (d e : BitVec 2) : Bool := d == e || !s.downLinks.contains (pairLink d e)

/-- R394: the links that the path of an operation of a core needs are up. The die of a pool access is found by its
translation (R143). -/
def pathUp (s : State) (c : CoreId) (q : Word) : Bool :=
  match pSpc q with
  | 0 => pDev q != s.devId || dieUp s (dieOf c) (dieOf (pCore q))
  | 1 => pDev q != s.devId || dieUp s (dieOf c) (pDie q)
  | 2 => true
  | _ => !s.downLinks.contains (hostLink (dieOf c))

/-- R254: how an operation fails at another device, if it does: by one of the kinds that it may meet there. -/
def outerErr (id kind : Nat) (may : List Nat) : Option (Nat × BitVec 5) :=
  let k := (Config.outerFails id).toNat
  if !may.contains k then none
  else some (k, if k = eXlate then BitVec.ofNat 5 ((Config.outerCode id).toNat % 3 + 4 * kind) else 0)

/-- R254: the failures that an access of a kind may meet at another device: a scratchpad's protection unit (R141), a range lock for an
atomic of a service turn (R186), a translation of die memory (R143), and poisoned data where it reads. -/
def outerMay (spc kind : Nat) : List Nat :=
  (if spc = 0 then (if kind = 2 then [eProt, eLock] else [eProt]) else [eXlate]) ++ if kind = 1 || kind = 5 then [] else [ePoison]

/-- An access of n bytes at a resolved pointer, by a context of a core or by an engine of that core, under a
tenant and mode, and under the translations `tr` of addresses at the interfaces. An HVA is its own location in the host's memory,
alike for every tenant: the spec does not give the host's tables (DESIGN CHOICE, log 37). -/
def foundBy (tr : BitVec 2 → Bool → Nat → Walk) (s : State) (by_ : CoreId) (t : Tenant) (priv : Bool) (q : Word) (n kind : Nat) (dec : Bool)
    (id : Nat) : Found :=
  match pSpc q with
  | 0 =>
    if pDev q = s.devId then
      if !pathUp s by_ q then .err eLink 0
      else if n != 0 && !protOk (s.core (pCore q)) t priv (pOff q) n kind then .err eProt 0
      else .ok ((List.range n).map fun i => spBase s (pCore q) + pOff q + i)
    else out
  | 1 =>
    if pDev q = s.devId then (if pathUp s by_ q then xlateAt (tr (pDie q) false) (pDie q) false priv (pOff q) n kind dec else .err eLink 0)
    else out
  | 2 =>
    match xlateAt (tr (dieOf by_) true) (dieOf by_) true priv (pOff q) n kind dec with
    | .ok ks =>
      if ks.any fun k => !dieUp s (dieOf by_) (s.poolPort (k - 2 ^ 50)) then .err eLink 0
      else if kind ≠ 1 && kind ≠ 5 && ks.any Config.poolPoison then .err ePoison 0 else .ok ks
    | o => o
  | _ =>
    if !pathUp s by_ q then .err eLink 0
    else match (List.range n).findSome? fun i => Config.hostFault (pOff q + i) t kind with
    | some c => .err eXlate (BitVec.ofNat 5 (c.toNat + 4 * kind))
    | none => .ok ((List.range n).map fun i => hostKey (pOff q + i))
where
  /-- Another device: unreachable, a failed link, a failure there, or performed there. -/
  out : Found :=
    if !reachable s (pDev q) then .err eUnreach 0
    else if outDown s by_ id then .err eLink 0
    else match outerErr id kind (outerMay (pSpc q) kind) with
      | some (k, fw) => .err k fw
      | none => .outside

/-- An access under the translations as the interfaces hold them now. -/
def found (s : State) (by_ : CoreId) (t : Tenant) (priv : Bool) (q : Word) (n kind : Nat) (dec : Bool) (id : Nat) : Found :=
  foundBy (fun d pool => xlate s d pool t) s by_ t priv q n kind dec id

/-- The walks that an access of a kind and mode performs at its interface (R143, R150). -/
def touchAt (s : State) (by_ : CoreId) (t : Tenant) (q : Word) (n kind : Nat) (priv dec : Bool) : State :=
  if n = 0 then s
  else if pSpc q = 1 && pDev q = s.devId then touchSpan s (pDie q) false t (pOff q) n (quadOf by_) kind priv dec
  else if pSpc q = 2 then touchSpan s (dieOf by_) true t (pOff q) n (quadOf by_) kind priv dec
  else s

/-- R405: a read that returns poison, at an address whose translation is known, is counted with its poison return on the die whose
root port returned the data. -/
def countPoison (s : State) (d : BitVec 2) (w : Walk) (va : Nat) : State :=
  match w with
  | .leaf fr lg a =>
    let e := s.poolPort (leafKey d true va fr lg a - 2 ^ 50)
    (s.countDie e 13).countDie e 15
  | .fault _ => s

/-- R153: an access of n bytes at a resolved pointer, of a tenant and perhaps of a context, waits for the migration of its page. -/
def migrating (s : State) (t : Tenant) (q : Word) (n : Nat) (by_ : Option (CoreId × SlotNo)) : Bool :=
  pSpc q == 1 && pDev q == s.devId && pageHeld s (pDie q) false t (pOff q) n by_

/-- A request finds its bytes: those of its translation at issue, or of the translation now. -/
def Req.found (s : State) (r : Req) (p : Word) (n kind : Nat) : Found :=
  if r.phys.isEmpty then Machine.found s r.core r.tenant r.priv p n kind false r.id else .ok r.phys

/-- The walks that a request performs, which one translated at issue does not. -/
def Req.touch (s : State) (r : Req) (p : Word) (n kind : Nat) : State :=
  if r.phys.isEmpty then touchAt s r.core r.tenant p n kind r.priv false else s

/-- The die whose chunks a written key may squash; pool and host memory belong to none. -/
def keyDie (k : Nat) : Option (BitVec 2) := if k < 2 ^ 50 then some (dieOfKey k) else none

/-- Bytes at keys. -/
def bytesAt (s : State) (ks : List Nat) : List Byte := ks.map (memGet s.mem)

/-- Writes bytes at keys. -/
def writeKeys (s : State) (ks : List Nat) (bs : List Byte) : State := { s with mem := memSetAll s.mem (ks.zip (s.cutBytes ks bs)) }

/-- A write of keys that squashes as R169 gives. -/
def writeKeysSquash (s : State) (ks : List Nat) (bs : List Byte) : State :=
  match ks.head?.bind keyDie with
  | some d => squashMeeting (writeKeys s ks bs) d none (linesOf ks)
  | none => writeKeys s ks bs

/-- A write of R169 at keys waits for the token holder (R171). -/
def keysHeld (s : State) (ks : List Nat) : Bool :=
  match ks.head?.bind keyDie with
  | some d => s.tokenHolds d [] (linesOf ks)
  | none => false

/-- n bytes that another device returns, from byte o of the reply of the free value number on. -/
def outerBytes (s : State) (o n : Nat) : List Byte := (List.range n).map fun i => Config.outerByte s.free (o + i)

end Sys2Proof.Machine
end

