-- ==== Sys2Proof/Machine/Copy.lean ====
section
/-! DEFINITION. Copy channels and their engine (R183-R187, R287-R297, R152), the diffuser (R154-R158). -/

namespace Sys2Proof.Machine

/-! ## Descriptors (R288) -/

def cdKind (d : Vector Word 8) : Nat := df d 0 0 4
def cdRv (d : Vector Word 8) : Bool := (dw d 0).getLsbD 4
def cdMv (d : Vector Word 8) : Bool := (dw d 0).getLsbD 5
def cdMbx (d : Vector Word 8) : Nat := df d 0 6 6
def cdRing (d : Vector Word 8) : Nat := df d 0 16 16
def cdObj (d : Vector Word 8) : Nat := df d 0 32 16
def cdMask (d : Vector Word 8) : BitVec 16 := (dw d 0).extractLsb' 48 16
def cdSrc (d : Vector Word 8) : Word := dw d 1
def cdDst (d : Vector Word 8) : Word := dw d 2
def cdIndex (d : Vector Word 8) : Word := dw d 7
def cdSize0 (d : Vector Word 8) : Nat := df d 3 0 32
def cdSize (d : Vector Word 8) (i : Nat) : Nat := let n := df d 4 (16 * (i - 1)) 16; if n = 0 then 1 else n
def cdSs (d : Vector Word 8) (i : Nat) : Int := toSigned 21 (df d 5 (21 * (i - 1)) 21)
def cdDs (d : Vector Word 8) (i : Nat) : Int := toSigned 21 (df d 6 (21 * (i - 1)) 21)

/-- The kinds of R288. -/
def ckLINEAR : Nat := 1
def ckSTRIDED : Nat := 2
def ckGATHER : Nat := 3
def ckBINS : Nat := 4
def ckDECODE : Nat := 5
def ckMCAST : Nat := 6

/-- A channel of a core. -/
def Core.ch (k : Core) (i : Nat) : Chan := vget k.chan i Chan.zero
def Core.setCh (k : Core) (i : Nat) (h : Chan) : Core := { k with chan := vset k.chan i h }
def State.modCh (s : State) (c : CoreId) (i : Nat) (f : Chan → Chan) : State :=
  s.modCore c fun k => k.setCh i (f (k.ch i))

/-- R290: a register value that names a channel. -/
def chanOf (x : Word) : Option Nat := if x.toNat < 2 then some x.toNat else none

/-! ## BINSET and CODE entries (R296, R297) -/

def bsNbins (e : Vector Word 8) : Nat := df e 0 16 16
def binsetBad (e : Vector Word 8) : Bool :=
  df e 0 8 8 != 0 || df e 0 32 32 != 0 || pSpc (dw e 2) != 1 || pSpc (dw e 3) != 1 || dw e 4 != 0 || dw e 5 != 0 ||
  dw e 6 != 0 || dw e 7 != 0

def cdNsym (e : Vector Word 8) : Nat := df e 4 0 40
def codeBad (e : Vector Word 8) : Bool :=
  df e 0 8 56 != 0 || df e 4 40 24 != 0 || cdNsym e == 0 || dw e 5 != 0 || dw e 6 != 0 || dw e 7 != 0

/-! ## Engine accesses -/

/-- How an engine access fails: cause, fault word, pointer (R294). Cause 0 stands for an access that waits. -/
structure CopyErr where
  cause : Nat
  fw : BitVec 5
  ptr : Word
  deriving DecidableEq, Repr

/-- An engine at work for a copy: the state with the walks, counts, packets and writes of its accesses so far, and its channel with the
translations that the copy holds. -/
structure Eng where
  s : State
  h : Chan

/-- What an engine's work comes to: a value, or an access that fails or waits. -/
inductive Work (α : Type) where
  | ok (x : Eng) (v : α)
  | stop (x : Eng) (e : CopyErr)

/-- Work goes on with the value of the work before it. -/
def Work.bind {α β : Type} (w : Work α) (f : Eng → α → Work β) : Work β :=
  match w with
  | .ok x v => f x v
  | .stop x e => .stop x e

/-- The value of work, if it comes to one. -/
def Work.val {α : Type} (w : Work α) : Option α :=
  match w with
  | .ok _ v => some v
  | .stop _ _ => none

/-- Work whose failing access is passed over; one that waits makes the work wait. -/
def Work.attempt {α : Type} (w : Work α) : Work (Option α) :=
  match w with
  | .ok x v => .ok x (some v)
  | .stop x e => if e.cause = 0 then .stop x e else .ok x none

/-- Work for each number of a list in turn. -/
def Work.each {α : Type} (f : Eng → Nat → Work α) (x : Eng) : List Nat → Work (List α)
  | [] => .ok x []
  | k :: t => (f x k).bind fun x v => (Work.each f x t).bind fun x vs => .ok x (v :: vs)

/-- Where work ends, and how it fails, if it does. -/
def Work.eng {α : Type} (w : Work α) : Eng :=
  match w with
  | .ok x _ => x
  | .stop x _ => x
def Work.err {α : Type} (w : Work α) : Option CopyErr :=
  match w with
  | .ok _ _ => none
  | .stop _ e => some e

/-- The interface that translates a resolved pointer for an engine of a core: a die, and whether it is its pool interface (R143). -/
def ifaceOf (s : State) (c : CoreId) (q : Word) : Option (BitVec 2 × Bool) :=
  if pSpc q = 1 && pDev q = s.devId then some (pDie q, false) else if pSpc q = 2 then some (dieOf c, true) else none

/-- The translation of an address that a copy holds (R152). -/
def Chan.holds (h : Chan) (d : BitVec 2) (pool : Bool) (va : Nat) : Option Tlb :=
  (h.pages.find? fun p => p.1 == d && p.2.covers pool h.tenant va).map (·.2)

/-- R152: the translation of an address for a copy: the one it holds, or that of the interface. -/
def Eng.xlate (x : Eng) (d : BitVec 2) (pool : Bool) (va : Nat) : Walk :=
  match x.h.holds d pool va with
  | some e => e.leaf
  | none => Machine.xlate x.s d pool x.h.tenant va

/-- R152, R395: an access of an engine, by the translations that its copy holds. -/
def Eng.found (x : Eng) (c : CoreId) (q : Word) (n kind : Nat) (dec : Bool) : Found :=
  foundBy x.xlate x.s c x.h.tenant x.h.priv q n kind dec x.h.xid.toNat

/-- R153: the access needs a new translation of a page that is under migration. -/
def Eng.waits (x : Eng) (c : CoreId) (q : Word) (n : Nat) : Bool :=
  match ifaceOf x.s c q with
  | some (d, pool) => (pageCuts (pOff q) n).any fun i =>
      (x.h.holds d pool (pOff q + i)).isNone && pageHeld x.s d pool x.h.tenant (pOff q + i) 1 none
  | none => false

/-- R143, R150, R152: the copy takes the translation of an address, unless it holds it or it faults. -/
def Eng.takePage (x : Eng) (c : CoreId) (d : BitVec 2) (pool : Bool) (kind : Nat) (dec : Bool) (va : Nat) : Eng :=
  if (x.h.holds d pool va).isSome then x
  else
    let u := touch x.s d pool x.h.tenant va (quadOf c) kind x.h.priv dec
    if (leafFor (x.xlate d pool va) d pool va kind x.h.priv dec).faults then { x with s := u }
    else { s := u, h := { x.h with pages := x.h.pages ++ ((tlbFind u d pool x.h.tenant va).map fun e => (d, e)).toList } }

/-- The translations of an access, page by page up to one that faults. -/
def Eng.takePages (x : Eng) (c : CoreId) (d : BitVec 2) (pool : Bool) (kind : Nat) (dec : Bool) : List Nat → Eng
  | [] => x
  | va :: t =>
    let y := x.takePage c d pool kind dec va
    if (leafFor (x.xlate d pool va) d pool va kind x.h.priv dec).faults then y else y.takePages c d pool kind dec t

/-- The translations of an access of n bytes at a resolved pointer. -/
def Eng.take (x : Eng) (c : CoreId) (q : Word) (n kind : Nat) (dec : Bool) : Eng :=
  match ifaceOf x.s c q with
  | some (d, pool) => x.takePages c d pool kind dec ((pageCuts (pOff q) n).map (pOff q + ·))
  | none => x

/-- R294: the cause of a failed access. -/
def errCause (kind : Nat) : Nat := if kind = eProt then 1 else if kind = eXlate then 2 else 3

/-- R136: n bytes at a pointer that is formed during the copy. -/
def engAddr (q : Word) (n : Nat) : Option CopyErr := if addrBad q n 1 then some ⟨5, 0, q⟩ else none

/-- What keeps an access waiting, in the place of an error: it has cause 0. -/
def engWait : CopyErr := ⟨0, 0, 0⟩

/-- The identity of a copy (R292, R387). -/
def Chan.ident (h : Chan) (c : CoreId) : Ident :=
  { tenant := h.tenant, priv := h.priv, core := c, slot := h.slot, wid := h.wid, ltag := h.ltag, rid := 0 }

/-- R388: an engine access away from its core: a packet there on a channel, and its answer. -/
def Eng.talk (x : Eng) (c : CoreId) (node vc op : Nat) (q : Word) (out : List Byte) (rop : Nat) (back : List Byte) : Eng :=
  if node = nodeCore c then x
  else { x with s := (x.s.note (nodeCore c) node vc op (x.h.ident c) q out).note node (nodeCore c) 1 rop (x.h.ident c) q back }

/-- The node at which the bytes at keys lie; none: beyond the package. -/
def keysAt (s : State) (ks : List Nat) : Nat := (ks.head?.map (keyNode s)).getD nodeOut

/-- R405: the accesses of a copy at the pool, its reads or its writes. -/
def countEng (s : State) (ks : List Nat) (wr : Bool) : State :=
  match ks.head? with
  | some k => if 2 ^ 50 ≤ k && k < 2 ^ 51 then s.countDie (s.poolPort (k - 2 ^ 50)) (if wr then 14 else 13) else s
  | none => s

/-- An access that fails where it would be performed, for what it would have come to: it is answered (R388), and poison is counted
(R405). Nothing passes a link that is down. -/
def Eng.fail {α : Type} (x : Eng) (c : CoreId) (p q : Word) (vc op kind : Nat) (fw : BitVec 5) : Work α :=
  let x := if kind = ePoison then { x with s := countPoison x.s (dieOf c) (x.xlate (dieOf c) true (pOff q)) (pOff q) } else x
  .stop (if kind = eLink || kind = eUnreach then x else x.talk c (nodeOfPtr x.s c x.h.tenant q) vc op q [] 17 []) ⟨errCause kind, fw, p⟩

/-- An engine's read of n bytes. `o`: the byte of a free reply that the first byte is. -/
def engRead (x : Eng) (c : CoreId) (p : Word) (n : Nat) (dec : Bool) (o : Nat := 0) : Work (List Byte) :=
  match engAddr p n with
  | some e => .stop x e
  | none =>
    let q := resolve x.s.devId c p
    if n = 0 then .ok x []
    else if x.waits c q n then .stop x engWait
    else
      let y := x.take c q n 4 dec
      match x.found c q n 4 dec with
      | .err k fw => y.fail c p q 0 1 k fw
      | .outside => .ok (y.talk c nodeOut 0 1 q [] 15 (outerBytes y.s o n)) (outerBytes y.s o n)
      | .ok ks => .ok ({ y with s := countEng y.s ks false }.talk c (keysAt y.s ks) 0 1 q [] 15 (bytesAt y.s ks)) (bytesAt y.s ks)

/-- Where an engine's write goes: the keys that it writes (none: beyond the device). -/
def engDest (x : Eng) (c : CoreId) (p : Word) (n : Nat) : Work (List Nat) :=
  match engAddr p n with
  | some e => .stop x e
  | none =>
    let q := resolve x.s.devId c p
    if n = 0 then .ok x []
    else if x.waits c q n then .stop x engWait
    else match x.found c q n 5 false with
      | .err k fw => (x.take c q n 5 false).fail c p q 2 11 k fw
      | .outside => .ok x []
      | .ok ks => .ok (x.take c q n 5 false) ks

/-- R169: a write by an engine squashes on another die only. It travels on the posted channel and is acknowledged (R388). -/
def engWrite (x : Eng) (c : CoreId) (q : Word) (ks : List Nat) (bs : List Byte) : Eng :=
  let s := countEng x.s ks true
  if bs.isEmpty then x
  else { x with s := if (ks.head?.bind keyDie) == some (dieOf c) then writeKeys s ks bs else writeKeysSquash s ks bs }.talk c (keysAt s ks) 2 11 q bs 16 []

/-- An engine's write that waits for the token holder of another die (R171). -/
def engHeld (s : State) (c : CoreId) (ks : List Nat) : Bool :=
  (ks.head?.bind keyDie) != some (dieOf c) && keysHeld s ks

/-! ## The moves of a copy -/

/-- R289: run r of a copy starts at these distances from SRC and DST; the source distance of GATHER comes
from its index. -/
def runOffs (d : Vector Word 8) (r : Nat) : Int × Int :=
  if cdKind d = ckSTRIDED then
    let n1 := cdSize d 1; let n2 := cdSize d 2
    let i1 : Int := (r % n1 : Nat); let i2 : Int := (r / n1 % n2 : Nat); let i3 : Int := (r / (n1 * n2) : Nat)
    (i1 * cdSs d 1 + i2 * cdSs d 2 + i3 * cdSs d 3, i1 * cdDs d 1 + i2 * cdDs d 2 + i3 * cdDs d 3)
  else if cdKind d = ckGATHER then (0, r * cdSize0 d)
  else (0, 0)

/-- The runs of a copy. -/
def runCount (d : Vector Word 8) : Nat :=
  if cdKind d = ckSTRIDED then cdSize d 1 * cdSize d 2 * cdSize d 3 else if cdKind d = ckGATHER then cdSize d 1 else 1

/-- The units that a copy handles: bytes, tokens, or symbols. -/
def copyTotal (h : Chan) : Nat :=
  let d := h.active
  if cdKind d = ckBINS then cdSize d 1 else if cdKind d = ckDECODE then cdNsym h.obj else runCount d * cdSize0 d

/-- The cores that a write of an MCAST reaches, or the one destination. -/
def copyDests (d : Vector Word 8) (q : Word) : List Word :=
  if cdKind d = ckMCAST then
    ((List.range 16).filter fun i => (cdMask d).getLsbD i).map fun i =>
      (q.extractLsb' 36 28 ++ BitVec.ofNat 4 i ++ q.extractLsb' 0 32 : Word)
  else [q]

/-- A pointer moved by a distance, or an address error that names the pointer it is formed from. -/
def movedTo (x : Eng) (p : Word) (y : Int) : Work Word :=
  match moveOff p y with
  | some q => .ok x q
  | none => .stop x ⟨5, 0, p⟩

/-- The source of byte o of run r, whose index entry GATHER reads. -/
def runSrc (x : Eng) (c : CoreId) (r o : Nat) : Work Word :=
  let d := x.h.active
  if cdKind d = ckGATHER then
    (movedTo x (cdIndex d) (4 * r)).bind fun x p => (engRead x c p 4 false (2 ^ 32)).bind fun x bs =>
      movedTo x (cdSrc d) ((leBytes bs 0 4 * cdSize0 d : Nat) + o)
  else movedTo x (cdSrc d) ((runOffs d r).1 + o)

/-- One write of a copy of bytes: at most up to the next 64-byte line of the destination. -/
structure Move where
  src : Word
  dst : Word
  n : Nat
  deriving DecidableEq, Repr

/-- The next move of a copy of bytes. -/
def nextMove (x : Eng) (c : CoreId) : Work Move :=
  let d := x.h.active
  let r := x.h.pos / cdSize0 d
  let o := x.h.pos % cdSize0 d
  (runSrc x c r o).bind fun x p => (movedTo x (cdDst d) ((runOffs d r).2 + o)).bind fun x q =>
    .ok x { src := p, dst := q, n := min (cdSize0 d - o) (64 - pOff q % 64) }

/-- A pointer past its last byte; at the end of the field it wraps. -/
def past (q : Word) (n : Nat) : Word := setOff q (pOff q + n)

/-- The keys of a write at each of some pointers. -/
def engDests (x : Eng) (c : CoreId) (n : Nat) : List Word → Work (List (List Nat))
  | [] => .ok x []
  | q :: t => (engDest x c q n).bind fun x ks => (engDests x c n t).bind fun x l => .ok x (ks :: l)

/-- R152: a copy of one run has done with the pages that it has passed: of what it holds, it keeps the translations that cover a byte
of its source or destination still to come. -/
def Chan.dropPassed (h : Chan) (s : State) (c : CoreId) : Chan :=
  let d := h.active
  if cdKind d = ckLINEAR || cdKind d = ckMCAST then
    let left := fun (p : BitVec 2 × Tlb) (q : Word) =>
      let lo := if p.2.large then p.2.page / 32 * 2 ^ 21 else p.2.page * 2 ^ 16
      let hi := lo + if p.2.large then 2 ^ 21 else 2 ^ 16
      ifaceOf s c q == some (p.1, p.2.pool) && decide (pOff q + h.pos < hi) && decide (lo < pOff q + cdSize0 d)
    { h with pages := h.pages.filter fun p => left p (resolve s.devId c (cdSrc d)) || left p (resolve s.devId c (cdDst d)) }
  else h

/-- The next write of LINEAR, STRIDED, GATHER or MCAST. -/
def writeRun (x : Eng) (c : CoreId) : Work Unit :=
  (nextMove x c).bind fun x m =>
  (engRead x c m.src m.n false).bind fun x bs =>
  let q := resolve x.s.devId c m.dst
  (engDests x c m.n (copyDests x.h.active q)).bind fun x kss =>
  if kss.any (engHeld x.s c) then .stop x engWait
  else
    let y := kss.foldl (fun x ks => engWrite x c q ks bs) x
    let h := { y.h with wp := past m.dst m.n, pos := y.h.pos + m.n }
    .ok { s := y.s.draw, h := h.dropPassed y.s c } ()

/-! ## BINS (R296) -/

/-- A bump: an `amo.add.w` of 1 at an SPC 1 pointer, performed at the atomizer (R180, R171); the old count. -/
def bump (x : Eng) (c : CoreId) (p : Word) (i : Nat) : Work Nat :=
  (movedTo x p (4 * i)).bind fun x p =>
  let q := resolve x.s.devId c p
  if addrBad p 4 4 then .stop x ⟨5, 0, p⟩
  else if migrating x.s x.h.tenant q 4 none then .stop x engWait
  else
    let y := { x with s := touchAt x.s c x.h.tenant q 4 2 x.h.priv false }
    match found x.s c x.h.tenant x.h.priv q 4 2 false x.h.xid.toNat with
    | .err k fw => y.fail c p q 0 3 k fw
    | .outside =>
      let old := (Config.outerWord y.s.free).toNat % 2 ^ 32
      .ok ({ y with s := y.s.draw }.talk c nodeOut 0 3 q [] 15 (natBytes 8 old)) old
    | .ok ks =>
      if keysHeld x.s ks then .stop x engWait
      else
        let old := leBytes (bytesAt y.s ks) 0 4
        .ok ({ y with s := (writeKeysSquash y.s ks (natBytes 4 (old + 1))).countDie (pDie q) 4 }.talk c (keysAt y.s ks) 0 3 q [] 15 (natBytes 8 old)) old

/-- Places token t in bin k, if the bin has room for it, which the result says. Bytes 15:12 of the bin's
record, zero by R296, are not looked at (DESIGN CHOICE, log 68). -/
def tryBin (x : Eng) (c : CoreId) (k t : Nat) : Work Bool :=
  let d := x.h.active
  (bump x c (dw x.h.obj 2) k).bind fun x old =>
  (movedTo x (dw x.h.obj 1) (16 * k)).bind fun x p =>
  (engRead x c p 16 false (2 ^ 32)).bind fun x rec =>
  let base : Word := BitVec.ofNat 64 (leBytes rec 0 8)
  if leBytes rec 8 4 ≤ old then .ok x false
  else
    (movedTo x base (old * cdSize0 d)).bind fun x q =>
    (movedTo x (cdSrc d) (t * cdSize0 d)).bind fun x p =>
    (engRead x c p (cdSize0 d) false).bind fun x bs =>
    (engDest x c q (cdSize0 d)).bind fun x ks =>
    if engHeld x.s c ks then .stop x engWait
    else let y := engWrite x c (resolve x.s.devId c q) ks bs; .ok { y with s := y.s.draw } true

/-- One token of a BINS copy. What it would have to wait for holds the whole token back. -/
def writeToken (x : Eng) (c : CoreId) : Work Unit :=
  let t := x.h.pos
  let nb := bsNbins x.h.obj
  (movedTo x (cdIndex x.h.active) (4 * t)).bind fun x p =>
  (engRead x c p 4 false (2 ^ 33)).bind fun x bs =>
  let k := leBytes bs 0 4
  (if k ≤ nb then tryBin x c k t else .ok x false).bind fun x placed =>
  (if placed then .ok x true else tryBin x c (nb + 1) t).bind fun x placed =>
  (if placed then .ok x 0 else bump x c (dw x.h.obj 3) 0).bind fun x _ =>
  .ok { x with h := { x.h with pos := t + 1, wp := BitVec.ofNat 64 (t + 1) } } ()

/-! ## DECODE (R154-R158) -/

/-- A code table: the counts of lengths 1-15, the symbol width, the symbols. -/
structure CodeTable where
  counts : List Nat
  width : Nat
  syms : List Nat
  deriving DecidableEq, Repr

/-- R154: reads a table. -/
def readTable (x : Eng) (c : CoreId) : Work CodeTable :=
  (engRead x c (dw x.h.obj 1) 32 false).bind fun x bs =>
  let counts := (List.range 15).map fun i => leBytes bs (2 * i) 2
  (movedTo x (dw x.h.obj 1) 32).bind fun x p =>
  (engRead x c p (min counts.sum 256) false 32).bind fun x sy =>
  .ok x { counts := counts, width := leBytes bs 30 2, syms := sy.map (·.toNat) }

/-- R154: a valid table. -/
def CodeTable.ok (t : CodeTable) : Bool :=
  (t.width == 4 || t.width == 8) && 1 ≤ t.counts.sum && t.counts.sum ≤ 2 ^ t.width &&
  (t.counts.mapIdx fun i n => n * 2 ^ (14 - i)).sum ≤ 2 ^ 15 &&
  t.syms.eraseDups.length == t.syms.length && t.syms.all (· < 2 ^ t.width)

/-- R158: a table serves a destination format. -/
def CodeTable.fits (t : CodeTable) (f : Nat) : Bool := t.width == (if elemWidth f = 4 then 4 else 8)

/-- R155: the symbol of a codeword of length l, by the first code of that length and the symbols before it. -/
def codeSym (t : CodeTable) (l code : Nat) : Option Nat :=
  let step := (t.counts.take (l - 1)).foldl (fun (a : Nat × Nat) n => ((a.1 + n) * 2, a.2 + n)) (0, 0)
  let n := t.counts.getD (l - 1) 0
  if step.1 ≤ code && code < step.1 + n then some (t.syms.getD (step.2 + code - step.1) 0) else none

/-- A place in a stream: the next bit, and the last word read, by its number (R156). -/
structure Bits where
  bit : Nat
  word : Option (Nat × Word)
  deriving DecidableEq, Repr

/-- The next bit of the stream of 64-bit words that starts `w0` words from SRC; each word is read once. DESIGN CHOICE (log 85): a word that
starts past SRC's offset field ends the stream, a decode error (R158); one that starts inside it and runs past its end is an address
error. -/
def nextBit (x : Eng) (c : CoreId) (w0 : Nat) (z : Bits) : Work (Bool × Bits) :=
  let i := z.bit / 64
  let src := cdSrc x.h.active
  let bit := fun (w : Word) => (w.getLsbD (z.bit % 64), ({ bit := z.bit + 1, word := some (i, w) } : Bits))
  match z.word.filter fun w => w.1 == i with
  | some w => .ok x (bit w.2)
  | none =>
    match moveOff src (8 * (w0 + i)) with
    | none => .stop x ⟨4, 0, src⟩
    | some p => (engRead x c p 8 true (2 ^ 34 + 8 * (w0 + i))).bind fun x bs => .ok x (bit (BitVec.ofNat 64 (leBytes bs 0 8)))

/-- R156: one codeword: its symbol and the place after it. -/
def readCode (x : Eng) (c : CoreId) (t : CodeTable) (w0 : Nat) (z : Bits) : Nat → Nat → Nat → Work (Nat × Bits)
  | 0, _, _ => .stop x ⟨4, 0, cdSrc x.h.active⟩
  | fuel + 1, l, code =>
    (nextBit x c w0 z).bind fun x b =>
    let code := 2 * code + if b.1 then 1 else 0
    match codeSym t (l + 1) code with
    | some y => .ok x (y, b.2)
    | none => readCode x c t w0 b.2 fuel (l + 1) code

/-- R156: m symbols, and the place after them. -/
def readSyms (x : Eng) (c : CoreId) (t : CodeTable) (w0 : Nat) : Nat → Bits → Work (List Nat × Bits)
  | 0, z => .ok x ([], z)
  | m + 1, z =>
    (readCode x c t w0 z 15 0 0).bind fun x y =>
    (readSyms x c t w0 m y.2).bind fun x r => .ok x (y.1 :: r.1, r.2)

/-- A format whose elements are E3M2 or E2M3, of which 6 bits are used (R104, R105). -/
def sixBits (f : Nat) : Bool := f = 6 || f = 7 || f = 15 || f = 16 || f = 20

/-- The bytes of a decoded run of whole blocks or plain elements (R157); the unused bits are zero (R105). -/
def decodedBytes (f l : Nat) (syms : List Nat) (blocks : List Byte) : List Byte :=
  let ys := if sixBits f then syms.map (· % 64) else syms
  if isBlocked f then
    let z := 1 + zeroPt f
    ((cutBy (2 ^ l) (ys.length / 2 ^ l) ys).mapIdx fun i e => (blocks.drop (z * i)).take z ++ packElems (elemWidth f) e).flatten
  else packElems (elemWidth f) ys

/-- Entry k of the chunk offset index (R156). -/
def chunkStart (x : Eng) (c : CoreId) (k : Nat) : Work Nat :=
  (movedTo x (dw x.h.obj 2) (4 * k)).bind fun x p => (engRead x c p 4 false (2 ^ 32)).bind fun x ix => .ok x (leBytes ix 0 4)

/-- The bytes of chunk k of a DECODE copy, of m symbols. DESIGN CHOICE (log 79): the table is read for each chunk, and one that is no
longer valid, or serves the format no longer, is a decode error. -/
def chunkBytes (x : Eng) (c : CoreId) (k m : Nat) : Work (List Byte) :=
  let f := pFmt (cdDst x.h.active); let l := pBlg (cdDst x.h.active)
  let z := if isBlocked f then 1 + zeroPt f else 0
  let nb := if isBlocked f then m / 2 ^ l else 0
  (readTable x c).bind fun x t =>
  if !(t.ok && t.fits f) then .stop x ⟨4, 0, dw x.h.obj 1⟩
  else
    (chunkStart x c k).bind fun x w0 =>
    (readSyms x c t w0 m { bit := 0, word := none }).bind fun x ys =>
    if nb = 0 then .ok x (decodedBytes f l ys.1 [])
    else
      (movedTo x (dw x.h.obj 3) (z * (1024 * k / 2 ^ l))).bind fun x p =>
      (engRead x c p (z * nb) false (2 ^ 33)).bind fun x bl => .ok x (decodedBytes f l ys.1 bl)

/-- One chunk of 1,024 symbols of a DECODE copy, the last one shorter. -/
def writeChunk (x : Eng) (c : CoreId) : Work Unit :=
  let d := x.h.active
  let m := min 1024 (cdNsym x.h.obj - x.h.pos)
  (chunkBytes x c (x.h.pos / 1024) m).bind fun x bs =>
  (movedTo x (cdDst d) (formBytes (pFmt (cdDst d)) (pBlg (cdDst d)) x.h.pos)).bind fun x q =>
  (engDest x c q bs.length).bind fun x ks =>
  if engHeld x.s c ks then .stop x engWait
  else
    let y := engWrite x c (resolve x.s.devId c q) ks bs
    .ok { s := y.s.draw, h := { y.h with wp := past q bs.length, pos := y.h.pos + m } } ()

/-- The engine of a channel takes up its work. -/
def Eng.open_ (s : State) (c : CoreId) (i : Nat) : Eng := { s := s, h := (s.core c).ch i }

/-- The next write of an ACTIVE copy that is not at its end. -/
def copyNext (s : State) (c : CoreId) (i : Nat) : Work Unit :=
  let x := Eng.open_ s c i
  let k := cdKind x.h.active
  if k = ckBINS then writeToken x c else if k = ckDECODE then writeChunk x c else writeRun x c

/-! ## Starting a copy (R183-R185, R292) -/

/-- A range of n bytes from a resolved pointer; none when empty. -/
def rangeOf (q : Word) (n : Nat) : Option (Word × Word) := if n = 0 then none else some (q, setOff q (pOff q + n - 1))

/-- The lowest and the highest distance of a STRIDED copy's runs, by its strides. -/
def strideLo (d : Vector Word 8) (st : Nat → Int) : Int := ([1, 2, 3].map fun i => min 0 (((cdSize d i - 1 : Nat) : Int) * st i)).sum
def strideHi (d : Vector Word 8) (st : Nat → Int) : Int := ([1, 2, 3].map fun i => max 0 (((cdSize d i - 1 : Nat) : Int) * st i)).sum

/-- The bins' records, as they stand (R183). -/
def binRecords (x : Eng) (c : CoreId) : Work (List (Option (Word × Nat))) :=
  Work.each (fun x k => ((movedTo x (dw x.h.obj 1) (16 * k)).bind fun x p => (engRead x c p 16 false).bind fun x bs =>
    .ok x (BitVec.ofNat 64 (leBytes bs 0 8), leBytes bs 8 4)).attempt) x (List.range (bsNbins x.h.obj + 2))

/-- R156: the bit after m symbols, or where they fail. -/
def symsEnd (x : Eng) (c : CoreId) (t : CodeTable) (w0 : Nat) : Nat → Bits → Work Nat
  | 0, z => .ok x z.bit
  | m + 1, z => (readCode x c t w0 z 15 0 0).attempt.bind fun x y =>
    match y with
    | some y => symsEnd x c t w0 m y.2
    | none => .ok x z.bit

/-- R183: the bytes of the element stream of a DECODE copy, as its chunks stand. -/
def streamBytes (x : Eng) (c : CoreId) : Work Nat :=
  (readTable x c).attempt.bind fun x t =>
  match t with
  | none => .ok x 0
  | some t =>
    (Work.each (fun x k => (chunkStart x c k).attempt.bind fun x w0 =>
      match w0 with
      | some w0 =>
        (symsEnd x c t w0 (min 1024 (cdNsym x.h.obj - 1024 * k)) { bit := 0, word := none }).bind fun x b =>
          .ok x (8 * (w0 + (b + 63) / 64))
      | none => .ok x 0) x (List.range ((cdNsym x.h.obj + 1023) / 1024))).bind fun x ns => .ok x (ns.foldl max 0)

/-- R183: the source and destination ranges of a copy, by accesses of its engine (R143, R150, R153). DESIGN CHOICE (log 84): the last
byte of a bin that passes the end of its offset field wraps to the field's start, and a bin whose record cannot be read at `cpgo` is
left out of the BINS range. -/
def copyRanges (x : Eng) (c : CoreId) : Work (Option (Word × Word) × Option (Word × Word)) :=
  let h := x.h
  let d := h.active
  let r := resolve x.s.devId c
  let src := r (cdSrc d); let dst := r (cdDst d)
  let n := cdSize0 d
  let k := cdKind d
  if k = ckSTRIDED then
    let span := fun (q : Word) (st : Nat → Int) =>
      if n = 0 then none else some (setOff q (pOff q + strideLo d st).toNat, setOff q (pOff q + strideHi d st + n - 1).toNat)
    .ok x (span src (cdSs d), span dst (cdDs d))
  else if k = ckGATHER then .ok x (rangeOf (r (cdIndex d)) (4 * cdSize d 1), rangeOf dst (cdSize d 1 * n))
  else if k = ckBINS then
    let low := fun (a b : Word) => if b.extractLsb' 0 56 < a.extractLsb' 0 56 then b else a
    let high := fun (a b : Word) => if a.extractLsb' 0 56 < b.extractLsb' 0 56 then b else a
    (binRecords x c).bind fun x bs =>
      .ok x (rangeOf src (cdSize d 1 * n), match bs.filterMap (fun b => b.bind fun b => rangeOf (r b.1) (b.2 * n)) with
        | [] => none
        | b :: t => some (t.foldl (fun a x => low a x.1) b.1, t.foldl (fun a x => high a x.2) b.2))
  else if k = ckDECODE then
    (streamBytes x c).bind fun x m => .ok x (rangeOf src m, rangeOf dst (formBytes (pFmt (cdDst d)) (pBlg (cdDst d)) (cdNsym h.obj)))
  else .ok x (rangeOf src n, rangeOf dst n)

/-- R183: the lock entries of a copy, by its ranges. -/
def copyLocks (c : CoreId) (i : Nat) (h : Chan) (rs : Option (Word × Word) × Option (Word × Word)) : List Lock :=
  let mk := fun (dst : Bool) (r : Word × Word) =>
    let e : Lock := { dst := dst, xid := h.xid, tenant := h.tenant, first := r.1, last := r.2,
                      mask := if dst && cdKind h.active = ckMCAST then cdMask h.active else 0, core := c, ch := i,
                      shrinks := cdKind h.active != ckBINS }
    e
  (rs.1.map (mk false)).toList ++ (rs.2.map (mk true)).toList

/-- The offsets of each line of the part of a range that lies within n bytes from a place, that of offset 0 there. -/
def lineOffs (l : Lock) (at_ n : Nat) : List Nat :=
  let lo := max (posOf l.first) at_
  let hi := min (posOf l.last + 1) (at_ + n)
  ((List.range (hi - lo)).map (lo - at_ + ·)).filter fun o => o = lo - at_ || o % 64 = 0

/-- The cores of a die whose scratchpads a range may reach. -/
def lockCores (s : State) (d : BitVec 2) (l : Lock) : List CoreId :=
  let all := pSpc l.first != 0 || pDev l.first != s.devId || pSpc l.last != 0 || pDev l.last != s.devId
  let a := if all then 0 else (pCore l.first).toNat
  let b := if all then 4095 else (pCore l.last).toNat
  ((List.range (b + 1 - a)).map fun i => BitVec.ofNat 12 (a + i)).filter fun c => dieOf c == d

/-- The near lines of a lock's range on a die (R185): in every scratchpad of the die that the range reaches, or, of MCAST, of
the mask, and in its memory. -/
def lockLines (s : State) (d : BitVec 2) (l : Lock) : List Nat :=
  let sp : List Nat :=
    if l.mask = 0 then
      ((lockCores s d l).map fun c => (lineOffs l (posOf (spPtr s.devId c 0)) (2 ^ 18)).map fun o => lineOf (spKey c o)).flatten
    else if pDev l.first = s.devId then
      let cores := ((List.range 16).filter fun i => l.mask.getLsbD i).map fun i => (clusterOf (pCore l.first) ++ BitVec.ofNat 4 i : CoreId)
      ((cores.filter fun c => dieOf c == d).map fun c =>
        (lineOffs l (posOf (setOff l.first 0)) (2 ^ 18)).map fun o => lineOf (spKey c o)).flatten
    else []
  let dm := if l.mask = 0 then lineOffs l (posOf (dmPtr s.devId d 0)) (2 ^ 39) else []
  sp ++ dm.filterMap fun o => match xlate s d false l.tenant o with
    | .leaf fr lg a => if attrT a then none else some (lineOf (leafKey d false o fr lg a))
    | .fault _ => none

/-- R185: a registration squashes the chunks that it names. -/
def registerLocks (s : State) (d : BitVec 2) (ls : List Lock) : State :=
  let dl := ((ls.filter (·.dst)).map (lockLines s d)).flatten
  let sl := ((ls.filter fun l => !l.dst).map (lockLines s d)).flatten
  let s := s.modDie d fun x => { x with locks := x.locks ++ ls }
  (s.coresOfDie d).foldl (fun s c => allSlots.foldl (fun s n =>
    match (s.ctx c n).chunk with
    | some ch => if ch.meets dl || sigMeet sl ch.wsig then squash s c n else s
    | none => s) s) s

/-- The channel as `cpgo` starts it: identity and objects, the transfer id drawn. -/
def startedChan (s : State) (h : Chan) (obj ring : Vector Word 8) : Chan :=
  let d := h.shadow
  { h with active := d, obj := obj, ring := ring, wp := if cdKind d = ckBINS then 0 else cdDst d, pos := 0,
           xid := (s.die (dieOf s.iss.core)).xid, st := .active, cause := 0, fw := 0, slot := s.iss.slot, tenant := s.tenant,
           priv := s.me.priv, wid := s.me.a.wid, ltag := s.me.a.ltag, pages := [], comp := 0, acks := [] }

/-- R93, R100: the transfer id that `cpgo` returns, a long result. -/
def cpId (s : State) (a : RF) (x : W32) : State :=
  s.freshId.addLong { s.newLong s.nextId (s.dstG a) .word with inChunk := false, val := some x.toNat, due := some (s.mine.cyc + 1) }

/-- The engine of a channel as `cpgo` would start it, for what it reads then (R154, R158, R183). -/
def startEng (s : State) (h : Chan) (obj ring : Vector Word 8) : Eng := { s := s, h := startedChan s h obj ring }

/-- R185: the die's table has no room for a copy's two entries. -/
def locksFull (s : State) : Bool := decide (256 < (s.die (dieOf s.iss.core)).locks.length + 2)

/-- R292: starts the copy of a channel whose checks have passed. -/
def cpStart (s : State) (a : RF) (i : Nat) (obj ring : Vector Word 8) : State :=
  let c := s.iss.core
  let d := dieOf c
  let h := s.mine.ch i
  if h.st == .active then cpId s a 0
  else if locksFull s then (cpId s a 0).countDie d 3
  else
    let h' := startedChan s h obj ring
    let w := copyRanges (startEng s h obj ring) c
    let s := w.eng.s.modDie d fun x => { x with xid := if x.xid + 1 = 0 then 1 else x.xid + 1 }
    let s := registerLocks s d (copyLocks c i h' (w.val.getD (none, none)))
    cpId (s.modCh c i fun _ => h') a h'.xid

/-- R171: the registration waits for another context that holds the token. -/
def cpHold (s : State) (i : Nat) (obj ring : Vector Word 8) : Option Bool :=
  let d := dieOf s.iss.core
  let h := s.mine.ch i
  if h.st == .active || locksFull s then none
  else
    let ls := copyLocks s.iss.core i (startedChan s h obj ring) ((copyRanges (startEng s h obj ring) s.iss.core).val.getD (none, none))
    match s.tokenChunk d (some (s.iss.core, s.iss.slot)) with
    | some ch =>
      if ch.meets ((ls.filter (·.dst)).map (lockLines s d)).flatten ||
        sigMeet ((ls.filter fun l => !l.dst).map (lockLines s d)).flatten ch.wsig then some false else none
    | none => none

/-! ## The checks of `cpgo` (R292) -/

/-- Item 1. DESIGN CHOICE (log 79): of MCAST with MV, a DST outside SPC 0, which names no cores, falls under this item. -/
def descBad (s : State) (d : Vector Word 8) : Bool :=
  let k := cdKind d
  let q := s.res (cdDst d)
  k == 0 || decide (6 < k) || df d 0 12 4 != 0 || df d 3 32 32 != 0 || df d 4 48 16 != 0 || df d 5 63 1 != 0 || df d 6 63 1 != 0 ||
  (k == ckMCAST && cdMask d == 0) || (k == ckMCAST && cdMv d && !s.dieSp q)

/-- A CODE entry is malformed for a destination format: BLOCKS is zero for unscaled formats (R297, R258). -/
def codeBadFor (e : Vector Word 8) (f : Nat) : Bool := codeBad e || (!isBlocked f && dw e 3 != 0)

/-- The RING entry of a descriptor with RV (item 2). -/
def ringEntry (s : State) (d : Vector Word 8) : Except Trap (Vector Word 8) :=
  if !cdRv d then .ok noEntry
  else match useObj s (cdRing d) kRING rENG with
    | .error t => .error t
    | .ok e => if ringBad e then .error (s.tObj (cdRing d) 4) else .ok e

/-- Item 2: the objects by R257 and R258. Whether the ring is bound to its object is not tested here: R293 tests it at the
completion (DESIGN CHOICE, log 68). -/
def descObjs (s : State) (d : Vector Word 8) : Except Trap (Vector Word 8 × Vector Word 8) :=
  match ringEntry s d with
  | .error t => .error t
  | .ok r =>
    if cdKind d = ckBINS then
      match useObj s (cdObj d) kBINSET rENG with
      | .error t => .error t
      | .ok e => if binsetBad e then .error (s.tObj (cdObj d) 4) else .ok (e, r)
    else if cdKind d = ckDECODE then
      match useObj s (cdObj d) kCODE rENG with
      | .error t => .error t
      | .ok e => if codeBadFor e (pFmt (cdDst d)) then .error (s.tObj (cdObj d) 4) else .ok (e, r)
    else .ok (noEntry, r)

/-- The runs of a STRIDED copy leave the offset field. -/
def strideBad (d : Vector Word 8) (p : Word) (st : Nat → Int) : Bool :=
  (pOff p : Int) + strideLo d st < 0 || (2 ^ offW p : Nat) < (pOff p : Int) + strideHi d st + cdSize0 d

/-- A destination run begins below the end of the run before it. DESIGN CHOICE (log 84): with SIZE0 = 0, whose runs have no last byte, a
negative step is bad and a zero step is not. -/
def stepBad (d : Vector Word 8) : Bool :=
  let n : Int := cdSize0 d
  let e1 : Int := (cdSize d 1 - 1 : Nat) * cdDs d 1
  let e2 : Int := (cdSize d 2 - 1 : Nat) * cdDs d 2
  (decide (1 < cdSize d 1) && decide (cdDs d 1 < n)) || (decide (1 < cdSize d 2) && decide (cdDs d 2 - e1 < n)) ||
  (decide (1 < cdSize d 3) && decide (cdDs d 3 - e1 - e2 < n))

/-- Item 3. DESIGN CHOICE (log 79): where NSYM does not suit the format (R297), ADDR reports DST. -/
def descAddr (s : State) (d obj : Vector Word 8) : Option Trap :=
  let k := cdKind d
  let n := cdSize0 d
  let f := pFmt (cdDst d); let l := pBlg (cdDst d)
  let bad := fun (p : Word) (n : Nat) => if addrBad p n 1 then some (s.tAddr p) else none
  let when_ := fun (b : Bool) (p : Word) => if b then some (s.tAddr p) else none
  if k = ckSTRIDED then
    firstTrap [bad (cdSrc d) 0, when_ (strideBad d (cdSrc d) (cdSs d)) (cdSrc d), bad (cdDst d) 0,
      when_ (strideBad d (cdDst d) (cdDs d)) (cdDst d), when_ (stepBad d) (cdDst d)]
  else if k = ckGATHER then firstTrap [bad (cdSrc d) 0, bad (cdDst d) (cdSize d 1 * n), bad (cdIndex d) (4 * cdSize d 1)]
  else if k = ckBINS then firstTrap [bad (cdSrc d) (cdSize d 1 * n), bad (cdIndex d) (4 * cdSize d 1)]
  else if k = ckDECODE then
    firstTrap [bad (cdSrc d) 0, bad (cdDst d) (formBytes f l (cdNsym obj)), when_ (pSpc (cdSrc d) == 3) (cdSrc d),
      when_ (isBlocked f && cdNsym obj % 2 ^ l != 0) (cdDst d),
      when_ (elemWidth f == 4 && cdNsym obj % 2 != 0) (cdDst d)]
  else if k = ckMCAST then
    firstTrap [bad (cdSrc d) n, bad (cdDst d) n, when_ (!s.dieSp (s.res (cdDst d))) (cdDst d)]
  else firstTrap [bad (cdSrc d) n, bad (cdDst d) n]

/-- Item 4 (R158). A table whose page is under migration holds the bundle (R153); one that cannot be read ends the copy (log 24).
DESIGN CHOICE (log 79): a destination of formats 4-28 whose BLG is not one of R104 takes FORMAT. -/
def descFormat (s : State) (h : Chan) (d obj ring : Vector Word 8) : Option Trap :=
  let f := pFmt (cdDst d)
  if cdKind d ≠ ckDECODE then none
  else if f ≤ 3 || !blgOk f (pBlg (cdDst d)) then some (s.tFormat (cdDst d))
  else match readTable (startEng s h obj ring) s.iss.core with
    | .stop _ e => if e.cause = 0 then some heldRead else none
    | .ok _ t => if !t.ok then some (s.tFormat (dw obj 1)) else if !t.fits f then some (s.tFormat (cdDst d)) else none

/-- R153: a read of the registration waits for the migration of its page. -/
def rangesHeld (s : State) (h : Chan) (obj ring : Vector Word 8) : Option Trap :=
  if h.st == .active || locksFull s then none
  else match copyRanges (startEng s h obj ring) s.iss.core with
    | .ok _ _ => none
    | .stop _ _ => some heldRead

/-- R292: the first trap of `cpgo` on channel i. -/
def cpgoCheck (s : State) (i : Nat) : Except Trap (Vector Word 8 × Vector Word 8) :=
  let h := s.mine.ch i
  let d := h.shadow
  if descBad s d then .error (s.tObj 0xFFFF 4)
  else match descObjs s d with
    | .error t => .error t
    | .ok (obj, ring) =>
      match ((descAddr s d obj).or (descFormat s h d obj ring)).or (rangesHeld s h obj ring) with
      | some t => .error t
      | none => .ok (obj, ring)

/-! ## The instructions (R290-R295) -/

/-- ILLEGAL with reason 7 for a register that names no channel. -/
def chanCheck (s : State) (x : Word) : Option Trap := if (chanOf x).isNone then some (s.tIllegal 7) else none

/-- R291. -/
def execCpset (a b : RF) (s : State) : Out :=
  let x := s.rdG a
  let p := s.rdG b
  .next (runE (.cpset a b) s true
    (fun s => (chanCheck s x).or <|
      if addrBad p 64 64 || !s.ownSp (s.res p) then some (s.tAddr p)
      else (s.check p 64 0 64).or (s.watch p 64 0)) noHold
    fun s => (s.modCh s.iss.core ((chanOf x).getD 0) fun h =>
      { h with shadow := dwords8 (memRead s.mem (s.ownKey p) 64) }).advance)

/-- What `cpgo` reads is translated (R143): the entries of the descriptor's objects, and, once these are sound and no address is
bad, the code table. -/
def walkDesc (i : Instr) (s : State) (h : Chan) : State :=
  let d := h.shadow
  let u := if cdRv d then walkObj i s (cdRing d) else s
  let u := if (cdKind d = ckBINS || cdKind d = ckDECODE) && (trapOf (ringEntry u d)).isNone then walkObj i u (cdObj d) else u
  match descObjs u d with
  | .error _ => u
  | .ok (obj, ring) =>
    if cdKind d = ckDECODE && (descAddr u d obj).isNone && 3 < pFmt (cdDst d) && blgOk (pFmt (cdDst d)) (pBlg (cdDst d)) &&
        (s.early i).isNone && s.nextPc.isSome then
      match readTable (startEng u h obj ring) u.iss.core with
      | .ok x _ => x.s
      | .stop x e => if e.cause = 0 then u else x.s
    else u

/-- R292: long; the transfer id is its result (R100). -/
def execCpgo (a b : RF) (s : State) : Out :=
  let i := Instr.cpgo a b
  let x := s.rdG b
  let ch := (chanOf x).getD 0
  let chk := cpgoCheck s ch
  let objs := valOf (noEntry, noEntry) chk
  let u := if (chanCheck s x).isNone && !descBad s (s.mine.ch ch).shadow then walkDesc i s (s.mine.ch ch) else s
  .next (runE i u true (fun s => (chanCheck s x).or (trapOf chk)) (fun s => (holdLong s).or (cpHold s ch objs.1 objs.2))
    fun s => (cpStart s a ch objs.1 objs.2).advance)

/-- R295. -/
def execCpwp (a b : RF) (s : State) : Out :=
  .next (runC (.cpwp a b) s fun s =>
    match chanOf (s.rdG b) with
    | none => .trap (s.tIllegal 7)
    | some i => .ok (s.wrG a (s.mine.ch i).wp))

/-- R295: the status word. -/
def cpStatus (h : Chan) : Word :=
  let top := match h.st with | .error => 1 | .aborted => 2 | .idle => 3 | _ => 0
  if h.st == .done then 0 else BitVec.ofNat 64 (top * 2 ^ 62 + h.cause.toNat + h.fw.toNat * 2 ^ 4)

/-- R295. -/
def doneCpwait (a : RF) (s : State) (w : Wait) : Option State :=
  let h := s.mine.ch (w.vals.headD 0).toNat
  if h.st == .active then none else some (s.wrG a (cpStatus h))

/-- R295. -/
def execCpwait (a b c : RF) (s : State) : Out :=
  .next (runW (.cpwait a b c) s (fun s => chanCheck s (s.rdG b))
    (fun s => s.newWait (.cpwait a b c) [s.rdG b] (limitOf (s.rdG c))) (doneCpwait a))

/-- The locks of a channel are released (R187). -/
def releaseLocks (s : State) (c : CoreId) (i : Nat) : State :=
  s.modDie (dieOf c) fun d => { d with locks := d.locks.filter fun l => !(l.core == c && l.ch == i) }

/-- A copy ends in a state with a cause (R294). -/
def endCopy (s : State) (c : CoreId) (i : Nat) (st : ChanState) (cause : Nat) (fw : BitVec 5) : State :=
  releaseLocks (s.modCh c i fun h => { h with st := st, cause := BitVec.ofNat 4 cause, fw := fw, pages := [], comp := 0, acks := [] }) c i

/-- R187: a copy whose ring has advanced, or whose push or bump is on its way, is not ended before its effects are performed:
`cpabort` waits, its bundle held back (R68), and finds it DONE (DESIGN CHOICE, log 83). -/
def abortHold (i : Nat) (s : State) : Option Bool :=
  if (s.mine.ch i).st == .active && (s.mine.ch i).comp != 0 then some false else none

/-- R295. -/
def execCpabort (a : RF) (s : State) : Out :=
  let x := s.rdG a
  .next (runE (.cpabort a) s true (fun s => chanCheck s x) (abortHold ((chanOf x).getD 0)) fun s =>
    let i := (chanOf x).getD 0
    (if (s.mine.ch i).st == .active then endCopy s s.iss.core i .aborted 0 0 else s).advance)

/-! ## The engine's steps -/

/-- The copy of a channel runs and has bytes, tokens or symbols left. Engine accesses are held while a save
area is being written or read back (R354). -/
def copyRuns (s : State) (c : CoreId) (i : Nat) : Bool :=
  let h := (s.core c).ch i
  h.st == .active && h.pos < copyTotal h && !(s.cores.any fun p => p.2.pre == .saving || p.2.pre == .restoring)

/-- COPY_WRITE: R187, R289. -/
def execCopyWrite (core : CoreId) (ch : BitVec 1) (s : State) : Out :=
  .next (if copyRuns s core ch.toNat then
    match copyNext s core ch.toNat with
    | .ok x _ => x.s.modCh core ch.toNat fun _ => x.h
    | .stop _ _ => s
  else s)

/-- What a copy's error record says (R350). -/
def copyErrOp (h : Chan) (e : CopyErr) : ErrOp :=
  { kind := eCopy, fw := BitVec.ofNat 5 e.cause, op := 11, ptr := e.ptr, wid := h.wid, ltag := h.ltag, slot := h.slot, xid := h.xid }

/-- COPY_ERROR: R294. What the engine did before the failing access stays done. No context is ended. -/
def execCopyError (core : CoreId) (ch : BitVec 1) (s : State) : Out :=
  .next (if copyRuns s core ch.toNat then
    match copyNext s core ch.toNat with
    | .stop x e =>
      if e.cause = 0 then s
      else composeError (endCopy x.s core ch.toNat .error e.cause e.fw) core (copyErrOp x.h e) false false
    | .ok _ _ => s
  else s)

/-- R299: counter i of a core has reached the target of a wait. -/
def mbReached (k : Core) (i : Nat) (target : Word) : Bool := decide (0 ≤ (vget k.mbox i 0 - target.extractLsb' 0 32).toInt)

/-- The counter that a pointer names (R298). -/
def mbIdx (p : Word) : Nat := (p.extractLsb' 0 6).toNat

/-- R299: every `mbwait` on a counter of a core re-evaluates when it changes. -/
def wakeCounter (s : State) (c : CoreId) (i : Nat) : State :=
  allSlots.foldl (fun s n =>
    match (s.ctx c n).wait with
    | some w => match w.i with
      | .mbwait _ _ _ =>
        if (s.ctx c n).isWaiting && (s.core c).tests n && mbIdx (w.vals.headD 0) == i && mbReached (s.core c) i (w.vals.getD 1 0) then
          { (wakeCtx (asCtx s c n w.bundle).advance c n w.sbit) with iss := s.iss }
        else s
      | _ => s
    | none => s) s

/-- R298, R299: a counter of a core takes a value. -/
def mbPut (s : State) (c : CoreId) (i : Nat) (x : W32) : State :=
  wakeCounter (s.modCore c fun k => { k with mbox := vset k.mbox i x }) c i

/-- R298: adds to a counter of a core. -/
def mbAdd (s : State) (c : CoreId) (i : Nat) (x : W32) : State := mbPut s c i (vget (s.core c).mbox i 0 + x)

/-- From the cycle after the decision on, arrivals at the core are diverted (R354). -/
def diverts (k : Core) : Bool := k.pre == .draining || k.pre == .saving || k.pre == .saved || k.pre == .restoring

/-- An engine's operation on another core: a request in the identity of its copy (R293). -/
def engReq (s : State) (c : CoreId) (h : Chan) (q : Word) (body : Body) : Req :=
  { id := s.nextId, core := c, slot := h.slot, occ := (s.ctx c h.slot).occ, tenant := h.tenant, priv := h.priv, wid := h.wid, widf := 0,
    ltag := h.ltag, ord := false, dest := destOf q, tso := false, ret := false, body := body, given := none, phys := [], reply := .none,
    cancel := false, orphan := true }

/-- R293 item 2: the named ring advances, unless it is no longer bound to the object: at once on the issuing core, by a request
elsewhere. -/
def copyRing (s : State) (c : CoreId) (h : Chan) : State :=
  let e := h.ring
  let dev := rnDevOf s e
  let obj : BitVec 16 := BitVec.ofNat 16 (cdRing h.active)
  if !cdRv h.active then s
  else
    if dev = s.devId && rnOwner e = c then
      if ((s.core c).ring (rnNum e)).obj == some obj then s.modCore c fun k => k.setRing (rnNum e) (k.ring (rnNum e)).push else s
    else
      let q := spPtr dev (rnOwner e) (rnOff e)
      s.send (engReq s c h q (.ring .push (rnOwner e) dev obj 0 e none))

/-- R293 item 3: the counter of the issuing core, or of every core of the mask. -/
def copyBumps (s : State) (c : CoreId) (h : Chan) : State :=
  let d := h.active
  if !cdMv d then s
  else
    let cores := if cdKind d = ckMCAST then (copyDests d (resolve s.devId c (cdDst d))).map pCore else [c]
    cores.foldl (fun s m =>
      let q := spPtr s.devId m (cdMbx d)
      if m = c then mbAdd s m (cdMbx d) 1 else s.send (engReq s c h q (.mb .inc q 1))) s

/-- A completion waits for a push or a bump that it has sent (R187, R293). -/
def copyAwaits (s : State) (h : Chan) : Bool := s.net.any fun r => h.acks.contains r.id && r.reply == .none

/-- R293: the next of a completion's parts: items 2, 3, and 4 with 5. Each waits until what the part before it sent is performed. -/
def completeCopy (s : State) (c : CoreId) (i : Nat) : State :=
  let h := (s.core c).ch i
  let part := fun (n : Nat) (t : State) =>
    t.modCh c i fun h => { h with comp := n, acks := (List.range (t.nextId - s.nextId)).map (s.nextId + ·) }
  if h.st != .active || copyAwaits s h then s
  else match h.comp with
    | 0 => part 1 (copyRing s c h)
    | 1 => part 2 (copyBumps s c h)
    | _ => endCopy s c i .done 0 0

/-- COPY_COMPLETE: R293. -/
def execCopyComplete (core : CoreId) (ch : BitVec 1) (s : State) : Out :=
  let h := (s.core core).ch ch.toNat
  let go := fun (s : State) => completeCopy s core ch.toNat
  .next (if h.st == .active && copyTotal h ≤ h.pos then go (go (go s)) else s)

end Sys2Proof.Machine
end

