-- ==== Sys2Proof/Machine/Mailbox.lean ====
section
/-! DEFINITION. Mailbox counters (R298, R299). -/

namespace Sys2Proof.Machine

/-- R298: the pointer names a counter. -/
def mbOk (p : Word) : Bool := pSpc p == 0 && p.extractLsb' 18 14 == 0 && p.extractLsb' 6 12 == 0

/-- ADDR for a pointer that names no counter; `own` asks for one of the issuing core. -/
def mbCheck (s : State) (p : Word) (own : Bool) : Option Trap :=
  if !mbOk p || (own && !s.ownSp (s.res p)) then some (s.tAddr p) else none

/-- An operation of R299 on a counter of a core: the state and the value read. -/
def mbAt (s : State) (c : CoreId) (op : MbOp) (i : Nat) (x : W32) : State × Word :=
  match op with
  | .inc => (mbAdd s c i x, 0)
  | .set => (mbPut s c i x, 0)
  | .rd => (s, (vget (s.core c).mbox i 0).setWidth 64)

/-- `mbinc` and `mbset` on an own counter are performed in the order of R176. -/
def mbHold (p : Word) (s : State) : Option Bool := if s.ownSp (s.res p) then holdRelease s else none

/-- `mbinc` and `mbset` after the commit: in the issuer's turn on its own core, posted elsewhere. -/
def mbPostOp (op : MbOp) (p x : Word) (s : State) : State :=
  let q := s.res p
  if s.ownSp q then (mbAt s s.iss.core op (mbIdx p) (x.extractLsb' 0 32)).1.advance
  else (sendOp s true false q (.mb op q x) (some p)).advance

/-- The frame of `mbinc` and `mbset`. -/
def mbPost (i : Instr) (s : State) (op : MbOp) (p x : Word) : State :=
  runR i s true (fun s => mbCheck s p false) (mbHold p) noEntry (mbPostOp op p x)

/-- R299. -/
def execMbinc (a b : RF) (s : State) : Out := .next (mbPost (.mbinc a b) s .inc (s.rdG a) (s.rdG b))

/-- R299. -/
def execMbset (a b : RF) (s : State) : Out := .next (mbPost (.mbset a b) s .set (s.rdG a) (s.rdG b))

/-- R299: the counter has reached its target. -/
def doneMbwait (s : State) (w : Wait) : Option State :=
  if mbReached s.mine (mbIdx (w.vals.headD 0)) (w.vals.getD 1 0) then some s else none

/-- R299. -/
def execMbwait (a b c : RF) (s : State) : Out :=
  .next (runW (.mbwait a b c) s (fun s => mbCheck s (s.rdG a) true)
    (fun s => s.newWait (.mbwait a b c) [s.rdG a, s.rdG b] (limitOf (s.rdG c))) doneMbwait)

/-- R299: short on the issuing core's counter, long elsewhere. -/
def execMbrd (a b : RF) (s : State) : Out :=
  .next (runC (.mbrd a b) s fun s =>
    let p := s.rdG b
    let q := s.res p
    match mbCheck s p false with
    | some t => .trap t
    | none =>
      if s.ownSp q then .ok (s.wrG a (mbAt s s.iss.core .rd (mbIdx p) 0).2)
      else if !s.canLong then .hold true
      else
        let l := s.newLong s.nextId (s.dstG a) .word
        .ok ((sendOp s false true q (.mb .rd q 0) (some p)).addLong { l with body := some (.mb .rd q 0), given := some p }))

end Sys2Proof.Machine
end

