-- ==== Sys2Proof/Machine/Tasks.lean ====
section
/-! DEFINITION. Tasks (R358-R382): work ids, active messages, the task graph unit's nodes and launches, and
fork-join. -/

namespace Sys2Proof.Machine

/-! ## Work ids -/

/-- R47: field n of a work id. -/
def widField (wid widf : Word) (n : Nat) : Word :=
  let nf := widf.toNat % 8
  let wd := fun i => widf.toNat / 2 ^ (3 + 6 * i) % 64
  if nf ≤ n then 0 else BitVec.ofNat 64 (wid.toNat / 2 ^ ((List.range n).map wd).sum % 2 ^ wd n)

/-- R359. -/
def execWfield (a : RF) (n : BitVec 6) (s : State) : Out :=
  .next (runC (.wfield a n) s fun s => .ok (s.wrG a (widField s.me.a.wid s.me.a.widf n.toNat)))

/-! ## Active messages (R360) -/

/-- FetchOK as a core of a device judges it (R194, R360). -/
def fetchOkOn (dev : BitVec 10) (c : CoreId) (t : Word) : Bool :=
  let q := resolve dev c t
  t.extractLsb' 0 3 == 0 && mbzOk t && pDev q == dev && ((pSpc q == 0 && pCore q == c) || pSpc q == 1)

/-- R360: the pointer names a core and a queue. -/
def amsgOk (p : Word) : Bool := pSpc p == 0 && p.extractLsb' 18 14 == 0 && p.extractLsb' 2 16 == 0

/-- Work in the identity of the issuing context. -/
def State.entryOf (s : State) (q : BitVec 2) (pc w1 w2 : Word) (src : Nat) : Entry :=
  { q := q, pc := pc, w1 := w1, w2 := w2, wid := s.me.a.wid, widf := s.me.a.widf, ltag := s.me.a.ltag, tenant := s.tenant,
    succ := 0, src := src, pipe := Vector.replicate 8 0 }

/-- R360. -/
def execAmsg (a b c : RF) (s : State) : Out :=
  let p := s.rdG b
  let pc := s.rdG c
  .next (runE (.amsg a b c) s true
    (fun s =>
      let q := s.res p
      if !amsgOk p then some (s.tAddr p) else if fetchOkOn (pDev q) (pCore q) pc then none else some (s.tAddr pc))
    holdLong
    fun s =>
      let q := s.res p
      let e := s.entryOf (p.extractLsb' 0 2) pc (s.rdG (grp c 1)) (s.rdG (grp c 2)) 1
      (startOp s true q (.start (pCore q) (pDev q) e 10) (s.dstG a) p).advance)

/-! ## The task graph unit's view (R365) -/

/-- A helper slot whose owner queue carries a tenant. -/
def Core.slotFor (k : Core) (t : Tenant) (n : SlotNo) : Bool := qTenant k.r.qwgt (ownerQ k.r.slotOwn n.toNat) == t

/-- The VACANT helper slots of a core, bit n for slot n. -/
def Core.vacantMask (k : Core) : BitVec 11 :=
  BitVec.ofNat 11 ((helperSlots.filter fun n => (k.ctx n).st == .vacant).map fun n => 2 ^ n.toNat).sum

/-- Starts sent to a core and not yet applied there, for a tenant (R365). -/
def startsInFlight (s : State) (c : CoreId) (t : Tenant) : Nat :=
  s.net.countP fun r => match r.body with
    | .start dest dev e op => op == 13 && dest == c && dev == s.devId && e.tenant == t && r.reply == .none
    | _ => false

/-- R365: the VACANT helper slots that the unit of a die last knew of a core: all of them before the first report. -/
def viewOf (s : State) (d : BitVec 2) (c : CoreId) : BitVec 11 := (kget (s.die d).tgu.view c.toNat).getD 0x7FE

/-- The matching VACANT slots that the unit of a die last knew of a core, less the starts on their way. -/
def knownVacant (s : State) (d : BitVec 2) (c : CoreId) (t : Tenant) : Nat :=
  let m := viewOf s d c
  (helperSlots.countP fun n => m.getLsbD n.toNat && (s.core c).slotFor t n) - startsInFlight s c t

/-- The cores of a list with a matching VACANT slot, in order: the first one. -/
def firstVacant (s : State) (d : BitVec 2) (t : Tenant) (cs : List CoreId) : Option CoreId :=
  cs.find? fun c => 0 < knownVacant s d c t

/-- A cluster's cores upward from one, wrapping. -/
def clusterFrom (c : CoreId) : List CoreId := (List.range 16).map fun i => clusterOf c ++ (c.extractLsb' 0 4 + BitVec.ofNat 4 i)

/-- Every core of a die, in ascending order. -/
def dieCores (d : BitVec 2) : List CoreId := (List.range 1024).map fun i => (d ++ BitVec.ofNat 10 i : CoreId)

/-- R365: the core that a dispatched node goes to. -/
def dispatchCore (s : State) (d : BitVec 2) (n : Node) : CoreId :=
  if n.aff = 1 then n.target
  else if n.aff = 2 then (firstVacant s d n.e.tenant (clusterFrom n.target)).getD n.target
  else
    let cs := dieCores d
    let other := cs.filter fun c => clusterOf c != clusterOf n.creator
    let quad := other.filter fun c => quadOf c == quadOf n.creator
    let rest := other.filter fun c => quadOf c != quadOf n.creator
    (firstVacant s d n.e.tenant (clusterFrom n.creator ++ quad ++ rest)).getD n.creator

/-- The request of a start that the unit sends to a core of its die: charged to no context. DESIGN CHOICE (log 85): so is a launch's work
item, and its refusal at the core makes a record of operation 13 with LOST = 1, as R365 gives for a node. -/
def unitReq (s : State) (by_ c : CoreId) (e : Entry) : Req :=
    { id := s.nextId, core := by_, slot := noSlot, occ := 0, tenant := e.tenant, priv := false, wid := e.wid, widf := e.widf, ltag := e.ltag,
      ord := false, dest := .dev s.devId, tso := false, ret := false, body := .start c s.devId e 13, given := none, phys := [], reply := .none,
      cancel := false, orphan := true }

/-- A start that the unit sends to a core of its die. -/
def unitStart (s : State) (by_ c : CoreId) (e : Entry) : State := s.send (unitReq s by_ c e)

/-! ## Nodes (R361-R364) -/

/-- The handle of a node entry (R361). -/
def nodeHandle (d : BitVec 2) (i : Nat) (g : BitVec 16) : W32 := g ++ (1 : BitVec 1) ++ d ++ BitVec.ofNat 13 i

/-- The fields of a handle. -/
def hDie (h : W32) : BitVec 2 := h.extractLsb' 13 2
def hIdx (h : W32) : Nat := (h.extractLsb' 0 13).toNat
def hGen (h : W32) : BitVec 16 := h.extractLsb' 16 16

/-- The live node that a handle names at a die's unit. -/
def liveNode (s : State) (d : BitVec 2) (h : W32) : Option Node :=
  if h.getLsbD 15 && hDie h == d then (kget (s.die d).tgu.nodes (hIdx h)).filter fun n => n.gen == hGen h else none

/-- Changes a die's unit. -/
def State.modTgu (s : State) (d : BitVec 2) (f : Tgu → Tgu) : State := s.modDie d fun x => { x with tgu := f x.tgu }

/-- Removes a key. -/
def kdel {α : Type} (l : List (Nat × α)) (k : Nat) : List (Nat × α) := l.filter fun p => p.1 != k

/-- R365: dispatches the node of an entry, which is freed. -/
def dispatch (s : State) (d : BitVec 2) (i : Nat) (n : Node) : State :=
  let c := dispatchCore s d n
  let s := s.modTgu d fun t => { t with nodes := kdel t.nodes i, gens := kset t.gens i (n.gen + 1) }
  unitStart s n.creator c n.e

/-- The lowest free entry of a node table. -/
def freeNode (t : Tgu) : Option Nat := (List.range 8192).find? fun i => (kget t.nodes i).isNone

/-- R362: a descriptor's dwords, as the issuing context sees them. -/
def nodeDesc (s : State) (p : Word) : List Word :=
  let bs := s.readOwn ((List.range 32).map fun i => s.ownKey p + i)
  (List.range 4).map fun i => BitVec.ofNat 64 (leBytes bs (8 * i) 8)

/-- R363: a refused descriptor. -/
def nodeBad (s : State) (d : List Word) : Bool :=
  let d3 := d.getD 3 0
  let aff := (d3.extractLsb' 48 2).toNat
  let target : CoreId := d3.extractLsb' 52 12
  aff == 3 || (aff == 0 && target != 0) || (aff != 0 && dieOf target != dieOf s.iss.core) || !s.fetchOk (d.getD 0 0)

/-- R363: the node of a descriptor. -/
def nodeOf (s : State) (d : List Word) (g : BitVec 16) : Node :=
  let d3 := d.getD 3 0
  { e := { s.entryOf (d3.extractLsb' 50 2) (d.getD 0 0) (d.getD 1 0) (d.getD 2 0) 2 with succ := d3.extractLsb' 0 32 }
    gen := g, count := d3.extractLsb' 32 16, aff := d3.extractLsb' 48 2, target := d3.extractLsb' 52 12, creator := s.iss.core }

/-- A long operation whose unit has answered already; its reply comes back at a moment of its own. -/
def unitReply (s : State) (dst : Dst) (v : Nat) : State :=
  s.freshId.addLong { s.newLong s.nextId dst .word with inChunk := false, val := some v }

/-- R363: creates the node after the commit; the result is its handle, or 0. -/
def tgNew (s : State) (a : RF) (d : List Word) : State :=
  let die := dieOf s.iss.core
  let t := (s.die die).tgu
  match freeNode t with
  | none => (unitReply s (s.dstG a) 0).countDie die 5
  | some i =>
    let g := (kget t.gens i).getD 0
    let n := nodeOf s d g
    let s := unitReply s (s.dstG a) (nodeHandle die i g).toNat
    if n.count = 0 then dispatch s die i n else s.modTgu die fun t => { t with nodes := kset t.nodes i n }

/-- R188, R97: a release with a long result. -/
def releaseLong (s : State) : Option Bool := (holdRelease s).or (holdLong s)

/-- R363: after the commit; the first dwords of an entry hold the descriptor as read at issue. -/
def tgnewOp (a : RF) (e : Vector Word 8) (s : State) : State := (tgNew s a (e.toList.take 4)).advance

/-- R363; a release (R188). -/
def execTgnew (a b : RF) (s : State) : Out :=
  let p := s.rdG b
  let d := nodeDesc s p
  let e : Vector Word 8 := Vector.ofFn fun i => d.getD i.val 0
  .next (runR (.tgnew a b) s true
    (fun s =>
      if addrBad p 32 8 || !s.ownSp (s.res p) then some (s.tAddr p)
      else (s.check p 32 0 8).or <| (if nodeBad s d then some (s.tObj 0xFFFF 4) else none).or <| s.watch p 32 0)
    releaseLong e (tgnewOp a e))

/-- R364: the decrement at the unit that holds the node. -/
def nodeDone (s : State) (d : BitVec 2) (t : Tenant) (h : W32) : State :=
  match (liveNode s d h).filter fun n => n.e.tenant == t with
  | none => s.modTgu d fun u => { u with stale := if u.stale = BitVec.allOnes 32 then u.stale else u.stale + 1 }
  | some n =>
    let n := { n with count := n.count - 1 }
    if n.count = 0 then dispatch s d (hIdx h) n else s.modTgu d fun u => { u with nodes := kset u.nodes (hIdx h) n }

/-- R364. -/
def execTgdone (s : State) : Out :=
  .next (runE .tgdone s true (fun _ => none) noHold fun s =>
    let h := s.me.succ
    let s := s.modMe fun x => { x with succ := 0 }
    if h = 0 then s.advance
    else
      (s.send (s.request s.iss.core s.iss.slot true (.dev s.devId) false false (.tgdone h) none)).advance)

/-! ## Launches (R366-R373) -/

/-- Fields of a LAUNCH entry (R366). -/
def laGang (e : Vector Word 8) : Bool := (dw e 0).getLsbD 8
def laNormal (e : Vector Word 8) : Bool := (dw e 0).getLsbD 9
def laQueue (e : Vector Word 8) : Nat := df e 0 10 2
def laAff (e : Vector Word 8) : Nat := df e 0 12 2
def laTarget (e : Vector Word 8) : CoreId := BitVec.ofNat 12 (df e 0 16 12)
def laNkern (e : Vector Word 8) : Nat := df e 0 28 4
def laPc (e : Vector Word 8) : Word := dw e 1
def laArg (e : Vector Word 8) : Word := dw e 2
def laFields (e : Vector Word 8) : Word := dw e 3
def laExt (e : Vector Word 8) (n : Nat) : Nat := df e (4 + n / 2) (32 * (n % 2)) 32
def laDone (e : Vector Word 8) : Word := dw e 7

/-- NF and the width of field i of a WID.FIELDS. -/
def nfOf (w : Word) : Nat := w.toNat % 8
def widthOfField (w : Word) (i : Nat) : Nat := w.toNat / 2 ^ (3 + 6 * i) % 64

/-- R369: the cores of a placement: assigned to the tenant, their queue carrying it. -/
def placement (s : State) (e : Vector Word 8) (c : CoreId) (t : Tenant) : List CoreId :=
  let cs := if laAff e = 1 then [laTarget e] else if laAff e = 2 then (clusterFrom (clusterOf (laTarget e) ++ (0 : BitVec 4)))
    else s.coresOfDie (dieOf c)
  cs.filter fun x => (s.core x).asg == some t && qTenant (s.core x).r.qwgt (laQueue e) == t

/-- R367 reasons 1 and 2. -/
def launchFields (e : Vector Word 8) : Bool :=
  !widfOk (laFields e) || df e 0 14 2 != 0 || df e 0 32 32 != 0 || (laNkern e != 0 && !laGang e)
def launchExts (e : Vector Word 8) : Bool :=
  (List.range 6).any fun n =>
    if n < nfOf (laFields e) then laExt e n == 0 || decide (2 ^ widthOfField (laFields e) n < laExt e n) else laExt e n != 0

/-- The bytes of a gang's table (R371); none of a launch that is no gang. -/
def gangSize (e : Vector Word 8) : Nat := if laGang e then 16 + 16 * laNkern e else 0

/-- The bytes of a gang's table at commit, or none where it does not lie in the two places or cannot be read. -/
def gangBytes (s : State) (p : Word) (n : Nat) : Option (List Byte) :=
  let q := s.res p
  if addrBad p n 1 || !(s.ownSp q || s.ownDie q) then none
  else match found s s.iss.core s.tenant s.me.priv q n 0 false 0 with
    | .ok ks => some (bytesAt s ks)
    | _ => none

/-- R371: the kernels of a gang's table, and its pipes. Bytes 15:12 of an entry, stated zero, are not looked at (DESIGN CHOICE, log 85). -/
def gangTable (s : State) (e : Vector Word 8) : Option (List (Word × Nat) × Vector (BitVec 16) 8) :=
  let nk := laNkern e
  (gangBytes s (laPc e) (gangSize e)).map fun bs =>
    ((List.range nk).map fun k => (BitVec.ofNat 64 (leBytes bs (16 + 16 * k) 8), leBytes bs (24 + 16 * k) 4),
      Vector.ofFn fun i => BitVec.ofNat 16 (leBytes bs (2 * i.val) 2))

/-- R367 reason 7, R371. -/
def gangBad (e : Vector Word 8) (t : Option (List (Word × Nat) × Vector (BitVec 16) 8)) : Bool :=
  match t with
  | none => true
  | some (ks, _) =>
    laNkern e < 2 || 8 < laNkern e || ks.any (fun k => k.2 == 0) || laFields e != 0 ||
    (List.range 6).any (fun n => laExt e n != 0) || decide ((if laAff e = 1 then 10 else 160) < (ks.map (·.2)).sum)

/-- A tag that is not live, from the counter on (R367). -/
def nextTag (d : BitVec 2) (t : Tgu) : Option (Nat × Nat) :=
  (((List.range 16383).map fun i => (t.nextTag - 1 + i) % 16383 + 1).find? fun m =>
    !(t.launches.any fun l => l.tag.toNat == d.toNat * 2 ^ 14 + m)).map fun m => (m, m % 16383 + 1)

/-- R367: the reason of a refusal, the lowest that holds; 0 for none. -/
def launchReason (s : State) (e : Vector Word 8) (g : Option (List (Word × Nat) × Vector (BitVec 16) 8)) : Nat :=
  let d := dieOf s.iss.core
  let pl := placement s e s.iss.core s.tenant
  let done := s.res (laDone e)
  let pcs := if laGang e then ((g.map (·.1)).getD []).map (·.1) else [laPc e]
  if launchFields e then 1
  else if !laGang e && launchExts e then 2
  else if laAff e = 3 || (laAff e = 0 && laTarget e != 0) || (laAff e != 0 && dieOf (laTarget e) != d) || pl.isEmpty then 3
  else if laNormal e && (s.die d).svc.getLsbD 0 then 4
  else if laDone e != 0 && (addrBad (laDone e) 64 64 || !(s.ownSp done || s.ownDie done)) then 5
  else if (nextTag d (s.die d).tgu).isNone then 6
  else if laGang e && gangBad e g then 7
  else if pcs.any fun pc => pl.any fun c => !fetchOkAt s c pc then 8
  else 0

/-- R367: the launch that the unit accepts. -/
def newLaunch (s : State) (e : Vector Word 8) (tag : BitVec 16) (g : Option (List (Word × Nat) × Vector (BitVec 16) 8)) : Launch :=
  { tag := tag, tenant := s.tenant, priv := s.me.priv, core := s.iss.core, obj := e, next := 0, last := none, expanded := false, started := 0,
    errors := 0, lost := 0, reduced := false, gang := laGang e, kernels := (g.map (·.1)).getD [],
    pipes := (g.map (·.2)).getD (Vector.replicate 8 0), slots := [] }

/-- The members of a gang. -/
def Launch.members (l : Launch) : Nat := (l.kernels.map (·.2)).sum

/-- R373: the VACANT matching helper slots of a core that nothing holds. -/
def Core.freeFor (k : Core) (t : Tenant) : List SlotNo :=
  helperSlots.filter fun n => (k.ctx n).st == .vacant && vget k.sched.resv n.toNat .none == .none && k.slotFor t n

/-- R373: the cluster's cores that a gang may be placed on. -/
def gangCores (s : State) (l : Launch) : List CoreId :=
  let pl := placement s l.obj l.core l.tenant
  if laAff l.obj ≠ 0 then pl
  else
    let fits := fun (cl : BitVec 8) =>
      l.members ≤ ((pl.filter fun c => clusterOf c == cl).map fun c => helperSlots.countP ((s.core c).slotFor l.tenant)).sum
    match l.slots with
    | (c, _) :: _ => pl.filter fun x => clusterOf x == clusterOf c
    | [] => match (pl.map clusterOf).find? fits with
      | some cl => pl.filter fun x => clusterOf x == cl
      | none => []

/-- R373: the unit reserves VACANT slots for the oldest waiting gang of the die. -/
def reserveGang (s : State) (d : BitVec 2) : State :=
  match (s.die d).tgu.launches.find? fun l => l.gang && !l.expanded with
  | none => s
  | some l =>
    let view := fun (c : CoreId) (n : SlotNo) => (viewOf s d c).getLsbD n.toNat
    let free := ((gangCores s l).map fun c => (((s.core c).freeFor l.tenant).filter (view c)).map fun n => (c, n)).flatten
    let got := free.take (l.members - l.slots.length)
    let s := got.foldl (fun s p => s.modCore p.1 fun k =>
      { k with sched := { k.sched with resv := vset k.sched.resv p.2.toNat (.gang l.tag) } }) s
    s.modTgu d fun t => { t with launches := t.launches.map fun x => if x.tag == l.tag then { x with slots := x.slots ++ got } else x }

/-- R367: the unit accepts or refuses; the result is the tag, or 0. -/
def tgLaunch (s : State) (a : RF) (e : Vector Word 8) : State :=
  let d := dieOf s.iss.core
  let g := if laGang e then gangTable s e else none
  let r := launchReason s e g
  match nextTag d (s.die d).tgu with
  | some (m, nx) =>
    if r = 0 then
      let tag : BitVec 16 := BitVec.ofNat 16 (d.toNat * 2 ^ 14 + m)
      let l := newLaunch s e tag g
      let s := unitReply s (s.dstG a) tag.toNat
      reserveGang (s.modTgu d fun t => { t with launches := t.launches ++ [l], nextTag := nx }) d
    else (unitReply s (s.dstG a) 0).modTgu d fun t => { t with refusal := BitVec.ofNat 4 r }
  | none => (unitReply s (s.dstG a) 0).modTgu d fun t => { t with refusal := BitVec.ofNat 4 r }

/-- R143, R150: the translations under which the unit reads a gang's table. -/
def walkGang (s : State) (e : Vector Word 8) : State :=
  if addrBad (laPc e) (gangSize e) 1 then s else s.touchOwn (s.res (laPc e)) (gangSize e) 0

/-- R153, R188, R97: what holds a `tglaunch` back. -/
def tglaunchHold (e : Vector Word 8) (s : State) : Option Bool :=
  (releaseLong s).or (if laGang e && s.ownHeld (s.res (laPc e)) (gangSize e) then some false else none)

/-- R367: after the commit. -/
def tglaunchOp (a : RF) (e : Vector Word 8) (s : State) : State := (tgLaunch (walkGang s e) a e).advance

/-- R367; a release (R188). -/
def execTglaunch (a b : RF) (s : State) : Out :=
  let i := Instr.tglaunch a b
  let idx := objIdx (s.rdG b)
  let s := walkObj i s idx
  let use := useObj s idx kLAUNCH rENG
  let e := valOf noEntry use
  .next (runR i s true (fun _ => trapOf use) (tglaunchHold e) e (tglaunchOp a e))

/-! ## `tgstat` (R375) -/

/-- Bits of the selector outside those that its word names. -/
def tgstatRsv (x : Word) : Bool :=
  match (x.extractLsb' 62 2).toNat with
  | 0 => x.extractLsb' 32 30 != 0
  | 1 => x.extractLsb' 16 46 != 0
  | _ => x.extractLsb' 0 62 != 0

/-- R375: the word selected. -/
def tgstatWord (s : State) (x : Word) : Nat :=
  let d := dieOf s.iss.core
  let t := (s.die d).tgu
  match (x.extractLsb' 62 2).toNat with
  | 0 => match liveNode s d (x.extractLsb' 0 32) with
    | some n => 2 ^ 62 + n.count.toNat * 2 ^ 32 + n.e.succ.toNat
    | none => 0
  | 1 => match t.launches.find? fun l => l.tag == x.extractLsb' 0 16 with
    | some l => (if l.expanded then 2 else if l.gang then 3 else 1) * 2 ^ 62 + min l.started.toNat (2 ^ 32 - 1)
    | none => 0
  | 2 => (8192 - t.nodes.length) % 2 ^ 14 + t.launches.length % 2 ^ 14 * 2 ^ 16 + t.refusal.toNat * 2 ^ 32
  | _ => t.stale.toNat

/-- R375: keeps its chunk open. -/
def execTgstat (a b : RF) (s : State) : Out :=
  .next (runC (.tgstat a b) s fun s =>
    let x := s.rdG b
    if tgstatRsv x then .trap (s.tIllegal 3)
    else if !s.canLong then .hold true
    else .ok (s.freshId.addLong { s.newLong s.nextId (s.dstG a) .word with val := some (tgstatWord s x) }))

/-! ## Fork-join (R376-R380) -/

/-- R378: ADDR for a target that is not formed, or for a frame that names no counter. -/
def spawnCheck (s : State) (p : Word) (d : BitVec 18) : Option Trap :=
  if (targetOf s.iss.pc d.toInt).isNone then some (s.tAddr s.iss.pc) else mbCheck s p false

/-- The invocation state with the surrogate's results in OUT (R415). -/
def Inv.settled (v : Inv) : Inv :=
  if v.pend then { v with pend := false, res := [], out := Vector.ofFn fun i => v.res.getD i.val (vget v.out i.val 0) } else v

/-- R378: the continuation that a `spawn` pushes. Its invocation state travels with it under a steal (R415, R420; DEDUCED,
log 69: R376 does not list it). -/
def spawnEntry (s : State) (p next : Word) : DqEntry :=
  let x := s.me
  { slot := s.iss.slot, occ := x.occ, priv := x.priv, tenant := s.tenant, frame := s.res p
    arch := { x.a with pc := next, g := vset x.a.g 63 (vget s.src.g 63 0), sg := 0, sv := 0, sp := 0, wonly := false }
    succ := x.succ, inv := x.inv.settled, member := x.member
    before := (s.net.filter fun r => r.ord && r.core == s.iss.core && r.slot == s.iss.slot && r.occ == x.occ).map (·.id)
    leaving := none }

/-- R378: after the commit. -/
def spawnOp (s : State) (p : Word) (d : BitVec 18) : State :=
  let next := s.nextPc.getD s.iss.pc
  let t := (targetOf s.iss.pc d.toInt).getD s.iss.pc
  let dq := s.mine.sched.deque
  if dq.length < 32 then
    ((s.modMine fun k => { k with sched := { k.sched with deque := dq ++ [spawnEntry s p next], backoff := 0 } }).wrG 63 0).setPc t
  else
    (((s.modR fun r => { r with dqCount := r.dqCount + 1 }).countCtx s.iss.core s.iss.slot 22).wrG 63 next).setPc t

/-- R378: held while a long operation of the context, from before its bundle, is outstanding. -/
def spawnHold (s : State) : Option Bool := if s.oldLong.length + s.mine.tookOf s.iss.slot != 0 then some false else none

/-- R378. -/
def execSpawn (a : RF) (d : BitVec 18) (s : State) : Out :=
  let p := s.rdG a
  .next (runE (.spawn a d) s true (fun s => spawnCheck s p d) spawnHold fun s => spawnOp s p d)

/-- The youngest entry that the issuing context pushed: its place in the deque. -/
def youngest (s : State) : Option (Nat × DqEntry) :=
  ((s.mine.sched.deque.mapIdx fun i e => (i, e)).filter fun p => p.2.slot == s.iss.slot && p.2.occ == s.me.occ).getLast?

/-- R380: the fast path restores the registers of the entry except g1 and g2. -/
def Arch.resumeFrom (a e : Arch) : Arch :=
  { a with g := vset (vset e.g 1 (vget a.g 1 0)) 2 (vget a.g 2 0), v := e.v, p := e.p, fpf := e.fpf, pc := e.pc, wonly := false }

/-- R380: after the commit. -/
def spendOp (s : State) (p link : Word) : State :=
  if link ≠ 0 then s.setPc link
  else
    let slow := fun (s : State) =>
      let q := s.res p
      retire (if s.ownSp q then (mbAt s s.iss.core .inc (mbIdx p) 1).1 else sendOp s true false q (.mb .inc q 1) (some p))
    match youngest s with
    | some (i, e) =>
      if e.frame = s.res p then
        (s.modMine fun k => { k with sched := { k.sched with deque := k.sched.deque.eraseIdx i } }).modMe
          fun x => { x with a := x.a.resumeFrom e.arch }
      else slow s
    | none => slow s

/-- R380: the youngest entry of the issuing context has the frame. -/
def spendsFast (s : State) (p : Word) : Bool := (youngest s).any fun e => e.2.frame == s.res p

/-- R380: a return through link 0 waits while an entry of the core is LEAVING; a bump of an own counter is a release (R188). -/
def spendHold (p link : Word) (s : State) : Option Bool :=
  if link = 0 && s.mine.sched.deque.any (fun e => e.leaving.isSome) then some false
  else if link = 0 && !spendsFast s p && s.ownSp (s.res p) then holdRelease s
  else none

/-- R380. -/
def execSpend (a : RF) (s : State) : Out :=
  let p := s.rdG a
  let link := s.rdG 63
  .next (runR (.spend a) s false
    (fun s => (mbCheck s p false).or (if link ≠ 0 && !s.fetchOk link then some (s.tAddr link) else none))
    (spendHold p link) noEntry fun s => spendOp s p link)

end Sys2Proof.Machine
end

