-- ==== Sys2Proof/Machine/Enfleurage.lean ====
section
/-! DEFINITION. The enfleurage fitting engine (R407-R426). -/

namespace Sys2Proof.Machine

/-! ## The REGION object (R409, R410) -/

def rgLayers (e : Vector Word 8) : Nat := df e 0 8 2
def rgNin (e : Vector Word 8) : Nat := df e 0 10 5
def rgNout (e : Vector Word 8) : Nat := df e 0 16 4
def rgH1 (e : Vector Word 8) : Nat := df e 0 20 6
def rgH2 (e : Vector Word 8) : Nat := df e 0 26 6
def rgInit (e : Vector Word 8) : Nat := df e 0 32 2
def rgBatch (e : Vector Word 8) : Nat := df e 0 34 6 + 1
def rgEval (e : Vector Word 8) : Nat := df e 0 40 8
def rgStrike (e : Vector Word 8) : Nat := df e 0 48 4
def rgEta (e : Vector Word 8) : Nat := df e 1 0 32
def rgEps (e : Vector Word 8) : Nat := df e 1 32 32
def rgBudget (e : Vector Word 8) : Nat := df e 2 0 16
def rgPeriod (e : Vector Word 8) : Nat := df e 2 16 16
def rgSeed (e : Vector Word 8) : W32 := BitVec.ofNat 32 (df e 2 32 32)

/-- A finite FP32 value, above zero, or not below it. -/
def finitePos (x : Nat) : Bool := match fp32 x with | .fin s n _ => !s && n != 0 | _ => false
def finiteNonneg (x : Nat) : Bool := match fp32 x with | .fin s n _ => !s || n == 0 | _ => false

/-- R409: a malformed REGION. -/
def regionBad (e : Vector Word 8) : Bool :=
  rgLayers e == 0 || df e 0 15 1 != 0 || (rgLayers e == 1 && rgH1 e != 0) || (decide (rgLayers e ≤ 2) && rgH2 e != 0) ||
  rgInit e == 3 || rgEval e == 0 || rgStrike e == 0 || df e 0 52 12 != 0 || !finitePos (rgEta e) || !finiteNonneg (rgEps e) ||
  rgBudget e == 0 || rgPeriod e == 0 || (rgInit e == 2 && rgSeed e == 0) || dw e 3 != 0 || dw e 4 != 0 || dw e 5 != 0 ||
  dw e 6 != 0 || dw e 7 != 0

/-- R410: the layer widths n_0 to n_L. -/
def rgWidths (e : Vector Word 8) : List Nat :=
  let hidden := if rgLayers e = 1 then [] else if rgLayers e = 2 then [rgH1 e + 1] else [rgH1 e + 1, rgH2 e + 1]
  [rgNin e + 1] ++ hidden ++ [rgNout e + 1]

/-- R410: the parameter count. -/
def paramCount : List Nat → Nat
  | a :: b :: t => b * a + b + paramCount (b :: t)
  | _ => 0

/-! ## Arithmetic (R411-R414) -/

/-- FP32 codes: rounded sum of a code and an exact product, rounded product, difference. -/
def fma32 (z w a : Nat) : Nat := rne32 ((fp32 z).sum2 ((fp32 w).mul (fp32 a)))
def mul32 (x y : Nat) : Nat := rne32 ((fp32 x).mul (fp32 y))
def add32 (x y : Nat) : Nat := rne32 ((fp32 x).sum2 (fp32 y))
def sub32 (x y : Nat) : Nat := rne32 ((fp32 x).sum2 (fp32 y).neg)

/-- x lies below y; false for a NaN. -/
def below (x y : Num) : Bool := !x.isNan && !y.isNan && x.cmp y == .lt

/-- The value of a code is above zero. -/
def above0 (x : Nat) : Bool := below (.fin false 0 1) (fp32 x)

/-- The activation of a hidden layer. -/
def relu (z : Nat) : Nat := if (fp32 z).isNan then 0x7FC00000 else if above0 z then z else 0

/-- One layer of R411: its z values from its parameters and its inputs. -/
def layerZ (ps : List W32) (base n : Nat) (a : List Nat) : List Nat :=
  (List.range n).map fun j =>
    (a.mapIdx fun i x => ((ps.getD (base + j * a.length + i) 0).toNat, x)).foldl (fun z p => fma32 z p.1 p.2)
      (ps.getD (base + n * a.length + j) 0).toNat

/-- R411: z and a of every layer, from the widths above the inputs. -/
def forward (ps : List W32) : Nat → List Nat → List Nat → List (List Nat × List Nat)
  | _, [], _ => []
  | base, n :: t, a =>
    let z := layerZ ps base n a
    let y := if t.isEmpty then z else z.map relu
    (z, y) :: forward ps (base + n * a.length + n) t y

/-- R411: the outputs. -/
def outputs (ps : List W32) (widths : List Nat) (x : List Nat) : List Nat :=
  ((forward ps 0 widths.tail x).getLast?.map (·.2)).getD []

/-- Gradients of one sample, from the last layer down: `zs` and `as` hold z and the inputs of each layer. -/
def backLayers (ps : List W32) : List (Nat × Nat × List Nat × List Nat) → List Nat → List W32 → List W32
  | [], _, g => g
  | (base, n, zin, a) :: t, d, g =>
    let m := a.length
    let g := (List.range n).foldl (fun g j => (List.range m).foldl (fun g i =>
      let k := base + j * m + i
      g.set k (BitVec.ofNat 32 (fma32 (g.getD k 0).toNat (d.getD j 0) (a.getD i 0)))) g) g
    let g := (List.range n).foldl (fun g j =>
      let k := base + n * m + j
      g.set k (BitVec.ofNat 32 (add32 (g.getD k 0).toNat (d.getD j 0)))) g
    let d' := (List.range m).map fun i =>
      let s := (List.range n).foldl (fun s j => fma32 s (ps.getD (base + j * m + i) 0).toNat (d.getD j 0)) 0
      if above0 (zin.getD i 0) then s else 0
    backLayers ps t d' g

/-- The layers of a forward pass, last first: base, width, z of the layer below, inputs. -/
def layersDown (ps : List W32) (widths : List Nat) (x : List Nat) : List (Nat × Nat × List Nat × List Nat) :=
  let fs := forward ps 0 widths.tail x
  let go := (fs.foldl (fun (acc : Nat × List Nat × List Nat × List (Nat × Nat × List Nat × List Nat)) za =>
    let base := acc.1; let zin := acc.2.1; let a := acc.2.2.1
    (base + za.1.length * a.length + za.1.length, za.1, za.2, (base, za.1.length, zin, a) :: acc.2.2.2)) (0, [], x, []))
  go.2.2.2

/-- R412: one training step on the held samples. -/
def trainStep (e : Vector Word 8) (ps : List W32) (held : List (List W32 × List W32)) : List W32 :=
  let widths := rgWidths e
  let g := held.foldl (fun g s =>
    let x := s.1.map (·.toNat)
    let yh := outputs ps widths x
    let d := yh.mapIdx fun k v => sub32 v (s.2.getD k 0).toNat
    backLayers ps (layersDown ps widths x) d g) (ps.map fun _ => 0)
  let r := rne32 (.fin false 1 (rgBatch e))
  ps.mapIdx fun k w =>
    let m := mul32 (g.getD k 0).toNat r
    BitVec.ofNat 32 (rne32 ((fp32 w.toNat).sum2 ((fp32 (rgEta e)).mul (fp32 m)).neg))

/-- R413: the sample passes. -/
def samplePasses (e : Vector Word 8) (ps : List W32) (x y : List W32) : Bool :=
  let yh := outputs ps (rgWidths e) (x.map (·.toNat))
  (yh.mapIdx fun k v => fp32 (sub32 v (y.getD k 0).toNat)).all fun d => !d.isNan && !below (fp32 (rgEps e)) d.abs

/-- One step of xorshift32. -/
def xorshift (s : W32) : W32 :=
  let s := s ^^^ (s <<< 13)
  let s := s ^^^ (s >>> 17)
  s ^^^ (s <<< 5)

/-- R414: one weight from the generator's state. -/
def prngWeight (s : W32) (fan : Nat) : W32 :=
  let t : Nat := s.toNat / 2 ^ 8
  let k : Int := 2 * (t : Int) - 2 ^ 24 + 1
  let f : Num := .fin (k < 0) k.natAbs (2 ^ 24)
  BitVec.ofNat 32 (rne32 (f.mul (fp32 (rne32 (sqrtNum 1 fan)))))

/-- R414: n weights of a fan-in, and the state after them. -/
def prngRun : Nat → Nat → W32 → List W32 × W32
  | 0, _, s => ([], s)
  | n + 1, fan, s =>
    let s := xorshift s
    let r := prngRun n fan s
    (prngWeight s fan :: r.1, r.2)

/-- R414: the parameters of PRNG, layer by layer. -/
def prngParams : List Nat → W32 → List W32
  | a :: b :: t, s =>
    let r := prngRun (b * a) a s
    r.1 ++ List.replicate b 0 ++ prngParams (b :: t) r.2
  | _, _ => []

/-- R414: the parameters on entry to OBSERVE. -/
def initParams (e : Vector Word 8) (old : List W32) : List W32 :=
  match rgInit e with
  | 0 => List.replicate (paramCount (rgWidths e)) 0
  | 1 => old
  | _ => prngParams (rgWidths e) (rgSeed e)

/-! ## Region entries (R407, R419) -/

/-- FP32 codes of the infinities, which are empty bounds. -/
def posInf : W32 := 0x7F800000
def negInf : W32 := 0xFF800000

/-- Empty bounds. -/
def Region.clearBounds (r : Region) : Region := { r with mins := List.replicate 32 posInf, maxs := List.replicate 32 negInf }

/-- A region entry just bound: OFF, its words +0. -/
def newRegion (t : Tenant) (obj : BitVec 16) (e : Vector Word 8) (base : Nat) : Region :=
  { tenant := t, obj := obj, entry := e, st := 0, base := base, params := List.replicate (paramCount (rgWidths e)) 0, held := [],
    mins := List.replicate 32 posInf, maxs := List.replicate 32 negInf, n := 0, steps := 0, strikes := 0, passes := 0, oob := 0,
    drops := 0, abandon := 0, served := 0, stamp := 0 }

/-- The index of a region in an engine. -/
def Engine.find (e : Engine) (t : Tenant) (obj : BitVec 16) : Option Nat :=
  e.regions.findIdx? fun r => match r with | some r => r.tenant == t && r.obj == obj | none => false

/-- The region of an index. -/
def Engine.at_ (e : Engine) (i : Nat) : Option Region := e.regions.getD i none

/-- A run of words in use: base and length. -/
def Engine.runs (e : Engine) : List (Nat × Nat) :=
  e.regions.filterMap fun r => match r with | some r => if r.params.isEmpty then none else some (r.base, r.params.length) | none => none

/-- The lowest free run of n words of the 16,384. -/
def Engine.freeRun (e : Engine) (n : Nat) : Option Nat :=
  let cands := (0 :: (e.runs.map fun p => p.1 + p.2)).filter fun b =>
    b + n ≤ 16384 && !(e.runs.any fun p => p.1 < b + n && b < p.1 + p.2)
  match cands with
  | [] => none
  | b :: t => some (t.foldl min b)

/-- R407: the entry that a binding takes: a free one, else the one invalidated earliest. -/
def Engine.freeEntry (e : Engine) : Option Nat :=
  match e.regions.findIdx? (·.isNone) with
  | some i => some i
  | none =>
    let inv := (e.regions.mapIdx fun i r => (i, r)).filterMap fun p => match p.2 with
      | some r => if r.st = 9 then some (p.1, r.stamp) else none
      | none => none
    match inv with
    | [] => none
    | b :: t => some (t.foldl (fun a x => if x.2 < a.2 then x else a) b).1

/-- R407: binds a region, in its own entry `own` or in one that the engine finds; none with NOROOM. -/
def Engine.bind (e : Engine) (own : Option Nat) (t : Tenant) (obj : BitVec 16) (ent : Vector Word 8) : Option (Nat × Region) :=
  match own.or e.freeEntry, e.freeRun (paramCount (rgWidths ent)) with
  | some i, some b => some (i, newRegion t obj ent b)
  | _, _ => none

/-- Saturating additions. -/
def sat32 (x : W32) : W32 := if x = BitVec.allOnes 32 then x else x + 1
def sat16 (x : BitVec 16) : BitVec 16 := if x = BitVec.allOnes 16 then x else x + 1

/-- R419: the entry invalidated; one that is INVALIDATED already keeps its place in the order of R407. -/
def Region.invalid (r : Region) (stamp : Nat) : Region :=
  { r.clearBounds with st := 9, params := [], held := [], n := 0, steps := 0, strikes := 0, passes := 0, oob := 0, drops := 0,
                       abandon := 0, served := 0, stamp := if r.st = 9 then r.stamp else stamp }

/-- Puts a region into its entry; a change of its state offers EVENT 4 (R408, R446). -/
def putRegion (s : State) (c : CoreId) (n : SlotNo) (eng : BitVec 8) (i : Nat) (old : Nat) (r : Region) : State :=
  let e := s.engine eng
  let s := s.setEngine eng { e with regions := e.regions.set i (some r) }
  if old = r.st then s
  else s.traceEvent c n 4 (old + 16 * r.st) [extRec (BitVec.ofNat 64 (r.obj.toNat + i * 2 ^ 16 + eng.toNat * 2 ^ 20)) 0]

/-- NOROOM and LDREJ count once more. -/
def countEngine (s : State) (eng : BitVec 8) (noroom ldrej : Bool) : State :=
  let e := s.engine eng
  s.setEngine eng { e with noroom := if noroom then sat32 e.noroom else e.noroom, ldrej := if ldrej then sat16 e.ldrej else e.ldrej }

/-- Invalidates the region of an entry (R419). -/
def invalidate (s : State) (c : CoreId) (n : SlotNo) (eng : BitVec 8) (i : Nat) (r : Region) : State :=
  let e := s.engine eng
  let s := s.setEngine eng { e with stamp := e.stamp + 1 }
  putRegion s c n eng i r.st (r.invalid e.stamp)

/-! ## `apx.on` (R417, R423) -/

/-- R417: an input is out of bounds. -/
def outOfBounds (r : Region) (x : List W32) : Bool :=
  (x.mapIdx fun i v => (i, v)).any fun p =>
    let v := fp32 p.2.toNat
    v.isNan || below v (fp32 (r.mins.getD p.1 posInf).toNat) || below (fp32 (r.maxs.getD p.1 negInf).toNat) v

/-- Widens the bounds to include inputs. -/
def Region.widen (r : Region) (x : List W32) : Region :=
  { r with mins := r.mins.mapIdx fun i m => match x[i]? with
             | some v => if below (fp32 v.toNat) (fp32 m.toNat) then v else m
             | none => m
           maxs := r.maxs.mapIdx fun i m => match x[i]? with
             | some v => if below (fp32 m.toNat) (fp32 v.toNat) then v else m
             | none => m }

/-- Roles of R417. -/
def roTRAIN : BitVec 2 := 0
def roEVAL : BitVec 2 := 1
def roCOMPARE : BitVec 2 := 2
def roNONE : BitVec 2 := 3

/-- R417: what a bound region does on `apx.on`: the region, pd, ROLE. -/
def Region.on (r : Region) (x : List W32) : Region × Bool × BitVec 2 :=
  let served := { r with n := (r.n + 1) % rgPeriod r.entry }
  match r.st with
  | 1 | 2 | 6 => (r, false, roTRAIN)
  | 3 => (r, false, roEVAL)
  | 4 =>
    if outOfBounds r x then ({ r with oob := sat32 r.oob }, false, roNONE)
    else if served.n = 0 then ({ served with st := 5 }, false, roCOMPARE)
    else ({ served with served := sat32 r.served }, true, roNONE)
  | 5 =>
    if outOfBounds r x then ({ r with oob := sat32 r.oob }, false, roNONE)
    else ({ served with served := sat32 r.served }, true, roNONE)
  | _ => (r, false, roNONE)

/-- R417: a region of state OFF or INVALIDATED, bound or to be bound, enters OBSERVE; NOROOM otherwise. -/
def onBind (s : State) (c : CoreId) (n : SlotNo) (eng : BitVec 8) (own : Option Nat) (old : Nat) (t : Tenant) (obj : BitVec 16)
    (ent : Vector Word 8) : State × Bool × BitVec 2 :=
  let e := s.engine eng
  let bound := own.bind fun i => (e.at_ i).filter fun r => !r.params.isEmpty
  let got := match own, bound with
    | some i, some r => some (i, r)
    | _, _ => e.bind own t obj ent
  match got with
  | none => (countEngine s eng true false, false, roNONE)
  | some (i, r) =>
    (putRegion s c n eng i old { r.clearBounds with st := 1, steps := 0, params := initParams r.entry r.params }, false, roTRAIN)

/-- R417: the engine's answer to `apx.on`: the state, pd, ROLE and the surrogate's outputs. -/
def engineOn (s : State) (c : CoreId) (n : SlotNo) (eng : BitVec 8) (t : Tenant) (obj : BitVec 16) (ent : Vector Word 8)
    (x : List W32) : State × Bool × BitVec 2 × List W32 :=
  match (s.engine eng).find t obj with
  | none => let r := onBind s c n eng none 0 t obj ent; (r.1, r.2.1, r.2.2, [])
  | some i =>
    match (s.engine eng).at_ i with
    | none => (s, false, roNONE, [])
    | some r =>
      -- R419: a changed entry; row 9 of R417 clears bounds and counts too, that events have changed since
      let stale := r.entry != ent || r.st = 9
      let s := if stale then invalidate s c n eng i r else s
      if stale || r.st = 0 then
        let q := onBind s c n eng (some i) (if stale then 9 else 0) t obj ent
        (q.1, q.2.1, q.2.2, [])
      else
        let q := r.on x
        let ys := if q.2.1 then (outputs r.params (rgWidths r.entry) (x.map (·.toNat))).map (BitVec.ofNat 32) else []
        (putRegion s c n eng i r.st q.1, q.2.1, q.2.2, ys)

/-- The inputs that an invocation holds. -/
def Inv.inputs (v : Inv) : List W32 := v.inp.toList.take v.nin

/-- The check of a region operand: OBJ by R257, R258 and R409. -/
def regionUse (s : State) (x : Word) (right : Nat) : Except Trap (Vector Word 8) :=
  match useObj s (objIdx x) kREGION right with
  | .error t => .error t
  | .ok e => if regionBad e then .error (s.tObj (objIdx x) 4) else .ok e

/-- R423: IHDR and IST after the engine's answer. -/
def Inv.opened (v : Inv) (obj : BitVec 16) (eng : BitVec 8) (e : Vector Word 8) (pd : Bool) (role : BitVec 2) (ys : List W32) : Inv :=
  { v with ist := if pd then 3 else 2, nout := BitVec.ofNat 4 (rgNout e), mask := 0, role := role, pend := pd, obj := obj,
           eng := eng, res := ys }

/-- R423. -/
def execApxOn (p : BitVec 3) (b : RF) (s : State) : Out :=
  let i := Instr.apxOn p b
  let x := s.rdG b
  let s := walkObj i s (objIdx x)
  let use := regionUse s x rR
  let e := valOf noEntry use
  let obj : BitVec 16 := x.extractLsb' 0 16
  let eng := clusterOf s.iss.core
  .next (runE i s true
    (fun s => (trapOf use).or (if s.me.inv.nin ≠ rgNin e + 1 then some (s.tIllegal 7) else none)) noHold
    fun s =>
      let r := engineOn s s.iss.core s.iss.slot eng s.tenant obj e s.me.inv.inputs
      let s := r.1.wrP p (true64 r.2.1)
      (s.modMe fun c => { c with inv := c.inv.opened obj eng e r.2.1 r.2.2.1 r.2.2.2 }).advance)

/-! ## `apx.in`, `apx.out`, `apx.res` -/

/-- R422. -/
def execApxIn (a : RF) (s : State) : Out :=
  .next (runE (.apxIn a) s true (fun _ => none) noHold fun s =>
    let x : W32 := (s.rdG a).extractLsb' 0 32
    (s.modMe fun c => { c with inv := { c.inv with ist := 1, inp := vset c.inv.inp c.inv.nin x, nin := c.inv.nin + 1 } }).advance)

/-- R424. -/
def execApxOut (k : BitVec 6) (b : RF) (s : State) : Out :=
  .next (runE (.apxOut k b) s true (fun _ => none) noHold fun s =>
    let x : W32 := (s.rdG b).extractLsb' 0 32
    (s.modMe fun c => { c with inv := { c.inv with out := vset c.inv.out k.toNat x, mask := c.inv.mask ||| BitVec.twoPow 16 k.toNat } }).advance)

/-- R424: output k as OUT holds it once PEND is 0: the surrogate's result, or, of an image loaded with PEND set, its own word. -/
def Inv.output (v : Inv) (k : Nat) : W32 := if v.pend then v.res.getD k (vget v.out k 0) else vget v.out k 0

/-- R424: returns once PEND is 0. -/
def execApxRes (a : RF) (k : BitVec 6) (s : State) : Out :=
  .next (runE (.apxRes a k) s true (fun _ => none) holdLong fun s =>
    let l := s.newLong s.nextId (s.dstG a) .surr
    (s.freshId.addLong { l with inChunk := false, val := some (s.me.inv.output k.toNat).toNat }).advance)

/-! ## Closing an invocation (R418, R425) -/

/-- R418: the entry to FALLBACK. -/
def Region.fallback (r : Region) : Region := { r.clearBounds with st := 6, held := [], steps := 0, strikes := 0 }

/-- R418: a complete sample at a region; `room` says that the sample buffer has a free entry. -/
def Region.complete (r : Region) (role : BitVec 2) (x y : List W32) (room : Bool) : Region :=
  let nan := (x ++ y).any fun v => (fp32 v.toNat).isNan
  if (r.st = 1 || r.st = 2 || r.st = 6) && role = roTRAIN then
    if nan || !room then { r with drops := sat32 r.drops }
    else
      let r := { r.widen x with held := r.held ++ [(x, y)] }
      if r.held.length < rgBatch r.entry then r
      else { r with params := trainStep r.entry r.params r.held, held := [], steps := r.steps + 1, passes := 0, st := 3 }
  else if r.st = 3 && role = roEVAL then
    let pass := samplePasses r.entry r.params x y
    let r := r.widen x
    if pass then
      (if r.passes + 1 = rgEval r.entry then { r with passes := r.passes + 1, st := 4, n := 0, strikes := 0 }
       else { r with passes := r.passes + 1 })
    else { r with st := if r.steps = rgBudget r.entry then 8 else 2 }
  else if r.st = 5 && role = roCOMPARE then
    if samplePasses r.entry r.params x y then { r with strikes := 0, st := 4 }
    else if r.strikes + 1 = rgStrike r.entry then r.fallback
    else { r with strikes := r.strikes + 1, st := 4 }
  else r

/-- R418: an abandoned invocation at a region. -/
def Region.abandoned (r : Region) (role : BitVec 2) : Region :=
  let r' := { r with abandon := sat32 r.abandon }
  if r.st = 5 && role = roCOMPARE then { r' with st := 4 } else r'

/-- Samples held in an engine. -/
def Engine.samples (e : Engine) : Nat :=
  (e.regions.map fun r => match r with | some r => r.held.length | none => 0).sum

/-- R420: the n words of a sample that a region takes, of those that the invocation holds; words it does not hold are free. `o` is the
number of the first. -/
def sampleWords (free o n : Nat) (xs : List W32) : List W32 :=
  (List.range n).map fun i => xs.getD i (Config.lateWord free (o + i))

/-- R418, R420: the event of a closing invocation reaches its engine, and the region as it now stands. From FALLBACK the state passes
through OBSERVE. -/
def closeEvent (s : State) (c : CoreId) (n : SlotNo) (v : Inv) (complete : Bool) : State :=
  let t := (s.core c).tenantOf n
  let e := s.engine v.eng
  match e.find t v.obj with
  | none => s
  | some i =>
    match e.at_ i with
    | none => s
    | some r =>
      let x := sampleWords s.free 0 (rgNin r.entry + 1) v.inputs
      let y := sampleWords s.free 32 (rgNout r.entry + 1) (v.out.toList.take (v.nout.toNat + 1))
      let r' := if complete then r.complete v.role x y (decide (e.samples < 256)) else r.abandoned v.role
      let s := if v.nin < rgNin r.entry + 1 || v.nout.toNat < rgNout r.entry then s.draw else s
      if r.st = 6 && r'.st = 3 then putRegion (putRegion s c n v.eng i 6 { r' with st := 1 }) c n v.eng i 1 r'
      else putRegion s c n v.eng i r.st r'

/-- An invocation whose outputs are all held. -/
def Inv.full (v : Inv) : Bool := (List.range (v.nout.toNat + 1)).all fun k => v.mask.getLsbD k

/-- R420, R425: the invocation of a context closes, and the context holds nothing of it (R61: its UNIT bytes are zero); when the
context ends, TRUE counts as abandoned. -/
def closeInv (s : State) (c : CoreId) (n : SlotNo) (ends : Bool) : State :=
  let v := (s.ctx c n).inv
  let s := if v.ist = 2 || v.ist = 4 then closeEvent s c n v (v.ist = 2 && v.full && !ends) else s
  s.modCtx c n fun x => { x with inv := Inv.zero }

/-- R425: waits while PEND is 1. -/
def execApxEnd (s : State) : Out :=
  .next (runE .apxEnd s true (fun _ => none) (fun s => if s.me.inv.pend then some false else none)
    fun s => (closeInv s s.iss.core s.iss.slot false).advance)

/-- R425: the region at the issuing cluster's engine is invalidated. -/
def execApxInv (a : RF) (s : State) : Out :=
  let i := Instr.apxInv a
  let x := s.rdG a
  let s := walkObj i s (objIdx x)
  let use := regionUse s x rW
  let eng := clusterOf s.iss.core
  .next (runE i s true (fun _ => trapOf use) noHold fun s =>
    let e := s.engine eng
    match (e.find s.tenant (x.extractLsb' 0 16)).bind fun i => (e.at_ i).map fun r => (i, r) with
    | some (i, r) => (invalidate s s.iss.core s.iss.slot eng i r).advance
    | none => s.advance)

/-! ## `apx.st`, `apx.ld` (R426) -/

/-- The word number of a selector. -/
def apxWord (x : Word) : Nat := (x.extractLsb' 16 16).toNat

/-- R426: the status word. -/
def Region.status (r : Region) : Nat :=
  r.st + r.strikes * 2 ^ 4 + r.steps % 2 ^ 16 * 2 ^ 8 + r.passes % 2 ^ 8 * 2 ^ 24 + r.held.length % 2 ^ 7 * 2 ^ 32 + r.n * 2 ^ 40

/-- R426: word w of a region, or of the engine where the region is not bound. -/
def apxStWord (e : Engine) (r : Option Region) (w : Nat) : Nat :=
  if w = 3 then e.noroom.toNat + e.ldrej.toNat * 2 ^ 32
  else match r with
    | none => 0
    | some r =>
      if w = 0 then r.status
      else if w = 1 then r.oob.toNat + r.drops.toNat * 2 ^ 32
      else if w = 2 then r.abandon.toNat + r.served.toNat * 2 ^ 32
      else if 4 ≤ w && w < 36 then (r.mins.getD (w - 4) posInf).toNat + (r.maxs.getD (w - 4) negInf).toNat * 2 ^ 32
      else if 256 ≤ w then (r.params.getD (w - 256) 0).toNat
      else 0

/-- ILLEGAL with reason 3 for a selector whose bits 63:32 are not zero. -/
def apxSelCheck (s : State) (x : Word) : Option Trap := if x.extractLsb' 32 32 ≠ 0 then some (s.tIllegal 3) else none

/-- R426. -/
def execApxSt (a b : RF) (s : State) : Out :=
  let i := Instr.apxSt a b
  let x := s.rdG b
  let s := if x.extractLsb' 32 32 = 0 then walkObj i s (objIdx x) else s
  let use := regionUse s x rR
  .next (runE i s true (fun s => (apxSelCheck s x).or (trapOf use)) noHold fun s =>
    let e := s.engine (clusterOf s.iss.core)
    let r := (e.find s.tenant (x.extractLsb' 0 16)).bind e.at_
    (s.wrG a (BitVec.ofNat 64 (apxStWord e r (apxWord x)))).advance)

/-- R426: an accepted or rejected load of a parameter. The words of a region that is OFF stay as they were bound; where its entry has
grown since, a word beyond them is rejected (DESIGN CHOICE, log 82). -/
def apxLoad (s : State) (x : Word) (ent : Vector Word 8) (v : W32) : State :=
  let c := s.iss.core; let n := s.iss.slot
  let eng := clusterOf c
  let e := s.engine eng
  let own := e.find s.tenant (x.extractLsb' 0 16)
  let r := own.bind e.at_
  let w := apxWord x
  let stOk := match r with | some r => r.st = 0 || r.st = 9 | none => true
  let old := match r with | some r => r.st | none => 0
  let words := r.filter fun r => !r.params.isEmpty
  if !stOk || w < 256 || 256 + paramCount (rgWidths ent) ≤ w || words.any (fun r => 256 + r.params.length ≤ w) then countEngine s eng false true
  else
    let got := match own, words with
      | some i, some r => some (i, r)
      | _, _ => e.bind own s.tenant (x.extractLsb' 0 16) ent
    match got with
    | none => countEngine s eng true true
    | some (i, r) => putRegion s c n eng i old { r with st := 0, params := r.params.set (w - 256) v }

/-- R426. -/
def execApxLd (a b : RF) (s : State) : Out :=
  let i := Instr.apxLd a b
  let x := s.rdG b
  let s := if x.extractLsb' 32 32 = 0 then walkObj i s (objIdx x) else s
  let use := regionUse s x rW
  .next (runE i s true (fun s => (apxSelCheck s x).or (trapOf use)) noHold fun s =>
    (apxLoad s x (valOf noEntry use) ((s.rdG a).extractLsb' 0 32)).advance)

/-- SURROGATE_RESULT: R423. The surrogate's outputs reach OUT and PEND clears. -/
def execSurrogateResult (core : CoreId) (slot : SlotNo) (s : State) : Out :=
  .next (s.modCtx core slot fun x => { x with inv := x.inv.settled })

end Sys2Proof.Machine
end

