-- ==== Sys2Proof/Machine/Alembic.lean ====
section
/-! DEFINITION. The alembic (R427-R441): streams of constraints, the formation of groups, the held list of
a context, and the five instructions. -/

namespace Sys2Proof.Machine

/-! ## Streams -/

/-- Stream j of a die. -/
def State.stream (s : State) (d : BitVec 2) (j : Nat) : Stream := vget (s.die d).streams j Stream.zero

/-- The state with one stream replaced. -/
def State.setStream (s : State) (d : BitVec 2) (j : Nat) (x : Stream) : State :=
  s.modDie d fun y => { y with streams := vset y.streams j x }

/-- SNUM and GMAX of a STREAM entry (R428). -/
def stSnum (e : Vector Word 8) : Nat := df e 0 8 2
def stGmax (e : Vector Word 8) : Nat := df e 0 16 10

/-- R428: a malformed STREAM entry. -/
def streamBad (e : Vector Word 8) : Bool :=
  df e 0 10 6 != 0 || df e 0 26 38 != 0 || stGmax e == 0 || decide (512 < stGmax e) || ((List.range 7).any fun i => dw e (i + 1) != 0)

/-- R428: the stream is bound to an object of a tenant. A FREE stream has no binding. -/
def Stream.bound (x : Stream) (t : Tenant) (obj : BitVec 16) : Bool := x.st != 0 && x.tenant == t && x.obj == obj

/-- The bodies of a constraint, without "no body" (R430). -/
def Cons.real (c : Cons) : List W32 := c.bodies.filter (· != 0xFFFFFFFF)

/-- R432: one pass over the constraints in stream order, with the bodies seen and the count admitted. -/
def formOf (gmax : Nat) : List Cons → List W32 → Nat → List Cons × Nat
  | [], _, n => ([], n)
  | c :: t, seen, n =>
    if c.st ≠ 0 then
      let r := formOf gmax t seen n
      (c :: r.1, r.2)
    else if n = gmax then (c :: t, n)
    else
      let ok := !(c.real.any fun b => seen.contains b)
      let r := formOf gmax t (seen ++ c.real) (if ok then n + 1 else n)
      ((if ok then { c with st := 1 } else c) :: r.1, r.2)

/-- R432: the formation of a group, when the current one is done and a constraint is PENDING: the stream and
the number admitted. -/
def Stream.form (x : Stream) : Option (Stream × Nat) :=
  if x.cons.any (fun c => c.st != 0) || x.cons.isEmpty then none
  else
    let r := formOf x.gmax x.cons [] 0
    some ({ x with group := x.group + 1, cons := r.1 }, r.2)

/-- The stream after an event of a context, and the group that the event makes possible, with its record
(R432, R433, R446). -/
def streamEvent (s : State) (c : CoreId) (n : SlotNo) (j : Nat) (x : Stream) : State :=
  let d := dieOf c
  match x.form with
  | none => s.setStream d j x
  | some (y, k) =>
    (s.setStream d j y).traceEvent c n 5 0
      [extRec (BitVec.ofNat 64 (y.group.toNat + k * 2 ^ 32 + j * 2 ^ 42 + d.toNat * 2 ^ 44)) 0]

/-- Saturating count. -/
def satInc (x : W32) : W32 := if x = BitVec.allOnes 32 then x else x + 1

/-! ## Events of a stream -/

/-- R429: a push binds the stream, FREE or ENDED. -/
def Stream.binds (x : Stream) : Bool := x.st == 0 || x.st == 3

/-- R436: a push by an object finds its condition true. -/
def Stream.pushReady (x : Stream) (t : Tenant) (obj : BitVec 16) : Bool :=
  x.binds || (x.bound t obj && decide (x.cons.length < 2048))

/-- R429, R430, R436: a push is taken. -/
def Stream.push (x : Stream) (t : Tenant) (obj : BitVec 16) (gmax : Nat) (id : W32) (bodies : List W32) : Stream :=
  let x := if x.binds then
      { x with tenant := t, obj := obj, gmax := gmax, group := 0, pushed := 0, reissue := 0, badop := 0, cons := [], gen := x.gen + 1 }
    else x
  { x with st := 1, pushed := x.pushed + 1,
           cons := x.cons ++ [{ id := id, bodies := bodies, ticket := x.pushed.extractLsb' 0 30, reissue := false, st := 0 }] }

/-- R437: a pull by an object finds its condition true. -/
def Stream.pullReady (x : Stream) (t : Tenant) (obj : BitVec 16) : Bool :=
  !x.bound t obj || x.st == 3 || x.cons.any (·.st == 1)

/-- The ADMITTED constraint with the lowest ticket. -/
def lowestTicket (cs : List Cons) : Option Cons :=
  (cs.filter (·.st == 1)).foldl (fun m c => match m with
    | some b => if c.ticket < b.ticket then some c else m
    | none => some c) none

/-- R437: the constraint that a pull takes. -/
def Stream.pull (x : Stream) (t : Tenant) (obj : BitVec 16) : Option (Cons × Stream) :=
  if x.bound t obj then
    match lowestTicket x.cons with
    | some c => some (c, { x with cons := x.cons.map fun y => if y.ticket == c.ticket then { y with st := 2 } else y })
    | none => none
  else none

/-- R438: a `cb.done` names a PULLED constraint of the bound stream. -/
def Stream.names (x : Stream) (t : Tenant) (obj : BitVec 16) (ticket : BitVec 30) : Bool :=
  x.bound t obj && x.cons.any fun c => c.st == 2 && c.ticket == ticket

/-- R429, R438: a constraint is DONE, or the operation named nothing. -/
def Stream.done (x : Stream) (t : Tenant) (obj : BitVec 16) (ticket : BitVec 30) : Stream :=
  if x.names t obj ticket then
    let cs := x.cons.filter fun c => !(c.st == 2 && c.ticket == ticket)
    { x with cons := cs, st := if x.st == 2 && cs.isEmpty then 3 else x.st }
  else { x with badop := satInc x.badop }

/-- R429, R438: `cb.end`. -/
def Stream.end_ (x : Stream) (t : Tenant) (obj : BitVec 16) : Stream :=
  if x.bound t obj then (if x.st == 1 then { x with st := if x.cons.isEmpty then 3 else 2 } else x)
  else { x with badop := satInc x.badop }

/-- R438: the return of a held constraint. -/
def Stream.ret (x : Stream) (gen : BitVec 16) (ticket : BitVec 30) : Stream :=
  if x.gen == gen && x.cons.any (fun c => c.st == 2 && c.ticket == ticket) then
    { x with reissue := satInc x.reissue,
             cons := x.cons.map fun c => if c.st == 2 && c.ticket == ticket then { c with st := 1, reissue := true } else c }
  else x

/-! ## Words -/

/-- R435: the pulled word. -/
def Cons.word (c : Cons) : Word := (0 : BitVec 1) ++ (if c.reissue then (1 : BitVec 1) else 0) ++ c.ticket ++ c.id

/-- R439: the record of a held constraint. -/
def holdWord (j : Nat) (gen : BitVec 16) (ticket : BitVec 30) : Word :=
  (1 : BitVec 1) ++ (0 : BitVec 15) ++ gen ++ BitVec.ofNat 2 j ++ ticket

/-- Puts a record into the first free place of a held list. -/
def holdAdd (h : Vector Word 16) (w : Word) : Vector Word 16 :=
  match (List.range 16).find? fun i => !(vget h i 0).getLsbD 63 with
  | some i => vset h i w
  | none => h

/-- Removes a record. -/
def holdDel (h : Vector Word 16) (w : Word) : Vector Word 16 := h.map fun x => if x = w then 0 else x

/-- R440: the word of a selector. -/
def Stream.stat (x : Stream) (bound : Bool) (sel : Nat) : Nat :=
  let n := fun (st : BitVec 2) => x.cons.countP (·.st == st)
  match sel with
  | 0 => (if bound then x.group.toNat + (n 1 + n 2) * 2 ^ 32 + 2 ^ 44 else 0) + x.st.toNat * 2 ^ 42
  | 1 => if bound then x.cons.length + n 1 * 2 ^ 12 + n 2 * 2 ^ 22 + x.pushed.toNat * 2 ^ 32 else 0
  | 2 => if bound then x.reissue.toNat + x.badop.toNat * 2 ^ 32 else 0
  | _ => 0

/-! ## The instructions -/

/-- The checks at issue (R434). -/
def streamUse (s : State) (idx right : Nat) : Except Trap (Vector Word 8) :=
  match useObj s idx kSTREAM right with
  | .error t => .error t
  | .ok e => if streamBad e then .error (s.tObj idx 4) else .ok e

/-- The object index of a stream operand. -/
def stObj (x : Word) : BitVec 16 := x.extractLsb' 0 16

/-- A waiting push or pull at its stream: values object index, SNUM, and what the push carries. -/
def wObj (w : Wait) : BitVec 16 := stObj (w.vals.headD 0)
def wSnum (w : Wait) : Nat := (w.vals.getD 1 0).toNat
def wPush (w : Wait) : Bool := match w.i with | .cbPush _ _ _ => true | _ => false

/-- The condition of a waiting push or pull of a tenant (R436, R437). -/
def waitReady (x : Stream) (t : Tenant) (w : Wait) : Bool :=
  if wPush w then x.pushReady t (wObj w) else x.pullReady t (wObj w)

/-- The stream without a waiter. -/
def Stream.leave (x : Stream) (c : CoreId) (n : SlotNo) : Stream := { x with waiters := x.waiters.filter (· != (c, n)) }

/-- R428: GMAX at a binding, from the entry as it then stands; the value read at the push's issue where the entry no longer
gives one (DESIGN CHOICE, log 40). -/
def gmaxNow (s : State) (idx old : Nat) : Nat :=
  match readObj s idx with
  | .ok e => if df e 0 0 4 = kSTREAM && !streamBad e then stGmax e else old
  | .error _ => old

/-- The entry that a binding reads is on a page under migration: the read is held (R153), and the push with it. -/
def bindHeld (s : State) (x : Stream) (idx : Nat) : Bool := x.binds && idx ≤ otLimit s.mine.r.otBase && objHeld s idx

/-- The walk of the read of a binding (R143, R150). -/
def bindWalk (s : State) (x : Stream) (idx : Nat) : State :=
  let ot := s.mine.r.otBase
  if x.binds && idx ≤ otLimit ot then touch s (otDie ot) false s.otTenant (otVa ot idx) (quadOf s.iss.core) 0 true false else s

/-- R436: a push whose condition holds is taken. Values: index, SNUM, GMAX, id, four bodies. -/
def pushNow (s : State) (w : Wait) : Option State :=
  let x := s.stream (dieOf s.iss.core) (wSnum w)
  if !x.pushReady s.tenant (wObj w) || bindHeld s x (wObj w).toNat then none
  else
    let v := fun i => (w.vals.getD i 0).extractLsb' 0 32
    let g := gmaxNow s (wObj w).toNat (w.vals.getD 2 0).toNat
    let y := (x.leave s.iss.core s.iss.slot).push s.tenant (wObj w) g (v 3) [v 4, v 5, v 6, v 7]
    some (streamEvent (bindWalk s x (wObj w).toNat) s.iss.core s.iss.slot (wSnum w) y)

/-- R437: the five registers of a pull. -/
def pullRegs (s : State) (a : RF) (ws : List Word) : State :=
  (List.range 5).foldl (fun s i => s.wrG (grp a i) (ws.getD i (BitVec.allOnes 64))) s

/-- R437: a pull whose condition holds takes a constraint, or finds that none remains. -/
def pullNow (a : RF) (s : State) (w : Wait) : Option State :=
  let x := s.stream (dieOf s.iss.core) (wSnum w)
  if !x.pullReady s.tenant (wObj w) then none
  else
    let y := x.leave s.iss.core s.iss.slot
    match y.pull s.tenant (wObj w) with
    | some (c, y) =>
      let s := streamEvent s s.iss.core s.iss.slot (wSnum w) y
      let s := s.modMe fun k => { k with hold := holdAdd k.hold (holdWord (wSnum w) y.gen c.ticket) }
      some (pullRegs s a (c.word :: c.bodies.map (·.setWidth 64)))
    | none => some (pullRegs (streamEvent s s.iss.core s.iss.slot (wSnum w) y) a [])

/-- A waiting push or pull whose condition holds is handled, whatever keeps its context from its turns (R433, R436, R437). -/
def serveWaiter (s : State) (c : CoreId) (n : SlotNo) : Option State :=
  match (s.ctx c n).wait with
  | some w =>
    let u := asCtx s c n w.bundle
    (match w.i with
      | .cbPush _ _ _ => pushNow u w
      | .cbPull a _ _ => pullNow a u w
      | _ => none).map fun (u : State) => { (wakeCtx u.advance c n w.sbit) with iss := s.iss }
  | none => none

/-- R433: after an event of a stream its waiting pushes and pulls are handled in order of arrival, as long as the condition of
one holds; `m` bounds their number. -/
def serveStream (s : State) (d : BitVec 2) (j : Nat) : Nat → State
  | 0 => s
  | m + 1 =>
    match (s.stream d j).waiters.findSome? fun p => serveWaiter s p.1 p.2 with
    | some t => serveStream t d j m
    | none => s

/-- The waits of stream j of a die are handled. -/
def serveAll (s : State) (d : BitVec 2) (j : Nat) : State := serveStream s d j (s.stream d j).waiters.length

/-- The waits of every stream are handled. -/
def serveStreams (s : State) : State :=
  (List.range 16).foldl (fun s i => serveAll s (BitVec.ofNat 2 (i / 4)) (i % 4)) s

/-- R436: the push is taken, and then the waits that it makes ready. -/
def doneCbPush (s : State) (w : Wait) : Option State := (pushNow s w).map fun t => serveAll t (dieOf s.iss.core) (wSnum w)

/-- R437: the pull is handled, and then the waits that it makes ready. -/
def doneCbPull (a : RF) (s : State) (w : Wait) : Option State := (pullNow a s w).map fun t => serveAll t (dieOf s.iss.core) (wSnum w)

/-- A push or a pull comes to the alembic: it is handled, or waits. -/
def cbWait (i : Instr) (s : State) (idx right : Nat) (lim : Word) (vals : List Word) (done : State → Wait → Option State) : State :=
  let s := walkObj i s idx
  let use := streamUse s idx right
  let e := valOf noEntry use
  runE i s true (fun _ => trapOf use) noHold fun s =>
    let w := s.newWait i ([BitVec.ofNat 64 idx, BitVec.ofNat 64 (stSnum e), BitVec.ofNat 64 (stGmax e)] ++ vals) (limitOf lim)
    match done s w with
    | some s' => s'.advance
    | none =>
      let d := dieOf s.iss.core
      let x := s.stream d (stSnum e)
      let y := x.leave s.iss.core s.iss.slot
      park (s.setStream d (stSnum e) { y with waiters := y.waiters ++ [(s.iss.core, s.iss.slot)] }) w

/-- R436. -/
def execCbPush (a b c : RF) (s : State) : Out :=
  .next (cbWait (.cbPush a b c) s (objIdx (s.rdG a)) rW (s.rdG c) ((List.range 5).map fun i => s.rdG (grp b i)) doneCbPush)

/-- R437. -/
def execCbPull (a b c : RF) (s : State) : Out :=
  .next (cbWait (.cbPull a b c) s (objIdx (s.rdG b)) rR (s.rdG c) [] (doneCbPull a))

/-- R438: after the commit, for a stream's entry. -/
def cbDoneOp (idx : Nat) (ticket : BitVec 30) (e : Vector Word 8) (s : State) : State :=
  let j := stSnum e
  let x := s.stream (dieOf s.iss.core) j
  let y := x.done s.tenant (BitVec.ofNat 16 idx) ticket
  let s := if x.names s.tenant (BitVec.ofNat 16 idx) ticket then s.modMe fun k => { k with hold := holdDel k.hold (holdWord j x.gen ticket) } else s
  (serveAll (streamEvent s s.iss.core s.iss.slot j y) (dieOf s.iss.core) j).advance

/-- R438, R188. -/
def execCbDone (a b : RF) (s : State) : Out :=
  let i := Instr.cbDone a b
  let idx := objIdx (s.rdG a)
  let ticket := (s.rdG b).extractLsb' 32 30
  let s := walkObj i s idx
  let use := streamUse s idx rR
  let e := valOf noEntry use
  .next (runR i s true (fun _ => trapOf use) holdRelease e (cbDoneOp idx ticket e))

/-- R438. -/
def execCbEnd (a : RF) (s : State) : Out :=
  let i := Instr.cbEnd a
  let idx := objIdx (s.rdG a)
  let s := walkObj i s idx
  let use := streamUse s idx rW
  let j := stSnum (valOf noEntry use)
  .next (runE i s true (fun _ => trapOf use) noHold fun s =>
    (serveAll (streamEvent s s.iss.core s.iss.slot j ((s.stream (dieOf s.iss.core) j).end_ s.tenant (BitVec.ofNat 16 idx)))
      (dieOf s.iss.core) j).advance)

/-- R440: keeps its chunk open. -/
def execCbSt (a b : RF) (s : State) : Out :=
  let i := Instr.cbSt a b
  let x := s.rdG b
  let idx := objIdx x
  let s := if x.extractLsb' 18 46 = 0 then walkObj i s idx else s
  .next (runC i s fun s =>
    if x.extractLsb' 18 46 ≠ 0 then .trap (s.tIllegal 3)
    else match streamUse s idx rR with
      | .error t => .trap t
      | .ok e =>
        if !s.canLong then .hold true
        else
          let st := s.stream (dieOf s.iss.core) (stSnum e)
          let v := st.stat (st.bound s.tenant (stObj x)) (x.extractLsb' 16 2).toNat
          .ok (s.freshId.addLong { s.newLong s.nextId (s.dstG a) .word with val := some v }))

/-! ## Ended holders (R438) -/

/-- One record of an ended context's held list goes back to its stream. -/
def returnHeld (s : State) (c : CoreId) (n : SlotNo) (w : Word) : State :=
  if !w.getLsbD 63 then s
  else
    let j := (w.extractLsb' 30 2).toNat
    let x := s.stream (dieOf c) j
    let y := x.ret (w.extractLsb' 32 16) (w.extractLsb' 0 30)
    if y = x then s else serveAll (streamEvent s c n j y) (dieOf c) j

/-- Every record of an ended context's held list goes back. -/
def returnAllHeld (s : State) (c : CoreId) (n : SlotNo) : State :=
  let hs := (s.ctx c n).hold.toList
  (hs.foldl (fun s w => returnHeld s c n w) s).modCtx c n fun x => { x with hold := Vector.replicate 16 0 }

/-- A release of the context is still to be performed, its own retirement apart. -/
def Ctx.owes (x : Ctx) : Bool := x.rel.any fun r => r.i != .hend

/-- HELD_CONSTRAINT_RETURN: R438, for a context that has ended. -/
def execHeldConstraintReturn (core : CoreId) (slot : SlotNo) (s : State) : Out :=
  let x := s.ctx core slot
  .next (if (x.ended || x.retiring) && x.chunk.isNone && !x.owes && x.st != .vacant then returnAllHeld s core slot else s)

end Sys2Proof.Machine
end

