-- ==== Sys2Proof/Machine/Flags.lean ====
section
/-! DEFINITION. Lane values and their flags (R117, R128-R132, R300, R305-R308): one lane's result with what it
ORs into FP.FLAGS. -/

namespace Sys2Proof.Machine

/-! ## Lanes (R300) -/

/-- The type is a float type; its format code (R105). -/
def isFloatT (t : BitVec 3) : Bool := decide (t.toNat ≤ 2)
def fmtOfT (t : BitVec 3) : Nat := match t.toNat with | 0 => 3 | 1 => 1 | _ => 2

/-- A register of n lanes of w bits. -/
def ofLanes (w n : Nat) (f : Nat → Nat) : VReg := BitVec.ofNat 512 (((List.range n).map fun k => f k % 2 ^ w * 2 ^ (w * k)).sum)

/-- The integer of a lane of an integer type: natural for type 6. -/
def laneInt (t : BitVec 3) (x : Nat) : Int := if t.toNat = 6 then (x : Int) else toSigned (laneBits t) x

/-- A lane pattern without flags. -/
def plain (x : Nat) : Rounded := { code := x, flags := 0 }

/-- The canonical NaN of a float type (R108). -/
def nanOf (t : BitVec 3) : Nat := (ffmt (fmtOfT t)).nan.getD 0

/-! ## Float operations (R128, R131) -/

/-- One rounding to the lane type under RNE; `bad` marks an invalid operation. -/
def roundLane (t : BitVec 3) (v : Num) (bad : Bool) : Rounded :=
  let r := roundFloat (fmtOfT t) 0 false v
  { r with flags := r.flags ||| if bad then flagNV else 0 }

/-- x + y. -/
def fAdd (t : BitVec 3) (x y : Num) : Rounded := roundLane t (x.sum2 y) (Num.sumInvalid [x, y])

/-- x · y. -/
def fMul (t : BitVec 3) (x y : Num) : Rounded := roundLane t (x.mul y) (x.mulInvalid y)

/-- x · y + z with one rounding; `negp` changes the sign of the product. A NaN operand sets no flag. -/
def fFma (t : BitVec 3) (negp : Bool) (x y z : Num) : Rounded :=
  let p := if negp then (x.mul y).neg else x.mul y
  roundLane t (p.sum2 z) (!z.isNan && (x.mulInvalid y || (!x.isNan && !y.isNan && Num.sumInvalid [p, z])))

/-- The order of `vmin` and `vmax`: -0 below +0. -/
def fBelow (x y : Num) : Bool :=
  match x.cmp y with
  | .lt => true
  | .eq => x.sign && !y.sign
  | .gt => false

/-- The smaller (or larger) operand of a float type, as a pattern; NaN gives the canonical NaN. -/
def fMinMax (t : BitVec 3) (larger : Bool) (a b : Nat) : Nat :=
  let x := laneNum t a; let y := laneNum t b
  if x.isNan || y.isNan then nanOf t else if larger then (if fBelow x y then b else a) else (if fBelow y x then b else a)

/-- `vabs` and `vneg` on a pattern: only the sign bit changes. -/
def fAbs (t : BitVec 3) (a : Nat) : Nat := a % 2 ^ (laneBits t - 1)
def fNeg (t : BitVec 3) (a : Nat) : Nat := (a + 2 ^ (laneBits t - 1)) % 2 ^ laneBits t

/-! ## R305 on one lane -/

/-- The pattern of an integer in the lane's width. -/
def intLane (t : BitVec 3) (x : Int) : Rounded := plain (patOf (laneBits t) x)

def laneAdd (t : BitVec 3) (a b : Nat) : Rounded :=
  if isFloatT t then fAdd t (laneNum t a) (laneNum t b) else intLane t (laneInt t a + laneInt t b)

def laneSub (t : BitVec 3) (a b : Nat) : Rounded :=
  if isFloatT t then fAdd t (laneNum t a) (laneNum t b).neg else intLane t (laneInt t a - laneInt t b)

def laneMul (t : BitVec 3) (a b : Nat) : Rounded :=
  if isFloatT t then fMul t (laneNum t a) (laneNum t b) else intLane t (laneInt t a * laneInt t b)

def laneFma (t : BitVec 3) (a b c : Nat) : Rounded :=
  if isFloatT t then fFma t false (laneNum t a) (laneNum t b) (laneNum t c)
  else intLane t (laneInt t a * laneInt t b + laneInt t c)

def laneFms (t : BitVec 3) (a b c : Nat) : Rounded :=
  if isFloatT t then fFma t false (laneNum t a) (laneNum t b) (laneNum t c).neg
  else intLane t (laneInt t a * laneInt t b - laneInt t c)

def laneNfma (t : BitVec 3) (a b c : Nat) : Rounded :=
  if isFloatT t then fFma t true (laneNum t a) (laneNum t b) (laneNum t c)
  else intLane t (-(laneInt t a * laneInt t b) + laneInt t c)

/-- The smaller lane; the larger when asked for. No flag. -/
def laneMinMax (t : BitVec 3) (larger : Bool) (a b : Nat) : Rounded :=
  if isFloatT t then plain (fMinMax t larger a b)
  else plain (if larger then (if laneInt t a ≤ laneInt t b then b else a) else (if laneInt t a ≤ laneInt t b then a else b))

def laneAbs (t : BitVec 3) (a : Nat) : Rounded := if isFloatT t then plain (fAbs t a) else intLane t ((laneInt t a).natAbs)
def laneNeg (t : BitVec 3) (a : Nat) : Rounded := if isFloatT t then plain (fNeg t a) else intLane t (-laneInt t a)

/-! ## R306, R129 on one FP32 lane -/

/-- A result with a flag of R129. -/
def f32With (v : Num) (f : BitVec 6) : Rounded :=
  let r := roundFloat 3 0 false v
  { r with flags := r.flags ||| f }

def laneDiv (a b : Nat) : Rounded :=
  let x := fp32 a; let y := fp32 b
  match x, y with
  | .nan, _ => f32With .nan 0
  | _, .nan => f32With .nan 0
  | .inf _, .inf _ => f32With .nan flagNV
  | .inf s, .fin t _ _ => f32With (.inf (s != t)) 0
  | .fin s _ _, .inf t => f32With (.fin (s != t) 0 1) 0
  | .fin s n _, .fin t m _ =>
    if m = 0 then (if n = 0 then f32With .nan flagNV else f32With (.inf (s != t)) flagDZ) else f32With (x.divFin y) 0

def laneSqrt (a : Nat) : Rounded :=
  match fp32 a with
  | .nan => f32With .nan 0
  | .inf s => if s then f32With .nan flagNV else f32With (.inf false) 0
  | .fin s n d => if n = 0 then f32With (.fin s 0 1) 0 else if s then f32With .nan flagNV else f32With (sqrtNum n d) 0

def laneRcp (a : Nat) : Rounded :=
  match fp32 a with
  | .nan => f32With .nan 0
  | .inf s => f32With (.fin s 0 1) 0
  | .fin s n d => if n = 0 then f32With (.inf s) flagDZ else f32With (.fin s d n) 0

def laneRsq (a : Nat) : Rounded :=
  match fp32 a with
  | .nan => f32With .nan 0
  | .inf s => if s then f32With .nan flagNV else f32With (.fin false 0 1) 0
  | .fin s n d => if n = 0 then f32With (.inf s) flagDZ else if s then f32With .nan flagNV else f32With (sqrtNum d n) 0

def laneExp2 (a : Nat) : Rounded :=
  match fp32 a with
  | .nan => f32With .nan 0
  | .inf s => if s then f32With (.fin false 0 1) 0 else f32With (.inf false) 0
  | .fin s n d => f32With (exp2Num s n d) 0

def laneLog2 (a : Nat) : Rounded :=
  match fp32 a with
  | .nan => f32With .nan 0
  | .inf s => if s then f32With .nan flagNV else f32With (.inf false) 0
  | .fin s n d => if n = 0 then f32With (.inf true) flagDZ else if s then f32With .nan flagNV else f32With (log2Num n d) 0

/-! ## Conversion (R117) -/

/-- The range of an integer lane type. -/
def laneRange (t : BitVec 3) : Int × Int :=
  if t.toNat = 6 then (0, 255) else (-(2 ^ (laneBits t - 1) : Nat), (2 ^ (laneBits t - 1) : Nat) - 1)

/-- An integer cut or clamped to a type. -/
def intToInt (t : BitVec 3) (sat : Bool) (v : Int) : Rounded :=
  let r := laneRange t
  if sat && v < r.1 then { code := patOf (laneBits t) r.1, flags := flagSAT ||| flagNX }
  else if sat && r.2 < v then { code := patOf (laneBits t) r.2, flags := flagSAT ||| flagNX }
  else intLane t v

/-- R117: one lane converted from type f to type t under a mode. -/
def convertLane (f t : BitVec 3) (mode : Nat) (sat : Bool) (a : Nat) : Rounded :=
  if f = t then plain a
  else if isFloatT t then roundFloat (fmtOfT t) mode (sat && isFloatT f) (laneNum f a)
  else if isFloatT f then
    let r := roundRange (laneRange t).1 (laneRange t).2 mode (laneNum f a)
    { code := patOf (laneBits t) r.val, flags := r.flags }
  else intToInt t sat (laneInt f a)

/-! ## Comparison (R308) -/

/-- The predicate of a condition on one lane. -/
def laneCond (t : BitVec 3) (c : Nat) (a b : Nat) : Bool :=
  if isFloatT t then
    let x := laneNum t a; let y := laneNum t b
    let u := x.isNan || y.isNan
    let o := x.cmp y
    match c with
    | 0 => !u && o == .eq
    | 1 => u || o != .eq
    | 2 => !u && o == .lt
    | 3 => !u && o != .gt
    | 4 => !u && o == .gt
    | _ => !u && o != .lt
  else
    let x := laneInt t a; let y := laneInt t b
    match c with
    | 0 => a == b
    | 1 => a != b
    | 2 => x < y
    | 3 => x ≤ y
    | 4 => y < x
    | 5 => y ≤ x
    | 6 => a < b
    | _ => a ≤ b

/-! ## Trees (R130) -/

/-- One level of a pairwise tree. -/
def pairUp (f : Nat → Nat → Rounded) : List Nat → List Rounded
  | a :: b :: t => f a b :: pairUp f t
  | _ => []

/-- The tree of R130 over 2^j lanes, with the flags of every sum. -/
def tree (f : Nat → Nat → Rounded) : Nat → List Nat → Rounded
  | 0, xs => plain (xs.headD 0)
  | j + 1, xs =>
    let ys := pairUp f xs
    let r := tree f j (ys.map (·.code))
    { r with flags := r.flags ||| orFlags (ys.map (·.flags)) }

/-- The neutral lane of `vsum` and of `vmaxr`. -/
def sumNeutral (t : BitVec 3) : Nat := if isFloatT t then 2 ^ (laneBits t - 1) else 0
def maxNeutral (t : BitVec 3) : Nat :=
  if isFloatT t then 2 ^ (laneBits t - 1) + (ffmt (fmtOfT t)).inf.getD 0 else if t.toNat = 6 then 0 else 2 ^ (laneBits t - 1)

end Sys2Proof.Machine
end

