-- ==== Sys2Proof/Machine/Vector.lean ====
section
/-! DEFINITION. Vector instructions (R300-R315). -/

namespace Sys2Proof.Machine

/-! ## Shapes -/

/-- Lane k is active (R301). -/
def State.active (s : State) (m : BitVec 3) (k : Nat) : Bool := (s.rdP m).getLsbD k

/-- A register whose active lanes take new values and whose other lanes stay, with the flags of the active
lanes (R301, R304). -/
def masked (s : State) (t : BitVec 3) (m : BitVec 3) (old : VReg) (f : Nat → Rounded) : VReg × BitVec 6 :=
  let n := laneCount t
  let rs := (List.range n).map fun k => if s.active m k then f k else plain (laneOf t old k)
  (ofLanes (laneBits t) n fun k => (rs.getD k (plain 0)).code, orFlags (rs.map (·.flags)))

/-- A short operation that writes the active lanes of V[d]. -/
def vecRun (i : Instr) (d : BitVec 4) (m t : BitVec 3) (f : State → Nat → Rounded) (s : State) : State :=
  runA i s fun s =>
    let r := masked s t m (s.rdV d) (f s)
    .ok ((s.wrV d r.1).orFlags r.2)

/-- An operation on lanes of V[a], of V[a] and V[b], and of three registers. -/
def vec1 (i : Instr) (d a : BitVec 4) (m t : BitVec 3) (f : Nat → Rounded) (s : State) : State :=
  vecRun i d m t (fun s k => f (laneOf t (s.rdV a) k)) s
def vec2 (i : Instr) (d a b : BitVec 4) (m t : BitVec 3) (f : Nat → Nat → Rounded) (s : State) : State :=
  vecRun i d m t (fun s k => f (laneOf t (s.rdV a) k) (laneOf t (s.rdV b) k)) s
def vec3 (i : Instr) (d a b c : BitVec 4) (m t : BitVec 3) (f : Nat → Nat → Nat → Rounded) (s : State) : State :=
  vecRun i d m t (fun s k => f (laneOf t (s.rdV a) k) (laneOf t (s.rdV b) k) (laneOf t (s.rdV c) k)) s

/-- A long operation of AOP 0x21: the register is written after a fixed figure of cycles (R306, R100). -/
def vecLong (i : Instr) (d : BitVec 4) (m : BitVec 3) (cycles : Nat) (f : State → Nat → Rounded) (s : State) : State :=
  runA i s fun s =>
    if !s.canLong then .hold true
    else
      let r := masked s 0 m (s.rdV d) (f s)
      .ok (s.freshId.addLong { s.newLong s.nextId (.v d) .vec with
        val := some r.1.toNat, due := some (s.mine.cyc + cycles), flags := r.2 })

/-- A register written whole, without flags. -/
def vecWhole (i : Instr) (d : BitVec 4) (f : State → VReg) (s : State) : State := runA i s fun s => .ok (s.wrV d (f s))

/-! ## Arithmetic (R305, R306) -/

/-- R305. -/
def execVadd (d a b : BitVec 4) (m t : BitVec 3) (s : State) : Out := .next (vec2 (.vadd d a b m t) d a b m t (laneAdd t) s)

/-- R305. -/
def execVsub (d a b : BitVec 4) (m t : BitVec 3) (s : State) : Out := .next (vec2 (.vsub d a b m t) d a b m t (laneSub t) s)

/-- R305. -/
def execVmul (d a b : BitVec 4) (m t : BitVec 3) (s : State) : Out := .next (vec2 (.vmul d a b m t) d a b m t (laneMul t) s)

/-- R305. -/
def execVfma (d a b c : BitVec 4) (m t : BitVec 3) (s : State) : Out :=
  .next (vec3 (.vfma d a b c m t) d a b c m t (laneFma t) s)

/-- R305. -/
def execVfms (d a b c : BitVec 4) (m t : BitVec 3) (s : State) : Out :=
  .next (vec3 (.vfms d a b c m t) d a b c m t (laneFms t) s)

/-- R305. -/
def execVnfma (d a b c : BitVec 4) (m t : BitVec 3) (s : State) : Out :=
  .next (vec3 (.vnfma d a b c m t) d a b c m t (laneNfma t) s)

/-- R305. -/
def execVmin (d a b : BitVec 4) (m t : BitVec 3) (s : State) : Out :=
  .next (vec2 (.vmin d a b m t) d a b m t (laneMinMax t false) s)

/-- R305. -/
def execVmax (d a b : BitVec 4) (m t : BitVec 3) (s : State) : Out :=
  .next (vec2 (.vmax d a b m t) d a b m t (laneMinMax t true) s)

/-- R305. -/
def execVabs (d a : BitVec 4) (m t : BitVec 3) (s : State) : Out := .next (vec1 (.vabs d a m t) d a m t (laneAbs t) s)

/-- R305. -/
def execVneg (d a : BitVec 4) (m t : BitVec 3) (s : State) : Out := .next (vec1 (.vneg d a m t) d a m t (laneNeg t) s)

/-- R306. -/
def execVdiv (d a b : BitVec 4) (m : BitVec 3) (s : State) : Out :=
  .next (vecLong (.vdiv d a b m) d m 36 (fun s k => laneDiv (laneOf 0 (s.rdV a) k) (laneOf 0 (s.rdV b) k)) s)

/-- R306. -/
def execVsqrt (d a : BitVec 4) (m : BitVec 3) (s : State) : Out :=
  .next (vecLong (.vsqrt d a m) d m 36 (fun s k => laneSqrt (laneOf 0 (s.rdV a) k)) s)

/-- R306. -/
def execVrcp (d a : BitVec 4) (m : BitVec 3) (s : State) : Out :=
  .next (vecLong (.vrcp d a m) d m 20 (fun s k => laneRcp (laneOf 0 (s.rdV a) k)) s)

/-- R306. -/
def execVrsq (d a : BitVec 4) (m : BitVec 3) (s : State) : Out :=
  .next (vecLong (.vrsq d a m) d m 20 (fun s k => laneRsq (laneOf 0 (s.rdV a) k)) s)

/-- R306. -/
def execVexp2 (d a : BitVec 4) (m : BitVec 3) (s : State) : Out :=
  .next (vecLong (.vexp2 d a m) d m 20 (fun s k => laneExp2 (laneOf 0 (s.rdV a) k)) s)

/-- R306. -/
def execVlog2 (d a : BitVec 4) (m : BitVec 3) (s : State) : Out :=
  .next (vecLong (.vlog2 d a m) d m 20 (fun s k => laneLog2 (laneOf 0 (s.rdV a) k)) s)

/-! ## Conversion, comparison, selection (R307-R309) -/

/-- R307: source type f, rounding mode r, saturate bit x. -/
def execVcvt (d a : BitVec 4) (x : BitVec 1) (f m t : BitVec 3) (r : BitVec 4) (s : State) : Out :=
  .next (vecRun (.vcvt d a x f m t r) d m t (fun s k =>
    if k < laneCount f then convertLane f t r.toNat (x == 1) (laneOf f (s.rdV a) k) else plain 0) s)

/-- R308. -/
def execVcmp (p : BitVec 3) (a b : BitVec 4) (m t : BitVec 3) (c : BitVec 4) (s : State) : Out :=
  .next (runA (.vcmp p a b m t c) s fun s =>
    let bit := fun k => s.active m k && laneCond t c.toNat (laneOf t (s.rdV a) k) (laneOf t (s.rdV b) k)
    .ok (s.wrP p (BitVec.ofNat 64 (((List.range (laneCount t)).map fun k => if bit k then 2 ^ k else 0).sum))))

/-- R309: writes every lane. -/
def execVsel (d a b : BitVec 4) (m t : BitVec 3) (s : State) : Out :=
  .next (vecWhole (.vsel d a b m t) d (fun s =>
    ofLanes (laneBits t) (laneCount t) fun k => laneOf t (s.rdV (if s.active m k then a else b)) k) s)

/-! ## Reductions (R310) -/

/-- The tree over the lanes of a register, inactive ones at their neutral value. -/
def reduceLanes (s : State) (t m : BitVec 3) (x : VReg) (neutral : Nat) (f : Nat → Nat → Rounded) : Rounded :=
  let n := laneCount t
  tree f (Nat.log2 n) ((List.range n).map fun k => if s.active m k then laneOf t x k else neutral)

/-- The result in lane 0, every other lane zero. -/
def vecReduce (i : Instr) (d a : BitVec 4) (m t : BitVec 3) (neutral : Nat) (f : Nat → Nat → Rounded) (s : State) : State :=
  runA i s fun s =>
    let r := reduceLanes s t m (s.rdV a) neutral f
    .ok ((s.wrV d (BitVec.ofNat 512 (r.code % 2 ^ laneBits t))).orFlags r.flags)

/-- R310. -/
def execVsum (d a : BitVec 4) (m t : BitVec 3) (s : State) : Out :=
  .next (vecReduce (.vsum d a m t) d a m t (sumNeutral t) (laneAdd t) s)

/-- R310. -/
def execVmaxr (d a : BitVec 4) (m t : BitVec 3) (s : State) : Out :=
  .next (vecReduce (.vmaxr d a m t) d a m t (maxNeutral t) (laneMinMax t true) s)

/-! ## Lane moves (R311-R313) -/

/-- R311. -/
def execVbc (d : BitVec 4) (g : RF) (m t : BitVec 3) (s : State) : Out :=
  .next (vecRun (.vbc d g m t) d m t (fun s _ => plain ((s.rdG g).toNat % 2 ^ laneBits t)) s)

/-- R311. -/
def execVins (d : BitVec 4) (g : RF) (l : BitVec 4) (m t : BitVec 3) (s : State) : Out :=
  .next (vecRun (.vins d g l m t) d m t (fun s k =>
    plain (if k = l.toNat then (s.rdG g).toNat % 2 ^ laneBits t else laneOf t (s.rdV d) k)) s)

/-- R311: the lane as a word, signed for types 3-5. -/
def laneWord (t : BitVec 3) (x : Nat) : Word :=
  if isFloatT t || t.toNat = 6 then BitVec.ofNat 64 x else BitVec.ofInt 64 (toSigned (laneBits t) x)

/-- R311. -/
def execVext (a : BitVec 4) (g : RF) (l : BitVec 4) (m t : BitVec 3) (s : State) : Out :=
  .next (runA (.vext a g l m t) s fun s =>
    .ok (if s.active m l.toNat then s.wrG g (laneWord t (laneOf t (s.rdV a) l.toNat)) else s))

/-- R312. -/
def execVperm (d a b : BitVec 4) (m t : BitVec 3) (s : State) : Out :=
  .next (vecRun (.vperm d a b m t) d m t (fun s k => plain (laneOf t (s.rdV a) (laneOf t (s.rdV b) k % laneCount t))) s)

/-- R312. -/
def execVslide (d a b n : BitVec 4) (m t : BitVec 3) (s : State) : Out :=
  .next (vecRun (.vslide d a b n m t) d m t (fun s k =>
    plain (if k + n.toNat < laneCount t then laneOf t (s.rdV a) (k + n.toNat)
      else laneOf t (s.rdV b) (k + n.toNat - laneCount t))) s)

/-- R313. -/
def execVpack (d a b : BitVec 4) (m t : BitVec 3) (s : State) : Out :=
  let h := laneCount t / 2
  .next (vecRun (.vpack d a b m t) d m t (fun s k =>
    plain (if k < h then laneOf t (s.rdV a) k else laneOf t (s.rdV b) (k - h))) s)

/-- R313. -/
def execVunpack (d a : BitVec 4) (h : BitVec 1) (m t : BitVec 3) (s : State) : Out :=
  let n := laneCount t / 2
  .next (vecRun (.vunpack d a h m t) d m t (fun s k =>
    plain (if k < n then laneOf t (s.rdV a) (h.toNat * n + k) else 0)) s)

/-! ## Quantisation, logic and shifts (R314, R315) -/

/-- R314: the values that `vbsc` quantises. -/
def vbscVals (s : State) (a : BitVec 4) (m t : BitVec 3) : List Num :=
  (List.range (laneCount t)).map fun k => if s.active m k then laneNum t (laneOf t (s.rdV a) k) else .fin false 0 1

/-- R314: writes every byte. -/
def execVbsc (d a : BitVec 4) (l : BitVec 3) (f : BitVec 4) (m t : BitVec 3) (r : BitVec 4) (s : State) : Out :=
  .next (runA (.vbsc d a l f m t r) s fun s =>
    let q := encodeElems (f.toNat + 12) l.toNat r.toNat false (vbscVals s a m t)
    .ok ((s.wrV d (BitVec.ofNat 512 (leBytes q.1 0 64))).orFlags q.2))

/-- R315. -/
def execVand (d a b : BitVec 4) (m t : BitVec 3) (s : State) : Out :=
  .next (vec2 (.vand d a b m t) d a b m t (fun x y => plain (Nat.land x y)) s)

/-- R315. -/
def execVor (d a b : BitVec 4) (m t : BitVec 3) (s : State) : Out :=
  .next (vec2 (.vor d a b m t) d a b m t (fun x y => plain (Nat.lor x y)) s)

/-- R315. -/
def execVxor (d a b : BitVec 4) (m t : BitVec 3) (s : State) : Out :=
  .next (vec2 (.vxor d a b m t) d a b m t (fun x y => plain (Nat.xor x y)) s)

/-- R315: the shift of one lane by a signed count. -/
def laneShift (t : BitVec 3) (x y : Nat) : Rounded :=
  let w := laneBits t
  let n := toSigned w y
  let d := n.natAbs
  if 0 ≤ n then plain (if w ≤ d then 0 else x * 2 ^ d % 2 ^ w)
  else if t.toNat = 6 then plain (if w ≤ d then 0 else x / 2 ^ d)
  else intLane t (toSigned w x / 2 ^ min d (w - 1))

/-- R315. -/
def execVshift (d a b : BitVec 4) (m t : BitVec 3) (s : State) : Out :=
  .next (vec2 (.vshift d a b m t) d a b m t (laneShift t) s)

end Sys2Proof.Machine
end

