-- ==== Sys2Proof/Machine/Accord.lean ====
section
/-! DEFINITION. The accord (R121-R126, R316-R335): operands, accumulation, the command queue, the arbiter,
the six instructions and the events of the unit. -/

namespace Sys2Proof.Machine

/-! ## Operands (R259, R260, R321, R323) -/

/-- Format and block-length logarithm of a shape. -/
def shFmt (e : Vector Word 8) : Nat := pFmt (shBase e)
def shBlg (e : Vector Word 8) : Nat := pBlg (shBase e)

/-- Stored rows and columns. -/
def shSRows (e : Vector Word 8) : Nat := if shTrans e then shCols e else shRows e
def shSCols (e : Vector Word 8) : Nat := if shTrans e then shRows e else shCols e

/-- The element index of stored element (r, c). -/
def elemIdx (e : Vector Word 8) (r c : Nat) : Int := r * shRStride e + c * shCStride e

/-- The first byte of the block, or of the element, that holds an element index, counted from the slot. -/
def elemByte (e : Vector Word 8) (i : Int) : Int :=
  let f := shFmt e; let l := shBlg e
  if isBlocked f then pOff (shBase e) + i / (2 ^ l : Nat) * blockBytes f l
  else if elemWidth f = 4 then pOff (shBase e) + i / 2
  else pOff (shBase e) + i * (elemWidth f / 8 : Nat)

/-- Bytes of a block, or of an element. -/
def elemSpan (e : Vector Word 8) : Nat :=
  if isBlocked (shFmt e) then blockBytes (shFmt e) (shBlg e) else (elemWidth (shFmt e) + 7) / 8

/-- Stored positions of a shape. -/
def storedPos (e : Vector Word 8) : List (Nat × Nat) :=
  ((List.range (shSRows e)).map fun r => (List.range (shSCols e)).map fun c => (r, c)).flatten

/-- The bytes that an accord may read of an operand, counted from the slot (R325, R322). -/
def opndBytes (e : Vector Word 8) : List Int :=
  let els := ((storedPos e).map fun p => elemByte e (elemIdx e p.1 p.2)).eraseDups
  let data := (els.map fun b => (List.range (elemSpan e)).map fun (k : Nat) => b + (k : Int)).flatten
  let band := if 18 ≤ shFmt e && shFmt e ≤ 20 then
      (List.range (2 * ((shSRows e - 1) / 64 + 1))).map fun (k : Nat) => (pOff (shBand e) + k : Int) else []
  let book := if shFmt e = 27 || shFmt e = 28 then
      (List.range (if shFmt e = 27 then 32 else 512)).map fun (k : Nat) => (pOff (shBook e) + k : Int) else []
  (data ++ band ++ book).eraseDups

/-- A number of n bytes in the slot. -/
def Opnd.rd (o : Opnd) (b : Int) (n : Nat) : Nat := if b < 0 then 0 else leBytes o.bs b.toNat n

/-- The code of stored element (r, c), its block's scale byte and zero-point byte. -/
def Opnd.code (o : Opnd) (r c : Nat) : Nat × Nat × Nat :=
  let f := shFmt o.e; let l := shBlg o.e
  let i := elemIdx o.e r c
  let b := elemByte o.e i
  if isBlocked f then
    let blk := (List.range (blockBytes f l)).map fun (k : Nat) => BitVec.ofNat 8 (o.rd (b + k) 1)
    (elemCode (elemWidth f) (blk.drop (1 + zeroPt f)) (i % (2 ^ l : Nat)).toNat, (blk.getD 0 0).toNat, (blk.getD 1 0).toNat)
  else if elemWidth f = 4 then (o.rd b 1 / (if i % 2 = 0 then 1 else 16) % 16, 0, 0)
  else (o.rd b (elemWidth f / 8), 0, 0)

/-- The band scale of stored row r (R112, R321). -/
def Opnd.band (o : Opnd) (r : Nat) : Num := decodeFloat 1 (o.rd (pOff (shBand o.e) + 2 * (r / 64 : Nat)) 2)

/-- R111: a value in its block times the band scale; a finite code times a zero scale, the block's or the band's, is a zero with the
code's sign. DESIGN CHOICE (log 73): of a zero code and scales that are not zero the sign is that of the product, as R122 says of
products; R111 does not treat a negative band scale. -/
def bandMul (v b : Num) (s : Nat) : Num :=
  match v, b with
  | .fin g _ _, .fin _ n _ => if n = 0 || s = 0 then .fin g 0 1 else v.mul b
  | _, _ => v.mul b

/-- The exact value of stored element (r, c) (R106, R111, R112). -/
def Opnd.val (o : Opnd) (r c : Nat) : Num :=
  let f := shFmt o.e
  let x := o.code r c
  if f = 3 then e8m10 x.1
  else if f ≤ 12 then decodeElem f x.1
  else if 18 ≤ f && f ≤ 20 then bandMul (scaledVal f x.2.1 x.2.2 x.1) (o.band r) x.2.1
  else if f ≤ 26 then scaledVal f x.2.1 x.2.2 x.1
  else decodeFloat 1 (o.rd (pOff (shBook o.e) + 2 * (x.1 : Nat)) 2)

/-- The stored place of logical element (r, c), or padding (R323). -/
def Opnd.place (o : Opnd) (r c : Nat) : Option (Nat × Nat) :=
  if r < shRows o.e && c < shCols o.e then some (if shTrans o.e then (c, r) else (r, c)) else none

/-- The value of logical element (r, c); padding is +0. -/
def Opnd.at_ (o : Opnd) (r c : Nat) : Num :=
  match o.place r c with
  | some p => o.val p.1 p.2
  | none => .fin false 0 1

/-- R124, R125: the difference q - z of logical element (r, c), and the scale of its block; padding is 0. -/
def Opnd.int (o : Opnd) (r c : Nat) : Int × Num :=
  let f := shFmt o.e
  match o.place r c with
  | none => (0, .fin false 1 1)
  | some p =>
    let x := o.code p.1 p.2
    let q := decodeInt (elemFmt f) x.1
    if 21 ≤ f && f ≤ 24 then (q - zpVal f x.2.2, e5m3 x.2.1)
    else if f = 25 || f = 26 then (q, e3m5 x.2.1)
    else (q, .fin false 1 1)

/-- R326: a band scale that is an infinity or NaN; a zero-point byte out of its range. -/
def Opnd.badBand (o : Opnd) : Bool :=
  18 ≤ shFmt o.e && shFmt o.e ≤ 20 && (List.range (shSRows o.e)).any fun r => (o.band r).isNan || (o.band r).isInf
def Opnd.badZp (o : Opnd) : Bool :=
  (shFmt o.e = 23 || shFmt o.e = 24) && (storedPos o.e).any fun p => zpBad (shFmt o.e) (o.code p.1 p.2).2.2

/-! ## Accumulation (R122-R126) -/

/-- A command's switches: the sign changes, the fresh start, the integer mode. -/
structure MacMode where
  na : Bool
  nb : Bool
  fresh : Bool
  sat : Bool
  reduced : Bool
  deriving DecidableEq, Repr

/-- A value with its sign changed when asked. -/
def negIf (b : Bool) (x : Num) : Num := if b then x.neg else x
def negIfI (b : Bool) (x : Int) : Int := if b then -x else x

/-- The four groups of R126, or one k at a time (R123). -/
def kGroups (reduced : Bool) : List (List Nat) :=
  if reduced then (List.range 4).map fun g => (List.range 16).map (16 * g + ·) else (List.range 64).map fun k => [k]

/-- R123, R126: one word of an FP32 command. -/
def macFloat (m : MacMode) (a b : Opnd) (i j c0 : Nat) : Nat :=
  (kGroups m.reduced).foldl (fun c ks =>
    rne32 (Num.sum (fp32 c :: ks.map fun k => (negIf m.na (a.at_ i k)).mul (negIf m.nb (b.at_ k j))))) (if m.fresh then 2 ^ 31 else c0)

/-- The block length of R124. -/
def macL (a b : Opnd) : Nat := if 21 ≤ shFmt a.e && shFmt a.e ≤ 26 then 2 ^ shBlg a.e else 2 ^ shBlg b.e

/-- R124: one word of a command with an operand of codes 21-26. -/
def macBlock (m : MacMode) (a b : Opnd) (i j c0 : Nat) : Nat :=
  let l := macL a b
  (List.range (64 / l)).foldl (fun c n =>
    let ks := (List.range l).map (n * l + ·)
    let part := (ks.map fun k => (a.int i k).1 * (b.int k j).1).sum
    let part := negIfI m.nb (negIfI m.na part)
    let term := ((a.int i (n * l)).2.mul (b.int (n * l) j).2).mul (Num.ofInt part)
    rne32 ((fp32 c).sum2 (if term.isZero then .fin false 0 1 else term))) (if m.fresh then 2 ^ 31 else c0)

/-- R125: one word of an I32 command, and whether a step clamped. -/
def macInt (m : MacMode) (a b : Opnd) (i j c0 : Nat) : Nat × Bool :=
  let r := (List.range 64).foldl (fun (p : Int × Bool) k =>
    let c := p.1 + negIfI m.nb (negIfI m.na ((a.int i k).1 * (b.int k j).1))
    if !m.sat then (toSigned 32 (patOf 32 c), p.2)
    else if c < -(2 ^ 31 : Nat) then (-(2 ^ 31 : Nat), true)
    else if (2 ^ 31 : Nat) ≤ c then ((2 ^ 31 : Nat) - 1, true)
    else (c, p.2)) (if m.fresh then 0 else toSigned 32 c0, false)
  (patOf 32 r.1, r.2)

/-- Word n of a tile, and a tile of 256 words. -/
def tileWord (t : Tile) (n : Nat) : Nat := t.toNat / 2 ^ (32 * n) % 2 ^ 32
def ofWords (f : Nat → Nat) : Tile := BitVec.ofNat 8192 (((List.range 256).map fun n => f n % 2 ^ 32 * 2 ^ (32 * n)).sum)

/-- The command accumulates by R125, by R124, or by R123 and R126. -/
def isInt32 (fa fb : Nat) : Bool := 9 ≤ fa && fa ≤ 12 && 9 ≤ fb && fb ≤ 12
def isBlk (f : Nat) : Bool := 21 ≤ f && f ≤ 26

/-- The tile that a command writes, and whether a step clamped. -/
def macTile (m : MacMode) (a b : Opnd) (t : Tile) : Tile × Bool :=
  if isInt32 (shFmt a.e) (shFmt b.e) then
    let f := fun n => macInt m a b (n / 16) (n % 16) (tileWord t n)
    (ofWords fun n => (f n).1, (List.range 256).any fun n => (f n).2)
  else if isBlk (shFmt a.e) || isBlk (shFmt b.e) then (ofWords fun n => macBlock m a b (n / 16) (n % 16) (tileWord t n), false)
  else (ofWords fun n => macFloat m a b (n / 16) (n % 16) (tileWord t n), false)

/-! ## The checks of `mmac` (R322) -/

/-- The hardware ring bound to an object: of two, the lower (DESIGN CHOICE, log 84: R322 does not say which). -/
def Core.ringOf (k : Core) (idx : BitVec 16) : Option Nat := (List.range 32).find? fun j => (k.ring j).obj == some idx

/-- A format and block length that an accord operand may have. -/
def opndFmtOk (e : Vector Word 8) : Bool := 1 ≤ shFmt e && shFmt e ≤ 28 && blgOk (shFmt e) (shBlg e)

/-- R260, R322 item 2: a shape that the accord refuses. A format that item 4 refuses has no bytes to place. -/
def opndBad (e : Vector Word 8) (rows cols size : Nat) : Bool :=
  shapeBad e || decide (rows < shRows e) || decide (cols < shCols e) ||
  (opndFmtOk e && (opndBytes e).any fun b => b < 0 || (size : Int) ≤ b)

/-- R322 items 1-3: one operand on hardware ring j, named by an object: the object index and reason of OBJ. DESIGN CHOICE (log 85): at a
command's begin (R321) too the ring is the one that the enqueue found: where that is bound to another object by then, item 1 fails, though
the named object be bound to another hardware ring. -/
def opndCheck (k : Core) (idx : BitVec 16) (j rows cols : Nat) (other : Option Nat) : Option (Nat × Nat) :=
  let r := k.ring j
  if r.obj != some idx then some (idx.toNat, 5)
  else if !(dw r.entry 0).getLsbD 7 then some (idx.toNat, 3)
  else if r.ck != 1 || !rnShv r.entry || other == some j then some (idx.toNat, 4)
  else
    let si := rnShape r.entry
    match r.shape with
    | none => some (si, 1)
    | some e =>
      if df e 0 0 4 ≠ kSHAPE then some (si, 2)
      else if !(dw e 0).getLsbD 4 then some (si, 3)
      else if opndBad e rows cols r.slotBytes then some (si, 4)
      else none

/-- The captured shape of a ring. -/
def Core.shapeOf (k : Core) (j : Nat) : Vector Word 8 := (k.ring j).shape.getD noEntry

/-- The class of a format: integer (R104). -/
def intClass (f : Nat) : Bool := (9 ≤ f && f ≤ 12) || isBlk f

/-- R322 item 4: the ring object that FORMAT names. -/
def pairBad (ra rb : BitVec 16) (a b : Vector Word 8) : Option (BitVec 16) :=
  let pair := if Config.pairIsB then rb else ra
  if !opndFmtOk a then some ra
  else if !opndFmtOk b then some rb
  else if intClass (shFmt a) != intClass (shFmt b) then some pair
  else if isBlk (shFmt a) && isBlk (shFmt b) && shBlg a != shBlg b then some pair
  else if isBlk (shFmt a) && 6 < shBlg a then some ra
  else if isBlk (shFmt b) && 6 < shBlg b then some rb
  else if isBlk (shFmt a) && shTrans a then some ra
  else if isBlk (shFmt b) && !shTrans b then some rb
  else none

/-- R322 items 1-4 on two hardware rings. -/
def macCheck (s : State) (k : Core) (ra rb : BitVec 16) (ja jb : Nat) : Option Trap :=
  match (opndCheck k ra ja 16 64 none).or (opndCheck k rb jb 64 16 (some ja)) with
  | some (idx, reason) => some (s.tObj idx reason)
  | none => (pairBad ra rb (k.shapeOf ja) (k.shapeOf jb)).map fun i => s.tFormat (i.setWidth 64)

/-! ## The queue (R316, R319) -/

/-- A command enters the queue of the issuing core. -/
def enqueue (s : State) (i : Instr) (ja jb : Nat) (p : Word) : State :=
  s.modMine fun k => { k with acc := { k.acc with
    seq := k.acc.seq + 1
    q := k.acc.q ++ [{ seq := k.acc.seq, i := i, ringA := ja, ringB := jb, ptr := p, ltag := (k.ctx s.iss.slot).a.ltag, begun := false,
                       res := none, oa := none, ob := none, bind := false, band := false, zp := false, clamp := false }] } }

/-- R316: a full queue holds the bundle back, as R97 does. -/
def holdQueue (s : State) : Option Bool := if s.mine.acc.q.length < 8 then none else some true

/-- The tile and the operand objects of a command; no operand for `mzero` and `mput`. -/
def cmdTile : Instr → Nat
  | .mmac acc _ _ _ _ _ _ _ _ | .mzero acc | .mput acc _ => acc.toNat
  | _ => 0
def cmdRings : Instr → Option (BitVec 16 × BitVec 16)
  | .mmac _ _ _ _ _ _ ra rb _ => some (ra, rb)
  | _ => none

/-- R326: the bindings of a command fail the checks at its begin. -/
def cmdUnbound (s : State) (k : Core) (a : AccCmd) : Bool :=
  match cmdRings a.i with
  | some (ra, rb) => (macCheck s k ra rb a.ringA a.ringB).isSome
  | none => false

/-- The oldest command of a core that has not begun. -/
def oldestCmd (k : Core) : Option AccCmd := k.acc.q.find? fun a => !a.begun

/-- R319: a command may begin. -/
def cmdEligible (s : State) (k : Core) (a : AccCmd) : Bool :=
  !(k.acc.mgets.any fun g => g.seq < a.seq && g.acc.toNat == cmdTile a.i && g.bytes.isNone) &&
  match cmdRings a.i with
  | some _ => cmdUnbound s k a || ((k.ring a.ringA).w != (k.ring a.ringA).c && (k.ring a.ringB).w != (k.ring a.ringB).c)
  | none => true

/-! ## The instructions -/

/-- R320-R322, R324. -/
def execMmac (acc : BitVec 2) (na nb fresh ka kb : BitVec 1) (ra rb : BitVec 16) (mode : BitVec 2) (s : State) : Out :=
  let i := Instr.mmac acc na nb fresh ka kb ra rb mode
  let ja := (s.mine.ringOf ra).getD 32
  let jb := (s.mine.ringOf rb).getD 32
  .next (runE i s true (fun s => macCheck s s.mine ra rb ja jb) holdQueue fun s => (enqueue s i ja jb 0).advance)

/-- R328. -/
def execMzero (acc : BitVec 2) (s : State) : Out :=
  .next (runE (.mzero acc) s true (fun _ => none) holdQueue fun s => (enqueue s (.mzero acc) 0 0 0).advance)

/-- R329. -/
def execMput (acc : BitVec 2) (a : RF) (s : State) : Out :=
  let p := s.rdG a
  .next (runE (.mput acc a) s true
    (fun s =>
      if !s.ownSp (s.res p) || addrBad p 1024 4 then some (s.tAddr p)
      else (s.checkProt p 1024 0).or (s.checkLock p 1024 0))
    holdQueue fun s => (enqueue s (.mput acc a) 0 0 p).advance)

/-- The size of a row of `mget` (R330). -/
def mgetRow (p : Word) : Nat := if pFmt p = 0 || pFmt p = 3 then 64 else formBytes (pFmt p) (pBlg p) 16

/-- R330: FORMAT of `mget`. -/
def mgetFmtBad (p : Word) : Bool :=
  26 < pFmt p || !blgOk (pFmt p) (pBlg p) || (13 ≤ pFmt p && !(pBlg p = 3 || pBlg p = 4))

/-- R330: the checks of `mget`. -/
def mgetCheck (s : State) (p : Word) : Option Trap :=
  let q := s.res p
  let n := 16 * mgetRow p
  if mgetFmtBad p then some (s.tFormat p)
  else if !(s.ownSp q || s.ownDie q) || addrBad p n 1 then some (s.tAddr p)
  else (s.checkProt p n 1).or ((s.checkLock p n 1).or (s.checkPage p n 1))

/-- R331: an `mget` takes its place in the core's order at its commit. -/
def mgetPlace (s : State) (acc : BitVec 2) (p : Word) (keys : List Nat) : State :=
  let id := s.nextId
  let s := s.freshId.addLong { s.newLong id .none .word with inChunk := false }
  s.modMine fun k => { k with acc := { k.acc with
    seq := k.acc.seq + 1
    mgets := k.acc.mgets ++ [{ seq := k.acc.seq, id := id, slot := s.iss.slot, acc := acc, ptr := p, keys := keys, bytes := none,
                               due := k.cyc + 64 }] } }

/-- The keys of n bytes of a destination of `mget`: of the issuing core's scratchpad, or of its die's memory, whatever T. -/
def State.mgetKeys (s : State) (q : Word) (n : Nat) : List Nat := if s.ownDie q then s.physKeys q n else s.byteKeys q n

/-- R330, R331. -/
def execMget (acc : BitVec 2) (a : RF) (s : State) : Out :=
  let p := s.rdG a
  let q := s.res p
  let n := 16 * mgetRow p
  let keys := s.mgetKeys q n
  let i := Instr.mget acc a
  .next (runE i (walkPage i s p n 1 (mgetCheck s p)) true (fun s => mgetCheck s p) holdLong
    fun s => (mgetPlace (s.touchOwn q n 1) acc p keys).advance)

/-- R332. -/
def doneMwait (s : State) (_ : Wait) : Option State := if s.mine.acc.q.isEmpty then some s else none

/-- R332. -/
def execMwait (a : RF) (s : State) : Out :=
  .next (runW (.mwait a) s (fun _ => none) (fun s => s.newWait (.mwait a) [] (limitOf (s.rdG a))) doneMwait)

/-- R333: the word of `mstat`. -/
def mstatWord (k : Core) : Word :=
  let e := k.acc.err
  BitVec.ofNat 64 (k.acc.q.length % 16 + (if k.acc.mgets.isEmpty then 0 else 2 ^ 4) + (if e.eband then 2 ^ 8 else 0) +
    (if e.ezp then 2 ^ 9 else 0) + (if e.iclamp then 2 ^ 10 else 0) + (if e.ebind then 2 ^ 11 else 0) +
    e.nerr.toNat * 2 ^ 16 + e.facc.toNat * 2 ^ 26)

/-- R333. -/
def execMstat (d : RF) (s : State) : Out := .next (runC (.mstat d) s fun s => .ok (s.wrG d (mstatWord s.mine)))

/-! ## The arbiter (R318) -/

/-- Core c of a half-cluster. -/
def halfCore (h : BitVec 9) (c : Nat) : CoreId := h ++ BitVec.ofNat 3 c

/-- The weight of a core of the half-cluster. -/
def Half.weight (x : Half) (c : Nat) : Nat := x.wgt.toNat / 16 ^ c % 16

/-- The cores whose oldest unbegun command is eligible. -/
def eligibleCores (s : State) (h : BitVec 9) : List Nat :=
  (List.range 8).filter fun c =>
    let k := s.core (halfCore h c)
    match oldestCmd k with
    | some a => cmdEligible s k a
    | none => false

/-- R318: the arbiter's choice and its state afterwards. -/
def arbitrate (x : Half) (elig : List Nat) : Option (Nat × Half) :=
  if elig.isEmpty then none
  else
    let x := if elig.any fun c => 0 < vget x.cred c 0 then x else { x with cred := Vector.ofFn fun i => x.weight i.val }
    match ((List.range 8).map fun i => (x.ptr + i) % 8).find? fun c => elig.contains c && 0 < vget x.cred c 0 with
    | none => none
    | some c =>
      let n := vget x.cred c 0 - 1
      some (c, { x with cred := vset x.cred c n, ptr := if 0 < n then c else (c + 1) % 8, begun := some (BitVec.ofNat 3 c) })

/-- The slot at index C of a ring of a core (R323). -/
def slotAtC (s : State) (c : CoreId) (j : Nat) : List Byte :=
  let r := (s.core c).ring j
  memRead s.mem (spKey c (r.slotOff r.c)) r.slotBytes

/-- R325: E of an operand. -/
def opndE (f : Nat) : Nat := if elemWidth f = 4 then 1 else if elemWidth f = 8 then 2 else 4

/-- R325: the operand that a latch holds of the slot at index C of a ring. -/
def latched (k : Core) (latch : Option (Nat × W32 × Opnd)) (j : Nat) : Option Opnd :=
  match latch with
  | some (i, c, o) => if i = j && c == (k.ring j).c then some o else none
  | none => none

/-- R323, R325: the operand of a ring of a core: from its latch, or read from its slot. -/
def opndAt (s : State) (c : CoreId) (latch : Option (Nat × W32 × Opnd)) (j : Nat) : Opnd :=
  (latched (s.core c) latch j).getD { e := (s.core c).shapeOf j, bs := slotAtC s c j }

/-- R325: bytes read of an operand that no latch holds. -/
def opndX (k : Core) (latch : Option (Nat × W32 × Opnd)) (j : Nat) : Nat :=
  if (latched k latch j).isSome then 0 else (opndBytes (k.shapeOf j)).length

/-- R325: the cycles that a command occupies. -/
def cmdCycles (k : Core) (a : AccCmd) (unbound : Bool) : Nat :=
  match a.i with
  | .mzero _ => 1
  | .mput _ _ => 2
  | _ =>
    if unbound then Config.abandonCycles
    else max (max (opndE (shFmt (k.shapeOf a.ringA))) (opndE (shFmt (k.shapeOf a.ringB))))
      ((opndX k k.acc.latchA a.ringA + opndX k k.acc.latchB a.ringB + 511) / 512)

/-- The clear of the error fields (R328). -/
def AccErr.zero : AccErr := { facc := 0, nerr := 0, ebind := false, iclamp := false, ezp := false, eband := false }

/-- The command as it stands once it has begun: what it will write (R323-R326, R328, R329). -/
def beginCmd (s : State) (c : CoreId) (k : Core) (a : AccCmd) : AccCmd :=
  match a.i with
  | .mzero _ => { a with begun := true, res := some 0 }
  | .mput _ _ => { a with begun := true, res := some (BitVec.ofNat 8192 (memNat s.mem (spKey c (pOff a.ptr)) 1024)) }
  | .mmac acc na nb fresh _ _ _ _ mode =>
    if cmdUnbound s k a then { a with begun := true, bind := true }
    else
      let oa := opndAt s c k.acc.latchA a.ringA
      let ob := opndAt s c k.acc.latchB a.ringB
      let a := { a with oa := some oa, ob := some ob }
      let band := oa.badBand || ob.badBand
      let zp := oa.badZp || ob.badZp
      if band || zp then { a with begun := true, band := band, zp := zp }
      else
        let m : MacMode :=
          { na := na == 1, nb := nb == 1, fresh := fresh == 1, sat := mode == 1, reduced := (s.die (dieOf c)).svc.getLsbD 0 }
        let r := macTile m oa ob (vget k.acc.tiles acc.toNat 0)
        { a with begun := true, res := some r.1, clamp := r.2 }
  | _ => { a with begun := true }

/-- ACCORD_COMMAND_BEGIN: R318. A command that begins in reduced service marks its launch (R370). -/
def execAccordCommandBegin (half : BitVec 9) (s : State) : Out :=
  let x := s.half half
  .next (if x.begun.isSome then s
    else match arbitrate x (eligibleCores s half) with
      | none => s
      | some (n, y) =>
        let c := halfCore half n
        let k := s.core c
        match oldestCmd k with
        | none => s
        | some a =>
          let b := beginCmd s c k a
          let s := (s.countCore c 18 1).countCore c 19 (cmdCycles k a b.bind)
          let s := if (s.die (dieOf c)).svc.getLsbD 0 then s.modLaunch a.ltag fun l => { l with reduced := true } else s
          (s.setHalf half y).modCore c fun k =>
            { k with acc := { k.acc with
                q := k.acc.q.map fun z => if z.seq = a.seq then b else z
                tiles := match a.i with | .mzero acc => vset k.acc.tiles acc.toNat 0 | _ => k.acc.tiles
                err := match a.i with | .mzero _ => AccErr.zero | _ => k.acc.err } })

/-! ## Retirement (R324, R326) -/

/-- The keep bits of a command. -/
def cmdKeeps : Instr → Bool × Bool
  | .mmac _ _ _ _ ka kb _ _ _ => (ka == 1, kb == 1)
  | _ => (false, false)

/-- A slot is freed, unless it is kept. -/
def freeSlot (k : Core) (j : Nat) (keep : Bool) : Core :=
  let r := k.ring j
  if keep then k else k.setRing j { r with c := r.c + 1, f := r.f + 1 }

/-- The error fields after a command (R326, R333). -/
def AccErr.after (e : AccErr) (a : AccCmd) : AccErr :=
  if a.res.isSome then { e with iclamp := e.iclamp || a.clamp }
  else
    { e with ebind := e.ebind || a.bind, eband := e.eband || a.band, ezp := e.ezp || a.zp,
             facc := if e.nerr = 0 then BitVec.ofNat 2 (cmdTile a.i) else e.facc,
             nerr := if e.nerr = 255 then 255 else e.nerr + 1 }

/-- The latch of an operand after a command that keeps it or not (R325). -/
def latchOf (k : Core) (keep : Bool) (j : Nat) (o : Option Opnd) : Option (Nat × W32 × Opnd) :=
  if keep then o.map fun o => (j, (k.ring j).c, o) else none

/-- The latches after a command (R325): what it kept, and nothing else. -/
def latchesAfter (k : Core) (a : AccCmd) : Option (Nat × W32 × Opnd) × Option (Nat × W32 × Opnd) :=
  let kp := cmdKeeps a.i
  (latchOf k kp.1 a.ringA a.oa, latchOf k kp.2 a.ringB a.ob)

/-- R324: a begun command retires in one step. -/
def retireCmd (k : Core) (a : AccCmd) : Core :=
  let latch := latchesAfter k a
  let k := if (cmdRings a.i).isSome && !a.bind then
      let kp := cmdKeeps a.i
      freeSlot (freeSlot k a.ringA kp.1) a.ringB kp.2
    else k
  let n := cmdTile a.i
  { k with acc := { k.acc with
      tiles := match a.res with | some t => vset k.acc.tiles n t | none => k.acc.tiles
      q := k.acc.q.filter fun z => z.seq != a.seq
      err := match a.i with | .mmac _ _ _ _ _ _ _ _ _ => k.acc.err.after a | _ => k.acc.err
      latchA := latch.1
      latchB := latch.2
      mgets := k.acc.mgets.map fun g =>
        if a.seq < g.seq && g.acc.toNat = n then { g with due := max g.due (k.cyc + 64) } else g } }

/-- ACCORD_COMMAND_RETIRE: R324. -/
def execAccordCommandRetire (half : BitVec 9) (s : State) : Out :=
  .next (match (s.half half).begun with
    | none => s
    | some n =>
      let c := halfCore half n.toNat
      let s := s.setHalf half { s.half half with begun := none }
      match (s.core c).acc.q.find? (·.begun) with
      | none => s
      | some a => s.modCore c fun k => retireCmd k a)

/-! ## `mget` at the unit (R331) -/

/-- R330: the bytes of a tile in the format of a pointer. -/
def mgetBytes (t : Tile) (p : Word) : List Byte :=
  let f := pFmt p
  let row := fun i =>
    let ws := (List.range 16).map fun j => tileWord t (16 * i + j)
    if f = 0 || f = 3 then (ws.map (natBytes 4)).flatten
    else (encodeElems f (pBlg p) 0 false (ws.map fun w => if 9 ≤ f && f ≤ 12 then Num.ofInt (toSigned 32 w) else fp32 w)).1
  ((List.range 16).map row).flatten

/-- An `mget` whose tile may be read: every earlier command of its core has retired. -/
def mgetReady (k : Core) (g : Mget) : Bool := g.bytes.isNone && k.acc.q.all fun a => g.seq < a.seq

/-- MGET_TILE_READ: R331. DESIGN CHOICE (log 84): it is no other command of the core in the sense of R325, and the latches stay as they
are. -/
def execMgetTileRead (core : CoreId) (s : State) : Out :=
  let k := s.core core
  .next (match k.acc.mgets.find? (mgetReady k) with
    | none => s
    | some g =>
      (s.countCore core 19 2).modCore core fun k => { k with acc := { k.acc with
        mgets := k.acc.mgets.map fun z =>
          if z.seq = g.seq then { z with bytes := some (mgetBytes (vget k.acc.tiles g.acc.toNat 0) g.ptr) } else z } })

/-- A long operation that brings no register returns to its context, or is discarded (R93, R170). -/
def endLong (s : State) (c : CoreId) (n : SlotNo) (id : Nat) : State :=
  match (s.ctx c n).long.find? (·.id == id) with
  | some l => if l.cancelled then discardLong s c n id else finishLong s c n l none 0
  | none => discardLong s c n id

/-- MGET_COMPLETE: R331. The bytes are written, unless the token holder holds them back. -/
def execMgetComplete (core : CoreId) (s : State) : Out :=
  let k := s.core core
  .next (match k.acc.mgets.find? fun g => g.bytes.isSome && g.due ≤ k.cyc with
    | none => s
    | some g =>
      if keysHeld s g.keys then s
      else
        let s := writeKeysSquash s g.keys (g.bytes.getD [])
        let s := s.modCore core fun k => { k with acc := { k.acc with mgets := k.acc.mgets.filter fun z => z.seq != g.seq } }
        endLong s core g.slot g.id)

end Sys2Proof.Machine
end

