-- ==== Sys2Proof/Machine/Waits.lean ====
section
/-! DEFINITION. Waits between issue and completion (R52, R54, R69, R98, R285, R286, R332, R441, R459): their
conditions, their completion, their expiry and their abandonment. -/

namespace Sys2Proof.Machine

/-! ## Conditions and completion -/

/-- The condition and effect of a waiting instruction, in the state whose issue record names its context. -/
def waitDone (s : State) (w : Wait) : Option State :=
  match w.i with
  | .park _ => donePark s w
  | .hjoin _ _ => doneHjoin s w
  | .hsave _ _ => doneHsave s w
  | .fence _ => doneFence s w
  | .recv a _ => doneRecv a s w
  | .kwait a _ _ => doneKwait a s w
  | .rclaim a _ _ => doneRing .claim a s w
  | .rwait a _ _ => doneRing .wait a s w
  | .cpwait a _ _ => doneCpwait a s w
  | .mbwait _ _ _ => doneMbwait s w
  | .mwait _ => doneMwait s w
  | .cbPush _ _ _ => doneCbPush s w
  | .cbPull a _ _ => doneCbPull a s w
  | _ => none

/-- The wait of a context whose condition holds: its effect and its results (R167, R98); its state by R52. -/
def completeWait (s : State) (c : CoreId) (n : SlotNo) (w : Wait) : Option State :=
  let s := asCtx s c n w.bundle
  (waitDone s w).map fun s' => wakeCtx s'.advance c n w.sbit

/-- R251, R283: a wait whose effect is made in its issuer's turn: an entry or a slot of the core's own rings is taken there. -/
def Wait.takes (w : Wait) : Bool :=
  match w.i with
  | .recv _ _ => true
  | .rclaim _ _ _ | .rwait _ _ _ => w.req.isNone
  | _ => false

/-- R52, R98: the condition of a wait holds: its effect and its results, or its state alone where the effect is made in the
context's own turn. -/
def meetWait (s : State) (c : CoreId) (n : SlotNo) (w : Wait) : Option State :=
  if w.takes then
    (waitDone (asCtx s c n w.bundle) w).map fun _ =>
      s.modCore c fun k => k.setCtx n { k.ctx n with st := k.liveState n, compl := some w.sbit }
  else completeWait s c n w

/-- R52, R98: the turn in which a waiting instruction completes; a switch marker on its bundle parks the context. What a wait
takes in its turn it takes now; a context before it may have taken it, and then the context waits again (R251). -/
def complTurn (s : State) (c : CoreId) (n : SlotNo) (sbit : Bool) : State :=
  let fin := fun (s : State) => s.modCore c fun k =>
    let k := k.setCtx n { k.ctx n with compl := none }
    if sbit then k.parkS n else k
  match (s.ctx c n).wait with
  | none => fin s
  | some w => match completeWait s c n w with
    | some s' => fin s'
    | none => s.modCore c fun k =>
        k.setCtx n { k.ctx n with st := if k.holds n then .hwaiting else .waiting, compl := none }

/-- A context's turn runs: besides, its core is not in stall mode's hold (R451). -/
def Core.runs (k : Core) (n : SlotNo) : Bool := k.stall.isEmpty && k.tests n

/-- WAIT_CONDITION_MET: R52, R98. -/
def execWaitConditionMet (core : CoreId) (slot : SlotNo) (s : State) : Out :=
  let x := s.ctx core slot
  .next (match x.wait with
    | some w => if x.isWaiting && (s.core core).tests slot then (meetWait s core slot w).getD s else s
    | none => s)

/-! ## Expiry (R286, R332, R441) -/

/-- The first info word: an object or number, and the kind. -/
def waitInfo0 (x kind : Nat) : Word := BitVec.ofNat 64 (x % 2 ^ 16 + kind * 2 ^ 16)

/-- Two 32-bit halves. -/
def pair32 (lo hi : W32) : Word := hi ++ lo

/-- The indices of ring 0 as a wait for the inbox reports them. -/
def inboxInfo (k : Core) : Word × Word :=
  let r := k.ring 0
  (waitInfo0 (match r.obj with | some o => o.toNat | none => 0xFFFF) 3, pair32 r.w r.c)

/-- The word of a stream for a waiting push or pull. -/
def streamInfo (s : State) (c : CoreId) (n : SlotNo) (w : Wait) (sel : Nat) : Word :=
  let x := s.stream (dieOf c) (wSnum w)
  BitVec.ofNat 64 (x.stat (x.bound ((s.core c).tenantOf n) (wObj w)) sel)

/-- The indices that a ring wait reports. -/
def ringInfo (r : Ring) (op : RingOp) : Word := if op == .claim then pair32 (r.w + r.rc) r.f else pair32 r.w r.c

/-- The two info words of WAITX at expiry; `remote` holds the indices that another owner reported. -/
def waitInfo (s : State) (c : CoreId) (n : SlotNo) (w : Wait) (remote : Option Word) : Word × Word :=
  let k := s.core c
  let v := fun i => w.vals.getD i 0
  match w.i with
  | .rclaim _ _ _ => (waitInfo0 (v 0).toNat 1, remote.getD (ringInfo (k.ring (v 1).toNat) .claim))
  | .rwait _ _ _ => (waitInfo0 (v 0).toNat 2, remote.getD (ringInfo (k.ring (v 1).toNat) .wait))
  | .recv _ _ => inboxInfo k
  | .park _ => inboxInfo k
  | .kwait _ _ _ => (waitInfo0 (k.km.lookup (keyOf (v 0))).2 4, (keyOf (v 0)).setWidth 64)
  | .cpwait _ _ _ => (waitInfo0 (v 0).toNat 5, (k.ch (v 0).toNat).wp)
  | .mbwait _ _ _ => (waitInfo0 (mbIdx (v 0)) 6, pair32 (vget k.mbox (mbIdx (v 0)) 0) ((v 1).extractLsb' 0 32))
  | .hjoin _ _ =>
    (waitInfo0 (v 0).toNat 10, BitVec.ofNat 64 (stateCode (k.ctx ((helperSlot (v 0)).getD 15)).st))
  | .mwait _ => (waitInfo0 k.acc.q.length 7, mstatWord k)
  | .cbPush _ _ _ => (waitInfo0 (v 0).toNat 8, streamInfo s c n w 1)
  | .cbPull _ _ _ => (waitInfo0 (v 0).toNat 9, streamInfo s c n w 0)
  | _ => (0, 0)

/-- The wait leaves its place at the alembic. -/
def leaveWait (s : State) (c : CoreId) (n : SlotNo) (w : Wait) : State :=
  if isCbWait w.i then
    let x := s.stream (dieOf c) (wSnum w)
    s.setStream (dieOf c) (wSnum w) (x.leave c n)
  else s

/-- R459: a wait ends without completing: the context no longer waits, and its open chunk ends. -/
def stopWait (s : State) (c : CoreId) (n : SlotNo) (w : Wait) : State :=
  (leaveWait s c n w).modCore c fun k => k.setCtx n ((k.ctx n).goLive (k.liveState n))

/-- R459, R286: WAITX at the waiting bundle, once the chunk that holds it has committed. -/
def expireWait (s : State) (c : CoreId) (n : SlotNo) (w : Wait) (remote : Option Word) : State :=
  let i := waitInfo s c n w remote
  let x := s.ctx c n
  let p : Pend := { cause := cWAITX, info0 := i.1, info1 := i.2, pc := x.a.pc, fpc := x.a.pc, aux := 0, aux2 := 0, wonly := true, dfr := false, own := true }
  let s := stopWait s c n w
  match x.chunk with
  | none => deliver (s.modCtx c n fun x => { x with a := { x.a with wonly := true } }) c n p
  | some _ =>
    if x.nearOut then s.modCtx c n fun x => { x with chunk := x.chunk.map fun ch => { ch with ending := true, trap := some p } }
    else
      let r := commitChunk s c n
      if r.2 then deliver (r.1.modCtx c n fun x => { x with a := { x.a with wonly := true } }) c n p else r.1

/-- The cycle limit of a wait runs out: a wait at another owner is first asked back (R285); a wait whose
condition holds completes (R441). -/
def expire (s : State) (c : CoreId) (n : SlotNo) (w : Wait) : State :=
  match meetWait s c n w with
  | some s' => s'
  | none =>
    match w.req with
    | none => expireWait s c n w none
    | some id =>
      match (s.req id).map (·.reply) with
      | some (Reply.withdrawn x) => expireWait (s.dropReq id) c n w (some x)
      | some _ => s.sendCancel id false
      | none => s

/-- WAITX: R286, for a wait whose limit has run out. -/
def execWaitx (core : CoreId) (slot : SlotNo) (s : State) : Out :=
  let x := s.ctx core slot
  .next (match x.wait with
    | some w => if x.isWaiting && w.left == some 0 && (s.core core).runs slot then expire s core slot w else s
    | none => s)

/-- R52, R69, R98: a cycle of a waiting context: its condition is tested, and its limit counts one cycle down and expires. R69 does not
say when a limit of 0 expires: it does as a limit of 1 does, in the first cycle that counts (DESIGN CHOICE, log 41). -/
def tickWait (s : State) (c : CoreId) (n : SlotNo) : State :=
  let x := s.ctx c n
  match x.wait with
  | none => s
  | some w =>
    if !(x.isWaiting && (s.core c).tests n) then s
    else match meetWait s c n w with
      | some s' => s'
      | none => match w.left with
        | none => s
        | some m =>
          if !(s.core c).stall.isEmpty then s
          else
            let w' := { w with left := some (m - 1) }
            let s := s.modCtx c n fun x => { x with wait := some w' }
            if m ≤ 1 then expire s c n w' else s

/-! ## Abandonment (R346, R193) -/

/-- A waiting context abandons its wait: its chunk, if open, commits, and it is marked WONLY. The answer is
false while the chunk cannot commit yet, or was refused. -/
def abandonWait (s : State) (c : CoreId) (n : SlotNo) (w : Wait) : State × Bool :=
  let x := s.ctx c n
  let mark := fun (s : State) => (stopWait s c n w).modCtx c n fun x => { x with a := { x.a with wonly := true } }
  match x.chunk with
  | none => (mark s, true)
  | some _ =>
    if x.nearOut then (s, false)
    else
      let r := commitChunk s c n
      if r.2 then (mark r.1, true) else (r.1, false)

/-! ## A chunk that has ended (R166, R173) -/

/-- The trap of a chunk that has committed is taken; by a FROZEN context, before its next bundle once it is released. -/
def endTrap (s : State) (c : CoreId) (n : SlotNo) (p : Pend) : State :=
  let s := if p.wonly then s.modCtx c n fun x => { x with a := { x.a with wonly := true } } else s
  if (s.ctx c n).st == .frozen && p.cause != 0 then s.modCtx c n fun x => { x with tpend := x.tpend ++ [p] } else deliver s c n p

/-- Commits an ENDING chunk, of a context in any state, once none of its near loads is outstanding, and takes the trap that
waits for it. -/
def finishChunk (s : State) (c : CoreId) (n : SlotNo) : State :=
  let x := s.ctx c n
  match x.chunk with
  | none => s
  | some ch =>
    if !ch.ending || x.nearOut then s
    else
      let r := commitChunk s c n
      match r.2, ch.trap with
      | true, some p => endTrap r.1 c n p
      | _, _ => r.1

/-- CHUNK_COMMIT: R166, R167, for a chunk that has ended. A FROZEN context's chunk may commit too. -/
def execChunkCommit (core : CoreId) (slot : SlotNo) (s : State) : Out := .next (finishChunk s core slot)

/-! ## Releases that wait (R167, R188) -/

/-- What holds back and what performs the operation of a release: by the registers of its bundle, and the entry that it read at
issue. -/
def releaseOf (u : State) (i : Instr) (e : Vector Word 8) : (State → Option Bool) × (State → State) :=
  match i with
  | .red b c w op => (redHold (u.rdG b) w, redOp (u.rdG b) (u.rdG c) w op)
  | .post a b c n => (postHold a (u.rdG b), postOp a (u.rdG b) (postWords c n u))
  | .kready a => (holdRelease, kreadyOp (u.rdG a))
  | .mbinc a b => (mbHold (u.rdG a), mbPostOp .inc (u.rdG a) (u.rdG b))
  | .mbset a b => (mbHold (u.rdG a), mbPostOp .set (u.rdG a) (u.rdG b))
  | .rpush a => (ringHold .push e, ringPostOp .push (objIdx (u.rdG a)) 0 e none)
  | .rrel a => (ringHold .rel e, ringPostOp .rel (objIdx (u.rdG a)) 0 e none)
  | .tgnew a _ => (releaseLong, tgnewOp a e)
  | .tglaunch a _ => (tglaunchHold e, tglaunchOp a e)
  | .spend a => (spendHold (u.rdG a) (u.rdG 63), fun s => spendOp s (u.rdG a) (u.rdG 63))
  | .hend => (holdRelease, retire)
  | .cbDone a b => (holdRelease, cbDoneOp (objIdx (u.rdG a)) ((u.rdG b).extractLsb' 32 30) e)
  | _ => (noHold, id)

/-- The release of a context that waits for the far stores of its commit is performed once R188 lets it; then the switch marker
of its bundle parks the context (R95). -/
def performRelease (s : State) (c : CoreId) (n : SlotNo) : State :=
  match (s.ctx c n).rel with
  | none => s
  | some r =>
    let u : State := { s with iss := r.iss }
    let f := releaseOf u r.i r.e
    match f.1 u with
    | some _ => s
    | none =>
      let t : State := { f.2 (u.modMe fun x => { x with rel := none }) with iss := s.iss }
      if r.sbit then t.modCore c fun k => k.parkS n else t

/-- What a core keeps of a context that leaves its slot: the one that has a release to perform (R170, R349; DEDUCED, log 62). -/
def Core.leaver (k : Core) (n : SlotNo) : List Gone :=
  if (k.ctx n).owes then
    [{ slot := n, ctx := { k.ctx n with long := [] }, asg := k.asg, qwgt := k.r.qwgt, slotOwn := k.r.slotOwn }]
  else []

/-- A context leaves its slot. Of one that ends, the invocation closes and the held constraints return (R420, R438), or return once
its last release has been performed. -/
def leaveSlot (s : State) (c : CoreId) (n : SlotNo) (ends : Bool) : State :=
  let s := if ends then closeInv s c n true else s
  let s := if ends && !(s.ctx c n).owes then returnAllHeld s c n else s
  s.modCore c fun k => { ((k.dropBank n).setCtx n { Ctx.zero with occ := (k.ctx n).occ + 1 }) with gone := k.gone ++ k.leaver n }

/-- A context that is gone stands in its slot again, with the open chunk given. -/
def Core.recall (k : Core) (g : Gone) (ch : Option Chunk) : Core :=
  { (k.setCtx g.slot { g.ctx with chunk := ch }) with asg := g.asg, r := { k.r with qwgt := g.qwgt, slotOwn := g.slotOwn } }

/-- The core as it was, once a recalled context has performed an operation; what that has issued counts for the core. -/
def Core.dismiss (k v : Core) (g : Gone) : Core :=
  { (k.setCtx g.slot (v.ctx g.slot)) with
    asg := v.asg, r := { k.r with qwgt := v.r.qwgt, slotOwn := v.r.slotOwn }
    stray := k.stray ++ (k.ctx g.slot).long.map (·.id) }

/-- The waits at the streams of a die. -/
def Die.waits (x : Die) : Vector (List (CoreId × SlotNo)) 4 := x.streams.map (·.waiters)
def Die.setWaits (x : Die) (w : Vector (List (CoreId × SlotNo)) 4) : Die :=
  { x with streams := Vector.ofFn fun j => { vget x.streams j.val Stream.zero with waiters := vget w j.val [] } }

/-- A context that is gone performs an operation, for itself. The pushes and pulls that wait at its die's streams are handled after it,
with the core as it is (R433): what the context has come to, and the state. -/
def asGone (s : State) (c : CoreId) (g : Gone) (f : State → State) : Ctx × State :=
  let d := dieOf c
  let u := (s.modDie d fun x => x.setWaits (Vector.replicate 4 [])).modCore c fun k => k.recall g none
  let t := f u
  let back := (t.modCore c fun k => k.dismiss (s.core c) g).modDie d fun x => x.setWaits (s.die d).waits
  (t.ctx c g.slot, (List.range 4).foldl (fun t j => serveAll t d j) back)

/-- The held constraints of a context that is gone return, one event after another (R433, R438). -/
def returnGone (s : State) (c : CoreId) (g : Gone) (y : Ctx) : State :=
  (y.hold.toList.filter (·.getLsbD 63)).foldl (fun s w => (asGone s c { g with ctx := { y with long := [] } } fun u => returnHeld u c g.slot w).2) s

/-- The release of a context that is gone is performed once R188 lets it, and its held constraints return. A chunk of the context that
has the slot now is squashed when the write of the release meets it (R169), and is waited for while it holds the token (R171). -/
def performGone (s : State) (c : CoreId) (g : Gone) : State :=
  let n := g.slot
  let ch := (s.ctx c n).chunk
  let trial := performRelease (s.modCore c fun k => k.recall g ch) c n
  if (trial.ctx c n).rel.isSome || (s.die (dieOf c)).token == some (c, n) then s
  else
    let s := if (trial.ctx c n).chunk.isNone then squash s c n else s
    let r := asGone (s.modCore c fun k => { k with gone := k.gone.erase g }) c g fun u => performRelease u c n
    returnGone r.2 c g r.1

end Sys2Proof.Machine
end

