-- ==== Sys2Proof/Machine/Arrive.lean ====
section
/-! DEFINITION. Operations at their destination (R37, R174-R182, R236, R254, R281, R283, R354): the order in
which they may be performed, the scratchpad port, the atomizer, and the service turn. -/

namespace Sys2Proof.Machine

/-! ## The order of operations (R175-R179) -/

/-- Two operations of one occupant of a slot. -/
def sameIssuer (a b : Req) : Bool := a.core == b.core && a.slot == b.slot && a.occ == b.occ

/-- Operations sent before one. -/
def State.sentBefore (s : State) (id : Nat) : List Req := s.net.takeWhile (·.id != id)

/-- The operation is not yet performed. -/
def Req.open_ (r : Req) : Bool := r.reply == Reply.none

/-- Two resolved pointers with byte counts overlap, as one context names them: by their own bits. DESIGN CHOICE (log 66): two
pointers that reach one byte through different virtual addresses are taken as not overlapping, as R186 says of range locks. -/
def overlaps (p : Word) (n : Nat) (q : Word) (m : Nat) : Bool :=
  pSpc p == pSpc q && p.toNat % 2 ^ 54 / 2 ^ offW p == q.toNat % 2 ^ 54 / 2 ^ offW q && pOff p < pOff q + m && pOff q < pOff p + n

/-- R177: an earlier store of the context that a load overlaps is not yet performed. -/
def behindStore (r e : Req) : Bool :=
  match r.body, e.body with
  | .load ps w, .store q bs _ => e.open_ && ps.any fun p => overlaps p w q bs.length
  | _, _ => false

/-- A store or an atomic, as R179 orders them. -/
def isStoreOp : Body → Bool
  | .store _ _ _ | .amo _ _ _ _ | .acas _ _ _ _ => true
  | _ => false

/-- R179: total store order toward the host. -/
def behindTso (r e : Req) : Bool :=
  r.tso && e.tso && e.open_ && isStoreOp r.body == isStoreOp e.body

/-- The core in whose service turn an operation is performed (R37, R180). -/
def serviceCore (dev : BitVec 10) (b : Body) : Option CoreId :=
  match b with
  | .amo p _ _ _ | .acas p _ _ _ => if pSpc p = 0 && pDev p = dev then some (pCore p) else none
  | .post p _ _ => if pDev p = dev then some (pCore p) else none
  | .ring _ c d _ _ _ _ => if d = dev then some c else none
  | _ => none

/-- An operation waits in the service queue of the core that an operation is bound for. -/
def queuedWith (s : State) (r e : Req) : Bool :=
  match serviceCore s.devId r.body with
  | some c => serviceCore s.devId e.body == some c && (s.core c).svcq.contains e.id
  | none => false

/-- R176: program order to one destination device, and room in the reorder window of 64. -/
def inOrder (s : State) (r : Req) : Bool :=
  let es := s.sentBefore r.id
  !r.ord ||
  (es.all fun e => !(e.ord && e.open_ && e.dest == r.dest && sameIssuer e r) || queuedWith s r e) &&
  decide ((es.countP fun e => e.ord && e.open_ && e.dest == r.dest && e.core == r.core) < 64)

/-- The order of R176, R177 and R179 lets the operation be performed. -/
def mayPerform (s : State) (r : Req) : Bool :=
  r.open_ && inOrder s r && (s.sentBefore r.id).all fun e => !sameIssuer e r || !(behindStore r e || behindTso r e)

/-! ## Failures -/

/-- The negative answer to a failed access; a translation fault of an access that R148 delivers as PAGE is
reported so. -/
def fails (s : State) (r : Req) (p : Word) (k : Nat) (fw : BitVec 5) (page : Bool) : State :=
  s.answer r.id (if page && k = eXlate then .page p (fw.setWidth 64) else .err k fw p)

/-! ## Die counters of memory (R405) -/

/-- The counts of an access by where its bytes lie: atomizer operations, pool reads and writes. An atomic at the pool reads there, and
writes where it writes. -/
def countAccess (s : State) (ks : List Nat) (atomic wr : Bool) : State :=
  match ks.head? with
  | none => s
  | some k =>
    if 2 ^ 50 ≤ k && k < 2 ^ 51 then
      let d := s.poolPort (k - 2 ^ 50)
      let s := if atomic || !wr then s.countDie d 13 else s
      let s := if wr then s.countDie d 14 else s
      if atomic then s.countDie d 4 else s
    else if 2 ^ 40 ≤ k && k < 2 ^ 50 && (atomic || decide (2 ^ 41 ≤ k)) then s.countDie (dieOfKey k) 4
    else s

/-! ## Loads, stores and atomics -/

/-- n bytes that an access of a tenant names are held at their interface: of a scratchpad that is being saved or read back
(R354), or of a page under migration (R153). -/
def heldAt (s : State) (t : Tenant) (by_ : Option (CoreId × SlotNo)) (n : Nat) (q : Word) : Bool :=
  (pSpc q == 0 && pDev q == s.devId && spHeld s (pCore q)) || migrating s t q n by_

/-- What w bytes at each pointer come to, from byte o of a free reply on: their bytes, or the first failure. -/
def readAll (s : State) (r : Req) (w o : Nat) : List Word → Except (Word × Nat × BitVec 5) (List Byte)
  | [] => .ok []
  | p :: t =>
    match found s r.core r.tenant r.priv p w 0 false r.id with
    | .err k fw => .error (p, k, fw)
    | .outside => match readAll s r w (o + w) t with
      | .ok bs => .ok (outerBytes s o w ++ bs)
      | .error e => .error e
    | .ok ks => match readAll s r w (o + w) t with
      | .ok bs => .ok (bytesAt s ks ++ bs)
      | .error e => .error e

/-- The keys that n bytes at a pointer lie at, for counting. -/
def keysOf (s : State) (r : Req) (p : Word) (w kind : Nat) : List Nat :=
  match found s r.core r.tenant r.priv p w kind false r.id with
  | .ok ks => ks
  | _ => []

/-- R174, R236: a load is performed, its elements in order up to one that fails. -/
def performLoad (s : State) (r : Req) (ps : List Word) (w : Nat) : State :=
  let a := readAll s r w 0 ps
  let done := match a with
    | .ok _ => ps
    | .error (p, _, _) => ps.takeWhile (· != p) ++ [p]
  let s := done.foldl (fun s p => countAccess (touchAt s r.core r.tenant p w 0 r.priv false) (keysOf s r p w 0) false false) s.draw
  match a with
  | .ok bs => s.answer r.id (.ok bs 0)
  | .error (p, k, fw) => fails (if k = ePoison then countPoison s (dieOf r.core) (xlate s (dieOf r.core) true r.tenant (pOff p)) (pOff p) else s) r p k fw true

/-- R175, R254: a far store is performed, unless the token holder's chunk would be squashed (R171). -/
def performStore (s : State) (r : Req) (p : Word) (bs : List Byte) : State :=
  match r.found s p bs.length 1 with
  | .err k fw => fails (r.touch s p bs.length 1) r p k fw false
  | .outside => s.draw.answer r.id ack
  | .ok ks =>
    if keysHeld s ks then s
    else (writeKeysSquash (countAccess (r.touch s p bs.length 1) ks false true) ks bs).answer r.id ack

/-- The new value and the result of an atomic, by its old value. -/
def atomicNew (b : Body) (n m : Nat) : Option Nat × Word :=
  match b with
  | .amo _ x _ op => (some (amoNew op.toNat n m (cutTo n x)), amoResult op.toNat n m)
  | .acas _ cmp new _ => (casNew n m cmp new, BitVec.ofNat 64 m)
  | _ => (none, 0)

/-- R180: an atomic is performed at its keys, unless R171 holds it. -/
def atomicReq (s : State) (r : Req) (ks : List Nat) : State :=
  let n := atomicBytes r.body
  let a := atomicNew r.body n (leBytes (bytesAt s ks) 0 n)
  if keysHeld s ks then s
  else
    let s := match a.1 with
      | some v => writeKeysSquash s ks (natBytes n v)
      | none => s
    s.answer r.id (.ok [] a.2)

/-- R246: an atomic at an atomizer, on the saved copy of a scratchpad (R354), or on another device. -/
def performAtomic (s : State) (r : Req) (p : Word) : State :=
  let n := atomicBytes r.body
  let s' := r.touch s p n 2
  match r.found s p n 2 with
  | .err k fw => fails (if k = ePoison then countPoison s' (dieOf r.core) (xlate s' (dieOf r.core) true r.tenant (pOff p)) (pOff p) else s') r p k fw r.ret
  | .outside => s'.draw.answer r.id (.ok [] (atomicNew r.body n ((Config.outerWord s.free).toNat % 2 ^ (8 * n))).2)
  | .ok ks =>
    if keysHeld s ks then s
    else atomicReq (countAccess s' ks true (atomicNew r.body n (leBytes (bytesAt s ks) 0 n)).1.isSome) r ks

/-! ## Counters, `tgdone` and `pshare` -/

/-- An operation on a unit of another device fails, by a kind that it may meet there, or answers with the word given. -/
def performOuter (s : State) (r : Req) (p : Word) (may : List Nat) (x : Word) : State :=
  if !reachable s (pDev p) then s.answer r.id (.err eUnreach 0 p)
  else if outDown s r.core r.id then s.answer r.id (.err eLink 0 p)
  else match outerErr r.id 1 may with
    | some (k, fw) => s.answer r.id (.err k fw p)
    | none => s.draw.answer r.id (.ok [] x)

/-- R298: a mailbox operation at its core, which another core's operation needs assigned to its tenant. -/
def performMb (s : State) (r : Req) (op : MbOp) (p : Word) (x : W32) : State :=
  if pDev p ≠ s.devId then performOuter s r p [eProt] (((Config.outerWord s.free).extractLsb' 0 32).setWidth 64)
  else if pCore p ≠ r.core && (s.core (pCore p)).asg ≠ some r.tenant then s.answer r.id (.err eProt 0 p)
  else
    let a := mbAt s (pCore p) op (mbIdx p) x
    a.1.answer r.id (.ok [] a.2)

/-- R151: the page's reference count. -/
def pshareWord (old : Nat) : Nat × Word :=
  if old % 2 ^ 10 = 1023 then (old, BitVec.ofNat 64 (2 ^ 62 + 1023)) else (old + 1, BitVec.ofNat 64 (old % 2 ^ 10 + 1))

/-- R151: what `pshare` returns, of a count that another device holds. -/
def outerShare (x : Word) : Word := (pshareWord (x.toNat % 2 ^ 10)).2

/-- R394, R397: how the way from a core's pool interface to the descriptor of a frame fails, if it does: to a die of the device, or to
the device that holds it. -/
def descDown (s : State) (r : Req) (k : Option Nat) : Option Nat :=
  match k with
  | some k => if dieUp s (dieOf r.core) (dieOfKey k) then none else some eLink
  | none => if !s.lanesOn then some eUnreach else if outDown s r.core r.id then some eLink else none

/-- R151: at the atomizer that holds the descriptor of the page's frame. -/
def performPshare (s : State) (r : Req) (p : Word) : State :=
  if pSpc p = 1 && pDev p ≠ s.devId then
    (match found s r.core r.tenant r.priv p 1 0 false r.id with
      | .err k fw => fails s r p k fw true
      | _ => s.draw.answer r.id (.ok [] (outerShare (Config.outerWord s.free))))
  else
    let pool := pSpc p == 2
    let d := if pool then dieOf r.core else pDie p
    let s' := touch s d pool r.tenant (pOff p) (quadOf r.core) 0 r.priv false
    match xlateFor s d pool r.tenant (pOff p) 0 r.priv false, xlate s d pool r.tenant (pOff p) with
    | .ok _ _, .leaf fr _ a =>
      let k := descKey s d pool fr a
      match (if pool then descDown s r k else none), k with
      | some e, _ => fails s' r p e 0 true
      | none, none => s'.draw.answer r.id (.ok [] (outerShare (Config.outerWord s.free)))
      | none, some k =>
        if s.writeHeld k 8 then s
        else
          let v := pshareWord (memNat s'.mem k 8)
          ((writeSquash s' k (natBytes 8 v.1)).countDie (dieOfKey k) 4).answer r.id (.ok [] v.2)
    | .fault c, _ => s'.answer r.id (.page p (faultWord c 0))
    | _, .fault c => s'.answer r.id (.page p (faultWord c 0))

/-! ## The service turn (R37) -/

/-- The ring of a request at its owner, and whether it is bound to the named object (R281). -/
def ringOf (s : State) (c : CoreId) (e : Vector Word 8) : Ring := (s.core c).ring (rnNum e)

/-- R281, R283: a ring operation is performed at its owner. -/
def performRing (s : State) (r : Req) (op : RingOp) (c : CoreId) (obj : BitVec 16) (x : Word) (e : Vector Word 8)
    (shape : Option (Vector Word 8)) : State :=
  let p := Config.ringPtr obj.toNat
  if op == .set && (s.core c).asg != some r.tenant then s.answer r.id (.err eProt 0 p)
  else if op != .set && (ringOf s c e).obj != some obj then
    -- R293: at the completion of a copy, nothing is advanced and nothing fails
    s.answer r.id (if r.orphan && op == .push then ack else .err eBind 0 p)
  else
    let a := ringAt s c (rnNum e) op obj.toNat r.tenant x e shape
    a.1.answer r.id (.ok [] a.2)

/-- R186: the lock that a service-turn operation meets. -/
def lockedAt (s : State) (r : Req) (q : Word) (n kind : Nat) : Bool := (lockHit s (dieOf (pCore q)) r.tenant q n kind).isSome

/-- R455, R456: the watchpoint hits of an operation of a service turn, of an access kind of R148. The operation is performed;
every hit offers its record, and one of ACTION 2 freezes the cluster. -/
def watchService (s : State) (c : CoreId) (q : Word) (n kind : Nat) : State :=
  ((s.core c).wps.filter fun e => e.watches q n 4).foldl (fun s e =>
    let s := s.traceDebug c 11 0 2 e.n kind
    if e.action = 2 then broadcastFreeze s (clusterOf c) 2 [] else s) s

/-- R141, R186, R246: an atomic in a service turn. -/
def serveAtomic (s : State) (r : Req) (q : Word) : State :=
  let n := atomicBytes r.body
  let c := pCore q
  if !protOk (s.core c) r.tenant r.priv (pOff q) n 2 then s.answer r.id (.err eProt 0 q)
  else if lockedAt s r q n 2 then s.answer r.id (.err eLock 0 q)
  else if s.writeHeld (spKey c (pOff q)) n then s
  else watchService (atomicReq s r ((List.range n).map fun i => spKey c (pOff q) + i)) c q n 2

/-- R250: the append of a remote `post`. -/
def servePost (s : State) (r : Req) (c : CoreId) (ws : List Word) (ret : Bool) : State :=
  let q := inboxNext s c
  let full := ((s.core c).ring 0).inboxFull
  if full then
    let a := appendInbox s c ws ret
    a.1.answer r.id (.ok [] a.2)
  else if !protOk (s.core c) r.tenant r.priv (pOff q) 64 1 then s.answer r.id (.err eProt 0 q)
  else if lockedAt s r q 64 1 then s.answer r.id (.err eLock 0 q)
  else if s.writeHeld (spKey c (pOff q)) 64 then s
  else
    let a := appendInbox s c ws ret
    watchService (a.1.answer r.id (.ok [] a.2)) c q 64 1

/-- Performs an operation of the service turn. -/
def serveReq (s : State) (c : CoreId) (r : Req) : State :=
  match r.body with
  | .amo q _ _ _ | .acas q _ _ _ => serveAtomic s r q
  | .post _ ws ret => servePost s r c ws ret
  | .ring op o _ obj x e sh => performRing s r op o obj x e sh
  | _ => s.answer r.id ack

/-- A remote `rclaim` or `rwait` whose condition does not hold (R37, R285). -/
def ringBlocked (s : State) (r : Req) : Bool :=
  match r.body with
  | .ring op c _ obj _ e _ => (op == .claim || op == .wait) && (ringOf s c e).obj == some obj && !(ringOf s c e).ready op
  | _ => false

/-- R281: a remote `rclaim` or `rwait` names an object to which the ring is not bound. -/
def ringUnbound (s : State) (r : Req) : Option (BitVec 16) :=
  match r.body with
  | .ring op c _ obj _ e _ => if (op == .claim || op == .wait) && (ringOf s c e).obj != some obj then some obj else none
  | _ => none

/-- A request leaves the service queue and the ring-wait table. -/
def Core.dropSvc (k : Core) (id : Nat) : Core := { k with svcq := k.svcq.filter (· != id), rwait := k.rwait.filter (· != id) }

/-- R37: heads of the service queue whose condition does not hold leave for the ring-wait table while it
has room; one whose ring is not bound fails as it reaches the head (R281). -/
def moveHeads (s : State) (c : CoreId) : List Nat → State
  | [] => s
  | id :: t =>
    match s.req id with
    | none => moveHeads (s.modCore c fun k => k.dropSvc id) c t
    | some r =>
      match ringUnbound s r with
      | some obj => moveHeads ((s.answer id (.err eBind 0 (Config.ringPtr obj.toNat))).modCore c fun k => k.dropSvc id) c t
      | none =>
      if ringBlocked s r && decide ((s.core c).rwait.length < 16) then
        moveHeads (s.modCore c fun k => { k with svcq := k.svcq.filter (· != id), rwait := k.rwait ++ [id] }) c t
      else s

/-- R37: what has come to the head of a core's service queue leaves it there and then if its condition does not hold. -/
def settleHead (s : State) (c : CoreId) : State := moveHeads s c (s.core c).svcq

/-- The oldest ring-wait entry whose condition has come to hold. -/
def readyWait (s : State) (c : CoreId) : Option Nat :=
  (s.core c).rwait.find? fun id => match s.req id with | some r => !ringBlocked s r | none => false

/-- The head of the service queue, if it can be performed. -/
def readyHead (s : State) (c : CoreId) : Option Nat :=
  (s.core c).svcq.head?.filter fun id => match s.req id with | some r => !ringBlocked s r | none => false

/-- Serves one request: it leaves its place once it has been performed. -/
def serveOne (s : State) (c : CoreId) (id : Nat) : State :=
  match s.req id with
  | none => s
  | some r =>
    let s' := serveReq s c r
    if ((s'.req id).map (·.open_)).getD false then s
    else (s'.modCore c fun k => k.dropSvc id).countCore c 13 1

/-- SERVICE_TURN: R37. -/
def execServiceTurn (core : CoreId) (s : State) : Out :=
  let s := settleHead s core
  .next (settleHead (match readyWait s core, readyHead s core with
    | some a, some b =>
      let s' := serveOne s core (if (s.core core).rwNext then a else b)
      s'.modCore core fun k => { k with rwNext := !k.rwNext }
    | some a, none => serveOne s core a
    | none, some b => serveOne s core b
    | none, none => s) core)

/-! ## Arrivals -/

/-- The operation is on its way: nothing has taken it in yet. -/
def onWay (s : State) (r : Req) : Bool :=
  mayPerform s r && !(s.cores.any fun p =>
    p.2.svcq.contains r.id || p.2.rwait.contains r.id || p.2.divert.contains r.id ||
    p.2.sched.arrivals.any fun a => match a with | .start _ q => q == r.id | _ => false)

/-- R354: arrivals that a pre-empted core diverts. -/
def divertible (s : State) (b : Body) : Option CoreId :=
  match b with
  | .post p _ _ => if pDev p = s.devId then some (pCore p) else none
  | .mb _ p _ | .bump p _ _ => if pDev p = s.devId then some (pCore p) else none
  | .ring _ c d _ _ _ _ => if d = s.devId then some c else none
  | .start c d _ _ => if d = s.devId then some c else none
  | .ctx m => some m.dest
  | .steal v => some v
  | _ => none

/-- The arrival is one that its core diverts now. -/
def isDiverted (s : State) (b : Body) : Bool := match divertible s b with | some c => diverts (s.core c) | none => false

/-- R37: room in the service queue; refused as well while its head waits for the full ring-wait table. -/
def svcRoom (s : State) (c : CoreId) : Bool :=
  let k := s.core c
  let stuck := match k.svcq.head?.bind s.req with | some r => ringBlocked s r && decide (16 ≤ k.rwait.length) | none => false
  decide (k.svcq.length < 16) && !stuck

/-- R250: what a `post` returns of an inbox on another device, by a free word: -1, or free entries below N, which is at most
2^12: its slots are of 64 bytes within 2^18 (R280). -/
def outerPost (x : Word) : Word := if x.getLsbD 63 then BitVec.allOnes 64 else BitVec.ofNat 64 (x.toNat % 2 ^ 12)

/-- An operation of the service turn reaches its core (R37); to another device it is performed there. -/
def arriveService (s : State) (r : Req) : State :=
  if !pathUp s r.core (bodyAddr s r.body) then s.answer r.id (.err eLink 0 (bodyAddr s r.body))
  else
    match serviceCore s.devId r.body with
    | some c =>
      let k := s.core c
      let atomic := match r.body with | .amo _ _ _ _ | .acas _ _ _ _ => true | _ => false
      if isDiverted s r.body || spHeld s c then s
      else if atomic && k.pre == .saved then s
      else if svcRoom s c then settleHead (s.modCore c fun k => { k with svcq := k.svcq ++ [r.id] }) c else s
    | none =>
      match r.body with
      | .post _ _ _ => performOuter s r (bodyAddr s r.body) [eProt, eLock] (outerPost (Config.outerWord s.free))
      | .ring op _ _ _ _ _ _ => performOuter s r (bodyAddr s r.body) [if op == .set then eProt else eBind] (Config.outerWord s.free)
      | _ => s

/-- SERVICE_REQUEST_ARRIVAL: R37. -/
def execServiceRequestArrival (id : Nat) (s : State) : Out :=
  .next (match s.req id with
    | some r => if onWay s r && (serviceCore s.devId r.body).isSome then arriveService s r else s
    | none => s)

/-- The bytes that an operation names are held where it would be performed. -/
def bodyHeld (s : State) (r : Req) : Bool :=
  let held := heldAt s r.tenant (some (r.core, r.slot))
  match r.body with
  | .load ps w => ps.any (held w)
  | .store q bs _ => r.phys.isEmpty && held bs.length q
  | .amo q _ _ _ | .acas q _ _ _ => r.phys.isEmpty && held (atomicBytes r.body) q
  | b => held 1 (bodyAddr s b)

/-- An operation is performed at a scratchpad port, an interface or an atomizer. A probe of a `vscat` only comes and goes: the
element stores meet their own fate (R244, R254). -/
def performHere (s : State) (r : Req) : State :=
  let p := bodyAddr s r.body
  let probe := match r.body with | .probe _ _ => true | _ => false
  if probe then s.answer r.id ack
  else if !pathUp s r.core p then s.answer r.id (.err eLink 0 p)
  else if bodyHeld s r || isDiverted s r.body then s
  else
    match r.body with
    | .load ps w => performLoad s r ps w
    | .probe _ _ => s
    | .store q bs _ => performStore s r q bs
    | .amo q _ _ _ | .acas q _ _ _ => performAtomic s r q
    | .mb op q x => performMb s r op q (x.extractLsb' 0 32)
    | .tgdone h => (nodeDone s (hDie h) r.tenant h).answer r.id ack
    | .pshare q => performPshare s r q
    | .bump q _ _ => performMb s r .inc q (BitVec.allOnes 32)
    | .post _ _ _ | .ring _ _ _ _ _ _ _ => arriveService s r
    | .start _ _ _ _ | .ctx _ | .steal _ => s

/-- REMOTE_ACCESS_ARRIVAL: R236. An operation outside R175. -/
def execRemoteAccessArrival (id : Nat) (s : State) : Out :=
  .next (match s.req id with
    | some r => if !r.ord && onWay s r && (serviceCore s.devId r.body).isNone then performHere s r else s
    | none => s)

/-- FAR_OPERATION_ARRIVAL: R176. An operation of R175, in its order. -/
def execFarOperationArrival (id : Nat) (s : State) : Out :=
  .next (match s.req id with
    | some r => if r.ord && onWay s r then (if (serviceCore s.devId r.body).isSome then arriveService s r else performHere s r) else s
    | none => s)

/-! ## Diversion (R354) -/

/-- 64 bytes of a device image are written at a key. They are free values (DESIGN CHOICE, log 39): R65 and R354 give a queue in
die memory a form that software must not interpret, and the model keeps the entry itself in its state. -/
def writeImage (s : State) (k : Nat) : State :=
  { s.draw with mem := memWrite s.mem k ((List.range 64).map (Config.imageByte s.free)) }

/-- An arrival takes the next place of a pre-empted core's spill queue, while it has room. -/
def divertTo (s : State) (c : CoreId) (id : Nat) : State :=
  let k := s.core c
  if k.divert.length < k.divCap then
    (writeImage s (dmKey (dieOf c) (k.divBase + 64 * k.divert.length))).modCore c fun k => { k with divert := k.divert ++ [id] }
  else s

/-- DIVERTED_ARRIVAL: R354. An arrival at a pre-empted core goes to the spill queue, while it has room; an
atomic on the scratchpad of a SAVED core is performed on its copy. -/
def execDivertedArrival (id : Nat) (s : State) : Out :=
  .next (match s.req id with
    | none => s
    | some r =>
      if !onWay s r then s
      else if isDiverted s r.body then
        match divertible s r.body with
        | some c => divertTo s c id
        | none => s
      else
        match serviceCore s.devId r.body, r.body with
        | some c, .amo q _ _ _ | some c, .acas q _ _ _ =>
          if (s.core c).pre == .saved then
            (if lockedAt s r q (atomicBytes r.body) 2 then s.answer r.id (.err eLock 0 q) else performAtomic s r q)
          else s
        | _, _ => s)

/-! ## Cancels (R285) -/

/-- RING_CANCEL: R285. A request not yet performed is withdrawn, at any moment (R356), with the indices of the
ring; nobody waits for an orphan's answer. DESIGN CHOICE (log 75): of a ring that is by then unbound, or bound to another object,
the indices reported are zero. -/
def execRingCancel (id : Nat) (s : State) : Out :=
  .next (match s.req id with
    | none => s
    | some r =>
      if !r.cancel || !r.open_ then s
      else
        match r.body with
        | .ring op c d obj _ e _ =>
          if d ≠ s.devId then s
          else
            let s := settleHead (s.modCore c fun k => let k := k.dropSvc id; { k with divert := k.divert.filter (· != id) }) c
            if r.orphan then s.dropReq id
            else
              let g := ringOf s c e
              s.answer id (.withdrawn (if g.obj == some obj then ringInfo g op else ringInfo Ring.zero op))
        | _ => s)

end Sys2Proof.Machine
end

