-- ==== Sys2Proof/Machine/Crypto.lean ====
section
/-! DEFINITION. SHAKE256 (FIPS 202) and Ed448 (RFC 8032, PureEdDSA, empty context), which R400-R402 use by
reference. -/

namespace Sys2Proof.Machine

/-! ## SHAKE256 -/

/-- FIPS 202, 3.2.2: the lanes that rho visits, from (1, 0) on: (x, y) is followed by (y, 2x + 3y). -/
def rhoPath : Nat → Nat × Nat → List (Nat × Nat)
  | 0, _ => []
  | n + 1, l => l :: rhoPath n (l.2, (2 * l.1 + 3 * l.2) % 5)

/-- The rotations of rho by lane x + 5y: lane t of the path turns by the triangular number (t + 1)(t + 2) / 2, lane (0, 0) not at all. -/
def rhoTurns : List Nat :=
  (List.range 25).map fun i =>
    match (rhoPath 24 (1, 0)).findIdx? fun l => l.1 + 5 * l.2 == i with
    | some t => (t + 1) * (t + 2) / 2 % 64
    | none => 0

/-- FIPS 202, 3.2.5: the register that yields the bits of iota moves on by one place. -/
def iotaNext (r : Nat) : Nat := if r < 128 then 2 * r else Nat.xor (2 * r - 256) 0x71

/-- The constant of a round, whose bits j = 0-6 stand at the places 2^j - 1, and the register after it. -/
def iotaRound (r : Nat) : Nat × Nat :=
  (List.range 7).foldl (fun a j => (a.1 + a.2 % 2 * 2 ^ (2 ^ j - 1), iotaNext a.2)) (0, r)

/-- The constants of n rounds. -/
def iotaWords : Nat → Nat → List Word
  | 0, _ => []
  | n + 1, r => BitVec.ofNat 64 (iotaRound r).1 :: iotaWords n (iotaRound r).2

/-- A sponge's state: 25 lanes, lane x + 5y. -/
abbrev Lanes := Vector Word 25

/-- Lane (x, y). -/
def Lanes.at_ (a : Lanes) (x y : Nat) : Word := a.toList.getD (x % 5 + 5 * (y % 5)) 0

/-- A lane by its coordinates. -/
def Lanes.of (f : Nat → Nat → Word) : Lanes := Vector.ofFn fun i => f (i.val % 5) (i.val / 5)

/-- One round of Keccak-f[1600]. -/
def keccakRound (a : Lanes) (rc : Word) : Lanes :=
  let col : Vector Word 5 := Vector.ofFn fun x => (List.range 5).foldl (fun s y => s ^^^ Lanes.at_ a x.val y) 0
  let c := fun (x : Nat) => col.toList.getD (x % 5) 0
  let a := Lanes.of fun x y => Lanes.at_ a x y ^^^ c (x + 4) ^^^ (c (x + 1)).rotateLeft 1
  -- lane (x, y) moves to (y, 2x + 3y): lane (u, v) comes from (u + 3v, u)
  let b := Lanes.of fun u v =>
    let x := (u + 3 * v) % 5
    (Lanes.at_ a x u).rotateLeft (rhoTurns.getD (x + 5 * u) 0)
  let a := Lanes.of fun x y => Lanes.at_ b x y ^^^ (~~~ Lanes.at_ b (x + 1) y &&& Lanes.at_ b (x + 2) y)
  Lanes.of fun x y => if x = 0 && y = 0 then Lanes.at_ a 0 0 ^^^ rc else Lanes.at_ a x y

/-- Keccak-f[1600]. -/
def keccak (a : Lanes) : Lanes := (iotaWords 24 1).foldl keccakRound a

/-- Absorbs one block of 136 bytes. -/
def absorb (a : Lanes) (bs : List Byte) : Lanes :=
  keccak (Vector.ofFn fun i =>
    Lanes.at_ a (i.val % 5) (i.val / 5) ^^^ if i.val < 17 then BitVec.ofNat 64 (leBytes bs (8 * i.val) 8) else 0)

/-- The first 136 bytes of a state. -/
def squeezeBlock (a : Lanes) : List Byte :=
  ((List.range 17).map fun i => natBytes 8 (Lanes.at_ a (i % 5) (i / 5)).toNat).flatten

/-- n blocks of output. -/
def squeeze (a : Lanes) : Nat → List Byte
  | 0 => []
  | n + 1 => squeezeBlock a ++ squeeze (keccak a) n

/-- The message with the bits 1111 and the padding 10*1. -/
def shakePad (m : List Byte) : List Byte :=
  let k := 136 - m.length % 136
  if k = 1 then m ++ [0x9F] else m ++ [0x1F] ++ List.replicate (k - 2) 0 ++ [0x80]

/-- SHAKE256 with an output of n bytes. -/
def shake256 (m : List Byte) (n : Nat) : List Byte :=
  let p := shakePad m
  (squeeze ((cutBy 136 (p.length / 136) p).foldl absorb (Vector.replicate 25 0)) ((n + 135) / 136)).take n

/-! ## Ed448 -/

/-- The field's prime, the curve's constant, and the order of the base point. -/
def edP : Nat := 2 ^ 448 - 2 ^ 224 - 1
def edD : Nat := edP - 39081
def edL : Nat := 2 ^ 446 - 0x8335dc163bb124b65129c96fde933d8d723a70aadc873d6d54a7bb0d

/-- A point in projective coordinates. -/
structure EdPt where
  x : Nat
  y : Nat
  z : Nat
  deriving DecidableEq, Repr

/-- The base point. -/
def edBase : EdPt :=
  { x := 224580040295924300187604334099896036246789641632564134246125461686950415467406032909029192869357953282578032075146446173674602635247710
    y := 298819210078481492676017930443930673437544040154080242095928241372331506189835876003536878655418784733982303233503462500531545062832660
    z := 1 }

/-- Arithmetic of the field. -/
def edSub (a b : Nat) : Nat := (a + edP - b % edP) % edP
def edMul (a b : Nat) : Nat := a * b % edP

/-- The sum of two points (RFC 8032, 5.2.4). -/
def edAdd (p q : EdPt) : EdPt :=
  let a := edMul p.z q.z
  let b := edMul a a
  let c := edMul p.x q.x
  let d := edMul p.y q.y
  let e := edMul edD (edMul c d)
  let f := edSub b e
  let g := (b + e) % edP
  let h := edMul (p.x + p.y) (q.x + q.y)
  { x := edMul (edMul a f) (edSub (edSub h c) d), y := edMul (edMul a g) (edSub d c), z := edMul f g }

/-- A multiple of a point, from n bits of the scalar. -/
def edScale (k : Nat) (p : EdPt) : Nat → EdPt
  | 0 => { x := 0, y := 1, z := 1 }
  | n + 1 =>
    let q := edScale (k / 2) (edAdd p p) n
    if k % 2 = 1 then edAdd q p else q

/-- A power in the field, from n bits of the exponent. -/
def edPow (b e : Nat) : Nat → Nat
  | 0 => 1
  | n + 1 => let r := edPow (edMul b b) (e / 2) n; if e % 2 = 1 then edMul r b else r

/-- The affine coordinates of a point. -/
def EdPt.affine (p : EdPt) : Nat × Nat := let i := edPow p.z (edP - 2) 448; (edMul p.x i, edMul p.y i)

/-- A point's 57 bytes. -/
def EdPt.bytes (p : EdPt) : List Byte := let a := p.affine; natBytes 57 (a.2 + a.1 % 2 * 2 ^ 455)

/-- The point of 57 bytes (RFC 8032, 5.2.3). -/
def edPoint (bs : List Byte) : Option EdPt :=
  let n := leBytes bs 0 57
  let sign := n / 2 ^ 455
  let y := n % 2 ^ 455
  if edP ≤ y then none
  else
    let u := edSub (edMul y y) 1
    let v := edSub (edMul edD (edMul y y)) 1
    let u3v := edMul (edMul (edMul u u) u) v
    let u5v3 := edMul (edMul (edMul u3v u) u) (edMul v v)
    let x := edMul u3v (edPow u5v3 ((edP - 3) / 4) 448)
    if edMul v (edMul x x) ≠ u then none
    else if x = 0 && sign = 1 then none
    else some { x := if x % 2 = sign then x else edP - x, y := y, z := 1 }

/-- Two points are the same. -/
def EdPt.same (p q : EdPt) : Bool := edMul p.x q.z == edMul q.x p.z && edMul p.y q.z == edMul q.y p.z

/-- dom4 with flag 0 and the empty context. -/
def edDom : List Byte := [0x53, 0x69, 0x67, 0x45, 0x64, 0x34, 0x34, 0x38, 0, 0]

/-- The secret scalar and the prefix of a seed (RFC 8032, 5.2.5). -/
def edSecret (seed : List Byte) : Nat × List Byte :=
  let h := shake256 seed 114
  let n := leBytes h 0 57 % 2 ^ 447
  (n - n % 4 + 2 ^ 447, h.drop 57)

/-- The public key of a seed. -/
def edPublic (seed : List Byte) : List Byte := (edScale (edSecret seed).1 edBase 448).bytes

/-- The signature of a message (RFC 8032, 5.2.6). -/
def edSign (seed m : List Byte) : List Byte :=
  let s := edSecret seed
  let a := edPublic seed
  let r := leBytes (shake256 (edDom ++ s.2 ++ m) 114) 0 114 % edL
  let rb := (edScale r edBase 448).bytes
  let k := leBytes (shake256 (edDom ++ rb ++ a ++ m) 114) 0 114 % edL
  rb ++ natBytes 57 ((r + k * s.1) % edL)

/-- A signature verifies under a public key (RFC 8032, 5.2.7). -/
def edVerify (pub m sig : List Byte) : Bool :=
  let s := leBytes (sig.drop 57) 0 57
  sig.length == 114 && pub.length == 57 &&
  match edPoint (sig.take 57), edPoint pub with
  | some r, some a =>
    let k := leBytes (shake256 (edDom ++ sig.take 57 ++ pub ++ m) 114) 0 114 % edL
    decide (s < edL) && (edScale (4 * s) edBase 450).same (edAdd (edScale 4 r 3) (edScale (4 * k) a 450))
  | _, _ => false

end Sys2Proof.Machine
end

