-- ==== Sys2Proof/Machine/Returns.lean ====
section
/-! DEFINITION. What comes back to a context: long results (R93, R170), acknowledgements (R175), remote errors
(R348-R351), deferred faults (R338), and the traps and upcalls that wait for a context (R340-R347). -/

namespace Sys2Proof.Machine

/-! ## Long results -/

/-- The pointer reported of a failed access at p (R148, R350): as the program gave it; of an element of a gather or
scatter, at the element's offset. -/
def Req.shown (r : Req) (p : Word) : Word :=
  match r.given, r.body with
  | some g, .load _ _ | some g, .probe _ _ => setOff g (pOff p)
  | some g, _ => g
  | none, _ => p

/-- The record of a failed request (R350). -/
def reqErr (r : Req) (kind : Nat) (fw : BitVec 5) (p : Word) : ErrOp :=
  { kind := kind, fw := fw, op := opCode r.body r.ret, ptr := r.shown p, wid := r.wid, ltag := r.ltag, slot := r.slot, xid := 0 }

/-- R235 item 6 for the bytes that the reply of a long `vldf` returns. -/
def formBadBytes (cv : Conv) (bs : List Byte) : Bool :=
  match cv with
  | .vform f l n _ => zpAnyBad f l n bs
  | _ => false

/-- A reply reaches the context whose operation it answers. -/
def settleReply (s : State) (c : CoreId) (n : SlotNo) (l : LongOp) (r : Req) : State :=
  let t := s.dropReq l.id
  match r.reply with
  | .none => s
  | .withdrawn _ => s
  | .ok bs w =>
    if l.cancelled then discardLong t c n l.id
    else
      let bs := overlay l.own bs
      if formBadBytes l.conv bs then deferFault t c n l cFORMAT (l.given.getD 0) l.bundle
      else finishLong t c n l (some (convVal l.conv bs w)) l.flags
  | .page p fw => if l.cancelled then discardLong t c n l.id else deferFault t c n l cPAGE (r.shown p) fw
  | .err k fw p =>
    if l.cancelled then discardLong t c n l.id
    else chargeError (finishLong t c n l none 0) c r.occ (reqErr r k fw p)

/-- A result computed at issue returns: at its cycle, or when its unit answers (R100); an output of the
surrogate once PEND is 0 (R424). -/
def settleVal (s : State) (c : CoreId) (n : SlotNo) (l : LongOp) (v : Nat) : State :=
  let late := match l.due with | some t => (s.core c).cyc < t | none => l.conv == .surr && (s.ctx c n).inv.pend
  if l.cancelled then (if late && l.due.isSome then s else discardLong s c n l.id)
  else if late then s
  else finishLong s c n l (some v) l.flags

/-- A long operation of a context returns, when its answer is there. -/
def settleLong (s : State) (c : CoreId) (n : SlotNo) (l : LongOp) : State :=
  match l.val with
  | some v => settleVal s c n l v
  | none => match s.req l.id with
    | some r => settleReply s c n l r
    | none => s

/-- A cancelled operation that a context of the core counts, its issuer gone or arrived since (R97, R190). -/
def Core.counts (k : Core) (id : Nat) : Bool := k.stray.contains id || k.took.any fun p => p.2.contains id

/-- R191: the late reply of a cancelled load of a context that has departed is to be redirected. -/
def State.redirected (s : State) (id : Nat) : Bool := s.cores.any fun p => p.2.fwd.any fun f => f.1.contains id

/-- LONG_RESULT_RETURN: R93, R95, R170. -/
def execLongResultReturn (core : CoreId) (slot : SlotNo) (id : Nat) (s : State) : Out :=
  .next (match (s.ctx core slot).long.find? (·.id == id) with
    | some l => settleLong s core slot l
    | none =>
      if (s.core core).counts id then
        match s.req id with
        | some r => if r.open_ || r.core != core then s else discardLong (s.dropReq id) core slot id
        | none => discardLong s core slot id
      else s)

/-- LATE_REPLY_FORWARD: R191. A late reply of a cancelled load, a value or a failure (R170), goes on to the new core, where it is
discarded; the entry is freed at its last one. -/
def execLateReplyForward (core : CoreId) (n : Nat) (s : State) : Out :=
  .next (match (s.core core).fwd.find? fun e => e.1.contains n with
    | none => s
    | some e =>
      match s.req n with
      | some r =>
        if r.open_ then s
        else
          let s := s.modCore core fun k =>
            { k with fwd := (k.fwd.map fun f => (f.1.filter (· != n), f.2)).filter fun f => !f.1.isEmpty }
          if (s.core e.2.1).fwd.any fun f => f.1.contains n then s else discardLong (s.dropReq n) e.2.1 e.2.2 n
      | none => s)

/-! ## Acknowledgements and remote errors -/

/-- A context waits for the answer of a request. -/
def awaited (s : State) (r : Req) : Bool :=
  let x := s.ctx r.core r.slot
  x.occ == r.occ && match x.wait with | some w => w.req == some r.id | none => false

/-- ACKNOWLEDGEMENT: R175. An operation that returns no register is performed; or nobody waits for it now. -/
def execAcknowledgement (id : Nat) (s : State) : Out :=
  .next (match s.req id with
    | some r => match r.reply with
      | .ok _ _ => if !r.ret || r.orphan then s.dropReq id else s
      | .withdrawn _ => if r.orphan then s.dropReq id else s
      | _ => s
    | none => s)

/-- A remote wait that failed no longer waits: the control context goes on at the next bundle (R254, R349). -/
def failWait (s : State) (r : Req) : State :=
  if awaited s r then
    match (s.ctx r.core r.slot).wait with
    | some w => wakeCtx (asCtx s r.core r.slot w.bundle).advance r.core r.slot w.sbit
    | none => s
  else s

/-- REMOTE_ERROR: R348-R350. A negative answer reaches the issuing core: its record is composed, and the
error is charged to the context, or, of an operation of no context, to none (R365); that of a cancelled load of a context that has
departed is left for its redirection (R170, R191). DESIGN CHOICE (log 84): of an operation with a
result whose helper has ended, which R349 cancels, the negative answer is discarded, with no record and no count in LOST. -/
def execRemoteError (id : Nat) (s : State) : Out :=
  .next (match s.req id with
    | none => s
    | some r =>
      let x := s.ctx r.core r.slot
      match r.reply with
      | .err k fw p =>
        let e := reqErr r k fw p
        if r.orphan then
          let lost := (match r.body with | .start _ _ _ _ => true | _ => false) || x.st == .vacant || x.occ != r.occ
          composeError (s.dropReq id) r.core e false lost
        else match x.long.find? (·.id == id) with
          | some l => if x.occ == r.occ then settleReply s r.core r.slot l r else s
          | none =>
            if (s.core r.core).counts id then discardLong (s.dropReq id) r.core r.slot id
            else if s.redirected id then s
            else chargeError ((failWait s r).dropReq id) r.core r.occ e
      | .page _ _ => match x.long.find? (·.id == id) with
        | some l => if x.occ == r.occ then settleReply s r.core r.slot l r else s
        | none => s
      | _ => s)

/-- ERROR_RECORD_ACK: R351. The host acknowledges the oldest records of a die. -/
def execErrorRecordAck (die : BitVec 2) (n : Nat) (s : State) : Out :=
  .next (if (s.die die).hostUp then
    (s.note nodeHost (nodeRoot die) 1 16 (Ident.ofCore (die ++ (0 : BitVec 10))) 0 []).modDie die fun d => { d with records := d.records.drop n }
  else s)

/-! ## Traps that wait for a context (R338, R342, R349) -/

/-- The context would issue now. -/
def Ctx.live (x : Ctx) : Bool := (x.st == .ready || x.st == .handler) && x.rel.isNone

/-- A waiting trap is taken before the context's next bundle, with the mark that the bundle has then (R459): its chunk ends and
commits first (R164). -/
def takePend (s : State) (c : CoreId) (n : SlotNo) (p : Pend) : State :=
  let x := s.ctx c n
  let q : Pend := { p with pc := x.a.pc, wonly := x.a.wonly }
  if heldByBusy s c n p.cause then s
  else
    let s := s.modCtx c n fun x => { x with tpend := x.without p }
    match x.chunk with
    | none => deliver s c n q
    | some _ =>
      if x.nearOut then s.modCtx c n fun x => { x with chunk := x.chunk.map fun ch => { ch with ending := true, trap := some q } }
      else
        let r := commitChunk s c n
        if r.2 then deliver r.1 c n q else r.1.modCtx c n fun x => { x with tpend := p :: x.tpend }

/-- PRIVILEGED_TRAP: R340, R342. -/
def execPrivilegedTrap (core : CoreId) (slot : SlotNo) (s : State) : Out :=
  let x := s.ctx core slot
  .next (match x.nextPend with
    | some p => if x.live && x.compl.isNone && (s.core core).runs slot && goesPriv (s.core core) slot p.cause then takePend s core slot p else s
    | none => s)

/-! ## Upcalls (R345, R346) -/

/-- The offset of the upcall area. -/
def Core.upcArea (k : Core) : Nat := 64 * k.r.upcBase.toNat

/-- R345: the record of a helper. -/
def upcRecord (x : Ctx) (n : SlotNo) (p : Pend) (rot : BitVec 40) : List Byte :=
  let w0 : Word := BitVec.ofNat 64 (p.cause.toNat + n.toNat * 2 ^ 8 + (if p.dfr then 2 ^ 12 else 0) +
    (nrepField x.replay.length).toNat * 2 ^ 16 + if p.wonly then 2 ^ 20 else 0)
  ([w0, p.pc, p.info0, p.info1, p.fpc, x.a.ltag.setWidth 64, x.a.wid, rot.setWidth 64].map wordBytes).flatten

/-- A trap that the control context takes before its next bundle. -/
def pendControl (s : State) (c : CoreId) (cause : BitVec 8) (i0 i1 : Word) : State :=
  s.modCtx c 0 fun x => { x with tpend := x.tpend ++
    [{ cause := cause, info0 := i0, info1 := i1, pc := x.a.pc, fpc := x.a.pc, aux := 0, aux2 := 0, wonly := false, dfr := false }] }

/-- R345 step 3: PEND is set, and the upcall of the helper is written or refused. -/
def pendUpcall (s : State) (c : CoreId) (n : SlotNo) (f : Ctx → Ctx) : State :=
  s.modCore c fun k => { (k.setCtx n (f (k.ctx n))) with r := { k.r with upcPend := k.r.upcPend ++ [n] } }

/-- R345 steps 2 and 3: the record is written and PEND set; where the area does not fit or the protection
unit refuses it, the control context takes ADDR or PROT, and PEND is set all the same, with no record written then or later. DESIGN
CHOICE (log 84): INFO0 of that trap is the explicit pointer to the record at 64s. -/
def writeUpcall (s : State) (c : CoreId) (n : SlotNo) (p : Pend) (rot : BitVec 40) : State :=
  let k := s.core c
  let o := k.upcArea + 64 * n.toNat
  let q := spPtr s.devId c o
  let refused := fun (cause : BitVec 8) (i1 : Word) => pendControl (pendUpcall s c n fun x => { x with upc := none }) c cause q i1
  if 2 ^ 18 < k.upcArea + 704 then refused cADDR Config.noBundle
  else if !protOk k (k.tenantOf 0) false o 64 1 then refused cPROT 1
  else
    let t := pendUpcall s c n fun x => { x with recorded := true }
    { t with mem := memWrite t.mem (spKey c o) (upcRecord (k.ctx n) n p rot) }

/-- UPCALL_RECORD: R345. -/
def execUpcallRecord (core : CoreId) (slot : SlotNo) (s : State) : Out :=
  let x := s.ctx core slot
  .next (match x.upc with
    | some (p, rot) => if !x.recorded && (s.core core).longOf slot = 0 && slot != 0 then writeUpcall s core slot p rot else s
    | none => s)

/-- The self pointer to the upcall area. -/
def selfArea (o : Nat) : Word := (0 : BitVec 10) ++ (0x3FF : BitVec 10) ++ (0xFFF : BitVec 12) ++ BitVec.ofNat 32 o

/-- R346: the one step of a delivery. -/
def enterUpcEntry (s : State) (c : CoreId) (h : SlotNo) : State :=
  let k := s.core c
  let x := k.ctx 0
  let o := k.upcArea
  let bytes := wordBytes (h.setWidth 64) ++ wordBytes (x.a.rdG 60) ++ wordBytes (x.a.rdG 61)
  let r := { k.r with upcPend := k.r.upcPend.filter (· != h), upcMask := true, upcPc := x.a.pc, upcWonly := x.a.wonly, upcMark := x.a.pc }
  let a := (x.a.wrG 60 (selfArea o)).wrG 61 (h.setWidth 64)
  let k' := { k with r := r }.setCtx 0 { x with a := { a with pc := k.r.upcEntry, wonly := false } }
  { s.setCore c k' with mem := memWrite s.mem (spKey c o) bytes }

/-- R346: the conditions of a delivery; what is to be issued again goes before it (R339). -/
def upcallDue (k : Core) : Bool :=
  let x := k.ctx 0
  !k.r.upcPend.isEmpty && k.r.upcEn && !k.r.upcMask && !x.priv && !k.holds 0 && k.longOf 0 == 0 && k.runs 0 &&
  (x.st == .ready || x.st == .waiting) && x.compl.isNone && x.rel.isNone && !(x.replaying && !x.replay.isEmpty)

/-- A wait that another core holds is asked back before it is abandoned (R285, R356): true once nothing of it
is left there. One already performed completes in the context's turn. -/
def askBack (s : State) (c : CoreId) (n : SlotNo) (w : Wait) : State × Bool :=
  match w.req with
  | none => (s, true)
  | some id =>
    match (s.req id).map (·.reply) with
    | some (Reply.withdrawn _) => ((s.dropReq id).modCtx c n fun x => { x with wait := x.wait.map fun v => { v with req := none } }, true)
    | some Reply.none => (s.sendCancel id false, false)
    | _ => (s, false)

/-- R346: a delivery in place of the control context's next bundle. -/
def deliverUpcall (s : State) (c : CoreId) (h : SlotNo) : State :=
  let k := s.core c
  let x := k.ctx 0
  let entryOk := fetchOkAt s c k.r.upcEntry
  if !entryOk && heldByBusy s c 0 cADDR then s
  else
    let a : State × Bool := match x.wait with
      | some w => let b := askBack s c 0 w; if b.2 then abandonWait b.1 c 0 { w with req := none } else b
      | none => match x.chunk with
        | some _ => commitChunk s c 0
        | none => (s, true)
    if !a.2 then a.1
    else if entryOk then enterUpcEntry a.1 c h
    else
      let y := a.1.ctx c 0
      enterPriv a.1 c 0 { cause := cADDR, info0 := k.r.upcEntry, info1 := Config.noBundle, pc := y.a.pc, fpc := y.a.pc, aux := 0, aux2 := 0,
                          wonly := y.a.wonly, dfr := false }

/-- UPCALL_DELIVERY: R346. -/
def execUpcallDelivery (core : CoreId) (s : State) : Out :=
  .next (match (s.core core).r.upcPend with
    | h :: _ => if upcallDue (s.core core) then deliverUpcall s core h else s
    | [] => s)

/-! ## Withdrawals of a pre-emption (R356) -/

/-- R356: a wait of a context that the decision cycle withdraws: one that is held at another unit. -/
def heldElsewhere (s : State) (c : CoreId) (n : SlotNo) : Bool :=
  match (s.ctx c n).wait with
  | some w => w.req.isSome || (isCbWait w.i && (s.stream (dieOf c) (wSnum w)).waiters.contains (c, n))
  | none => false

/-- The withdrawal of a context's wait has been answered. -/
def withdrawn (s : State) (c : CoreId) (n : SlotNo) : Bool :=
  match (s.ctx c n).wait with
  | some w =>
    (match w.req.bind s.req with
      | some r => match r.reply with | .withdrawn _ => true | _ => false
      | none => true) &&
    !(isCbWait w.i && (s.stream (dieOf c) (wSnum w)).waiters.contains (c, n))
  | none => true

/-- WITHDRAWAL_ANSWER: R356. A wait already performed completes; a wait withdrawn stays as it is. -/
def execWithdrawalAnswer (core : CoreId) (slot : SlotNo) (s : State) : Out :=
  .next (match (s.ctx core slot).wait with
    | some w =>
      if (s.core core).pre == .draining && heldElsewhere s core slot then
        match completeWait s core slot w with
        | some s' => s'
        | none => if isCbWait w.i then leaveWait s core slot w else s
      else s
    | none => s)

end Sys2Proof.Machine
end

