-- ==== Sys2Proof/Machine/Sched.lean ====
section
/-! DEFINITION. The rotation boundary (R59), launch queues and the slot arbiter (R64-R67), stealing (R381), and
the task graph unit's events (R360-R374). -/

namespace Sys2Proof.Machine

/-! ## Launch queues and the spill queue (R64, R65) -/

/-- Launch queue q, and a side with it replaced. -/
def SchedSide.queue (x : SchedSide) (q : Nat) : List Entry := vget x.q q []
def SchedSide.setQueue (x : SchedSide) (q : Nat) (l : List Entry) : SchedSide := { x with q := vset x.q q l }

/-- An entry of a queue lies in the spill queue. -/
def SchedSide.spilled (x : SchedSide) (q : Nat) : Bool := x.spill.any fun e => e.q.toNat == q

/-- R65: the core's network interface accepts an entry: none while a queue is full and the spill queue has no room. -/
def SchedSide.room (x : SchedSide) : Bool :=
  (List.range 4).all (fun q => decide ((x.queue q).length < 64)) || decide (x.spill.length < x.spillCap)

/-- An entry joins its queue, or the spill queue behind it, in the next place of the circular area (R65). -/
def enqueueWork (s : State) (c : CoreId) (e : Entry) : State :=
  let x := (s.core c).sched
  let q := e.q.toNat
  if (x.queue q).length < 64 && !x.spilled q then s.modCore c fun k => { k with sched := k.sched.setQueue q (x.queue q ++ [e]) }
  else
    (writeImage s (dmKey (dieOf c) (x.spillBase + 64 * (x.spillCount % x.spillCap)))).modCore c fun k =>
      { k with sched := { k.sched with spill := x.spill ++ [e], spillCount := x.spillCount + 1 } }

/-- The oldest entry leaves a queue; the oldest spilled entry of the queue takes the room. -/
def SchedSide.dequeue (x : SchedSide) (q : Nat) : SchedSide :=
  let y := x.setQueue q ((x.queue q).drop 1)
  match y.spill.find? fun e => e.q.toNat == q with
  | some e => { (y.setQueue q (y.queue q ++ [e])) with spill := y.spill.erase e }
  | none => y

/-! ## Starting contexts (R43, R44) -/

/-- R43: the context that an entry starts. -/
def startedCtx (occ : Nat) (e : Entry) : Ctx :=
  { Ctx.zero with
    a := { Arch.zero with g := vset (vset Arch.zero.g 1 e.w1) 2 e.w2, pc := e.pc, wid := e.wid, widf := e.widf, ltag := e.ltag, pipe := e.pipe }
    st := .ready, succ := e.succ, occ := occ + 1, member := e.src == 4 }

/-- A context starts in a slot (R43, R445); a launch counts its starts. -/
def startCtx (s : State) (c : CoreId) (n : SlotNo) (e : Entry) : State :=
  let s := s.modCore c fun k => { (k.setCtx n (startedCtx (k.ctx n).occ e)) with
    sched := { k.sched with resv := vset k.sched.resv n.toNat .none, dirty := true } }
  let s := if e.src = 3 || e.src = 4 then
      s.modLaunch e.ltag fun l => { l with started := l.started + 1 } else s
  s.traceStart c n e.src

/-- R44, R190: a migrated or stolen context as it resumes. -/
def arrivedCtx (occ : Nat) (m : CtxMsg) : Ctx :=
  { Ctx.zero with
    a := { m.arch with sg := 0, sv := 0, sp := 0 }, priv := m.priv, st := .ready, succ := m.succ, inv := m.inv, hold := m.hold, occ := occ + 1, member := m.member }

/-- What firmware tells the host, beside the host links. -/
def State.report (s : State) (m : HostMsg) : State := { s with hostOut := s.hostOut ++ [m] }

/-- The channel, the operation and the data of a message to the host (R387, R388): an acknowledgement, a negative reply, a value, or the
news that a core has stopped. -/
def HostMsg.packet : HostMsg → Nat × Nat × List Byte
  | .refused _ _ => (1, 17, [])
  | .value x => (1, 15, wordBytes x)
  | .stopped _ => (2, 14, [])
  | _ => (1, 16, [])

/-- R388, R393: a die tells the host: a packet across its host link. Nothing reaches the host over a link that is down (R394). -/
def State.tellFrom (s : State) (d : BitVec 2) (m : HostMsg) : State :=
  if hostUp s d then (s.note (nodeRoot d) nodeHost m.packet.1 m.packet.2.1 (Ident.ofCore (d ++ (0 : BitVec 10))) 0 m.packet.2.2).report m else s

/-- The core that a message to the host names. -/
def HostMsg.core : HostMsg → CoreId
  | .ok _ c | .refused _ c | .stopped c => c
  | _ => 0

/-- A core, or a unit of its die, answers a host command. -/
def State.tell (s : State) (m : HostMsg) : State := s.tellFrom (dieOf m.core) m

/-- It starts in its reserved slot. -/
def arriveCtx (s : State) (c : CoreId) (m : CtxMsg) : State :=
  let s := s.modCore c fun k => { (k.setCtx m.dslot (arrivedCtx (k.ctx m.dslot).occ m)) with
    sched := { k.sched with resv := vset k.sched.resv m.dslot.toNat .none, dirty := true, seek := if m.steal then none else k.sched.seek }
    took := if m.late.isEmpty then k.took else k.took ++ [(m.dslot, m.late)] }
  let s := s.traceStart c m.dslot (if m.steal then 5 else 6)
  if m.steal then s else s.tell (.ok "MIGRATION" c)

/-- The lowest VACANT helper slot of a tenant that nothing holds (R59). -/
def slotForWork (k : Core) (t : Tenant) : Option SlotNo := (k.freeFor t).head?

/-- R360: the core and its queue carry the tenant. -/
def carries (k : Core) (t : Tenant) (q : BitVec 2) : Bool := k.asg == some t && qTenant k.r.qwgt q.toNat == t

/-! ## The steps of R59 -/

/-- A slot whose context retired, ended or departed, with nothing left to wait for. -/
def vacates (k : Core) (n : SlotNo) : Bool :=
  let x := k.ctx n
  n != 0 && x.st != .vacant &&
  (x.ended || (x.rel.isNone && ((x.retiring && k.longOf n == 0 && x.chunk.isNone) || (x.st == .departing && x.depart.isNone))))

/-- Step 1 for one slot: the context leaves it. What it still counts counts for the core until it arrives (R97, R170). -/
def vacate (s : State) (c : CoreId) (n : SlotNo) : State :=
  if vacates (s.core c) n then
    let x := s.ctx c n
    (leaveSlot s c n (x.ended || x.retiring)).modCore c fun k =>
      { k with
        r := { k.r with upcPend := k.r.upcPend.filter (· != n) }, sched := { k.sched with dirty := true }
        stray := k.stray ++ x.long.map (·.id) ++ ((k.took.filter fun p => p.1 == n).map (·.2)).flatten
        took := k.took.filter fun p => p.1 != n }
  else s

/-- Step 2 for one request (R56). -/
def startHelper (c : CoreId) (s : State) (q : HStart) : State :=
  let k := s.core c
  let x := k.ctx 0
  let reply := fun (v : Nat) (s : State) => s.modCtx c 0 fun x =>
    { x with long := x.long.map fun l => if l.id = q.id then { l with val := some v } else l }
  match slotForWork k (k.tenantOf 0) with
  | none => reply 0 s
  | some n =>
    reply n.toNat (startCtx s c n
      { q := 0, pc := q.pc, w1 := q.w1, w2 := q.w2, wid := x.a.wid, widf := x.a.widf, ltag := x.a.ltag, tenant := k.tenantOf 0, succ := 0,
        src := 0, pipe := Vector.replicate 8 0 })

/-- Step 2: the requests in their order. -/
def serveHstart (s : State) (c : CoreId) : State :=
  (s.core c).sched.hstart.foldl (startHelper c) (s.modCore c fun k => { k with sched := { k.sched with hstart := [] } })

/-- The request is a message of the host (R360): its start carries operation code 0. -/
def hostWork (s : State) (id : Nat) : Bool :=
  match s.req id with
  | none => false
  | some r => match r.body with
    | .start _ _ _ op => op == 0
    | _ => false


/-- The answer to work applied at its core: a slot, or QUEUED; the host's by OK. -/
def appliedReply (s : State) (c : CoreId) (id : Nat) (x : Word) : State :=
  if hostWork s id then (s.dropReq id).tell (.ok "MESSAGE" c) else s.answer id (.ok [] x)

/-- Work refused at its core (R360, R365). -/
def refusedReply (s : State) (c : CoreId) (id : Nat) : State :=
  if hostWork s id then (s.dropReq id).tell (.refused "MESSAGE" c) else s.answer id (.err eProt 0 (spPtr s.devId c 0))

/-- R360: the word QUEUED. -/
def queuedWord : Word := BitVec.ofNat 64 (2 ^ 62)

/-- R360: work that reached the core is applied: in a slot, in its queue, refused, or kept while its queue has
no room. `fill` is false while the cluster is frozen (R457). -/
def applyStart (s : State) (c : CoreId) (e : Entry) (req : Nat) (fill : Bool) : State :=
  let k := s.core c
  if !carries k e.tenant e.q then refusedReply s c req
  else
    match (if fill then slotForWork k e.tenant else none) with
    | some n => appliedReply (startCtx s c n e) c req (n.setWidth 64)
    | none =>
      if k.sched.room then appliedReply (enqueueWork s c e) c req queuedWord
      else s.modCore c fun k => { k with sched := { k.sched with arrivals := k.sched.arrivals ++ [.start e req] } }

/-- Step 3 for one arrival. -/
def applyArrival (fill : Bool) (c : CoreId) (s : State) (a : Arrival) : State :=
  match a with
  | .start e req => applyStart s c e req fill
  | .ctx m => if fill then arriveCtx s c m else s.modCore c fun k => { k with sched := { k.sched with arrivals := k.sched.arrivals ++ [a] } }
  | .gang n e => if fill then startCtx s c n e else s.modCore c fun k => { k with sched := { k.sched with arrivals := k.sched.arrivals ++ [a] } }

/-- Step 3. -/
def serveArrivals (s : State) (c : CoreId) (fill : Bool) : State :=
  let as := (s.core c).sched.arrivals
  as.foldl (applyArrival fill c) (s.modCore c fun k => { k with sched := { k.sched with arrivals := [] } })

/-- R67: the sum of the weights. -/
def weightSum (qw : Word) : Nat := ((List.range 4).map (qWeight qw)).sum

/-- R67: the deficit counters at the start of step 4. -/
def deficits (k : Core) : Vector Int 4 :=
  let w := weightSum k.r.qwgt
  Vector.ofFn fun q =>
    let d := vget k.sched.dq q.val 0
    let g := qWeight k.r.qwgt q.val
    let own := helperSlots.countP fun n => (k.ctx n).st != .vacant && ownerQ k.r.slotOwn n.toNat == q.val
    if g = 0 then d else min 32767 (max (-32768) (d + 10 * g - w * own))

/-- R67: the queue that fills the next slot. -/
def nextQueue (k : Core) : Option Nat :=
  ((List.range 4).filter fun q => qWeight k.r.qwgt q != 0 && !(k.sched.queue q).isEmpty).foldl (fun b q =>
    match b with
    | some p => if vget k.sched.dq p 0 < vget k.sched.dq q 0 then some q else b
    | none => some q) none

/-- Two bits of a field replaced. -/
def setOwner (own : BitVec 20) (n q : Nat) : BitVec 20 :=
  BitVec.ofNat 20 (own.toNat - own.toNat / 4 ^ (n - 1) % 4 * 4 ^ (n - 1) + q * 4 ^ (n - 1))

/-- Step 4 for one slot. -/
def refill (c : CoreId) (s : State) (n : SlotNo) : State :=
  let k := s.core c
  if (k.ctx n).st != .vacant || vget k.sched.resv n.toNat .none != .none then s
  else match nextQueue k with
    | none => s
    | some q =>
      match k.sched.queue q with
      | [] => s
      | e :: _ =>
        let s := s.modCore c fun k => { k with
          r := { k.r with slotOwn := setOwner k.r.slotOwn n.toNat q }
          sched := { k.sched.dequeue q with dq := vset k.sched.dq q (vget k.sched.dq q 0 - weightSum k.r.qwgt) } }
        startCtx s c n e

/-- Step 4 (R67). -/
def refillSlots (s : State) (c : CoreId) : State :=
  if weightSum (s.core c).r.qwgt = 0 then s
  else helperSlots.foldl (refill c) (s.modCore c fun k => { k with sched := { k.sched with dq := deficits k } })

/-! ## Stealing (R381) -/

/-- The number of cores of a level: the own deque, the cluster, the die, the device. -/
def levelSize : Nat → Nat
  | 0 => 1 | 1 => 15 | 2 => 1008 | _ => 3072

/-- Member m of a level, in ascending core id. -/
def levelCore (c : CoreId) (level m : Nat) : CoreId :=
  let skip := fun (own m : Nat) => if m < own then m else m + 1
  match level with
  | 0 => c
  | 1 => clusterOf c ++ BitVec.ofNat 4 (skip (c.toNat % 16) m)
  | 2 => dieOf c ++ BitVec.ofNat 6 (skip (c.toNat / 16 % 64) (m / 16)) ++ BitVec.ofNat 4 (m % 16)
  | _ => BitVec.ofNat 2 (skip (dieOf c).toNat (m / 1024)) ++ BitVec.ofNat 10 (m % 1024)

/-- The level of the core that is asked after n cores; none once every core has been asked. -/
def levelAt (n : Nat) : Option Nat :=
  if n < 1 then some 0 else if n < 16 then some 1 else if n < 1024 then some 2 else if n < 4096 then some 3 else none

/-- The slot that a core has reserved for a steal. -/
def stealSlot (k : Core) : Option SlotNo := helperSlots.find? fun n => vget k.sched.resv n.toNat .none == .steal

/-- A steal request or its answer NONE travels between cores (R388). -/
def stealNote (s : State) (from_ to_ : CoreId) (vc op : Nat) : State :=
  if from_ = to_ then s else s.note (nodeCore from_) (nodeCore to_) vc op
    { Ident.ofCore from_ with tenant := (s.core from_).asg.getD 0, slot := Config.noContext } (spPtr s.devId to_ 0) []

/-- Asks the next core, or gives up for 64 rotations. -/
def askNext (s : State) (c : CoreId) (asked : Nat) : State :=
  match levelAt asked with
  | some lv =>
    let p := if lv = 0 then 0 else vget (s.core c).sched.ptrs (lv - 1) 0
    let v := levelCore c lv p
    stealNote (s.modCore c fun k => { k with sched := { k.sched with
        seek := some { victim := v, asked := asked + 1, at_ := s.now }
        ptrs := if lv = 0 then k.sched.ptrs else vset k.sched.ptrs (lv - 1) ((p + 1) % levelSize lv) } }) c v 0 14
  | none =>
    s.modCore c fun k =>
      { k with sched := { k.sched with
          seek := none, backoff := 64
          resv := match stealSlot k with | some n => vset k.sched.resv n.toNat .none | none => k.sched.resv } }

/-- The lowest slot with which an idle core seeks (R381). -/
def idleSlot (k : Core) : Option SlotNo :=
  helperSlots.find? fun n =>
    (k.ctx n).st == .vacant && vget k.sched.resv n.toNat .none == .none &&
    !((List.range 4).any fun q => (k.sched.queue q).any fun e => e.tenant == k.tenantOf n)

/-- R381: an idle core reserves a slot and asks. -/
def beginSeek (s : State) (c : CoreId) : State :=
  let k := s.core c
  if k.sched.seek.isSome || k.sched.backoff ≠ 0 then s
  else match idleSlot k with
    | some n => askNext (s.modCore c fun k => { k with sched := { k.sched with resv := vset k.sched.resv n.toNat .steal } }) c 0
    | none => s

/-- R192: an entry may be stolen for a tenant. -/
def stealable (s : State) (t : Tenant) (e : DqEntry) : Bool :=
  e.tenant == t && e.leaving.isNone && e.before.all fun id => (s.req id).isNone

/-- The tenant of the slot that a thief has reserved. -/
def thiefTenant (s : State) (c : CoreId) : Option Tenant := (stealSlot (s.core c)).map (s.core c).tenantOf

/-- The place of the oldest entry that a victim gives a thief. -/
def victimPick (s : State) (v c : CoreId) : Option Nat :=
  match thiefTenant s c with
  | some t => (s.core v).sched.deque.findIdx? (stealable s t)
  | none => none

/-- A frame's −1 for a thief is on its way. -/
def bumpPending (s : State) (v c : CoreId) : Bool :=
  s.net.any fun r => r.core == v && match r.body with | .bump _ t _ => t == c | _ => false

/-- A request of a core's deque, charged to no context. -/
def dequeReq (s : State) (v : CoreId) (e : DqEntry) (body : Body) : Req :=
  { id := s.nextId, core := v, slot := e.slot, occ := e.occ, tenant := e.tenant, priv := e.priv, wid := e.arch.wid, widf := e.arch.widf,
    ltag := e.arch.ltag, ord := false, dest := .dev s.devId, tso := false, ret := false, body := body, given := none, phys := [], reply := .none, cancel := false,
    orphan := true }

/-- The message of a stolen continuation. -/
def stealMsg (s : State) (v c : CoreId) (e : DqEntry) : CtxMsg :=
  { arch := e.arch, priv := e.priv, succ := e.succ, inv := e.inv, hold := Vector.replicate 16 0, member := e.member, core := v, slot := e.slot, dest := c,
    dslot := (stealSlot (s.core c)).getD 0, steal := true, late := [] }

/-- A request delivered to a victim at its RESTORE is served. -/
def unqueue (s : State) (v c : CoreId) : State :=
  if (s.core v).sched.thieves.contains c then
    s.modCore v fun k => { k with sched := { k.sched with thieves := k.sched.thieves.filter (· != c) } }
  else s

/-- R381: the victim serves a request: it marks an entry LEAVING and lowers its frame's counter. -/
def markSteal (s : State) (v c : CoreId) : State :=
  let dq := (s.core v).sched.deque
  match (victimPick s v c).bind fun i => dq[i]?.map fun e => (i, e) with
  | none => s
  | some (i, e) =>
    ((unqueue s v c).modCore v fun k => { k with sched := { k.sched with deque := k.sched.deque.set i { e with leaving := some c } } }).send
      (dequeReq s v e (.bump e.frame c e.frame))

/-- R381: the entry marked for a thief, with its place. -/
def leavingFor (s : State) (v c : CoreId) : Option (Nat × DqEntry) :=
  ((s.core v).sched.deque.mapIdx fun i e => (i, e)).find? fun p => p.2.leaving == some c

/-- R381: once the counter's addition has been acknowledged, the entry is removed and sent. -/
def giveSteal (s : State) (v c : CoreId) (i : Nat) (e : DqEntry) : State :=
  if bumpPending s v c then s
  else
    let s := s.modCore v fun k => { k with sched := { k.sched with deque := k.sched.deque.eraseIdx i } }
    let s := (s.countCore v 21 1).offerIf v 3
      [headRec 4 1 v e.slot.toNat e.arch.ltag.toNat e.arch.wid.toNat (s.core v).rot.toNat 3,
       extRec (BitVec.ofNat 64 (s.devId.toNat + c.toNat * 2 ^ 10)) 0]
    s.send (dequeReq s v e (.ctx (stealMsg s v c e)))

/-- A core that serves requests at its deque: neither saved (R354) nor frozen (R457). -/
def servesSteals (k : Core) : Bool := !diverts k && !k.frozen

/-- The model's clock stands at the rotation boundary of a core: after its cycle 11 and before its next cycle 0. A core that
nothing has touched has no cycles of its own, and stands there always (log 1). -/
def State.atBoundary (s : State) (c : CoreId) : Bool :=
  (kget s.cores c.toNat).isNone || s.turn.slot == 12 || (s.turn.slot == 11 && decide (c < s.turn.core)) ||
    (s.turn.slot == 0 && decide (s.turn.core ≤ c))

/-- R381: a request is served at the victim's next rotation boundary after the asking. -/
def Seek.due (q : Seek) (s : State) : Bool :=
  s.atBoundary q.victim && ((kget s.cores q.victim.toNat).isNone || decide (q.at_ < s.now))

/-- R355, R382: a victim serves the requests that its RESTORE has delivered in their order, and before any other: those of thieves that
still ask it and can be answered. -/
def stealFirst (s : State) (v c : CoreId) : Bool :=
  let asks := fun (h : CoreId) => ((s.core h).sched.seek.any fun q => q.victim == v) && !(s.core h).frozen && !diverts (s.core h)
  ((s.core v).sched.thieves.find? asks).all (· == c)

/-- R382: a steal request of a thief that a core has diverted. -/
def stealDiverted (s : State) (v c : CoreId) : Bool :=
  (s.core v).divert.any fun id => match s.req id with | some r => r.body == .steal v && r.core == c | none => false

/-- The steal request of a thief, in the identity of no context. -/
def stealReq (s : State) (v c : CoreId) : Req :=
  { id := s.nextId, core := c, slot := noSlot, occ := 0, tenant := (thiefTenant s c).getD 0, priv := false, wid := 0, widf := 0, ltag := 0,
    ord := false, dest := .dev s.devId, tso := false, ret := false, body := .steal v, given := none, phys := [], reply := .none, cancel := false, orphan := true }

/-- R382, R354: a steal request that reaches a pre-empted core takes a place of its spill queue, in order of arrival, while it has
room; the thief's reservation stands. -/
def divertSteal (s : State) (v c : CoreId) : State :=
  if stealDiverted s v c || (s.core v).sched.thieves.contains c || decide ((s.core v).divCap ≤ (s.core v).divert.length) then s
  else divertTo { s with net := s.net ++ [stealReq s v c], nextId := s.nextId + 1 } v s.nextId

/-- STEAL_REQUEST: R381, R382. The entry is marked at the victim's boundary, and leaves once the counter has been lowered. -/
def execStealRequest (victim thief : CoreId) (s : State) : Out :=
  .next (match (s.core thief).sched.seek with
    | some q =>
      if q.victim != victim || !dieUp s (dieOf thief) (dieOf victim) then s
      else if diverts (s.core victim) then (if (leavingFor s victim thief).isSome then s else divertSteal s victim thief)
      else if servesSteals (s.core victim) then
        match leavingFor s victim thief with
        | some (i, e) => giveSteal s victim thief i e
        | none => if q.due s && stealFirst s victim thief then markSteal s victim thief else s
      else s
    | none => s)

/-- A stolen continuation is on its way to a thief, or awaits its boundary. -/
def stealComing (s : State) (thief : CoreId) : Bool :=
  (s.net.any fun r => match r.body with | .ctx m => m.steal && m.dest == thief | _ => false) ||
  (s.core thief).sched.arrivals.any fun a => match a with | .ctx m => m.steal | _ => false

/-- STEAL_NONE: R381. A victim without such an entry answers NONE at its boundary; so does one that no link reaches any more
(R394; log 70). -/
def execStealNone (thief : CoreId) (s : State) : Out :=
  .next (match (s.core thief).sched.seek with
    | some q =>
      let k := s.core thief
      let up := dieUp s (dieOf thief) (dieOf q.victim)
      if k.frozen || diverts k || stealComing s thief || (leavingFor s q.victim thief).isSome then s
      else if !up || (servesSteals (s.core q.victim) && q.due s && stealFirst s q.victim thief && (victimPick s q.victim thief).isNone) then
        askNext (if up then stealNote (unqueue s q.victim thief) q.victim thief 1 17 else unqueue s q.victim thief) thief q.asked
      else s
    | none => s)

/-- The core seeks at its boundaries. -/
def seeks (k : Core) : Bool := k.asg.isSome && k.pre == .running && !k.frozen && k.stall.isEmpty

/-- STEAL_BACKOFF_EXPIRY: R381, at a boundary of the core. -/
def execStealBackoffExpiry (core : CoreId) (s : State) : Out :=
  .next (if s.atBoundary core && seeks (s.core core) && (s.core core).sched.backoff = 0 then beginSeek s core else s)

/-! ## The boundary -/

/-- R353: the decision cycle: every chunk of the core is squashed, a token held is released, and the waits
that another core holds are asked back (R356). -/
def decide_ (s : State) (c : CoreId) : State :=
  let s := allSlots.foldl (fun s n => releaseToken (squash s c n) c n) s
  let s := allSlots.foldl (fun s n => match (s.ctx c n).wait.bind (·.req) with
    | some id => s.sendCancel id false
    | none => s) s
  (s.modCore c fun k => { k with pre := .draining }).tracePre c 2

/-- R457: the broadcast freeze is applied: each live context is FROZEN and offers its record. -/
def applyFreeze (s : State) (c : CoreId) (cause : Nat) : State :=
  let s := allSlots.foldl (fun s n =>
    let x := s.ctx c n
    if x.st == .vacant || x.st == .frozen then s else (freezeCtx s c n).traceDebug c n x.skid cause 0 0) s
  s.modCore c fun k => { k with freezing := none, frozen := true }

/-- R231: the core leaves issue once nothing of it is outstanding, and the host is told. -/
def applyHalt (s : State) (c : CoreId) : State :=
  let k := s.core c
  if k.halting && !k.halted && k.longAll = 0 then
    (s.modCore c fun k => { k with halted := true }).tell (.stopped c)
  else s

/-- R448: the slots classed ISSUED in the rotation. -/
def Core.issuedSlots (k : Core) : Nat := allSlots.countP fun n => (k.ctx n).cls == 1

/-- R404, R448: what a boundary counts: the rotation, its VACANT helper slots, and the bin of the slots that issued. -/
def boundaryCounts (s : State) (c : CoreId) : State :=
  let k := s.core c
  ((s.countCore c 2 1).countCore c 6 (helperSlots.countP fun n => (k.ctx n).st == .vacant)).modCore c fun k =>
    { k with bins := vset k.bins k.issuedSlots (vget k.bins k.issuedSlots 0 + 1) }

/-- R444, R445, R448: the records of a boundary: the other units of its cycle, then SLOT and COUNT by the core as the rotation
left it. -/
def boundaryRecords (s : State) (c : CoreId) (k : Core) : State :=
  let s := (s.offerKept c).traceSlot c (allSlots.map fun n => (k.ctx n).cls) k.issuedSlots k.rot
  let per := 256 * (k.r.trcCfg.extractLsb' 20 12).toNat
  if k.r.trcCfg.getLsbD 5 && per != 0 && k.rot.toNat % per == 0 then s.traceCounts c k else s

/-- SHADOW_BANK_GRANT (R52, R225): the earliest BANKWAIT context takes a bank that has been released. -/
def grantBank (s : State) (c : CoreId) : State :=
  let k := s.core c
  match k.holder, k.bankq.find? fun n => (k.ctx n).st == .bankwait with
  | none, some n => match (k.ctx n).kmiss with
    | some p => takeBank s c n p
    | none => s
  | _, _ => s

/-- R457: a broadcast freeze that has reached the core is applied. -/
def freezeNow (s : State) (c : CoreId) : State :=
  match (s.core c).freezing with
  | some cause => applyFreeze s c cause
  | none => s

/-- The steps of R59 at a boundary. A broadcast freeze is applied after the first, the shadow bank is granted before the second;
those of a frozen, a stalled and a pre-empted core are left out (R353, R451, R457). -/
def boundarySteps (s : State) (c : CoreId) : State :=
  let s := freezeNow (helperSlots.foldl (fun s n => vacate s c n) s) c
  let k := s.core c
  if !(k.pre == .running || k.pre == .stopping) || !k.stall.isEmpty then s
  else if k.frozen then serveArrivals s c false
  else
    let s := serveArrivals (serveHstart (grantBank s c) c) c true
    -- DESIGN CHOICE (log 51): step 4 at a core without an assignment does nothing, its deficit counters included
    if k.asg.isNone then s
    else
      let s := refillSlots s c
      if seeks (s.core c) then beginSeek s c else s

/-- ROTATION_BOUNDARY: R59. Every record of the boundary carries the count of the rotation that ends (R443), which is raised last. -/
def execRotationBoundary (core : CoreId) (s : State) : Out :=
  let s := boundaryCounts s core
  let k := s.core core
  let s := s.modCore core fun k => { k with
    ctxs := k.ctxs.map fun x => { x with later := false }, sched := { k.sched with backoff := k.sched.backoff - 1 } }
  let s := applyHalt (boundarySteps s core) core
  let s := if (s.core core).pre == .stopping then decide_ s core else s
  .next ((boundaryRecords s core k).modCore core fun k => { k with rot := k.rot + 1 })

/-! ## Work that reaches a core -/

/-- R360: what `amsg` returns of a core of another device, by a free word: a helper slot, or QUEUED. -/
def outerStart (x : Word) : Word := if x.getLsbD 63 then queuedWord else BitVec.ofNat 64 (x.toNat % 10 + 1)

/-- ACTIVE_MESSAGE_ARRIVAL: R360, R365, R369. -/
def execActiveMessageArrival (id : Nat) (s : State) : Out :=
  .next (match s.req id with
    | none => s
    | some r =>
      if !onWay s r then s
      else match r.body with
        | .start c d e _ =>
          let p := bodyAddr s r.body
          if d ≠ s.devId then
            (if !reachable s d then s.answer id (.err eUnreach 0 p)
            else if outDown s r.core id then s.answer id (.err eLink 0 p)
            else if (Config.outerFails id).toNat = 1 then s.answer id (.err eProt 0 p)
            else s.draw.answer id (.ok [] (outerStart (Config.outerWord s.free))))
          else if !pathUp s r.core p then s.answer id (.err eLink 0 p)
          else if isDiverted s r.body || !(s.core c).sched.room then s
          else s.modCore c fun k => { k with sched := { k.sched with arrivals := k.sched.arrivals ++ [.start e id] } }
        | _ => s)

/-- R388, R393: a command or a message of the host crosses the host link to a node. -/
def hostNote (s : State) (node vc op : Nat) (c : CoreId) : State := s.note nodeHost node vc op (Ident.ofCore c) (spPtr s.devId c 0) []

/-- HOST_ACTIVE_MESSAGE: R360. WID and LTAG are zero. The message travels as any other, and a core that is saved diverts it
(R354); none comes while the die's host link is down (R394). -/
def execHostActiveMessage (core : CoreId) (q : BitVec 2) (pc w1 w2 : Word) (tenant : Tenant) (s : State) : Out :=
  let e : Entry := { q := q, pc := pc, w1 := w1, w2 := w2, wid := 0, widf := 0, ltag := 0, tenant := tenant, succ := 0, src := 1,
                     pipe := Vector.replicate 8 0 }
  let r : Req :=
    { id := s.nextId, core := core, slot := noSlot, occ := 0, tenant := tenant, priv := true, wid := 0, widf := 0, ltag := 0, ord := false,
      dest := .dev s.devId, tso := false, ret := false, body := .start core s.devId e 0, given := none, phys := [], reply := .none, cancel := false, orphan := true }
  .next (if hostUp s (dieOf core) then
    ({ s with net := s.net ++ [r], nextId := s.nextId + 1 } : State).emit nodeHost (r.packets s)
  else s)

/-- A reserved slot is free again, and a search that waits for its message ends. -/
def dropResv (s : State) (m : CtxMsg) : State :=
  s.modCore m.dest fun k => { k with sched := { k.sched with
    resv := vset k.sched.resv m.dslot.toNat .none, seek := if m.steal then none else k.sched.seek } }

/-- CONTEXT_ARRIVAL: R190. The message awaits step 3 of R59. One whose path is gone fails as R394 gives: its context is lost, and
its slot is released (log 70). -/
def execContextArrival (id : Nat) (s : State) : Out :=
  .next (match s.req id with
    | none => s
    | some r =>
      if !onWay s r || isDiverted s r.body then s
      else match r.body with
        | .ctx m =>
          if !dieUp s (dieOf r.core) (dieOf m.dest) then (dropResv s m).answer id (.err eLink 0 (spPtr s.devId m.dest 0))
          else (s.dropReq id).modCore m.dest fun k => { k with sched := { k.sched with arrivals := k.sched.arrivals ++ [.ctx m] } }
        | _ => s)

/-! ## The task graph unit (R365-R374) -/

/-- SLOT_VIEW_REPORT: R365, and the reservations it lets a waiting gang make (R373). -/
def execSlotViewReport (core : CoreId) (s : State) : Out :=
  let d := dieOf core
  let m := (s.core core).vacantMask
  let s := s.modTgu d fun t => { t with view := kset t.view core.toNat m }
  .next (reserveGang (s.modCore core fun k => { k with sched := { k.sched with dirty := false } }) d)

/-- R368: the number of work ids of a launch, and work id number n. -/
def launchCount (e : Vector Word 8) : Nat := ((List.range (nfOf (laFields e))).map (laExt e)).foldl (· * ·) 1
def launchWid (e : Vector Word 8) (n : Nat) : Nat :=
  ((List.range (nfOf (laFields e))).foldl (fun (a : Nat × Nat × Nat) i =>
    let x := laExt e i
    (a.1 + a.2.1 % x * 2 ^ a.2.2, a.2.1 / x, a.2.2 + widthOfField (laFields e) i)) (0, n, 0)).1

/-- Waiting entries of a launch at a core (R369): those in its queue and its spill queue, and of the starts on their way those
beyond what fills the VACANT slots that the unit knows of (R365; log 54). -/
def waitingOf (s : State) (c : CoreId) (l : Launch) : Nat :=
  let k := s.core c
  let vacant := helperSlots.countP fun n => (viewOf s (dieOf c) c).getLsbD n.toNat && k.slotFor l.tenant n
  let own := s.net.countP fun r => match r.body with | .start d _ e _ => d == c && e.ltag == l.tag && r.open_ | _ => false
  (k.sched.queue (laQueue l.obj)).countP (fun e => e.ltag == l.tag) + (k.sched.spill.countP fun e => e.ltag == l.tag) +
    min own (startsInFlight s c l.tenant - vacant)

/-- The cores of a placement in the order of the search: from the one after the last core used. -/
def searchFrom (cs : List CoreId) (l : Launch) : List CoreId :=
  match l.last with
  | some x => cs.filter (x < ·) ++ cs.filter (· ≤ x)
  | none =>
    let x := if laAff l.obj = 0 then l.core else laTarget l.obj
    cs.filter (x ≤ ·) ++ cs.filter (· < x)

/-- R369: where the next work id of a launch goes now. -/
def placeOn (s : State) (d : BitVec 2) (l : Launch) : Option CoreId :=
  let cs := placement s l.obj l.core l.tenant
  match firstVacant s d l.tenant (searchFrom cs l) with
  | some c => some c
  | none =>
    let w := fun c => waitingOf s c l
    (cs.foldl (fun (b : Option CoreId) c => match b with
      | some x => if w c < w x then some c else b
      | none => some c) none).filter fun c => w c < 4

/-- LAUNCH_PLACEMENT: R368, R369. The unit places the next work id of the launch it expands. -/
def execLaunchPlacement (die : BitVec 2) (s : State) : Out :=
  .next (match (s.die die).tgu.launches.find? fun l => !l.gang && !l.expanded with
    | none => s
    | some l =>
      match placeOn s die l with
      | none => s
      | some c =>
        let wid : Word := BitVec.ofNat 64 (launchWid l.obj l.next)
        let e : Entry := { q := BitVec.ofNat 2 (laQueue l.obj), pc := laPc l.obj, w1 := wid, w2 := laArg l.obj, wid := wid,
                           widf := laFields l.obj, ltag := l.tag, tenant := l.tenant, succ := 0, src := 3, pipe := Vector.replicate 8 0 }
        let s := s.modLaunch l.tag fun l => { l with next := l.next + 1, last := some c, expanded := decide (launchCount l.obj ≤ l.next + 1) }
        unitStart s l.core c e)

/-- R373: the members of a gang in order, kernel by kernel, with their numbers. -/
def gangMembers (l : Launch) : List (Nat × Nat × Word) :=
  ((l.kernels.mapIdx fun k p => (List.range p.2).map fun j => (k, j, p.1))).flatten

/-- R372: a member's start. -/
def gangEntry (l : Launch) (m : Nat × Nat × Word) : Entry :=
  let wid : Word := BitVec.ofNat 64 (m.1 * 2 ^ 8 + m.2.1)
  { q := BitVec.ofNat 2 (laQueue l.obj), pc := m.2.2, w1 := wid, w2 := laArg l.obj, wid := wid,
    widf := BitVec.ofNat 64 (2 + 8 * 2 ^ 3 + 3 * 2 ^ 9), ltag := l.tag, tenant := l.tenant, succ := 0, src := 4, pipe := l.pipes }

/-- GANG_START: R373. The oldest waiting gang holds every slot it needs: its members start. DESIGN CHOICE (log 84): none of them while a
core of one of those slots diverts its arrivals (R354). -/
def execGangStart (die : BitVec 2) (s : State) : Out :=
  .next (match (s.die die).tgu.launches.find? fun l => l.gang && !l.expanded with
    | none => s
    | some l =>
      if l.slots.length < l.members || l.slots.any (fun p => diverts (s.core p.1)) then s
      else
        let s := s.modLaunch l.tag fun l => { l with expanded := true }
        ((gangMembers l).zip l.slots).foldl (fun s p =>
          (s.emit (nodeRoot die) ((unitReq s l.core p.2.1 (gangEntry l p.1)).packets s)).modCore p.2.1 fun k =>
            { k with sched := { k.sched with arrivals := k.sched.arrivals ++ [.gang p.2.2 (gangEntry l p.1)] } }) s)

/-! ## Completion of a launch (R370) -/

/-- Something of a core carries the tag, a context that is gone and has a release to perform included. -/
def coreCarries (k : Core) (tag : BitVec 16) : Bool :=
  (k.gone.any fun g => g.ctx.a.ltag == tag) ||
  (allSlots.any fun n => (k.ctx n).st != .vacant && (k.ctx n).a.ltag == tag) ||
  (k.sched.deque.any fun e => e.arch.ltag == tag) || ((List.range 4).any fun q => (k.sched.queue q).any fun e => e.ltag == tag) ||
  (k.sched.spill.any fun e => e.ltag == tag) || (k.chan.toList.any fun h => h.st == .active && h.ltag == tag) ||
  k.sched.arrivals.any fun a => match a with
    | .start e _ => e.ltag == tag
    | .ctx m => m.arch.ltag == tag
    | .gang _ e => e.ltag == tag

/-- A launch has completed. -/
def launchDone (s : State) (l : Launch) : Bool :=
  l.expanded && !(s.cores.any fun p => coreCarries p.2 l.tag) &&
  !(s.dies.toList.any fun x => x.tgu.nodes.any fun p => p.2.e.ltag == l.tag) &&
  !(s.net.any fun r => (r.ord && r.ltag == l.tag) || match r.body with
    | .start _ _ e _ => e.ltag == l.tag
    | .ctx m => m.arch.ltag == l.tag
    | _ => false)

/-- R370: the completion record. -/
def launchRecord (s : State) (l : Launch) : List Byte :=
  let w0 : Word := BitVec.ofNat 64 (l.tag.toNat + (if l.reduced then 2 ^ 16 else 0) + if l.gang then 2 ^ 17 else 0)
  ([w0, l.started, l.errors, l.lost, (s.core l.core).rot.setWidth 64, 0, 0, 0].map wordBytes).flatten

/-- The launch leaves the unit, its tag free. -/
def freeLaunch (s : State) (d : BitVec 2) (l : Launch) : State :=
  s.modTgu d fun t => { t with launches := t.launches.filter (·.tag != l.tag) }

/-- R388: the write of a completion record travels from the unit to a node on the posted channel, and is answered. -/
def launchNote (s : State) (die : BitVec 2) (l : Launch) (q : Word) (node rop : Nat) : State :=
  let w : Ident := { Ident.ofCore l.core with tenant := l.tenant, priv := l.priv, slot := Config.noContext, ltag := l.tag }
  if node = nodeRoot die then s
  else (s.note (nodeRoot die) node 2 13 w q (launchRecord s l)).note node (nodeRoot die) 1 rop w q []

/-- LAUNCH_COMPLETION: R370. The record is written as a write of R169, unless R171 holds it; a refused or
faulting write is an error record charged to no context. -/
def execLaunchCompletion (die : BitVec 2) (tag : BitVec 16) (s : State) : Out :=
  .next (match (s.die die).tgu.launches.find? (·.tag == tag) with
    | none => s
    | some l =>
      if !launchDone s l then s
      else if laDone l.obj = 0 then freeLaunch s die l
      else
        let q := resolve s.devId l.core (laDone l.obj)
        if heldAt s l.tenant none 64 q then s
        else match found s l.core l.tenant l.priv q 64 1 false 0 with
          | .ok ks =>
            if keysHeld s ks then s
            else
              let t := launchNote (touchAt s l.core l.tenant q 64 1 l.priv false) die l q (keysAt s ks) 16
              freeLaunch (writeKeysSquash t ks (launchRecord s l)) die l
          | .outside => freeLaunch (launchNote s die l q nodeOut 16) die l
          | .err k fw =>
            let t := touchAt s l.core l.tenant q 64 1 l.priv false
            let t := if k = eLink || k = eUnreach then t else launchNote t die l q (nodeOfPtr s l.core l.tenant q) 17
            composeError (freeLaunch t die l) l.core
              { kind := k, fw := fw, op := 13, ptr := laDone l.obj, wid := 0, ltag := l.tag, slot := noSlot, xid := 0 } false false)

/-! ## Gang holds (R374) -/

/-- The slots that hold live members of a gang, where they run now: contexts that its members have started are none (R374). -/
def gangSlots (s : State) (tag : BitVec 16) : List (CoreId × SlotNo) :=
  if (s.die (tag.extractLsb' 14 2)).tgu.launches.any fun l => l.tag == tag && l.gang then
    (s.cores.map fun p => (allSlots.filter fun n => (p.2.ctx n).st != .vacant && (p.2.ctx n).member && (p.2.ctx n).a.ltag == tag).map fun n =>
      (BitVec.ofNat 12 p.1, n)).flatten
  else []

/-- A core of the gang with a live member has left RUNNING. -/
def gangBroken (s : State) (tag : BitVec 16) : Bool := (gangSlots s tag).any fun p => (s.core p.1).pre != .running

/-- GANG_HOLD: R374. At a boundary of the core the members' open chunks are squashed, and nothing issues for them. -/
def execGangHold (core : CoreId) (tag : BitVec 16) (s : State) : Out :=
  .next (if s.atBoundary core && tag != 0 && gangBroken s tag && (gangSlots s tag).any (·.1 == core) && (s.core core).pre == .running &&
      !(s.core core).gheld.contains tag then
    let s := allSlots.foldl (fun s n => if (s.ctx core n).a.ltag == tag && (s.ctx core n).member && (s.ctx core n).st != .vacant then squash s core n else s) s
    s.modCore core fun k => { k with gheld := k.gheld ++ [tag] }
  else s)

/-- GANG_HOLD_LIFT: R374. -/
def execGangHoldLift (core : CoreId) (tag : BitVec 16) (s : State) : Out :=
  .next (if gangBroken s tag then s else s.modCore core fun k => { k with gheld := k.gheld.filter (· != tag) })

end Sys2Proof.Machine
end

