-- ==== Sys2Proof/Machine/Preempt.lean ====
section
/-! DEFINITION. Migration of contexts (R190-R193), core assignment (R34, R43, R65), page commands (R152, R153),
pre-emption (R352-R357) and the host's debug commands (R457, R458). -/

namespace Sys2Proof.Machine

/-- R388, R393: a host command crosses the host link of a die to a node on the debug channel; none comes while that link is down
(R394). Its answer is a message to the host. -/
def dieCommand (d : BitVec 2) (node : Nat) (s : State) (f : State → State) : State :=
  if hostUp s d then f (hostNote s node 3 18 (d ++ (0 : BitVec 10))) else s

/-- A host command to a core. -/
def hostCommand (c : CoreId) (s : State) (f : State → State) : State := dieCommand (dieOf c) (nodeCore c) s f

/-! ## Migration (R190-R193) -/

/-- R193: the command is refused. DESIGN CHOICE (log 71): a context that has issued `hend`, or that an error has ended, is refused too;
the rule's list does not name it. -/
def migrateRefused (s : State) (c : CoreId) (n : SlotNo) (dest : CoreId) : Bool :=
  let k := s.core c
  let x := k.ctx n
  n == 0 || decide (10 < n.toNat) || !(x.st == .ready || x.st == .parked || x.st == .waiting) || x.retiring || x.ended ||
  (x.inv.ist != 0 && x.inv.pend) || !x.replay.isEmpty ||
  (s.core dest).asg != some (k.tenantOf n) || (slotForWork (s.core dest) (k.tenantOf n)).isNone

/-- CONTEXT_MIGRATION: R193. The context enters DEPARTING; its chunk ends before its next bundle. A wait that
another core holds is asked back first. -/
def execContextMigration (core : CoreId) (slot : SlotNo) (dest : CoreId) (s : State) : Out :=
  .next (hostCommand core s fun s =>
  if migrateRefused s core slot dest then s.tell (.refused "MIGRATION" core)
  else
    match slotForWork (s.core dest) ((s.core core).tenantOf slot) with
    | none => s.tell (.refused "MIGRATION" core)
    | some d =>
      let s := s.modCore dest fun k => { k with sched := { k.sched with resv := vset k.sched.resv d.toNat .migrate } }
      let s := match (s.ctx core slot).wait.bind (·.req) with
        | some id => s.sendCancel id false
        | none => s
      s.modCtx core slot fun x => { x with
        st := .departing, depart := some (dest, d), compl := none, chunk := if x.wait.isSome then x.chunk else x.chunk.map fun ch => { ch with ending := true } })

/-- A departing context's wait ends: it is abandoned, or, performed at another core already, it completes. -/
def settleDeparting (s : State) (c : CoreId) (n : SlotNo) (w : Wait) : State :=
  let back := fun (s : State) => s.modCtx c n fun x => { x with st := .departing }
  match w.req with
  | none => back (abandonWait s c n w).1
  | some id =>
    match (s.req id).map (·.reply) with
    | some (Reply.withdrawn _) => back (abandonWait (s.dropReq id) c n { w with req := none }).1
    | some (Reply.ok _ _) => match completeWait s c n { w with sbit := false } with
      | some s' => back s'
      | none => s
    | _ => s

/-- The ids of the cancelled loads that a slot still counts. -/
def lateOf (k : Core) (n : SlotNo) : List Nat :=
  (k.ctx n).long.map (·.id) ++ ((k.took.filter fun p => p.1 == n).map (·.2)).flatten

/-- R190: nothing holds the register-context message back. DESIGN CHOICE (log 85): a deferred fault that has come to a DEPARTING context
does not, nor does its replay set, which the message does not carry: both are dropped. -/
def mayDepart (s : State) (c : CoreId) (n : SlotNo) : Bool :=
  let k := s.core c
  let x := k.ctx n
  x.chunk.isNone && x.wait.isNone && x.rel.isNone && !x.inv.pend && !x.ended &&
  x.long.all (fun l => l.cancelled && (s.req l.id).isSome) &&
  !(s.net.any fun r => r.ord && r.core == c && r.slot == n && r.occ == x.occ) &&
  ((lateOf k n).isEmpty || decide (k.fwd.length < 16))

/-- R190, R191: the message leaves, with a forwarding entry for its late replies. -/
def sendContext (s : State) (c : CoreId) (n : SlotNo) (dest : CoreId) (d : SlotNo) : State :=
  let k := s.core c
  let x := k.ctx n
  let late := lateOf k n
  let m : CtxMsg := { arch := x.a, priv := x.priv, succ := x.succ, inv := x.inv, hold := x.hold, member := x.member, core := c, slot := n, dest := dest, dslot := d,
                      steal := false, late := late }
  let r := { s.request c n false (.dev s.devId) false false (.ctx m) none with orphan := true }
  let s := s.traceEvent c n 2 0 [extRec (BitVec.ofNat 64 (s.devId.toNat + dest.toNat * 2 ^ 10)) 0]
  let s := s.send r
  s.modCore c fun k => { (k.setCtx n { k.ctx n with depart := none, long := [] }) with
    took := k.took.filter fun p => p.1 != n, fwd := if late.isEmpty then k.fwd else k.fwd ++ [(late, dest, d)] }

/-- REGISTER_CONTEXT_MESSAGE: R190. -/
def execRegisterContextMessage (core : CoreId) (slot : SlotNo) (s : State) : Out :=
  let x := s.ctx core slot
  .next (match x.st, x.depart with
    | .departing, some (dest, d) =>
      match x.wait with
      | some w => settleDeparting s core slot w
      | none => if mayDepart s core slot then sendContext s core slot dest d else s
    | _, _ => s)

/-! ## Core assignment (R34, R43, R65, R231) -/

/-- R65: the spill queue that the command names. One that leaves the die's memory is refused (DESIGN CHOICE, log 39). -/
def spillOk (spill : Word) (cap : Nat) : Bool :=
  spill.extractLsb' 0 6 == 0 && decide (cap ≤ 65536) && decide (spill.toNat + 64 * cap ≤ dmSize)

/-- R397: the core, or its die, is fenced off. Units are numbered as routers are. -/
def coreFenced (s : State) (c : CoreId) : Bool := s.fenced.contains (nodeCore c) || s.fenced.contains (nodeRoot (dieOf c))

/-- CORE_ASSIGN: R43, R65. The control context starts. -/
def execCoreAssign (core : CoreId) (tenant : Tenant) (pc spill : Word) (cap : Nat) (s : State) : Out :=
  .next (hostCommand core s fun s =>
  if s.stage < 4 || coreFenced s core || (s.core core).asg.isSome || !spillOk spill cap then s.tell (.refused "ASSIGN" core)
  else
    let s := s.modCore core fun k =>
      let x : Ctx := { Ctx.zero with a := { Arch.zero with pc := pc }, st := .ready, occ := (k.ctx 0).occ + 1 }
      { (k.setCtx 0 x) with asg := some tenant, sched := { k.sched with spillBase := spill.toNat, spillCap := cap } }
    s.tell (.ok "ASSIGN" core))

/-- CORE_UNASSIGN: R34, R343. The control context ends; nothing issues. -/
def execCoreUnassign (core : CoreId) (s : State) : Out :=
  .next (hostCommand core s fun s =>
  if (s.core core).asg.isNone then s.tell (.refused "UNASSIGN" core)
  else
    let s := (leaveSlot (dropWork s core 0) core 0 true).modCore core fun k =>
      { k with
        asg := none, r := { k.r with trapCause := if k.busyCtx = 0 then k.r.trapCause &&& ~~~ BitVec.twoPow 64 63 else k.r.trapCause } }
    s.tell (.ok "UNASSIGN" core))

/-- CORE_RESUME: R231. -/
def execCoreResume (core : CoreId) (s : State) : Out :=
  .next (hostCommand core s fun s =>
  if (s.core core).halted then
    (s.modCore core fun k => { k with halted := false, halting := false }).tell (.ok "RESUME" core)
  else s.tell (.refused "RESUME" core))

/-! ## Pages (R152, R153) -/

/-- The pages of 64 KiB that a command names. -/
def pageSpan (va : Nat) (large : Bool) : List Nat :=
  if large then (List.range 32).map fun i => va / 2 ^ 21 * 32 + i else [va / 2 ^ 16]

/-- The keys that the cached translations of some pages name at a die, a range for each. -/
def pageKeys (s : State) (tenant : Tenant) (pool : Bool) (d : BitVec 2) (pages : List Nat) : List (Nat × Nat) :=
  pages.filterMap fun g => (tlbFind s d pool tenant (g * 2 ^ 16)).map fun e =>
    let k := leafKey d pool (g * 2 ^ 16) e.frame e.large e.attr
    (k, k + 2 ^ 16)

/-- A key lies in one of some ranges. -/
def inRanges (rs : List (Nat × Nat)) (k : Nat) : Bool := rs.any fun p => p.1 ≤ k && k < p.2

/-- The contexts of a die whose open chunks have accesses to a range, each with the count of its bundles at the chunk's start: by
their signatures, or by stores that wait, translated, for the commit. -/
def chunkHolders (s : State) (d : BitVec 2) (rs : List (Nat × Nat)) : List (CoreId × SlotNo × Nat) :=
  ((s.coresOfDie d).map fun c => allSlots.filterMap fun n =>
    let x := s.ctx c n
    let sc := ((x.long.filter fun l => !l.cancelled).map (·.scat)).flatten
    x.chunk.bind fun ch =>
      if ((ch.rsig ++ ch.wsig).any fun l => inRanges rs (64 * l)) || (ch.buf ++ sc).any fun r => r.phys.any (inRanges rs) then
        some (c, n, x.bundles - ch.n)
      else none).flatten

/-- A copy holds a translation of one of the pages, of a space and, of SPC 1, of a die. -/
def Chan.holdsPage (h : Chan) (pool : Bool) (d : BitVec 2) (pages : List Nat) : Bool :=
  h.pages.any fun p => p.2.pool == pool && (pool || p.1 == d) &&
    (if p.2.large then pages.any fun g => g / 32 == p.2.page / 32 else pages.contains p.2.page)

/-- The copies of a tenant that hold a translation of one of the pages. -/
def copyHolders (s : State) (tenant : Tenant) (pool : Bool) (d : BitVec 2) (pages : List Nat) : List (CoreId × Nat × W32) :=
  (s.cores.map fun p => (List.range 2).filterMap fun i =>
    let h := p.2.ch i
    if h.st == .active && h.tenant == tenant && h.holdsPage pool d pages then some ((BitVec.ofNat 12 p.1 : CoreId), i, h.xid) else none).flatten

/-- The `mget`s of a die whose tiles are bound for a range. -/
def mgetHolders (s : State) (d : BitVec 2) (rs : List (Nat × Nat)) : List (CoreId × Nat) :=
  ((s.coresOfDie d).map fun c => (s.core c).acc.mgets.filterMap fun m => if m.keys.any (inRanges rs) then some (c, m.id) else none).flatten

/-- The cached translations of the pages are dropped. -/
def dropPages (s : State) (tenant : Tenant) (pool : Bool) (d : BitVec 2) (pages : List Nat) : State :=
  s.modDie d fun x => { x with tlb := x.tlb.filter fun e =>
    !(e.pool == pool && e.tenant == tenant && (if e.large then pages.any fun g => g / 32 == e.page / 32 else pages.contains e.page)) }

/-- The first core of a die, which stands for it in an answer. -/
def dieCore (d : BitVec 2) : CoreId := d ++ (0 : BitVec 10)

/-- R152 steps 1 and 3: the cached translations are dropped, and what was translated under them, or under those that an earlier command
for the page dropped, is noted. -/
def openPage (s : State) (frame : Option Nat) (tenant : Tenant) (pool : Bool) (die : BitVec 2) (va : Nat) (large : Bool) : State :=
  let pages := pageSpan va large
  let dies : List (BitVec 2) := if pool then [0, 1, 2, 3] else [die]
  let before := (s.die die).pageCmds.filter fun e => e.tenant == tenant && e.pool == pool && (pageSpan e.va e.large).any pages.contains
  let rs := (dies.map fun d => pageKeys s tenant pool d pages).flatten ++ (before.map (·.ranges)).flatten
  let m : PageCmd :=
    { frame := frame, tenant := tenant, pool := pool, die := die, va := va, large := large, ranges := rs
      chunks := (dies.map fun d => chunkHolders s d rs).flatten
      copies := copyHolders s tenant pool die pages
      mgets := (dies.map fun d => mgetHolders s d rs).flatten }
  (dies.foldl (fun s d => dropPages s tenant pool d pages) s).modDie die fun x => { x with pageCmds := x.pageCmds ++ [m] }

/-- R152 step 3: something that was translated under a dropped entry is still to be performed: in an open chunk, by a copy that still
holds the page, by an `mget`, or by a store or an atomic on its way. A migration waits for the `mget`s of the contexts that it does not
hold, too (R153, log 55). -/
def pageWaits (s : State) (m : PageCmd) : Bool :=
  m.chunks.any (openSince s) ||
  (m.copies.any fun h =>
    let y := (s.core h.1).ch h.2.1
    y.st == .active && y.xid == h.2.2 && y.holdsPage m.pool m.die (pageSpan m.va m.large)) ||
  (m.mgets.any fun h => (s.core h.1).acc.mgets.any fun y => y.id == h.2) ||
  (m.frame.isSome && !(mgetHolders s m.die m.ranges).isEmpty) ||
  s.net.any fun r => r.reply == .none && r.phys.any (inRanges m.ranges)

/-- The physical address of the leaf entry of an SPC 1 page, its value, and whether it is a large one. -/
def leafAt (s : State) (d : BitVec 2) (t : Tenant) (va : Nat) : Option (Nat × Nat × Bool) :=
  let rd := tableWord s d
  match walk s d false t va with
  | .fault _ => none
  | .leaf _ lg _ =>
    let root := rd ((s.die d).ttBase + 16 * t.toNat)
    let e1 := rd (root / 256 % 2 ^ 44 * 256 + 8 * (va / 2 ^ 34 % 2 ^ 14))
    let a2 := e1 / 256 % 2 ^ 44 * 256 + 8 * (va / 2 ^ 21 % 2 ^ 13)
    if lg then some (a2, rd a2, true)
    else let a3 := rd a2 / 256 % 2 ^ 44 * 256 + 8 * (va / 2 ^ 16 % 32); some (a3, rd a3, false)

/-- R153 steps 3-5: the frame's bytes, the leaf's FRAME, and the descriptors, which the die's atomizer writes (R149, R405). -/
def moveFrame (s : State) (d : BitVec 2) (leaf entry old new n : Nat) : State :=
  let m := memWrite s.mem (dmKey d (new * 2 ^ 16)) (memRead s.mem (dmKey d (old * 2 ^ 16)) n)
  let m := memWrite m (dmKey d leaf) (natBytes 8 (entry - entry / 2 ^ 16 % 2 ^ 36 * 2 ^ 16 + new * 2 ^ 16))
  let kd := fun f => sramKey d ((s.die d).descBase + 8 * f)
  let ref := memNat m (kd old) 8 % 2 ^ 10
  (({ s with mem := memWrite (memWrite m (kd old) (natBytes 8 0)) (kd new) (natBytes 8 ref) } : State).countDie d 4).countDie d 4

/-- R153: a migration of a page, to a frame, that is refused. DESIGN CHOICE (log 85): a 2 MiB migration to a frame number that is no
multiple of 32, and that of a page whose leaf entry lies outside the die's memory, are refused too. -/
def moveRefused (s : State) (tenant : Tenant) (die : BitVec 2) (va : Nat) (large : Bool) (frame : Nat) : Bool :=
  let n := if large then 2 ^ 21 else 2 ^ 16
  match leafAt s die tenant va with
  | none => true
  | some (a, e, lg) =>
    lg != large || attrS (BitVec.ofNat 7 (e / 4)) || (large && frame % 32 != 0) || decide (dmSize < frame * 2 ^ 16 + n) || decide (dmSize < a + 8)

/-- R152 step 4, R153 steps 3-7: a command for which nothing waits any more is done. A migration drops what the accesses that it was
waiting for have cached since, and the pushes whose entries lay on the page are handled in their order (R428, R433). -/
def closePage (s : State) (m : PageCmd) : State :=
  let c := dieCore m.die
  match m.frame with
  | none => s.tell (.ok "INVALIDATE" c)
  | some f =>
    if moveRefused s m.tenant m.die m.va m.large f then s.tell (.refused "MIGRATE_PAGE" c)
    else match leafAt s m.die m.tenant m.va with
      | some (a, e, _) =>
        let u := moveFrame s m.die a e (e / 2 ^ 16 % 2 ^ 36) f (if m.large then 2 ^ 21 else 2 ^ 16)
        serveStreams ((dropPages u m.tenant false m.die (pageSpan m.va m.large)).tell (.ok "MIGRATE_PAGE" c))
      | none => s

/-- The page commands of a die for which nothing waits are done, in the order in which they came. -/
def pageStep (s : State) (d : BitVec 2) : State :=
  (s.die d).pageCmds.foldl (fun s m =>
    if pageWaits s m then s else closePage (s.modDie d fun x => { x with pageCmds := x.pageCmds.erase m }) m) s

/-- PAGE_INVALIDATION: R152. SPC 2 is translated at all four dies. -/
def execPageInvalidation (tenant : Tenant) (pool : Bool) (die : BitVec 2) (va : Nat) (large : Bool) (s : State) : Out :=
  .next (dieCommand die (nodeRoot die) s fun s => pageStep (openPage s none tenant pool die va large) die)

/-- PAGE_MIGRATION: R153. While it waits, accesses that need a translation of the page are held at the interface. -/
def execPageMigration (tenant : Tenant) (die : BitVec 2) (va : Nat) (large : Bool) (frame : Nat) (s : State) : Out :=
  .next (dieCommand die (nodeRoot die) s fun s =>
    if moveRefused s tenant die va large frame then s.tell (.refused "MIGRATE_PAGE" (dieCore die))
    else pageStep (openPage s (some frame) tenant false die va large) die)

/-! ## Pre-emption (R352-R357) -/

/-- R352: a save area and a spill queue that the message may name. -/
def areaOk (area spill cap : Nat) : Bool :=
  area % 2 ^ 16 == 0 && decide (area + 448 * 2 ^ 10 ≤ dmSize) && decide (spill + 64 * cap ≤ dmSize)

/-- SAVE: R353. -/
def execSave (core : CoreId) (area spill : Nat) (cap : Nat) (s : State) : Out :=
  .next (hostCommand core s fun s =>
  if (s.core core).pre != .running || !areaOk area spill cap then s.tell (.refused "SAVE" core)
  else (s.modCore core fun k => { k with pre := .stopping, saveArea := area, divBase := spill, divCap := cap }).tracePre core 1)

/-- R353: everything of a DRAINING core has come to its end. -/
def drained (s : State) (c : CoreId) : Bool :=
  let k := s.core c
  k.longAll == 0 && !(s.net.any fun r => r.ord && r.core == c) && k.chan.toList.all (fun h => h.st != .active) &&
  k.acc.q.isEmpty && k.acc.mgets.isEmpty && k.svcq.isEmpty && k.gone.isEmpty &&
  allSlots.all fun n =>
    let x := k.ctx n
    !x.inv.pend && x.rel.isNone && withdrawn s c n && !(x.st == .departing && x.depart.isSome) && (x.upc.isNone || x.recorded)

/-- The regions of the save area whose layout is architected, the scratchpad apart (R357): the trap save block, the contexts, the
mailbox and the tiles. -/
def areaRegions (k : Core) (trap : List Byte) : List (Nat × List Byte) :=
  [(0, trap)] ++ allSlots.map (fun n => (0x1000 + 2048 * n.toNat, imageBytes (k.ctx n))) ++
  [(0x10800, ((List.range 64).map fun i => natBytes 4 (vget k.mbox i 0).toNat).flatten)] ++
  (List.range 4).map fun i => (0x11000 + 1024 * i, tileBytes (vget k.acc.tiles i 0))
where
  /-- A tile of 256 words of 32 bits. -/
  tileBytes (t : Tile) : List Byte := natBytes 1024 t.toNat

/-- The regions marked device image (R357): offset and size. -/
def imageRegions : List (Nat × Nat) :=
  [(0x40, 4032), (0x8000, 2 ^ 15), (0x10000, 2 ^ 11), (0x10900, 2 ^ 9), (0x12000, 2 ^ 13), (0x14000, 48 * 2 ^ 10), (0x20000, 2 ^ 16)]

/-- Writes regions at an area of a die. -/
def putRegions (m : Mem) (d : BitVec 2) (area : Nat) (rs : List (Nat × List Byte)) : Mem :=
  rs.foldl (fun m r => memWrite m (dmKey d (area + r.1)) r.2) m

/-- Two save areas share bytes: each takes 448 KiB. -/
def areasMeet (a b : Nat) : Bool := decide (a < b + 448 * 2 ^ 10) && decide (b < a + 448 * 2 ^ 10)

/-- What SAVE of a core wrote in an area, and nothing has overwritten (R357). -/
def savedAt (s : State) (c : CoreId) (area : Nat) : Option Saved :=
  (s.saved.find? fun p => p.1 == c.toNat && p.2.area == area).map (·.2)

/-- R357: the save area is written, the scratchpad with it; what an area held that shares bytes with it is gone. The bytes of
the device image are free values (DESIGN CHOICE, log 39). -/
def writeArea (s : State) (c : CoreId) : State :=
  let k := s.core c
  let d := dieOf c
  let rs := areaRegions k (memRead s.mem (k.trapBlock c) 64) ++
    imageRegions.map fun r => (r.1, (List.range r.2).map fun i => Config.imageByte s.free (r.1 + i))
  let m := memWrite (putRegions s.mem d k.saveArea rs) (dmKey d (k.saveArea + 0x30000)) (memRead s.mem (spKey c 0) (2 ^ 18))
  let k' := { k with trapArea := some k.saveArea }
  ({ s.draw with
    mem := m
    saved := (c.toNat, { area := k.saveArea, img := { k' with pre := .saved }, parts := rs }) ::
      s.saved.filter fun p => !(dieOf (BitVec.ofNat 12 p.1) == d && areasMeet p.2.area k.saveArea) } : State).setCore c k'

/-- SAVE_AREA_WRITE: R353, R357. A drained core becomes SAVING, and SAVED once its area is written. -/
def execSaveAreaWrite (core : CoreId) (s : State) : Out :=
  let k := s.core core
  .next (match k.pre with
    | .draining => if drained s core then (s.modCore core fun k => { k with pre := .saving }).tracePre core 3 else s
    | .saving =>
      let s := writeArea s core
      ((s.modCore core fun k => { k with pre := .saved }).tracePre core 4).tell (.ok "SAVE" core)
    | _ => s)

/-- R357: the area was written by SAVE of this core, and its check value matches: what the area holds of the
core is as it was written. -/
def areaMatches (s : State) (c : CoreId) (area : Nat) : Bool :=
  match savedAt s c area with
  | some v => v.parts.all fun r => memRead s.mem (dmKey (dieOf c) (area + r.1)) r.2.length == r.2
  | none => false

/-- What RESTORE brings back of an area that an earlier SAVE wrote (R357). What lies outside the area stays as it is: the
assignment, the trap vector, halt and freeze, the holds of gangs, reservations and the steal under way, the
operations of other units that are queued at the core, and late replies. -/
def olderImage (k v : Core) : Core :=
  { v with
    asg := k.asg, cyc := k.cyc, svcq := k.svcq, rwait := k.rwait, rwNext := k.rwNext, halting := k.halting, halted := k.halted,
    fenced := k.fenced, freezeAt := k.freezeAt, divert := k.divert, gheld := k.gheld, freezing := k.freezing, frozen := k.frozen, stepping := k.stepping,
    fwd := k.fwd, stray := k.stray, took := k.took, gone := k.gone, kept := k.kept, stall := k.stall,
    r := { v.r with trapVec := k.r.trapVec },
    sched := { v.sched with resv := k.sched.resv, seek := k.sched.seek, ptrs := k.sched.ptrs, backoff := k.sched.backoff, thieves := k.sched.thieves },
    ctxs := if k.frozen then v.ctxs.map fun x => if x.st == .vacant || x.st == .frozen then x else { x with st := .frozen, held := x.st }
      else v.ctxs }

/-- R357: the counts of the core as SAVE left them: they do not run on while the core is saved. -/
def asSaved (k v : Core) : Core := { k with rot := v.rot, bins := v.bins, r := { k.r with cntVal := v.r.cntVal } }

/-- RESTORE: R352, R357. An area of an earlier SAVE brings back the core of that SAVE; of the last one, the core is as
that SAVE left it but for what has reached it from outside. -/
def execRestore (core : CoreId) (area spill : Nat) (cap : Nat) (s : State) : Out :=
  .next (hostCommand core s fun s =>
  if (s.core core).pre != .saved || !areaMatches s core area || !areaOk area spill cap then s.tell (.refused "RESTORE" core)
  else (s.modCore core fun k =>
    { (if area = k.saveArea then k else match savedAt s core area with
        | some v => olderImage k v.img
        | none => k) with pre := .restoring, saveArea := area, trapArea := some area, divBase := spill, divCap := cap }).tracePre core 5)

/-- R355: a diverted arrival reaches the unit that it was bound for. -/
def redeliver (c : CoreId) (s : State) (id : Nat) : State :=
  match s.req id with
  | none => s
  | some r =>
    match r.body with
    | .mb op q x => performMb s r op q (x.extractLsb' 0 32)
    | .bump q _ _ => performMb s r .inc q (BitVec.allOnes 32)
    | .start _ _ e _ => s.modCore c fun k => { k with sched := { k.sched with arrivals := k.sched.arrivals ++ [.start e id] } }
    | .ctx m => (s.dropReq id).modCore c fun k => { k with sched := { k.sched with arrivals := k.sched.arrivals ++ [.ctx m] } }
    | .steal _ => (s.dropReq id).modCore c fun k => { k with sched := { k.sched with thieves := k.sched.thieves ++ [r.core] } }
    | _ => settleHead (s.modCore c fun k => { k with svcq := k.svcq ++ [id] }) c

/-- RESTORE_COMPLETE: R355, R357. The saved state comes back, the scratchpad with every write to its copy; then
the diverted arrivals, in order. -/
def execRestoreComplete (core : CoreId) (s : State) : Out :=
  let k := s.core core
  .next (match k.pre with
    | .restoring =>
      let sp := memRead s.mem (dmKey (dieOf core) (k.saveArea + 0x30000)) (2 ^ 18)
      let s := { s with mem := memWrite s.mem (spKey core 0) sp }
      let k' := match savedAt s core k.saveArea with
        | some v => asSaved k v.img
        | none => k
      let s := s.setCore core { k' with pre := .running, divert := [] }
      let s := k.divert.foldl (redeliver core) s
      (s.tracePre core 6).tell (.ok "RESTORE" core)
    | _ => s)

/-! ## Debug commands (R457, R458) -/

/-- CLUSTER_FREEZE: R457. A freeze that has reached a core is applied, at a boundary of the core. -/
def execClusterFreeze (core : CoreId) (s : State) : Out := .next (if s.atBoundary core then freezeNow s core else s)

/-- A debug command of the host to a cluster. -/
def clusterCommand (cl : BitVec 8) (s : State) (f : State → State) : State := hostCommand (cl ++ (0 : BitVec 4)) s f

/-- FREEZE: R458. -/
def execFreeze (cluster : BitVec 8) (s : State) : Out := .next (clusterCommand cluster s fun s => broadcastFreeze s cluster 4 [])

/-- A FROZEN context returns to the state it held (R52). -/
def thaw (x : Ctx) : Ctx := if x.st == .frozen then { x with st := x.held } else x

/-- RELEASE: R458. -/
def execRelease (cluster : BitVec 8) (who : Option (CoreId × SlotNo)) (s : State) : Out :=
  .next (match who with
    | some (c, n) => hostCommand c s fun s => s.modCtx c n thaw
    | none => clusterCommand cluster s fun s => (coresOf cluster).foldl (fun s c => s.modCore c fun k =>
        { k with frozen := false, freezing := none, ctxs := k.ctxs.map thaw }) s)

/-- STEP: R458. The context may issue one bundle, in a chunk of its own: an open chunk ends before it. -/
def execStep (core : CoreId) (slot : SlotNo) (s : State) : Out :=
  .next (hostCommand core s fun s =>
  if (s.ctx core slot).st == .frozen && (s.core core).stepping.isNone then
    (s.modCtx core slot fun x => { thaw x with chunk := x.chunk.map fun ch => { ch with ending := true } }).modCore core fun k =>
      { k with stepping := some slot }
  else s)

/-- TRAP_VECTOR_WRITE: R340. Firmware writes it through the host die. -/
def execTrapVectorWrite (core : CoreId) (pc : Word) (s : State) : Out :=
  .next (hostCommand core s fun s => s.modCore core fun k => { k with r := { k.r with trapVec := pc } })

end Sys2Proof.Machine
end

