-- ==== Sys2Proof/Machine/Bringup.lean ====
section
/-! DEFINITION. Bring-up, services, firmware, identity and attestation (R396-R402), die counters (R405), power and
failing units (R406). -/

namespace Sys2Proof.Machine

/-! ## Services (R396-R398) -/

/-- `DEV.SVC`: SVC is 1 exactly when CAUSE is not 0. -/
def svcWord (stage cause : Nat) : BitVec 8 := BitVec.ofNat 8 ((if cause = 0 then 0 else 1) + stage % 8 * 2 + cause % 16 * 16)

/-- The four dies. -/
def allDies : List (BitVec 2) := [0, 1, 2, 3]

/-- R393: firmware writes DEV.SVC, or DEV.ID, of a die over its host link. -/
def fwWrite (s : State) (d : BitVec 2) : State := hostNote s (nodeRoot d) 3 18 (d ++ (0 : BitVec 10))

/-- The device passes to a stage: firmware writes stage and cause into DEV.SVC of each die that its host link reaches (R393). -/
def State.serve (s : State) (stage cause : Nat) : State :=
  (allDies.filter (hostUp s)).foldl (fun s d => (fwWrite s d).modDie d fun x => { x with svc := svcWord stage cause })
    { s with stage := stage }

/-- DEVICE_RESET: R397 stages 1 and 2. The registers, counters, streams and dies are as reset leaves them; pool
and host memory lie outside the compute dies. -/
def execDeviceReset (s : State) : Out :=
  .next { State.reset with
    mem := s.mem.filter fun p => 2 ^ 50 ≤ p.1, hostOut := s.hostOut, agenda := s.agenda, free := s.free, nextId := s.nextId }

/-- SRAM_SELF_TEST: R397 stage 2. Every SRAM is zero; a failing unit is reported and fenced off. -/
def execSramSelfTest (failing : List Nat) (s : State) : Out :=
  .next (if s.stage ≠ 2 then s
  else { s with mem := s.mem.filter fun p => 2 ^ 50 ≤ p.1, fenced := s.fenced ++ failing.filter (fun u => !s.fenced.contains u),
                hostOut := s.hostOut ++ failing.map HostMsg.unit })

/-- R144, R149: firmware places the translation tables and the descriptor array of each die; it does so with the HDM decoders of
stage 3 (DESIGN CHOICE, log 72: the spec does not say when). -/
def State.placeTables (s : State) : State :=
  { s with dies := Vector.ofFn fun d => { vget s.dies d.val Die.zero with
      ttBase := Config.ttBase (BitVec.ofNat 2 d.val), descBase := Config.descBase (BitVec.ofNat 2 d.val) } }

/-- R90, R393: firmware writes DEV.ID over the host links that are up; with none up, nothing comes. -/
def writeDevId (s : State) (x : BitVec 10) : State :=
  let ups := allDies.filter (hostUp s)
  if ups.isEmpty then s else { ups.foldl fwWrite s with devId := x }

/-- UCIE_TRAINING: R397 stage 3, R395: up to 16 decoders, of the interleaves that the device supports. -/
def execUcieTraining (devId : BitVec 10) (hdm : List HdmDec) (s : State) : Out :=
  .next (if s.stage ≠ 2 then s else { (writeDevId (s.serve 3 1) devId).placeTables with hdm := (hdm.filter hdmOk).take 16 })

/-- ACCORD_CALIBRATION: R397 stage 4. -/
def execAccordCalibration (s : State) : Out := .next (if s.stage ≠ 3 then s else s.serve 4 1)

/-- R400: the three checks. -/
def imageAccepted (pub digest body sig : List Byte) : Bool :=
  shake256 pub 64 == Config.fusedKeyHash && digest == shake256 body 64 && edVerify pub digest sig

/-- FIRMWARE_VERIFICATION: R400. On a failure the device stays at stage 4, whatever image follows, and tells the host (R397). -/
def execFirmwareVerification (pub digest body sig : List Byte) (s : State) : Out :=
  .next (if s.stage ≠ 4 then s
  else if !s.fw.failed && imageAccepted pub digest body sig then { s.serve 5 1 with fw := { s.fw with accepted := true, digest := digest } }
  else ({ s with fw := { s.fw with failed := true } } : State).report (.failed "FIRMWARE"))

/-- IDENTITY_DERIVATION: R401. -/
def execIdentityDerivation (s : State) : Out :=
  .next (if s.stage ≠ 5 || !s.fw.accepted then s
  else
    let root := shake256 Config.fusedSecret 57
    let alias_ := shake256 (Config.fusedSecret ++ s.fw.digest) 57
    let pub := edPublic alias_
    { s.serve 6 1 with
      fw := { s.fw with
        keys := true, rootPub := edPublic root, aliasSeed := alias_, aliasPub := pub
        cert := edSign root (Config.certBody pub s.devId.toNat) } })

/-- NORMAL_SERVICE: R397 stage 7. -/
def execNormalService (s : State) : Out := .next (if s.stage ≠ 6 then s else { s.serve 7 0 with lanesOn := true })

/-- DEV_ID_WRITE: R90, R393. -/
def execDevIdWrite (x : BitVec 10) (s : State) : Out := .next (writeDevId s x)

/-- R398: the host is told once all four dies have made the change. -/
def tellSvc (s : State) : State :=
  if s.dies.toList.all fun d => d.svc == (s.die 0).svc then s.report (.ok "SERVICE" 0) else s

/-- DEV_SVC_WRITE: R398. -/
def execDevSvcWrite (die : BitVec 2) (cause : BitVec 4) (s : State) : Out :=
  .next (dieCommand die (nodeRoot die) s fun s =>
  if s.stage ≠ 7 || cause == 1 || decide (4 < cause.toNat) then s
  else tellSvc (s.modDie die fun d => { d with svc := svcWord 7 cause.toNat }))

/-- R406: a die is still to change when the power has risen above its limit, or fallen below it. -/
def powerDue (high : Bool) (x : Die) : Bool := if high then x.svc != svcWord 7 4 else x.svc == svcWord 7 4

/-- R398, R406, R393: firmware changes the first die that is still to change and whose host link is up; `fw.power` holds the change
under way. -/
def powerStep (s : State) : State :=
  match s.fw.power with
  | none => s
  | some high =>
    match allDies.filter fun d => powerDue high (s.die d) with
    | [] => { s with fw := { s.fw with power := none } }
    | ds => match ds.find? (hostUp s) with
      | none => s
      | some d => tellSvc ((fwWrite s d).modDie d fun x => { x with svc := svcWord 7 (if high then 4 else 0) })

/-- POWER_LIMIT: R406, R398. Firmware enters reduced service with CAUSE 4, and restores normal service, one die after another: the
first of them here, the next in each later cycle. -/
def execPowerLimit (high : Bool) (s : State) : Out :=
  .next (if s.stage ≠ 7 then s else powerStep { s with fw := { s.fw with power := some high } })

/-! ## Attestation (R402) -/

/-- Bytes 271:0 of the report. While the four copies of DEV.SVC differ (R398), STAGE and SVC are those of die 0 (DESIGN CHOICE, log 85). -/
def reportBody (s : State) (nonce : List Byte) : List Byte :=
  let svc := (s.die 0).svc
  let pad := fun (n : Nat) (bs : List Byte) => (bs ++ List.replicate n 0).take n
  [0x45, 0x34, 0x41, 0x52] ++ natBytes 2 1 ++ natBytes 2 s.devId.toNat ++ natBytes 1 (svc.extractLsb' 1 3).toNat ++
  natBytes 1 ((svc.extractLsb' 4 4).toNat + if svc.getLsbD 0 then 16 else 0) ++ List.replicate 6 0 ++ pad 64 nonce ++
  pad 64 s.fw.digest ++ shake256 (Config.configBytes s.fenced s.hdm s.vw.toList s.age) 64 ++ pad 57 s.fw.aliasPub ++
  List.replicate 7 0

/-- ATTESTATION_REQUEST: R402. Refused before stage 6 is complete. -/
def execAttestationRequest (nonce : List Byte) (s : State) : Out :=
  .next (if !s.fw.keys || s.stage < 6 then s.report (.refused "ATTESTATION" 0)
  else let b := reportBody s nonce; s.report (.report (b ++ edSign s.fw.aliasSeed b)))

/-! ## Counters, soft errors and failing units -/

/-- DIE_COUNTER_ACCESS: R405. The host selects the event of a counter, or reads it. -/
def execDieCounterAccess (die : BitVec 2) (n : BitVec 4) (sel : Option (BitVec 8)) (s : State) : Out :=
  .next (dieCommand die (nodeRoot die) s fun s => match sel with
    | some e => s.modDie die fun d => { d with cntSel := vset d.cntSel n.toNat e }
    | none => s.tellFrom die (.value (vget (s.die die).cnt n.toNat 0)))

/-- SOFT_ERROR: R336. The context takes SOFT before its next bundle. -/
def execSoftError (core : CoreId) (slot : SlotNo) (kind : BitVec 2) (what : Word) (s : State) : Out :=
  let x := s.ctx core slot
  .next (if x.st == .vacant || x.ended || x.retiring || kind == 3 || x.tpend.any (·.cause == cSOFT) then s
  else s.modCtx core slot fun x => { x with tpend := x.tpend ++
    [{ cause := cSOFT, info0 := kind.setWidth 64, info1 := what, pc := x.a.pc, fpc := x.a.pc, aux := 0, aux2 := 0, wonly := false,
       dfr := false }] })

/-- UNIT_FENCE: R406. A core that is fenced off, or whose die is, issues nothing more. -/
def execUnitFence (unit : Nat) (s : State) : Out :=
  .next (if s.fenced.contains unit then s
  else { s with
    fenced := s.fenced ++ [unit], hostOut := s.hostOut ++ [.unit unit]
    cores := s.cores.map fun p =>
      let c : CoreId := BitVec.ofNat 12 p.1
      (p.1, { p.2 with fenced := p.2.fenced || unit == nodeCore c || unit == nodeRoot (dieOf c) }) })

end Sys2Proof.Machine
end

