-- ==== Sys2Proof/Machine/Sillage.lean ====
section
/-! DEFINITION. The trace core of a die (R449-R454): its queues, filter machine, window, frames and lanes. -/

namespace Sys2Proof.Machine

/-! ## The filter machine (R453) -/

/-- Fields of a filter word. -/
def fOp (w : W32) : Nat := (w.extractLsb' 27 5).toNat
def fD (w : W32) : Nat := (w.extractLsb' 24 3).toNat
def fA (w : W32) : Nat := (w.extractLsb' 21 3).toNat
def fB (w : W32) : Nat := (w.extractLsb' 18 3).toNat
def fLow (w : W32) : Nat := (w.extractLsb' 0 18).toNat

/-- The operation is a jump. -/
def isFJump (op : Nat) : Bool := 0x10 ≤ op && op ≤ 0x15

/-- Word i of a program of n words is one that the table lists. -/
def fWordOk (n i : Nat) (w : W32) : Bool :=
  let op := fOp w
  let z := fun (hi lo : Nat) => (w.extractLsb' lo (hi + 1 - lo)).toNat == 0
  if op = 0 || op = 1 then z 26 0
  else if op = 2 then z 26 4
  else if op = 3 then z 26 2 && decide (w.toNat % 4 ≤ 2)
  else if op = 4 then z 23 6 && decide (w.toNat % 64 ≤ 16)
  else if op = 5 then z 23 21
  else if op = 6 then z 23 16
  else if 8 ≤ op && op ≤ 0x0E then z 17 0
  else if isFJump op then z 26 24 && z 17 6 && decide (i + 1 + w.toNat % 64 ≤ n)
  else false

/-- R453: a program that may be loaded. -/
def progOk (ws : List W32) : Bool :=
  decide (1 ≤ ws.length) && decide (ws.length ≤ 64) && (ws.mapIdx fun i w => fWordOk ws.length i w).all id

/-- The verdict on a head record, and what the filter does besides. -/
inductive Verdict where
  | keep
  | drop
  | count (n : Nat)
  | trig (t : Nat)
  deriving DecidableEq, Repr

/-- 32-bit word k that `ldf` loads from a unit. -/
def unitWord (u : List (BitVec 128)) (tenant : Tenant) (k : Nat) : W32 :=
  if k < 4 then ((u.headD 0).extractLsb' (32 * k) 32)
  else if k < 16 then ((u.getD ((k - 4) / 4 + 1) 0).extractLsb' (32 * ((k - 4) % 4)) 32)
  else tenant.setWidth 32

/-- The condition of a jump. -/
def fCond (op : Nat) (a b : W32) : Bool :=
  match op with
  | 0x10 => a == b
  | 0x11 => a != b
  | 0x12 => a.ult b
  | 0x13 => a.ule b
  | 0x14 => a.slt b
  | _ => a.sle b

/-- A result of the filter's arithmetic. -/
def fAlu (op : Nat) (a b : W32) : W32 :=
  match op with
  | 0x08 => a + b
  | 0x09 => a - b
  | 0x0A => a &&& b
  | 0x0B => a ||| b
  | 0x0C => a ^^^ b
  | 0x0D => a <<< (b.toNat % 32)
  | _ => a >>> (b.toNat % 32)

/-- Runs the program from word pc, at most n words. -/
def runFilter (ws : List W32) (u : List (BitVec 128)) (t : Tenant) : Nat → Nat → Vector W32 8 → Verdict
  | 0, _, _ => .keep
  | n + 1, pc, f =>
    match ws[pc]? with
    | none => .keep
    | some w =>
      let op := fOp w
      let a := vget f (fA w) 0
      let b := vget f (fB w) 0
      let go := fun (x : W32) => runFilter ws u t n (pc + 1) (vset f (fD w) x)
      if op = 0 then .keep
      else if op = 1 then .drop
      else if op = 2 then .count (w.toNat % 16)
      else if op = 3 then .trig (w.toNat % 4)
      else if op = 4 then go (unitWord u t (w.toNat % 64))
      else if op = 5 then go ((w.extractLsb' 0 21).signExtend 32)
      else if op = 6 then go (w.extractLsb' 0 16 ++ (vget f (fD w) 0).extractLsb' 0 16)
      else if isFJump op then runFilter ws u t n (if fCond op a b then pc + 1 + w.toNat % 64 else pc + 1) f
      else go (fAlu op a b)

/-- R453: the verdict on a unit; with no program every record is kept. -/
def verdictOf (x : Sillage) (u : List (BitVec 128)) (t : Tenant) : Verdict :=
  if x.prog.isEmpty then .keep else runFilter x.prog u t 64 0 (Vector.replicate 8 0)

/-! ## Acceptance, loss and frames (R449-R452) -/

/-- The offering core of a unit. -/
def unitCore (u : List (BitVec 128)) : CoreId := (u.headD 0).extractLsb' 8 12

/-- R453: the tenant of the offering core. -/
def unitTenant (s : State) (u : List (BitVec 128)) : Tenant := (s.core (unitCore u)).asg.getD 0

/-- Counts dropped records (R450). -/
def Sillage.lose (x : Sillage) (n : Nat) : Sillage := { x with drops := min (x.drops + n) (2 ^ 48 - 1) }

/-- A kept unit enters the output queue, or is dropped (R449, R450, R452). -/
def Sillage.keep (x : Sillage) (u : List (BitVec 128)) : Sillage :=
  if (!x.up0 && !x.up1) || 64 < x.outq.length + u.length then x.lose u.length else { x with outq := x.outq ++ u }

/-- R454: a verdict of keep against the window. -/
def Sillage.gate (x : Sillage) (u : List (BitVec 128)) : Sillage := if x.wgate && !x.win then x else x.keep u

/-- R449, R454: what the verdict does to the trace core. -/
def Sillage.judge (x : Sillage) (u : List (BitVec 128)) (v : Verdict) : Sillage :=
  match v with
  | .keep => x.gate u
  | .drop => x
  | .count n => { x with fc := vset x.fc n (vget x.fc n 0 + 1) }
  | .trig 1 => ({ x with win := true } : Sillage).gate u
  | .trig 2 => { x.gate u with win := false }
  | .trig _ => x.gate u

/-- Units that stall mode holds are accepted as room appears, in ascending core id (R451). -/
def acceptStalled (s : State) (d : BitVec 2) : State :=
  (s.coresOfDie d).foldl (fun s c =>
    match (s.core c).stall with
    | [] => s
    | u :: t =>
      if inCount (s.die d).sil.inq + u.length ≤ 256 then
        (s.modDie d fun x => { x with sil := { x.sil with inq := x.sil.inq ++ [u], marks := x.sil.marks ++ [s.bundleMark c] } }).modCore c fun k => { k with stall := t }
      else s) s

/-- SILLAGE_ACCEPT: R449, R453, R454. One unit is handled. -/
def execSillageAccept (die : BitVec 2) (s : State) : Out :=
  .next (match (s.die die).sil.inq with
    | [] => acceptStalled s die
    | u :: t =>
      let v := verdictOf (s.die die).sil u (unitTenant s u)
      let mark := ((s.die die).sil.marks.head?.map (·.counts)).getD []
      let s := s.modDie die fun x => { x with sil := ({ x.sil with inq := t, marks := x.sil.marks.tail } : Sillage).judge u v }
      acceptStalled (if v == .trig 0 then broadcastFreeze s (clusterOf (unitCore u)) 3 mark else s) die)

/-- R450: the LOSS record of a die. -/
def lossRec (s : State) (d : BitVec 2) : BitVec 128 :=
  let c : CoreId := d ++ (0 : BitVec 10)
  BitVec.ofNat 128 (7 + c.toNat * 2 ^ 8 + 15 * 2 ^ 20 + (s.die d).sil.drops * 2 ^ 24 + (s.core c).rot.toNat * 2 ^ 72)

/-- LOSS: R450. The record goes ahead of every other unit, behind the extensions of one whose head has been sent (R443). -/
def execLoss (die : BitVec 2) (s : State) : Out :=
  .next (let x := (s.die die).sil
  if x.drops ≠ 0 && x.outq.length < 64 then
    s.modDie die fun d => { d with sil := { d.sil with outq := d.sil.outq.take d.sil.part ++ lossRec s die :: d.sil.outq.drop d.sil.part, drops := 0 } }
  else s)

/-- R452: CRC-16 over bytes, the first byte first and the high bit of each byte first. -/
def crc16 (bs : List Byte) : Nat :=
  bs.foldl (fun c b =>
    (List.range 8).foldl (fun (c : Nat) _ => if c / 2 ^ 15 % 2 = 1 then Nat.xor (c * 2 % 2 ^ 16) 0x1021 else c * 2 % 2 ^ 16)
      (Nat.xor c (b.toNat * 2 ^ 8))) 0xFFFF

/-- R452: the frame of a record. -/
def frameOf (seq : BitVec 16) (r : BitVec 128) : BitVec 160 :=
  let body := natBytes 2 seq.toNat ++ natBytes 16 r.toNat
  BitVec.ofNat 160 (leBytes (body ++ natBytes 2 (crc16 body)) 0 20)

/-- R452: how long a frame takes, in sixteenths of a cycle: its 160 bits are 165 with their line code, at 32 Gb/s, and the clock is
at 1.2 GHz in reduced service and at 2.4 GHz in normal service (R397). -/
def frameTime (x : Die) : Nat := if x.svc.getLsbD 0 then 99 else 198

/-- R452: the lane that is free first, lane 2d on a tie; a lane that is down is not used. -/
def laneNext (x : Sillage) : Option (BitVec 1) :=
  match x.up0, x.up1 with
  | true, true => some (if x.free1 < x.free0 then 1 else 0)
  | true, false => some 0
  | false, true => some 1
  | false, false => none

/-- When a lane is free. -/
def Sillage.freeAt (x : Sillage) (l : BitVec 1) : Nat := if l = 0 then x.free0 else x.free1

/-- A lane is busy until a time. -/
def Sillage.setFree (x : Sillage) (l : BitVec 1) (t : Nat) : Sillage := if l = 0 then { x with free0 := t } else { x with free1 := t }

/-- How many extension records are to follow a record that is sent (R443). -/
def partAfter (x : Sillage) (r : BitVec 128) : Nat :=
  if (r.extractLsb' 0 4).toNat = 15 then x.part - 1 else (r.extractLsb' 4 4).toNat

/-- The record at the front of the output queue goes out on a lane at a time. -/
def Sillage.send (x : Sillage) (lane : BitVec 3) (r : BitVec 128) (until_ : Nat) : Sillage :=
  { x.setFree (lane.extractLsb' 0 1) until_ with
    outq := x.outq.drop 1, seq := x.seq + 1, sent := x.sent ++ [(lane, frameOf x.seq r)], part := partAfter x r }

/-- R452: in the cycle that begins at a time a record goes out on the lane that is free first, once that is free: its frame follows
upon the one before it. -/
def frameIn (die : BitVec 2) (t : Nat) (s : State) : State :=
  let x := (s.die die).sil
  match x.outq, laneNext x with
  | r :: _, some l =>
    if t + 16 ≤ x.freeAt l then s
    else s.modDie die fun d => { d with sil := d.sil.send (die ++ l) r (max t (d.sil.freeAt l) + frameTime d) }
  | _, _ => s

/-- TRACE_FRAME: R452. -/
def execTraceFrame (die : BitVec 2) (s : State) : Out := .next (frameIn die (16 * s.now) s)

/-- TRACE_LANE_DOWN: R452. A lane goes down or comes back. -/
def execTraceLaneDown (lane : BitVec 3) (up : Bool) (s : State) : Out :=
  .next (s.modDie (lane.extractLsb' 1 2) fun d =>
    { d with sil := if lane.getLsbD 0 then { d.sil with up1 := up } else { d.sil with up0 := up } })

/-- FILTER_PROGRAM_LOAD: R453. -/
def execFilterProgramLoad (die : BitVec 2) (words : List W32) (wgate : Bool) (s : State) : Out :=
  .next (dieCommand die (nodeRoot die) s fun s =>
  if progOk words then
    (s.modDie die fun d => { d with sil := { d.sil with prog := words, wgate := wgate } }).tell (.ok "FILTER" (dieCore die))
  else s.tell (.refused "FILTER" (dieCore die)))

/-- FILTER_COUNTER_READ: R453. -/
def execFilterCounterRead (die : BitVec 2) (n : BitVec 4) (s : State) : Out :=
  .next (dieCommand die (nodeRoot die) s fun s => (s.tellFrom die (.value (vget (s.die die).sil.fc n.toNat 0))).modDie die fun d =>
    { d with sil := { d.sil with fc := vset d.sil.fc n.toNat 0 } })

end Sys2Proof.Machine
end

