-- ==== Sys2Proof/Machine/Fabric.lean ====
section
/-! DEFINITION. Routers (R383-R392) and links (R394): routes, credits, output arbitration, ageing. A packet moves
flit by flit, and holds the output it was granted until its last flit has crossed. -/

namespace Sys2Proof.Machine

/-! ## Routes (R383-R385) -/

/-- A router of a mesh: its core; its row and column. -/
def nodeIsCore (n : Nat) : Bool := n < 4096
def meshRow (n : Nat) : Nat := n % 16 / 4
def meshCol (n : Nat) : Nat := n % 4

/-- The router above: the quadrant router of a core, the die root of a quadrant router. -/
def quadNode (n : Nat) : Nat := 4096 + n / 256
def rootNode (q : Nat) : Nat := 4112 + (q - 4096) / 4

/-- The cores below a node: their ids divided by the node's span. -/
def underNode (n dest : Nat) : Bool :=
  nodeIsCore dest && (if n < 4112 then dest / 256 == n - 4096 else if n < 4116 then dest / 1024 == n - 4112 else false)

/-- A hop: the output port, the next router or endpoint, and its input port. Ports of a mesh router: 0 its core, 1 east, 2
west, 3 south, 4 north, 5 its up-link. Of a quadrant router: 4·cluster + column below, 64 + k above. Of a die
root: 4·quadrant + k below, 16 + die beside, 20 the host, 21 + k off the package, 25 the memory and the units of the die. Of the
host: the die. Of the switch outside: 4·die + k. Of a core or of a die's units: 0. -/
structure Hop where
  port : Nat
  next : Nat
  inp : Nat
  deriving DecidableEq, Repr

/-- R385: along the row to a column, then along the column to a row. -/
def meshHop (n row col : Nat) : Option Hop :=
  if meshCol n < col then some ⟨1, n + 1, 2⟩
  else if col < meshCol n then some ⟨2, n - 1, 1⟩
  else if meshRow n < row then some ⟨3, n + 4, 4⟩
  else if row < meshRow n then some ⟨4, n - 4, 3⟩
  else none

/-- The credits that a sender holds for an input port (R389). -/
def Router.inbound (r : Router) (i : Nat) : Credits :=
  (kget r.inCred i).getD { r := Vector.replicate 4 2, shared := 64, owed := [] }

/-- Credits available to a virtual channel. -/
def Credits.room (c : Credits) (vc : BitVec 2) : Nat := c.shared + vget c.r vc.toNat 0

/-- A router. -/
def State.router (s : State) (n : Nat) : Router := (kget s.routers n).getD Router.zero

/-- R385: of parallel up-links, the one with the most credits, the lowest on a tie. -/
def bestOf (s : State) (node : Nat) (port : Nat → Nat) (vc : BitVec 2) (ks : List Nat) : Nat :=
  let room := fun k => ((s.router node).inbound (port k)).room vc
  ks.foldl (fun b k => if room b < room k then k else b) (ks.headD 0)

/-- R385: the best of the four up-links of a mesh or a quadrant router. -/
def bestUp (s : State) (node : Nat) (port : Nat → Nat) (vc : BitVec 2) : Nat := bestOf s node port vc (List.range 4)

/-- The die of a node. -/
def nodeDie (n : Nat) : Nat := if nodeIsCore n then n / 1024 else if n < 4112 then (n - 4096) / 4 else n - 4112

/-- A hop that takes no choice. -/
def hop (port next inp : Nat) : Option (Hop × Option Nat) := some (⟨port, next, inp⟩, none)

/-- The next hop at a mesh router: within the cluster, or along the row to the column of the up-link it has chosen. -/
def routeMesh (s : State) (n : Nat) (p : Packet) : Option (Hop × Option Nat) :=
  if nodeIsCore p.dest && p.dest / 16 = n / 16 then (meshHop n (meshRow p.dest) (meshCol p.dest)).map fun h => (h, none)
  else
    let q := quadNode n
    let cl := n / 16 % 16
    let k := p.up.getD (bestUp s q (fun k => 4 * cl + k) p.vc)
    match meshHop n 0 k with
    | some h => some (h, some k)
    | none => hop 5 q (4 * cl + k)

/-- The next hop at a quadrant router. -/
def routeQuad (s : State) (n : Nat) (p : Packet) : Option (Hop × Option Nat) :=
  if underNode n p.dest then
    let cl := p.dest / 16 % 16
    let col := meshCol p.dest
    hop (4 * cl + col) (p.dest / 16 * 16 + col) 5
  else
    let r := rootNode n
    let quad := (n - 4096) % 4
    let k := bestUp s r (fun k => 4 * quad + k) p.vc
    hop (64 + k) r (4 * quad + k)

/-- The next hop at a die root: down, to the host, by one of the four ports that leave the package, or to another die. -/
def routeRoot (s : State) (n : Nat) (p : Packet) : Option (Hop × Option Nat) :=
  let die := n - 4112
  if underNode n p.dest then
    let q := quadNode p.dest
    hop (4 * ((q - 4096) % 4)) q 64
  else if p.dest = nodeHost then hop 20 nodeHost die
  else if p.dest = nodeOut then
    let k := bestOf s nodeOut (fun k => 4 * die + k) p.vc (outPorts s (BitVec.ofNat 2 die))
    hop (21 + k) nodeOut (4 * die + k)
  else
    let r := 4112 + nodeDie p.dest
    hop (16 + (r - 4112)) r (16 + die)

/-- The next hop of a packet at a node, and the up-link it takes at this level (R385). At its destination it leaves for the endpoint
behind the router; an endpoint sends into its router. Where parallel links lead down, which the destination alone fixes, it is the
lowest that is up (DESIGN CHOICE, log 35). -/
def route (s : State) (n : Nat) (p : Packet) : Option (Hop × Option Nat) :=
  if 12288 ≤ n then hop 0 (4112 + (n - 12288)) 25
  else if 8192 ≤ n then hop 0 (n - 8192) 0
  else if n = nodeHost then hop (nodeDie p.dest) (4112 + nodeDie p.dest) 20
  else if n = nodeOut then
    let k := (outPorts s (BitVec.ofNat 2 (nodeDie p.dest))).headD 0
    hop (4 * nodeDie p.dest + k) (4112 + nodeDie p.dest) (21 + k)
  else if n = p.dest then hop (if nodeIsCore n then 0 else 25) (endOf n) 0
  else if nodeIsCore n then routeMesh s n p
  else if n < 4112 then routeQuad s n p
  else routeRoot s n p

/-- R394, R397: the link that a hop crosses has not been fenced off, and is enabled: between dies, to the host, or off the package. -/
def linkOpen (s : State) (n : Nat) (h : Hop) : Bool :=
  let up := fun (root port : Nat) =>
    let d : BitVec 2 := BitVec.ofNat 2 (root - 4112)
    if port < 16 || port = 25 then true
    else if port < 20 then dieUp s d (BitVec.ofNat 2 (port - 16))
    else if port = 20 then hostUp s d
    else (outPorts s d).contains (port - 21)
  if 4112 ≤ n && n < 4116 then up n h.port else if n = nodeHost || n = nodeOut then up h.next h.inp else true

/-! ## Credits (R389) -/

/-- The buffer whose credit a flit of a channel spends: a shared one first. -/
def spend (c : Credits) (vc : BitVec 2) : Credits × Nat :=
  if 0 < c.shared then ({ c with shared := c.shared - 1 }, 4)
  else ({ c with r := vset c.r vc.toNat (vget c.r vc.toNat 0 - 1) }, vc.toNat)

/-- A router replaced. -/
def State.setRouter (s : State) (n : Nat) (r : Router) : State := { s with routers := kset s.routers n r }

/-- CREDIT_RETURN: R389. A buffer's credit reaches the sender. -/
def execCreditReturn (router inp : Nat) (buf : Nat) (s : State) : Out :=
  let r := s.router router
  let c := r.inbound inp
  .next (if c.owed.contains buf then
    let c := { c with owed := c.owed.erase buf }
    let c := if buf = 4 then { c with shared := c.shared + 1 } else { c with r := vset c.r buf (vget c.r buf 0 + 1) }
    s.setRouter router { r with inCred := kset r.inCred inp c }
  else s)

/-! ## Arbitration (R390) -/

/-- The packets whose header stands at the head of its input queue. -/
def heads (ps : List Packet) : List Packet :=
  ps.filter fun p => p.sent == 0 && (ps.find? fun q => q.inp == p.inp && q.vc == p.vc).any fun q => q.pid == p.pid

/-- The next flit of a channel has a credit at the input port that a hop leads to (R389). -/
def hasCredit (s : State) (vc : BitVec 2) (to_ : Nat × Nat) : Bool := decide (0 < ((s.router to_.1).inbound to_.2).room vc)

/-- Where a hop leads. -/
def Hop.dest (h : Hop) : Nat × Nat := (h.next, h.inp)

/-- The candidates of an output port (R390). -/
def candidates (s : State) (n port : Nat) : List Packet :=
  (heads (s.router n).pkts).filter fun p => match route s n p with
    | some (h, _) => h.port == port && linkOpen s n h && hasCredit s p.vc h.dest
    | none => false

/-- R390: p goes before q among urgent candidates: it has waited longer, or its input port, or then its channel, is lower. -/
def goesFirst (p q : Packet) : Bool :=
  decide (q.wait < p.wait) ||
    (p.wait == q.wait && (decide (p.inp < q.inp) || (p.inp == q.inp && decide (p.vc < q.vc))))

/-- The urgent candidate that an output grants. -/
def urgentOf (cs : List Packet) : Option Packet :=
  (cs.filter (·.urg)).foldl (fun b p => match b with | some q => if goesFirst p q then some p else b | none => some p) none

/-- The first value from a start, wrapping, that a test accepts. -/
def firstFrom (n start : Nat) (f : Nat → Bool) : Option Nat := ((List.range n).map fun i => (start + i) % n).find? f

/-- R390: the packet that the output grants, and the arbiter after it. -/
def choose (vw : Vector Nat 4) (r : Router) (port : Nat) (cs : List Packet) : Option (Packet × Router) :=
  match urgentOf cs with
  | some p => some (p, r)
  | none =>
    let cred := (kget r.cred port).getD vw
    let has := fun v => cs.any fun p => p.vc.toNat == v
    let cred := if (List.range 4).any fun v => has v && decide (0 < vget cred v 0) then cred else vw
    match firstFrom 4 ((kget r.vptr port).getD 0) fun v => has v && decide (0 < vget cred v 0) with
    | none => none
    | some v =>
      let key := 4 * port + v
      match firstFrom 128 ((kget r.iptr key).getD 0) fun i => cs.any fun p => p.vc.toNat == v && p.inp == i with
      | none => none
      | some i =>
        (cs.find? fun p => p.vc.toNat == v && p.inp == i).map fun p =>
          let c := vget cred v 0 - 1
          (p, { r with cred := kset r.cred port (vset cred v c), iptr := kset r.iptr key ((i + 1) % 128),
                       vptr := kset r.vptr port (if 0 < c then v else (v + 1) % 4) })

/-- The event counts of a flit that a router sends (R404, R405). -/
def countFlit (s : State) (n : Nat) (vc : BitVec 2) : State :=
  if nodeIsCore n then s.countCore (BitVec.ofNat 12 n) 23 1
  else if 4112 ≤ n && n < 4116 then s.countDie (BitVec.ofNat 2 (n - 4112)) (6 + vc.toNat)
  else s

/-- The next flit of a packet leaves its router, whose sender is owed the buffer it stood in. The packet holds the
output from its header to its last flit (R390). -/
def flitOut (r : Router) (port : Nat) (p : Packet) (dest : Nat × Nat) : Router :=
  let c := r.inbound p.inp
  let last := p.sent + 1 == p.flits
  { r with
    pkts := if last then r.pkts.filter fun q => q.pid != p.pid else r.pkts.map fun q => if q.pid == p.pid then { q with sent := q.sent + 1, bufs := q.bufs.drop 1 } else q
    inCred := if p.bufs.isEmpty then r.inCred else kset r.inCred p.inp { c with owed := c.owed ++ p.bufs.take 1 }
    held := if last then r.held.filter fun g => g.port != port
      else if p.sent == 0 then r.held ++ [{ port := port, pid := p.pid, dest := dest }] else r.held }

/-- A flit comes to an input port, having spent a credit. An endpoint takes it out of its buffer at once (R388); at a router the
header is a packet of its own, a later flit stands behind its header. -/
def flitIn (s : State) (p : Packet) (up : Option Nat) (n i : Nat) : State :=
  let r := s.router n
  let b := spend (r.inbound i) p.vc
  if 4116 ≤ n then s.setRouter n { r with inCred := kset r.inCred i { b.1 with owed := b.1.owed ++ [b.2] } }
  else
    s.setRouter n { r with
      pkts := if p.sent == 0 then r.pkts ++ [{ p with inp := i, up := up, bufs := [b.2], got := 1, wait := 0 }]
        else r.pkts.map fun q => if q.pid == p.pid then
          { q with got := q.got + 1, bufs := q.bufs ++ [b.2] } else q
      inCred := kset r.inCred i b.1 }

/-- The next flit of a packet crosses an output. -/
def sendFlit (s : State) (n port : Nat) (p : Packet) (dest : Nat × Nat) (up : Option Nat) : State :=
  flitIn (countFlit (s.setRouter n (flitOut (s.router n) port p dest)) n p.vc) p up dest.1 dest.2

/-- The packet that holds an output port, and where it goes. -/
def Router.holder (r : Router) (port : Nat) : Option (Grant × Packet) :=
  (r.held.find? (·.port == port)).bind fun g =>
    (r.pkts.find? fun p => p.pid == g.pid).map fun p => (g, p)

/-- OUTPUT_ARBITRATION: R390. The output sends at most one flit: the next one of the packet that holds it, or the header of
the packet that it grants. -/
def execOutputArbitration (router port : Nat) (s : State) : Out :=
  .next (match (s.router router).holder port with
    | some (g, p) => if p.sent < p.got && hasCredit s p.vc g.dest && linkOpen s router ⟨port, g.dest.1, g.dest.2⟩ then sendFlit s router port p g.dest none else s
    | none =>
      match choose s.vw (s.router router) port (candidates s router port) with
      | none => s
      | some (p, r) => match route s router p with
        | some (h, up) => sendFlit (s.setRouter router r) router port p h.dest up
        | none => s)

/-- URG_PROMOTION: R391. The packet at the head of an input queue has waited AGE cycles. -/
def execUrgPromotion (router inp : Nat) (vc : BitVec 2) (s : State) : Out :=
  let r := s.router router
  .next (match r.pkts.find? fun p => p.inp == inp && p.vc == vc with
    | some p =>
      if p.urg || p.sent != 0 || decide (p.wait < s.age) then s
      else
        let s := s.setRouter router { r with pkts := r.pkts.map fun q => if q.pid == p.pid then { q with urg := true } else q }
        if nodeIsCore router then (s.countCore (BitVec.ofNat 12 router) 24 1).countDie (dieOf (BitVec.ofNat 12 router)) 10
        else if router < 4112 then s.countDie (BitVec.ofNat 2 ((router - 4096) / 4)) 10
        else if router < 4116 then s.countDie (BitVec.ofNat 2 (router - 4112)) 10
        else s
    | none => s)

/-- FABRIC_CONFIG: R390, R391. -/
def execFabricConfig (vw : List Nat) (age : Nat) (s : State) : Out :=
  .next (if vw.length = 4 && vw.all (fun w => 1 ≤ w && w ≤ 15) && decide (64 ≤ age) && decide (age ≤ 4095) then
    ({ s with vw := Vector.ofFn fun i => vw.getD i.val 1, age := age } : State).report (.ok "FABRIC" 0)
  else s.report (.refused "FABRIC" 0))

/-- The dies that a UCIe link meets: two dies, or one and the host. -/
def linkDies (link : Nat) : List (BitVec 2) :=
  if link < 16 then [BitVec.ofNat 2 (link / 4), BitVec.ofNat 2 link] else if link < 20 then [BitVec.ofNat 2 link] else []

/-- LINK_FAILURE: R394. The link is reported and fenced off, once its retries, whose number is free, are exhausted (R405); a die
without its host link holds its records. -/
def execLinkFailure (link : Nat) (s : State) : Out :=
  .next (if s.downLinks.contains link then s
  else
    let s := { s with downLinks := s.downLinks ++ [link], hostOut := s.hostOut ++ [.unit link] }
    (linkDies link).foldl (fun s d => s.modDie d fun x =>
      ({ x with hostUp := x.hostUp && decide (link < 16) } : Die).countMany 12 (Config.linkRetries link)) s)

/-! ## Packets whose way is cut (R394) -/

/-- A packet leaves the fabric wherever its flits stand: their buffers are free again. -/
def Router.purge (r : Router) (pid : Nat) : Router :=
  { r with
    pkts := r.pkts.filter fun q => q.pid != pid
    held := r.held.filter fun g => g.pid != pid
    inCred := (r.pkts.filter fun q => q.pid == pid).foldl (fun m q =>
      let c := (Router.inbound { r with inCred := m } q.inp)
      if q.bufs.isEmpty then m else kset m q.inp { c with owed := c.owed ++ q.bufs }) r.inCred }

/-- The packets at a node that can go no further: one at the head of its queue whose next link is fenced off, or one that holds an
output whose link has been fenced off since. -/
def cutAt (s : State) (n : Nat) : List Nat :=
  ((heads (s.router n).pkts).filter fun p => match route s n p with
    | some (h, _) => !linkOpen s n h
    | none => false).map (·.pid) ++
  ((s.router n).held.filter fun g => !linkOpen s n ⟨g.port, g.dest.1, g.dest.2⟩).map (·.pid)

/-- R394: a packet whose path no longer exists is discarded, and its queue goes on; its operation is answered where it would be performed
(DESIGN CHOICE, log 35). -/
def dropCut (s : State) : State :=
  let pids := ((List.range 6).map fun i => cutAt s (4112 + i)).flatten
  if pids.isEmpty then s
  else { s with routers := s.routers.map fun p => (p.1, pids.foldl Router.purge p.2) }

/-! ## A cycle of the fabric -/

/-- The output ports that have something to send at a node. -/
def wantedPorts (s : State) (n : Nat) : List Nat :=
  ((s.router n).held.map (·.port) ++ (heads (s.router n).pkts).filterMap fun p => (route s n p).map (·.1.port)).eraseDups

/-- R391: the cycle counts for each header that stands at the head of its queue, and promotes one that has waited AGE cycles. -/
def ageNode (s : State) (n : Nat) : State :=
  let r := s.router n
  let hs := heads r.pkts
  let s := s.setRouter n { r with pkts := r.pkts.map fun p => if hs.any (fun q => q.pid == p.pid) then { p with wait := p.wait + 1 } else p }
  if 4116 ≤ n then s else hs.foldl (fun s p => match execUrgPromotion n p.inp p.vc s with | .next t => t | _ => s) s

/-- R405: a cycle in which a shared pool at a die root is exhausted. -/
def countPools (s : State) : State :=
  (List.range 4).foldl (fun s d =>
    if (s.router (4112 + d)).inCred.any fun c => c.2.shared == 0 then s.countDie (BitVec.ofNat 2 d) 11 else s) s

/-- One cycle of every router and endpoint: each output sends at most one flit, headers that wait count the cycle, and credits
return. -/
def fabricCycle (s : State) : State :=
  let s := dropCut s
  let ns := (s.routers.filter fun p => !p.2.pkts.isEmpty || p.2.inCred.any fun c => !c.2.owed.isEmpty).map (·.1)
  if ns.isEmpty then s
  else
    let run := fun (s : State) (o : Out) => match o with | .next t => t | _ => s
    let s := ns.foldl (fun s n => (wantedPorts s n).foldl (fun s p => run s (execOutputArbitration n p s)) s) s
    let s := ns.foldl ageNode (countPools s)
    (s.routers.map (·.1)).foldl (fun s n => (s.router n).inCred.foldl (fun s c => c.2.owed.foldl (fun s b => run s (execCreditReturn n c.1 b s)) s) s) s

end Sys2Proof.Machine
end

