-- ==== Sys2Proof/Machine/Dispatch.lean ====
section
/-! DEFINITION. The dispatch: one arm per constructor of Instr, each the call of its meaning. -/

namespace Sys2Proof.Machine

/-- One step of the instruction set or one event of the device. -/
def exec (i : Instr) (s : State) : Host.Outcome State Fault Refusal :=
  match i with
  | .nop => Sys2Proof.Machine.execNop s
  | .nopA => Sys2Proof.Machine.execNopA s
  | .br p n d => Sys2Proof.Machine.execBr p n d s
  | .jmp d => Sys2Proof.Machine.execJmp d s
  | .call d => Sys2Proof.Machine.execCall d s
  | .jmpi a => Sys2Proof.Machine.execJmpi a s
  | .ret => Sys2Proof.Machine.execRet s
  | .loop a d => Sys2Proof.Machine.execLoop a d s
  | .park a => Sys2Proof.Machine.execPark a s
  | .hstart a b => Sys2Proof.Machine.execHstart a b s
  | .hend => Sys2Proof.Machine.execHend s
  | .hjoin a b => Sys2Proof.Machine.execHjoin a b s
  | .hsave a b => Sys2Proof.Machine.execHsave a b s
  | .hload a b => Sys2Proof.Machine.execHload a b s
  | .hresume a => Sys2Proof.Machine.execHresume a s
  | .trap a => Sys2Proof.Machine.execTrap a s
  | .eret => Sys2Proof.Machine.execEret s
  | .hret => Sys2Proof.Machine.execHret s
  | .upret => Sys2Proof.Machine.execUpret s
  | .brk => Sys2Proof.Machine.execBrk s
  | .tmark a => Sys2Proof.Machine.execTmark a s
  | .cnt a => Sys2Proof.Machine.execCnt a s
  | .pshare a b => Sys2Proof.Machine.execPshare a b s
  | .halt => Sys2Proof.Machine.execHalt s
  | .crr a n => Sys2Proof.Machine.execCrr a n s
  | .crw a n => Sys2Proof.Machine.execCrw a n s
  | .crs a n => Sys2Proof.Machine.execCrs a n s
  | .crc a n => Sys2Proof.Machine.execCrc a n s
  | .ld w a b e => Sys2Proof.Machine.execLd w a b e s
  | .ldn w a b e => Sys2Proof.Machine.execLdn w a b e s
  | .st w a b e => Sys2Proof.Machine.execSt w a b e s
  | .ldx a b c w => Sys2Proof.Machine.execLdx a b c w s
  | .stx a b c w => Sys2Proof.Machine.execStx a b c w s
  | .vld v b e => Sys2Proof.Machine.execVld v b e s
  | .vst v b e => Sys2Proof.Machine.execVst v b e s
  | .vldf v b c t => Sys2Proof.Machine.execVldf v b c t s
  | .vstf v b c m t => Sys2Proof.Machine.execVstf v b c m t s
  | .vldt v b c t => Sys2Proof.Machine.execVldt v b c t s
  | .vgath v b x t => Sys2Proof.Machine.execVgath v b x t s
  | .vscat v b x t => Sys2Proof.Machine.execVscat v b x t s
  | .amo a b c w op => Sys2Proof.Machine.execAmo a b c w op s
  | .acas a b c w => Sys2Proof.Machine.execAcas a b c w s
  | .red b c w op => Sys2Proof.Machine.execRed b c w op s
  | .fence k => Sys2Proof.Machine.execFence k s
  | .post a b c n => Sys2Proof.Machine.execPost a b c n s
  | .recv a b => Sys2Proof.Machine.execRecv a b s
  | .ipeek a => Sys2Proof.Machine.execIpeek a s
  | .klook a b => Sys2Proof.Machine.execKlook a b s
  | .kclaim a b c => Sys2Proof.Machine.execKclaim a b c s
  | .kready a => Sys2Proof.Machine.execKready a s
  | .kwait a b c => Sys2Proof.Machine.execKwait a b c s
  | .kunbind a b => Sys2Proof.Machine.execKunbind a b s
  | .kpin a b => Sys2Proof.Machine.execKpin a b s
  | .kunpin a b => Sys2Proof.Machine.execKunpin a b s
  | .kscan a => Sys2Proof.Machine.execKscan a s
  | .kload a b c => Sys2Proof.Machine.execKload a b c s
  | .kinv a => Sys2Proof.Machine.execKinv a s
  | .kwin d a b w1 base => Sys2Proof.Machine.execKwin d a b w1 base s
  | .kcfg sz cnt1 off => Sys2Proof.Machine.execKcfg sz cnt1 off s
  | .rclaim a b c => Sys2Proof.Machine.execRclaim a b c s
  | .rpush a => Sys2Proof.Machine.execRpush a s
  | .rwait a b c => Sys2Proof.Machine.execRwait a b c s
  | .rrel a => Sys2Proof.Machine.execRrel a s
  | .rstat a b => Sys2Proof.Machine.execRstat a b s
  | .rset a b => Sys2Proof.Machine.execRset a b s
  | .cpset a b => Sys2Proof.Machine.execCpset a b s
  | .cpgo a b => Sys2Proof.Machine.execCpgo a b s
  | .cpwp a b => Sys2Proof.Machine.execCpwp a b s
  | .cpwait a b c => Sys2Proof.Machine.execCpwait a b c s
  | .cpabort a => Sys2Proof.Machine.execCpabort a s
  | .mbinc a b => Sys2Proof.Machine.execMbinc a b s
  | .mbwait a b c => Sys2Proof.Machine.execMbwait a b c s
  | .mbrd a b => Sys2Proof.Machine.execMbrd a b s
  | .mbset a b => Sys2Proof.Machine.execMbset a b s
  | .spend a => Sys2Proof.Machine.execSpend a s
  | .amsg a b c => Sys2Proof.Machine.execAmsg a b c s
  | .wfield a n => Sys2Proof.Machine.execWfield a n s
  | .tgnew a b => Sys2Proof.Machine.execTgnew a b s
  | .tgdone => Sys2Proof.Machine.execTgdone s
  | .tglaunch a b => Sys2Proof.Machine.execTglaunch a b s
  | .tgstat a b => Sys2Proof.Machine.execTgstat a b s
  | .spawn a d => Sys2Proof.Machine.execSpawn a d s
  | .apxOn p b => Sys2Proof.Machine.execApxOn p b s
  | .apxIn a => Sys2Proof.Machine.execApxIn a s
  | .apxOut k b => Sys2Proof.Machine.execApxOut k b s
  | .apxRes a k => Sys2Proof.Machine.execApxRes a k s
  | .apxEnd => Sys2Proof.Machine.execApxEnd s
  | .apxInv a => Sys2Proof.Machine.execApxInv a s
  | .apxSt a b => Sys2Proof.Machine.execApxSt a b s
  | .apxLd a b => Sys2Proof.Machine.execApxLd a b s
  | .cbPush a b c => Sys2Proof.Machine.execCbPush a b c s
  | .cbPull a b c => Sys2Proof.Machine.execCbPull a b c s
  | .cbDone a b => Sys2Proof.Machine.execCbDone a b s
  | .cbEnd a => Sys2Proof.Machine.execCbEnd a s
  | .cbSt a b => Sys2Proof.Machine.execCbSt a b s
  | .add d a b g => Sys2Proof.Machine.execAdd d a b g s
  | .sub d a b g => Sys2Proof.Machine.execSub d a b g s
  | .mul d a b g => Sys2Proof.Machine.execMul d a b g s
  | .mulh d a b g => Sys2Proof.Machine.execMulh d a b g s
  | .mulhn d a b g => Sys2Proof.Machine.execMulhn d a b g s
  | .div d a b g => Sys2Proof.Machine.execDiv d a b g s
  | .divn d a b g => Sys2Proof.Machine.execDivn d a b g s
  | .rem d a b g => Sys2Proof.Machine.execRem d a b g s
  | .remn d a b g => Sys2Proof.Machine.execRemn d a b g s
  | .and d a b g => Sys2Proof.Machine.execAnd d a b g s
  | .or d a b g => Sys2Proof.Machine.execOr d a b g s
  | .xor d a b g => Sys2Proof.Machine.execXor d a b g s
  | .shl d a b g => Sys2Proof.Machine.execShl d a b g s
  | .shr d a b g => Sys2Proof.Machine.execShr d a b g s
  | .sra d a b g => Sys2Proof.Machine.execSra d a b g s
  | .min d a b g => Sys2Proof.Machine.execMin d a b g s
  | .max d a b g => Sys2Proof.Machine.execMax d a b g s
  | .minn d a b g => Sys2Proof.Machine.execMinn d a b g s
  | .maxn d a b g => Sys2Proof.Machine.execMaxn d a b g s
  | .clz d a g => Sys2Proof.Machine.execClz d a g s
  | .ctz d a g => Sys2Proof.Machine.execCtz d a g s
  | .popc d a g => Sys2Proof.Machine.execPopc d a g s
  | .sel d a b p => Sys2Proof.Machine.execSel d a b p s
  | .addi d a im => Sys2Proof.Machine.execAddi d a im s
  | .andi d a im => Sys2Proof.Machine.execAndi d a im s
  | .ori d a im => Sys2Proof.Machine.execOri d a im s
  | .xori d a im => Sys2Proof.Machine.execXori d a im s
  | .shli d a n => Sys2Proof.Machine.execShli d a n s
  | .shri d a n => Sys2Proof.Machine.execShri d a n s
  | .srai d a n => Sys2Proof.Machine.execSrai d a n s
  | .movi d im => Sys2Proof.Machine.execMovi d im s
  | .movh d im => Sys2Proof.Machine.execMovh d im s
  | .movl d m im => Sys2Proof.Machine.execMovl d m im s
  | .cmp p a b g c => Sys2Proof.Machine.execCmp p a b g c s
  | .cmpi p c a im => Sys2Proof.Machine.execCmpi p c a im s
  | .bfx d a pos len sb => Sys2Proof.Machine.execBfx d a pos len sb s
  | .bfi d a pos len z => Sys2Proof.Machine.execBfi d a pos len z s
  | .padd d a b g => Sys2Proof.Machine.execPadd d a b g s
  | .paddi d a im => Sys2Proof.Machine.execPaddi d a im s
  | .pidx d a b g => Sys2Proof.Machine.execPidx d a b g s
  | .ptag d a f l => Sys2Proof.Machine.execPtag d a f l s
  | .pget d a k g => Sys2Proof.Machine.execPget d a k g s
  | .pchk p a b g => Sys2Proof.Machine.execPchk p a b g s
  | .pmk d a b g => Sys2Proof.Machine.execPmk d a b g s
  | .vadd d a b m t => Sys2Proof.Machine.execVadd d a b m t s
  | .vsub d a b m t => Sys2Proof.Machine.execVsub d a b m t s
  | .vmul d a b m t => Sys2Proof.Machine.execVmul d a b m t s
  | .vfma d a b c m t => Sys2Proof.Machine.execVfma d a b c m t s
  | .vfms d a b c m t => Sys2Proof.Machine.execVfms d a b c m t s
  | .vnfma d a b c m t => Sys2Proof.Machine.execVnfma d a b c m t s
  | .vmin d a b m t => Sys2Proof.Machine.execVmin d a b m t s
  | .vmax d a b m t => Sys2Proof.Machine.execVmax d a b m t s
  | .vabs d a m t => Sys2Proof.Machine.execVabs d a m t s
  | .vneg d a m t => Sys2Proof.Machine.execVneg d a m t s
  | .vdiv d a b m => Sys2Proof.Machine.execVdiv d a b m s
  | .vsqrt d a m => Sys2Proof.Machine.execVsqrt d a m s
  | .vrcp d a m => Sys2Proof.Machine.execVrcp d a m s
  | .vrsq d a m => Sys2Proof.Machine.execVrsq d a m s
  | .vexp2 d a m => Sys2Proof.Machine.execVexp2 d a m s
  | .vlog2 d a m => Sys2Proof.Machine.execVlog2 d a m s
  | .vcvt d a x sb m t r => Sys2Proof.Machine.execVcvt d a x sb m t r s
  | .vcmp p a b m t c => Sys2Proof.Machine.execVcmp p a b m t c s
  | .vsel d a b m t => Sys2Proof.Machine.execVsel d a b m t s
  | .vsum d a m t => Sys2Proof.Machine.execVsum d a m t s
  | .vmaxr d a m t => Sys2Proof.Machine.execVmaxr d a m t s
  | .vbc d g m t => Sys2Proof.Machine.execVbc d g m t s
  | .vins d g l m t => Sys2Proof.Machine.execVins d g l m t s
  | .vext a g l m t => Sys2Proof.Machine.execVext a g l m t s
  | .vperm d a b m t => Sys2Proof.Machine.execVperm d a b m t s
  | .vslide d a b n m t => Sys2Proof.Machine.execVslide d a b n m t s
  | .vpack d a b m t => Sys2Proof.Machine.execVpack d a b m t s
  | .vunpack d a h m t => Sys2Proof.Machine.execVunpack d a h m t s
  | .vbsc d a l f m t r => Sys2Proof.Machine.execVbsc d a l f m t r s
  | .vand d a b m t => Sys2Proof.Machine.execVand d a b m t s
  | .vor d a b m t => Sys2Proof.Machine.execVor d a b m t s
  | .vxor d a b m t => Sys2Proof.Machine.execVxor d a b m t s
  | .vshift d a b m t => Sys2Proof.Machine.execVshift d a b m t s
  | .mmac acc na nb fresh ka kb ra rb mode => Sys2Proof.Machine.execMmac acc na nb fresh ka kb ra rb mode s
  | .mzero acc => Sys2Proof.Machine.execMzero acc s
  | .mget acc a => Sys2Proof.Machine.execMget acc a s
  | .mput acc a => Sys2Proof.Machine.execMput acc a s
  | .mwait a => Sys2Proof.Machine.execMwait a s
  | .mstat d => Sys2Proof.Machine.execMstat d s
  | .unassignedEncoding w0 w1 => Sys2Proof.Machine.execUnassignedEncoding w0 w1 s
  | .rotationBoundary core => Sys2Proof.Machine.execRotationBoundary core s
  | .serviceTurn core => Sys2Proof.Machine.execServiceTurn core s
  | .serviceRequestArrival id => Sys2Proof.Machine.execServiceRequestArrival id s
  | .ringCancel id => Sys2Proof.Machine.execRingCancel id s
  | .remoteAccessArrival id => Sys2Proof.Machine.execRemoteAccessArrival id s
  | .farOperationArrival id => Sys2Proof.Machine.execFarOperationArrival id s
  | .acknowledgement id => Sys2Proof.Machine.execAcknowledgement id s
  | .longResultReturn core slot id => Sys2Proof.Machine.execLongResultReturn core slot id s
  | .waitConditionMet core slot => Sys2Proof.Machine.execWaitConditionMet core slot s
  | .waitx core slot => Sys2Proof.Machine.execWaitx core slot s
  | .chunkCommit core slot => Sys2Proof.Machine.execChunkCommit core slot s
  | .privilegedTrap core slot => Sys2Proof.Machine.execPrivilegedTrap core slot s
  | .upcallRecord core slot => Sys2Proof.Machine.execUpcallRecord core slot s
  | .upcallDelivery core => Sys2Proof.Machine.execUpcallDelivery core s
  | .remoteError id => Sys2Proof.Machine.execRemoteError id s
  | .errorRecordAck die n => Sys2Proof.Machine.execErrorRecordAck die n s
  | .registerContextMessage core slot => Sys2Proof.Machine.execRegisterContextMessage core slot s
  | .contextArrival id => Sys2Proof.Machine.execContextArrival id s
  | .lateReplyForward core n => Sys2Proof.Machine.execLateReplyForward core n s
  | .coreAssign core tenant pc spill cap => Sys2Proof.Machine.execCoreAssign core tenant pc spill cap s
  | .coreUnassign core => Sys2Proof.Machine.execCoreUnassign core s
  | .coreResume core => Sys2Proof.Machine.execCoreResume core s
  | .pageInvalidation tenant pool die va large => Sys2Proof.Machine.execPageInvalidation tenant pool die va large s
  | .pageMigration tenant die va large frame => Sys2Proof.Machine.execPageMigration tenant die va large frame s
  | .contextMigration core slot dest => Sys2Proof.Machine.execContextMigration core slot dest s
  | .save core area spill cap => Sys2Proof.Machine.execSave core area spill cap s
  | .withdrawalAnswer core slot => Sys2Proof.Machine.execWithdrawalAnswer core slot s
  | .saveAreaWrite core => Sys2Proof.Machine.execSaveAreaWrite core s
  | .restore core area spill cap => Sys2Proof.Machine.execRestore core area spill cap s
  | .restoreComplete core => Sys2Proof.Machine.execRestoreComplete core s
  | .divertedArrival id => Sys2Proof.Machine.execDivertedArrival id s
  | .gangHold core tag => Sys2Proof.Machine.execGangHold core tag s
  | .gangHoldLift core tag => Sys2Proof.Machine.execGangHoldLift core tag s
  | .hostActiveMessage core q pc w1 w2 tenant => Sys2Proof.Machine.execHostActiveMessage core q pc w1 w2 tenant s
  | .activeMessageArrival id => Sys2Proof.Machine.execActiveMessageArrival id s
  | .slotViewReport core => Sys2Proof.Machine.execSlotViewReport core s
  | .launchPlacement die => Sys2Proof.Machine.execLaunchPlacement die s
  | .launchCompletion die tag => Sys2Proof.Machine.execLaunchCompletion die tag s
  | .gangStart die => Sys2Proof.Machine.execGangStart die s
  | .stealRequest victim thief => Sys2Proof.Machine.execStealRequest victim thief s
  | .stealNone thief => Sys2Proof.Machine.execStealNone thief s
  | .stealBackoffExpiry core => Sys2Proof.Machine.execStealBackoffExpiry core s
  | .copyWrite core ch => Sys2Proof.Machine.execCopyWrite core ch s
  | .copyComplete core ch => Sys2Proof.Machine.execCopyComplete core ch s
  | .copyError core ch => Sys2Proof.Machine.execCopyError core ch s
  | .accordCommandBegin half => Sys2Proof.Machine.execAccordCommandBegin half s
  | .accordCommandRetire half => Sys2Proof.Machine.execAccordCommandRetire half s
  | .mgetTileRead core => Sys2Proof.Machine.execMgetTileRead core s
  | .mgetComplete core => Sys2Proof.Machine.execMgetComplete core s
  | .surrogateResult core slot => Sys2Proof.Machine.execSurrogateResult core slot s
  | .heldConstraintReturn core slot => Sys2Proof.Machine.execHeldConstraintReturn core slot s
  | .qwgtWrite core x => Sys2Proof.Machine.execQwgtWrite core x s
  | .slotOwnWrite core x => Sys2Proof.Machine.execSlotOwnWrite core x s
  | .kmCfgWrite core x => Sys2Proof.Machine.execKmCfgWrite core x s
  | .accWgtWrite core x => Sys2Proof.Machine.execAccWgtWrite core x s
  | .trapCauseWrite core x => Sys2Proof.Machine.execTrapCauseWrite core x s
  | .dbgBpWrite core x => Sys2Proof.Machine.execDbgBpWrite core x s
  | .dbgWpWrite core x => Sys2Proof.Machine.execDbgWpWrite core x s
  | .sillageAccept die => Sys2Proof.Machine.execSillageAccept die s
  | .loss die => Sys2Proof.Machine.execLoss die s
  | .traceFrame die => Sys2Proof.Machine.execTraceFrame die s
  | .outputArbitration router port => Sys2Proof.Machine.execOutputArbitration router port s
  | .urgPromotion router inp vc => Sys2Proof.Machine.execUrgPromotion router inp vc s
  | .creditReturn router inp buf => Sys2Proof.Machine.execCreditReturn router inp buf s
  | .clusterFreeze core => Sys2Proof.Machine.execClusterFreeze core s
  | .freeze cluster => Sys2Proof.Machine.execFreeze cluster s
  | .release cluster who => Sys2Proof.Machine.execRelease cluster who s
  | .step core slot => Sys2Proof.Machine.execStep core slot s
  | .filterProgramLoad die words wgate => Sys2Proof.Machine.execFilterProgramLoad die words wgate s
  | .filterCounterRead die n => Sys2Proof.Machine.execFilterCounterRead die n s
  | .linkFailure link => Sys2Proof.Machine.execLinkFailure link s
  | .fabricConfig vw age => Sys2Proof.Machine.execFabricConfig vw age s
  | .deviceReset => Sys2Proof.Machine.execDeviceReset s
  | .sramSelfTest failing => Sys2Proof.Machine.execSramSelfTest failing s
  | .ucieTraining devId hdm => Sys2Proof.Machine.execUcieTraining devId hdm s
  | .accordCalibration => Sys2Proof.Machine.execAccordCalibration s
  | .firmwareVerification pub digest body sig => Sys2Proof.Machine.execFirmwareVerification pub digest body sig s
  | .identityDerivation => Sys2Proof.Machine.execIdentityDerivation s
  | .normalService => Sys2Proof.Machine.execNormalService s
  | .devIdWrite x => Sys2Proof.Machine.execDevIdWrite x s
  | .devSvcWrite die cause => Sys2Proof.Machine.execDevSvcWrite die cause s
  | .powerLimit high => Sys2Proof.Machine.execPowerLimit high s
  | .trapVectorWrite core pc => Sys2Proof.Machine.execTrapVectorWrite core pc s
  | .attestationRequest nonce => Sys2Proof.Machine.execAttestationRequest nonce s
  | .dieCounterAccess die n sel => Sys2Proof.Machine.execDieCounterAccess die n sel s
  | .softError core slot kind what => Sys2Proof.Machine.execSoftError core slot kind what s
  | .unitFence unit => Sys2Proof.Machine.execUnitFence unit s
  | .traceLaneDown lane up => Sys2Proof.Machine.execTraceLaneDown lane up s

end Sys2Proof.Machine
end

