-- ==== Sys2Proof/Machine/Clock.lean ====
section
/-! DEFINITION. The model's clock: a context slot's cycle (R35, R36, R52, R68, R338-R346, R448, R458), the service
turn's cycle and the rotation boundary, and the cycle in which the engines and units of a core go on. -/

namespace Sys2Proof.Machine

/-- The state of an outcome that is a next state. -/
def outState (s : State) (o : Out) : State := match o with | .next t => t | _ => s

/-- One cycle of a core: its count, and the results with a fixed figure that are due (R100, R404). DESIGN CHOICE (log 85): they are written
before the turn that falls in that cycle, whose bundle finds them. -/
def beginCycle (s : State) (c : CoreId) : State :=
  let s := (s.countCore c 1 1).modCore c fun k => { k with cyc := k.cyc + 1 }
  allSlots.foldl (fun s n =>
    ((s.ctx c n).long.filter fun l => l.due.isSome).foldl (fun s l => settleLong s c n l) s) s

/-- R166, R168: the chunks of some slots of a core that have ended commit, in ascending order of slots. -/
def finishSlots (c : CoreId) (ns : List SlotNo) (s : State) : State := ns.foldl (fun s n => finishChunk s c n) s

/-- The end of a cycle of a core, that of slot n: chunks that have ended commit (R166), and the contexts that wait count it
(R52, R69), but one whose bundle issued in it, and a stepped one, which counts its turn alone (R458). -/
def endCycle (s : State) (c : CoreId) (n : SlotNo) : State :=
  allSlots.foldl (fun s m =>
    if (m == n && (s.ctx c m).cls == 1) || (s.core c).stepping == some m then s else tickWait s c m)
    (finishSlots c allSlots s)

/-! ## A context's turn -/

/-- The waits that a slot is classed WAIT-MSG in (R448). -/
def isMsgWait : Instr → Bool
  | .recv _ _ | .park _ | .mbwait _ _ _ | .rwait _ _ _ | .rclaim _ _ _ | .kwait _ _ _ | .cbPull _ _ _ | .cbPush _ _ _ | .hjoin _ _ => true
  | _ => false

/-- The class of a slot that issues nothing, by its context at its cycle (R448). -/
def idleClass (x : Ctx) : BitVec 2 :=
  if x.st == .vacant then 0
  else if x.isWaiting && (match x.wait with | some w => isMsgWait w.i | none => false) then 3
  else 2

/-- R404, R448: the class of the slot, decided once its turn is over. -/
def closeTurn (x : Ctx) (c : CoreId) (n : SlotNo) (s : State) : State :=
  if (s.ctx c n).cls == 1 then s
  else
    let s := s.modCtx c n fun y => { y with cls := idleClass x }
    if idleClass x = 0 then s else s.countCtx c n (if idleClass x = 3 then 5 else 4)

/-- R339: the held bundle waits for operations of the replay set, not issued again yet or not returned. -/
def Ctx.replayOut (x : Ctx) : Bool := x.replaying && (!x.replay.isEmpty || x.long.any fun l => x.replayIds.contains l.id)

/-- R339: no operation of the replay set is out. -/
def endReplay (s : State) (c : CoreId) (n : SlotNo) : State :=
  if (s.ctx c n).replaying then s.modCtx c n fun x => { x with replaying := false, replayIds := [] } else s

/-- R171: a context squashed twice in succession issues only with the token. -/
def needsToken (s : State) (c : CoreId) (n : SlotNo) : Bool := 2 ≤ (s.ctx c n).squashes && (s.die (dieOf c)).token != some (c, n)

/-- R338, R342: the trap that a live context takes in this turn, whose bundle is its next one. While BUSY holds the trap, an upcall may
take the place of that bundle (R346). -/
def trapDue (s : State) (c : CoreId) (n : SlotNo) : Option Pend :=
  (s.ctx c n).nextPend.filter fun p => !(n == 0 && upcallDue (s.core c) && heldByBusy s c n p.cause)

/-- A live context issues, or does what comes before its next bundle. -/
def liveTurn (ex : Instr → State → Out) (s : State) (c : CoreId) (n : SlotNo) : Out :=
  let x := s.ctx c n
  if !x.live || x.later || (x.chunk.map (·.ending)).getD false then .next s
  else if x.compl.isSome then .next (complTurn s c n (x.compl.getD false))
  else
    match trapDue s c n with
    | some p => .next (takePend s c n p)
    | none =>
      if n = 0 && upcallDue (s.core c) then
        match (s.core c).r.upcPend with
        | h :: _ => .next (deliverUpcall s c h)
        | [] => .next s
      else if x.replayOut then .next (if x.replay.isEmpty then s else replayAll s c n)
      else
        let s := endReplay s c n
        if needsToken s c n then
          let s := requestToken s c n
          if needsToken s c n then .next s else issueTurn ex s c n
        else issueTurn ex s c n

/-- R355, R356: a wait that a pre-emption withdrew from its owner asks again. -/
def askAgain (s : State) (c : CoreId) (n : SlotNo) (w : Wait) : State :=
  if w.left == some 0 then s
  else match w.req.bind s.req with
  | some r => match r.reply with
    | .withdrawn _ =>
      let s := s.dropReq r.id
      let q := { r with id := s.nextId, reply := .none, cancel := false }
      (s.send q).modCtx c n fun x => { x with wait := some { w with req := some q.id } }
    | _ => s
  | none =>
    if isCbWait w.i then
      let x := s.stream (dieOf c) (wSnum w)
      if x.waiters.contains (c, n) then s else s.setStream (dieOf c) (wSnum w) { x with waiters := x.waiters ++ [(c, n)] }
    else s

/-- The turn of a context by its state (R52). -/
def ctxTurn (ex : Instr → State → Out) (s : State) (c : CoreId) (n : SlotNo) : Out :=
  let k := s.core c
  let x := k.ctx n
  match x.st, x.wait with
  | .ready, _ | .handler, _ => liveTurn ex s c n
  | .waiting, some w | .hwaiting, some w =>
    if n = 0 && upcallDue k then
      match k.r.upcPend with
      | h :: _ => .next (deliverUpcall s c h)
      | [] => .next (askAgain s c n w)
    else .next (askAgain s c n w)
  | _, _ => .next s

/-- R458: the turn of a stepped context, in which a wait that it is in counts the cycle, after what the turn issues (R444). It is FROZEN again when it has issued its bundle,
or has completed a wait, or waits or is parked. -/
def stepTurn (ex : Instr → State → Out) (s : State) (c : CoreId) (n : SlotNo) : Out :=
  afterIssue (ctxTurn ex s c n) fun t =>
    let t := if (s.ctx c n).isWaiting then tickWait t c n else t
    .next (if (t.ctx c n).live && (s.ctx c n).compl.isNone then t else endStep t c n)

/-- What slot n does in its cycle. -/
def slotWork (ex : Instr → State → Out) (s : State) (c : CoreId) (n : SlotNo) : Out :=
  if (s.core c).runs n then
    afterIssue (if (s.core c).stepping == some n then stepTurn ex s c n else ctxTurn ex s c n) fun t => .next (closeTurn (s.ctx c n) c n t)
  else .next (closeTurn (s.ctx c n) c n s)

/-- The cycle of context slot n. The chunks of lower slots that have ended commit before the bundle of slot n issues, and
those of higher slots after it (R168). Its trace units follow the ISSUE record (R444). -/
def slotTurn (ex : Instr → State → Out) (s : State) (c : CoreId) (n : SlotNo) : Out :=
  let s := (beginCycle s c).modCtx c n fun x => { x with cls := 0 }
  afterIssue (slotWork ex (finishSlots c (allSlots.take n.toNat) s) c n) fun t => .next ((endCycle t c n).offerKept c)

/-! ## The service turn and the boundary -/

/-- The cycle of slot 11, and the boundary after it. -/
def serviceCycle (s : State) (c : CoreId) : State :=
  let s := outState s (execServiceTurn c (beginCycle s c))
  outState s (execRotationBoundary c (endCycle s c 11))

/-! ## Engines and units -/

/-- Runs a list of events, each of which leaves a state alone that does not allow it. -/
def runAll {α : Type} (f : α → State → Out) (xs : List α) (s : State) : State := xs.foldl (fun s x => outState s (f x s)) s

/-- R169: a host access performs the oldest of its writes that wait, unless it must wait for the token holder (R171). -/
def hostWrite (s : State) : State :=
  match s.hostIn with
  | [] => s
  | (k, bs) :: t =>
    let ks := (List.range bs.length).map (k + ·)
    if keysHeld s ks then s else { writeKeysSquash s ks bs with hostIn := t }

/-- Operations on their way are taken in and performed, in order of their sending. -/
def fabricStep (s : State) : State :=
  let s := hostWrite s
  let ids := s.net.map (·.id)
  let s := runAll execRingCancel ids s
  ids.foldl (fun s id =>
    let s := outState s (execFarOperationArrival id s)
    let s := outState s (execRemoteAccessArrival id s)
    let s := outState s (execServiceRequestArrival id s)
    let s := outState s (execActiveMessageArrival id s)
    let s := outState s (execContextArrival id s)
    outState s (execDivertedArrival id s)) s

/-- What has been performed comes back to the contexts of a core. -/
def returnStep (s : State) (c : CoreId) : State :=
  let ids := (s.net.filter fun r => r.core == c).map (·.id)
  let s := runAll execAcknowledgement ids s
  let s := runAll execRemoteError ids s
  let s := allSlots.foldl (fun s n => runAll (execLongResultReturn c n) ((s.ctx c n).long.map (·.id)) s) s
  let k := s.core c
  let s := runAll (execLongResultReturn c 0) (k.stray ++ (k.took.map (·.2)).flatten) s
  runAll (execLateReplyForward c) (((s.core c).fwd.map (·.1)).flatten) s

/-- The contexts of a core that are between bundles, and those that are gone: releases that wait, upcall records, messages of
migration, withdrawals, the surrogate's results. -/
def contextStep (s : State) (c : CoreId) : State :=
  allSlots.foldl (fun s n =>
    let s := performRelease s c n
    let s := outState s (execSurrogateResult c n s)
    let s := outState s (execUpcallRecord c n s)
    let s := outState s (execWithdrawalAnswer c n s)
    outState s (execRegisterContextMessage c n s)) ((s.core c).gone.foldl (fun s g => performGone s c g) s)

/-- The engines of a core and of its half-cluster. -/
def engineStep (s : State) (c : CoreId) : State :=
  let chs : List (BitVec 1) := [0, 1]
  let s := runAll (execCopyWrite c) chs s
  let s := runAll (execCopyError c) chs s
  let s := runAll (execCopyComplete c) chs s
  let s := outState s (execAccordCommandRetire (halfOf c) s)
  let s := outState s (execAccordCommandBegin (halfOf c) s)
  let s := outState s (execMgetTileRead c s)
  let s := outState s (execMgetComplete c s)
  let s := outState s (execSaveAreaWrite c s)
  outState s (execRestoreComplete c s)

/-- R381: a core that seeks asks one core after another: cores that nothing has touched answer at once, any other at its
boundary; `n` bounds the cores asked. -/
def seekStep (s : State) (c : CoreId) : Nat → State
  | 0 => s
  | n + 1 =>
    match (s.core c).sched.seek with
    | none => s
    | some q =>
      let s := outState s (execStealNone c (outState s (execStealRequest q.victim c s)))
      if (s.core c).sched.seek == some q then s else seekStep s c n

/-- The task graph unit of a core's die, its page commands, the gangs, and the core's own search for work. -/
def unitStep (s : State) (c : CoreId) : State :=
  let d := dieOf c
  let s := pageStep s d
  let s := if (s.core c).sched.dirty then outState s (execSlotViewReport c s) else s
  let s := outState s (execLaunchPlacement d s)
  let s := outState s (execGangStart d s)
  let tags := (s.die d).tgu.launches.map (·.tag)
  let s := runAll (execGangHold c) (((List.range 4).map fun e => (s.die (BitVec.ofNat 2 e)).tgu.launches.map (·.tag)).flatten) s
  let s := runAll (execGangHoldLift c) (s.core c).gheld s
  seekStep (runAll (execLaunchCompletion d) tags s) c 4097

/-- The core is the first of those touched, of the device or of its die. -/
def leadsAll (s : State) (c : CoreId) : Bool := s.cores.head?.any fun p => p.1 == c.toNat
def leadsDie (s : State) (c : CoreId) : Bool := (s.coresOfDie (dieOf c)).head? == some c

/-- The trace core of a die in the twelve cycles of a rotation: in each it handles a unit (R449), and its two lanes send what they take
(R452). -/
def traceStep (s : State) (d : BitVec 2) : State :=
  (List.range 12).foldl (fun s i =>
    let t := 16 * (s.now - 11 + i)
    frameIn d t (frameIn d t (outState s (execLoss d (outState s (execSillageAccept d s)))))) s

/-- The fabric, the firmware and the trace cores go through the cycles of a rotation: the fabric and the firmware with the first core,
a trace core with the first of its die. -/
def sharedStep (s : State) (c : CoreId) : State :=
  let s := if leadsAll s c then powerStep ((List.range 12).foldl (fun s _ => fabricCycle s) s) else s
  if leadsDie s c then traceStep s (dieOf c) else s

/-- What goes on outside the context slots of a core. -/
def unitsCycle (s : State) (c : CoreId) : State :=
  sharedStep (unitStep (engineStep (contextStep (returnStep (fabricStep s) c) c) c) c) c

/-! ## Whose cycle comes next -/

/-- The events: what an agenda may hold. An instruction word issues only from a bundle. -/
def isEvent : Instr → Bool
  | .rotationBoundary _ | .serviceTurn _ | .serviceRequestArrival _ | .ringCancel _ | .remoteAccessArrival _
  | .farOperationArrival _ | .acknowledgement _ | .longResultReturn _ _ _ | .waitConditionMet _ _ | .waitx _ _
  | .chunkCommit _ _ | .privilegedTrap _ _ | .upcallRecord _ _ | .upcallDelivery _ | .remoteError _
  | .errorRecordAck _ _ | .registerContextMessage _ _ | .contextArrival _ | .lateReplyForward _ _
  | .coreAssign _ _ _ _ _ | .coreUnassign _ | .coreResume _ | .pageInvalidation _ _ _ _ _
  | .pageMigration _ _ _ _ _ | .contextMigration _ _ _ | .save _ _ _ _ | .withdrawalAnswer _ _ | .saveAreaWrite _
  | .restore _ _ _ _ | .restoreComplete _ | .divertedArrival _ | .gangHold _ _ | .gangHoldLift _ _
  | .hostActiveMessage _ _ _ _ _ _ | .activeMessageArrival _ | .slotViewReport _ | .launchPlacement _
  | .launchCompletion _ _ | .gangStart _ | .stealRequest _ _ | .stealNone _ | .stealBackoffExpiry _
  | .copyWrite _ _ | .copyComplete _ _ | .copyError _ _ | .accordCommandBegin _ | .accordCommandRetire _
  | .mgetTileRead _ | .mgetComplete _ | .surrogateResult _ _ | .heldConstraintReturn _ _ | .qwgtWrite _ _
  | .slotOwnWrite _ _ | .kmCfgWrite _ _ | .accWgtWrite _ _ | .trapCauseWrite _ _ | .dbgBpWrite _ _
  | .dbgWpWrite _ _ | .sillageAccept _ | .loss _ | .traceFrame _ | .outputArbitration _ _ | .urgPromotion _ _ _
  | .creditReturn _ _ _ | .clusterFreeze _ | .freeze _ | .release _ _ | .step _ _ | .filterProgramLoad _ _ _
  | .filterCounterRead _ _ | .linkFailure _ | .fabricConfig _ _ | .deviceReset | .sramSelfTest _
  | .ucieTraining _ _ | .accordCalibration | .firmwareVerification _ _ _ _ | .identityDerivation | .normalService
  | .devIdWrite _ | .devSvcWrite _ _ | .powerLimit _ | .trapVectorWrite _ _ | .attestationRequest _
  | .dieCounterAccess _ _ _ | .softError _ _ _ _ | .unitFence _ | .traceLaneDown _ _ => true
  | _ => false

/-- The touched core after one, in ascending order of core ids. -/
def coreAfter (s : State) (c : CoreId) : Option CoreId := ((s.cores.map (·.1)).find? (c.toNat < ·)).map (BitVec.ofNat 12)

/-- The turn after the one of the state: the same slot of the next core, or the next slot of the first. All cores go through
one cycle before the next, in ascending order of their ids (R168). -/
def nextTurn (s : State) (t : Turn) : Turn :=
  match coreAfter s t.core with
  | some c => { t with core := c }
  | none => { core := BitVec.ofNat 12 ((s.cores.map (·.1)).headD 0), slot := (t.slot + 1) % 13 }

/-- The clock moves to the next turn; a cycle is counted when the first core begins it. -/
def State.tick (s : State) : State :=
  { s with turn := nextTurn s s.turn, now := if s.turn.slot < 12 ∧ s.turn.core.toNat = (s.cores.map (·.1)).headD 0 then s.now + 1 else s.now }

/-- One turn of the model's clock. -/
def turnStep (ex : Instr → State → Out) (s : State) : Out :=
  let t := s.turn
  let s := s.tick
  if t.slot < 11 then slotTurn ex s t.core (BitVec.ofNat 4 t.slot)
  else if t.slot = 11 then .next (serviceCycle s t.core)
  else .next (unitsCycle s t.core)

/-- What an agenda's head does; a word that stands there does nothing. -/
def agendaStep (ex : Instr → State → Out) (i : Instr) (s : State) : Out := if isEvent i then ex i s else .next s

/-! ## Placing an instruction -/

/-- Where `withFetchWord` places a bundle: offset 0 of core 0's scratchpad, and the fat pointer to it. -/
def placePc (s : State) : Word := spPtr s.devId 0 0

/-- Core 0 as it fetches there in user mode: assigned, its control context READY with nothing open, region 0 of
its protection unit granting user mode all rights. -/
def placeCore (k : Core) (pc : Word) : Core :=
  let x : Ctx := { Ctx.zero with a := { (k.ctx 0).a with pc := pc, wonly := false }, st := .ready, occ := (k.ctx 0).occ }
  { k.setCtx 0 x with
    asg := some (k.asg.getD 0), halted := false, halting := false, fenced := false, pre := .running, stall := [], gheld := [], stepping := none
    r := { k.r with protBase := vset k.r.protBase 0 (0x0008000000000000 : Word), protSize := vset k.r.protSize 0 (0x4003F : Word) } }

/-- The bundle of two words placed where the next step fetches. -/
def placeBundle (s : State) (w0 w1 : W32) : State :=
  let s := s.setCore 0 (placeCore (s.core 0) (placePc s))
  { s with
    mem := memWrite s.mem (spKey 0 0) (natBytes 4 w0.toNat ++ natBytes 4 w1.toNat), stage := max s.stage 4, turn := { core := 0, slot := 0 },
    agenda := [] }

end Sys2Proof.Machine
end

