-- ==== Sys2Proof/Machine/Step.lean ====
section
/-! DEFINITION. The step: the next event of the agenda, or else the next turn of the clock. -/

namespace Sys2Proof.Machine

/-- One step. `agenda` holds what the spec leaves to others: the host's commands and inputs, and the moments
at which units and the fabric act. -/
def step (s : State) : Host.Outcome State Fault Refusal :=
  match s.agenda with
  | i :: t => agendaStep exec i { s with agenda := t }
  | [] => turnStep exec s

/-- The state with the instruction of a table row placed where the next step fetches: as the bundle of its two
words in core 0's scratchpad. -/
def State.withFetchWord (s : State) (nbits w : Nat) : State := placeBundle s (tableWords nbits w).1 (tableWords nbits w).2

end Sys2Proof.Machine
end

