-- ==== Sys2Proof/Safety.lean ====
section
/-! DEFINITION. What counts as a safe run, and the terms in which claims speak: when a word of a bundle runs, the
state after the commit that it makes, the registers as they stand, and what a step leaves alone. -/

namespace Sys2Proof

/-- A step that answers a next state: no fault, no refusal. -/
def safeStep (s : Machine.State) : Prop := ∃ t, Machine.step s = .next t

/-- A run of `n` steps is safe: every one of its steps answers a next state. -/
def safeRun (n : Nat) (s : Machine.State) : Prop := ∃ t, core.run n s = .next t

end Sys2Proof

namespace Sys2Proof.Machine

/-! ## When a word runs -/

/-- R161: the state in which a word of the issuing context runs: the context's chunk is open. -/
def State.opened (s : State) : State := s.openChunk s.iss.core s.iss.slot

/-- The word takes no trap of items 2 and 3 of R76: its mode admits it, and no register that it names has
its scoreboard bit set. -/
def runsA (i : Instr) (s : State) : Prop := s.early i = none

/-- The same of a C or lone word, which besides needs a next bundle to go on at (R71). -/
def runsC (i : Instr) (s : State) : Prop := s.opened.early i = none ∧ s.opened.nextPc ≠ none

/-- R166-R168: no near load of the chunk is outstanding, and the arbiter admits its commit. -/
def mayCommit (s : State) : Prop := s.opened.me.nearOut = false ∧ (commitChunk s.opened s.iss.core s.iss.slot).2 = true

/-- A chunk-ending word passes both, and its chunk may end. -/
def endsAt (i : Instr) (s : State) : Prop := runsC i s ∧ mayCommit s

/-- Nothing of a kind holds a chunk-ending word back, neither before the commit that it makes nor after it. -/
def unheld (hold : State → Option Bool) (s : State) : Prop :=
  hold s.opened = none ∧ hold (commitChunk s.opened s.iss.core s.iss.slot).1 = none

/-- R97: one more long operation is within the limits of the issuing context and of its core. -/
def mayLong (s : State) : Prop :=
  s.opened.canLong = true ∧ (commitChunk s.opened s.iss.core s.iss.slot).1.canLong = true

/-- R188: every earlier operation of the issuing context to this device, the far stores of its chunk among them, has been
performed. -/
def released (s : State) : Prop :=
  s.opened.behind = false ∧ (commitChunk s.opened s.iss.core s.iss.slot).1.behind = false

/-- R165-R167, R416: the state after the commit that a chunk-ending word makes. -/
def State.committed (s : State) (i : Instr) : State :=
  let r := (commitChunk s.opened s.iss.core s.iss.slot).1
  if isViol i && s.opened.onTruePath s.iss.core s.iss.slot then violate r s.iss.core s.iss.slot else r

/-! ## What there is to see -/

/-- The general register that a field names, as it stands (R39, R81). -/
def State.nowG (s : State) (r : RF) : Word := if s.isShadow r then vget s.mine.h (r.toNat - 48) 0 else s.me.a.rdG r.toNat

/-- A vector and a predicate register as they stand. -/
def State.nowV (s : State) (r : BitVec 4) : VReg := vget s.me.a.v r.toNat 0
def State.nowP (s : State) (r : BitVec 3) : Word := s.me.a.rdP r.toNat

/-- Every byte of memory reads the same. -/
def sameMem (s t : State) : Prop := ∀ k, memGet t.mem k = memGet s.mem k

/-- A byte of memory that lies outside the dies' arrays of page descriptors (R149, R150). -/
def outsideDescs (s : State) (k : Nat) : Prop :=
  ∀ d, k < sramKey d (s.die d).descBase ∨ sramKey d ((s.die d).descBase + 8 * descCount d) ≤ k

/-- A byte that is part of no descriptor that the translations of an access of n bytes may update (R150): that of the frame of its first
page, or of its last. -/
def outsidePages (s : State) (d : BitVec 2) (pool : Bool) (t : Tenant) (va n : Nat) (k : Nat) : Prop :=
  ∀ v ∈ [va, va + n - 1], ∀ fr lg a j, walk s d pool t v = .leaf fr lg a → descKey s d pool fr a = some j → k < j ∨ j + 8 ≤ k

/-- The pointer and the bytes of the access that a store word makes (R237-R239, R242). -/
def State.storeArea (s : State) : Instr → Option (Word × Nat)
  | .st w _ b e => (moveOff (s.rdG b) e.toInt).map (·, widthOf w.toNat)
  | .stx _ b c w => (moveOff (s.rdG b) (s.rdG c).toInt).map (·, widthOf w.toNat)
  | .vst _ b e => (moveOff (s.rdG b) (64 * e.toInt)).map (·, 64)
  | .vstf _ b c _ _ => some (s.rdG b, formBytes (pFmt (s.rdG b)) (pBlg (s.rdG b)) (s.rdG c).toNat)
  | _ => none

/-- The contexts other than the issuing one, and the other cores, are as they were. -/
def sameOthers (s t : State) : Prop :=
  (∀ c, c ≠ s.iss.core → t.core c = s.core c) ∧ ∀ n, n ≠ s.iss.slot → t.ctx s.iss.core n = s.ctx s.iss.core n

/-- The registers of the issuing context but those of the lists are as they were. -/
def sameRegs (s t : State) (gs : List RF) (vs : List (BitVec 4)) (ps : List (BitVec 3)) : Prop :=
  (∀ r, r ∉ gs → t.nowG r = s.nowG r) ∧ (∀ r, r ∉ vs → t.nowV r = s.nowV r) ∧ ∀ r, r ∉ ps → t.nowP r = s.nowP r

/-- The special registers of the issuing context are as they were: WID, WID.FIELDS, LTAG, PIPE; its mode, its
successor handle, its invocation state and its held list. -/
def sameSpecial (s t : State) : Prop :=
  t.me.a.wid = s.me.a.wid ∧ t.me.a.widf = s.me.a.widf ∧ t.me.a.ltag = s.me.a.ltag ∧ t.me.a.pipe = s.me.a.pipe ∧
  t.me.priv = s.me.priv ∧ t.me.succ = s.me.succ ∧ t.me.inv = s.me.inv ∧ t.me.hold = s.me.hold

/-- The units of the issuing core are as they were: its control registers but the values of its counters, the
accord side, the key map, the rings, the mailbox counters and the copy channels. -/
def sameUnits (s t : State) : Prop :=
  { t.mine.r with cntVal := s.mine.r.cntVal } = s.mine.r ∧ t.mine.acc = s.mine.acc ∧ t.mine.km = s.mine.km ∧
  t.mine.rings = s.mine.rings ∧ t.mine.mbox = s.mine.mbox ∧ t.mine.chan = s.mine.chan

/-- The device outside the cores is as it was. -/
def sameDevice (s t : State) : Prop :=
  t.dies = s.dies ∧ t.halves = s.halves ∧ t.engines = s.engines ∧ t.net = s.net ∧ t.devId = s.devId

/-- The event of a table row names a core, and all other cores are as they were. -/
def sameCoresBut (s t : State) (c : CoreId) : Prop := ∀ c', c' ≠ c → t.core c' = s.core c'

end Sys2Proof.Machine
end

