-- ==== Sys2Proof/Certificates/Slice0/Obligations.lean ====
section
/-! DEFINITION. The statements for the provers: what decoding, the instructions, the events and the machine as a whole
do, by the numbered rules of the spec. A statement about words speaks of the state that `State.opened` gives (the
context's chunk is open) and, for a word that ends its chunk, of the state that `State.committed` gives. -/

open Sys2Proof Sys2Proof.Machine

/-! ## Decoding and the step -/

/-- R77-R88, R210, R195, R197, R237, R302, R200: words written out from the encoding tables decode to the
instructions they stand for, and the unassigned COP, AOP and LOP values are ILLEGAL with reason 1. -/
def Obligations.WordsDecode : Prop :=
  (decodeBundle 0b00000001011100000000000000000101#32 0 = .pair (.br 3 1 5) .nopA ∧
   decodeBundle 0 0b00000100000100001000001100000000#32 = .pair .nop (.add 1 2 3 0) ∧
   decodeBundle 0 0b00001000000100001011111111111111#32 = .pair .nop (.addi 1 2 0x3FFF) ∧
   decodeBundle 0b00010011000001000010000000001000#32 0 = .pair (.ld 3 1 2 8) .nopA ∧
   decodeBundle 0 0b10000000010010001100000000000000#32 = .pair .nop (.vadd 1 2 3 0 0) ∧
   decodeBundle 0b10100000101000001000000000000000#32 0xDEADBEEF#32 = .lone (.movl 1 1 0xDEADBEEF)) ∧
  (∀ w : W32, (w.extractLsb' 24 6).toNat ∈
      [0x0D, 0x0E, 0x0F, 0x17, 0x1E, 0x1F, 0x27, 0x2F, 0x38, 0x39, 0x3A, 0x3B, 0x3C, 0x3D, 0x3E, 0x3F] → decodeC w = .bad 1) ∧
  (∀ w : W32, let n := (w.extractLsb' 26 6).toNat
    n = 0x0F ∨ (0x17 ≤ n ∧ n ≤ 0x1F) ∨ 0x2A ≤ n → decodeA w = .bad 1) ∧
  ∀ w0 w1 : W32, let n := (w0.extractLsb' 23 6).toNat
    (w0.getLsbD 29 = false ∧ (n ≤ 1 ∨ 0x0A ≤ n)) ∨ (w0.getLsbD 29 = true ∧ n ≠ 1) → decodeLone w0 w1 = .bad 1

/-- R77-R86: the decoder gives every well-formed word or lone instruction back from its encoding, with every
operand. (The A word of zeros and the C word of zeros are one bundle, which `Bundle.only` calls `nop`.) -/
def Obligations.DecodeEncode : Prop :=
  ∀ i : Instr, i.wf = true → i.place ≠ .event → i ≠ .nopA →
    (decodeBundle (encode i).2.1 (encode i).2.2).only = some i

/-- The issue record of the bundle that a context's turn begins (R74). -/
def issueRecord (s : State) (c : CoreId) (n : SlotNo) : State :=
  { s with iss := { core := c, slot := n, bundle := Config.noBundle, pc := (s.ctx c n).a.pc, src := some (s.ctx c n).a,
                    srcH := (s.core c).h, srcSh := (s.core c).sh, first := s.nextId, fate := .issued } }

/-- R35, R52, R71-R76: a step. With an event at the head of the agenda it is `exec` of that event; with an empty agenda it is
the cycle of the slot whose turn it is; a context that is READY or in HANDLER, and before whose next bundle nothing comes,
issues in it; and the turn of a context whose bundle is fetched, and which nothing precedes, executes the two words that the
bundle's bytes decode to, or its lone instruction, by `exec`, and then settles the bundle. The agenda and the order of the
cores' turns are the model's choice (log 1, DESIGN CHOICE): R35 gives a core's cycle alone. -/
def Obligations.TurnRunsDecodedBundle : Prop :=
  (∀ (s : State) (c : CoreId) (n : SlotNo) (w0 w1 : W32),
     (s.ctx c n).dfault = none → (s.ctx c n).a.wonly = false → (s.ctx c n).scatterOut = false →
     fetchHeld (issueRecord s c n) = false → fetchBundle (issueRecord s c n) = .ok w0 w1 →
     (touchFetch (issueRecord s c n)).breakpoint = none →
     let t := touchFetch (issueRecord s c n)
     let t := { t with iss := { t.iss with bundle := w1 ++ w0 } }
     let fin := fun (o : Out) => afterIssue o fun r => .next (settleBundle t.me (bundleS w0) r)
     (∀ i a, decodeBundle w0 w1 = .pair i a → issueTurn exec s c n = fin (runPair exec i a t.opened)) ∧
     (∀ i, decodeBundle w0 w1 = .lone i → issueTurn exec s c n = fin (runLone exec i t.opened)) ∧
     (∀ r, decodeBundle w0 w1 = .bad r → issueTurn exec s c n = fin (exec (.unassignedEncoding w0 w1) t.opened))) ∧
  (∀ (s : State) (c : CoreId) (n : SlotNo), let x := s.ctx c n
     x.st = .ready ∨ x.st = .handler → x.rel = none → x.later = false → (∀ ch, x.chunk = some ch → ch.ending = false) → x.compl = none →
     upcallDue (s.core c) = false ∨ n ≠ 0 → x.tpend = [] → x.replaying = false → needsToken s c n = false →
     ctxTurn exec s c n = issueTurn exec s c n) ∧
  (∀ s : State, s.agenda = [] → s.turn.slot < 11 →
    step s = slotTurn exec s.tick s.turn.core (BitVec.ofNat 4 s.turn.slot)) ∧
  (∀ s : State, s.agenda = [] → s.turn.slot = 11 → step s = .next (serviceCycle s.tick s.turn.core)) ∧
  (∀ s : State, s.agenda = [] → 11 < s.turn.slot → step s = .next (unitsCycle s.tick s.turn.core)) ∧
  (∀ (s : State) (i : Instr) (t : List Instr), s.agenda = i :: t → isEvent i = true → step s = exec i { s with agenda := t })

/-- The form of memory that the model's reads rely on: bytes listed in rising order of their keys, none of them the
zero that an unlisted byte reads as. Whatever a step does, it keeps this form (`ResetState` says that reset has it). Both the
list and the zero of a byte that nothing has written are the model's choice (log 3, DESIGN CHOICE); the spaces whose bytes it
holds are those of R134. -/
def Obligations.StepKeepsMemoryCanonical : Prop :=
  ∀ s t : State, s.mem.wf = true → step s = .next t → t.mem.wf = true

/-- R397, R43, R51, R52, R66, R64, R139, R341: what reset leaves: stage 2, no core assigned, every slot VACANT, TRAP.CAUSE 0.
That no core is listed and that memory lists no byte are the model's choice (logs 2 and 3, DESIGN CHOICE). -/
def Obligations.ResetState : Prop :=
  State.reset.stage = 2 ∧ State.reset.cores = [] ∧ State.reset.mem.wf = true ∧
  (∀ d, (State.reset.die d).svc = 0x15) ∧
  (∀ c, (State.reset.core c).asg = none ∧ (State.reset.core c).rot = 0 ∧ (State.reset.core c).r.slotOwn = 0x4E4E4 ∧
    (State.reset.core c).r.qwgt = 0x1000100010001000 ∧ (State.reset.core c).holder = none ∧
    (State.reset.core c).r.trapCause = 0) ∧
  (∀ c n, (State.reset.ctx c n).st = .vacant) ∧
  ∀ (c : CoreId) (i : Nat), i < 8 → vget (State.reset.core c).r.protSize i 0 = if i = 0 then 0x40038 else 0

/-! ## A words -/

/-- R195, R196: the integer operations on registers, under their guard: G[d] takes the value of the table. -/
def Obligations.IntegerResults : Prop :=
  ∀ (d a b : RF) (g : BitVec 3) (s : State),
    let x := s.rdG a; let y := s.rdG b
    ∀ p ∈ [(Instr.add d a b g, x + y), (.sub d a b g, x - y), (.mul d a b g, x * y),
           (.mulh d a b g, (x.signExtend 128 * y.signExtend 128).extractLsb' 64 64),
           (.mulhn d a b g, (x.zeroExtend 128 * y.zeroExtend 128).extractLsb' 64 64),
           (.and d a b g, x &&& y), (.or d a b g, x ||| y), (.xor d a b g, x ^^^ y),
           (.shl d a b g, x <<< (y &&& 63)), (.shr d a b g, x >>> (y &&& 63)), (.sra d a b g, x.sshiftRight' (y &&& 63)),
           (.min d a b g, if x.slt y then x else y), (.max d a b g, if x.slt y then y else x),
           (.minn d a b g, if x.ult y then x else y), (.maxn d a b g, if x.ult y then y else x)],
      runsA p.1 s → exec p.1 s = .next (if (s.rdP g).getLsbD 0 then s.wrG d p.2 else s)

/-- R195, R196, R202: counts of bits; `sel`, which has no guard; and bit fields: bit j of `bfx` is bit pos + j of the source
inside the field, and zero or the field's top bit above it; bit j of `bfi` is bit j - pos of the source inside the
field, and zero or the destination's own bit outside. -/
def Obligations.BitResults : Prop :=
  (∀ (d a b : RF) (g : BitVec 3) (s : State),
     let x := s.rdG a
     (runsA (.clz d a g) s → ∃ z, exec (.clz d a g) s = .next (if s.guard g then s.wrG d z else s) ∧ z.toNat ≤ 64 ∧
       (∀ i, 64 - z.toNat ≤ i → x.getLsbD i = false) ∧ (z.toNat < 64 → x.getLsbD (63 - z.toNat) = true)) ∧
     (runsA (.ctz d a g) s → ∃ z, exec (.ctz d a g) s = .next (if s.guard g then s.wrG d z else s) ∧ z.toNat ≤ 64 ∧
       (∀ i, i < z.toNat → x.getLsbD i = false) ∧ (z.toNat < 64 → x.getLsbD z.toNat = true)) ∧
     (runsA (.popc d a g) s → exec (.popc d a g) s =
       .next (if s.guard g then s.wrG d (BitVec.ofNat 64 ((List.range 64).filter fun i => x.getLsbD i).length) else s)) ∧
     (runsA (.sel d a b g) s → exec (.sel d a b g) s = .next (s.wrG d (if (s.rdP g).getLsbD 0 then x else s.rdG b)))) ∧
  ∀ (d a pos len : RF) (q : BitVec 1) (s : State), pos.toNat + len.toNat + 1 ≤ 64 →
    let x := s.rdG a; let n := len.toNat + 1; let o := pos.toNat
    (runsA (.bfx d a pos len q) s → ∃ z, exec (.bfx d a pos len q) s = .next (s.wrG d z) ∧
      ∀ j, j < 64 → z.getLsbD j = if j < n then x.getLsbD (o + j) else (q == 1 && x.getLsbD (o + n - 1))) ∧
    (runsA (.bfi d a pos len q) s → ∃ z, exec (.bfi d a pos len q) s = .next (s.wrG d z) ∧
      ∀ j, j < 64 → z.getLsbD j =
        if o ≤ j ∧ j < o + n then x.getLsbD (j - o) else (q != 1 && (s.rdG d).getLsbD j))

/-- R133, R196, R306, R129, R93, R100: divisions and the long vector words are long operations: the destination's scoreboard
bit is set at issue, and the result of R133 or R306, and its flags, return 40, 36 or 20 cycles later; a division whose
guard fails starts nothing. The values of `vexp2` and `vlog2` rest on the reading of log 36 (DEDUCED). -/
def Obligations.LongResults : Prop :=
  (∀ (d a b : RF) (g : BitVec 3) (s : State),
     let x := s.rdG a; let y := s.rdG b
     ∀ p ∈ [(Instr.div d a b g, if y = 0 then (if x.toInt < 0 then 1 else BitVec.allOnes 64) else x.sdiv y),
            (.divn d a b g, if y = 0 then BitVec.allOnes 64 else x.udiv y),
            (.rem d a b g, if y = 0 then x else x.srem y), (.remn d a b g, if y = 0 then x else x.umod y)],
       runsA p.1 s →
       (s.guard g = false → exec p.1 s = .next s) ∧
       (s.guard g = true → s.canLong = true →
         exec p.1 s = .next (s.freshId.addLong { s.newLong s.nextId (s.dstG d) .word with
           val := some p.2.toNat, due := some (s.mine.cyc + 40) })) ∧
       (s.guard g = true → s.canLong = false → exec p.1 s = .next (hold97 s))) ∧
  ∀ (d a b : BitVec 4) (m : BitVec 3) (s : State),
    let A := fun k => laneOf 0 (s.rdV a) k; let B := fun k => laneOf 0 (s.rdV b) k
    ∀ p ∈ [(Instr.vdiv d a b m, 36, fun k => laneDiv (A k) (B k)), (.vsqrt d a m, 36, fun k => laneSqrt (A k)),
           (.vrcp d a m, 20, fun k => laneRcp (A k)), (.vrsq d a m, 20, fun k => laneRsq (A k)),
           (.vexp2 d a m, 20, fun k => laneExp2 (A k)), (.vlog2 d a m, 20, fun k => laneLog2 (A k))],
      runsA p.1 s → s.canLong = true →
      exec p.1 s = .next (s.freshId.addLong { s.newLong s.nextId (.v d) .vec with
        val := some (masked s 0 m (s.rdV d) p.2.2).1.toNat, due := some (s.mine.cyc + p.2.1),
        flags := (masked s 0 m (s.rdV d) p.2.2).2 })

/-- R197-R200: immediates, `movi`, `movh`, and `movl` in its three modes, which goes on at the next bundle. -/
def Obligations.ImmediateResults : Prop :=
  (∀ (d a : RF) (i : BitVec 14) (n : BitVec 6) (k : BitVec 20) (s : State),
     let x := s.rdG a
     ∀ p ∈ [(Instr.addi d a i, x + i.signExtend 64), (.andi d a i, x &&& i.signExtend 64), (.ori d a i, x ||| i.signExtend 64),
            (.xori d a i, x ^^^ i.signExtend 64), (.shli d a n, x <<< n), (.shri d a n, x >>> n), (.srai d a n, x.sshiftRight' n),
            (.movi d k, k.signExtend 64), (.movh d k, (k.zeroExtend 32 : W32) ++ (s.rdG d).extractLsb' 0 32)],
       runsA p.1 s → exec p.1 s = .next (s.wrG d p.2)) ∧
  ∀ (d : RF) (m : BitVec 2) (w : W32) (s : State), m ≠ 3 → runsC (.movl d m w) s →
    let o := s.opened
    exec (.movl d m w) s = .next (o.wrG d
      (if m = 0 then w.signExtend 64 else if m = 1 then w.zeroExtend 64 else w ++ (o.rdG d).extractLsb' 0 32)).advance

/-- R201: a comparison writes a whole predicate, all ones or zero. -/
def Obligations.ComparisonResults : Prop :=
  ∀ (p : BitVec 3) (a b : RF) (g c : BitVec 3) (i : BitVec 14) (s : State),
    let holds := fun (x y : Word) =>
      [x == y, x != y, x.slt y, x.sle y, y.slt x, y.sle x, x.ult y, x.ule y].getD c.toNat false
    (runsA (.cmp p a b g c) s → exec (.cmp p a b g c) s =
      .next (if s.guard g then s.wrP p (if holds (s.rdG a) (s.rdG b) then BitVec.allOnes 64 else 0) else s)) ∧
    (runsA (.cmpi p c a i) s → exec (.cmpi p c a i) s =
      .next (s.wrP p (if holds (s.rdG a) (i.signExtend 64) then BitVec.allOnes 64 else 0)))

/-- R203-R209: the pointer operations. `padd`, `paddi` and `pidx` replace the offset field alone; a sum outside the
field is ADDR reporting the pointer, and a format tag that R205 refuses is FORMAT. -/
def Obligations.PointerResults : Prop :=
  ∀ (d a b k : RF) (g : BitVec 3) (i : BitVec 14) (f : BitVec 5) (l : BitVec 3) (s : State),
    let x := s.rdG a; let y := s.rdG b
    let moved := fun (n : Int) => if 0 ≤ (pOff x : Int) + n ∧ (pOff x : Int) + n < 2 ^ offW x
      then s.wrG d (setOff x ((pOff x : Int) + n).toNat) else raise s (s.tAddr x)
    (runsA (.padd d a b g) s → exec (.padd d a b g) s = .next (if s.guard g then moved y.toInt else s)) ∧
    (runsA (.paddi d a i) s → exec (.paddi d a i) s = .next (moved i.toInt)) ∧
    (runsA (.pidx d a b g) s → exec (.pidx d a b g) s = .next (if s.guard g then
      (if tagOk (pFmt x) (pBlg x) then (match elemBytes (pFmt x) (pBlg x) y.toInt with
        | some n => moved n
        | none => raise s (s.tAddr x)) else raise s (s.tFormat x)) else s)) ∧
    (runsA (.ptag d a f l) s → exec (.ptag d a f l) s = .next (s.wrG d (f ++ l ++ x.extractLsb' 0 56))) ∧
    (runsA (.pget d a k g) s → exec (.pget d a k g) s = .next (if s.guard g then s.wrG d (pgetW x k.toNat) else s)) ∧
    (runsA (.pchk l a b g) s → exec (.pchk l a b g) s = .next (if s.guard g then
      s.wrP l (if mbzOk x ∧ pOff x + y.toNat ≤ 2 ^ offW x ∧ tagOk (pFmt x) (pBlg x) then BitVec.allOnes 64 else 0) else s)) ∧
    (runsA (.pmk d a b g) s → exec (.pmk d a b g) s = .next (if s.guard g then
      (if pSpc x = 0 then s.wrG d (x.extractLsb' 54 10 ++ y.extractLsb' 16 10 ++ y.extractLsb' 4 12 ++ x.extractLsb' 0 32)
       else if pSpc x = 1 then s.wrG d (x.extractLsb' 54 10 ++ y.extractLsb' 16 10 ++ y.extractLsb' 14 2 ++ x.extractLsb' 0 42)
       else raise s (s.tAddr x)) else s))

/-- R301, R304: in a vector result that a mask governs, lane k holds the new code where the mask has bit k set and the
destination's old lane elsewhere. -/
def Obligations.MaskedLanes : Prop :=
  ∀ (s : State) (t m : BitVec 3) (old : VReg) (f : Nat → Rounded) (k : Nat), t ≠ 7 → k < laneCount t →
    (∀ j, (f j).code < 2 ^ laneBits t) →
    laneOf t (masked s t m old f).1 k = if (s.rdP m).getLsbD k then (f k).code else laneOf t old k

/-- R305, R307, R311-R313, R315: the vector words that write the active lanes of V[d] and OR the flags of those lanes into FP.FLAGS; and the values
of their lanes. R128: integer lanes wrap; a float lane is the exact result rounded once, a NaN operand gives the canonical NaN and no flag, and an
invalid operation the canonical NaN and NV. R114, R115, R131: what each mode rounds to, with NX, and OF where the result overflows by its mode; a
value of the type rounds to itself. R117, R116: conversion to an integer type clamps with SAT and NX, and gives 0 and NV for a NaN. Three clauses
are the model's choice by log 43 (DEDUCED), and no rule says them of these words: that a NaN operand raises no flag (R129 says so of the long words
alone), that `vcvt` from an integer to a float type ignores the saturate bit, and that a conversion between integer types of one width, i8 and n8,
follows the rule of a narrower one. -/
def Obligations.VectorResults : Prop :=
  (∀ (d a b c n l : BitVec 4) (x h : BitVec 1) (g : RF) (m t f : BitVec 3) (r : BitVec 4) (s : State),
    let A := fun k => laneOf t (s.rdV a) k; let B := fun k => laneOf t (s.rdV b) k; let C := fun k => laneOf t (s.rdV c) k
    let N := laneCount t
    let put := fun (v : Nat → Rounded) =>
      (s.wrV d (masked s t m (s.rdV d) v).1).orFlags (masked s t m (s.rdV d) v).2
    ∀ p ∈ [(Instr.vadd d a b m t, fun k => laneAdd t (A k) (B k)), (.vsub d a b m t, fun k => laneSub t (A k) (B k)),
           (.vmul d a b m t, fun k => laneMul t (A k) (B k)), (.vfma d a b c m t, fun k => laneFma t (A k) (B k) (C k)),
           (.vfms d a b c m t, fun k => laneFms t (A k) (B k) (C k)), (.vnfma d a b c m t, fun k => laneNfma t (A k) (B k) (C k)),
           (.vmin d a b m t, fun k => laneMinMax t false (A k) (B k)), (.vmax d a b m t, fun k => laneMinMax t true (A k) (B k)),
           (.vabs d a m t, fun k => laneAbs t (A k)), (.vneg d a m t, fun k => laneNeg t (A k)),
           (.vcvt d a x f m t r, fun k => if k < laneCount f then convertLane f t r.toNat (x == 1) (laneOf f (s.rdV a) k) else plain 0),
           (.vbc d g m t, fun _ => plain ((s.rdG g).toNat % 2 ^ laneBits t)),
           (.vins d g l m t, fun k => plain (if k = l.toNat then (s.rdG g).toNat % 2 ^ laneBits t else laneOf t (s.rdV d) k)),
           (.vperm d a b m t, fun k => plain (A (B k % N))),
           (.vslide d a b n m t, fun k => plain (if k + n.toNat < N then A (k + n.toNat) else B (k + n.toNat - N))),
           (.vpack d a b m t, fun k => plain (if k < N / 2 then A k else B (k - N / 2))),
           (.vunpack d a h m t, fun k => plain (if k < N / 2 then A (h.toNat * (N / 2) + k) else 0)),
           (.vand d a b m t, fun k => plain (A k &&& B k)), (.vor d a b m t, fun k => plain (A k ||| B k)),
           (.vxor d a b m t, fun k => plain (A k ^^^ B k)), (.vshift d a b m t, fun k => laneShift t (A k) (B k))],
      runsA p.1 s → exec p.1 s = .next (put p.2)) ∧
  -- integer lanes
  (∀ (t : BitVec 3) (a b c : Nat), isFloatT t = false → a < 2 ^ laneBits t → b < 2 ^ laneBits t → c < 2 ^ laneBits t →
    laneAdd t a b = plain ((a + b) % 2 ^ laneBits t) ∧ laneSub t a b = plain ((a + (2 ^ laneBits t - b)) % 2 ^ laneBits t) ∧
    laneMul t a b = plain (a * b % 2 ^ laneBits t) ∧ laneFma t a b c = plain ((a * b + c) % 2 ^ laneBits t)) ∧
  -- float lanes
  (∀ (t : BitVec 3) (a b c : Nat), isFloatT t = true →
    let x := laneNum t a; let y := laneNum t b; let nan : Rounded := { code := nanOf t, flags := 0 }
    (x = .nan ∨ y = .nan → laneAdd t a b = nan ∧ laneSub t a b = nan ∧ laneMul t a b = nan ∧
      (∀ u, laneMinMax t u a b = nan) ∧ laneFma t a b c = nan) ∧
    (∀ u, x = .inf u → y = .inf (!u) → laneAdd t a b = { code := nanOf t, flags := flagNV }) ∧
    (∀ u, x = .inf u → y.isZero = true → laneMul t a b = { code := nanOf t, flags := flagNV }) ∧
    (∀ u n d v k e, x = .fin u n d → y = .fin v k e →
      laneAdd t a b = roundFloat (fmtOfT t) 0 false (x.sum2 y) ∧ laneMul t a b = roundFloat (fmtOfT t) 0 false (x.mul y)) ∧
    (∀ mode, a < 2 ^ laneBits t → x ≠ .nan → roundFloat (fmtOfT t) mode false x = plain a)) ∧
  -- rounding to a natural number, and to a float type
  (∀ (neg : Bool) (n d : Nat), 0 < d →
    let k := fun mode => roundNat mode neg n d
    (2 * (k 0 * d) ≤ 2 * n + d ∧ 2 * n ≤ 2 * (k 0 * d) + d ∧
      (2 * (k 0 * d) = 2 * n + d ∨ 2 * n = 2 * (k 0 * d) + d → k 0 % 2 = 0)) ∧
    (k 1 * d ≤ n ∧ n < k 1 * d + d) ∧
    (∀ mode, (mode = 2 ∧ neg = false) ∨ (mode = 3 ∧ neg = true) → n ≤ k mode * d ∧ k mode * d < n + d) ∧
    (∀ mode, (mode = 2 ∧ neg = true) ∨ (mode = 3 ∧ neg = false) → k mode * d ≤ n ∧ n < k mode * d + d) ∧
    (2 * (k 4 * d) ≤ 2 * n + d ∧ 2 * n < 2 * (k 4 * d) + d)) ∧
  (∀ (f mode n d : Nat) (neg : Bool), 1 ≤ f → f ≤ 3 → mode ≤ 4 → 0 < n → 0 < d →
    let x := ffmt f; let l := floorLog2 n d; let e := max (1 - (x.bias : Int)) l
    let q := overPow n d (e - x.m); let k := roundNat mode neg q.1 q.2; let r := roundFloat f mode false (.fin neg n d)
    ((overPow n d l).2 ≤ (overPow n d l).1 ∧ (overPow n d l).1 < 2 * (overPow n d l).2) ∧
    ((Num.scaled false k (e - x.m)).cmp (decodeFloat f x.maxc) ≠ .gt →
      (decodeFloat f r.code).cmp (Num.scaled neg k (e - x.m)) = .eq ∧ r.flags.getLsbD 4 = (k * q.2 != q.1) ∧
      r.flags &&& (flagNV ||| flagDZ ||| flagOF ||| flagSAT) = 0) ∧
    ((Num.scaled false k (e - x.m)).cmp (decodeFloat f x.maxc) = .gt → r = { code := signBit x neg +
      (if mode = 0 ∨ mode = 4 ∨ (mode = 2 ∧ neg = false) ∨ (mode = 3 ∧ neg = true) then x.inf.getD 0 else x.maxc), flags := flagOF ||| flagNX })) ∧
  -- conversion
  ∀ (f t : BitVec 3) (mode a : Nat) (sat : Bool), f ≠ t →
    let w := laneBits t; let lo := (laneRange t).1; let hi := (laneRange t).2
    (isFloatT f = true → isFloatT t = false →
      (laneNum f a = .nan → convertLane f t mode sat a = { code := 0, flags := flagNV }) ∧
      (∀ u, laneNum f a = .inf u → convertLane f t mode sat a = { code := patOf w (if u then lo else hi), flags := flagSAT ||| flagNX }) ∧
      ∀ u n d, laneNum f a = .fin u n d → let y := signedNat u (roundNat mode u n d)
        convertLane f t mode sat a =
          if y < lo ∨ hi < y then { code := patOf w (if y < lo then lo else hi), flags := flagSAT ||| flagNX }
          else { code := patOf w y, flags := if roundNat mode u n d * d = n then 0 else flagNX }) ∧
    (isFloatT f = false → isFloatT t = false → let y := laneInt f a
      convertLane f t mode false a = plain (patOf w y) ∧
      convertLane f t mode true a =
        if y < lo ∨ hi < y then { code := patOf w (if y < lo then lo else hi), flags := flagSAT ||| flagNX } else plain (patOf w y)) ∧
    (isFloatT f = false → isFloatT t = true → convertLane f t mode sat a = roundFloat (fmtOfT t) mode false (laneNum f a))

/-- R308-R311, R314: comparison, selection, reductions, extraction and block quantisation. R130: a reduction is the pairwise
tree; over integer lanes it is the wrapped sum, or the largest lane. R118-R120: a scaled block takes the smallest scale
that fits its largest magnitude, an affine block the smallest that fits its span, and the codes are the elements over the
scale, rounded and clamped. That a NaN element sets NV alone is log 74 (DESIGN CHOICE); no clause here speaks of it. -/
def Obligations.VectorOtherResults : Prop :=
  (∀ (d a b c : BitVec 4) (g : RF) (l p m t : BitVec 3) (f r : BitVec 4) (s : State),
    let A := fun k => laneOf t (s.rdV a) k; let B := fun k => laneOf t (s.rdV b) k
    let one := fun (x : Rounded) => (s.wrV d (BitVec.ofNat 512 (x.code % 2 ^ laneBits t))).orFlags x.flags
    (runsA (.vcmp p a b m t c) s → ∃ z, exec (.vcmp p a b m t c) s = .next (s.wrP p z) ∧
      ∀ k, k < 64 → z.getLsbD k = (decide (k < laneCount t) && s.active m k && laneCond t c.toNat (A k) (B k))) ∧
    (runsA (.vsel d a b m t) s → exec (.vsel d a b m t) s = .next (s.wrV d
      (ofLanes (laneBits t) (laneCount t) fun k => if s.active m k then A k else B k))) ∧
    (runsA (.vsum d a m t) s → exec (.vsum d a m t) s = .next (one (reduceLanes s t m (s.rdV a) (sumNeutral t) (laneAdd t)))) ∧
    (runsA (.vmaxr d a m t) s → exec (.vmaxr d a m t) s =
      .next (one (reduceLanes s t m (s.rdV a) (maxNeutral t) (laneMinMax t true)))) ∧
    (runsA (.vext a g c m t) s → exec (.vext a g c m t) s =
      .next (if s.active m c.toNat then s.wrG g (laneWord t (A c.toNat)) else s)) ∧
    (runsA (.vbsc d a l f m t r) s →
      let q := encodeElems (f.toNat + 12) l.toNat r.toNat false (vbscVals s a m t)
      exec (.vbsc d a l f m t r) s = .next ((s.wrV d (BitVec.ofNat 512 (leBytes q.1 0 64))).orFlags q.2))) ∧
  -- the tree
  (∀ (t : BitVec 3) (j : Nat) (xs : List Nat), isFloatT t = false → xs.length = 2 ^ j → (∀ x ∈ xs, x < 2 ^ laneBits t) →
    tree (laneAdd t) j xs = plain (xs.sum % 2 ^ laneBits t) ∧
    (tree (laneMinMax t true) j xs).code ∈ xs ∧ ∀ x ∈ xs, laneInt t x ≤ laneInt t (tree (laneMinMax t true) j xs).code) ∧
  (∀ (f : Nat → Nat → Rounded) (a b c d : Nat), let x := f a b; let y := f c d; let z := f x.code y.code
    tree f 2 [a, b, c, d] = { code := z.code, flags := z.flags ||| (x.flags ||| y.flags) }) ∧
  -- a scaled block
  (∀ (f mode : Nat) (xs : List Machine.Num), let b := quantScaled f mode xs; let big := (xs.map Num.abs).foldl Num.maxN (.fin false 0 1)
    let fits := fun c => ((Num.ofInt 2).mul big).cmp ((Num.ofInt (elemMax2 f)).mul (e3m5 c)) ≠ .gt
    b.zero = 0 ∧ (big.isZero = true → b.scale = 0 ∧ ∀ k, k < xs.length → (xs.getD k .nan).isNan = false → b.codes.getD k 1 = 0) ∧
    (big.isZero = false → 1 ≤ b.scale ∧ b.scale ≤ 255 ∧ (∀ c, 1 ≤ c → c < b.scale → ¬fits c) ∧ (b.scale = 255 ∨ fits b.scale) ∧
      b.codes = xs.map fun y => (roundElem (elemFmt f) mode true (y.divBy (e3m5 b.scale))).code)) ∧
  -- an affine block
  ∀ (f mode : Nat) (xs : List Machine.Num), let b := quantAffine f mode xs
    let hi := xs.foldl Num.maxN (.fin false 0 1); let lo := xs.foldl Num.minN (.fin false 0 1)
    let r := intRange (elemFmt f)
    let fits := fun c => (hi.sum2 lo.neg).cmp ((Num.ofInt ((r.2 - r.1).toNat : Nat)).mul (e5m3 c)) ≠ .gt
    (hi.cmp lo = .eq → b.scale = 0 ∧ b.zero = 0 ∧ b.codes = xs.map fun _ => 0) ∧
    (hi.cmp lo ≠ .eq → 1 ≤ b.scale ∧ b.scale ≤ 255 ∧ (∀ c, 1 ≤ c → c < b.scale → ¬fits c) ∧ (b.scale = 255 ∨ fits b.scale) ∧
      ∃ z : Int, r.1 ≤ z ∧ z ≤ r.2 ∧ b.zero = patOf 8 z ∧
        (∀ n d, lo = .fin true n d ∨ lo = .fin false n d → z = (roundRange r.1 r.2 0 ((Num.ofInt r.1).sum2 (lo.divBy (e5m3 b.scale)).neg)).val) ∧
        (∀ u, lo = .inf u → z = r.2) ∧
        b.codes = xs.map fun y => patOf (elemWidth f) (match y with
          | .nan => z
          | .inf n => if n then r.1 else r.2
          | .fin n k d => max r.1 (min r.2 (roundInt mode ((Num.fin n k d).divBy (e5m3 b.scale)) + z)))
    )

/-- R74, R75, R78: an A word that issues leaves everything but its destination registers: memory, the shadow bank of another holder, the other contexts
and cores, the special registers, the scheduling side of its core, the units and the device; no flag
that was set clears, and a word that writes no vector register leaves FP.FLAGS whole. -/
def Obligations.AWordFrame : Prop :=
  ∀ (i : Instr) (s t : State), i.place = .a → s.iss.fate = .issued → exec i s = .next t → t.iss.fate = .issued →
    sameMem s t ∧ sameOthers s t ∧ sameRegs s t i.destG i.destV i.destP ∧ sameSpecial s t ∧ sameUnits s t ∧
    sameDevice s t ∧ t.me.a.pc = s.me.a.pc ∧ t.me.a.wonly = s.me.a.wonly ∧ t.me.a.fpf &&& s.me.a.fpf = s.me.a.fpf ∧
    (i.destV = [] → t.me.a.fpf = s.me.a.fpf) ∧ t.mine.holder = s.mine.holder ∧ t.mine.sched = s.mine.sched ∧
    (s.mine.holds s.iss.slot = false → t.mine.h = s.mine.h ∧ t.mine.sh = s.mine.sh)

/-! ## C words that stay in their chunk -/

/-- R71, R73, R210-R212: the control transfers; `nop`, which goes on at the next bundle, and the A word `nop`, which does
nothing. A target that is not formed, or cannot be fetched from, is ADDR. -/
def Obligations.TransferResults : Prop :=
  ((∀ s, runsC .nop s → exec .nop s = .next s.opened.advance) ∧ ∀ s, runsA .nopA s → exec .nopA s = .next s) ∧
  ∀ (p : BitVec 3) (n : BitVec 1) (d20 : BitVec 20) (d24 : BitVec 24) (d18 : BitVec 18) (a : RF) (s : State),
    let o := s.opened
    let go := fun (w : State) (t : Option Word) => match t with
      | some pc => w.setPc pc
      | none => raise o (o.tAddr o.iss.pc)
    let far := fun (t : Word) => if o.fetchOk t then o.setPc t else raise o (o.tAddr t)
    (o.early (.br p n d20) = none → exec (.br p n d20) s =
      .next (go o (if (o.rdP p).getLsbD 0 != (n == 1) then moveOff o.iss.pc (8 * d20.toInt) else moveOff o.iss.pc 8))) ∧
    (o.early (.jmp d24) = none → exec (.jmp d24) s = .next (go o (moveOff o.iss.pc (8 * d24.toInt)))) ∧
    (o.early (.call d24) = none → exec (.call d24) s =
      .next (match moveOff o.iss.pc 8 with
        | some r => go (o.wrG 63 r) (moveOff o.iss.pc (8 * d24.toInt))
        | none => raise o (o.tAddr o.iss.pc))) ∧
    (o.early (.jmpi a) = none → exec (.jmpi a) s = .next (far (o.rdG a))) ∧
    (o.early .ret = none → exec .ret s = .next (far (o.rdG 63))) ∧
    (o.early (.loop a d18) = none → exec (.loop a d18) s =
      .next (go (o.wrG a (o.rdG a - 1))
        (if o.rdG a - 1 = 0 then moveOff o.iss.pc 8 else moveOff o.iss.pc (8 * d18.toInt))))

/-- R237-R239: a scalar or vector load from the issuer's own scratchpad, once its checks pass, writes the bytes at
base plus displacement, little-endian and extended, at once. -/
def Obligations.OwnLoadResults : Prop :=
  ∀ (a b c : RF) (v : BitVec 4) (w : BitVec 2) (e : BitVec 12) (s : State) (q : Word),
    let o := s.opened
    let bytes := fun (n : Nat) => leBytes (o.readOwn ((List.range n).map fun i => spKey o.iss.core (pOff (o.res q) + i))) 0 n
    let done := fun (n : Nat) (t : State) =>
      ((t.addRead ((List.range n).map fun i => spKey o.iss.core (pOff (o.res q) + i))).countCtx o.iss.core o.iss.slot 10).advance
    let ok := fun (n : Nat) => o.ownSp (o.res q) = true ∧ o.check q n 0 n = none ∧ o.watch q n 0 = none
    let n := 2 ^ w.toNat
    (moveOff (o.rdG b) e.toInt = some q → ok n →
      (runsC (.ld w a b e) s → exec (.ld w a b e) s = .next (done n (o.wrG a (BitVec.ofInt 64 (toSigned (8 * n) (bytes n)))))) ∧
      (runsC (.ldn w a b e) s → exec (.ldn w a b e) s = .next (done n (o.wrG a (BitVec.ofNat 64 (bytes n)))))) ∧
    (moveOff (o.rdG b) (o.rdG c).toInt = some q → ok n →
      (runsC (.ldx a b c (w.setWidth 3)) s → exec (.ldx a b c (w.setWidth 3)) s =
        .next (done n (o.wrG a (BitVec.ofInt 64 (toSigned (8 * n) (bytes n)))))) ∧
      (runsC (.ldx a b c (w.setWidth 3 + 4)) s → exec (.ldx a b c (w.setWidth 3 + 4)) s =
        .next (done n (o.wrG a (BitVec.ofNat 64 (bytes n)))))) ∧
    (moveOff (o.rdG b) (64 * e.toInt) = some q → ok 64 → runsC (.vld v b e) s →
      exec (.vld v b e) s = .next (done 64 (o.wrV v (BitVec.ofNat 512 (bytes 64)))))

/-- R93, R97, R237: a load elsewhere is long: the destination's scoreboard bit is set and its request enters the
fabric, or, past the limits of R97, its bundle does not issue. -/
def Obligations.LongLoadStarts : Prop :=
  ∀ (a b c : RF) (v : BitVec 4) (w : BitVec 2) (e : BitVec 12) (s : State) (q : Word),
    let o := s.opened; let n := 2 ^ w.toNat
    ∀ p ∈ [(Instr.ld w a b e, e.toInt, n, Conv.sx n, o.dstG a), (.ldn w a b e, e.toInt, n, .zx n, o.dstG a),
           (.ldx a b c (w.setWidth 3), (o.rdG c).toInt, n, .sx n, o.dstG a),
           (.ldx a b c (w.setWidth 3 + 4), (o.rdG c).toInt, n, .zx n, o.dstG a), (.vld v b e, 64 * e.toInt, 64, .vec, .v v)],
      runsC p.1 s → moveOff (o.rdG b) p.2.1 = some q → o.ownSp (o.res q) = false → o.check q p.2.2.1 0 p.2.2.1 = none →
      o.watch q p.2.2.1 0 = none →
      let u := startLoad o q p.2.2.1 p.2.2.2.2 p.2.2.2.1
      (o.canLong = true → exec p.1 s = .next u.advance ∧ u.mem = o.mem ∧ u.net = o.net ++
        [o.request o.iss.core o.iss.slot false (destOf (o.res q)) (o.isTso (o.res q)) true (.load [o.res q] p.2.2.1) (some q)]) ∧
      (o.canLong = false → exec p.1 s = .next (hold97 o))

/-- R163, R237-R239, R153: a store that passes its checks, whose page no migration holds, and that finds room enters the store
buffer of the chunk as the bytes of its source at the address that base and displacement give; no byte of memory changes but
those of page descriptors that its translation updates. -/
def Obligations.StoreResults : Prop :=
  ∀ (a b c : RF) (v : BitVec 4) (w : BitVec 2) (e : BitVec 12) (s : State) (q : Word),
    let o := s.opened
    let n := 2 ^ w.toNat
    let ok := fun (n : Nat) (bs : List Byte) => o.check q n 1 n = none ∧ o.watch q n 1 = none ∧ o.me.hasRoom [o.storeRec q bs] = true
    let put := fun (i : Instr) (n : Nat) (bs : List Byte) =>
      ((((o.touchOwn (o.res q) n 1).buffer [o.storeRec q bs]).markViol i)).advance
    let bs := natBytes n (o.rdG a).toNat
    let vs := natBytes 64 (o.rdV v).toNat
    (moveOff (o.rdG b) e.toInt = some q → ok n bs → runsC (.st w a b e) s →
      exec (.st w a b e) s = .next (put (.st w a b e) n bs)) ∧
    (moveOff (o.rdG b) (o.rdG c).toInt = some q → ok n bs → runsC (.stx a b c w) s →
      exec (.stx a b c w) s = .next (put (.stx a b c w) n bs)) ∧
    (moveOff (o.rdG b) (64 * e.toInt) = some q → ok 64 vs → runsC (.vst v b e) s →
      exec (.vst v b e) s = .next (put (.vst v b e) 64 vs))

/-- R163, R150: a store that issues writes no byte of memory (its bytes wait in the store buffer for the commit): every byte reads as before but those
of two page descriptors, which its translations update: those of the frames that the walk finds for the first and for the last byte
that it addresses; and all of memory reads as before when the store is not to the memory of its own die. Nothing else changes but
the chunk, FP.FLAGS for `vstf` alone, and what a translation fills: the dies keep everything but their translation caches, which only
gain entries, and the counters that count the walk and its update (R405). -/
def Obligations.StoreFrame : Prop :=
  ∀ (i : Instr) (b : RF) (s t : State), s.iss.fate = .issued → exec i s = .next t → t.iss.fate = .issued →
    ((∃ w a e, i = .st w a b e) ∨ (∃ a c w, i = .stx a b c w) ∨ (∃ v e, i = .vst v b e) ∨ (∃ v c m u, i = .vstf v b c m u)) →
    sameOthers s t ∧ sameRegs s t [] [] [] ∧ sameSpecial s t ∧ sameUnits s t ∧ t.net = s.net ∧
    t.halves = s.halves ∧ t.engines = s.engines ∧ ((∀ v c m u, i ≠ .vstf v b c m u) → t.me.a.fpf = s.me.a.fpf) ∧
    (∀ e, { t.die e with tlb := (s.die e).tlb, cnt := (s.die e).cnt } = s.die e ∧ (s.die e).tlb <+: (t.die e).tlb) ∧
    (s.ownDie (s.res (s.rdG b)) = false → sameMem s t) ∧
    ∃ p n, s.storeArea i = some (p, n) ∧
      ∀ k, outsidePages s (dieOf s.iss.core) false s.tenant (pOff (s.res p)) n k → memGet t.mem k = memGet s.mem k

/-- R240-R243: the formatted vector words on the issuer's own scratchpad. -/
def Obligations.FormattedResults : Prop :=
  ∀ (v : BitVec 4) (b c : RF) (m t : BitVec 3) (s : State) (nb : Nat),
    let o := s.opened
    let p := o.rdG b
    let n := (o.rdG c).toNat
    let ks := o.byteKeys (o.res p) nb
    let bs := o.readOwn ks
    let val := BitVec.ofNat 512 (convVal (.vform (pFmt p) (pBlg p) n t) bs 0)
    let r := encodeElems (pFmt p) (pBlg p) m.toNat false ((List.range n).map fun k => laneNum t (laneOf t (o.rdV v) k))
    let zero := List.replicate nb (0 : Byte)
    formSize o p n t = .ok nb → 0 < nb → o.ownSp (o.res p) = true → zpAnyBad (pFmt p) (pBlg p) n bs = false →
    o.check p nb 0 1 = none → o.check p nb 1 1 = none → o.watch p nb 0 = none → o.watch p nb 1 = none →
    (runsC (.vldf v b c t) s → exec (.vldf v b c t) s =
      .next (((o.wrV v val).addRead ks).countCtx o.iss.core o.iss.slot 10).advance) ∧
    (o.me.hasRoom [o.storeRec p r.1] = true → runsC (.vstf v b c m t) s → exec (.vstf v b c m t) s =
      .next ((((o.touchOwn (o.res p) nb 1).buffer [o.storeRec p r.1]).orFlags r.2).markViol (.vstf v b c m t)).advance) ∧
    (o.me.hasRoom [o.storeRec p zero] = true → runsC (.vldt v b c t) s → exec (.vldt v b c t) s =
      .next ((((((o.wrV v val).addRead ks).countCtx o.iss.core o.iss.slot 10).buffer [o.storeRec p zero]).markViol
        (.vldt v b c t))).advance)

/-- R244: `vgath` and `vscat` are long; the gathered lanes, or the sixteen stores entering the buffer together, come 24 cycles later when every
element lies in the issuer's own scratchpad; and when some lie elsewhere, both wait for what is there. How they ask is the model's choice and not
R244's: one request that names the sixteen elements is log 35 (DESIGN CHOICE), and the probe of a `vscat`, which only comes and goes, with the
element stores checked where they are performed, log 47 (DEDUCED). -/
def Obligations.GatherScatterResults : Prop :=
  ∀ (v x : BitVec 4) (b : RF) (t : BitVec 3) (s : State),
    let o := s.opened
    let w := laneBits t / 8
    let es := elemPtrs (o.rdG b) (o.rdV x) w
    let qs := es.filterMap id
    let rs := qs.map o.res
    let ks := (rs.map fun r => o.byteKeys r w).flatten
    let recs := qs.mapIdx fun k q => { o.storeRec q (natBytes w (laneOf t (o.rdV v) k)) with sc := true }
    o.canLong = true →
    (runsC (.vgath v b x t) s → elemChecks o (o.rdG b) es w 0 = none →
      (rs.all o.ownSp = true → ∃ l u, exec (.vgath v b x t) s = .next (State.addLong u l).advance ∧
        l.dst = .v v ∧ l.val = some (convVal (.lanes t) (o.readOwn ks) 0) ∧ l.due = some (o.mine.cyc + 24) ∧ u.mem = o.mem) ∧
      (rs.all o.ownSp = false → ∃ l u, exec (.vgath v b x t) s = .next (State.addLong u l).advance ∧
        l.dst = .v v ∧ l.val = none ∧ l.body = some (.load rs w) ∧ l.id = o.nextId ∧ u.mem = o.mem ∧ ∃ r, u.net = o.net ++ [r] ∧
        r.id = o.nextId ∧ r.body = .load rs w ∧ r.ord = false)) ∧
    (runsC (.vscat v b x t) s → elemChecks o (o.rdG b) es w 1 = none → o.me.hasRoom recs = true →
      (rs.all o.ownSp = true → ∃ l u, exec (.vscat v b x t) s = .next ((State.addLong u l).markViol (.vscat v b x t)).advance ∧
        l.dst = .none ∧ l.scat = recs ∧ l.due = some (o.mine.cyc + 24)) ∧
      (rs.all o.ownSp = false → ∃ l u, exec (.vscat v b x t) s = .next ((State.addLong u l).markViol (.vscat v b x t)).advance ∧
        l.dst = .none ∧ l.scat = recs ∧ l.body = some (.probe rs w)))

/-- R228, R229, R232, R252, R268, R275, R284, R295, R299, R359, R375, R186: the words that read a value of the core, or of its
own rings, channels and counters, into G[a] and go on; and `kload`, which reads 8 bytes of the slot of a key that hits,
and takes KMISS for one that does not. That `ipeek` is checked against the range locks is log 20, and that
`tgstat` reads its unit at issue log 11 (DEDUCED both). -/
def Obligations.ReadWordResults : Prop :=
  (∀ (a b : RF) (n : BitVec 12) (f : BitVec 6) (s : State),
     let o := s.opened; let k := o.mine; let x := o.rdG b
     (runsC (.tmark a) s → exec (.tmark a) s = .next (o.traceUser o.iss.core o.iss.slot (o.rdG a)).advance) ∧
     (runsC (.cnt a) s → exec (.cnt a) s = .next (o.wrG a (k.rot.zeroExtend 64)).advance) ∧
     (runsC (.crr a n) s → n.toNat < 0x800 ∨ o.me.priv = true → exec (.crr a n) s = .next (o.wrG a (crRead o n.toNat)).advance) ∧
     (runsC (.ipeek a) s → let u := ((k.ring 0).w - (k.ring 0).c).toNat
       (u = 0 → exec (.ipeek a) s = .next (o.wrG a 0).advance) ∧
       (u ≠ 0 → entryLocked o 4 = none → exec (.ipeek a) s = .next (o.wrG a
         (BitVec.ofNat 64 (memNat o.mem (spKey o.iss.core ((k.ring 0).slotOff (k.ring 0).c)) 4 * 2 ^ 32 + u))).advance) ∧
       ∀ t, u ≠ 0 → entryLocked o 4 = some t → exec (.ipeek a) s = .next (raise o t)) ∧
     (runsC (.klook a b) s → exec (.klook a b) s =
       .next ((o.countLook (k.km.lookup (keyOf x)).1).wrG a (kStatus (k.km.lookup (keyOf x)).1 (k.km.lookup (keyOf x)).2)).advance) ∧
     (runsC (.cpwp a b) s → x.toNat < 2 → exec (.cpwp a b) s = .next (o.wrG a (k.ch x.toNat).wp).advance) ∧
     (runsC (.mbrd a b) s → mbOk x = true → o.ownSp (o.res x) = true →
       exec (.mbrd a b) s = .next (o.wrG a ((vget k.mbox (mbIdx x) 0).zeroExtend 64)).advance) ∧
     (runsC (.wfield a f) s → exec (.wfield a f) s = .next (o.wrG a (widField o.me.a.wid o.me.a.widf f.toNat)).advance) ∧
     (runsC (.rstat a b) s → objIdx x = 0 → (s.mine.ring 0).obj = none →
       exec (.rstat a b) s = .next (o.wrG a ((o.mine.ring 0).stat (x.extractLsb' 16 2).toNat)).advance) ∧
     (runsC (.tgstat a b) s → tgstatRsv x = false → o.canLong = true → exec (.tgstat a b) s =
       .next (o.freshId.addLong { o.newLong o.nextId (o.dstG a) .word with val := some (tgstatWord o x) }).advance)) ∧
  ∀ (a b c : RF) (s : State),
    let o := s.opened; let m := o.mine.km; let off := (o.rdG c).toNat; let l := m.lookup (keyOf (o.rdG b))
    let at_ := m.slotOff l.2 + off
    let q : Word := (0 : BitVec 10) ++ (0x3FF : BitVec 10) ++ (0xFFF : BitVec 12) ++ BitVec.ofNat 32 (at_ % 2 ^ 18)
    runsC (.kload a b c) s →
    (m.sizelog = 0 ∨ off % 8 ≠ 0 ∨ 2 ^ m.sizelog.toNat < off + 8 → exec (.kload a b c) s = .next (raise o (o.tAddr (o.rdG c)))) ∧
    (m.sizelog ≠ 0 → off % 8 = 0 → off + 8 ≤ 2 ^ m.sizelog.toNat →
      (l.1 ≠ stHIT → let t := keyMiss o a (o.rdG b) l.1 l.2
        (heldByBusy o o.iss.core o.iss.slot t.cause = false → exec (.kload a b c) s = .next (raise (o.countLook l.1) t)) ∧
        (heldByBusy o o.iss.core o.iss.slot t.cause = true → exec (.kload a b c) s = .next (raise o t))) ∧
      (∀ t, l.1 = stHIT → o.check q 8 0 8 = some t → heldByBusy o o.iss.core o.iss.slot t.cause = false →
        exec (.kload a b c) s = .next (raise (o.countLook stHIT) t)) ∧
      (l.1 = stHIT → o.check q 8 0 8 = none → o.watch q 8 0 = none → ∃ u, exec (.kload a b c) s = .next (State.advance u) ∧
        (∀ r, r ≠ a → u.nowG r = o.nowG r) ∧ u.mem = o.mem ∧
        (o.iss.slot.toNat < 11 → a ≠ 0 → u.nowG a = BitVec.ofNat 64
          (leBytes (o.readOwn ((List.range 8).map fun i => spKey o.iss.core (at_ + i))) 0 8))))

/-- R98, R102, R213, R218, R58, R271, R295, R299, R332: a waiting word that keeps its chunk open completes at once when its condition holds, and goes
on; else it enters the wait table with its limit, and its context waits. `hjoin` of a slot VACANT at issue completes at once; of another
it waits for the occupant present at issue. -/
def Obligations.OpenWaits : Prop :=
  ∀ (a b c : RF) (s : State),
    let o := s.opened
    let k := o.mine
    let wt := fun (i : Instr) (vs : List Word) (lim : RF) => o.newWait i vs (limitOf (o.rdG lim))
    (runsC (.park a) s → exec (.park a) s = .next (if (k.ring 0).w ≠ (k.ring 0).c then o.advance else park o (wt (.park a) [] a))) ∧
    (runsC (.hjoin a b) s → 1 ≤ (o.rdG a).toNat → (o.rdG a).toNat ≤ 10 → exec (.hjoin a b) s =
      .next (let x := k.ctx (BitVec.ofNat 4 (o.rdG a).toNat)
        if x.st = .vacant then o.advance else park o { wt (.hjoin a b) [o.rdG a] b with occ := x.occ })) ∧
    (runsC (.kwait a b c) s → exec (.kwait a b c) s =
      .next (let l := k.km.lookup (keyOf (o.rdG b))
        if l.1 = stBUSY then park o (wt (.kwait a b c) [o.rdG b] c)
        else (o.wrG a (kStatus l.1 l.2)).advance)) ∧
    (runsC (.cpwait a b c) s → (o.rdG b).toNat < 2 → exec (.cpwait a b c) s =
      .next (let h := k.ch (o.rdG b).toNat
        if h.st = .active then park o (wt (.cpwait a b c) [o.rdG b] c)
        else (o.wrG a (cpStatus h)).advance)) ∧
    (runsC (.mbwait a b c) s → mbOk (o.rdG a) = true → o.ownSp (o.res (o.rdG a)) = true → exec (.mbwait a b c) s =
      .next (if 0 ≤ (vget k.mbox (mbIdx (o.rdG a)) 0 - (o.rdG b).extractLsb' 0 32).toInt then o.advance
        else park o (wt (.mbwait a b c) [o.rdG a, o.rdG b] c)))

/-- R228, R210, R237: a word that stays in its chunk and issues leaves every byte of memory, the other contexts and
cores, the special registers, the units, and every register but its destinations; flags stay. -/
def Obligations.CWordFrame : Prop :=
  ∀ (i : Instr) (s t : State), s.iss.fate = .issued → exec i s = .next t → t.iss.fate = .issued →
    (i = .nop ∨ (∃ p n d, i = .br p n d) ∨ (∃ d, i = .jmp d) ∨ (∃ d, i = .call d) ∨ (∃ a, i = .jmpi a) ∨ i = .ret ∨
      (∃ a d, i = .loop a d) ∨ (∃ a, i = .cnt a) ∨ (∃ a n, i = .crr a n) ∨ (∃ w a b e, i = .ld w a b e) ∨
      (∃ w a b e, i = .ldn w a b e) ∨ (∃ a b c w, i = .ldx a b c w) ∨ (∃ v b e, i = .vld v b e) ∨ (∃ v b c u, i = .vldf v b c u) ∨
      (∃ v b x u, i = .vgath v b x u) ∨ (∃ a, i = .ipeek a) ∨ (∃ a b, i = .klook a b) ∨ (∃ a b c, i = .kload a b c) ∨
      (∃ a b, i = .cpwp a b) ∨ (∃ a b, i = .mbrd a b) ∨ (∃ a n, i = .wfield a n) ∨ (∃ a b, i = .tgstat a b)) →
    sameMem s t ∧ sameOthers s t ∧ sameRegs s t i.destG i.destV i.destP ∧ sameSpecial s t ∧ sameUnits s t ∧
    t.dies = s.dies ∧ t.halves = s.halves ∧ t.engines = s.engines ∧ t.me.a.fpf = s.me.a.fpf ∧
    (s.iss.slot.toNat < 11 → t.me.a.wonly = false)

/-! ## Words that end their chunk -/

/-- R167, R166, R168, R354: an accepted commit performs the near stores of the buffer in order, those to other cores' scratchpads among them (of a
SAVED core on its copy), closes the chunk, sends the far stores in program order as operations of R175, and keeps every register; memory changes at
the keys of the near stores alone. That each far store of the buffer is one request of its own is the model's choice (log 12, DEDUCED). -/
def Obligations.CommitPerformsStores : Prop :=
  ∀ (s : State) (c : CoreId) (n : SlotNo) (ch : Chunk), n.toNat < 11 → (s.ctx c n).chunk = some ch →
    (commitChunk s c n).2 = true →
    let t := (commitChunk s c n).1
    let near := (ch.buf.filter fun r => r.near && nearAllowed s c n r).map fun r => { r with keys := r.keys.map (nearKey s) }
    let far := ch.buf.filter fun r => !r.near
    (∀ k, memGet t.mem k = (bufByte near k).getD (memGet s.mem k)) ∧
    ((∀ r ∈ ch.buf, r.near = true → nearAllowed s c n r = true) →
      (t.ctx c n).chunk = none ∧ (t.ctx c n).squashes = 0 ∧ (t.ctx c n).a = { (s.ctx c n).a with wonly := false } ∧
      ∃ reqs, t.net = s.net ++ reqs ∧ reqs.length = far.length ∧ t.nextId = s.nextId + far.length ∧
        ∀ i r, far[i]? = some r → ∃ q, reqs[i]? = some q ∧ q.id = s.nextId + i ∧ q.core = c ∧ q.slot = n ∧ q.ord = true ∧
          q.dest = destOf r.ptr ∧ q.ret = false ∧ q.body = .store r.ptr r.bytes r.sc ∧ q.tenant = (s.core c).tenantOf n ∧
          q.priv = (s.ctx c n).priv)

/-- R170: a squash restores the snapshot, discards the store buffer and cancels the chunk's long operations: each stays
outstanding without a destination, whose result is then discarded; and no byte of memory changes. -/
def Obligations.SquashRestoresSnapshot : Prop :=
  ∀ (s : State) (c : CoreId) (n : SlotNo) (ch : Chunk), n.toNat < 11 → (s.ctx c n).chunk = some ch →
    let t := squash s c n
    t.mem = s.mem ∧ (t.ctx c n).a = ch.snap ∧ (t.ctx c n).chunk = none ∧
    (t.ctx c n).wait = none ∧ (t.ctx c n).squashes = (s.ctx c n).squashes + 1 ∧
    (∀ l ∈ (t.ctx c n).long, l.inChunk = false) ∧ (t.ctx c n).long.length = (s.ctx c n).long.length ∧
    (∀ (i : Nat) (l : LongOp), (s.ctx c n).long[i]? = some l → (t.ctx c n).long[i]? =
      some (if l.inChunk then { l with cancelled := true, inChunk := false, dst := .none } else l))

/-- R246, R247, R169, R97: `amo`, `acas` and `red` on the issuer's own scratchpad read and write their word indivisibly in
the turn of the commit, unless the token holder's chunk meets it, `red` once the earlier operations of R175 to this device have
been performed (R176); elsewhere the operation enters the fabric, and `amo` and `acas` wait for its reply. -/
def Obligations.AtomicResults : Prop :=
  ∀ (a b c : RF) (w : BitVec 1) (op : BitVec 4) (s : State),
    let o := s.opened; let p := s.rdG b; let x := s.rdG c; let n := amoBytes w; let q := o.res p
    let new := fun (m : State) => amoNew op.toNat n (memNat m.mem (m.ownKey p) n) (cutTo n x)
    let old := fun (m : State) => memNat m.mem (m.ownKey p) n
    let free := unheld (fun m => m.holdWrite (m.ownKey p) n) s
    atomicCheck o p n = none →
    (endsAt (.amo a b c w op) s → let m := s.committed (.amo a b c w op)
      (o.ownSp q = true → free → exec (.amo a b c w op) s =
        .next (((writeSquash m (m.ownKey p) (natBytes n (new m))).wrG a (amoResult op.toNat n (old m))).advance)) ∧
      (o.ownSp q = false → mayLong s → exec (.amo a b c w op) s =
        .next (startOp (m.touchOwn q n 2) true q (.amo q x w op) (m.dstG a) p).advance)) ∧
    (endsAt (.acas a b c w) s → let m := s.committed (.acas a b c w)
      (o.ownSp q = true → free → exec (.acas a b c w) s =
        .next (((if old m = cutTo n (s.rdG a) then writeSquash m (m.ownKey p) (natBytes n (cutTo n x)) else m).wrG a
          (BitVec.ofNat 64 (old m))).advance)) ∧
      (o.ownSp q = false → mayLong s → exec (.acas a b c w) s =
        .next (startOp (m.touchOwn q n 2) true q (.acas q (s.rdG a) x w) (m.dstG a) p).advance)) ∧
    (endsAt (.red b c w op) s → let m := s.committed (.red b c w op)
      (o.ownSp q = true → released s → free → exec (.red b c w op) s =
        .next (writeSquash m (m.ownKey p) (natBytes n (new m))).advance) ∧
      (o.ownSp q = false → exec (.red b c w op) s =
        .next (sendOp (m.touchOwn q n 2) true false q (.amo q x w op) (some p)).advance))

/-- R169, R245: the write of an atomic changes the bytes of its word and no other byte of memory. -/
def Obligations.AtomicMemoryFrame : Prop :=
  ∀ (s : State) (k n : Nat) (f : Nat → Option Nat) (j : Nat), (j < k ∨ k + n ≤ j) →
    memGet (atomicAt s k n f).mem j = memGet s.mem j ∧
    (∀ v, f (memNat s.mem k n) = some v → v < 2 ^ (8 * n) → memNat (atomicAt s k n f).mem k n = v) ∧
    (f (memNat s.mem k n) = none → atomicAt s k n f = s)

/-- R178, R248, R250, R251, R188, R186: `fence` completes when none of the operations that it awaits is outstanding, and waits
else; `post` to the issuer's own inbox, which makes the checks of a store at its slot; `recv` of an entry that is there, unless a
range lock meets it; and both where they cannot go on at once. The commit and then the wait are log 13, what `fence` awaits log
15, the checks of an own inbox log 20, and the order behind the earlier operations log 62 (DEDUCED). -/
def Obligations.InboxResults : Prop :=
  (∀ (k : BitVec 2) (s : State), endsAt (.fence k) s →
     let m := s.committed (.fence k)
     (fenceIds m k.toNat = [] → exec (.fence k) s = .next m.advance) ∧
     (fenceIds m k.toNat ≠ [] →
       exec (.fence k) s = .next (park m { m.newWait (.fence k) [] none with ids := fenceIds m k.toNat }))) ∧
  ∀ (a b c : RF) (n : BitVec 6) (s : State),
    let o := s.opened; let p := s.rdG b; let q := o.res p
    let ws := (List.range n.toNat).map fun i => s.rdG (grp c i)
    (postCheck o p = none → endsAt (.post a b c n) s →
      let m := s.committed (.post a b c n); let r := m.mine.ring 0
      (o.ownSp q = true → released s → unheld (fun m => if (m.mine.ring 0).inboxFull then none else
          m.holdWrite (spKey m.iss.core ((m.mine.ring 0).slotOff (m.mine.ring 0).w)) 64) s →
        (r.inboxFull = false → exec (.post a b c n) s = .next ((((writeSquash m (spKey m.iss.core (r.slotOff r.w)) (entryBytes ws)).modCore
          m.iss.core fun k => k.setRing 0 { r with w := r.w + 1 }).wrG a (BitVec.ofNat 64 (r.n - (r.w + 1 - r.c).toNat))).advance)) ∧
        (r.inboxFull = true → exec (.post a b c n) s = .next (((if a = 0 then m.modCore m.iss.core fun k =>
          k.setRing 0 { r with drops := r.drops + 1 } else m).wrG a (BitVec.allOnes 64)).advance))) ∧
      (o.ownSp q = false → a ≠ 0 → mayLong s →
        exec (.post a b c n) s = .next (startOp m true q (.post q ws true) (m.dstG a) p).advance) ∧
      (o.ownSp q = false → a = 0 → exec (.post a b c n) s = .next (sendOp m true false q (.post q ws false) (some p)).advance)) ∧
    (o.ownSp q = true → (o.mine.ring 0).inboxFull = false → pSpc p = 0 → p.extractLsb' 18 14 = 0 → runsC (.post a b c n) s →
      let e := inboxNext o o.iss.core
      ∀ t, (o.checkProt e 64 1).or ((o.checkLock e 64 1).or (o.watch e 64 1)) = some t → exec (.post a b c n) s = .next (raise o t)) ∧
    (endsAt (.recv a b) s → entryLocked o 64 = none →
      let m := s.committed (.recv a b); let r := m.mine.ring 0
      let w := fun (i : Nat) => BitVec.ofNat 64 (memNat m.mem (spKey m.iss.core (r.slotOff r.c) + 8 * i) 8)
      (r.w ≠ r.c → exec (.recv a b) s = .next
        ((((List.range 8).foldl (fun s i => s.wrG (grp a i) (w i)) m).modMine fun k =>
          k.setRing 0 { r with c := r.c + 1, f := r.c + 1 })).advance) ∧
      (r.w = r.c → exec (.recv a b) s = .next (park m (m.newWait (.recv a b) [] (limitOf (m.rdG b)))))) ∧
    (∀ t, runsC (.recv a b) s → entryLocked o 64 = some t → exec (.recv a b) s = .next (raise o t))

/-- R266, R269-R278, R188: the key-map words that end their chunk: the map that the operation leaves, and its result. -/
def Obligations.KeyMapResults : Prop :=
  ∀ (a b c : RF) (w1 : BitVec 6) (base cnt : BitVec 12) (sz : BitVec 4) (off : BitVec 18) (s : State),
    (∀ p ∈ [(Instr.kclaim a b c, fun (m : State) => m.mine.km.claim (keyOf (m.rdG b)) (m.rdG c)),
            (.kunbind a b, fun m => m.mine.km.unbind (keyOf (m.rdG b))), (.kunpin a b, fun m => m.mine.km.unpin (keyOf (m.rdG b))),
            (.kscan a, fun m => m.mine.km.scan),
            (.kwin a b c w1 base, fun m => m.mine.km.window ((m.rdG b).extractLsb' 0 32) ((m.rdG c).extractLsb' 0 24)
              (w1.toNat + 1) base.toNat)],
      endsAt p.1 s → let m := s.committed p.1
      exec p.1 s = .next ((m.setKm (p.2 m).1).wrG a (p.2 m).2).advance) ∧
    (endsAt (.kpin a b) s → let m := s.committed (.kpin a b); let k := keyOf (s.opened.rdG b)
      (s.opened.mine.km.bindsKey k = false ∨ s.opened.mine.km.pinOf k < 15 →
        exec (.kpin a b) s = .next ((m.setKm (m.mine.km.pin (keyOf (m.rdG b))).1).wrG a (m.mine.km.pin (keyOf (m.rdG b))).2).advance)) ∧
    (∀ p ∈ [(Instr.kready a, fun (m : State) => m.mine.km.ready (keyOf (m.rdG a))), (.kinv a, fun m => m.mine.km.inv (m.rdG a))],
      endsAt p.1 s → (p.1 = .kready a → released s) → let m := s.committed p.1
      exec p.1 s = .next (m.setKm (p.2 m)).advance) ∧
    (endsAt (.kcfg sz cnt off) s → 16 * (off.toNat / 16) + (cnt.toNat + 1) * 2 ^ sz.toNat ≤ 2 ^ 18 →
      let m := s.committed (.kcfg sz cnt off)
      exec (.kcfg sz cnt off) s = .next (m.setKm { KeyMap.zero with offset := off.extractLsb' 4 14, sizelog := sz, count := cnt }).advance)

/-- R264, R265, R269, R270, R272-R274, R276, R277: the key map. How a key resolves, and what the words of a failure hold. A key that a claim of a
slot takes resolves to BUSY at that slot, and a claim of a window position takes it for the block, or fails; one made ready resolves from BUSY to
HIT at the same slot, and moves the head of its window; an unbound or an invalidated key no longer has an EXACT entry, and an invalidated prefix no
window. A pin changes no resolution, survives `kready`, and fails where no entry stands or none is left; the scan takes the first slot from HAND
that qualifies; a new window binds its slots, and its first claim is of the block behind its head. -/
def Obligations.KeyMapLifeCycle : Prop :=
  ∀ (m : KeyMap) (k : BitVec 56) (c x : Word),
    let ones := BitVec.allOnes 64
    let l := m.lookup k; let b := keyBlock k
    let ex := m.exact_.find? (·.key == k); let wi := m.wins.find? (·.prefix32 == keyPre k)
    (∀ st slot r, st < 4 → r < 16 → slot < 2 ^ 12 → (kFail st slot r).extractLsb' 62 2 = BitVec.ofNat 2 st ∧
      (kFail st slot r).extractLsb' 56 4 = BitVec.ofNat 4 r ∧ (kFail st slot r).extractLsb' 0 12 = BitVec.ofNat 12 slot ∧
      (kFail st slot r).extractLsb' 12 44 = 0 ∧ (kFail st slot r).extractLsb' 60 2 = 0 ∧ kFail st slot 0 = kStatus st slot) ∧
    (∀ e, ex = some e → l = (if e.valid then stHIT else stBUSY, e.slot)) ∧
    (ex = none → wi = none → l = (stMISS, 0)) ∧
    (∀ w, ex = none → wi = some w → let j := b.toNat % w.pos.length; let p := w.at_ j; let d := (b - w.head - 1).toNat
      (p.tag = b → p.st = posValid → l = (stHIT, w.base + j)) ∧ (p.tag = b → p.st = posBusy → l = (stBUSY, w.base + j)) ∧
      (p.tag ≠ b ∨ p.st = posInvalid → l = (if d ≠ 0 ∧ d < 2 ^ 23 then stGAP else stMISS, w.base + j))) ∧
    (c ≠ ones → (m.claim k c).2 = 0 → (m.claim k c).1.lookup k = (stBUSY, c.toNat)) ∧
    (c ≠ ones → (ex ≠ none → m.claim k c = (m, kFail l.1 l.2 1)) ∧ (ex = none → (m.slots ≤ c.toNat → m.claim k c = (m, kFail l.1 l.2 7)) ∧
      (c.toNat < m.slots → (m.bound c.toNat = true → m.claim k c = (m, kFail l.1 l.2 2)) ∧ (m.bound c.toNat = false →
        (1024 ≤ m.inUse → m.claim k c = (m, kFail l.1 l.2 3)) ∧ (m.inUse < 1024 → (m.claim k c).2 = 0))))) ∧
    (wi = none → m.claim k ones = (m, kFail l.1 l.2 8)) ∧
    (∀ w, wi = some w → let j := b.toNat % w.pos.length; let d := (b - w.head - 1).toNat
      (l.1 = stHIT ∨ l.1 = stBUSY → m.claim k ones = (m, kFail l.1 l.2 1)) ∧ (l.1 = stGAP → m.claim k ones = (m, kFail l.1 l.2 10)) ∧
      (l.1 = stMISS → (2 ^ 23 ≤ d → m.claim k ones = (m, kFail l.1 l.2 9)) ∧ (d < 2 ^ 23 →
        ((w.at_ j).pin ≠ 0 → m.claim k ones = (m, kFail stBUSY l.2 4)) ∧
        ((w.at_ j).pin = 0 → 0 < w.pos.length → (m.claim k ones).2 = 0 ∧ (m.claim k ones).1.lookup k = (stBUSY, w.base + j) ∧
          (∀ k', keyPre k' = keyPre k → (keyBlock k').toNat % w.pos.length = j → k' ≠ k → m.exact_.find? (·.key == k') = none →
            (m.claim k ones).1.bindsKey k' = false) ∧
          ∀ k', keyPre k' ≠ keyPre k ∨ (keyBlock k').toNat % w.pos.length ≠ j → (m.claim k ones).1.lookup k' = m.lookup k')))) ∧
    (l.1 = stBUSY → (m.ready k).lookup k = (stHIT, l.2)) ∧
    (l.1 = stBUSY → ex = none → ((m.ready k).wins.find? (·.prefix32 == keyPre k)).map (·.head) = some b) ∧
    (l.1 ≠ stBUSY → m.ready k = m) ∧
    (∀ k', (m.ready k).pinOf k' = m.pinOf k') ∧
    (l.1 = stMISS ∨ l.1 = stGAP → m.unbind k = (m, kFail l.1 l.2 6) ∧ m.pin k = (m, kFail l.1 l.2 6) ∧ m.unpin k = (m, kFail l.1 l.2 6)) ∧
    (l.1 = stHIT ∨ l.1 = stBUSY → ex = none → m.unbind k = (m, kFail l.1 l.2 8)) ∧
    (∀ e, ex = some e → (e.valid = false → m.unbind k = (m, kFail l.1 l.2 5)) ∧ (e.valid = true → e.pin ≠ 0 → m.unbind k = (m, kFail l.1 l.2 4)) ∧
      (e.valid = true → e.pin = 0 → (m.unbind k).2 = 0)) ∧
    ((m.unbind k).2 = 0 → (m.unbind k).1.exact_.any (·.key == k) = false) ∧
    (∀ k', k' ≠ k → ((m.unbind k).1.exact_.find? (·.key == k')) = m.exact_.find? (·.key == k')) ∧
    (x.getLsbD 63 = false → (m.inv x).exact_.any (·.key == keyOf x) = false ∧ (m.inv x).wins = m.wins ∧
      ∀ k', k' ≠ keyOf x → (m.inv x).exact_.find? (·.key == k') = m.exact_.find? (·.key == k')) ∧
    (x.getLsbD 63 = true → (m.inv x).wins.any (·.prefix32 == x.extractLsb' 0 32) = false ∧ (m.inv x).exact_ = m.exact_ ∧
      ∀ p, p ≠ x.extractLsb' 0 32 → (m.inv x).wins.find? (·.prefix32 == p) = m.wins.find? (·.prefix32 == p)) ∧
    (l.1 = stHIT ∨ l.1 = stBUSY →
      (∀ u ∈ [m.pin k, m.unpin k], (∀ k', u.1.lookup k' = m.lookup k') ∧ ∀ k', (m.lookup k').2 ≠ l.2 → u.1.pinOf k' = m.pinOf k') ∧
      (m.pin k).2 = 0 ∧ (m.pin k).1.pinOf k = m.pinOf k + 1 ∧ (m.pinOf k = 0 → m.unpin k = (m, kFail l.1 l.2 11)) ∧
      (m.pinOf k ≠ 0 → (m.unpin k).2 = 0 ∧ (m.unpin k).1.pinOf k = m.pinOf k - 1)) ∧
    (let at_ := fun (i : Nat) => (m.hand.toNat + i) % m.slots
      let fits := fun (sl : Nat) => ∃ e ∈ m.exact_, e.slot = sl ∧ e.valid = true ∧ e.pin = 0
      (∀ i, i < m.slots → fits (at_ i) → (∀ j, j < i → ¬fits (at_ j)) →
        m.scan = ({ m with hand := BitVec.ofNat 12 ((at_ i + 1) % m.slots) }, kStatus stHIT (at_ i))) ∧
      ((∀ i, i < m.slots → ¬fits (at_ i)) → m.scan = (m, 0))) ∧
    ∀ (p : W32) (h : BitVec 24) (w base : Nat), let u := m.window p h w base
      (m.wins.any (·.prefix32 == p) = true → u = (m, kFail stMISS base 1)) ∧
      (m.wins.any (·.prefix32 == p) = false → (m.slots < base + w → u = (m, kFail stMISS base 7)) ∧ (base + w ≤ m.slots →
        (∀ i, i < w → m.bound (base + i) = true → (∀ j, j < i → m.bound (base + j) = false) → u = (m, kFail stMISS (base + i) 2)) ∧
        ((∀ i, i < w → m.bound (base + i) = false) → (1024 ≤ m.inUse → u = (m, kFail stMISS base 3)) ∧
          (m.inUse < 1024 → u.2 = 0 ∧ u.1.inUse = m.inUse + 1 ∧ (∀ i, i < w → u.1.bound (base + i) = true) ∧
            (ex = none → keyPre k = p → let d := (b - h - 1).toNat
              u.1.lookup k = (if d ≠ 0 ∧ d < 2 ^ 23 then stGAP else stMISS, base + b.toNat % w) ∧
              (b = h + 1 → (u.1.claim k ones).2 = 0)) ∧
            (ex ≠ none ∨ keyPre k ≠ p → u.1.lookup k = m.lookup k)))))

/-- R281, R283, R285, R188: the ring words at the issuer's own ring act in its turn; at another owner they become a request. A
claim or a wait whose condition does not hold waits. One of another core that names an object to which the ring is not bound fails with kind 8
when it reaches the head of the owner's service queue, and in the ring-wait table as soon as the ring is bound to another object. Of `rset`, that binding empties the latches that the accord's operand fetch holds of the bound
ring, and the operands that begun commands have fetched from it (`Core.forget`), is the model's choice (log 42, DEDUCED): R283 and R285 say it
of no latch. -/
def Obligations.RingResults : Prop :=
  ∀ (a b c : RF) (s : State),
    (∀ p ∈ [(Instr.rpush a, RingOp.push, s.rdG a, (0 : Word)), (.rrel a, .rel, s.rdG a, 0), (.rset a b, .set, s.rdG a, s.rdG b)],
      let idx := objIdx p.2.2.1
      let u := walkRing p.1 s p.2.1 idx; let m := u.committed p.1
      ∀ e sh, ringUse u p.2.1 idx = .ok e → (p.2.1 = .set → ringCapture u e = .ok sh) → (p.2.1 ≠ .set → sh = none) →
        endsAt p.1 u →
        (ownRing m e = true → (p.2.1 ≠ .set → released u) →
          let t := m.modCore m.iss.core fun k => (if p.2.1 = .set then k.forget (rnNum e) else k).setRing (rnNum e)
            ((k.ring (rnNum e)).op m.devId m.iss.core p.2.1 idx m.tenant p.2.2.2 e sh).1
          exec p.1 s = .next (if p.2.1 = .set ∧ m.mine.rwait ≠ [] then dropUnbound t m.iss.core (rnNum e) else t).advance) ∧
        (ownRing m e = false → exec p.1 s = .next (sendOp m true false (ringDest m e) (ringBody m p.2.1 idx p.2.2.2 e sh) none).advance)) ∧
    (∀ (t : State) (k : CoreId) (id : Nat) (r : Req) (op : RingOp) (obj : BitVec 16) (x : Word) (e : Vector Word 8)
        (sh : Option (Vector Word 8)), t.req id = some r → r.body = .ring op k t.devId obj x e sh → op = .claim ∨ op = .wait →
      let u := t.answer id (.err eBind 0 (Config.ringPtr obj.toNat))
      (((t.core k).ring (rnNum e)).obj ≠ some obj →
        ((t.core k).rwait = [id] → dropUnbound t k (rnNum e) = u.modCore k fun y => { y with rwait := [] }) ∧
        ((t.core k).svcq = [id] → settleHead t k = u.modCore k fun y => y.dropSvc id) ∧ u.mem = t.mem ∧
        (u.req id).map (·.reply) = some (.err eBind 0 (Config.ringPtr obj.toNat))) ∧
      (((t.core k).ring (rnNum e)).obj = some obj → (t.core k).rwait = [id] → dropUnbound t k (rnNum e) = t.modCore k fun y => y)) ∧
    ∀ p ∈ [(Instr.rclaim a b c, RingOp.claim), (.rwait a b c, .wait)],
      let idx := objIdx (s.rdG b)
      let u := walkRing p.1 s p.2 idx; let m := u.committed p.1
      ∀ e tag, ringUse u p.2 idx = .ok e → ringShape u e = .ok tag → endsAt p.1 u →
        (ownRing m e = false → m.req m.nextId = none → ∃ w, w.i = p.1 ∧ w.left = limitOf (s.rdG c) ∧ w.req = some m.nextId ∧
          exec p.1 s = .next (park (sendOp m false true (ringDest m e) (ringBody m p.2 idx (tag.zeroExtend 64) e none) none) w)) ∧
        (ownRing m e = true →
        let r := m.mine.ring (rnNum e)
        (r.ready p.2 = true → rnNum e < 32 → ∃ t, exec p.1 s = .next (State.advance t) ∧
          (t.mine.ring (rnNum e)) = (r.op m.devId m.iss.core p.2 idx m.tenant (tag.zeroExtend 64) noEntry none).1 ∧
          t.mem = m.mem) ∧
        (r.ready p.2 = false → rnNum e < 32 → ∃ w, exec p.1 s = .next (park m w) ∧ w.i = p.1 ∧ w.left = limitOf (s.rdG c)))

/-- R281, R283, R284: what the operations do to the indices of a ring: a claim raises RC, a push moves one claimed
entry to W or sets PUSHX, a wait raises C, a release raises F up to C or sets RELX, `rset` binds all three to
the start index, and the condition of a claim is that fewer than N entries lie between F and W + RC. -/
def Obligations.RingIndices : Prop :=
  ∀ (r : Ring) (dev : BitVec 10) (c : CoreId) (i : Nat) (t : Tenant) (x : Word) (e : Vector Word 8) (sh : Option (Vector Word 8)),
    let f := fun (o : RingOp) => (r.op dev c o i t x e sh).1
    ((f .claim).rc = r.rc + 1 ∧ (f .claim).w = r.w ∧ (f .claim).c = r.c ∧ (f .claim).f = r.f) ∧
    (r.rc ≠ 0 → (f .push).w = r.w + 1 ∧ (f .push).rc = r.rc - 1 ∧ (f .push).w + (f .push).rc = r.w + r.rc) ∧
    (r.rc = 0 → f .push = { r with pushx := true }) ∧
    ((f .wait).c = r.c + 1 ∧ (f .wait).w = r.w) ∧
    (r.f ≠ r.c → (f .rel).f = r.f + 1) ∧ (r.f = r.c → f .rel = { r with relx := true }) ∧
    ((f .set).w = x.extractLsb' 0 32 ∧ (f .set).c = x.extractLsb' 0 32 ∧ (f .set).f = x.extractLsb' 0 32 ∧ (f .set).rc = 0 ∧
      (f .set).obj = some (BitVec.ofNat 16 i)) ∧
    (f .stat = r) ∧ (r.ready .claim = true ↔ (r.w + r.rc - r.f).toNat ≠ r.n) ∧ (r.ready .wait = true ↔ r.w ≠ r.c)

/-- R290, R291, R292, R295, R93, R97, R100, R183, R187: the copy-channel words. `cpset` loads the channel's shadow from the scratchpad. `cpgo`, of
every kind and with or without a ring, is long: with the objects that its descriptor names it answers 0 on an ACTIVE channel and with fewer than two
free lock entries, and else registers its locks and starts the copy under a fresh transfer id, where the ranges of BINS and of DECODE come of
reads that translate as the copy's do (R143, R150); past the limits of R97 it does not issue. `cpabort`
of an ACTIVE channel ends it ABORTED and releases its locks; while the completion of the copy has begun but is not yet performed it waits. The
model's choices: that wait (log 83, DESIGN CHOICE); the result is outstanding until the next cycle (log 60, DESIGN
CHOICE: R100 gives no figure); two free lock entries are asked for even where a range is empty, and a code table that cannot be read does not trap
(log 24, DEDUCED); a BINSET of another space is malformed (log 26, DEDUCED); the ring's binding is not tested here (log 68, DESIGN CHOICE); and what
R292 does not say of some descriptors is log 79 (DESIGN CHOICE). -/
def Obligations.CopyChannelResults : Prop :=
  ∀ (a b : RF) (s : State),
    let o := s.opened
    (endsAt (.cpset a b) s → (s.rdG a).toNat < 2 → let p := s.rdG b
      o.ownSp (o.res p) = true → o.check p 64 0 64 = none → o.watch p 64 0 = none →
      let m := s.committed (.cpset a b)
      exec (.cpset a b) s = .next (m.modCh m.iss.core (s.rdG a).toNat fun h =>
        { h with shadow := dwords8 (memRead m.mem (m.ownKey p) 64) }).advance) ∧
    (let i := Instr.cpgo a b; let n := (s.rdG b).toNat; let de := (s.mine.ch n).shadow
      n < 2 → ∀ objs, cpgoCheck s n = .ok objs → let u := walkDesc i s (s.mine.ch n); endsAt i u →
      (cdRv de = true → useObj s (cdRing de) kRING rENG = .ok objs.2 ∧ ringBad objs.2 = false) ∧
      (cdKind de = ckBINS → useObj s (cdObj de) kBINSET rENG = .ok objs.1 ∧ binsetBad objs.1 = false) ∧
      (cdKind de = ckDECODE → useObj s (cdObj de) kCODE rENG = .ok objs.1 ∧ codeBadFor objs.1 (pFmt (cdDst de)) = false) ∧
      (u.opened.canLong = false → exec i s = .next (hold97 u.opened)) ∧
      (mayLong u → unheld (fun m => cpHold m n objs.1 objs.2) u →
        let m := u.committed i; let h := m.mine.ch n; let d := dieOf m.iss.core; let h' := startedChan m h objs.1 objs.2
        let id := fun (t : State) (x : W32) => t.freshId.addLong { t.newLong t.nextId (t.dstG a) .word with
          inChunk := false, val := some x.toNat, due := some (t.mine.cyc + 1) }
        (h.st = .active → exec i s = .next (id m 0).advance) ∧
        let w := copyRanges (startEng m h objs.1 objs.2) m.iss.core
        (h.st ≠ .active → (m.die d).locks.length ≤ 254 → exec i s = .next (id (State.modCh
          (registerLocks (w.eng.s.modDie d fun x => { x with xid := if x.xid + 1 = 0 then 1 else x.xid + 1 }) d
            (copyLocks m.iss.core n h' (w.val.getD (none, none)))) m.iss.core n fun _ => h') h'.xid).advance ∧ h'.xid = (m.die d).xid ∧ h'.st = .active ∧ h'.pos = 0 ∧ h'.active = h.shadow ∧
          h'.obj = objs.1 ∧ h'.ring = objs.2) ∧
        (h.st ≠ .active → 254 < (m.die d).locks.length → exec i s = .next ((id m 0).countDie d 3).advance))) ∧
    (endsAt (.cpabort a) s → (s.rdG a).toNat < 2 →
      let m := s.committed (.cpabort a); let n := (s.rdG a).toNat
      (s.opened.me.nearOut = false → abortHold n s.opened = some false → exec (.cpabort a) s = .next (holdTurn s.opened)) ∧
      ((m.mine.ch n).st = .active → unheld (abortHold n) s → exec (.cpabort a) s = .next (State.advance
        (releaseLocks (m.modCh m.iss.core n fun h =>
          { h with st := .aborted, cause := 0, fw := 0, pages := [], comp := 0, acks := [] }) m.iss.core n))) ∧
      ((m.mine.ch n).st ≠ .active → unheld (abortHold n) s → exec (.cpabort a) s = .next m.advance))

/-- R298, R299, R284, R295, R176, R188: mailbox counters at the issuer's own core, where the change is held back while an
earlier operation of R175 to this device has not been performed (log 62, DEDUCED), and where every `mbwait` on the counter
re-evaluates; and elsewhere, where they become a request; and the reads whose owner is another core, which are long. -/
def Obligations.MailboxResults : Prop :=
  ∀ (a b : RF) (s : State),
    let o := s.opened
    (∀ p ∈ [(Instr.mbinc a b, MbOp.inc, fun (v x : W32) => v + x), (.mbset a b, .set, fun _ x => x)],
      endsAt p.1 s → mbOk (s.rdG a) = true → let m := s.committed p.1; let q := m.res (s.rdG a); let j := mbIdx (s.rdG a)
      let x : W32 := (s.rdG b).extractLsb' 0 32
      (m.ownSp q = true → released s → exec p.1 s = .next (State.advance (wakeCounter (m.modCore m.iss.core fun k =>
        { k with mbox := vset k.mbox j (p.2.2 (vget k.mbox j 0) x) }) m.iss.core j)) ∧
        ((∀ c n, (m.ctx c n).wait = none) → exec p.1 s = .next (State.advance (m.modCore m.iss.core fun k =>
          { k with mbox := vset k.mbox j (p.2.2 (vget k.mbox j 0) x) })))) ∧
      (o.ownSp q = true → o.behind = true → exec p.1 s = .next (holdTurn o)) ∧
      (m.ownSp q = false → exec p.1 s = .next (sendOp m true false q (.mb p.2.1 q (s.rdG b)) (some (s.rdG a))).advance)) ∧
    (∀ (c : CoreId) (n : SlotNo) (w : Wait) (j : Nat) (x y z : RF), n.toNat < 11 → (s.ctx c n).wait = some w → w.i = .mbwait x y z →
      (s.ctx c n).isWaiting = true → (s.core c).tests n = true → mbIdx (w.vals.headD 0) = j →
      0 ≤ (vget (s.core c).mbox j 0 - (w.vals.getD 1 0).extractLsb' 0 32).toInt →
      let t := wakeCounter s c j
      (t.ctx c n).st = (s.core c).liveState n ∧ (t.ctx c n).wait = none ∧ (t.ctx c n).compl = some w.sbit) ∧
    (runsC (.mbrd a b) s → mbOk (o.rdG b) = true → o.ownSp (o.res (o.rdG b)) = false → o.canLong = true →
      let q := o.res (o.rdG b)
      exec (.mbrd a b) s = .next ((sendOp o false true q (.mb .rd q 0) (some (o.rdG b))).addLong
        { o.newLong o.nextId (o.dstG a) .word with body := some (.mb .rd q 0), given := some (o.rdG b) }).advance) ∧
    (∀ e, let idx := objIdx (s.rdG b); let i := Instr.rstat a b; let u := (walkObj i s idx).opened
      ¬(idx = 0 ∧ (s.mine.ring 0).obj = none) → runsC i (walkObj i s idx) → ringUse u .stat idx = .ok e →
      (ownRing u e = true → exec i s = .next (u.wrG a ((u.mine.ring (rnNum e)).stat ((s.rdG b).extractLsb' 16 2).toNat)).advance) ∧
      (ownRing u e = false → u.canLong = true → ∃ l v, exec i s = .next (State.addLong v l).advance ∧ l.dst = u.dstG a ∧
        v.net.length = u.net.length + 1))

/-- R316, R330, R332, R333: the accord words. A command enters the queue of its core, a full queue holds its bundle back; `mget` is placed in the
core's order, with the bytes of its destination and 64 cycles before it may write; `mwait` goes on when the queue is empty; `mstat` reads the error
word. The 64 cycles are counted on the model's clock (log 1). That no watchpoint is asked of `mput` and `mget` is the model's choice (log 42,
DEDUCED). -/
def Obligations.AccordWordResults : Prop :=
  ∀ (acc : BitVec 2) (na nb fr ka kb : BitVec 1) (ra rb : BitVec 16) (mode : BitVec 2) (a : RF) (s : State),
    let o := s.opened
    let queued := fun (i : Instr) (m : State) (ja jb : Nat) (p : Word) => ∃ t x, exec i s = .next (State.advance t) ∧
      t.mine.acc = { m.mine.acc with seq := m.mine.acc.seq + 1, q := m.mine.acc.q ++ [x] } ∧ x.i = i ∧ x.begun = false ∧
      x.res = none ∧ x.ringA = ja ∧ x.ringB = jb ∧ x.ptr = p ∧ x.ltag = (m.mine.ctx m.iss.slot).a.ltag ∧ t.mem = m.mem
    (let i := Instr.mmac acc na nb fr ka kb ra rb mode
      let ja := (s.mine.ringOf ra).getD 32; let jb := (s.mine.ringOf rb).getD 32
      endsAt i s → macCheck o o.mine ra rb ja jb = none → unheld holdQueue s → queued i (s.committed i) ja jb 0) ∧
    (endsAt (.mzero acc) s → (unheld holdQueue s → queued (.mzero acc) (s.committed (.mzero acc)) 0 0 0) ∧
      (8 ≤ o.mine.acc.q.length → exec (.mzero acc) s = .next (hold97 o))) ∧
    (endsAt (.mput acc a) s → o.ownSp (o.res (s.rdG a)) = true → o.check (s.rdG a) 1024 0 4 = none →
      unheld holdQueue s → queued (.mput acc a) (s.committed (.mput acc a)) 0 0 (s.rdG a)) ∧
    (let q := s.res (s.rdG a); let n := 16 * mgetRow (s.rdG a)
      endsAt (.mget acc a) s → mgetCheck o (s.rdG a) = none → mayLong s →
      let m := (s.committed (.mget acc a)).touchOwn q n 1
      ∃ t g, exec (.mget acc a) s = .next (State.advance t) ∧ t.mine.acc.mgets = m.mine.acc.mgets ++ [g] ∧ g.acc = acc ∧
        g.ptr = s.rdG a ∧ g.keys = s.mgetKeys q n ∧ g.bytes = none ∧ g.due = m.mine.cyc + 64 ∧
        t.mine.acc.tiles = m.mine.acc.tiles ∧ t.mem = m.mem) ∧
    (runsC (.mwait a) s → exec (.mwait a) s =
      .next (if o.mine.acc.q = [] then o.advance else park o (o.newWait (.mwait a) [] (limitOf (o.rdG a))))) ∧
    (runsC (.mstat a) s → exec (.mstat a) s = .next (o.wrG a (mstatWord o.mine)).advance)

/-- R360, R363, R364, R367, R378-R380: `amsg`, `tgnew`, `tgdone` and `tglaunch`; fork and join: `spawn` pushes the
continuation and runs the child, or, with 32 entries in the deque, runs the child as a call; `spend` returns through a
nonzero link, or takes back its own youngest continuation, or counts the frame and retires; while an entry of the core is
LEAVING a return through link 0 waits. A unit of the own die acts at the commit and answers later (log 11), at a moment
of its own (log 60); what `tglaunch` reports of several reasons is log 27; the held releases are those of log 62. -/
def Obligations.TaskWordResults : Prop :=
  (∀ (a b c : RF) (s : State),
     let o := s.opened
     (let i := Instr.amsg a b c; let p := s.rdG b; let pc := s.rdG c; let m := s.committed i; let q := m.res p
       endsAt i s → amsgOk p = true → fetchOkOn (pDev (o.res p)) (pCore (o.res p)) pc = true → mayLong s →
       exec i s = .next (startOp m true q (.start (pCore q) (pDev q)
         (m.entryOf (p.extractLsb' 0 2) pc (m.rdG (grp c 1)) (m.rdG (grp c 2)) 1) 10) (m.dstG a) p).advance) ∧
     (let i := Instr.tgnew a b; let p := s.rdG b; let d := nodeDesc s p; let m := s.committed i; let die := dieOf m.iss.core
       endsAt i s → o.ownSp (o.res p) = true → o.check p 32 0 8 = none → nodeBad o d = false → o.watch p 32 0 = none → released s →
       mayLong s →
       (freeNode (m.die die).tgu = none → exec i s = .next ((unitReply m (m.dstG a) 0).countDie die 5).advance) ∧
       ∀ j, freeNode (m.die die).tgu = some j →
         let g := (kget (m.die die).tgu.gens j).getD 0
         let u := unitReply m (m.dstG a) (nodeHandle die j g).toNat
         ((nodeOf m d g).count ≠ 0 → exec i s = .next (u.modTgu die fun t => { t with nodes := kset t.nodes j (nodeOf m d g) }).advance) ∧
         ((nodeOf m d g).count = 0 → exec i s = .next (dispatch u die j (nodeOf m d g)).advance)) ∧
     (let i := Instr.tgdone; let m := s.committed i; let h := m.me.succ; let u := m.modMe fun x => { x with succ := 0 }
       endsAt i s → (h = 0 → exec i s = .next u.advance) ∧
         (h ≠ 0 → exec i s = .next
           (u.send (u.request u.iss.core u.iss.slot true (.dev u.devId) false false (.tgdone h) none)).advance)) ∧
     (let i := Instr.tglaunch a b; let u := walkObj i s (objIdx (s.rdG b)); let m := u.committed i; let d := dieOf m.iss.core
       ∀ e, useObj u (objIdx (s.rdG b)) kLAUNCH rENG = .ok e → endsAt i u → unheld (tglaunchHold e) u →
         let v := walkGang m e
         let g := if laGang e then gangTable v e else none
         exec i s = .next (tgLaunch v a e).advance ∧
         (launchReason v e g ≠ 0 → tgLaunch v a e = (unitReply v (v.dstG a) 0).modTgu d fun t =>
           { t with refusal := BitVec.ofNat 4 (launchReason v e g) }) ∧
         (launchReason v e g = 0 → ∀ n nx, nextTag d (v.die d).tgu = some (n, nx) →
           let tag : BitVec 16 := BitVec.ofNat 16 (d.toNat * 2 ^ 14 + n)
           tgLaunch v a e = reserveGang ((unitReply v (v.dstG a) tag.toNat).modTgu d fun t =>
             { t with launches := t.launches ++ [newLaunch v e tag g], nextTag := nx }) d)) ∧
     (∀ (e : Vector Word 8) (u : State), u.behind = false → u.canLong = true → laGang e = false ∨ u.ownHeld (u.res (laPc e)) (gangSize e) = false →
       tglaunchHold e u = none)) ∧
  ∀ (a : RF) (d : BitVec 18) (s : State) (nx tg : Word),
    let p := s.rdG a
    (let i := Instr.spawn a d; let m := s.committed i
      endsAt i s → mbOk p = true → targetOf s.iss.pc d.toInt = some tg → unheld spawnHold s →
      m.nextPc = some nx →
      (m.mine.sched.deque.length < 32 → exec i s = .next (((m.modMine fun k => { k with sched := { k.sched with
        deque := k.sched.deque ++ [spawnEntry m p nx], backoff := 0 } }).wrG 63 0).setPc tg)) ∧
      (32 ≤ m.mine.sched.deque.length → exec i s = .next ((((m.modR fun r => { r with dqCount := r.dqCount + 1 }).countCtx m.iss.core m.iss.slot 22).wrG
        63 nx).setPc tg))) ∧
    (let i := Instr.spend a; let m := s.committed i; let link := s.rdG 63; let o := s.opened
      o.early i = none → mayCommit s → mbOk p = true →
      (link ≠ 0 → o.fetchOk link = true → exec i s = .next (m.setPc link)) ∧
      (link = 0 → (∃ e ∈ o.mine.sched.deque, e.leaving.isSome = true) → exec i s = .next (holdTurn o)) ∧
      (link = 0 → unheld (spendHold p link) s →
        (∀ j e, youngest m = some (j, e) → e.frame = m.res p → exec i s =
          .next ((m.modMine fun k => { k with sched := { k.sched with deque := k.sched.deque.eraseIdx j } }).modMe
            fun x => { x with a := x.a.resumeFrom e.arch })) ∧
        ((∀ j e, youngest m = some (j, e) → e.frame ≠ m.res p) →
          exec i s = .next (retire (if m.ownSp (m.res p) then (mbAt m m.iss.core .inc (mbIdx p) 1).1
            else sendOp m true false (m.res p) (.mb .inc (m.res p) 1) (some p))))))

/-- R415, R417-R419, R422-R426: the enfleurage words. What the engine answers to `apx.on` and what it makes of the region: a bound region by its
state, an unbound one as it enters OBSERVE or finds no room; `apx.inv` leaves the region INVALIDATED and the others as they are; `apx.end` gives the
engine the complete or abandoned invocation and makes the context IDLE; `apx.ld` loads one parameter or is counted. The engine acts with the commit
(log 11), `apx.res` brings its word at a moment of its own (log 60), and the run of the weight memory that a region takes is log 30. Words of a
sample that a region asks for after it was rebound, and that the invocation does not hold, are free values (R420; log 79); a word past those that a
bound region took is rejected by `apx.ld`, whatever its entry says since (log 82, DESIGN CHOICE). -/
def Obligations.EnfleurageWordResults : Prop :=
  (∀ (a b : RF) (k : BitVec 6) (p : BitVec 3) (s : State),
    (endsAt (.apxIn a) s → let m := s.committed (.apxIn a)
      exec (.apxIn a) s = .next (m.modMe fun c => { c with inv := { c.inv with
        ist := 1, inp := vset c.inv.inp c.inv.nin ((m.rdG a).extractLsb' 0 32), nin := c.inv.nin + 1 } }).advance) ∧
    (endsAt (.apxOut k b) s → let m := s.committed (.apxOut k b)
      exec (.apxOut k b) s = .next (m.modMe fun c => { c with inv := { c.inv with
        out := vset c.inv.out k.toNat ((m.rdG b).extractLsb' 0 32), mask := c.inv.mask ||| BitVec.twoPow 16 k.toNat } }).advance) ∧
    (endsAt (.apxRes a k) s → mayLong s → let m := s.committed (.apxRes a k)
      exec (.apxRes a k) s = .next (m.freshId.addLong { m.newLong m.nextId (m.dstG a) .surr with
        inChunk := false, val := some (m.me.inv.output k.toNat).toNat }).advance) ∧
    (endsAt .apxEnd s → unheld (fun u => if u.me.inv.pend then some false else none) s → let m := s.committed .apxEnd
      exec .apxEnd s = .next (closeInv m m.iss.core m.iss.slot false).advance) ∧
    (let i := Instr.apxOn p b; let u := walkObj i s (objIdx (s.rdG b)); let m := u.committed i
      ∀ e, regionUse u (s.rdG b) rR = .ok e → endsAt i u → u.opened.me.inv.nin = rgNin e + 1 →
        let eng := clusterOf u.iss.core; let obj : BitVec 16 := (s.rdG b).extractLsb' 0 16
        let r := engineOn m m.iss.core m.iss.slot eng m.tenant obj e m.me.inv.inputs
        exec i s = .next ((r.1.wrP p (true64 r.2.1)).modMe fun c =>
          { c with inv := c.inv.opened obj eng e r.2.1 r.2.2.1 r.2.2.2 }).advance) ∧
    (let i := Instr.apxInv a; let u := walkObj i s (objIdx (s.rdG a)); let m := u.committed i; let eng := clusterOf u.iss.core
      ∀ e, regionUse u (s.rdG a) rW = .ok e → endsAt i u →
        ((m.engine eng).find m.tenant ((s.rdG a).extractLsb' 0 16) = none → exec i s = .next m.advance) ∧
        ∀ j r, (m.engine eng).find m.tenant ((s.rdG a).extractLsb' 0 16) = some j → (m.engine eng).at_ j = some r →
          exec i s = .next (invalidate m m.iss.core m.iss.slot eng j r).advance) ∧
    ((s.rdG b).extractLsb' 32 32 = 0 → ∀ e,
      (let i := Instr.apxSt a b; let u := walkObj i s (objIdx (s.rdG b)); let m := u.committed i
        regionUse u (s.rdG b) rR = .ok e → endsAt i u → apxSelCheck u.opened (s.rdG b) = none →
        let g := m.engine (clusterOf m.iss.core)
        exec i s = .next (m.wrG a (BitVec.ofNat 64 (apxStWord g ((g.find m.tenant ((s.rdG b).extractLsb' 0 16)).bind g.at_)
          (apxWord (s.rdG b))))).advance) ∧
      (let i := Instr.apxLd a b; let u := walkObj i s (objIdx (s.rdG b)); let m := u.committed i
        regionUse u (s.rdG b) rW = .ok e → endsAt i u → apxSelCheck u.opened (s.rdG b) = none →
        exec i s = .next (apxLoad m (s.rdG b) e ((m.rdG a).extractLsb' 0 32)).advance))) ∧
  (∀ (s : State) (c : CoreId) (n : SlotNo) (eng : BitVec 8) (t : Tenant) (obj : BitVec 16) (ent : Vector Word 8) (x : List W32),
    let q := engineOn s c n eng t obj ent x
    let now := fun j => (q.1.engine eng).at_ j
    let zeros := List.replicate (paramCount (rgWidths ent)) 0
    ((s.engine eng).find t obj = none →
      ((s.engine eng).bind none t obj ent = none → q.2 = (false, roNONE, []) ∧
        (q.1.engine eng).noroom = sat32 (s.engine eng).noroom ∧ (q.1.engine eng).regions = (s.engine eng).regions) ∧
      ∀ j base, (s.engine eng).freeEntry = some j → (s.engine eng).freeRun (paramCount (rgWidths ent)) = some base →
        q.2 = (false, roTRAIN, []) ∧ now j = some { newRegion t obj ent base with st := 1, params := initParams ent zeros }) ∧
    ∀ j r, (s.engine eng).find t obj = some j → (s.engine eng).at_ j = some r →
      (r.entry ≠ ent ∨ r.st = 9 → let e := (invalidate s c n eng j r).engine eng
        (∀ base, e.freeRun (paramCount (rgWidths ent)) = some base →
          q.2 = (false, roTRAIN, []) ∧ now j = some { newRegion t obj ent base with st := 1, params := initParams ent zeros }) ∧
        (e.freeRun (paramCount (rgWidths ent)) = none → q.2 = (false, roNONE, []) ∧ now j = e.at_ j ∧
          (q.1.engine eng).noroom = sat32 e.noroom)) ∧
      (r.entry = ent →
        (r.st = 0 → r.params ≠ [] → q.2 = (false, roTRAIN, []) ∧
          now j = some { r.clearBounds with st := 1, steps := 0, params := initParams ent r.params }) ∧
        (r.st = 1 ∨ r.st = 2 ∨ r.st = 6 → q.2 = (false, roTRAIN, []) ∧ now j = some r) ∧
        (r.st = 3 → q.2 = (false, roEVAL, []) ∧ now j = some r) ∧
        (r.st = 7 ∨ r.st = 8 → q.2 = (false, roNONE, []) ∧ now j = some r) ∧
        (r.st = 4 ∨ r.st = 5 →
          (outOfBounds r x = true → q.2 = (false, roNONE, []) ∧ now j = some { r with oob := sat32 r.oob }) ∧
          (outOfBounds r x = false →
            (r.st = 4 → (r.n + 1) % rgPeriod ent = 0 → q.2 = (false, roCOMPARE, []) ∧ now j = some { r with n := 0, st := 5 }) ∧
            (r.st = 5 ∨ (r.n + 1) % rgPeriod ent ≠ 0 →
              q.2 = (true, roNONE, (outputs r.params (rgWidths ent) (x.map (·.toNat))).map (BitVec.ofNat 32)) ∧
              now j = some { r with n := (r.n + 1) % rgPeriod ent, served := sat32 r.served }))))) ∧
  (∀ (s : State) (c : CoreId) (n : SlotNo) (eng : BitVec 8) (j : Nat) (r : Region), (s.engine eng).at_ j = some r →
    let e := (invalidate s c n eng j r).engine eng
    (∃ r', e.at_ j = some r' ∧ r'.st = 9 ∧ r'.tenant = r.tenant ∧ r'.obj = r.obj ∧ r'.params = [] ∧ r'.held = [] ∧ r'.steps = 0 ∧
      r'.mins = List.replicate 32 posInf ∧ r'.maxs = List.replicate 32 negInf) ∧
    ∀ h, h ≠ j → e.at_ h = (s.engine eng).at_ h) ∧
  (∀ (s : State) (x : Word) (ent : Vector Word 8) (v : W32) (j : Nat) (r : Region),
    let eng := clusterOf s.iss.core; let e := s.engine eng; let f := (apxLoad s x ent v).engine eng
    let own := (x.extractLsb' 16 16).toNat; let words := paramCount (rgWidths ent)
    e.find s.tenant (x.extractLsb' 0 16) = some j → e.at_ j = some r →
    ((r.st = 0 ∨ r.st = 9) → r.params ≠ [] → 256 ≤ own → own < 256 + words → own < 256 + r.params.length →
      f.at_ j = some { r with st := 0, params := r.params.set (own - 256) v } ∧ f.ldrej = e.ldrej) ∧
    ((r.st ≠ 0 ∧ r.st ≠ 9) ∨ own < 256 ∨ 256 + words ≤ own ∨ (r.params ≠ [] ∧ 256 + r.params.length ≤ own) → f.at_ j = some r ∧ f.ldrej = sat16 e.ldrej)) ∧
  (∀ (s : State) (c : CoreId) (n : SlotNo), n.toNat < 11 →
    let v := (s.ctx c n).inv; let e := s.engine v.eng; let t := closeInv s c n false
    (t.ctx c n).inv = Inv.zero ∧
    (v.ist ≠ 2 → v.ist ≠ 4 → t.engines = s.engines) ∧
    ∀ j r, e.find ((s.core c).tenantOf n) v.obj = some j → e.at_ j = some r →
      (v.ist = 2 → v.full = true → (t.engine v.eng).at_ j =
        some (r.complete v.role (sampleWords s.free 0 (rgNin r.entry + 1) v.inputs)
          (sampleWords s.free 32 (rgNout r.entry + 1) (v.out.toList.take (v.nout.toNat + 1))) (decide (e.samples < 256)))) ∧
      (v.ist = 2 → v.full = false → (t.engine v.eng).at_ j = some (r.abandoned v.role)) ∧
      (v.ist = 4 → (t.engine v.eng).at_ j = some (r.abandoned v.role))) ∧
  ∀ (r : Region) (x y : List W32), (x ++ y).any (fun v => (fp32 v.toNat).isNan) = false →
    (r.st = 1 ∨ r.st = 2 ∨ r.st = 6 → let held := r.held ++ [(x, y)]
      (held.length < rgBatch r.entry → r.complete roTRAIN x y true = { r.widen x with held := held }) ∧
      (held.length = rgBatch r.entry → r.complete roTRAIN x y true =
        { r.widen x with params := trainStep r.entry r.params held, held := [], steps := r.steps + 1, passes := 0, st := 3 }) ∧
      r.complete roTRAIN x y false = { r with drops := sat32 r.drops }) ∧
    (r.st = 3 →
      (samplePasses r.entry r.params x y = true → r.passes + 1 = rgEval r.entry →
        (r.complete roEVAL x y true).st = 4 ∧ (r.complete roEVAL x y true).n = 0) ∧
      (samplePasses r.entry r.params x y = true → r.passes + 1 ≠ rgEval r.entry →
        (r.complete roEVAL x y true).st = 3 ∧ (r.complete roEVAL x y true).passes = r.passes + 1) ∧
      (samplePasses r.entry r.params x y = false → (r.complete roEVAL x y true).st = if r.steps = rgBudget r.entry then 8 else 2)) ∧
    (r.st = 5 →
      (samplePasses r.entry r.params x y = true → r.complete roCOMPARE x y true = { r with strikes := 0, st := 4 }) ∧
      (samplePasses r.entry r.params x y = false → (r.complete roCOMPARE x y true).st = if r.strikes + 1 = rgStrike r.entry then 6 else 4))

/-- R432, R435-R440: the alembic's words: `cb.done`, `cb.end` and `cb.st`; `cb.push` and `cb.pull` are served, or wait behind
those that came before; what a push and a pull do to their stream, and the group that the stream forms: constraints that share no
body, at most GMAX of them. The effects come with the commit (log 11), `cb.done` is held as a release (log 62), and the GMAX of a
binding where the entry gives none any more is that of the push's issue (log 40). -/
def Obligations.AlembicWordResults : Prop :=
  (∀ (a b c : RF) (s : State),
    (let i := Instr.cbDone a b; let idx := objIdx (s.rdG a); let tk := (s.rdG b).extractLsb' 32 30
      let u := walkObj i s idx; let m := u.committed i
      ∀ e, streamUse u idx rR = .ok e → endsAt i u → released u → let j := stSnum e; let x := m.stream (dieOf m.iss.core) j
        let q := if x.names m.tenant (BitVec.ofNat 16 idx) tk = true then
          m.modMe fun k => { k with hold := holdDel k.hold (holdWord j x.gen tk) } else m
        exec i s = .next (serveAll (streamEvent q q.iss.core q.iss.slot j (x.done m.tenant (BitVec.ofNat 16 idx) tk))
          (dieOf q.iss.core) j).advance) ∧
    (let i := Instr.cbEnd a; let idx := objIdx (s.rdG a); let u := walkObj i s idx; let m := u.committed i
      ∀ e, streamUse u idx rW = .ok e → endsAt i u → let j := stSnum e
        exec i s = .next (serveAll (streamEvent m m.iss.core m.iss.slot j
          ((m.stream (dieOf m.iss.core) j).end_ m.tenant (BitVec.ofNat 16 idx))) (dieOf m.iss.core) j).advance) ∧
    (let i := Instr.cbSt a b; let idx := objIdx (s.rdG b); let u := walkObj i s idx; let o := u.opened
      (s.rdG b).extractLsb' 18 46 = 0 → runsC i u → ∀ e, streamUse o idx rR = .ok e → o.canLong = true →
        let st := o.stream (dieOf o.iss.core) (stSnum e)
        exec i s = .next (o.freshId.addLong { o.newLong o.nextId (o.dstG a) .word with
          val := some (st.stat (st.bound o.tenant (stObj (s.rdG b))) ((s.rdG b).extractLsb' 16 2).toNat) }).advance) ∧
    ∀ q ∈ [(Instr.cbPush a b c, objIdx (s.rdG a), rW, (List.range 5).map fun j => s.rdG (grp b j)),
           (.cbPull a b c, objIdx (s.rdG b), rR, [])],
      let u := walkObj q.1 s q.2.1; let m := u.committed q.1
      ∀ e, streamUse u q.2.1 q.2.2.1 = .ok e → endsAt q.1 u →
        let w := m.newWait q.1 ([BitVec.ofNat 64 q.2.1, BitVec.ofNat 64 (stSnum e), BitVec.ofNat 64 (stGmax e)] ++ q.2.2.2) (limitOf (s.rdG c))
        let x := m.stream (dieOf m.iss.core) (stSnum e)
        (∀ t, waitDone m w = some t → exec q.1 s = .next t.advance) ∧
        (waitDone m w = none → exec q.1 s = .next (park (m.setStream (dieOf m.iss.core) (stSnum e)
          { x.leave m.iss.core m.iss.slot with waiters := (x.leave m.iss.core m.iss.slot).waiters ++ [(m.iss.core, m.iss.slot)] }) w))) ∧
  (∀ (s : State) (w : Wait) (a b c : RF), let x := s.stream (dieOf s.iss.core) (wSnum w); let y := x.leave s.iss.core s.iss.slot
    let v := fun j => (w.vals.getD j 0).extractLsb' 0 32
    let sent := fun t => some (serveAll t (dieOf s.iss.core) (wSnum w))
    (w.i = .cbPush a b c →
      (x.pushReady s.tenant (wObj w) = false → waitDone s w = none) ∧
      (bindHeld s x (wObj w).toNat = true → waitDone s w = none) ∧
      (x.pushReady s.tenant (wObj w) = true → bindHeld s x (wObj w).toNat = false →
        waitDone s w = sent (streamEvent (bindWalk s x (wObj w).toNat) s.iss.core s.iss.slot (wSnum w)
        (y.push s.tenant (wObj w) (gmaxNow s (wObj w).toNat (w.vals.getD 2 0).toNat) (v 3) [v 4, v 5, v 6, v 7])))) ∧
    (w.i = .cbPull a b c →
      (x.pullReady s.tenant (wObj w) = false → waitDone s w = none) ∧
      (x.pullReady s.tenant (wObj w) = true →
        (y.pull s.tenant (wObj w) = none → waitDone s w = sent (pullRegs (streamEvent s s.iss.core s.iss.slot (wSnum w) y) a [])) ∧
        ∀ z y', y.pull s.tenant (wObj w) = some (z, y') → waitDone s w = sent (pullRegs
          ((streamEvent s s.iss.core s.iss.slot (wSnum w) y').modMe fun k => { k with hold := holdAdd k.hold (holdWord (wSnum w) y'.gen z.ticket) })
          a (z.word :: z.bodies.map (·.setWidth 64)))))) ∧
  (∀ (x : Stream) (t : Tenant) (obj : BitVec 16) (g : Nat) (id : W32) (bodies : List W32),
    let new := fun n => ({ id := id, bodies := bodies, ticket := n, reissue := false, st := 0 } : Cons)
    (x.st = 0 ∨ x.st = 3 → x.push t obj g id bodies =
      { st := 1, tenant := t, obj := obj, gmax := g, group := 0, pushed := 1, reissue := 0, badop := 0, gen := x.gen + 1,
        cons := [new 0], waiters := x.waiters }) ∧
    (x.st = 1 ∨ x.st = 2 → x.push t obj g id bodies =
      { x with st := 1, pushed := x.pushed + 1, cons := x.cons ++ [new (x.pushed.extractLsb' 0 30)] })) ∧
  ∀ (x y : Stream) (n : Nat), x.form = some (y, n) →
    y.group = x.group + 1 ∧ n ≤ x.gmax ∧ y.cons.length = x.cons.length ∧ (y.cons.filter fun c => c.st == 1).length = n ∧
    (y.cons.filter fun c => c.st == 1).Pairwise fun c d => ∀ z ∈ c.real, z ∉ d.real

/-- R216-R221, R188, R189: helper control: `hstart` leaves its request, behind those that wait, for the next boundary; `hend` retires the helper, as
a release: behind operations that it must follow it is held, and where the commit that it makes sends such operations it retires behind
them; `hsave` writes the image of a helper in UPCALL, and `hload` replaces its context by the image; `hresume` lets it issue again. That the
retirement waits as the releases do, in the bundle or behind its commit, is the model's choice (log 62, DEDUCED). -/
def Obligations.HelperWordResults : Prop :=
  ∀ (a b : RF) (s : State),
    let o := s.opened
    (let i := Instr.hstart a b; let m := s.committed i
      endsAt i s → o.fetchOk (o.rdG b) = true → mayLong s → ∃ t q, exec i s = .next (State.advance t) ∧
        t.mine.sched.hstart = m.mine.sched.hstart ++ [q] ∧ q.id = m.nextId ∧ q.pc = m.rdG b ∧ q.w1 = m.rdG (grp b 1) ∧ q.w2 = m.rdG (grp b 2) ∧
        t.mem = m.mem) ∧
    (s.opened.early .hend = none → mayCommit s → let m := s.committed .hend
      (released s → exec .hend s = .next (m.modMe fun x => { x with retiring := true })) ∧
      (o.me.nearOut = false → o.behind = true → exec .hend s = .next (holdTurn o)) ∧
      (o.behind = false → m.behind = true → exec .hend s = .next (m.modMe fun x =>
        { x with rel := some { i := .hend, iss := m.iss, e := Vector.replicate 8 0, sbit := false } }))) ∧
    (let i := Instr.hload a b; let m := s.committed i; let n : SlotNo := BitVec.ofNat 4 (o.rdG a).toNat
      endsAt i s → 1 ≤ (o.rdG a).toNat → (o.rdG a).toNat ≤ 10 → (o.mine.ctx n).st = .upcall → (o.mine.ctx n).recorded = true →
      (o.mine.ctx n).replay = [] → imageCheck o (o.rdG b) 0 = none → imageRefused o (imageAt o (o.rdG b)) = none →
      imageWatch o (o.rdG b) 0 = none → m.rdG a = o.rdG a →
      exec i s = .next (m.modCtx m.iss.core n fun x => loadImage x (imageAt m (m.rdG b))).advance) ∧
    (let i := Instr.hresume a; let m := s.committed i; let n : SlotNo := BitVec.ofNat 4 (o.rdG a).toNat
      endsAt i s → 1 ≤ (o.rdG a).toNat → (o.rdG a).toNat ≤ 10 → (o.mine.ctx n).st = .upcall ∨ (o.mine.ctx n).st = .hupcall →
      (o.mine.ctx n).recorded = true → o.fetchOk (o.mine.ctx n).a.pc = true → m.rdG a = o.rdG a →
      exec i s = .next (m.modCtx m.iss.core n resumeCtx).advance) ∧
    (let i := Instr.hsave a b; let m := s.committed i; let n : SlotNo := BitVec.ofNat 4 (o.rdG a).toNat
      endsAt i s → 1 ≤ (o.rdG a).toNat → (o.rdG a).toNat ≤ 10 → (o.mine.ctx n).st = .upcall → (o.mine.ctx n).replay = [] →
      imageCheck o (o.rdG b) 1 = none → imageWatch o (o.rdG b) 1 = none → m.rdG a = o.rdG a → (m.mine.ctx n).st = .upcall →
      let k := spKey m.iss.core (pOff (m.rdG b))
      let now := m.mine.longOf n = 0 ∧ m.writeHeld k 2048 = false
      (now → exec i s = .next (writeSquash m k (imageBytes (m.mine.ctx n))).advance) ∧
      (¬now → exec i s = .next (park m (m.newWait i [m.rdG a, m.rdG b] none))))

/-- R61, R220: an image that `hsave` writes and `hload` reads back gives the registers again, but g0 and p0, whose
places hold their constants. -/
def Obligations.ImageRoundTrip : Prop :=
  ∀ (x : Ctx), (imageBytes x).length = 2048 ∧ (∀ r, r < 64 → (archOf (imageBytes x)).rdG r = x.a.rdG r) ∧
    (∀ r, r < 8 → (archOf (imageBytes x)).rdP r = x.a.rdP r) ∧ (archOf (imageBytes x)).v = x.a.v ∧
    (archOf (imageBytes x)).pc = x.a.pc ∧ (archOf (imageBytes x)).wid = x.a.wid ∧ (archOf (imageBytes x)).widf = x.a.widf ∧
    (archOf (imageBytes x)).ltag = x.a.ltag ∧ (archOf (imageBytes x)).fpf = x.a.fpf ∧ (archOf (imageBytes x)).pipe = x.a.pipe ∧
    (archOf (imageBytes x)).wonly = x.a.wonly ∧ holdOf (imageBytes x) = x.hold

/-- R340, R341, R342, R345, R275: taking a trap. To privileged software, while BUSY is 0 and the vector can be fetched from: TRAP.PC,
TRAP.INFO0 and TRAP.INFO1 take the trap's words, TRAP.CAUSE its cause, context and old mode with BUSY set, the trap save block in
memory the registers named 56 to 63; the context goes on at TRAP.VEC in privileged mode, and every other register of it, the other
contexts and every other byte of memory stay. A vector that cannot be fetched from stops the core. While BUSY is 1 a trap of another context waits, and one of the context that BUSY names
stops the core. A helper's upcall makes it stop issuing in UPCALL; a key miss goes on at KM.HANDLER with the key and the
PC in the shadow bank. -/
def Obligations.TrapEntry : Prop :=
  ∀ (s : State) (c : CoreId) (n : SlotNo) (p : Pend), n.toNat < 11 →
    ((s.core c).busyBit = false → fetchOkAt s c (s.core c).r.trapVec = true →
      let k := s.core c; let x := k.ctx n; let t := enterPriv s c n p; let r := (t.core c).r
      r.trapPc = p.pc ∧ r.trapInfo0 = p.info0 ∧ r.trapInfo1 = p.info1 ∧ r.trapCause = causeWord p n x.priv x.replay.length ∧
      r.trapCause.getLsbD 63 = true ∧ r.trapCause.extractLsb' 0 8 = p.cause ∧ r.trapCause.extractLsb' 8 4 = n ∧
      r.trapCause.getLsbD 12 = x.priv ∧
      (∀ i, i < 8 → t.savedReg c i = k.named56 n i) ∧ r.trapMark = some p.pc ∧
      (∀ a, a < k.trapBlock c ∨ k.trapBlock c + 64 ≤ a → memGet t.mem a = memGet s.mem a) ∧
      (t.ctx c n).priv = true ∧ (t.ctx c n).a = { x.a with pc := k.r.trapVec, wonly := false } ∧ (t.ctx c n).st = k.liveState n ∧
      (∀ m, m ≠ n → t.ctx c m = s.ctx c m) ∧ sameCoresBut s t c) ∧
    ((s.core c).busyBit = false → fetchOkAt s c (s.core c).r.trapVec = false → ((enterPriv s c n p).core c).halting = true) ∧
    ((s.core c).busyBit = true → let t := enterPriv s c n p;
      ((s.core c).busyCtx ≠ n → (t.core c).r = (s.core c).r ∧ (t.ctx c n).a = (s.ctx c n).a ∧ (t.ctx c n).priv = (s.ctx c n).priv ∧
        p ∈ (t.ctx c n).tpend ∧ (t.core c).halting = (s.core c).halting) ∧
      ((s.core c).busyCtx = n → (t.core c).halting = true ∧ (t.core c).r = (s.core c).r)) ∧
    (let t := enterUpcall s c n p;
      (t.ctx c n).st = (if (s.core c).holds n then .hupcall else .upcall) ∧ (t.ctx c n).upc = some (p, (s.core c).rot) ∧
      (t.ctx c n).recorded = false ∧ (t.ctx c n).a = { (s.ctx c n).a with pc := p.pc, wonly := p.wonly } ∧
      (t.ctx c n).priv = (s.ctx c n).priv ∧ t.mem = s.mem) ∧
    ((s.core c).holder = none → (s.core c).bankq = [] → let t := enterHandler s c n p;
      (t.core c).holder = some n ∧ (t.ctx c n).st = .handler ∧ (t.ctx c n).a.pc = (s.core c).r.kmHandler ∧ (t.core c).sh = 0 ∧
      vget (t.core c).h 0 0 = p.info0 ∧ vget (t.core c).h 1 0 = p.pc ∧ (t.ctx c n).a.g = (s.ctx c n).a.g ∧ t.mem = s.mem)

/-- R343, R459: `eret` restores the registers named 56 to 63 from the trap save block, clears BUSY, and goes on at TRAP.PC in the mode of the trap,
with the trap's mark. That the mark is given back only where it belongs to the bundle at TRAP.PC is the model's choice (log 76, DEDUCED: R459 has a
context that resumes at another PC lose the mark). -/
def Obligations.TrapReturn : Prop :=
  ∀ (s : State), s.opened.early .eret = none → mayCommit s → s.opened.fetchOk s.opened.mine.r.trapPc = true →
    let m := s.committed .eret; let tc := m.mine.r.trapCause
    exec .eret s = .next (retTrap m) ∧
    (s.iss.slot.toNat < 11 → tc.getLsbD 62 = false → m.mine.holds m.iss.slot = false → let t := retTrap m
      t.me.a.pc = m.mine.r.trapPc ∧ t.me.priv = tc.getLsbD 12 ∧ t.mine.r.trapCause = tc &&& ~~~ BitVec.twoPow 64 63 ∧
      (∀ i, i < 8 → vget t.me.a.g (56 + i) 0 = m.savedReg m.iss.core i) ∧
      t.me.a.wonly = (tc.getLsbD 14 && marks m.mine.r.trapMark m.mine.r.trapPc) ∧
      (∀ i, i < 56 → vget t.me.a.g i 0 = vget m.me.a.g i 0) ∧ t.mem = m.mem)

/-- R88, R94, R223, R225-R227, R230, R231, R340, R341, R347: words that are no bundle take ILLEGAL with the lowest reason and the whole bundle as
info words: the chunk of the bundles before commits, and privileged software gets the PC of the words themselves. `trap` in user mode takes SERVICE with its operand, and `brk` takes BRK with INFO0 = 0, both to privileged
software with the PC of the next bundle; `hret`, `upret`, `pshare` and `halt`. That `upret` gives the mark back only where it belongs to the bundle
at the PC it goes on at is the model's choice (log 76, DEDUCED), and so is that `hret` waits only for long operations older than its bundle and
reads h1 after that wait (log 80, DESIGN CHOICE). -/
def Obligations.SystemWordResults : Prop :=
  (∀ (w0 w1 : W32) (r : Nat) (s : State), decodeBundle w0 w1 = .bad r → s.iss.slot.toNat < 11 →
     let o : State := { s.opened with iss := { s.opened.iss with fate := .trapped } }
     let first := o.me.chunk.map (·.n) = some 0
     (¬first → o.me.nearOut = false ∧ (commitChunk o o.iss.core o.iss.slot).2 = true) →
     let m := if first then o.modMe fun x => { x with chunk := none, dfault := none } else (commitChunk o o.iss.core o.iss.slot).1
     o.mine.busyBit = false → m.mine.busyBit = false → fetchOkAt m m.iss.core m.mine.r.trapVec = true →
     ∃ t, exec (.unassignedEncoding w0 w1) s = .next t ∧ t.mine.r.trapPc = s.iss.pc ∧ t.mine.r.trapInfo0 = BitVec.ofNat 64 r ∧
       t.mine.r.trapInfo1 = w1 ++ w0 ∧ t.mine.r.trapCause.extractLsb' 0 8 = cILLEGAL ∧ t.mine.r.trapCause.getLsbD 63 = true ∧
       t.me.a.pc = m.mine.r.trapVec ∧ t.me.priv = true ∧ (∀ j, j < 8 → t.savedReg m.iss.core j = m.mine.named56 m.iss.slot j) ∧
       (∀ k, k < m.mine.trapBlock m.iss.core ∨ m.mine.trapBlock m.iss.core + 64 ≤ k → memGet t.mem k = memGet m.mem k) ∧
       (first → m.mem = s.mem)) ∧
  (∀ (a : RF) (s : State) (nx : Word),
     ∀ q ∈ [(Instr.trap a, cSERVICE, fun (m : State) => m.rdG a), (.brk, cBRK, fun _ => 0)],
       endsAt q.1 s → s.iss.slot.toNat < 11 → s.opened.mine.busyBit = false → let m := s.committed q.1
       m.nextPc = some nx → m.mine.busyBit = false → goesPriv m.mine m.iss.slot q.2.1 = true →
       fetchOkAt m m.iss.core m.mine.r.trapVec = true →
       ∃ t, exec q.1 s = .next t ∧ t.mine.r.trapPc = nx ∧ t.mine.r.trapInfo0 = q.2.2 m ∧
         t.mine.r.trapCause.extractLsb' 0 8 = q.2.1 ∧ t.mine.r.trapCause.getLsbD 63 = true ∧ t.me.a.pc = m.mine.r.trapVec ∧
         t.me.priv = true ∧ (∀ j, j < 8 → t.savedReg m.iss.core j = m.mine.named56 m.iss.slot j) ∧
         ∀ k, k < m.mine.trapBlock m.iss.core ∨ m.mine.trapBlock m.iss.core + 64 ≤ k → memGet t.mem k = memGet m.mem k) ∧
  ∀ (a b : RF) (s : State),
    let o := s.opened
    (o.early .hret = none → mayCommit s → unheld (fun u => if u.oldLong.any (·.byHandler) then some false else none) s → let m := s.committed .hret; let t := vget m.mine.h 1 0
      m.fetchOk t = true → exec .hret s = .next ((m.modMine fun k => k.dropBank m.iss.slot).modMe fun x =>
        { x with st := .ready, a := { x.a with pc := t, wonly := false } })) ∧
    (o.early .upret = none → mayCommit s → o.fetchOk o.mine.r.upcPc = true → let m := s.committed .upret
      s.iss.slot.toNat < 11 → ∃ t, exec .upret s = .next t ∧ t.me.a.pc = m.mine.r.upcPc ∧ t.mine.r.upcMask = false ∧
        t.me.a.wonly = (m.mine.r.upcWonly && marks (some m.mine.r.upcMark) m.mine.r.upcPc) ∧
        (m.mine.holds m.iss.slot = false → ∀ j, j < 2 → vget t.me.a.g (60 + j) 0 =
          BitVec.ofNat 64 (memNat m.mem (spKey m.iss.core (64 * m.mine.r.upcBase.toNat) + 8 + 8 * j) 8))) ∧
    (let i := Instr.pshare a b; let m := s.committed i; let q := m.res (m.rdG b)
      endsAt i s → pshareCheck o (o.rdG b) = none → mayLong s → ∃ l, exec i s = .next
        ((m.send (m.request m.iss.core m.iss.slot false (destOf q) false true (.pshare q) (some (m.rdG b)))).addLong l).advance ∧
        l.id = m.nextId ∧ l.dst = m.dstG a) ∧
    (endsAt .halt s → let m := s.committed .halt
      exec .halt s = .next (m.advance.modCore m.iss.core fun k => { k with halting := true }))

/-- R91, R232, R233: `crw`, `crs` and `crc` of a writable number: the register takes the operation on its writable bits,
inside the chunk for a register of context scope and after its commit for any other. -/
def Obligations.ControlRegisterWrites : Prop :=
  ∀ (a : RF) (n : BitVec 12) (s : State),
    ∀ q ∈ [(Instr.crw a n, 0), (.crs a n, 1), (.crc a n, 2)],
      crWriteTrap s.opened q.2 n (s.opened.rdG a) = none →
      (endsChunk q.1 = false → runsC q.1 s → exec q.1 s = .next (((crStore s.opened q.2 n (s.opened.rdG a)).markViol q.1).advance)) ∧
      (endsChunk q.1 = true → endsAt q.1 s → let m := s.committed q.1
        exec q.1 s = .next (crStore m q.2 n (m.rdG a)).advance)

/-- R90, R91: the writable bits of a control register read back as `crw`, `crs` or `crc` left them. (SLOT.OWN, ACC.WGT and
KM.CFG, whose writes R66, R317 and R261 give rules of their own, are not among these.) -/
def Obligations.ControlRegisterReadback : Prop :=
  ∀ (s : State) (op : Nat) (n : BitVec 12) (x : Word), crExists n = true → s.iss.slot.toNat < 11 → n ≠ 0x41 → n ≠ 0x809 → n ≠ 0x10 →
    let m := crMask n.toNat s.me.priv
    crRead (crStore s op n x) n.toNat &&& m = crMerge op (crRead s n.toNat) x m &&& m

/-- R88, R94, R76, R215, R225, R232, R204, R234, R136, R146, R147, R186: words that are no bundle take ILLEGAL with the lowest reason; a word whose
mode forbids it takes ILLEGAL with reason 6 or 7; a word that reads a register whose scoreboard bit is set takes HAZARD; a privileged control
register that exists, named in user mode, is PROT; an address that is not formed is ADDR, and one that the checks of R234 refuse takes the trap of
the first check that fails. Nothing of the word happens. A walk gives the leaf of the tables' third level, or of a large page, and the fault codes
of R147, and an access finds its page by the leaf that the cache holds or else by a walk; a store to a page that faults takes PAGE, unless the page is under migration, where R153 holds the access (log 55, DEDUCED). An access that
meets a range lock takes LOCKED, and one that meets none does not (the places of a range that shrinks: R187). The model's choices: HAZARD names the
first source where others are busy as well (log 7, DESIGN CHOICE), a translation once cached is used until it is dropped (log 31, DESIGN CHOICE),
and a range of SPC 3 is checked for its own tenant (log 81, DESIGN CHOICE). -/
def Obligations.TrapChecks : Prop :=
  ((∀ (w0 w1 : W32) (r : Nat) (s : State), decodeBundle w0 w1 = .bad r →
     exec (.unassignedEncoding w0 w1) s = .next (raise s.opened (mkTrap cILLEGAL (BitVec.ofNat 64 r) (w1 ++ w0)))) ∧
   ∀ (d a b : RF) (g : BitVec 3) (s : State), s.isShadow a = false → s.src.sg.getLsbD a.toNat = true →
     ∀ i ∈ [Instr.add d a b g, .sub d a b g, .div d a b g, .padd d a b g],
       exec i s = .next (raise s (mkTrap cHAZARD (BitVec.ofNat 64 a.toNat) s.iss.bundle))) ∧
  (∀ (a b : RF) (n : BitVec 12) (s : State),
     let o := s.opened
     (∀ i ∈ [Instr.eret, .halt], o.me.priv = false → exec i s = .next (raise o (mkTrap cILLEGAL 6 o.iss.bundle))) ∧
     (o.me.priv = true → exec (.trap a) s = .next (raise o (mkTrap cILLEGAL 6 o.iss.bundle))) ∧
     (o.mine.holds o.iss.slot = false → exec .hret s = .next (raise o (mkTrap cILLEGAL 7 o.iss.bundle))) ∧
     (∀ i ∈ [Instr.hstart a b, .hjoin a b, .hsave a b, .hload a b, .hresume a, .upret], o.iss.slot ≠ 0 →
       exec i s = .next (raise o (mkTrap cILLEGAL 6 o.iss.bundle))) ∧
     (∀ i ∈ [Instr.hend, .spend a], o.iss.slot = 0 → exec i s = .next (raise o (mkTrap cILLEGAL 6 o.iss.bundle))) ∧
     (crExists n = true → 0x800 ≤ n.toNat → o.me.priv = false →
       (runsC (.crr a n) s → exec (.crr a n) s = .next (raise o (mkTrap cPROT (n.zeroExtend 64) 6))) ∧
       ∀ i ∈ [Instr.crw a n, .crs a n, .crc a n], runsC i s → exec i s = .next (raise o (mkTrap cPROT (n.zeroExtend 64) 6)))) ∧
  ∀ (a b : RF) (w : BitVec 2) (e : BitVec 12) (s : State) (n kind align : Nat) (p : Word),
    let o := s.opened
    (runsC (.ld w a b e) s → moveOff (o.rdG b) e.toInt = none → exec (.ld w a b e) s = .next (raise o (o.tAddr (o.rdG b)))) ∧
    (runsC (.st w a b e) s → moveOff (o.rdG b) e.toInt = none → exec (.st w a b e) s = .next (raise o (o.tAddr (o.rdG b)))) ∧
    (∀ q t, runsC (.ld w a b e) s → moveOff (o.rdG b) e.toInt = some q → o.check q (2 ^ w.toNat) 0 (2 ^ w.toNat) = some t →
      exec (.ld w a b e) s = .next (raise o t)) ∧
    (0 < n → pOff p % align ≠ 0 → o.check p n kind align = some (o.tAddr p)) ∧
    (mbzOk p = false → o.check p n kind align = some (o.tAddr p)) ∧
    (addrBad p n align = false → 0 < n → o.ownSp (o.res p) = true → protOk o.mine o.tenant o.me.priv (pOff p) n kind = false →
      o.check p n kind align = some (tProt p kind)) ∧
    (addrBad p n align = false → s.checkProt p n kind = none →
      (∀ l ∈ (s.die (dieOf s.iss.core)).locks, l.dst = true ∨ kind = 1 ∨ kind = 2 → lockMeets s l s.tenant (s.res p) n = true →
        ∃ l' ∈ (s.die (dieOf s.iss.core)).locks, (l'.dst = true ∨ kind = 1 ∨ kind = 2) ∧ lockMeets s l' s.tenant (s.res p) n = true ∧
          s.check p n kind align = some (mkTrap cLOCKED p (l'.xid.setWidth 64))) ∧
      ((∀ l ∈ (s.die (dieOf s.iss.core)).locks, l.dst = true ∨ kind = 1 ∨ kind = 2 → lockMeets s l s.tenant (s.res p) n = false) →
        s.check p n kind align = s.checkPage p n kind) ∧
      ∀ c, s.checkLock p n kind = none → 0 < n → s.ownDie (s.res p) = true → s.ownHeld (s.res p) n = false → kind = 1 ∨ kind = 2 →
        xlateFor s (dieOf s.iss.core) false s.tenant (pOff (s.res p)) kind s.me.priv false = .fault c →
        s.check p n kind align = some (mkTrap cPAGE p (faultWord c kind))) ∧
    (∀ (l : Lock) (t : Tenant) (q : Word), 0 < n → l.mask = 0 →
      (l.dst && l.shrinks) = false → (lockMeets s l t q n = true ↔
        (pSpc q = 0 ∨ t = l.tenant) ∧ posOf q ≤ posOf l.last ∧ posOf l.first < posOf q + n)) ∧
    ∀ (d : BitVec 2) (pool : Bool) (t : Tenant) (va : Nat) (priv dec : Bool),
      let at_ := fun (k : Nat) => tableWord s d k
      let root := at_ ((s.die d).ttBase + 16 * t.toNat + if pool then 8 else 0)
      let e1 := at_ (root / 256 % 2 ^ 44 * 256 + 8 * (va / 2 ^ 34 % 2 ^ 14))
      let e2 := at_ (e1 / 256 % 2 ^ 44 * 256 + 8 * (va / 2 ^ 21 % 2 ^ 13))
      let e3 := at_ (e2 / 256 % 2 ^ 44 * 256 + 8 * (va / 2 ^ 16 % 32))
      let w := walk s d pool t va
      let leafIs := fun (e : Nat) (large : Bool) => let f := e / 2 ^ 16 % 2 ^ 36; let x : Attr := BitVec.ofNat 7 (e / 4)
        let ok := leafRsv e = false ∧ (large = true → f % 32 = 0 ∧ attrS x = false) ∧ (attrS x = true → pool = false ∧ f < 32) ∧
          (attrS x = false → if pool then hdmMaps s.hdm f large = true else f * 2 ^ 16 < 384 * 2 ^ 20)
        (ok → w = .leaf (f * 2 ^ 16) large x) ∧ (¬ok → w = .fault 2)
      (∀ k, k + 8 ≤ 384 * 2 ^ 20 → at_ k = memNat s.mem (dmKey d k) 8) ∧
      (root % 2 = 0 → w = .fault 0) ∧ (root % 2 = 1 → e1 % 2 = 0 → w = .fault 0) ∧
      (root % 2 = 1 → e1 % 2 = 1 → let bad := e1 / 2 % 2 = 1 ∨ tableRsv e1 = true ∨ e1 / 256 % 256 ≠ 0
        (bad → w = .fault 2) ∧ (¬bad → e2 % 2 = 0 → w = .fault 0) ∧ (¬bad → e2 % 2 = 1 → e2 / 2 % 2 = 1 → leafIs e2 true) ∧
        (¬bad → e2 % 2 = 1 → e2 / 2 % 2 = 0 → (tableRsv e2 = true → w = .fault 2) ∧
          (tableRsv e2 = false → (e3 % 2 = 0 → w = .fault 0) ∧ (e3 % 2 = 1 → e3 / 2 % 2 = 0 → w = .fault 2) ∧
            (e3 % 2 = 1 → e3 / 2 % 2 = 1 → leafIs e3 false)))) ∧
      (tlbFind s d pool t va = none → xlate s d pool t va = w) ∧
      (∀ e, tlbFind s d pool t va = some e → xlate s d pool t va = .leaf e.frame e.large e.attr) ∧
      (∀ k, xlate s d pool t va = .fault k → xlateFor s d pool t va kind priv dec = .fault k) ∧
      ∀ f large x, xlate s d pool t va = .leaf f large x →
        let rights := match kind with | 0 | 4 => x.getLsbD 0 | 1 | 5 => x.getLsbD 1 | 2 => x.getLsbD 0 && x.getLsbD 1 | _ => x.getLsbD 2
        kind < 6 → xlateFor s d pool t va kind priv dec =
          if (priv || x.getLsbD 3) && rights && (!dec || x.getLsbD 6) then .ok (leafKey d pool va f large x) x else .fault 1

/-- R74, R165: a chunk-ending word that issues and stores nothing leaves, from the state after the commit, every byte of
memory, the other contexts and cores, and every register but its destinations. -/
def Obligations.EndingWordFrame : Prop :=
  ∀ (i : Instr) (s t : State), s.iss.fate = .issued → exec i s = .next t → t.iss.fate = .issued →
    ((∃ a b c, i = .kclaim a b c) ∨ (∃ a, i = .kready a) ∨ (∃ a b, i = .kunbind a b) ∨ (∃ a b, i = .kpin a b) ∨ (∃ a b, i = .kunpin a b) ∨
      (∃ a, i = .kscan a) ∨ (∃ a, i = .kinv a) ∨ (∃ d a b w n, i = .kwin d a b w n) ∨ (∃ z n f, i = .kcfg z n f) ∨
      (∃ a b, i = .cpset a b) ∨ (∃ a, i = .apxIn a) ∨ (∃ k b, i = .apxOut k b) ∨ i = .hend) →
    let m := s.committed i
    sameMem m t ∧ sameOthers m t ∧ sameRegs m t i.destG i.destV i.destP ∧ t.dies = m.dies ∧ t.net = m.net ∧
    t.me.a.wid = m.me.a.wid ∧ t.me.a.ltag = m.me.a.ltag ∧ t.me.a.fpf = m.me.a.fpf ∧ t.me.priv = m.me.priv

/-! ## Events -/

/-- R67, R66, R261, R317, R341, R343, R455, R340, R90, R393: the writes of control registers that have an effect of their own. What firmware
writes crosses a host link; DEV.ID, the one register of the device, changes while any is up. That software which sets WONLY in TRAP.CAUSE gives the
mark to whatever bundle TRAP.PC names, where a trap gives it to its own, is log 76 (DEDUCED). -/
def Obligations.ControlRegisterEvents : Prop :=
  ∀ (c : CoreId) (x : Word) (d : BitVec 10) (s : State),
    let k := s.core c
    exec (.qwgtWrite c x) s = .next (s.modCore c fun k =>
      { k with r := { k.r with qwgt := x }, sched := { k.sched with dq := Vector.replicate 4 0 } }) ∧
    (∃ own, exec (.slotOwnWrite c x) s = .next (s.modCore c fun k => { k with r := { k.r with slotOwn := own } }) ∧
      ∀ n, 1 ≤ n → n ≤ 10 → ownerQ own n =
        if (k.ctx (BitVec.ofNat 4 n)).st = .vacant then x.toNat / 4 ^ (n - 1) % 4 else ownerQ k.r.slotOwn n) ∧
    (let off := (x.extractLsb' 4 14).toNat; let sz := (x.extractLsb' 18 4).toNat; let cnt := (x.extractLsb' 22 12).toNat;
      (4 ≤ sz → sz ≤ 14 → 16 * off + (cnt + 1) * 2 ^ sz ≤ 2 ^ 18 → k.km.offset.toNat ≠ off →
        ∃ m, exec (.kmCfgWrite c x) s = .next (s.modCore c fun k => { k with km := m }) ∧ m.offset.toNat = off ∧
          m.sizelog.toNat = sz ∧ m.count.toNat = cnt ∧ m.exact_ = [] ∧ m.wins = []) ∧
      (sz ≠ 0 → 2 ^ 18 < 16 * off + (cnt + 1) * 2 ^ sz → exec (.kmCfgWrite c x) s = .next s)) ∧
    (∃ h, exec (.accWgtWrite c x) s = .next (s.setHalf (halfOf c) h) ∧ h.ptr = 0 ∧ h.begun = (s.half (halfOf c)).begun ∧
      ∀ i, i < 8 → h.weight i = max 1 (x.toNat / 16 ^ i % 16) ∧ vget h.cred i 0 = max 1 (x.toNat / 16 ^ i % 16)) ∧
    (∃ w, exec (.trapCauseWrite c x) s = .next (s.modCore c fun k => { k with r := { k.r with
        trapCause := w, trapMark := if x.getLsbD 14 then none else k.r.trapMark } }) ∧
      ∀ i, i < 64 → w.getLsbD i = if i = 63 ∨ i = 62 ∨ i = 14 then x.getLsbD i else k.r.trapCause.getLsbD i) ∧
    (let w := x &&& crMask 0x828 true;
      exec (.dbgBpWrite c x) s = .next (s.modCore c fun k =>
        { k with r := { k.r with dbgBp := w }, bps := (List.range 8).filterMap (captureDbg s.mem (dieOf c) w false) })) ∧
    (let w := x &&& crMask 0x829 true;
      exec (.dbgWpWrite c x) s = .next (s.modCore c fun k =>
        { k with r := { k.r with dbgWp := w }, wps := (List.range 4).filterMap (captureDbg s.mem (dieOf c) w true) })) ∧
    (hostUp s (dieOf c) = true → exec (.trapVectorWrite c x) s = .next ((hostNote s (nodeCore c) 3 18 (dieOf c ++ (0 : BitVec 10))).modCore c
      fun k => { k with r := { k.r with trapVec := x } })) ∧
    (hostUp s (dieOf c) = false → exec (.trapVectorWrite c x) s = .next s) ∧
    ((∃ e, hostUp s e = true) → ∃ t, exec (.devIdWrite d) s = .next t ∧ t.devId = d ∧ t.cores = s.cores ∧ t.mem = s.mem) ∧
    ((∀ e, hostUp s e = false) → exec (.devIdWrite d) s = .next s)

/-- R397-R401, R395, R398, R406: bring-up moves through its stages in order, each step only from the stage before it; a
failed verification keeps stage 4, whatever image follows, and tells the host; firmware writes DEV.SVC of the dies that their host links reach (R393);
the services of stage 7; a change of power is made on one die after another. What reset leaves to the model, the fused values, the time at which firmware places its tables and the order of
the dies are logs 2, 61, 72 and 57. -/
def Obligations.BringUpEvents : Prop :=
  ∀ (s : State) (fs : List Nat) (id : BitVec 10) (hdm : List HdmDec) (pub dig body sig : List Byte) (die : BitVec 2) (q : BitVec 4),
    (∃ t, exec .deviceReset s = .next t ∧ t.cores = [] ∧ t.stage = 2 ∧ t.dies = State.reset.dies ∧ t.fw = State.reset.fw ∧
      t.fw.keys = false ∧
      (s.mem.wf = true → (∀ k, k < 2 ^ 50 → memGet t.mem k = 0) ∧ ∀ k, 2 ^ 50 ≤ k → memGet t.mem k = memGet s.mem k)) ∧
    (s.stage = 2 → ∃ t, exec (.sramSelfTest fs) s = .next t ∧ (s.mem.wf = true → ∀ k, k < 2 ^ 50 → memGet t.mem k = 0) ∧
      (∀ f ∈ fs, f ∈ t.fenced) ∧ t.hostOut = s.hostOut ++ fs.map HostMsg.unit ∧ t.stage = 2) ∧
    (s.stage = 2 → exec (.ucieTraining id hdm) s = .next
      { (writeDevId (s.serve 3 1) id).placeTables with hdm := (hdm.filter hdmOk).take 16 }) ∧
    (∀ st cause, let t := s.serve st cause
      t.stage = st ∧ t.devId = s.devId ∧ ∀ d, (hostUp s d = true → (t.die d).svc = svcWord st cause) ∧ (hostUp s d = false → t.die d = s.die d)) ∧
    ((∃ d, hostUp s d = true) → (writeDevId s id).devId = id) ∧ ((∀ d, hostUp s d = false) → writeDevId s id = s) ∧
    (∀ d : HdmDec, hdmOk d = true ↔ d.ports.length ∈ [1, 2, 4, 8] ∧ d.gran ∈ [256, 512, 1024, 2048, 4096, 8192, 16384]) ∧
    (s.stage ≠ 2 → exec (.sramSelfTest fs) s = .next s ∧ exec (.ucieTraining id hdm) s = .next s) ∧
    (s.stage = 3 → exec .accordCalibration s = .next (s.serve 4 1)) ∧
    (s.stage ≠ 3 → exec .accordCalibration s = .next s) ∧
    (s.stage = 4 → exec (.firmwareVerification pub dig body sig) s = .next
      (if s.fw.failed = false ∧ shake256 pub 64 = Config.fusedKeyHash ∧ dig = shake256 body 64 ∧ edVerify pub dig sig = true
        then { s.serve 5 1 with fw := { s.fw with accepted := true, digest := dig } }
        else { s with fw := { s.fw with failed := true }, hostOut := s.hostOut ++ [.failed "FIRMWARE"] })) ∧
    (s.stage ≠ 4 → exec (.firmwareVerification pub dig body sig) s = .next s) ∧
    (s.stage = 5 → s.fw.accepted = true → ∃ t, exec .identityDerivation s = .next t ∧ t.stage = 6 ∧ t.fw.keys = true ∧
      t.fw.rootPub = edPublic (shake256 Config.fusedSecret 57) ∧ t.fw.aliasSeed = shake256 (Config.fusedSecret ++ s.fw.digest) 57 ∧
      t.fw.aliasPub = edPublic t.fw.aliasSeed) ∧
    (s.stage ≠ 5 ∨ s.fw.accepted = false → exec .identityDerivation s = .next s) ∧
    (s.stage = 6 → exec .normalService s = .next { s.serve 7 0 with lanesOn := true }) ∧
    (s.stage ≠ 6 → exec .normalService s = .next s) ∧
    (hostUp s die = true → s.stage = 7 → q ≠ 1 → q.toNat ≤ 4 → ∃ t, exec (.devSvcWrite die q) s = .next t ∧
      (t.die die).svc.extractLsb' 4 4 = q ∧ (t.die die).svc.getLsbD 0 = (q != 0) ∧ (t.die die).svc.extractLsb' 1 3 = 7 ∧
      ∀ d, d ≠ die → t.die d = s.die d) ∧
    (hostUp s die = false → exec (.devSvcWrite die q) s = .next s) ∧
    (hostUp s die = true → s.stage ≠ 7 ∨ q = 1 ∨ 4 < q.toNat → ∃ t, exec (.devSvcWrite die q) s = .next t ∧ t.dies = s.dies ∧ t.stage = s.stage) ∧
    (s.stage ≠ 7 → ∀ h, exec (.powerLimit h) s = .next s) ∧
    (s.stage = 7 → ∀ h, exec (.powerLimit h) s = .next (powerStep { s with fw := { s.fw with power := some h } })) ∧
    (s.fw.power = some true →
      ((s.die die).svc ≠ 0x4F → hostUp s die = true → (∀ d, d < die → (s.die d).svc = 0x4F ∨ hostUp s d = false) →
        ((powerStep s).die die).svc = 0x4F ∧ (powerStep s).fw.power = some true ∧ ∀ d, d ≠ die → (powerStep s).die d = s.die d) ∧
      ((∃ d, (s.die d).svc ≠ 0x4F) → (∀ d, (s.die d).svc = 0x4F ∨ hostUp s d = false) → powerStep s = s) ∧
      ((∀ d, (s.die d).svc = 0x4F) → powerStep s = { s with fw := { s.fw with power := none } })) ∧
    (s.fw.power = some false →
      ((s.die die).svc = 0x4F → hostUp s die = true → (∀ d, d < die → (s.die d).svc ≠ 0x4F ∨ hostUp s d = false) →
        ((powerStep s).die die).svc = 0x0E ∧ (powerStep s).fw.power = some false ∧ ∀ d, d ≠ die → (powerStep s).die d = s.die d) ∧
      ((∀ d, (s.die d).svc ≠ 0x4F) → powerStep s = { s with fw := { s.fw with power := none } }))

/-- R402, R405, R336, R406, R390, R394, R452, R453, R351, R393: the host's other commands. A command to a die crosses its host link, as a
packet on the debug channel, and none comes while that link is down; its acknowledgement, negative reply or value is a packet back across that link
(R388). What the attestation report digests is log 57, the moment of
SOFT log 50, the numbers of links and units log 34, what of lanes and filters the model reads into R452 and R453 log 58, and the
sequence of the records log 17. -/
def Obligations.HostCommandEvents : Prop :=
  ∀ (s : State) (die : BitVec 2) (n : BitVec 4) (e : BitVec 8) (nonce : List Byte) (c : CoreId) (sl : SlotNo) (kind : BitVec 2)
      (x : Word) (u age : Nat) (vw : List Nat) (lane : BitVec 3) (up wg : Bool) (ws : List W32),
    let h := hostNote s (nodeRoot die) 3 18 (die ++ (0 : BitVec 10))
    (s.fw.keys = true → 6 ≤ s.stage → exec (.attestationRequest nonce) s = .next { s with hostOut := s.hostOut ++
      [.report (reportBody s nonce ++ edSign s.fw.aliasSeed (reportBody s nonce))] }) ∧
    (s.fw.keys = false ∨ s.stage < 6 → exec (.attestationRequest nonce) s = .next { s with hostOut := s.hostOut ++ [.refused "ATTESTATION" 0] }) ∧
    (hostUp s die = true →
      exec (.dieCounterAccess die n (some e)) s = .next (h.modDie die fun d => { d with cntSel := vset d.cntSel n.toNat e }) ∧
      exec (.dieCounterAccess die n none) s = .next (h.tellFrom die (.value (vget (s.die die).cnt n.toNat 0))) ∧
      (h.tellFrom die (.value x)).hostOut = s.hostOut ++ [.value x] ∧ (h.tellFrom die (.value x)).dies = s.dies) ∧
    (∀ m : HostMsg, (hostUp s die = false → s.tellFrom die m = s) ∧
      (hostUp s die = true → s.tellFrom die m =
        (s.note (nodeRoot die) nodeHost m.packet.1 m.packet.2.1 (Ident.ofCore (die ++ (0 : BitVec 10))) 0 m.packet.2.2).report m)) ∧
    ((s.ctx c sl).st ≠ .vacant → (s.ctx c sl).ended = false → (s.ctx c sl).retiring = false → kind ≠ 3 →
      (∀ p ∈ (s.ctx c sl).tpend, p.cause ≠ cSOFT) →
      ∃ p, exec (.softError c sl kind x) s = .next (s.modCtx c sl fun y => { y with tpend := y.tpend ++ [p] }) ∧ p.cause = cSOFT ∧
        p.info0 = kind.setWidth 64 ∧ p.info1 = x ∧ p.pc = (s.ctx c sl).a.pc) ∧
    (s.fenced.contains u = false → ∃ t, exec (.unitFence u) s = .next t ∧ t.fenced = s.fenced ++ [u] ∧ t.hostOut = s.hostOut ++ [.unit u] ∧
      (∀ p ∈ t.cores, u = nodeCore (BitVec.ofNat 12 p.1) ∨ u = nodeRoot (dieOf (BitVec.ofNat 12 p.1)) → p.2.fenced = true) ∧
      t.mem = s.mem) ∧
    (vw.length = 4 → (∀ w ∈ vw, 1 ≤ w ∧ w ≤ 15) → 64 ≤ age → age ≤ 4095 → ∃ t, exec (.fabricConfig vw age) s = .next t ∧
      t.vw.toList = vw ∧ t.age = age ∧ t.routers = s.routers) ∧
    (s.downLinks.contains u = false → ∃ t, exec (.linkFailure u) s = .next t ∧ t.downLinks = s.downLinks ++ [u] ∧
      t.hostOut = s.hostOut ++ [.unit u] ∧ (u = 16 + die.toNat → (t.die die).hostUp = false)) ∧
    (∃ t, exec (.traceLaneDown lane up) s = .next t ∧ (lane.getLsbD 0 = false → (t.die (lane.extractLsb' 1 2)).sil.up0 = up) ∧
      (lane.getLsbD 0 = true → (t.die (lane.extractLsb' 1 2)).sil.up1 = up) ∧ t.cores = s.cores) ∧
    (hostUp s die = true → (progOk ws = true → ∃ t, exec (.filterProgramLoad die ws wg) s = .next t ∧ (t.die die).sil.prog = ws ∧
        (t.die die).sil.wgate = wg) ∧
      (progOk ws = false → ∃ t, exec (.filterProgramLoad die ws wg) s = .next t ∧ t.dies = s.dies) ∧
      ∃ t, exec (.filterCounterRead die n) s = .next t ∧ t.hostOut = s.hostOut ++ [.value (vget (s.die die).sil.fc n.toNat 0)] ∧
        vget (t.die die).sil.fc n.toNat 0 = 0) ∧
    (hostUp s die = false → exec (.dieCounterAccess die n none) s = .next s ∧ exec (.filterProgramLoad die ws wg) s = .next s ∧
      exec (.filterCounterRead die n) s = .next s) ∧
    ((s.die die).hostUp = true → exec (.errorRecordAck die u) s =
      .next ((s.note nodeHost (nodeRoot die) 1 16 (Ident.ofCore (die ++ (0 : BitVec 10))) 0 []).modDie die fun d => { d with records := d.records.drop u }))

/-- R457, R458, R52: debug commands. A freeze reaches the cores of a cluster, whose skids count from then on, and is applied at a boundary; RELEASE
returns a FROZEN context to the state it held, and STEP lets it issue one bundle, in a chunk of its own. A command crosses the host link of its die
(R393). The boundary is that of the model's clock (log 1). That RELEASE of a cluster also clears a freeze still pending, and that STEP ends an open
chunk first, are the model's choice (log 59, DEDUCED). -/
def Obligations.DebugEvents : Prop :=
  ∀ (s : State) (c : CoreId) (n : SlotNo) (cl : BitVec 8),
    let h := hostNote s (nodeCore c) 3 18 (dieOf c ++ (0 : BitVec 10))
    (∀ cause, s.atBoundary c = true → (s.core c).freezing = some cause → n.toNat < 11 → ∃ t, exec (.clusterFreeze c) s = .next t ∧
      (t.core c).frozen = true ∧ (t.core c).freezing = none ∧ ((s.ctx c n).st ≠ .vacant → (t.ctx c n).st = .frozen) ∧
      ((s.ctx c n).st ≠ .vacant → (s.ctx c n).st ≠ .frozen → (t.ctx c n).held = (s.ctx c n).st)) ∧
    (s.atBoundary c = false → exec (.clusterFreeze c) s = .next s) ∧
    (hostUp s (dieOf (cl ++ (0 : BitVec 4))) = true → (∀ i : BitVec 4, (s.core (cl ++ i)).frozen = false ∧ (s.core (cl ++ i)).freezing = none) →
      ∃ t, exec (.freeze cl) s = .next t ∧ (∀ i : BitVec 4, (t.core (cl ++ i)).freezing = some 4 ∧ (t.core (cl ++ i)).freezeAt = s.now ∧
          (n.toNat < 11 → (t.ctx (cl ++ i) n).skid = 0)) ∧
        ∀ c', clusterOf c' ≠ cl → t.core c' = s.core c') ∧
    (hostUp s (dieOf c) = true → exec (.release cl (some (c, n))) s = .next (h.modCtx c n fun x =>
      if x.st = .frozen then { x with st := x.held } else x)) ∧
    (hostUp s (dieOf (cl ++ (0 : BitVec 4))) = true → ∃ t, exec (.release cl none) s = .next t ∧
      ∀ i : BitVec 4, (t.core (cl ++ i)).frozen = false ∧ (t.core (cl ++ i)).freezing = none ∧
      (n.toNat < 11 → (s.ctx (cl ++ i) n).st = .frozen → (t.ctx (cl ++ i) n).st = (s.ctx (cl ++ i) n).held)) ∧
    (hostUp s (dieOf c) = true → n.toNat < 11 → (s.ctx c n).st = .frozen → (s.core c).stepping = none → ∃ t, exec (.step c n) s = .next t ∧
      (t.ctx c n).st = (s.ctx c n).held ∧ (t.core c).stepping = some n ∧ sameCoresBut s t c ∧
      ∀ ch, (s.ctx c n).chunk = some ch → (t.ctx c n).chunk = some { ch with ending := true }) ∧
    (hostUp s (dieOf c) = false → exec (.step c n) s = .next s ∧ exec (.release cl (some (c, n))) s = .next s)

/-- R34, R43, R65, R231, R152, R153, R193, R190, R191, R393: assignment, pages and migration. A command crosses the host link of its die.
A page invalidation drops the cached translations at once and is answered when nothing translated under them is left; a page migration
then moves the frame, its leaf and its descriptor. That UNASSIGN ends the control context there and then, which leaves its slot VACANT, is the
model's choice (log 51, DESIGN CHOICE). What else the model refuses and answers is in logs 39, 52, 55, 70 and 71. -/
def Obligations.AssignmentEvents : Prop :=
  ∀ (s : State) (c dest : CoreId) (n d : SlotNo) (tn : Tenant) (pc spill : Word) (cap va frame : Nat) (die : BitVec 2) (lg pool : Bool),
    let h := hostNote s (nodeCore c) 3 18 (dieOf c ++ (0 : BitVec 10))
    let hd := hostNote s (nodeRoot die) 3 18 (die ++ (0 : BitVec 10))
    (hostUp s (dieOf c) = true → 4 ≤ s.stage → coreFenced s c = false → (s.core c).asg = none → spillOk spill cap = true →
      ∃ t, exec (.coreAssign c tn pc spill cap) s = .next t ∧ (t.core c).asg = some tn ∧ (t.ctx c 0).st = .ready ∧ (t.ctx c 0).a.pc = pc ∧
        (∀ r, (t.ctx c 0).a.rdG r = 0) ∧ (t.core c).sched.spillBase = spill.toNat ∧ (t.core c).sched.spillCap = cap ∧
        t.hostOut = s.hostOut ++ [.ok "ASSIGN" c] ∧ t.mem = s.mem) ∧
    (hostUp s (dieOf c) = true → (s.core c).asg ≠ none → exec (.coreAssign c tn pc spill cap) s = .next (h.tell (.refused "ASSIGN" c))) ∧
    (hostUp s (dieOf c) = true → (s.core c).asg ≠ none → ∃ t, exec (.coreUnassign c) s = .next t ∧ (t.core c).asg = none ∧
      (t.ctx c 0).st = .vacant) ∧
    (hostUp s (dieOf c) = true → (s.core c).halted = true → exec (.coreResume c) s =
      .next ((h.modCore c fun k => { k with halted := false, halting := false }).tell (.ok "RESUME" c))) ∧
    (hostUp s (dieOf c) = false → exec (.coreAssign c tn pc spill cap) s = .next s ∧ exec (.coreUnassign c) s = .next s ∧
      exec (.coreResume c) s = .next s ∧ exec (.contextMigration c n dest) s = .next s) ∧
    (hostUp s die = true → exec (.pageInvalidation tn pool die va lg) s = .next (pageStep (openPage hd none tn pool die va lg) die)) ∧
    (hostUp s die = true → moveRefused hd tn die va lg frame = false →
      exec (.pageMigration tn die va lg frame) s = .next (pageStep (openPage hd (some frame) tn false die va lg) die)) ∧
    (hostUp s die = true → moveRefused hd tn die va lg frame = true →
      exec (.pageMigration tn die va lg frame) s = .next (hd.tell (.refused "MIGRATE_PAGE" (dieCore die)))) ∧
    (∀ f, let t := openPage s f tn false die va lg
      t.mem = s.mem ∧ t.cores = s.cores ∧ (∀ g ∈ (t.die die).tlb, g.pool = false → g.tenant = tn → g.page ∉ pageSpan va lg) ∧
      ∃ m, (t.die die).pageCmds = (s.die die).pageCmds ++ [m] ∧ m.frame = f ∧ m.tenant = tn ∧ m.pool = false ∧ m.die = die ∧ m.va = va ∧
        m.large = lg ∧ m.copies = copyHolders s tn false die (pageSpan va lg)) ∧
    (∀ m, (s.die die).pageCmds = [m] → m.die = die →
      let t := s.modDie die fun x => { x with pageCmds := [] }
      (pageWaits s m = true → pageStep s die = s) ∧
      (pageWaits s m = false → (m.frame = none → pageStep s die = t.tell (.ok "INVALIDATE" (dieCore die))) ∧
        ∀ f a e l, m.frame = some f → moveRefused t m.tenant die m.va m.large f = false → leafAt t die m.tenant m.va = some (a, e, l) →
          pageStep s die = serveStreams ((dropPages (moveFrame t die a e (e / 2 ^ 16 % 2 ^ 36) f (if m.large then 2 ^ 21 else 2 ^ 16)) m.tenant
            false die (pageSpan m.va m.large)).tell (.ok "MIGRATE_PAGE" (dieCore die))))) ∧
    (∀ leaf entry old new size, let t := moveFrame s die leaf entry old new size
      let desc := fun (f : Nat) => sramKey die ((s.die die).descBase + 8 * f)
      s.mem.wf = true → new * 2 ^ 16 + size ≤ dmSize → leaf + 8 ≤ dmSize → leaf + 8 ≤ new * 2 ^ 16 ∨ new * 2 ^ 16 + size ≤ leaf →
        (∀ k, k < size → memGet t.mem (dmKey die (new * 2 ^ 16) + k) = memGet s.mem (dmKey die (old * 2 ^ 16) + k)) ∧
        memNat t.mem (dmKey die leaf) 8 / 2 ^ 16 % 2 ^ 36 = new ∧ memNat t.mem (dmKey die leaf) 8 % 2 ^ 16 = entry % 2 ^ 16 ∧
        memNat t.mem (desc new) 8 = memNat s.mem (desc old) 8 % 2 ^ 10 ∧ (old ≠ new → memNat t.mem (desc old) 8 = 0)) ∧
    (hostUp s (dieOf c) = true → migrateRefused s c n dest = false → c ≠ dest → slotForWork (s.core dest) ((s.core c).tenantOf n) = some d →
      d.toNat < 11 → ∃ t, exec (.contextMigration c n dest) s = .next t ∧ (t.ctx c n).st = .departing ∧ (t.ctx c n).depart = some (dest, d) ∧
        (t.ctx c n).compl = none ∧ (t.ctx c n).a = (s.ctx c n).a ∧ vget (t.core dest).sched.resv d.toNat .none = .migrate) ∧
    ((s.ctx c n).st = .departing → (s.ctx c n).depart = some (dest, d) → (s.ctx c n).wait = none → mayDepart s c n = true →
      exec (.registerContextMessage c n) s = .next (sendContext s c n dest d)) ∧
    (∀ id r m, s.req id = some r → onWay s r = true → isDiverted s r.body = false → r.body = .ctx m →
      (dieUp s (dieOf r.core) (dieOf m.dest) = true → exec (.contextArrival id) s = .next ((s.dropReq id).modCore m.dest fun k =>
        { k with sched := { k.sched with arrivals := k.sched.arrivals ++ [.ctx m] } })) ∧
      (dieUp s (dieOf r.core) (dieOf m.dest) = false → ∃ t, exec (.contextArrival id) s = .next t ∧
        (∀ c', c' ≠ m.dest → (t.core c').ctxs = (s.core c').ctxs) ∧ (t.core m.dest).sched.arrivals = (s.core m.dest).sched.arrivals)) ∧
    (∀ id r l, (s.core c).fwd = [([id], dest, d)] → s.req id = some r → r.open_ = false → c ≠ dest → (s.core dest).fwd = [] → (s.core dest).stray = l →
      ∃ t, exec (.lateReplyForward c id) s = .next t ∧ (t.core c).fwd = [] ∧ t.req id = none ∧
        (t.core dest).stray = l.filter (· != id))

/-- R352-R357, R374, R393: pre-emption, and the holds of a gang. The scratchpad goes to the save area and comes back from it. The
form of the spill queue's entries, the areas that are refused and what an older area brings back are logs 39 and 56; the boundary is
that of the model's clock (log 1). -/
def Obligations.PreemptionEvents : Prop :=
  ∀ (s : State) (c : CoreId) (n : SlotNo) (area spill cap : Nat) (tag : BitVec 16),
    let h := hostNote s (nodeCore c) 3 18 (dieOf c ++ (0 : BitVec 10))
    let up := hostUp s (dieOf c) = true
    (up → (s.core c).pre = .running → areaOk area spill cap = true → exec (.save c area spill cap) s =
      .next ((h.modCore c fun k => { k with pre := .stopping, saveArea := area, divBase := spill, divCap := cap }).tracePre c 1)) ∧
    (up → (s.core c).pre ≠ .running → exec (.save c area spill cap) s = .next (h.tell (.refused "SAVE" c))) ∧
    ((s.core c).pre = .draining → drained s c = true → exec (.saveAreaWrite c) s =
      .next ((s.modCore c fun k => { k with pre := .saving }).tracePre c 3)) ∧
    ((s.core c).pre = .saving → exec (.saveAreaWrite c) s =
      .next ((((writeArea s c).modCore c fun k => { k with pre := .saved }).tracePre c 4).tell (.ok "SAVE" c))) ∧
    (let k := s.core c; let t := writeArea s c
      (s.mem.wf = true → k.saveArea + 448 * 2 ^ 10 ≤ dmSize →
        memRead t.mem (dmKey (dieOf c) (k.saveArea + 0x30000)) (2 ^ 18) = memRead s.mem (spKey c 0) (2 ^ 18)) ∧
      (∃ v, savedAt t c k.saveArea = some v ∧ v.img.ctxs = k.ctxs ∧ v.img.mbox = k.mbox ∧ v.img.rot = k.rot) ∧
      (t.core c).trapArea = some k.saveArea ∧ (t.core c).ctxs = k.ctxs ∧ sameCoresBut s t c) ∧
    (up → (s.core c).pre = .saved → areaMatches s c area = true → areaOk area spill cap = true → ∀ v, savedAt s c area = some v →
      exec (.restore c area spill cap) s = .next ((h.modCore c fun k =>
        { (if area = k.saveArea then k else olderImage k v.img) with
          pre := .restoring, saveArea := area, trapArea := some area, divBase := spill, divCap := cap }).tracePre c 5)) ∧
    (up → (s.core c).pre = .saved → areaMatches s c area = false → exec (.restore c area spill cap) s = .next (h.tell (.refused "RESTORE" c))) ∧
    (∀ v, savedAt s c area = some v → (areaMatches s c area = true ↔
      ∀ r ∈ v.parts, memRead s.mem (dmKey (dieOf c) (area + r.1)) r.2.length = r.2)) ∧
    (∀ v, up → (s.core c).pre = .restoring → savedAt s c (s.core c).saveArea = some v → (s.core c).divert = [] →
      ∃ t, exec (.restoreComplete c) s = .next t ∧ (t.core c).pre = .running ∧ t.hostOut = s.hostOut ++ [.ok "RESTORE" c] ∧
        (t.core c).rot = v.img.rot ∧ (∀ m, (t.ctx c m).a = (s.ctx c m).a) ∧
        (s.mem.wf = true →
          memRead t.mem (spKey c 0) (2 ^ 18) = memRead s.mem (dmKey (dieOf c) ((s.core c).saveArea + 0x30000)) (2 ^ 18))) ∧
    (∀ w t, (s.ctx c n).wait = some w → (s.core c).pre = .draining → heldElsewhere s c n = true → completeWait s c n w = some t →
      exec (.withdrawalAnswer c n) s = .next t) ∧
    (∀ id r, s.req id = some r → onWay s r = true → isDiverted s r.body = true → divertible s r.body = some c →
      ((s.core c).divert.length < (s.core c).divCap → exec (.divertedArrival id) s =
        .next ((writeImage s (dmKey (dieOf c) ((s.core c).divBase + 64 * (s.core c).divert.length))).modCore c fun k =>
          { k with divert := k.divert ++ [id] })) ∧
      ((s.core c).divCap ≤ (s.core c).divert.length → exec (.divertedArrival id) s = .next s)) ∧
    (s.atBoundary c = true → tag ≠ 0 → gangBroken s tag = true → (gangSlots s tag).any (·.1 == c) = true → (s.core c).pre = .running →
      (s.core c).gheld.contains tag = false → ∃ t, exec (.gangHold c tag) s = .next t ∧ tag ∈ (t.core c).gheld ∧ t.mem = s.mem) ∧
    (gangBroken s tag = false → exec (.gangHoldLift c tag) s =
      .next (s.modCore c fun k => { k with gheld := k.gheld.filter (· != tag) }))

/-- R37, R170, R174-R176, R180, R191, R285, R348-R350, R360, R93: what arrives at a core or a unit, and what comes back, where the failing
late reply of a context that has departed is left for its redirection and charged to none; what a load, a store and an atomic read and write at the bytes that their access finds. A host message crosses the host link (R393). What another device answers
is log 37, the pointer in a record log 46, and the indices of a ring that is no longer bound log 75. -/
def Obligations.ArrivalEvents : Prop :=
  ∀ (s : State) (c : CoreId) (n : SlotNo) (id : Nat) (r : Req) (l : LongOp),
    s.req id = some r →
    (onWay s r = true → serviceCore s.devId r.body = some c → exec (.serviceRequestArrival id) s = .next (arriveService s r)) ∧
    (r.ord = false → onWay s r = true → serviceCore s.devId r.body = none → exec (.remoteAccessArrival id) s = .next (performHere s r)) ∧
    (r.ord = true → onWay s r = true → serviceCore s.devId r.body = none → exec (.farOperationArrival id) s = .next (performHere s r)) ∧
    (onWay s r = false → exec (.farOperationArrival id) s = .next s ∧ exec (.remoteAccessArrival id) s = .next s) ∧
    (∀ bs x, r.reply = .ok bs x → r.ret = false → exec (.acknowledgement id) s = .next (s.dropReq id)) ∧
    ((s.ctx c n).long.find? (·.id == id) = some l → l.val = none → l.id = id → ∀ bs x, r.reply = .ok bs x → l.cancelled = false →
      formBadBytes l.conv (overlay l.own bs) = false → exec (.longResultReturn c n id) s =
        .next (finishLong (s.dropReq id) c n l (some (convVal l.conv (overlay l.own bs) x)) l.flags)) ∧
    (∀ op o obj x e sh, r.cancel = true → r.reply = .none → r.orphan = false → r.body = .ring op o s.devId obj x e sh →
      ∃ t, exec (.ringCancel id) s = .next t ∧ t.mem = s.mem ∧ id ∉ (t.core o).svcq ∧ id ∉ (t.core o).rwait) ∧
    (∀ k fw p, r.reply = .err k fw p → r.orphan = false → (s.ctx r.core r.slot).long = [] → (s.ctx r.core r.slot).wait = none →
      (s.core r.core).counts id = false →
      (s.redirected id = true → exec (.remoteError id) s = .next s) ∧ (s.redirected id = false →
      exec (.remoteError id) s = .next (chargeError (s.dropReq id) r.core r.occ (reqErr r k fw p)))) ∧
    (∀ e op, r.body = .start c s.devId e op → onWay s r = true → pathUp s r.core (bodyAddr s r.body) = true → isDiverted s r.body = false →
      (s.core c).sched.room = true → exec (.activeMessageArrival id) s = .next (s.modCore c fun k =>
        { k with sched := { k.sched with arrivals := k.sched.arrivals ++ [.start e id] } })) ∧
    (∀ e op, r.body = .start c s.devId e op → onWay s r = true → pathUp s r.core (bodyAddr s r.body) = true →
      isDiverted s r.body = true ∨ (s.core c).sched.room = false → exec (.activeMessageArrival id) s = .next s) ∧
    (∀ (q : BitVec 2) (pc w1 w2 : Word) (tn : Tenant),
      (hostUp s (dieOf c) = true → ∃ (m : Req) (e : Entry), m.id = s.nextId ∧ m.body = .start c s.devId e 0 ∧ m.core = c ∧ m.reply = .none ∧
        e.q = q ∧ e.pc = pc ∧ e.w1 = w1 ∧ e.w2 = w2 ∧ e.tenant = tn ∧ e.wid = 0 ∧ e.ltag = 0 ∧ exec (.hostActiveMessage c q pc w1 w2 tn) s =
          .next (({ s with net := s.net ++ [m], nextId := s.nextId + 1 } : State).emit nodeHost (m.packets s))) ∧
      (hostUp s (dieOf c) = false → exec (.hostActiveMessage c q pc w1 w2 tn) s = .next s)) ∧
    (pathUp s r.core (bodyAddr s r.body) = true → bodyHeld s r = false → isDiverted s r.body = false →
      (∀ ps w, r.body = .load ps w → performHere s r = performLoad s r ps w) ∧
      (∀ q bs sc, r.body = .store q bs sc → performHere s r = performStore s r q bs) ∧
      (∀ q x w op, r.body = .amo q x w op → performHere s r = performAtomic s r q)) ∧
    (∀ p w, let a := found s r.core r.tenant r.priv p w 0 false r.id
      let same := fun (u : State) => ∀ k, outsideDescs s k → memGet u.mem k = memGet s.mem k
      (∀ ks, a = .ok ks → ∃ u : State, performLoad s r [p] w = u.answer r.id (.ok (bytesAt s ks) 0) ∧ same u) ∧
      (∀ k fw, a = .err k fw → ∃ u : State, performLoad s r [p] w = u.answer r.id (if k = eXlate then .page p (fw.setWidth 64) else .err k fw p) ∧ same u)) ∧
    (∀ q bs ks, r.found s q bs.length 1 = .ok ks → keysHeld s ks = false → ks.Nodup → ks.length = bs.length →
      let b := r.touch s q bs.length 1
      ∃ u : State, performStore s r q bs = u.answer r.id ack ∧ (∀ i, i < bs.length → memGet u.mem (ks.getD i 0) = s.cutByte (ks.getD i 0) (bs.getD i 0)) ∧
        ∀ k, k ∉ ks → memGet u.mem k = memGet b.mem k) ∧
    (∀ q ks, let w := atomicBytes r.body; let b := r.touch s q w 2
      r.found s q w 2 = .ok ks → keysHeld s ks = false → keysHeld b ks = false → ks.Nodup → ks.length = w →
      let old := leBytes (bytesAt b ks) 0 w
      ∃ u : State, performAtomic s r q = u.answer r.id (.ok [] (atomicNew r.body w old).2) ∧
        (∀ v, (atomicNew r.body w old).1 = some v →
          ∀ i, i < w → memGet u.mem (ks.getD i 0) = s.cutByte (ks.getD i 0) (BitVec.ofNat 8 (v / 2 ^ (8 * i)))) ∧
        ((atomicNew r.body w old).1 = none → u.mem = b.mem) ∧ ∀ k, k ∉ ks → memGet u.mem k = memGet b.mem k) ∧
    (∀ q w kind, (r.phys = [] → r.found s q w kind = found s r.core r.tenant r.priv q w kind false r.id ∧
        r.touch s q w kind = touchAt s r.core r.tenant q w kind r.priv false) ∧
      (r.phys ≠ [] → r.found s q w kind = .ok r.phys ∧ r.touch s q w kind = s)) ∧
    ∀ (t : Tenant) (q : Word) (w kind : Nat) (priv dec : Bool) (k : Nat), outsideDescs s k →
      memGet (touchAt s c t q w kind priv dec).mem k = memGet s.mem k

/-- R59, R37, R52, R98, R286, R166, R340, R345, R346: a core's turns, its waits, and the traps and upcalls that wait for a context. R52 has a
waiting instruction complete in the context's next turn. Which part comes when is the model's choice (log 41, DEDUCED): a condition that holds
brings the effect at once, or, where the wait takes something of its core, makes the context live and has its effect in that turn. An ended chunk
commits whatever state its context is in. Which of the traps that wait a context meets at its bundle
is log 76 (DEDUCED). -/
def Obligations.TurnEvents : Prop :=
  ∀ (s : State) (c : CoreId) (n : SlotNo),
    (∃ t : State, exec (.rotationBoundary c) s = .next t ∧ (t.core c).rot = (s.core c).rot + 1) ∧
    (∀ id, settleHead s c = s → readyWait s c = none → readyHead s c = some id →
      exec (.serviceTurn c) s = .next (settleHead (serveOne s c id) c)) ∧
    (∀ w, (s.ctx c n).wait = some w → (s.ctx c n).isWaiting = true → (s.core c).tests n = true →
      (w.takes = false → ∀ t, completeWait s c n w = some t → exec (.waitConditionMet c n) s = .next t) ∧
      (w.takes = true → (waitDone (asCtx s c n w.bundle) w).isSome = true → ∃ t : State, exec (.waitConditionMet c n) s = .next t ∧
        (n.toNat < 11 → (t.ctx c n).st = (s.core c).liveState n ∧ (t.ctx c n).compl = some w.sbit ∧ (t.ctx c n).wait = some w) ∧ t.mem = s.mem) ∧
      (waitDone (asCtx s c n w.bundle) w = none → exec (.waitConditionMet c n) s = .next s)) ∧
    (∀ w, (s.ctx c n).wait = some w → (s.ctx c n).isWaiting = true → (s.core c).runs n = true → w.left = some 0 → w.req = none →
      meetWait s c n w = none → exec (.waitx c n) s = .next (expireWait s c n w none)) ∧
    (∀ ch, (s.ctx c n).chunk = some ch → ch.ending = true → ch.trap = none → (s.ctx c n).nearOut = false →
      exec (.chunkCommit c n) s = .next (commitChunk s c n).1) ∧
    (∀ ch, (s.ctx c n).chunk = some ch → ch.ending = false ∨ (s.ctx c n).nearOut = true → exec (.chunkCommit c n) s = .next s) ∧
    (∀ p, (s.ctx c n).tpend.find? (s.ctx c n).meetsPend = some p → (s.ctx c n).live = true → (s.ctx c n).compl = none → (s.core c).runs n = true → goesPriv (s.core c) n p.cause = true →
      exec (.privilegedTrap c n) s = .next (takePend s c n p)) ∧
    (∀ p rot, (s.ctx c n).upc = some (p, rot) → (s.ctx c n).recorded = false → (s.core c).longOf n = 0 → n ≠ 0 → n.toNat < 11 →
      (s.core c).upcArea + 704 ≤ 2 ^ 18 → protOk (s.core c) ((s.core c).tenantOf 0) false ((s.core c).upcArea + 64 * n.toNat) 64 1 = true →
      ∃ t : State, exec (.upcallRecord c n) s = .next t ∧ (t.ctx c n).recorded = true ∧ n ∈ (t.core c).r.upcPend ∧
        t.mem = memWrite s.mem (spKey c ((s.core c).upcArea + 64 * n.toNat)) (upcRecord (s.ctx c n) n p rot)) ∧
    (∀ h hs, (s.core c).r.upcPend = h :: hs → upcallDue (s.core c) = true → fetchOkAt s c (s.core c).r.upcEntry = true →
      (s.ctx c 0).wait = none → (s.ctx c 0).chunk = none → ∃ t : State, exec (.upcallDelivery c) s = .next t ∧
        (t.ctx c 0).a.pc = (s.core c).r.upcEntry ∧ (t.core c).r.upcPc = (s.ctx c 0).a.pc ∧ (t.core c).r.upcMask = true ∧
        (t.ctx c 0).a.rdG 61 = h.setWidth 64 ∧ h ∉ (t.core c).r.upcPend)

/-- R365, R368-R370, R373, R381, R382, R394: the task graph unit and stealing. The steal requests that a RESTORE delivered are served first, in their
order. Of the placement, the waiting entries counted are those of log
54; the unit's first view of a core is log 63, the acknowledgement of a frame's −1 log 53; a victim that no link reaches answers NONE
(log 70); what a stolen continuation carries is log 69. The boundaries are those of the model's clock (log 1). -/
def Obligations.SchedulingEvents : Prop :=
  ∀ (s : State) (c v : CoreId) (die : BitVec 2) (l : Launch) (q : Seek),
    (exec (.slotViewReport c) s = .next (reserveGang ((s.modTgu (dieOf c) fun t => { t with view := kset t.view c.toNat (s.core c).vacantMask }).modCore c
      fun k => { k with sched := { k.sched with dirty := false } }) (dieOf c))) ∧
    ((s.die die).tgu.launches.find? (fun x => !x.gang && !x.expanded) = some l → placeOn s die l = some c →
      ∃ e, exec (.launchPlacement die) s = .next (unitStart (s.modLaunch l.tag fun x => { x with
        next := x.next + 1, last := some c, expanded := decide (launchCount l.obj ≤ x.next + 1) }) l.core c e) ∧ e.wid = BitVec.ofNat 64 (launchWid l.obj l.next) ∧
        e.pc = laPc l.obj ∧ e.w1 = e.wid ∧ e.w2 = laArg l.obj ∧ e.ltag = l.tag ∧ e.tenant = l.tenant) ∧
    ((s.die die).tgu.launches.find? (·.tag == l.tag) = some l →
      (launchDone s l = false → exec (.launchCompletion die l.tag) s = .next s) ∧
      (launchDone s l = true → laDone l.obj = 0 → exec (.launchCompletion die l.tag) s = .next (freeLaunch s die l)) ∧
      (launchDone s l = true → laDone l.obj ≠ 0 → let p := resolve s.devId l.core (laDone l.obj)
        ∀ ks, heldAt s l.tenant none 64 p = false → found s l.core l.tenant l.priv p 64 1 false 0 = .ok ks → keysHeld s ks = false →
          exec (.launchCompletion die l.tag) s = .next
            (freeLaunch (writeKeysSquash (launchNote (touchAt s l.core l.tenant p 64 1 l.priv false) die l p (keysAt s ks) 16) ks
              (launchRecord s l)) die l))) ∧
    ((s.die die).tgu.launches.find? (fun x => x.gang && !x.expanded) = some l → l.members ≤ l.slots.length →
      l.slots.any (fun p => diverts (s.core p.1)) = false → ∃ t : State, exec (.gangStart die) s = .next t ∧ t.mem = s.mem ∧ t.net = s.net) ∧
    ((s.core c).sched.seek = some q → q.victim = v → servesSteals (s.core v) = true → dieUp s (dieOf c) (dieOf v) = true →
      (∀ i e, leavingFor s v c = some (i, e) → exec (.stealRequest v c) s = .next (giveSteal s v c i e)) ∧
      (leavingFor s v c = none → q.due s = false ∨ stealFirst s v c = false → exec (.stealRequest v c) s = .next s) ∧
      (leavingFor s v c = none → q.due s = true → stealFirst s v c = true → exec (.stealRequest v c) s = .next (markSteal s v c))) ∧
    ((s.core v).sched.thieves = [] → stealFirst s v c = true ∧ unqueue s v c = s) ∧
    (∀ h hs, (s.core v).sched.thieves = h :: hs → h ≠ c → (s.core h).sched.seek = some { q with victim := v } → (s.core h).frozen = false →
      diverts (s.core h) = false → stealFirst s v c = false) ∧
    ((s.core c).sched.seek = some q → q.victim = v → diverts (s.core v) = true → dieUp s (dieOf c) (dieOf v) = true → leavingFor s v c = none → stealDiverted s v c = false →
      (s.core v).sched.thieves.contains c = false →
      (s.core v).divert.length < (s.core v).divCap → ∃ t : State, exec (.stealRequest v c) s = .next t ∧
        (t.core v).divert = (s.core v).divert ++ [s.nextId] ∧ (t.core v).sched.deque = (s.core v).sched.deque ∧ (t.core c).sched.seek = some q) ∧
    (∀ i e, victimPick s v c = some i → (s.core v).sched.deque[i]? = some e → markSteal s v c =
      ((unqueue s v c).modCore v fun k => { k with sched := { k.sched with deque := k.sched.deque.set i { e with leaving := some c } } }).send
        (dequeReq s v e (.bump e.frame c e.frame))) ∧
    (∀ i e, bumpPending s v c = false → ∃ t : State, giveSteal s v c i e = t.send (dequeReq t v e (.ctx (stealMsg t v c e))) ∧
      (t.core v).sched.deque = (s.core v).sched.deque.eraseIdx i ∧ t.mem = s.mem) ∧
    ((s.core c).sched.seek = some q → (s.core c).frozen = false → diverts (s.core c) = false → stealComing s c = false →
      leavingFor s q.victim c = none →
      (dieUp s (dieOf c) (dieOf q.victim) = true → servesSteals (s.core q.victim) = true → q.due s = true → stealFirst s q.victim c = true →
        victimPick s q.victim c = none →
        exec (.stealNone c) s = .next (askNext (stealNote (unqueue s q.victim c) q.victim c 1 17) c q.asked)) ∧
      (dieUp s (dieOf c) (dieOf q.victim) = false → exec (.stealNone c) s = .next (askNext (unqueue s q.victim c) c q.asked))) ∧
    ((s.core c).frozen = true ∨ (s.core c).sched.seek = none → exec (.stealNone c) s = .next s) ∧
    (∀ n, 4096 ≤ n → (askNext s c n).net = s.net ∧ ((askNext s c n).core c).sched.seek = none ∧ ((askNext s c n).core c).sched.backoff = 64) ∧
    (s.atBoundary c = true → seeks (s.core c) = true → (s.core c).sched.backoff = 0 → (s.core c).sched.seek = none →
      ∀ n, idleSlot (s.core c) = some n → ∃ t : State, exec (.stealBackoffExpiry c) s = .next t ∧ vget (t.core c).sched.resv n.toNat .none = .steal ∧
        (t.core c).sched.seek = some { victim := c, asked := 1, at_ := s.now }) ∧
    (s.atBoundary c = false → exec (.stealBackoffExpiry c) s = .next s)

/-- R287, R293, R289, R123, R124, R125, R324, R318, R330, R331, R424, R438: the engines. Which bytes a copy moves, what a command accumulates and
what its retirement leaves, what `mget` writes; a surrogate's results and the constraints returned at the end of a context. A copy that needs an
answer to a push or a bump that it has sent waits with its next part. The model's choices: one step of a copy writes up to the next 64-byte line of
the destination (log 23, DESIGN CHOICE); a copy takes translations and keeps them (log 24, DEDUCED); an accord command counts its cycles and reads
its operands as it begins (log 42, DEDUCED); and the accord's tile is read and written at these events (log 1). -/
def Obligations.EngineEvents : Prop :=
  ∀ (s : State) (c : CoreId) (n : SlotNo) (ch : BitVec 1) (h : BitVec 9) (x : Eng) (e : CopyErr) (y : Half) (a : AccCmd) (j : Nat) (g : Mget),
    (copyRuns s c ch.toNat = true → copyNext s c ch.toNat = .ok x () → exec (.copyWrite c ch) s = .next (x.s.modCh c ch.toNat fun _ => x.h)) ∧
    (((s.core c).ch ch.toNat).st = .active → copyTotal ((s.core c).ch ch.toNat) ≤ ((s.core c).ch ch.toNat).pos →
      copyAwaits s ((s.core c).ch ch.toNat) = true → exec (.copyComplete c ch) s = .next s) ∧
    (((s.core c).ch ch.toNat).st = .active → copyTotal ((s.core c).ch ch.toNat) ≤ ((s.core c).ch ch.toNat).pos →
      copyAwaits s ((s.core c).ch ch.toNat) = false → cdRv ((s.core c).ch ch.toNat).active = false → cdMv ((s.core c).ch ch.toNat).active = false →
      ∃ u, exec (.copyComplete c ch) s = .next u ∧ ((u.core c).ch ch.toNat).st = .done ∧ ((u.core c).ch ch.toNat).cause = 0 ∧ u.mem = s.mem) ∧
    (copyRuns s c ch.toNat = true → copyNext s c ch.toNat = .stop x e →
      (e.cause ≠ 0 → exec (.copyError c ch) s =
        .next (composeError (endCopy x.s c ch.toNat .error e.cause e.fw) c (copyErrOp x.h e) false false)) ∧
      (e.cause = 0 → exec (.copyError c ch) s = .next s) ∧ exec (.copyWrite c ch) s = .next s) ∧
    (let z := Eng.open_ s c ch.toNat; let k := z.h
      ∀ (p q : Word) (m : Nat) (ks kd : List Nat) (bs : List Byte),
        cdKind k.active = ckLINEAR → k.pos < cdSize0 k.active → moveOff (cdSrc k.active) k.pos = some p → moveOff (cdDst k.active) k.pos = some q →
        m = min (cdSize0 k.active - k.pos) (64 - pOff q % 64) →
        let ps := resolve s.devId c p
        let pd := resolve s.devId c (resolve s.devId c q)
        addrBad p m 1 = false → addrBad (resolve s.devId c q) m 1 = false → z.waits c ps m = false → z.found c ps m 4 false = .ok ks →
        engRead z c p m false = .ok x bs → x.waits c pd m = false → x.found c pd m 5 false = .ok kd →
        engHeld (x.take c pd m 5 false).s c kd = false → kd.Nodup → ks.length = m → kd.length = m →
          ∃ u, copyNext s c ch.toNat = .ok u () ∧ u.h.pos = k.pos + m ∧ u.h.wp = past q m ∧
            (∀ i, i < m → memGet u.s.mem (kd.getD i 0) = s.cutByte (kd.getD i 0) (memGet (z.take c ps m 4 false).s.mem (ks.getD i 0))) ∧
            ∀ x, x ∉ kd → outsideDescs s x → memGet u.s.mem x = memGet s.mem x) ∧
    (∀ (z : Eng) (q : Word) (m kind : Nat) (dec : Bool) (k : Nat), outsideDescs z.s k →
      memGet (z.take c q m kind dec).s.mem k = memGet z.s.mem k) ∧
    (∀ (d : Vector Word 8), (cdKind d = ckSTRIDED → ∀ i1 i2 i3, i1 < cdSize d 1 → i2 < cdSize d 2 →
        runOffs d (i1 + cdSize d 1 * (i2 + cdSize d 2 * i3)) =
          ((i1 : Int) * cdSs d 1 + i2 * cdSs d 2 + i3 * cdSs d 3, (i1 : Int) * cdDs d 1 + i2 * cdDs d 2 + i3 * cdDs d 3)) ∧
      (cdKind d = ckGATHER → ∀ r, runOffs d r = (0, (r : Int) * cdSize0 d)) ∧
      (cdKind d = ckMCAST → ∀ q x : Word, x ∈ copyDests d q ↔
        ∃ i, i < 16 ∧ (cdMask d).getLsbD i = true ∧ x = q.extractLsb' 36 28 ++ BitVec.ofNat 4 i ++ q.extractLsb' 0 32)) ∧
    (∀ (z z' : Eng) (r o : Nat) (p q : Word) (bs : List Byte), cdKind z.h.active = ckGATHER → moveOff (cdIndex z.h.active) (4 * r) = some p →
      engRead z c p 4 false (2 ^ 32) = .ok z' bs →
      moveOff (cdSrc z.h.active) ((leBytes bs 0 4 * cdSize0 z.h.active : Nat) + (o : Int)) = some q → runSrc z c r o = .ok z' q) ∧
    (∀ (m : MacMode) (oa ob : Opnd) (x : Tile) (i k : Nat), i < 16 → k < 16 →
      let c0 := tileWord x (16 * i + k)
      let z := tileWord (macTile m oa ob x).1 (16 * i + k)
      let prod := fun l => negIfI m.nb (negIfI m.na ((oa.int i l).1 * (ob.int l k).1))
      let from_ := if m.fresh then 0 else toSigned 32 c0
      (isInt32 (shFmt oa.e) (shFmt ob.e) = true → m.sat = false →
        z = patOf 32 (from_ + ((List.range 64).map prod).sum) ∧ (macTile m oa ob x).2 = false) ∧
      (isInt32 (shFmt oa.e) (shFmt ob.e) = true → m.sat = true →
        z = patOf 32 ((List.range 64).foldl (fun b l => max (-2 ^ 31) (min (2 ^ 31 - 1) (b + prod l))) from_)) ∧
      (isInt32 (shFmt oa.e) (shFmt ob.e) = false → isBlk (shFmt oa.e) = false → isBlk (shFmt ob.e) = false → m.reduced = false →
        z = (List.range 64).foldl (fun b l => rne32 ((fp32 b).sum2 ((negIf m.na (oa.at_ i l)).mul (negIf m.nb (ob.at_ l k)))))
          (if m.fresh then 2 ^ 31 else c0)) ∧
      (isInt32 (shFmt oa.e) (shFmt ob.e) = false → isBlk (shFmt oa.e) = true ∨ isBlk (shFmt ob.e) = true →
        z = macBlock m oa ob i k c0)) ∧
    ((s.half h).begun = none → arbitrate (s.half h) (eligibleCores s h) = some (j, y) → oldestCmd (s.core (halfCore h j)) = some a →
      ∃ u, exec (.accordCommandBegin h) s = .next u ∧ u.half h = y ∧ u.mem = s.mem ∧
        (u.core (halfCore h j)).acc.q = (s.core (halfCore h j)).acc.q.map fun z =>
          if z.seq = a.seq then beginCmd s (halfCore h j) (s.core (halfCore h j)) a else z) ∧
    (∀ m, (s.half h).begun = some m → (s.core (halfCore h m.toNat)).acc.q.find? (·.begun) = some a →
      exec (.accordCommandRetire h) s = .next ((s.setHalf h { s.half h with begun := none }).modCore (halfCore h m.toNat) fun k => retireCmd k a)) ∧
    (∀ (k : Machine.Core) (i : Nat), i < 4 → vget (retireCmd k a).acc.tiles i 0 =
        (match a.res with | some x => if i = cmdTile a.i then x else vget k.acc.tiles i 0 | none => vget k.acc.tiles i 0) ∧
      (∀ z ∈ (retireCmd k a).acc.q, z.seq ≠ a.seq ∧ z ∈ k.acc.q) ∧
      ((cmdRings a.i).isSome = true → a.bind = false → a.ringA ≠ a.ringB → a.ringA < 32 → a.ringB < 32 →
        let freed := fun (b : Bool) => (if b then 0 else 1 : W32)
        ((retireCmd k a).ring a.ringA).c = (k.ring a.ringA).c + freed (cmdKeeps a.i).1 ∧
        ((retireCmd k a).ring a.ringA).f = (k.ring a.ringA).f + freed (cmdKeeps a.i).1 ∧
        ((retireCmd k a).ring a.ringB).c = (k.ring a.ringB).c + freed (cmdKeeps a.i).2 ∧
        ((retireCmd k a).ring a.ringB).f = (k.ring a.ringB).f + freed (cmdKeeps a.i).2)) ∧
    ((s.core c).acc.mgets.find? (mgetReady (s.core c)) = some g → ∃ u, exec (.mgetTileRead c) s = .next u ∧ u.mem = s.mem ∧
      (u.core c).acc.mgets = (s.core c).acc.mgets.map fun z =>
        if z.seq = g.seq then { z with bytes := some (mgetBytes (vget (s.core c).acc.tiles g.acc.toNat 0) g.ptr) } else z) ∧
    (∀ (x : Tile) (p : Word) (i k : Nat), i < 16 → k < 16 →
      (pFmt p = 0 ∨ pFmt p = 3 → leBytes (mgetBytes x p) (64 * i + 4 * k) 4 = tileWord x (16 * i + k)) ∧
      (pFmt p = 9 → (mgetBytes x p).getD (16 * i + k) 0 = BitVec.ofInt 8 (max (-128) (min 127 (toSigned 32 (tileWord x (16 * i + k))))))) ∧
    ((s.core c).acc.mgets.find? (fun g => g.bytes.isSome && g.due ≤ (s.core c).cyc) = some g → keysHeld s g.keys = false →
      exec (.mgetComplete c) s = .next (endLong ((writeKeysSquash s g.keys (g.bytes.getD [])).modCore c fun k =>
        { k with acc := { k.acc with mgets := k.acc.mgets.filter fun z => z.seq != g.seq } }) c g.slot g.id)) ∧
    ((s.ctx c n).inv.pend = true → n.toNat < 11 → ∃ u, exec (.surrogateResult c n) s = .next u ∧ (u.ctx c n).inv.pend = false ∧
      ∀ i, i < (s.ctx c n).inv.res.length → i < 16 → vget (u.ctx c n).inv.out i 0 = (s.ctx c n).inv.res.getD i 0) ∧
    ((s.ctx c n).retiring = true → (s.ctx c n).chunk = none → (s.ctx c n).rel = none → (s.ctx c n).st ≠ .vacant →
      exec (.heldConstraintReturn c n) s = .next (returnAllHeld s c n))

/-- R389, R390, R391, R385, R449, R450, R452, R453, R454: routers and the trace core. What a flit carries is log 35; that a unit is
handled, and a frame sent, at the model's own moments of a rotation is logs 1 and 58, and that an event on a trace core with nothing to
do changes nothing log 1; the numbers of ports are log 34. -/
def Obligations.FabricAndTraceEvents : Prop :=
  ∀ (s : State) (rt port inp buf : Nat) (vc : BitVec 2) (p : Packet) (r : Router) (die : BitVec 2),
    (((s.router rt).inbound inp).owed.contains buf = true → buf < 4 → ∃ t, exec (.creditReturn rt inp buf) s = .next t ∧
      ((t.router rt).inbound inp).shared = ((s.router rt).inbound inp).shared ∧
      vget ((t.router rt).inbound inp).r buf 0 = vget ((s.router rt).inbound inp).r buf 0 + 1 ∧ t.cores = s.cores) ∧
    (((s.router rt).inbound inp).owed.contains 4 = true → ∃ t, exec (.creditReturn rt inp 4) s = .next t ∧
      ((t.router rt).inbound inp).shared = ((s.router rt).inbound inp).shared + 1) ∧
    ((s.router rt).holder port = none → choose s.vw (s.router rt) port (candidates s rt port) = none →
      exec (.outputArbitration rt port) s = .next s) ∧
    (∀ h up, (s.router rt).holder port = none → choose s.vw (s.router rt) port (candidates s rt port) = some (p, r) →
      route s rt p = some (h, up) →
      exec (.outputArbitration rt port) s = .next (sendFlit (s.setRouter rt r) rt port p h.dest up)) ∧
    (∀ g, (s.router rt).holder port = some (g, p) →
      exec (.outputArbitration rt port) s =
        .next (if p.sent < p.got ∧ hasCredit s p.vc g.dest = true ∧ linkOpen s rt ⟨port, g.dest.1, g.dest.2⟩ = true then sendFlit s rt port p g.dest none else s)) ∧
    (∀ (x : Router) (vw : Vector Nat 4) (cs : List Packet),
      ((∃ q ∈ cs, q.urg = true) → ∃ q, choose vw x port cs = some (q, x) ∧ q ∈ cs ∧ q.urg = true ∧ ∀ z ∈ cs, z.urg = true → z.wait ≤ q.wait) ∧
      (cs ≠ [] → (∀ q ∈ cs, q.urg = false ∧ q.inp < 128) → (∀ i, i < 4 → 0 < vget vw i 0) → ∃ q x', choose vw x port cs = some (q, x') ∧ q ∈ cs)) ∧
    (∀ (q : Packet) (d : Nat × Nat), q.sent + 1 = q.flits →
      (p ∈ (flitOut (s.router rt) port q d).pkts ↔ p ∈ (s.router rt).pkts ∧ p.pid ≠ q.pid)) ∧
    ((s.router rt).pkts.find? (fun q => q.inp == inp && q.vc == vc) = some p → p.urg = false → p.sent = 0 →
      (s.age ≤ p.wait → ∃ t, exec (.urgPromotion rt inp vc) s = .next t ∧
        { p with urg := true } ∈ (t.router rt).pkts ∧ (t.router rt).pkts.length = (s.router rt).pkts.length) ∧
      (p.wait < s.age → exec (.urgPromotion rt inp vc) s = .next s)) ∧
    ((∀ c, dieOf c = die → (s.core c).stall = []) →
      ((s.die die).sil.inq = [] → exec (.sillageAccept die) s = .next s) ∧
      ∀ u us v, (s.die die).sil.inq = u :: us → verdictOf (s.die die).sil u (unitTenant s u) = v →
        let b := s.modDie die fun x => { x with sil := ({ x.sil with inq := us, marks := x.sil.marks.tail } : Sillage).judge u v }
        (v ≠ .trig 0 → exec (.sillageAccept die) s = .next b) ∧
        (v = .trig 0 → exec (.sillageAccept die) s = .next (broadcastFreeze b (clusterOf (unitCore u)) 3
          (((s.die die).sil.marks.head?.map (·.counts)).getD [])))) ∧
    (∀ (x : Sillage) (u : List (BitVec 128)) (w : W32) (ws : List W32) (tn : Tenant),
      let passes := x.wgate = false ∨ x.win = true
      let room := (x.up0 = true ∨ x.up1 = true) ∧ x.outq.length + u.length ≤ 64
      (x.prog = [] → verdictOf x u tn = .keep) ∧
      (x.prog = w :: ws → (fOp w = 0 → verdictOf x u tn = .keep) ∧ (fOp w = 1 → verdictOf x u tn = .drop) ∧
        (fOp w = 2 → verdictOf x u tn = .count (w.toNat % 16)) ∧ (fOp w = 3 → verdictOf x u tn = .trig (w.toNat % 4))) ∧
      (passes → room → x.judge u .keep = { x with outq := x.outq ++ u }) ∧
      (passes → ¬room → x.judge u .keep = { x with drops := min (x.drops + u.length) (2 ^ 48 - 1) }) ∧
      (¬passes → x.judge u .keep = x) ∧ x.judge u .drop = x ∧
      (∀ i, x.judge u (.count i) = { x with fc := vset x.fc i (vget x.fc i 0 + 1) }) ∧
      x.judge u (.trig 0) = x.judge u .keep ∧ x.judge u (.trig 1) = ({ x with win := true } : Sillage).judge u .keep ∧
      x.judge u (.trig 2) = { x.judge u .keep with win := false } ∧
      (x.up0 = true → x.up1 = true → laneNext x = some (if x.free1 < x.free0 then 1 else 0)) ∧
      (x.up0 = true → x.up1 = false → laneNext x = some 0) ∧ (x.up0 = false → x.up1 = true → laneNext x = some 1) ∧
      (x.up0 = false → x.up1 = false → laneNext x = none)) ∧
    ((s.die die).sil.drops ≠ 0 → (s.die die).sil.outq.length < 64 → ∃ t, exec (.loss die) s = .next t ∧ (t.die die).sil.drops = 0 ∧
      (t.die die).sil.outq = (s.die die).sil.outq.take (s.die die).sil.part ++ lossRec s die :: (s.die die).sil.outq.drop (s.die die).sil.part) ∧
    ((s.die die).sil.drops = 0 ∨ 64 ≤ (s.die die).sil.outq.length → exec (.loss die) s = .next s) ∧
    (∀ x xs (l : BitVec 1), (s.die die).sil.outq = x :: xs → laneNext (s.die die).sil = some l →
      ((s.die die).sil.freeAt l < 16 * s.now + 16 → ∃ t, exec (.traceFrame die) s = .next t ∧
        (t.die die).sil.outq = xs ∧ (t.die die).sil.seq = (s.die die).sil.seq + 1 ∧
        (t.die die).sil.sent = (s.die die).sil.sent ++ [(die ++ l, frameOf (s.die die).sil.seq x)] ∧
        (t.die die).sil.freeAt l = max (16 * s.now) ((s.die die).sil.freeAt l) + frameTime (s.die die)) ∧
      (16 * s.now + 16 ≤ (s.die die).sil.freeAt l → exec (.traceFrame die) s = .next s)) ∧
    ((s.die die).sil.outq = [] ∨ laneNext (s.die die).sil = none → exec (.traceFrame die) s = .next s)
end

