-- ==== Sys2Proof/Laws/State.lean ====
section
/-! SUPPORT. What each update of the state changes: keyed lists and vectors, cores, contexts, dies, registers. -/

namespace Sys2Proof.Machine

/-! ## Keyed lists and vectors -/

@[simp] theorem kget_kset_same {α : Type} (l : List (Nat × α)) (k : Nat) (a : α) : kget (kset l k a) k = some a := by
  induction l with
  | nil => simp [kset, kget]
  | cons p t ih =>
    obtain ⟨j, b⟩ := p
    by_cases h : j = k
    · simp [kset, kget, h]
    · by_cases h2 : k < j
      · simp [kset, kget, h, h2]
      · simp [kset, kget, h, h2, ih]

theorem kget_kset_ne {α : Type} (l : List (Nat × α)) {k k' : Nat} (a : α) (h : k' ≠ k) : kget (kset l k a) k' = kget l k' := by
  induction l with
  | nil => simp [kset, kget, Ne.symm h]
  | cons p t ih =>
    obtain ⟨j, b⟩ := p
    by_cases h1 : j = k
    · subst h1; simp [kset, kget, Ne.symm h]
    · by_cases h2 : k < j
      · simp [kset, kget, h1, h2, Ne.symm h]
      · simp [kset, kget, h1, h2, ih]

@[simp] theorem vget_vset_same {α : Type} {n : Nat} (x : Vector α n) (i : Nat) (a d : α) (h : i < n) :
    vget (vset x i a) i d = a := by
  simp [vget, vset, h]

theorem vget_vset_ne {α : Type} {n : Nat} (x : Vector α n) {i j : Nat} (a d : α) (h : j ≠ i) :
    vget (vset x i a) j d = vget x j d := by
  simp [vget, vset, List.getD_eq_getElem?_getD, Ne.symm h]

/-! ## Registers -/

@[simp] theorem Arch.rdG_zero (a : Arch) : a.rdG 0 = 0 := rfl
@[simp] theorem Arch.rdP_zero (a : Arch) : a.rdP 0 = BitVec.allOnes 64 := rfl
@[simp] theorem Arch.wrG_zero (a : Arch) (x : Word) : a.wrG 0 x = a := rfl
@[simp] theorem Arch.wrP_zero (a : Arch) (x : Word) : a.wrP 0 x = a := rfl

theorem Arch.rdG_wrG_same (a : Arch) (r : Nat) (x : Word) (h : r ≠ 0) (hr : r < 64) : (a.wrG r x).rdG r = x := by
  simp [Arch.rdG, Arch.wrG, h, hr]

theorem Arch.rdG_wrG_ne (a : Arch) {r r' : Nat} (x : Word) (h : r' ≠ r) : (a.wrG r x).rdG r' = a.rdG r' := by
  by_cases h0 : r = 0
  · subst h0; rfl
  · simp [Arch.rdG, Arch.wrG, h0, vget_vset_ne _ _ _ h]

theorem Arch.rdP_wrP_same (a : Arch) (r : Nat) (x : Word) (h : r ≠ 0) (hr : r < 8) : (a.wrP r x).rdP r = x := by
  simp [Arch.rdP, Arch.wrP, h, hr]

theorem Arch.rdP_wrP_ne (a : Arch) {r r' : Nat} (x : Word) (h : r' ≠ r) : (a.wrP r x).rdP r' = a.rdP r' := by
  by_cases h0 : r = 0
  · subst h0; rfl
  · simp [Arch.rdP, Arch.wrP, h0, vget_vset_ne _ _ _ h]

/-! ## Cores and contexts -/

@[simp] theorem State.core_setCore (s : State) (c : CoreId) (k : Core) : (s.setCore c k).core c = k := by
  simp [State.core, State.setCore]

theorem State.core_setCore_ne (s : State) {c c' : CoreId} (k : Core) (h : c' ≠ c) : (s.setCore c k).core c' = s.core c' := by
  have : c'.toNat ≠ c.toNat := fun e => h (BitVec.eq_of_toNat_eq e)
  simp [State.core, State.setCore, kget_kset_ne _ _ this]

@[simp] theorem State.core_modCore (s : State) (c : CoreId) (f : Core → Core) : (s.modCore c f).core c = f (s.core c) := by
  simp [State.modCore]

theorem State.core_modCore_ne (s : State) {c c' : CoreId} (f : Core → Core) (h : c' ≠ c) :
    (s.modCore c f).core c' = s.core c' := by
  simp [State.modCore, State.core_setCore_ne _ _ h]

theorem Core.ctx_setCtx (k : Core) (n : SlotNo) (x : Ctx) (h : n.toNat < 11) : (k.setCtx n x).ctx n = x := by
  simp [Core.ctx, Core.setCtx, h]

theorem Core.ctx_setCtx_ne (k : Core) {n m : SlotNo} (x : Ctx) (h : m ≠ n) : (k.setCtx n x).ctx m = k.ctx m := by
  have : m.toNat ≠ n.toNat := fun e => h (BitVec.eq_of_toNat_eq e)
  simp [Core.ctx, Core.setCtx, vget_vset_ne _ _ _ this]

theorem State.ctx_modCtx (s : State) (c : CoreId) (n : SlotNo) (f : Ctx → Ctx) (h : n.toNat < 11) :
    (s.modCtx c n f).ctx c n = f (s.ctx c n) := by
  simp [State.ctx, State.modCtx, Core.ctx_setCtx _ _ _ h]

theorem State.ctx_modCtx_ne (s : State) (c : CoreId) {n m : SlotNo} (f : Ctx → Ctx) (h : m ≠ n) :
    (s.modCtx c n f).ctx c m = s.ctx c m := by
  simp [State.ctx, State.modCtx, Core.ctx_setCtx_ne _ _ h]

/-! Fields of a core that an update of a context leaves. -/

section
variable (k : Core) (n : SlotNo) (x : Ctx)
@[simp] theorem Core.setCtx_asg : (k.setCtx n x).asg = k.asg := rfl
@[simp] theorem Core.setCtx_h : (k.setCtx n x).h = k.h := rfl
@[simp] theorem Core.setCtx_sh : (k.setCtx n x).sh = k.sh := rfl
@[simp] theorem Core.setCtx_holder : (k.setCtx n x).holder = k.holder := rfl
@[simp] theorem Core.setCtx_bankq : (k.setCtx n x).bankq = k.bankq := rfl
@[simp] theorem Core.setCtx_rot : (k.setCtx n x).rot = k.rot := rfl
@[simp] theorem Core.setCtx_cyc : (k.setCtx n x).cyc = k.cyc := rfl
@[simp] theorem Core.setCtx_r : (k.setCtx n x).r = k.r := rfl
@[simp] theorem Core.setCtx_acc : (k.setCtx n x).acc = k.acc := rfl
@[simp] theorem Core.setCtx_km : (k.setCtx n x).km = k.km := rfl
@[simp] theorem Core.setCtx_rings : (k.setCtx n x).rings = k.rings := rfl
@[simp] theorem Core.setCtx_mbox : (k.setCtx n x).mbox = k.mbox := rfl
@[simp] theorem Core.setCtx_chan : (k.setCtx n x).chan = k.chan := rfl
@[simp] theorem Core.setCtx_sched : (k.setCtx n x).sched = k.sched := rfl
@[simp] theorem Core.setCtx_took : (k.setCtx n x).took = k.took := rfl
@[simp] theorem Core.setCtx_stray : (k.setCtx n x).stray = k.stray := rfl
@[simp] theorem Core.setCtx_kept : (k.setCtx n x).kept = k.kept := rfl
@[simp] theorem Core.setCtx_gone : (k.setCtx n x).gone = k.gone := rfl
@[simp] theorem Core.setCtx_holds (m : SlotNo) : (k.setCtx n x).holds m = k.holds m := rfl
end

/-! Fields of the state that an update of a core leaves. -/

section
variable (s : State) (c : CoreId)
@[simp] theorem State.setCore_mem (k : Core) : (s.setCore c k).mem = s.mem := rfl
@[simp] theorem State.setCore_net (k : Core) : (s.setCore c k).net = s.net := rfl
@[simp] theorem State.setCore_dies (k : Core) : (s.setCore c k).dies = s.dies := rfl
@[simp] theorem State.setCore_iss (k : Core) : (s.setCore c k).iss = s.iss := rfl
@[simp] theorem State.setCore_devId (k : Core) : (s.setCore c k).devId = s.devId := rfl
@[simp] theorem State.setCore_nextId (k : Core) : (s.setCore c k).nextId = s.nextId := rfl
@[simp] theorem State.setCore_unsent (k : Core) : (s.setCore c k).unsent = s.unsent := rfl
@[simp] theorem State.modCore_mem (f : Core → Core) : (s.modCore c f).mem = s.mem := rfl
@[simp] theorem State.modCore_net (f : Core → Core) : (s.modCore c f).net = s.net := rfl
@[simp] theorem State.modCore_dies (f : Core → Core) : (s.modCore c f).dies = s.dies := rfl
@[simp] theorem State.modCore_iss (f : Core → Core) : (s.modCore c f).iss = s.iss := rfl
@[simp] theorem State.modCore_devId (f : Core → Core) : (s.modCore c f).devId = s.devId := rfl
@[simp] theorem State.modCore_nextId (f : Core → Core) : (s.modCore c f).nextId = s.nextId := rfl
@[simp] theorem State.modCore_halves (f : Core → Core) : (s.modCore c f).halves = s.halves := rfl
@[simp] theorem State.modCore_engines (f : Core → Core) : (s.modCore c f).engines = s.engines := rfl
@[simp] theorem State.modCore_routers (f : Core → Core) : (s.modCore c f).routers = s.routers := rfl
@[simp] theorem State.modCore_unsent (f : Core → Core) : (s.modCore c f).unsent = s.unsent := rfl
@[simp] theorem State.modCtx_mem (n : SlotNo) (f : Ctx → Ctx) : (s.modCtx c n f).mem = s.mem := rfl
@[simp] theorem State.modCtx_net (n : SlotNo) (f : Ctx → Ctx) : (s.modCtx c n f).net = s.net := rfl
@[simp] theorem State.modCtx_dies (n : SlotNo) (f : Ctx → Ctx) : (s.modCtx c n f).dies = s.dies := rfl
@[simp] theorem State.modCtx_iss (n : SlotNo) (f : Ctx → Ctx) : (s.modCtx c n f).iss = s.iss := rfl
@[simp] theorem State.modCtx_devId (n : SlotNo) (f : Ctx → Ctx) : (s.modCtx c n f).devId = s.devId := rfl
@[simp] theorem State.modCtx_nextId (n : SlotNo) (f : Ctx → Ctx) : (s.modCtx c n f).nextId = s.nextId := rfl
@[simp] theorem State.modCtx_unsent (n : SlotNo) (f : Ctx → Ctx) : (s.modCtx c n f).unsent = s.unsent := rfl
end

/-! The issuing context. -/

section
variable (s : State)
@[simp] theorem State.modMe_mem (f : Ctx → Ctx) : (s.modMe f).mem = s.mem := rfl
@[simp] theorem State.modMe_iss (f : Ctx → Ctx) : (s.modMe f).iss = s.iss := rfl
@[simp] theorem State.modMe_net (f : Ctx → Ctx) : (s.modMe f).net = s.net := rfl
@[simp] theorem State.modMe_dies (f : Ctx → Ctx) : (s.modMe f).dies = s.dies := rfl
@[simp] theorem State.modMine_mem (f : Core → Core) : (s.modMine f).mem = s.mem := rfl
@[simp] theorem State.modMine_iss (f : Core → Core) : (s.modMine f).iss = s.iss := rfl
@[simp] theorem State.modMine_net (f : Core → Core) : (s.modMine f).net = s.net := rfl
@[simp] theorem State.modMine_dies (f : Core → Core) : (s.modMine f).dies = s.dies := rfl

theorem State.me_modMe (f : Ctx → Ctx) (h : s.iss.slot.toNat < 11) : (s.modMe f).me = f s.me :=
  State.ctx_modCtx s _ _ f h

@[simp] theorem State.mine_modMine (f : Core → Core) : (s.modMine f).mine = f s.mine := State.core_modCore s _ f

@[simp] theorem State.modDie_mem (d : BitVec 2) (f : Die → Die) : (s.modDie d f).mem = s.mem := rfl
@[simp] theorem State.modDie_cores (d : BitVec 2) (f : Die → Die) : (s.modDie d f).cores = s.cores := rfl
@[simp] theorem State.modDie_iss (d : BitVec 2) (f : Die → Die) : (s.modDie d f).iss = s.iss := rfl
@[simp] theorem State.modDie_net (d : BitVec 2) (f : Die → Die) : (s.modDie d f).net = s.net := rfl

@[simp] theorem State.die_modDie (d : BitVec 2) (f : Die → Die) : (s.modDie d f).die d = f (s.die d) := by
  simp [State.die, State.modDie, d.isLt]

theorem State.die_modDie_ne {d d' : BitVec 2} (f : Die → Die) (h : d' ≠ d) : (s.modDie d f).die d' = s.die d' := by
  have : d'.toNat ≠ d.toNat := fun e => h (BitVec.eq_of_toNat_eq e)
  simp [State.die, State.modDie, vget_vset_ne _ _ _ this]
end

/-! ## Writing a register by its field -/

@[simp] theorem State.wrG_mem (s : State) (r : RF) (x : Word) : (s.wrG r x).mem = s.mem := by
  unfold State.wrG; split <;> rfl
@[simp] theorem State.wrG_iss (s : State) (r : RF) (x : Word) : (s.wrG r x).iss = s.iss := by
  unfold State.wrG; split <;> rfl
@[simp] theorem State.wrG_net (s : State) (r : RF) (x : Word) : (s.wrG r x).net = s.net := by
  unfold State.wrG; split <;> rfl
@[simp] theorem State.wrG_dies (s : State) (r : RF) (x : Word) : (s.wrG r x).dies = s.dies := by
  unfold State.wrG; split <;> rfl
@[simp] theorem State.wrP_mem (s : State) (r : BitVec 3) (x : Word) : (s.wrP r x).mem = s.mem := rfl
@[simp] theorem State.wrP_iss (s : State) (r : BitVec 3) (x : Word) : (s.wrP r x).iss = s.iss := rfl
@[simp] theorem State.wrV_mem (s : State) (r : BitVec 4) (x : VReg) : (s.wrV r x).mem = s.mem := rfl
@[simp] theorem State.wrV_iss (s : State) (r : BitVec 4) (x : VReg) : (s.wrV r x).iss = s.iss := rfl

/-- R39: a write that field 0 names writes nothing, unless it names a shadow register (it never does). -/
theorem State.wrG_zero (s : State) (x : Word) : s.wrG 0 x = s.modMe fun c => c := by
  simp [State.wrG, State.isShadow, State.modMe]

/-! ## Operation ids, free values, packets, requests -/

section
variable (s : State)
@[simp] theorem State.freshId_cores : (s.freshId).cores = s.cores := rfl
@[simp] theorem State.freshId_dies : (s.freshId).dies = s.dies := rfl
@[simp] theorem State.freshId_mem : (s.freshId).mem = s.mem := rfl
@[simp] theorem State.freshId_net : (s.freshId).net = s.net := rfl
@[simp] theorem State.freshId_iss : (s.freshId).iss = s.iss := rfl
@[simp] theorem State.freshId_routers : (s.freshId).routers = s.routers := rfl
@[simp] theorem State.freshId_free : (s.freshId).free = s.free := rfl
@[simp] theorem State.freshId_unsent : (s.freshId).unsent = s.unsent := rfl
@[simp] theorem State.draw_cores : (s.draw).cores = s.cores := rfl
@[simp] theorem State.draw_dies : (s.draw).dies = s.dies := rfl
@[simp] theorem State.draw_mem : (s.draw).mem = s.mem := rfl
@[simp] theorem State.draw_net : (s.draw).net = s.net := rfl
@[simp] theorem State.draw_iss : (s.draw).iss = s.iss := rfl
@[simp] theorem State.draw_routers : (s.draw).routers = s.routers := rfl
@[simp] theorem State.draw_nextId : (s.draw).nextId = s.nextId := rfl
@[simp] theorem State.dropReq_cores (id : Nat) : (s.dropReq id).cores = s.cores := rfl
@[simp] theorem State.dropReq_dies (id : Nat) : (s.dropReq id).dies = s.dies := rfl
@[simp] theorem State.dropReq_mem (id : Nat) : (s.dropReq id).mem = s.mem := rfl
@[simp] theorem State.dropReq_iss (id : Nat) : (s.dropReq id).iss = s.iss := rfl
@[simp] theorem State.dropReq_routers (id : Nat) : (s.dropReq id).routers = s.routers := rfl
@[simp] theorem State.dropReq_nextId (id : Nat) : (s.dropReq id).nextId = s.nextId := rfl
@[simp] theorem State.dropReq_free (id : Nat) : (s.dropReq id).free = s.free := rfl
@[simp] theorem State.modReq_cores (id : Nat) (f : Req → Req) : (s.modReq id f).cores = s.cores := rfl
@[simp] theorem State.modReq_dies (id : Nat) (f : Req → Req) : (s.modReq id f).dies = s.dies := rfl
@[simp] theorem State.modReq_mem (id : Nat) (f : Req → Req) : (s.modReq id f).mem = s.mem := rfl
@[simp] theorem State.modReq_iss (id : Nat) (f : Req → Req) : (s.modReq id f).iss = s.iss := rfl
@[simp] theorem State.modReq_routers (id : Nat) (f : Req → Req) : (s.modReq id f).routers = s.routers := rfl
@[simp] theorem State.modReq_nextId (id : Nat) (f : Req → Req) : (s.modReq id f).nextId = s.nextId := rfl
@[simp] theorem State.modReq_free (id : Nat) (f : Req → Req) : (s.modReq id f).free = s.free := rfl
@[simp] theorem State.emit_cores (node : Nat) (ps : List Packet) : (s.emit node ps).cores = s.cores := rfl
@[simp] theorem State.emit_dies (node : Nat) (ps : List Packet) : (s.emit node ps).dies = s.dies := rfl
@[simp] theorem State.emit_iss (node : Nat) (ps : List Packet) : (s.emit node ps).iss = s.iss := rfl
@[simp] theorem State.emit_halves (node : Nat) (ps : List Packet) : (s.emit node ps).halves = s.halves := rfl
@[simp] theorem State.emit_engines (node : Nat) (ps : List Packet) : (s.emit node ps).engines = s.engines := rfl
@[simp] theorem State.emit_devId (node : Nat) (ps : List Packet) : (s.emit node ps).devId = s.devId := rfl
@[simp] theorem State.emit_free (node : Nat) (ps : List Packet) : (s.emit node ps).free = s.free := rfl
@[simp] theorem State.emit_seqs (node : Nat) (ps : List Packet) : (s.emit node ps).seqs = s.seqs := rfl
@[simp] theorem State.emit_unsent (node : Nat) (ps : List Packet) : (s.emit node ps).unsent = s.unsent := rfl
@[simp] theorem State.note_cores (a b v o : Nat) (c : Ident) (q : Word) (bs : List Byte) : (s.note a b v o c q bs).cores = s.cores := rfl
@[simp] theorem State.note_dies (a b v o : Nat) (c : Ident) (q : Word) (bs : List Byte) : (s.note a b v o c q bs).dies = s.dies := rfl
@[simp] theorem State.note_iss (a b v o : Nat) (c : Ident) (q : Word) (bs : List Byte) : (s.note a b v o c q bs).iss = s.iss := rfl
@[simp] theorem State.note_halves (a b v o : Nat) (c : Ident) (q : Word) (bs : List Byte) : (s.note a b v o c q bs).halves = s.halves := rfl
@[simp] theorem State.note_engines (a b v o : Nat) (c : Ident) (q : Word) (bs : List Byte) : (s.note a b v o c q bs).engines = s.engines := rfl
@[simp] theorem State.note_devId (a b v o : Nat) (c : Ident) (q : Word) (bs : List Byte) : (s.note a b v o c q bs).devId = s.devId := rfl
@[simp] theorem State.note_free (a b v o : Nat) (c : Ident) (q : Word) (bs : List Byte) : (s.note a b v o c q bs).free = s.free := rfl
@[simp] theorem State.note_unsent (a b v o : Nat) (c : Ident) (q : Word) (bs : List Byte) : (s.note a b v o c q bs).unsent = s.unsent := rfl
@[simp] theorem State.note_seqs (a b v o : Nat) (c : Ident) (q : Word) (bs : List Byte) : (s.note a b v o c q bs).seqs = s.seqs := rfl
end

end Sys2Proof.Machine
end

