-- ==== Sys2Proof/Laws/Frames.lean ====
section
/-! SUPPORT. What the frames of the meanings come to, said once: the answer of a word of each shape under the
conditions of `runsA`, `runsC`, `mayCommit` and `endsAt`, and what opening a chunk leaves alone. -/

namespace Sys2Proof.Machine

/-! ## Opening a chunk -/

section
variable (s : State)
@[simp] theorem State.opened_iss : s.opened.iss = s.iss := rfl
@[simp] theorem State.opened_mem : s.opened.mem = s.mem := rfl
@[simp] theorem State.opened_dies : s.opened.dies = s.dies := rfl
@[simp] theorem State.opened_devId : s.opened.devId = s.devId := rfl
@[simp] theorem State.opened_net : s.opened.net = s.net := rfl
@[simp] theorem State.opened_nextPc : s.opened.nextPc = s.nextPc := rfl

/-- Opening a chunk changes the chunk of the issuing context alone. -/
theorem State.opened_eq : s.opened = s.modMe fun x => { x with chunk := some (x.chunk.getD (freshChunk x.a s.mine.h s.mine.sh)) } := rfl

theorem State.opened_core_ne {c : CoreId} (h : c ≠ s.iss.core) : s.opened.core c = s.core c :=
  State.core_modCore_ne s _ h

theorem State.opened_mine : s.opened.mine = s.mine.setCtx s.iss.slot
    { s.me with chunk := some (s.me.chunk.getD (freshChunk s.me.a s.mine.h s.mine.sh)) } := by
  show s.opened.core s.iss.core = _
  rw [State.opened_eq]
  exact State.core_modCore s _ _

@[simp] theorem State.opened_holds (n : SlotNo) : s.opened.mine.holds n = s.mine.holds n := by
  rw [State.opened_mine]; rfl
@[simp] theorem State.opened_h : s.opened.mine.h = s.mine.h := by rw [State.opened_mine]; rfl
@[simp] theorem State.opened_sh : s.opened.mine.sh = s.mine.sh := by rw [State.opened_mine]; rfl
@[simp] theorem State.opened_r : s.opened.mine.r = s.mine.r := by rw [State.opened_mine]; rfl
@[simp] theorem State.opened_km : s.opened.mine.km = s.mine.km := by rw [State.opened_mine]; rfl
@[simp] theorem State.opened_acc : s.opened.mine.acc = s.mine.acc := by rw [State.opened_mine]; rfl
@[simp] theorem State.opened_rings : s.opened.mine.rings = s.mine.rings := by rw [State.opened_mine]; rfl
@[simp] theorem State.opened_mbox : s.opened.mine.mbox = s.mine.mbox := by rw [State.opened_mine]; rfl
@[simp] theorem State.opened_chan : s.opened.mine.chan = s.mine.chan := by rw [State.opened_mine]; rfl
@[simp] theorem State.opened_sched : s.opened.mine.sched = s.mine.sched := by rw [State.opened_mine]; rfl
@[simp] theorem State.opened_cyc : s.opened.mine.cyc = s.mine.cyc := by rw [State.opened_mine]; rfl
@[simp] theorem State.opened_rot : s.opened.mine.rot = s.mine.rot := by rw [State.opened_mine]; rfl

theorem State.opened_me (h : s.iss.slot.toNat < 11) : s.opened.me =
    { s.me with chunk := some (s.me.chunk.getD (freshChunk s.me.a s.mine.h s.mine.sh)) } := by
  show s.opened.mine.ctx s.iss.slot = _
  rw [State.opened_mine, Core.ctx_setCtx _ _ _ h]

theorem vset_ge {α : Type} {n : Nat} (x : Vector α n) (i : Nat) (a : α) (h : n ≤ i) : vset x i a = x := by
  simp [vset, Vector.setIfInBounds, Array.setIfInBounds, Nat.not_lt.mpr h]

theorem Core.setCtx_ge (k : Core) (n : SlotNo) (x : Ctx) (h : 11 ≤ n.toNat) : k.setCtx n x = k := by
  simp [Core.setCtx, vset_ge _ _ _ h]

/-- The registers and the mode of the issuing context are as they were. -/
theorem State.opened_me_a : s.opened.me.a = s.me.a ∧ s.opened.me.priv = s.me.priv ∧ s.opened.me.inv = s.me.inv ∧
    s.opened.me.hold = s.me.hold ∧ s.opened.me.succ = s.me.succ ∧ s.opened.me.long = s.me.long := by
  by_cases h : s.iss.slot.toNat < 11
  · rw [State.opened_me s h]; simp
  · have : s.opened.me = s.me := by
      show s.opened.mine.ctx s.iss.slot = _
      rw [State.opened_mine, Core.setCtx_ge _ _ _ (by omega)]; rfl
    rw [this]; simp

@[simp] theorem State.opened_src : s.opened.src = s.src := by
  simp only [State.src, State.opened_iss, (State.opened_me_a s).1]

@[simp] theorem State.opened_rdG (r : RF) : s.opened.rdG r = s.rdG r := by
  simp only [State.rdG, State.isShadow, State.opened_src, State.srcBank, State.opened_iss, State.opened_holds, State.opened_h]; rfl

@[simp] theorem State.opened_rdV (r : BitVec 4) : s.opened.rdV r = s.rdV r := by
  simp only [State.rdV, State.opened_src]

@[simp] theorem State.opened_rdP (r : BitVec 3) : s.opened.rdP r = s.rdP r := by
  simp only [State.rdP, State.opened_src]
end

/-! ## The frames -/

section
variable {i : Instr} {s : State}

/-- An A word that may run is its body. -/
theorem runA_eq (body : State → Res) (h : runsA i s) : runA i s body = settle s (body s) := by
  simp only [runA, show s.early i = none from h]

/-- An A word that takes a trap of items 2 and 3 of R76 takes it, whatever its body. -/
theorem runA_trap (body : State → Res) {t : Trap} (h : s.early i = some t) : runA i s body = raise s t := by
  simp only [runA, h]

theorem runsC_next (h : runsC i s) : ∃ pc, s.nextPc = some pc := by
  cases hp : s.nextPc with
  | none => exact absurd hp h.2
  | some pc => exact ⟨pc, rfl⟩

/-- What a C word that may run comes to. -/
theorem runC_eq (body : State → Res) (h : runsC i s) : runC i s body =
    (match body s.opened with
    | .ok t => (t.markViol i).advance
    | r => settle s.opened r) := by
  obtain ⟨pc, hp⟩ := runsC_next h
  have h1 : s.opened.early i = none := h.1
  have h2 : s.opened.nextPc.isNone = false := by simp [hp]
  simp only [State.opened] at h1 h2
  simp only [runC, h1, h2, Bool.false_eq_true, if_false]; rfl

theorem runC_ok {body : State → Res} {t : State} (h : runsC i s) (hb : body s.opened = .ok t) :
    runC i s body = (t.markViol i).advance := by
  rw [runC_eq body h, hb]

theorem runC_trap {body : State → Res} {t : Trap} (h : runsC i s) (hb : body s.opened = .trap t) :
    runC i s body = raise s.opened t := by
  rw [runC_eq body h, hb]; rfl

theorem runC_hold {body : State → Res} (h : runsC i s) (hb : body s.opened = .hold true) :
    runC i s body = hold97 s.opened := by
  rw [runC_eq body h, hb]; rfl

theorem runC_early (body : State → Res) {t : Trap} (h : s.opened.early i = some t) : runC i s body = raise s.opened t := by
  simp only [State.opened] at h
  simp only [runC, h]; rfl

/-- A control transfer that may run. -/
theorem runJ_eq (body : State → Res) (h : s.opened.early i = none) : runJ i s body = settle s.opened (body s.opened) := by
  simp only [State.opened] at h
  simp only [runJ, h]; rfl

/-- A word that does not mark a violation (R416). -/
theorem markViol_none (s : State) (h : isViol i = false) : s.markViol i = s := by simp [State.markViol, h]

/-- The commit of a chunk-ending word, and then its operation in the state that the commit leaves. -/
theorem commitThen_eq (op : State → State → State) (h : (commitChunk s.opened s.iss.core s.iss.slot).2 = true) :
    commitThen i s.opened op = op (commitChunk s.opened s.iss.core s.iss.slot).1 (s.committed i) := by
  simp only [commitThen, State.opened_iss, h, if_true]; rfl

/-- R97 and R188 as the frame of a chunk-ending word asks for them. -/
theorem unheld_noHold (s : State) : unheld noHold s := ⟨rfl, rfl⟩

theorem unheld_holdLong (h : mayLong s) : unheld holdLong s := by
  simp [unheld, holdLong, h.1, h.2]

theorem unheld_holdRelease (h : released s) : unheld holdRelease s := by
  simp [unheld, holdRelease, h.1, h.2]

/-- A chunk-ending word that passes its own checks, and that nothing holds back, comes to its commit. -/
theorem endFrame_eq {next : Bool} {chk : State → Option Trap} {hold : State → Option Bool} (op : State → State → State)
    (he : s.opened.early i = none) (hn : next = true → s.nextPc ≠ none) (hc : chk s.opened = none) (hm : mayCommit s)
    (hh : hold s.opened = none) : endFrame i s next chk hold op = op (commitChunk s.opened s.iss.core s.iss.slot).1 (s.committed i) := by
  have h1 : (next && s.opened.nextPc.isNone) = false := by
    cases next with
    | false => rfl
    | true => cases hp : s.nextPc with
      | none => exact absurd hp (hn rfl)
      | some pc => simp [hp]
  have h2 : s.opened.me.nearOut = false := hm.1
  rw [← commitThen_eq op hm.2]
  simp only [State.opened] at he hc h1 h2 hh ⊢
  simp only [endFrame, he, hc, h1, h2, hh, Bool.false_eq_true, if_false]

/-- What a chunk-ending word that passes its own checks comes to. -/
theorem runE_eq {next : Bool} {chk : State → Option Trap} {hold : State → Option Bool} (op : State → State)
    (he : s.opened.early i = none) (hn : next = true → s.nextPc ≠ none) (hc : chk s.opened = none) (hm : mayCommit s)
    (hh : unheld hold s) : runE i s next chk hold op = op (s.committed i) := endFrame_eq _ he hn hc hm hh.1

/-- What a release that passes its own checks comes to, with nothing to hold it back after its commit either. -/
theorem runR_eq {next : Bool} {chk : State → Option Trap} {hold : State → Option Bool} (e : Vector Word 8) (op : State → State)
    (he : s.opened.early i = none) (hn : next = true → s.nextPc ≠ none) (hc : chk s.opened = none) (hm : mayCommit s)
    (hh : unheld hold s) : runR i s next chk hold e op = op (s.committed i) := by
  simp only [runR, endFrame_eq _ he hn hc hm hh.1, orDefer, hh.2]

/-- The same, with its conditions together. -/
theorem runE_ends {chk : State → Option Trap} {hold : State → Option Bool} (op : State → State) (h : endsAt i s)
    (hc : chk s.opened = none) (hh : unheld hold s) : runE i s true chk hold op = op (s.committed i) :=
  runE_eq op h.1.1 (fun _ => h.1.2) hc h.2 hh

/-- The same for a release. -/
theorem runR_ends {chk : State → Option Trap} {hold : State → Option Bool} (e : Vector Word 8) (op : State → State) (h : endsAt i s)
    (hc : chk s.opened = none) (hh : unheld hold s) : runR i s true chk hold e op = op (s.committed i) :=
  runR_eq e op h.1.1 (fun _ => h.1.2) hc h.2 hh

/-- A chunk-ending word that its own check refuses takes the check's trap. -/
theorem runE_trap {chk : State → Option Trap} {hold : State → Option Bool} (op : State → State) {t : Trap}
    (h : runsC i s) (hc : chk s.opened = some t) : runE i s true chk hold op = raise s.opened t := by
  obtain ⟨pc, hp⟩ := runsC_next h
  have h0 : s.opened.early i = none := h.1
  have h1 : s.opened.nextPc.isNone = false := by simp [hp]
  simp only [State.opened] at h0 hc h1 ⊢
  simp only [runE, endFrame, h0, hc, h1, Bool.and_false, Bool.false_eq_true, if_false]

/-- A chunk-ending word held back by R97 or for a full queue does not issue. -/
theorem runE_hold {chk : State → Option Trap} {hold : State → Option Bool} (op : State → State)
    (h : endsAt i s) (hc : chk s.opened = none) (hh : hold s.opened = some true) : runE i s true chk hold op = hold97 s.opened := by
  obtain ⟨pc, hp⟩ := runsC_next h.1
  have h0 : s.opened.early i = none := h.1.1
  have h1 : s.opened.nextPc.isNone = false := by simp [hp]
  have h2 : s.opened.me.nearOut = false := h.2.1
  simp only [State.opened] at h0 hc hh h1 h2 ⊢
  simp only [runE, endFrame, h0, hc, hh, h1, h2, Bool.and_false, Bool.false_eq_true, if_false]; rfl

/-- A waiting word that keeps its chunk: it completes at once, or parks. -/
theorem runW_eq {chk : State → Option Trap} (mk : State → Wait) (done : State → Wait → Option State) (h : runsC i s)
    (hc : chk s.opened = none) : runW i s chk mk done = beginWait (s.opened.markViol i) (mk s.opened) done := by
  obtain ⟨pc, hp⟩ := runsC_next h
  have h0 : s.opened.early i = none := h.1
  have h1 : s.opened.nextPc.isNone = false := by simp [hp]
  simp only [State.opened] at h0 hc h1 ⊢
  simp only [runW, h0, hc, h1, Bool.false_eq_true, if_false]

/-- A waiting word whose condition holds goes on; one whose condition does not parks. -/
theorem beginWait_done {w : Wait} {done : State → Wait → Option State} {t : State} (h : done s w = some t) :
    beginWait s w done = t.advance := by simp only [beginWait, h]

theorem beginWait_park {w : Wait} {done : State → Wait → Option State} (h : done s w = none) :
    beginWait s w done = park s w := by simp only [beginWait, h]
end

end Sys2Proof.Machine
end

