-- ==== Sys2Proof/Laws/Memory.lean ====
section
/-! SUPPORT. Memory: what a read finds after a write, and that every operation keeps the canonical form. -/

namespace Sys2Proof.Machine

/-! ## Reading after writing -/

theorem memGet_memDel_same (m : Mem) (k : Nat) : memGet (memDel m k) k = 0 := by
  induction m with
  | nil => rfl
  | cons p t ih =>
    obtain ⟨j, c⟩ := p
    by_cases h : j = k <;> simp [memDel, memGet, h, ih]

theorem memGet_memDel_ne (m : Mem) {k k' : Nat} (h : k' ≠ k) : memGet (memDel m k) k' = memGet m k' := by
  induction m with
  | nil => rfl
  | cons p t ih =>
    obtain ⟨j, c⟩ := p
    by_cases h1 : j = k
    · subst h1; simp [memDel, memGet, Ne.symm h, ih]
    · simp [memDel, memGet, h1, ih]

theorem memGet_memIns_same (m : Mem) (k : Nat) (b : Byte) : memGet (memIns m k b) k = b := by
  induction m with
  | nil => simp [memIns, memGet]
  | cons p t ih =>
    obtain ⟨j, c⟩ := p
    by_cases h1 : j = k
    · simp [memIns, memGet, h1]
    · by_cases h2 : k < j <;> simp [memIns, memGet, h1, h2, ih]

theorem memGet_memIns_ne (m : Mem) {k k' : Nat} (b : Byte) (h : k' ≠ k) : memGet (memIns m k b) k' = memGet m k' := by
  induction m with
  | nil => simp [memIns, memGet, Ne.symm h]
  | cons p t ih =>
    obtain ⟨j, c⟩ := p
    by_cases h1 : j = k
    · subst h1; simp [memIns, memGet, Ne.symm h]
    · by_cases h2 : k < j
      · simp [memIns, memGet, h1, h2, Ne.symm h]
      · simp [memIns, memGet, h1, h2, ih]

/-- A read after a write to the same key gives the byte written. -/
@[simp] theorem memGet_memSet_same (m : Mem) (k : Nat) (b : Byte) : memGet (memSet m k b) k = b := by
  unfold memSet
  split
  · rename_i h; rw [memGet_memDel_same, h]
  · exact memGet_memIns_same m k b

/-- A write leaves every other key alone. -/
theorem memGet_memSet_ne (m : Mem) {k k' : Nat} (b : Byte) (h : k' ≠ k) : memGet (memSet m k b) k' = memGet m k' := by
  unfold memSet
  split
  · exact memGet_memDel_ne m h
  · exact memGet_memIns_ne m b h

/-- A list of writes leaves alone every key that it does not name. -/
theorem memGet_memSetAll (m : Mem) (cs : List (Nat × Byte)) (k : Nat) (h : ∀ p ∈ cs, p.1 ≠ k) :
    memGet (memSetAll m cs) k = memGet m k := by
  induction cs generalizing m with
  | nil => rfl
  | cons p t ih =>
    obtain ⟨j, b⟩ := p
    have h1 : k ≠ j := fun e => h (j, b) (by simp) e.symm
    rw [memSetAll, ih _ fun p hp => h p (by simp [hp]), memGet_memSet_ne _ _ h1]

/-- A write of bytes from a key leaves alone every key outside of them. -/
theorem memGet_memWrite (m : Mem) (k : Nat) (bs : List Byte) (k' : Nat) (h : k' < k ∨ k + bs.length ≤ k') :
    memGet (memWrite m k bs) k' = memGet m k' := by
  apply memGet_memSetAll
  intro p hp
  simp only [List.mem_mapIdx] at hp
  obtain ⟨i, hi, rfl⟩ := hp
  simp only [ne_eq]
  omega

/-- What a list of writes leaves at a key: the last byte it names there. -/
theorem memGet_memSetAll_append (m : Mem) (cs : List (Nat × Byte)) (k : Nat) (b : Byte) :
    memGet (memSetAll m (cs ++ [(k, b)])) k = b := by
  induction cs generalizing m with
  | nil => simp [memSetAll]
  | cons p t ih => exact ih _

/-- The byte that a write of bytes leaves at each of its keys. -/
theorem memGet_memWrite_at (m : Mem) (k : Nat) (bs : List Byte) (i : Nat) (h : i < bs.length) :
    memGet (memWrite m k bs) (k + i) = bs[i] := by
  have : ∀ (l : List Byte) (o : Nat) (m : Mem) (i : Nat) (h : i < l.length),
      memGet (memSetAll m (l.mapIdx fun j b => (k + (o + j), b))) (k + (o + i)) = l[i] := by
    intro l
    induction l with
    | nil => intro o m i h; simp at h
    | cons b t ih =>
      intro o m i h
      have shift : (t.mapIdx fun j b => (k + (o + (j + 1)), b)) = t.mapIdx fun j b => (k + ((o + 1) + j), b) := by
        congr 1; funext j b; congr 1; omega
      simp only [List.mapIdx_cons, memSetAll]
      cases i with
      | zero =>
        rw [memGet_memSetAll]
        · simp
        · intro p hp
          simp only [List.mem_mapIdx] at hp
          obtain ⟨j, hj, rfl⟩ := hp
          simp
      | succ i =>
        have := ih (o + 1) (memSet m (k + (o + 0)) b) i (by simpa using h)
        rw [shift]
        simpa [Nat.add_assoc, Nat.add_comm, Nat.add_left_comm] using this
  simpa [memWrite] using this bs 0 m i h

/-! ## The canonical form -/

/-- The first key of a memory is above a bound. -/
def Mem.above (k : Nat) : Mem → Bool
  | [] => true
  | (j, _) :: _ => decide (k < j)

theorem Mem.wf_cons (k : Nat) (b : Byte) (t : Mem) : Mem.wf ((k, b) :: t) = (b != 0 && Mem.above k t && Mem.wf t) := by
  cases t with
  | nil => simp [Mem.wf, Mem.above]
  | cons p t => obtain ⟨j, c⟩ := p; rfl

theorem Mem.above_trans {j k : Nat} {m : Mem} (h : Mem.above k m = true) (hj : j < k) : Mem.above j m = true := by
  cases m with
  | nil => rfl
  | cons p t => obtain ⟨i, c⟩ := p; simp [Mem.above] at *; omega

theorem Mem.wf_memDel (m : Mem) (k : Nat) (h : m.wf = true) :
    (memDel m k).wf = true ∧ ∀ j, Mem.above j m = true → Mem.above j (memDel m k) = true := by
  induction m with
  | nil => simp [memDel, Mem.wf]
  | cons p t ih =>
    obtain ⟨i, c⟩ := p
    rw [Mem.wf_cons] at h
    simp only [Bool.and_eq_true] at h
    obtain ⟨⟨hc, hi⟩, ht⟩ := h
    obtain ⟨ih1, ih2⟩ := ih ht
    by_cases h1 : i = k
    · simp only [memDel, h1, if_true]
      refine ⟨ih1, fun j hj => ih2 j (Mem.above_trans hi ?_)⟩
      simpa [Mem.above, h1] using hj
    · simp only [memDel, h1, if_false]
      refine ⟨?_, fun j hj => by simpa [Mem.above] using hj⟩
      rw [Mem.wf_cons, hc, ih2 i hi, ih1]; rfl

theorem Mem.wf_memIns (m : Mem) (k : Nat) (b : Byte) (hb : b ≠ 0) (h : m.wf = true) :
    (memIns m k b).wf = true ∧ ∀ j, j < k → Mem.above j m = true → Mem.above j (memIns m k b) = true := by
  have hb' : (b != 0) = true := by rw [bne_iff_ne]; exact hb
  induction m with
  | nil => exact ⟨by simpa [memIns, Mem.wf] using hb', fun j hj _ => by simpa [memIns, Mem.above] using hj⟩
  | cons p t ih =>
    obtain ⟨i, c⟩ := p
    have h' := h
    rw [Mem.wf_cons] at h
    simp only [Bool.and_eq_true] at h
    obtain ⟨⟨hc, hi⟩, ht⟩ := h
    obtain ⟨ih1, ih2⟩ := ih ht
    by_cases h1 : i = k
    · subst h1
      simp only [memIns, if_true]
      refine ⟨?_, fun j hj _ => by simpa [Mem.above] using hj⟩
      rw [Mem.wf_cons, hb', hi, ht]; rfl
    · by_cases h2 : k < i
      · simp only [memIns, h1, h2, if_true, if_false]
        refine ⟨?_, fun j hj _ => by simpa [Mem.above] using hj⟩
        rw [Mem.wf_cons, hb', h']; simp [Mem.above, h2]
      · simp only [memIns, h1, h2, if_false]
        refine ⟨?_, fun j _ hj => by simpa [Mem.above] using hj⟩
        rw [Mem.wf_cons, hc, ih2 i (by omega) hi, ih1]; rfl

/-- A write of one byte keeps the canonical form. -/
theorem Mem.wf_memSet (m : Mem) (k : Nat) (b : Byte) (h : m.wf = true) : (memSet m k b).wf = true := by
  unfold memSet
  split
  · exact (Mem.wf_memDel m k h).1
  · rename_i hb; exact (Mem.wf_memIns m k b hb h).1

/-- A list of writes keeps the canonical form. -/
theorem Mem.wf_memSetAll (m : Mem) (cs : List (Nat × Byte)) (h : m.wf = true) : (memSetAll m cs).wf = true := by
  induction cs generalizing m with
  | nil => exact h
  | cons p t ih => exact ih _ (Mem.wf_memSet m p.1 p.2 h)

/-- A write of bytes keeps the canonical form. -/
theorem Mem.wf_memWrite (m : Mem) (k : Nat) (bs : List Byte) (h : m.wf = true) : (memWrite m k bs).wf = true :=
  Mem.wf_memSetAll m _ h

/-- Reset's memory has the canonical form. -/
theorem State.reset_mem_wf : State.reset.mem.wf = true := rfl

/-! ## Two canonical memories that read alike are equal -/

theorem memGet_above (m : Mem) (k : Nat) (h : m.wf = true) (ha : Mem.above k m = true) : memGet m k = 0 := by
  induction m with
  | nil => rfl
  | cons p t ih =>
    obtain ⟨i, c⟩ := p
    rw [Mem.wf_cons] at h
    simp only [Bool.and_eq_true] at h
    have hk : k < i := by simpa [Mem.above] using ha
    simp only [memGet, show ¬i = k by omega, if_false]
    exact ih h.2 (Mem.above_trans h.1.2 hk)

theorem Mem.ext {m n : Mem} (hm : m.wf = true) (hn : n.wf = true) (h : ∀ k, memGet m k = memGet n k) : m = n := by
  induction m generalizing n with
  | nil =>
    cases n with
    | nil => rfl
    | cons q u =>
      obtain ⟨j, d⟩ := q
      rw [Mem.wf_cons] at hn
      simp only [Bool.and_eq_true, bne_iff_ne] at hn
      exact absurd (h j).symm (by simpa [memGet] using hn.1.1)
  | cons p t ih =>
    obtain ⟨i, c⟩ := p
    cases n with
    | nil =>
      rw [Mem.wf_cons] at hm
      simp only [Bool.and_eq_true, bne_iff_ne] at hm
      exact absurd (h i) (by simpa [memGet] using hm.1.1)
    | cons q u =>
      obtain ⟨j, d⟩ := q
      have hm' := hm; have hn' := hn
      rw [Mem.wf_cons] at hm hn
      simp only [Bool.and_eq_true, bne_iff_ne] at hm hn
      have hij : i = j := by
        rcases Nat.lt_trichotomy i j with hlt | heq | hgt
        · have := memGet_above ((j, d) :: u) i hn' (by simpa [Mem.above] using hlt)
          rw [← h i] at this
          exact absurd this (by simpa [memGet] using hm.1.1)
        · exact heq
        · have := memGet_above ((i, c) :: t) j hm' (by simpa [Mem.above] using hgt)
          rw [h j] at this
          exact absurd this (by simpa [memGet] using hn.1.1)
      subst hij
      have hcd : c = d := by simpa [memGet] using h i
      subst hcd
      congr 1
      apply ih hm.2 hn.2
      intro k
      by_cases hk : i = k
      · subst hk; rw [memGet_above t i hm.2 hm.1.2, memGet_above u i hn.2 hn.1.2]
      · simpa [memGet, hk] using h k

end Sys2Proof.Machine
end

