-- ==== Sys2Proof/Laws/Commit.lean ====
section
/-! SUPPORT. What squashes and commits leave alone: the issue record and the number of the device throughout, and every
byte of memory by a squash; and that a commit keeps memory canonical. -/

namespace Sys2Proof.Machine

/-- A fold keeps what each of its steps keeps. -/
theorem foldl_keeps {α β γ : Type} (f : β → γ) (g : β → α → β) (h : ∀ b a, f (g b a) = f b) (l : List α) (b : β) :
    f (l.foldl g b) = f b := by
  induction l generalizing b with
  | nil => rfl
  | cons a t ih => rw [List.foldl_cons, ih, h]

theorem foldl_holds {α β : Type} (P : β → Prop) (g : β → α → β) (h : ∀ b a, P b → P (g b a)) (l : List α) (b : β) (hb : P b) :
    P (l.foldl g b) := by
  induction l generalizing b with
  | nil => exact hb
  | cons a t ih => exact ih _ (h _ _ hb)

/-- The part of the state that no commit, squash or trap of a context changes. -/
def State.fixed (s : State) : Iss × BitVec 10 × List Instr × Turn × Nat := (s.iss, s.devId, s.agenda, s.turn, s.stage)

section
variable (s : State)
@[simp] theorem fixed_modCore (c : CoreId) (f : Core → Core) : (s.modCore c f).fixed = s.fixed := rfl
@[simp] theorem fixed_setCore (c : CoreId) (k : Core) : (s.setCore c k).fixed = s.fixed := rfl
@[simp] theorem fixed_modCtx (c : CoreId) (n : SlotNo) (f : Ctx → Ctx) : (s.modCtx c n f).fixed = s.fixed := rfl
@[simp] theorem fixed_modDie (d : BitVec 2) (f : Die → Die) : (s.modDie d f).fixed = s.fixed := rfl
@[simp] theorem fixed_countCtx (c : CoreId) (n : SlotNo) (e : Nat) : (s.countCtx c n e).fixed = s.fixed := rfl
@[simp] theorem fixed_countDie (d : BitVec 2) (e : Nat) : (s.countDie d e).fixed = s.fixed := rfl
@[simp] theorem fixed_mem (m : Mem) : ({ s with mem := m } : State).fixed = s.fixed := rfl
@[simp] theorem fixed_opened : s.opened.fixed = s.fixed := rfl

@[simp] theorem fixed_offerIf (c : CoreId) (b : Nat) (u : List (BitVec 128)) : (s.offerIf c b u).fixed = s.fixed := by
  unfold State.offerIf; split <;> rfl

@[simp] theorem fixed_grantToken (d : BitVec 2) : (grantToken s d).fixed = s.fixed := by
  unfold grantToken; dsimp only; split <;> rfl

@[simp] theorem fixed_requestToken (c : CoreId) (n : SlotNo) : (requestToken s c n).fixed = s.fixed := by
  simp [requestToken]

@[simp] theorem fixed_releaseToken (c : CoreId) (n : SlotNo) : (releaseToken s c n).fixed = s.fixed := by
  simp [releaseToken]

@[simp] theorem fixed_squash (c : CoreId) (n : SlotNo) : (squash s c n).fixed = s.fixed := by
  unfold squash; dsimp only; split
  · rfl
  · split <;> simp

@[simp] theorem fixed_squashMeeting (d : BitVec 2) (e : Option (CoreId × SlotNo)) (ls : List Nat) :
    (squashMeeting s d e ls).fixed = s.fixed := by
  unfold squashMeeting; split
  · rfl
  · refine foldl_keeps State.fixed _ (fun b a => ?_) _ _
    refine foldl_keeps State.fixed _ (fun b' a' => ?_) _ _
    split
    · rfl
    · split
      · split <;> simp
      · rfl

@[simp] theorem fixed_emit (d : Nat) (ps : List Packet) : (s.emit d ps).fixed = s.fixed := rfl

@[simp] theorem fixed_note (a b v o : Nat) (c : Ident) (q : Word) (bs : List Byte) : (s.note a b v o c q bs).fixed = s.fixed := rfl

@[simp] theorem fixed_hostXlate (r : Req) : (hostXlate s r).fixed = s.fixed := by
  unfold hostXlate; split <;> rfl

@[simp] theorem fixed_leaveCore (r : Req) : (s.leaveCore r).fixed = s.fixed := by
  unfold State.leaveCore; simp only [fixed_emit, fixed_hostXlate]
  rfl

@[simp] theorem fixed_send (r : Req) : (s.send r).fixed = s.fixed := by
  unfold State.send; dsimp only; split <;> (try rw [fixed_leaveCore]) <;> split <;> split <;> rfl

@[simp] theorem fixed_sendStores (c : CoreId) (n : SlotNo) (rs : List StoreRec) : (sendStores s c n rs).fixed = s.fixed := by
  unfold sendStores; exact foldl_keeps State.fixed _ (fun b a => fixed_send _ _) _ _

@[simp] theorem fixed_modLaunch (t : BitVec 16) (f : Launch → Launch) : (s.modLaunch t f).fixed = s.fixed := by
  unfold State.modLaunch; split <;> rfl

@[simp] theorem fixed_composeError (c : CoreId) (e : ErrOp) (a b : Bool) : (composeError s c e a b).fixed = s.fixed := by
  unfold composeError; dsimp only; rw [fixed_offerIf]; split <;> split <;> simp

@[simp] theorem fixed_sendCancel (id : Nat) (o : Bool) : (s.sendCancel id o).fixed = s.fixed := by
  unfold State.sendCancel; split
  · dsimp only; split <;> rfl
  · rfl

@[simp] theorem fixed_cancelWait (c : CoreId) (n : SlotNo) : (cancelWait s c n).fixed = s.fixed := by
  unfold cancelWait; dsimp only; split
  · rfl
  · split <;> split <;> simp

@[simp] theorem fixed_endContext (c : CoreId) (n : SlotNo) : (endContext s c n).fixed = s.fixed := by
  simp [endContext, dropWork]

@[simp] theorem fixed_chargeError (c : CoreId) (o : Nat) (e : ErrOp) : (chargeError s c o e).fixed = s.fixed := by
  unfold chargeError; dsimp only; split
  · simp
  · split <;> simp

@[simp] theorem fixed_traceEvent (c : CoreId) (n : SlotNo) (a b : Nat) (x : List (BitVec 128)) :
    (s.traceEvent c n a b x).fixed = s.fixed := by
  unfold State.traceEvent; simp

@[simp] theorem fixed_violate (c : CoreId) (n : SlotNo) : (violate s c n).fixed = s.fixed := by
  unfold violate; dsimp only
  split
  · rfl
  · split
    · rfl
    · split
      · rfl
      · split
        · rfl
        · rw [fixed_traceEvent]; rfl

@[simp] theorem fixed_countStores (d : BitVec 2) (rs : List StoreRec) : (countStores s d rs).fixed = s.fixed :=
  foldl_keeps State.fixed _ (fun b _ => fixed_countDie b d 4) _ _

@[simp] theorem fixed_performChunk (c : CoreId) (n : SlotNo) (ch : Chunk) : (performChunk s c n ch).fixed = s.fixed := by
  unfold performChunk; dsimp only
  refine (foldl_keeps State.fixed _ (fun b a => fixed_chargeError _ _ _ _) _ _).trans ?_
  split <;> simp

@[simp] theorem fixed_commitChunk (c : CoreId) (n : SlotNo) : (commitChunk s c n).1.fixed = s.fixed := by
  unfold commitChunk; split
  · rfl
  · split <;> simp

/-- The commit of a chunk-ending word keeps the issue record, the device number, the agenda, the turn, the stage. -/
@[simp] theorem fixed_committed (i : Instr) : (s.committed i).fixed = s.fixed := by
  unfold State.committed; dsimp only; split <;> simp

theorem committed_iss (i : Instr) : (s.committed i).iss = s.iss := congrArg (·.1) (fixed_committed s i)
theorem committed_devId (i : Instr) : (s.committed i).devId = s.devId := congrArg (·.2.1) (fixed_committed s i)
theorem committed_nextPc (i : Instr) : (s.committed i).nextPc = s.nextPc := by simp [State.nextPc, committed_iss]

/-- How a pointer resolves, and whether it is the issuer's own scratchpad, is as before the commit. -/
theorem committed_res (i : Instr) (q : Word) : (s.committed i).res q = s.opened.res q := by
  simp only [State.res, committed_iss, committed_devId, State.opened_iss, State.opened_devId]

theorem committed_ownSp (i : Instr) (q : Word) : (s.committed i).ownSp q = s.opened.ownSp q := by
  simp only [State.ownSp, isSp, committed_iss, committed_devId, State.opened_iss, State.opened_devId]; rfl
end

/-! ## Memory -/

section
variable (s : State)
@[simp] theorem mem_modDie (d : BitVec 2) (f : Die → Die) : (s.modDie d f).mem = s.mem := rfl
@[simp] theorem mem_countCtx (c : CoreId) (n : SlotNo) (e : Nat) : (s.countCtx c n e).mem = s.mem := rfl
@[simp] theorem mem_countDie (d : BitVec 2) (e : Nat) : (s.countDie d e).mem = s.mem := rfl

@[simp] theorem mem_offerIf (c : CoreId) (b : Nat) (u : List (BitVec 128)) : (s.offerIf c b u).mem = s.mem := by
  unfold State.offerIf; split <;> rfl

@[simp] theorem mem_offer (c : CoreId) (u : List (BitVec 128)) : (s.offer c u).mem = s.mem := by
  unfold State.offer; dsimp only; split
  · rfl
  · split <;> rfl

/-- R444: the units that a core offers at the end of a cycle write no memory. -/
@[simp] theorem mem_offerKept (c : CoreId) : (s.offerKept c).mem = s.mem := by
  unfold State.offerKept; exact (foldl_keeps State.mem _ (fun b a => mem_offer b c a) _ _).trans rfl

@[simp] theorem mem_grantToken (d : BitVec 2) : (grantToken s d).mem = s.mem := by
  unfold grantToken; dsimp only; split <;> rfl

@[simp] theorem mem_releaseToken (c : CoreId) (n : SlotNo) : (releaseToken s c n).mem = s.mem := by simp [releaseToken]

@[simp] theorem mem_requestToken (c : CoreId) (n : SlotNo) : (requestToken s c n).mem = s.mem := by simp [requestToken]

@[simp] theorem mem_emit (d : Nat) (ps : List Packet) : (s.emit d ps).mem = s.mem := rfl

@[simp] theorem mem_note (a b v o : Nat) (c : Ident) (q : Word) (bs : List Byte) : (s.note a b v o c q bs).mem = s.mem := rfl

@[simp] theorem mem_hostXlate (r : Req) : (hostXlate s r).mem = s.mem := by
  unfold hostXlate; split <;> rfl

@[simp] theorem mem_leaveCore (r : Req) : (s.leaveCore r).mem = s.mem := by
  unfold State.leaveCore; simp only [mem_emit, mem_hostXlate]

@[simp] theorem mem_send (r : Req) : (s.send r).mem = s.mem := by
  unfold State.send; dsimp only; split <;> (try rw [mem_leaveCore]) <;> split <;> split <;> rfl

/-- A request that is sent is the last of the net, under the id that was next. -/
@[simp] theorem mem_countStores (d : BitVec 2) (rs : List StoreRec) : (countStores s d rs).mem = s.mem :=
  foldl_keeps State.mem (fun (b : State) _ => b.countDie d 4) (fun _ _ => rfl) _ _

@[simp] theorem net_countStores (d : BitVec 2) (rs : List StoreRec) : (countStores s d rs).net = s.net :=
  foldl_keeps State.net (fun (b : State) _ => b.countDie d 4) (fun _ _ => rfl) _ _

@[simp] theorem nextId_countStores (d : BitVec 2) (rs : List StoreRec) : (countStores s d rs).nextId = s.nextId :=
  foldl_keeps State.nextId (fun (b : State) _ => b.countDie d 4) (fun _ _ => rfl) _ _

@[simp] theorem net_emit (d : Nat) (ps : List Packet) : (s.emit d ps).net = s.net := rfl

@[simp] theorem net_hostXlate (r : Req) : (hostXlate s r).net = s.net := by
  unfold hostXlate; split <;> rfl

@[simp] theorem net_leaveCore (r : Req) : (s.leaveCore r).net = s.net := by
  unfold State.leaveCore; simp only [net_emit, net_hostXlate]

@[simp] theorem net_send (r : Req) : (s.send r).net = s.net ++ [r] := by
  unfold State.send; dsimp only; split <;> (try rw [net_leaveCore]) <;> split <;> split <;> rfl

@[simp] theorem nextId_emit (d : Nat) (ps : List Packet) : (s.emit d ps).nextId = s.nextId := rfl

@[simp] theorem nextId_hostXlate (r : Req) : (hostXlate s r).nextId = s.nextId := by
  unfold hostXlate; split <;> rfl

@[simp] theorem nextId_leaveCore (r : Req) : (s.leaveCore r).nextId = s.nextId := by
  unfold State.leaveCore; simp only [nextId_emit, nextId_hostXlate]

@[simp] theorem nextId_send (r : Req) : (s.send r).nextId = s.nextId + 1 := by
  unfold State.send; dsimp only; split <;> (try rw [nextId_leaveCore]) <;> split <;> split <;> rfl

@[simp] theorem mem_sendStores (c : CoreId) (n : SlotNo) (rs : List StoreRec) : (sendStores s c n rs).mem = s.mem := by
  unfold sendStores; exact foldl_keeps State.mem _ (fun b a => mem_send _ _) _ _

@[simp] theorem mem_modLaunch (t : BitVec 16) (f : Launch → Launch) : (s.modLaunch t f).mem = s.mem := by
  unfold State.modLaunch; split <;> rfl

@[simp] theorem mem_composeError (c : CoreId) (e : ErrOp) (a b : Bool) : (composeError s c e a b).mem = s.mem := by
  unfold composeError; dsimp only; rw [mem_offerIf]; split <;> split <;> simp

@[simp] theorem mem_traceEvent (c : CoreId) (n : SlotNo) (a b : Nat) (x : List (BitVec 128)) :
    (s.traceEvent c n a b x).mem = s.mem := by
  unfold State.traceEvent; simp

@[simp] theorem mem_violate (c : CoreId) (n : SlotNo) : (violate s c n).mem = s.mem := by
  unfold violate; dsimp only
  split
  · rfl
  · split
    · rfl
    · split
      · rfl
      · split
        · rfl
        · rw [mem_traceEvent]; rfl
end

/-- What a chunk-ending word that is not refused leaves of a `markViol`: its chunk alone is marked. -/
theorem markViol_mem (s : State) (i : Instr) : (s.markViol i).mem = s.mem := by
  unfold State.markViol State.modChunk; split <;> rfl

theorem markViol_iss (s : State) (i : Instr) : (s.markViol i).iss = s.iss := by
  unfold State.markViol State.modChunk; split <;> rfl

end Sys2Proof.Machine
end

