-- ==== Sys2Proof/Laws/Touch.lean ====
section
/-! SUPPORT. What the walks of an interface leave alone (R143, R150): every byte of memory outside the page descriptors, the
cores, and the requests that travel; and what the small shared operations of releases, service queues, replays and engine work
do. -/

namespace Sys2Proof.Machine

/-! ## Walks -/

/-- The descriptors lie above the memory of the cores and dies: no byte below their first key is part of one. -/
theorem outsideDescs_low {s : State} {k : Nat} (h : k < 2 ^ 41) : outsideDescs s k := by
  intro d
  left
  unfold sramKey
  omega

/-- A leaf that a walk accepts names a frame of the die's memory, or of its atomizer's SRAM (R147). -/
theorem walkLeaf_frame {hdm : List HdmDec} {lg lg' : Bool} {e fr : Nat} {a : Attr} (h : walkLeaf hdm false lg e = .leaf fr lg' a) :
    (attrS a = true → fr / 2 ^ 16 < 32) ∧ (attrS a = false → fr / 2 ^ 16 < 6144) := by
  unfold walkLeaf at h
  simp only [Bool.false_eq_true, ↓reduceIte, Bool.false_or] at h
  generalize e / 2 ^ 16 % 2 ^ 36 = f at h
  split at h
  · cases h
  · split at h
    · cases h
    · split at h
      · cases h
      · split at h
        · cases h
        · rename_i _ _ h3 h4
          injection h with h1 _ h5
          subst h1 h5
          constructor
          · intro hs
            simp [hs] at h3
            omega
          · intro hs
            simp [hs, dmSize] at h4
            have := of_decide_eq_false h4
            omega

theorem walk_leaf {s : State} {d : BitVec 2} {pool : Bool} {t : Tenant} {va fr : Nat} {lg : Bool} {a : Attr}
    (h : walk s d pool t va = .leaf fr lg a) : ∃ l e, walkLeaf s.hdm pool l e = .leaf fr lg a := by
  unfold walk at h
  dsimp only at h
  generalize (s.die d).ttBase + 16 * t.toNat + (if pool then 8 else 0) = r at h
  split at h
  · cases h
  · split at h
    · cases h
    · split at h
      · cases h
      · split at h
        · cases h
        · split at h
          · exact ⟨_, _, h⟩
          · split at h
            · cases h
            · split at h
              · cases h
              · split at h
                · cases h
                · exact ⟨_, _, h⟩

/-- The descriptor of a frame that a walk finds lies in a die's array. -/
theorem descKey_array {s : State} {d : BitVec 2} {pool : Bool} {t : Tenant} {va fr j : Nat} {lg : Bool} {a : Attr}
    (h : walk s d pool t va = .leaf fr lg a) (hj : descKey s d pool fr a = some j) :
    ∃ e, sramKey e (s.die e).descBase ≤ j ∧ j + 8 ≤ sramKey e ((s.die e).descBase + 8 * descCount e) := by
  obtain ⟨l, x, hl⟩ := walk_leaf h
  unfold descKey at hj
  cases pool
  · have hf := walkLeaf_frame hl
    simp only [Bool.false_eq_true, ↓reduceIte, Option.some.injEq] at hj
    refine ⟨d, ?_⟩
    unfold sramKey descCount at *
    split at hj
    · rename_i hs
      have := hf.1 hs
      omega
    · rename_i hs
      have := hf.2 (by simpa using hs)
      omega
  · simp only [↓reduceIte, Option.map_eq_some_iff] at hj
    obtain ⟨p, hp, rfl⟩ := hj
    unfold poolEntry at hp
    have hb := of_decide_eq_true (Option.filter_eq_some_iff.mp hp).2
    refine ⟨p.1, ?_⟩
    unfold sramKey
    omega

/-- No descriptor lies in the memory of the dies. -/
theorem descKey_high {s : State} {d : BitVec 2} {pool : Bool} {fr j : Nat} {a : Attr} (h : descKey s d pool fr a = some j) : 2 ^ 41 ≤ j := by
  unfold descKey at h
  cases pool
  · simp only [Bool.false_eq_true, ↓reduceIte, Option.some.injEq] at h
    unfold sramKey at h; omega
  · simp only [↓reduceIte, Option.map_eq_some_iff] at h
    obtain ⟨p, -, rfl⟩ := h
    unfold sramKey; omega

theorem Die.count_descBase (x : Die) (e : Nat) : (x.count e).descBase = x.descBase := by simp only [Die.count]

/-- A number of a die that counting and caching leave alone. -/
theorem die_modDie {α : Type} (g : Die → α) (s : State) (d d' : BitVec 2) {f : Die → Die} (hf : ∀ x, g (f x) = g x) :
    g ((s.modDie d f).die d') = g (s.die d') := by
  unfold State.die State.modDie
  by_cases h : d.toNat = d'.toNat
  · rw [← h, vget_vset_same _ _ _ _ d.isLt, hf]; rfl
  · exact congrArg g (vget_vset_ne _ _ _ (Ne.symm h))

theorem descBase_modDie (s : State) (d d' : BitVec 2) {f : Die → Die} (hf : ∀ x, (f x).descBase = x.descBase) :
    ((s.modDie d f).die d').descBase = (s.die d').descBase := die_modDie Die.descBase s d d' hf

theorem descKey_modDie (s : State) (d : BitVec 2) {f : Die → Die} (hf : ∀ x, (f x).descBase = x.descBase) :
    descKey (s.modDie d f) = descKey s := by
  funext e pool fr a
  simp only [descKey, descBase_modDie s d _ hf]

theorem length_natBytes (n x : Nat) : (natBytes n x).length = n := by simp [natBytes]

section
variable (s : State) (d : BitVec 2) (pool : Bool) (t : Tenant) (va n quad kind : Nat) (priv dec : Bool)

/-- A walk writes no byte of memory but those of the descriptor of the frame that it finds. -/
theorem touch_mem_walk {k : Nat} (h : ∀ fr lg a j, walk s d pool t va = .leaf fr lg a → descKey s d pool fr a = some j → k < j ∨ j + 8 ≤ k) :
    memGet (touch s d pool t va quad kind priv dec).mem k = memGet s.mem k := by
  unfold touch
  split
  · rfl
  · dsimp only
    split
    · rfl
    · rename_i fr lg a hw
      split
      · rfl
      · split
        · rename_i j hj
          have hk := h fr lg a j hw (by rw [← hj]; rw [descKey_modDie s d fun x => Die.count_descBase x 16])
          rw [mem_modDie, mem_modDie, memGet_memWrite _ _ _ _ (by simpa [length_natBytes] using hk), mem_modDie]
        · rfl

theorem touch_mem {k : Nat} (h : outsideDescs s k) :
    memGet (touch s d pool t va quad kind priv dec).mem k = memGet s.mem k :=
  touch_mem_walk s d pool t va quad kind priv dec fun fr lg a j hw hj => by
    obtain ⟨e, h1, h2⟩ := descKey_array hw hj
    rcases h e with h | h
    · left; omega
    · right; omega

/-- A walk changes no core, no request that travels, and no issue record. -/
@[simp] theorem touch_cores : (touch s d pool t va quad kind priv dec).cores = s.cores := by
  unfold touch; split
  · rfl
  · dsimp only; split
    · rfl
    · split
      · rfl
      · split <;> rfl

@[simp] theorem touch_net : (touch s d pool t va quad kind priv dec).net = s.net := by
  unfold touch; split
  · rfl
  · dsimp only; split
    · rfl
    · split
      · rfl
      · split <;> rfl

@[simp] theorem fixed_touch : (touch s d pool t va quad kind priv dec).fixed = s.fixed := by
  unfold touch; split
  · rfl
  · dsimp only; split
    · rfl
    · split
      · rfl
      · split <;> rfl

@[simp] theorem touchSpan_cores : (touchSpan s d pool t va n quad kind priv dec).cores = s.cores := by
  unfold touchSpan; dsimp only; split <;> simp

@[simp] theorem touchSpan_net : (touchSpan s d pool t va n quad kind priv dec).net = s.net := by
  unfold touchSpan; dsimp only; split <;> simp

@[simp] theorem fixed_touchSpan : (touchSpan s d pool t va n quad kind priv dec).fixed = s.fixed := by
  unfold touchSpan; dsimp only; split <;> simp

/-- Where the descriptors lie is the same after a walk. -/
@[simp] theorem descBase_touch (d' : BitVec 2) : ((touch s d pool t va quad kind priv dec).die d').descBase = (s.die d').descBase := by
  have h1 := descBase_modDie s d d' fun x => Die.count_descBase x 16
  unfold touch; split
  · rfl
  · dsimp only; split
    · exact h1
    · split
      · exact h1
      · rw [descBase_modDie]
        · split
          · rw [descBase_modDie _ _ _ fun x => Die.count_descBase x 4]; exact h1
          · exact h1
        · exact fun _ => rfl

theorem hdm_touch : (touch s d pool t va quad kind priv dec).hdm = s.hdm := by
  unfold touch; split
  · rfl
  · dsimp only; split
    · rfl
    · split
      · rfl
      · split <;> rfl

theorem Die.count_ttBase (x : Die) (e : Nat) : (x.count e).ttBase = x.ttBase := by simp only [Die.count]

theorem ttBase_touch (d' : BitVec 2) : ((touch s d pool t va quad kind priv dec).die d').ttBase = (s.die d').ttBase := by
  have h1 := die_modDie Die.ttBase s d d' fun x => Die.count_ttBase x 16
  unfold touch; split
  · rfl
  · dsimp only; split
    · exact h1
    · split
      · exact h1
      · rw [die_modDie Die.ttBase]
        · split
          · rw [die_modDie Die.ttBase _ _ _ fun x => Die.count_ttBase x 4]; exact h1
          · exact h1
        · exact fun _ => rfl

theorem outsideDescs_touch {k : Nat} (h : outsideDescs s k) : outsideDescs (touch s d pool t va quad kind priv dec) k :=
  fun e => by simpa using h e

/-- The tables that walks read are what they were after a walk: no descriptor lies in them. -/
theorem tableWord_touch (e : BitVec 2) : tableWord (touch s d pool t va quad kind priv dec) e = tableWord s e := by
  funext a
  unfold tableWord
  split
  · rename_i ha
    refine congrArg (leBytes · 0 8) ?_
    refine List.map_congr_left fun i hi => ?_
    refine touch_mem_walk s d pool t va quad kind priv dec fun fr lg x j _ hj => ?_
    have := descKey_high hj
    have := e.isLt
    rw [List.mem_range] at hi
    unfold dmKey dmSize at *
    left; omega
  · rfl

/-- A walk after a walk finds what it would have found. -/
theorem walk_touch (d' : BitVec 2) (p' : Bool) (t' : Tenant) (v : Nat) :
    walk (touch s d pool t va quad kind priv dec) d' p' t' v = walk s d' p' t' v := by
  unfold walk
  rw [tableWord_touch, ttBase_touch, hdm_touch]

/-- The translations of an access write no byte of memory but those of the descriptors of its first and last page. -/
theorem touchSpan_mem_pages {k : Nat} (h : outsidePages s d pool t va n k) :
    memGet (touchSpan s d pool t va n quad kind priv dec).mem k = memGet s.mem k := by
  have h1 := touch_mem_walk s d pool t va quad kind priv dec (h va (by simp))
  unfold touchSpan; dsimp only; split
  · exact h1
  · rw [touch_mem_walk _ d pool t (va + n - 1) quad kind priv dec, h1]
    intro fr lg a j hw hj
    rw [walk_touch] at hw
    exact h (va + n - 1) (by simp) fr lg a j hw (by simpa [descKey] using hj)

/-- The translations of an access write no byte of memory but those of page descriptors. -/
theorem touchSpan_mem {k : Nat} (h : outsideDescs s k) :
    memGet (touchSpan s d pool t va n quad kind priv dec).mem k = memGet s.mem k := by
  unfold touchSpan; dsimp only; split
  · exact touch_mem s d pool t va quad kind priv dec h
  · rw [touch_mem _ d pool t _ quad kind priv dec (outsideDescs_touch s d pool t va quad kind priv dec h)]
    exact touch_mem s d pool t va quad kind priv dec h

end

/-! ## Releases, service queues, replays -/

section
variable (s : State)

/-- A context to which no release is left waits for none (R188). -/
theorem performRelease_none {c : CoreId} {n : SlotNo} (h : (s.ctx c n).rel = none) : performRelease s c n = s := by
  simp [performRelease, h]

/-- A release that something holds back stays as it is. -/
theorem performRelease_held {c : CoreId} {n : SlotNo} {r : Rel} {b : Bool} (h : (s.ctx c n).rel = some r)
    (hb : (releaseOf { s with iss := r.iss } r.i r.e).1 { s with iss := r.iss } = some b) : performRelease s c n = s := by
  simp [performRelease, h, hb]

/-- A release that nothing holds back is performed at once; another stays with its context. -/
@[simp] theorem orDefer_none (i : Instr) (e : Vector Word 8) (op : State → State) : orDefer i none e op s = op s := rfl

@[simp] theorem orDefer_some (i : Instr) (b : Bool) (e : Vector Word 8) (op : State → State) : orDefer i (some b) e op s =
    s.modMe fun x => { x with rel := some { i := i, iss := s.iss, e := e, sbit := false } } := rfl

/-- R176: operations that leave their cores for the reorder window write no memory. -/
@[simp] theorem mem_fillWindow : s.fillWindow.mem = s.mem := by
  unfold State.fillWindow
  refine foldl_keeps State.mem _ (fun b a => ?_) _ _
  split
  · rfl
  · split
    · rfl
    · rw [mem_leaveCore]

/-- An answer writes no memory. -/
@[simp] theorem mem_answer (id : Nat) (a : Reply) : (s.answer id a).mem = s.mem := by
  unfold State.answer; dsimp only; split
  · split
    · rw [mem_fillWindow]; rfl
    · rfl
  · rfl

/-- R37: the heads that leave a service queue write no memory. -/
@[simp] theorem mem_moveHeads (c : CoreId) (l : List Nat) : (moveHeads s c l).mem = s.mem := by
  induction l generalizing s with
  | nil => rfl
  | cons id t ih =>
    unfold moveHeads; split
    · rw [ih]; rfl
    · split
      · rw [ih]; exact mem_answer s id _
      · split
        · rw [ih]; rfl
        · rfl

@[simp] theorem mem_settleHead (c : CoreId) : (settleHead s c).mem = s.mem := mem_moveHeads s c _

/-- R339: replays that stay in their set write no memory. -/
@[simp] theorem mem_keepReplays (c : CoreId) (n : SlotNo) (id : Nat) : (keepReplays s c n id).mem = s.mem := by
  unfold keepReplays; dsimp only; split
  · rfl
  · rw [mem_fillWindow]; rfl

/-- The count of a bundle that issues writes no memory. -/
@[simp] theorem mem_markIssue (c : CoreId) (n : SlotNo) : (s.markIssue c n).mem = s.mem := by
  unfold State.markIssue; dsimp only; split <;> rfl

/-- A C or lone word whose access faults takes the fault after its walks. -/
theorem runC_fault {i : Instr} {body : State → Res} {u : State} {t : Trap} (h : runsC i s) (hb : body s.opened = .fault u t)
    (hf : heldByBusy s.opened s.iss.core s.iss.slot t.cause = false) : runC i s body = raise u t := by
  rw [runC_eq body h, hb]; simp [settle, hf]

/-- R342: a fault that BUSY holds back is met before the issue: its walks are as if they had not been. -/
theorem runC_fault_held {i : Instr} {body : State → Res} {u : State} {t : Trap} (h : runsC i s) (hb : body s.opened = .fault u t)
    (hf : heldByBusy s.opened s.iss.core s.iss.slot t.cause = true) : runC i s body = raise s.opened t := by
  rw [runC_eq body h, hb]; simp [settle, hf]

end

/-! ## Engine work -/

@[simp] theorem Work.bind_ok {α β : Type} (x : Eng) (v : α) (f : Eng → α → Work β) : (Work.ok x v).bind f = f x v := rfl
@[simp] theorem Work.bind_stop {α β : Type} (x : Eng) (e : CopyErr) (f : Eng → α → Work β) :
    (Work.stop x e : Work α).bind f = .stop x e := rfl

end Sys2Proof.Machine
end

