-- ==== Sys2Proof/Laws/Units.lean ====
section
/-! SUPPORT. What the shared operations outside a bundle come to: the trap that waits for a context, what firmware and the host are
told, steal requests, and a context that has left its slot. -/

namespace Sys2Proof.Machine

/-! ## Traps that wait -/

theorem Ctx.nextPend_nil (x : Ctx) (h : x.tpend = []) : x.nextPend = none := by simp [Ctx.nextPend, h]

/-- The first trap that waits is next, unless it belongs to a bundle. -/
theorem Ctx.nextPend_cons (x : Ctx) {p : Pend} {ps : List Pend} (h : x.tpend = p :: ps) (hp : p.own = false) : x.nextPend = some p := by
  simp [Ctx.nextPend, Ctx.meetsPend, h, hp]

/-- A trap that is next is one of those that wait, and meets the bundle at which the context stands. -/
theorem Ctx.nextPend_some (x : Ctx) {p : Pend} (h : x.nextPend = some p) : p ∈ x.tpend ∧ x.meetsPend p = true :=
  ⟨List.mem_of_find?_eq_some h, List.find?_some (p := x.meetsPend) h⟩

section
variable (x : Ctx) (pc : Word) (w : Bool) (away : Word → Bool)
@[simp] theorem Ctx.resumeAt_a : (x.resumeAt pc w away).a = { x.a with pc := pc, wonly := w } := rfl
@[simp] theorem Ctx.resumeAt_st : (x.resumeAt pc w away).st = x.st := rfl
@[simp] theorem Ctx.resumeAt_priv : (x.resumeAt pc w away).priv = x.priv := rfl

/-- With no trap waiting, going on at a PC changes that and the mark alone. -/
theorem Ctx.resumeAt_nil (h : x.tpend = []) : x.resumeAt pc w away = { x with a := { x.a with pc := pc, wonly := w } } := by
  simp [Ctx.resumeAt, h]

/-- A trap that waits for a bundle to which the context is still to return goes on waiting for it (R338, R342). -/
theorem Ctx.resumeAt_away (p : Pend) (h : x.tpend = [p]) (ha : away p.pc = true) : (x.resumeAt pc w away).tpend = [p] := by
  simp [Ctx.resumeAt, h, ha]
end

/-- R456: a context that no entry has stopped matches every entry. -/
theorem Ctx.skips_none (x : Ctx) (e : Bool × Nat) (h : x.skipStop = false) (hf : x.frozeBy = none) : x.skips e = false := by
  simp [Ctx.skips, h, hf]

/-! ## Firmware and the host -/

section
variable (s : State) (d : BitVec 2) (m : HostMsg)

theorem State.tellFrom_down (h : hostUp s d = false) : s.tellFrom d m = s := by simp [State.tellFrom, h]

/-- What the host is told changes nothing but the routers and what has gone to the host. -/
theorem State.tellFrom_up (h : hostUp s d = true) : (s.tellFrom d m).hostOut = s.hostOut ++ [m] := by
  simp [State.tellFrom, State.report, h]; rfl

@[simp] theorem State.tellFrom_cores : (s.tellFrom d m).cores = s.cores := by unfold State.tellFrom; split <;> rfl
@[simp] theorem State.tellFrom_dies : (s.tellFrom d m).dies = s.dies := by unfold State.tellFrom; split <;> rfl
@[simp] theorem State.tellFrom_mem : (s.tellFrom d m).mem = s.mem := by unfold State.tellFrom; split <;> rfl
@[simp] theorem State.tellFrom_net : (s.tellFrom d m).net = s.net := by unfold State.tellFrom; split <;> rfl
@[simp] theorem State.tell_cores : (s.tell m).cores = s.cores := State.tellFrom_cores s _ m
@[simp] theorem State.tell_dies : (s.tell m).dies = s.dies := State.tellFrom_dies s _ m
@[simp] theorem State.tell_mem : (s.tell m).mem = s.mem := State.tellFrom_mem s _ m
@[simp] theorem State.report_cores : (s.report m).cores = s.cores := rfl
@[simp] theorem State.report_dies : (s.report m).dies = s.dies := rfl
@[simp] theorem State.report_mem : (s.report m).mem = s.mem := rfl
@[simp] theorem fwWrite_cores : (fwWrite s d).cores = s.cores := rfl
@[simp] theorem fwWrite_dies : (fwWrite s d).dies = s.dies := rfl
@[simp] theorem fwWrite_mem : (fwWrite s d).mem = s.mem := rfl
@[simp] theorem fwWrite_devId : (fwWrite s d).devId = s.devId := rfl
end

theorem writeDevId_down (s : State) (x : BitVec 10) (h : ∀ d, hostUp s d = false) : writeDevId s x = s := by simp [writeDevId, h]

/-! ## Stealing -/

section
variable (s : State) (v c : CoreId)

theorem unqueue_none (h : (s.core v).sched.thieves.contains c = false) : unqueue s v c = s := by unfold unqueue; rw [h]; simp

@[simp] theorem unqueue_mem : (unqueue s v c).mem = s.mem := by unfold unqueue; split <;> rfl
@[simp] theorem unqueue_net : (unqueue s v c).net = s.net := by unfold unqueue; split <;> rfl

/-- A victim whose queue of delivered requests is empty serves any thief. -/
theorem stealFirst_nil (h : (s.core v).sched.thieves = []) : stealFirst s v c = true := by simp [stealFirst, h]
end

/-! ## A context that leaves -/

theorem Ctx.owes_none (x : Ctx) (h : x.rel = none) : x.owes = false := by simp [Ctx.owes, h]

theorem Core.leaver_none (k : Core) (n : SlotNo) (h : (k.ctx n).rel = none) : k.leaver n = [] := by
  simp [Core.leaver, Ctx.owes_none _ h]

/-- The slot that a context leaves is VACANT, and its next occupant another. -/
theorem leaveSlot_vacant (s : State) (c : CoreId) (n : SlotNo) (ends : Bool) (h : n.toNat < 11) :
    ((leaveSlot s c n ends).ctx c n).st = .vacant := by
  simp only [leaveSlot, State.ctx, State.core_modCore]
  exact congrArg Ctx.st (Core.ctx_setCtx _ _ _ h)

/-- Of a copy that runs, `cpabort` waits for a completion that has begun. -/
theorem abortHold_none (s : State) (n : Nat) (h : (s.mine.ch n).st ≠ .active ∨ (s.mine.ch n).comp = 0) : abortHold n s = none := by
  rcases h with h | h <;> simp [abortHold, h]

end Sys2Proof.Machine
end

