-- ==== Sys2Proof/Tests/Slice0.lean ====
section
/-! SUPPORT. The model's own tests: ill-formed terms that the well-formedness check refuses, words written out from the
encoding tables, single steps with results computed by hand from the rules, and for every statement with hypotheses a
state that meets them. -/

namespace Sys2Proof.Tests

open Sys2Proof Sys2Proof.Machine

set_option Elab.async false

/-! ## Well-formedness: a term for each check -/

theorem test_wf_loop : (Instr.loop 0 5).wf = false := by decide
theorem test_wf_hstart : (Instr.hstart 1 62).wf = false := by decide
theorem test_wf_crr : (Instr.crr 1 0x007).wf = false := by decide
theorem test_wf_ldn : (Instr.ldn 3 1 2 0).wf = false := by decide
theorem test_wf_ldx : (Instr.ldx 1 2 3 7).wf = false := by decide
theorem test_wf_vldf : (Instr.vldf 1 2 3 7).wf = false := by decide
theorem test_wf_vstf : (Instr.vstf 1 2 3 5 0).wf = false := by decide
theorem test_wf_vgath : (Instr.vgath 1 2 3 7).wf = false := by decide
theorem test_wf_amo : (Instr.amo 1 2 3 0 10).wf = false ∧ (Instr.amo 1 2 3 1 1).wf = false := by decide
theorem test_wf_red : (Instr.red 2 3 0 9).wf = false ∧ (Instr.red 2 3 0 8).wf = true := by decide
theorem test_wf_post : (Instr.post 1 2 3 0).wf = false ∧ (Instr.post 1 2 3 9).wf = false ∧ (Instr.post 1 2 57 8).wf = false := by decide
theorem test_wf_recv : (Instr.recv 57 0).wf = false ∧ (Instr.recv 56 0).wf = true := by decide
theorem test_wf_kcfg : (Instr.kcfg 3 1 0).wf = false ∧ (Instr.kcfg 15 1 0).wf = false ∧ (Instr.kcfg 4 1 1).wf = false := by decide
theorem test_wf_amsg : (Instr.amsg 1 2 62).wf = false := by decide
theorem test_wf_wfield : (Instr.wfield 1 6).wf = false := by decide
theorem test_wf_apxOut : (Instr.apxOut 16 1).wf = false := by decide
theorem test_wf_apxRes : (Instr.apxRes 1 16).wf = false := by decide
theorem test_wf_cbPush : (Instr.cbPush 1 60 2).wf = false := by decide
theorem test_wf_cbPull : (Instr.cbPull 60 1 2).wf = false := by decide
theorem test_wf_movl : (Instr.movl 1 3 0).wf = false := by decide
theorem test_wf_bfx : (Instr.bfx 1 2 60 4 0).wf = false ∧ (Instr.bfi 1 2 60 3 0).wf = true := by decide
theorem test_wf_pget : (Instr.pget 1 2 6 0).wf = false := by decide
theorem test_wf_vadd : (Instr.vadd 1 2 3 0 7).wf = false := by decide
theorem test_wf_vfma : (Instr.vfma 1 2 3 4 0 7).wf = false := by decide
theorem test_wf_vabs : (Instr.vabs 1 2 0 6).wf = false ∧ (Instr.vabs 1 2 0 5).wf = true := by decide
theorem test_wf_vcvt : (Instr.vcvt 1 2 0 0 0 0 5).wf = false ∧ (Instr.vcvt 1 2 0 7 0 0 0).wf = false := by decide
theorem test_wf_vcmp : (Instr.vcmp 1 2 3 0 0 8).wf = false ∧ (Instr.vcmp 1 2 3 0 2 6).wf = false := by decide
theorem test_wf_vsel : (Instr.vsel 1 2 3 0 7).wf = false := by decide
theorem test_wf_vsum : (Instr.vsum 1 2 0 7).wf = false := by decide
theorem test_wf_vins : (Instr.vins 1 2 3 0 7).wf = false := by decide
theorem test_wf_vslide : (Instr.vslide 1 2 3 4 0 7).wf = false := by decide
theorem test_wf_vshift : (Instr.vshift 1 2 3 0 2).wf = false := by decide
theorem test_wf_vbsc : (Instr.vbsc 1 2 3 0 0 0 0).wf = false ∧ (Instr.vbsc 1 2 2 1 0 0 0).wf = false ∧
    (Instr.vbsc 1 2 5 1 0 0 0).wf = false ∧ (Instr.vbsc 1 2 3 1 0 0 0).wf = true := by decide
theorem test_wf_mmac : (Instr.mmac 0 0 0 0 0 0 1 2 2).wf = false := by decide

/-! ## Words written out from the encoding tables (R77-R87) -/

/-- COP at 29:24, A at 23:18, B at 17:12, C at 11:6, SUB at 5:0; `br` has P at 23:21, N at 20, D at 19:0. -/
theorem test_word_br : decodeC 0b00_000001_011_1_00000000000000000101#32 = .ok (.br 3 1 5) := by decide
theorem test_word_loop : decodeC 0b00_000101_000111_111111111111111110#32 = .ok (.loop 7 0x3FFFE) := by decide
theorem test_word_hstart : decodeC 0b00_000111_000010_000101_000000_000000#32 = .ok (.hstart 2 5) := by decide
theorem test_word_trap : decodeC 0b00_001000_000011_000000_000000_000000#32 = .ok (.trap 3) := by decide
theorem test_word_crw : decodeC 0b00_001010_000001_000000_100000000001#32 = .ok (.crw 1 0x801) := by decide
theorem test_word_ld : decodeC 0b00_010011_000001_000010_000000001000#32 = .ok (.ld 3 1 2 8) := by decide
theorem test_word_stx : decodeC 0b00_011101_000001_000010_000011_000010#32 = .ok (.stx 1 2 3 2) := by decide
theorem test_word_vstf : decodeC 0b00_100011_000100_000010_000011_001_000#32 = .ok (.vstf 4 2 3 1 0) := by decide
theorem test_word_amo : decodeC 0b00_101000_000001_000010_000011_0_1_0010#32 = .ok (.amo 1 2 3 1 2) := by decide
theorem test_word_fence : decodeC 0b00_101011_000000_000000_000000_000010#32 = .ok (.fence 2) := by decide
theorem test_word_post : decodeC 0b00_101100_000001_000010_000011_000100#32 = .ok (.post 1 2 3 4) := by decide
theorem test_word_kclaim : decodeC 0b00_110000_000001_000010_000011_000001#32 = .ok (.kclaim 1 2 3) := by decide
theorem test_word_rwait : decodeC 0b00_110001_000001_000010_000011_000010#32 = .ok (.rwait 1 2 3) := by decide
theorem test_word_cpgo : decodeC 0b00_110010_000001_000010_000000_000001#32 = .ok (.cpgo 1 2) := by decide
theorem test_word_mbwait : decodeC 0b00_110011_000001_000010_000011_000001#32 = .ok (.mbwait 1 2 3) := by decide
theorem test_word_amsg : decodeC 0b00_110100_000001_000010_000011_000001#32 = .ok (.amsg 1 2 3) := by decide
theorem test_word_spawn : decodeC 0b00_110101_000001_000000000000000100#32 = .ok (.spawn 1 4) := by decide
theorem test_word_apxOn : decodeC 0b00_110110_000010_000011_000000_000000#32 = .ok (.apxOn 2 3) := by decide
theorem test_word_cbPull : decodeC 0b00_110111_000001_000010_000011_000001#32 = .ok (.cbPull 1 2 3) := by decide
/-- AOP at 31:26, D at 25:20, A at 19:14, B at 13:8, G at 7:5, SUB at 4:0. -/
theorem test_word_add : decodeA 0b000001_000001_000010_000011_000_00000#32 = .ok (.add 1 2 3 0) := by decide
theorem test_word_addi : decodeA 0b000010_000001_000010_11111111111111#32 = .ok (.addi 1 2 0x3FFF) := by decide
theorem test_word_bfx : decodeA 0b001101_000001_000010_000100_000111_1_0#32 = .ok (.bfx 1 2 4 7 1) := by decide
theorem test_word_cmp : decodeA 0b001011_011_000_000010_000011_000_00110#32 = .ok (.cmp 3 2 3 0 6) := by decide
theorem test_word_ptag : decodeA 0b010011_000001_000010_0_01101_000_011_00#32 = .ok (.ptag 1 2 13 3) := by decide
/-- Vector words: AOP at 31:26, VD at 25:22, VA at 21:18, VB at 17:14, VC at 13:10, M at 9:7, T at 6:4, SUB at 3:0. -/
theorem test_word_vfma : decodeA 0b100000_0001_0010_0011_0100_010_000_0011#32 = .ok (.vfma 1 2 3 4 2 0) := by decide
theorem test_word_vcmp : decodeA 0b100011_0_001_0010_0011_0000_000_000_0010#32 = .ok (.vcmp 1 2 3 0 0 2) := by decide
/-- Lone forms: L at 31, LW at 29, LOP at 28:23. -/
theorem test_word_movl : decodeLone 0b10_1_000001_01_000001_000000000000000#32 0xDEADBEEF = .ok (.movl 1 1 0xDEADBEEF) := by decide
theorem test_word_mmac : decodeLone 0b10_0_000100_10_1_0_1_0_1_0000000000000011#32 0b0000000000000101_01_00000000000000#32 =
    .ok (.mmac 2 1 0 1 0 1 3 5 1) := by decide
theorem test_word_mput : decodeLone 0b10_0_000111_01_000010_000000000000000#32 0 = .ok (.mput 1 2) := by decide
/-- R88: an unassigned COP, AOP and LOP; a nonzero unused field is reason 3, a selector that is not assigned reason 2. -/
theorem test_word_unassigned : decodeC 0x0D000000 = .bad 1 ∧ decodeA 0xA8000000 = .bad 1 ∧ decodeLone 0x80000000 0 = .bad 1 ∧
    decodeC 0b00_001000_000000_000001_000000_000001#32 = .bad 3 ∧ decodeC 0b00_001000_000000_000000_000000_001001#32 = .bad 2 := by decide
/-- R72: the same word as a whole bundle; S is bit 30. -/
theorem test_bundle_s : decodeBundle 0x53042008 0 = .pair (.ld 3 1 2 8) .nopA ∧ bundleS 0x53042008 = true := by decide

/-! ## A small state -/

/-- A context of core 0 in slot `n`, user mode, at PC 0x100, with general registers given and a change of the context and
the core; it is issuing a bundle. -/
def at_ (n : SlotNo) (gs : List (Nat × Word)) (x : Ctx → Ctx := id) (k : Core → Core := id) : State :=
  let s := State.reset.withFetchWord 32 0
  let s := s.modCore 0 k
  let s := s.modCtx 0 n fun c => x { c with st := .ready, a := gs.foldl (fun a p => a.wrG p.1 p.2) { c.a with pc := 0x100 } }
  { s with iss := { core := 0, slot := n, bundle := 0, pc := 0x100, src := some (s.ctx 0 n).a, srcH := (s.core 0).h,
                    srcSh := (s.core 0).sh, first := 1000, fate := .issued } }

/-- What `f` reads in the next state. -/
def after {α : Type} (r : Host.Outcome State Fault Refusal) (f : State → α) : Option α :=
  match r with
  | .next t => some (f t)
  | _ => none

/-- The value of a general register of the issuing context after an instruction. -/
def gAfter (i : Instr) (s : State) (r : RF) : Option Word := after (exec i s) fun t => t.nowG r

/-- The cause of the trap that TRAP.CAUSE holds after an instruction, with BUSY set. -/
def causeAfter (i : Instr) (s : State) : Option (Bool × BitVec 8) :=
  after (exec i s) fun t => (t.mine.busyBit, t.mine.r.trapCause.extractLsb' 0 8)

/-- A user-mode helper in slot 1. -/
def helper : State := at_ 1 [(2, 7), (3, 0xFFFFFFFFFFFFFFFD), (4, 0x40)]

/-! ## Integer words -/

/-- R196: 7 + (-3) = 4; the high half of 7 * (-3) signed is -1 and unsigned 6. -/
theorem test_add : gAfter (.add 1 2 3 0) helper 1 = some 4 := by decide +kernel
theorem test_mulh : gAfter (.mulh 1 2 3 0) helper 1 = some 0xFFFFFFFFFFFFFFFF ∧ gAfter (.mulhn 1 2 3 0) helper 1 = some 6 := by
  decide +kernel
theorem test_sra : gAfter (.srai 1 3 1) helper 1 = some 0xFFFFFFFFFFFFFFFE ∧ gAfter (.shri 1 3 1) helper 1 = some 0x7FFFFFFFFFFFFFFE := by
  decide +kernel
theorem test_min : gAfter (.min 1 2 3 0) helper 1 = some 0xFFFFFFFFFFFFFFFD ∧ gAfter (.minn 1 2 3 0) helper 1 = some 7 := by decide +kernel
theorem test_popc : gAfter (.popc 1 3 0) helper 1 = some 63 ∧ gAfter (.clz 1 2 0) helper 1 = some 61 ∧ gAfter (.ctz 1 4 0) helper 1 = some 6 ∧
    gAfter (.clz 1 0 0) helper 1 = some 64 := by decide +kernel
/-- R39: g0 reads zero and discards its writes. -/
theorem test_g0 : gAfter (.add 0 2 3 0) helper 0 = some 0 := by decide +kernel
/-- R78: a guard whose lane 0 is clear: nothing is written. -/
theorem test_guard : gAfter (.add 2 2 3 1) helper 2 = some 7 := by decide +kernel
theorem test_movh : gAfter (.movh 2 0xFFFFF) helper 2 = some 0x000FFFFF00000007 ∧ gAfter (.movi 2 0xFFFFF) helper 2 = some 0xFFFFFFFFFFFFFFFF := by
  decide +kernel
theorem test_movl : gAfter (.movl 2 2 0x80000000) helper 2 = some 0x8000000000000007 ∧
    gAfter (.movl 2 0 0x80000000) helper 2 = some 0xFFFFFFFF80000000 := by decide +kernel
theorem test_bfi : gAfter (.bfx 1 3 1 3 1) helper 1 = some 0xFFFFFFFFFFFFFFFE ∧ gAfter (.bfi 4 2 60 3 0) helper 4 = some 0x7000000000000040 := by
  decide +kernel
theorem test_cmp : (after (exec (.cmp 1 3 2 0 2) helper) fun t => t.nowP 1) = some 0xFFFFFFFFFFFFFFFF ∧
    (after (exec (.cmp 1 3 2 0 6) helper) fun t => t.nowP 1) = some 0 := by decide +kernel
/-- R133: a division starts a long operation; division by zero gives all ones unsigned. -/
theorem test_divn : (after (exec (.divn 1 2 0 0) helper) fun t => (t.me.long.map (·.val), t.me.a.sg)) =
    some ([some 0xFFFFFFFFFFFFFFFF], 2) := by decide +kernel

theorem hyp_WordsDecode : ((0x0D000000 : W32).extractLsb' 24 6).toNat = 0x0D ∧ ((0x3F000000 : W32).extractLsb' 24 6).toNat = 0x3F ∧
    ((0x3C000000 : W32).extractLsb' 26 6).toNat = 0x0F ∧ ((0x7C000000 : W32).extractLsb' 26 6).toNat = 0x1F ∧
    ((0xA8000000 : W32).extractLsb' 26 6).toNat = 0x2A ∧ ((0x85000000 : W32).extractLsb' 23 6).toNat = 0x0A ∧
    (0x85000000 : W32).getLsbD 29 = false ∧ ((0xA0000000 : W32).extractLsb' 23 6).toNat ≠ 1 ∧ (0xA0000000 : W32).getLsbD 29 = true := by decide
theorem hyp_DecodeEncode : ∀ i ∈ [Instr.add 63 63 63 7, .bfx 1 2 63 0 1, .loop 63 0x20000, .amo 1 2 3 0 9, .post 1 2 56 8, .movl 1 2 0xFFFFFFFF,
    .mmac 3 1 1 1 1 1 0xFFFF 0xFFFF 1, .vbsc 15 15 3 1 7 0 0], i.wf = true ∧ i.place ≠ .event ∧ i ≠ .nopA := by decide
theorem hyp_IntegerResults : ∀ i ∈ [Instr.add 0 63 63 7, .sub 1 2 3 0, .maxn 63 2 3 1], runsA i helper := by unfold runsA; decide +kernel
theorem hyp_BitResults : runsA (.clz 1 2 0) helper ∧ runsA (.sel 1 2 3 7) helper ∧ runsA (.bfx 1 2 63 0 1) helper ∧ runsA (.bfi 1 2 0 63 1) helper ∧
    (63 : RF).toNat + (0 : RF).toNat + 1 ≤ 64 ∧ (0 : RF).toNat + (63 : RF).toNat + 1 ≤ 64 := by unfold runsA; decide +kernel

/-- Sixteen long operations are outstanding: one more is past the limit of R97. -/
def full97 : State := helper.modMe fun x => { x with long := (List.range 16).map fun i => helper.newLong i .none .word }

theorem hyp_LongResults : runsA (.div 1 2 3 0) helper ∧ helper.guard 0 = true ∧ helper.guard 1 = false ∧ helper.canLong = true ∧
    runsA (.remn 1 2 3 0) full97 ∧ full97.guard 0 = true ∧ full97.canLong = false ∧ runsA (.vlog2 1 2 0) helper ∧ runsA (.vdiv 1 2 3 0) helper := by
  unfold runsA; decide +kernel
theorem test_hold97 : (after (exec (.div 1 2 3 0) full97) fun t => t.iss.fate) = some .held := by decide +kernel
theorem hyp_ImmediateResults : runsA (.addi 1 2 0x2000) helper ∧ runsA (.movh 1 0xFFFFF) helper ∧ runsC (.movl 1 2 0) helper ∧ (2 : BitVec 2) ≠ 3 := by
  unfold runsA runsC; decide +kernel
theorem hyp_ComparisonResults : runsA (.cmp 1 2 3 0 7) helper ∧ runsA (.cmpi 7 0 2 0x3FFF) helper := by unfold runsA; decide +kernel

/-! ## Pointer words -/

/-- G[2] names the last 8 bytes of the scratchpad, G[3] is 8, G[4] a pointer with format 31, which R205 refuses. -/
def ptrs : State := at_ 1 [(2, 0x3FFF8), (3, 8), (4, 0xF800000000000000), (5, 0xFFFFFFFFFFFFFFF8)]

/-- R136, R203: one past the end of the offset field is ADDR; back by 8 is an offset. -/
theorem test_padd : gAfter (.padd 1 2 5 0) ptrs 1 = some 0x3FFF0 ∧ causeAfter (.padd 1 2 3 0) ptrs = some (true, 0x03) := by decide +kernel
theorem test_ptag : gAfter (.ptag 1 2 13 3) ptrs 1 = some 0x6B0000000003FFF8 := by decide +kernel
theorem test_pget : gAfter (.pget 1 2 5 0) ptrs 1 = some 0x3FFF8 ∧ gAfter (.pget 1 4 0 0) ptrs 1 = some 31 := by decide +kernel
theorem hyp_PointerResults : runsA (.padd 1 2 3 0) ptrs ∧ runsA (.paddi 1 2 8) ptrs ∧ runsA (.pidx 1 4 3 0) ptrs ∧ runsA (.ptag 1 2 13 3) ptrs ∧
    runsA (.pget 1 2 5 0) ptrs ∧ runsA (.pchk 1 2 3 0) ptrs ∧ runsA (.pmk 1 2 3 0) ptrs := by unfold runsA; decide +kernel

/-! ## Vector words -/

/-- V[1] holds 1.0 and V[2] 2.0 in every FP32 lane; P[1] is lane 0 alone. -/
def vecs : State := at_ 1 [(2, 0x3F800000)] fun x =>
  { x with a := ((x.a.wrV 1 (ofLanes 32 16 fun _ => 0x3F800000)).wrV 2 (ofLanes 32 16 fun _ => 0x40000000)).wrP 1 1 }

/-- R305: 1.0 + 2.0 = 3.0 in the active lane; lane 1 keeps its old code. -/
theorem test_vadd : (after (exec (.vadd 3 1 2 1 0) vecs) fun t => t.nowV 3) = some 0x40400000 := by decide +kernel
theorem test_vfma : (after (exec (.vfma 3 1 2 2 1 0) vecs) fun t => t.nowV 3) = some 0x40800000 := by decide +kernel
theorem test_vsum : (after (exec (.vsum 3 2 0 0) vecs) fun t => t.nowV 3) = some 0x42000000 := by decide +kernel
theorem test_vcmp : (after (exec (.vcmp 2 1 2 0 0 2) vecs) fun t => t.nowP 2) = some 0xFFFF := by decide +kernel
theorem test_vext : gAfter (.vext 2 5 15 0 0) vecs 5 = some 0x40000000 := by decide +kernel
theorem test_vsqrt : (after (exec (.vsqrt 3 2 1) vecs) fun t => t.me.long.map fun l => (l.val, l.due)) = some [(some 0x3FB504F3, some 36)] := by
  decide +kernel
theorem hyp_MaskedLanes : (0 : BitVec 3) ≠ 7 ∧ 15 < laneCount 0 ∧ (∀ j : Nat, ((fun _ => plain 5) j : Rounded).code < 2 ^ laneBits 0) ∧
    63 < laneCount 6 := ⟨by decide, by decide, fun _ => (by decide : 5 < 2 ^ 32), by decide⟩
theorem hyp_VectorResults : ∀ i ∈ [Instr.vadd 3 1 2 0 0, .vcvt 3 1 0 0 0 1 4, .vins 3 2 15 0 0, .vslide 3 1 2 15 0 6, .vunpack 3 1 1 0 0,
    .vshift 3 1 2 0 0], runsA i vecs := by unfold runsA; decide +kernel
theorem hyp_VectorOtherResults : ∀ i ∈ [Instr.vcmp 2 1 2 0 0 0, .vsel 3 1 2 1 0, .vsum 3 1 0 0, .vmaxr 3 1 0 0, .vext 1 5 15 1 0,
    .vbsc 3 1 3 1 0 0 0], runsA i vecs := by unfold runsA; decide +kernel
theorem hyp_AWordFrame : (Instr.add 1 2 3 0).place = .a ∧ helper.iss.fate = .issued ∧
    (after (exec (.add 1 2 3 0) helper) fun t => t.iss.fate) = some .issued ∧ (Instr.vadd 3 1 2 1 0).place = .a ∧
    (after (exec (.vadd 3 1 2 1 0) vecs) fun t => t.iss.fate) = some .issued ∧ helper.mine.holds helper.iss.slot = false := by decide +kernel

/-! ## Steps -/

/-- The machine with a bundle placed where the next step fetches. -/
def placed (w0 w1 : W32) : State := placeBundle State.reset w0 w1

/-- R72: `movi g1, 5` beside `nop`; the word of `movl`; a word with no meaning. -/
theorem hyp_TurnRunsDecodedBundle :
    let s := placed 0 0x24100005
    ((s.ctx 0 0).dfault = none ∧ (s.ctx 0 0).a.wonly = false ∧ (s.ctx 0 0).scatterOut = false ∧ s.agenda = [] ∧ s.turn.slot < 11) ∧
    fetchBundle (issueRecord s 0 0) = .ok 0 0x24100005 ∧ (touchFetch (issueRecord s 0 0)).breakpoint.isNone = true ∧
    (∃ i a, decodeBundle 0 0x24100005 = .pair i a) ∧ (∃ i, decodeBundle 0xA0A08000 0xDEADBEEF = .lone i) ∧
    (∃ r, decodeBundle 0x0D000000 0 = .bad r) :=
  ⟨by decide +kernel, rfl, by decide +kernel, ⟨_, _, rfl⟩, ⟨_, rfl⟩, ⟨_, rfl⟩⟩
theorem hyp_TurnRunsDecodedBundle_turns : ({ placed 0 0 with turn := { core := 0, slot := 10 } } : State).turn.slot < 11 ∧
    ({ placed 0 0 with turn := { core := 0, slot := 11 } } : State).turn.slot = 11 ∧ isEvent (.rotationBoundary 0) = true := by decide
theorem test_step : (after (step (placed 0 0x24100005)) fun t => ((t.ctx 0 0).a.rdG 1, (t.ctx 0 0).a.pc)) = some (5, 8) := by decide +kernel
theorem test_step_bad : (after (step (placed 0x0D000000 0)) fun t => ((t.core 0).r.trapInfo0, (t.core 0).r.trapInfo1)) = some (1, 0x0D000000) := by
  decide +kernel
theorem hyp_StepKeepsMemoryCanonical : (placed 0x24100005 0).mem.wf = true ∧ (after (step (placed 0x24100005 0)) fun _ => true) = some true := by
  decide +kernel
theorem test_memory : (memWrite (memWrite [] 4 [1, 2, 3]) 3 [9, 0]).wf = true ∧ memWrite (memWrite [] 4 [1, 2, 3]) 3 [9, 0] = [(3, 9), (5, 2), (6, 3)] ∧
    memNat (memWrite [] 4 [1, 2, 3]) 4 3 = 0x030201 := by decide

/-! ## Transfers -/

/-- R71, R211: backward by two bundles and forward by one; `call` writes the link; `loop` counts down. -/
theorem test_jmp : (after (exec (.jmp 0xFFFFFE) helper) fun t => t.me.a.pc) = some 0xF0 ∧
    (after (exec (.call 3) helper) fun t => (t.me.a.pc, t.nowG 63)) = some (0x118, 0x108) := by decide +kernel
theorem test_loop : (after (exec (.loop 2 0x3FFFF) helper) fun t => (t.me.a.pc, t.nowG 2)) = some (0xF8, 6) := by decide +kernel
/-- P is p0, all ones: N = 0 takes the branch and N = 1 does not. -/
theorem test_br : (after (exec (.br 0 0 4) helper) fun t => t.me.a.pc) = some 0x120 ∧
    (after (exec (.br 0 1 4) helper) fun t => t.me.a.pc) = some 0x108 := by decide +kernel
theorem hyp_TransferResults : runsC .nop helper ∧ runsA .nopA helper ∧ (∀ i ∈ [Instr.br 1 0 0x80000, .jmp 0x800000, .call 1, .jmpi 4, .ret, .loop 2 5],
    helper.opened.early i = none) := by unfold runsC runsA; decide +kernel

/-! ## Loads and stores -/

/-- The scratchpad holds 0x80 at 0x40 and 0xFF at 0x3FFFF; G[2] is 0x40, G[5] the scratchpad's last 8 bytes, G[6] an
address of core 1, G[7] one of core 1's next line. -/
def loads : State :=
  let s := at_ 1 [(2, 0x40), (3, 1), (4, 0x1122334455667788), (5, 0x3FFF8), (6, 0x100000040), (7, 0x100000080), (8, 0x3FFC0)]
  { s with mem := memWrite (memWrite s.mem 0x40 [0x80]) 0x3FFFF [0xFF] }

theorem test_ld : gAfter (.ld 0 1 2 0) loads 1 = some 0xFFFFFFFFFFFFFF80 ∧ gAfter (.ldn 0 1 2 0) loads 1 = some 0x80 ∧
    gAfter (.ldn 3 1 5 0) loads 1 = some 0xFF00000000000000 := by decide +kernel
/-- R234: a misaligned address, and one past the offset field. -/
theorem test_ld_addr : causeAfter (.ld 3 1 2 1) loads = some (true, 0x03) ∧ causeAfter (.ld 3 1 5 8) loads = some (true, 0x03) := by decide +kernel
theorem hyp_OwnLoadResults : (let o := loads.opened
    (∀ n ∈ [1, 2, 4, 8], moveOff (o.rdG 5) 0 = some 0x3FFF8 ∧ o.ownSp (o.res 0x3FFF8) = true ∧ o.check 0x3FFF8 n 0 n = none ∧
      (o.watch 0x3FFF8 n 0).isNone = true) ∧ moveOff (o.rdG 2) (o.rdG 3).toInt = some 0x41 ∧ o.check 0x41 1 0 1 = none ∧
    moveOff (o.rdG 8) (64 * (0 : BitVec 12).toInt) = some 0x3FFC0 ∧ o.check 0x3FFC0 64 0 64 = none) ∧
    ∀ i ∈ [Instr.ld 3 1 5 0, .ldn 0 1 5 0, .ldx 1 2 3 0, .ldx 1 2 3 4, .vld 1 8 0], runsC i loads := by unfold runsC; decide +kernel

/-- The same with 16 long operations outstanding. -/
def loads97 : State := loads.modMe fun x => { x with long := (List.range 16).map fun i => loads.newLong i .none .word }

theorem hyp_LongLoadStarts : (let o := loads.opened
    moveOff (o.rdG 6) 0 = some 0x100000040 ∧ o.ownSp (o.res 0x100000040) = false ∧ o.check 0x100000040 64 0 64 = none ∧
    (o.watch 0x100000040 64 0).isNone = true ∧ o.check 0x100000041 1 0 1 = none ∧ moveOff (o.rdG 6) (o.rdG 3).toInt = some 0x100000041 ∧
    o.canLong = true ∧ loads97.opened.canLong = false) ∧
    ∀ i ∈ [Instr.ld 0 1 6 0, .ldn 3 1 6 0, .ldx 1 6 3 0, .ldx 1 6 3 4, .vld 1 6 0], runsC i loads := by unfold runsC; decide +kernel
theorem hyp_StoreResults : (let o := loads.opened
    moveOff (o.rdG 5) 0 = some 0x3FFF8 ∧ o.check 0x3FFF8 8 1 8 = none ∧ (o.watch 0x3FFF8 8 1).isNone = true ∧
    o.me.hasRoom [o.storeRec 0x3FFF8 (natBytes 8 (o.rdG 4).toNat)] = true ∧ o.check 0x41 1 1 1 = none ∧
    o.me.hasRoom [o.storeRec 0x3FFC0 (natBytes 64 (o.rdV 1).toNat)] = true ∧ o.check 0x3FFC0 64 1 64 = none) ∧
    ∀ i ∈ [Instr.st 3 4 5 0, .stx 4 2 3 0, .vst 1 8 0], runsC i loads := by unfold runsC; decide +kernel
/-- R163: a load after a store of the same chunk reads the buffered bytes; memory is as it was. -/
theorem test_store_buffer : (after (exec (.st 3 4 2 0) loads) fun t =>
      (gAfter (.ldn 1 1 2 2) { t with iss := { t.iss with src := none } } 1, memNat t.mem 0x40 8)) =
    some (some 0x5566, 0x80) := by decide +kernel
theorem hyp_StoreFrame : loads.iss.fate = .issued ∧ (after (exec (.st 3 4 5 0) loads) fun t => t.iss.fate) = some .issued ∧
    loads.ownDie (loads.res (loads.rdG 5)) = false ∧ (after (exec (.vstf 1 2 3 0 0) { loads with iss := { loads.iss with pc := 0x100 } }) fun t => t.iss.fate) = some .trapped := by
  decide +kernel

/-- G[2] is a pointer to FP32 elements (format 3) of the scratchpad, G[3] 16 elements. V[1] holds 1.0 in every lane. -/
def forms : State := at_ 1 [(2, 0x1800000000000040), (3, 16)] fun x => { x with a := x.a.wrV 1 (ofLanes 32 16 fun _ => 0x3F800000) }

theorem hyp_FormattedResults : (let o := forms.opened; let p := o.rdG 2
    let r := encodeElems (pFmt p) (pBlg p) 0 false ((List.range 16).map fun k => laneNum 0 (laneOf 0 (o.rdV 1) k))
    formSize o p 16 0 = .ok 64 ∧ 0 < 64 ∧ o.ownSp (o.res p) = true ∧
      zpAnyBad (pFmt p) (pBlg p) 16 (o.readOwn (o.byteKeys (o.res p) 64)) = false ∧
      o.check p 64 0 1 = none ∧ o.check p 64 1 1 = none ∧ (o.watch p 64 0).isNone = true ∧ (o.watch p 64 1).isNone = true ∧
      o.me.hasRoom [o.storeRec p r.1] = true ∧ o.me.hasRoom [o.storeRec p (List.replicate 64 0)] = true) ∧
    runsC (.vldf 2 2 3 0) forms ∧ runsC (.vstf 1 2 3 0 0) forms ∧ runsC (.vldt 2 2 3 0) forms :=
  ⟨⟨rfl, by decide, by decide +kernel, by decide +kernel, by decide +kernel, by decide +kernel, by decide +kernel, by decide +kernel,
    by decide +kernel, by decide +kernel⟩, by unfold runsC; decide +kernel⟩
theorem test_vstf : (after (exec (.vstf 1 2 3 0 0) forms) fun t => t.me.chunk.map fun ch => ch.buf.map fun r => r.bytes.take 5) =
    some (some [[0, 0, 0x80, 0x3F, 0]]) := by decide +kernel

/-- G[2] is an address of the scratchpad; V[2] holds the indices 0 to 15. -/
def gath : State := at_ 1 [(2, 0x3FFC0)] fun x => { x with a := x.a.wrV 2 (ofLanes 32 16 fun k => k) }

/-- Sixteen addresses of words, one after another. -/
def sixteen (p : Nat) : List Word := (List.range 16).map fun k => BitVec.ofNat 64 (p + 4 * k)
theorem gath_elems : elemPtrs (gath.opened.rdG 2) (gath.opened.rdV 2) 4 = (sixteen 0x3FFC0).map some := by decide +kernel
theorem hyp_GatherScatterResults : (let o := gath.opened; let qs := sixteen 0x3FFC0
    let recs := qs.mapIdx fun k q => { o.storeRec q (natBytes 4 (laneOf 0 (o.rdV 1) k)) with sc := true }
    o.canLong = true ∧ (qs.map o.res).all o.ownSp = true ∧ (elemChecks o (o.rdG 2) (qs.map some) 4 0).isNone = true ∧
      (elemChecks o (o.rdG 2) (qs.map some) 4 1).isNone = true ∧ o.me.hasRoom recs = true) ∧
    runsC (.vgath 1 2 2 0) gath ∧ runsC (.vscat 1 2 2 0) gath := by
  unfold runsC; decide +kernel
/-- The elements lie in the scratchpad of core 1. -/
def gathFar : State := at_ 1 [(2, 0x10003FFC0)] fun x => { x with a := x.a.wrV 2 (ofLanes 32 16 fun k => k) }
theorem gathFar_elems : elemPtrs (gathFar.opened.rdG 2) (gathFar.opened.rdV 2) 4 = (sixteen 0x10003FFC0).map some := by decide +kernel
theorem hyp_GatherScatterResults_far : (let o := gathFar.opened; let qs := sixteen 0x10003FFC0
    (qs.map o.res).all o.ownSp = false ∧ (elemChecks o (o.rdG 2) (qs.map some) 4 0).isNone = true ∧
      (elemChecks o (o.rdG 2) (qs.map some) 4 1).isNone = true) ∧
    runsC (.vgath 1 2 2 0) gathFar ∧ runsC (.vscat 1 2 2 0) gathFar := by
  unfold runsC; decide +kernel

/-! ## Reads and waits -/

/-- KM.CFG is set for slots of 16 bytes at offset 0x100, and key 5 is bound to slot 2 and ready, key 6 to slot 3 and not. -/
def keyed (k : Core) : Core :=
  { k with km := { KeyMap.zero with offset := 0x10, sizelog := 4, count := 9, exact_ := [{ key := 5, slot := 2, valid := true, pin := 0 },
    { key := 6, slot := 3, valid := false, pin := 15 }] } }

/-- G[2] names key 5, G[3] is 8, G[4] names key 6, G[5] a mailbox counter. -/
def reads : State := at_ 1 [(2, 5), (3, 8), (4, 6), (5, 0x3F), (6, 0), (7, 1)] id keyed

theorem hyp_ReadWordResults : ((0x800 : BitVec 12).toNat < 0x800 ∨ ((at_ 1 [] fun x => { x with priv := true }).opened.me.priv = true)) ∧
    (1 : BitVec 12).toNat < 0x800 ∧ (reads.opened.rdG 7).toNat < 2 ∧ mbOk (reads.opened.rdG 5) = true ∧
    reads.opened.ownSp (reads.opened.res (reads.opened.rdG 5)) = true ∧ objIdx (reads.opened.rdG 6) = 0 ∧ (reads.mine.ring 0).obj.isNone = true ∧
    tgstatRsv (reads.opened.rdG 6) = false ∧ reads.opened.canLong = true ∧
    ∀ i ∈ [Instr.tmark 2, .cnt 1, .crr 1 1, .ipeek 1, .klook 1 2, .cpwp 1 7, .mbrd 1 5, .wfield 1 0, .rstat 1 6, .tgstat 1 6, .kload 1 2 3],
      runsC i reads := by unfold runsC; decide +kernel
theorem hyp_ReadWordResults_kload : let o := reads.opened; let m := o.mine.km
    m.sizelog ≠ 0 ∧ (o.rdG 3).toNat % 8 = 0 ∧ 2 ^ m.sizelog.toNat = (o.rdG 3).toNat + 8 ∧ (m.lookup (keyOf (o.rdG 2))).1 = stHIT ∧
    (m.lookup (keyOf (o.rdG 4))).1 ≠ stHIT ∧
    (let q : Word := (0 : BitVec 10) ++ (0x3FF : BitVec 10) ++ (0xFFF : BitVec 12) ++ BitVec.ofNat 32 ((m.slotOff 2 + 8) % 2 ^ 18)
     o.check q 8 0 8 = none ∧ (o.watch q 8 0).isNone = true) ∧ (o.rdG 2).toNat % 8 ≠ 0 := by decide +kernel
/-- No region grants the read; and inside HANDLER, while BUSY names another context, a miss is ILLEGAL and waits. -/
theorem hyp_ReadWordResults_kload_traps : (let s := reads.modCore 0 fun k => { k with r := { k.r with protSize := Vector.replicate 8 0 } }; let o := s.opened
      runsC (.kload 1 2 3) s ∧ (o.mine.km.lookup (keyOf (o.rdG 2))).1 = stHIT ∧ (o.check 0x3FFFFFC000128 8 0 8).isSome = true ∧
      heldByBusy o 0 1 cPROT = false) ∧
    (let s := reads.modCore 0 fun k => { k with holder := some 1, r := { k.r with trapCause := 0x8000000000000200 } }; let o := s.opened
      runsC (.kload 1 4 3) s ∧ (keyMiss o 1 (o.rdG 4) stBUSY 3).cause = cILLEGAL ∧ heldByBusy o 0 1 cILLEGAL = true) := by unfold runsC; decide +kernel
theorem test_klook : gAfter (.klook 1 2) reads 1 = some 0x4000000000000002 ∧ gAfter (.klook 1 4) reads 1 = some 0x8000000000000003 := by
  decide +kernel
/-- R265, R275: a key that is BUSY is a key miss: the context enters HANDLER with the key in h0. -/
theorem test_kload : gAfter (.kload 1 2 3) { reads with mem := memWrite reads.mem 0x128 [0x2A] } 1 = some 0x2A ∧
    (after (exec (.kload 1 4 3) reads) fun t => (t.me.st, vget t.mine.h 0 0)) = some (.handler, 6) := by decide +kernel

/-- The control context: G[2] = 1, G[3] = 10, G[5] a mailbox counter, G[6] = 0, G[7] = all ones. -/
def control : State := at_ 0 [(2, 1), (3, 10), (5, 0x3F), (6, 0), (7, 0xFFFFFFFFFFFFFFFF)] id keyed

theorem hyp_OpenWaits : (∀ i ∈ [Instr.park 7, .hjoin 2 7, .hjoin 3 7, .kwait 1 2 7, .cpwait 1 6 7, .mbwait 5 6 7], runsC i control) ∧
    1 ≤ (control.opened.rdG 2).toNat ∧ (control.opened.rdG 3).toNat ≤ 10 ∧ (control.opened.rdG 6).toNat < 2 ∧
    mbOk (control.opened.rdG 5) = true ∧ control.opened.ownSp (control.opened.res (control.opened.rdG 5)) = true := by unfold runsC; decide +kernel
/-- R218, R58: slot 3 is VACANT, and an operation of the context that left it has not been performed: `hjoin` completes at once. -/
theorem hyp_OpenWaits_left : let g : Gone := { slot := 3, ctx := Ctx.zero, asg := none, qwgt := 0, slotOwn := 0 }
    let s := at_ 0 [(2, 3), (7, 0xFFFFFFFFFFFFFFFF)] id fun k => { (k.setCtx 3 { Ctx.zero with occ := 1 }) with gone := [g] }
    runsC (.hjoin 2 7) s ∧ (s.opened.mine.ctx 3).st = .vacant ∧
    (after (exec (.hjoin 2 7) s) fun t => (t.me.st, t.me.a.pc)) = some (.ready, 0x108) := by
  unfold runsC; decide +kernel
theorem test_park : (after (exec (.park 7) control) fun t => (t.me.st, t.me.wait.map (·.left))) = some (.waiting, some none) := by decide +kernel
theorem test_mbwait : (after (exec (.mbwait 5 6 7) control) fun t => (t.me.st, t.me.a.pc)) = some (.ready, 0x108) := by decide +kernel
theorem hyp_CWordFrame : control.iss.fate = .issued ∧ ∀ i ∈ [Instr.nop, .jmp 1, .crr 1 1, .ipeek 1, .klook 1 2],
    (after (exec i control) fun t => t.iss.fate) = some .issued := by decide +kernel

/-! ## Words that end their chunk -/

/-- The state after an instruction. -/
def nextOf (i : Instr) (s : State) : State := (after (exec i s) id).getD s

/-- The bytes of a dword of die memory that are not zero. -/
def dwordCells (i : Nat) (x : Word) : Mem := ((wordBytes x).mapIdx fun j b => (dmKey 0 (8 * i + j), b)).filter fun c => c.2 != 0

/-- The dwords of a table of entries in die memory, those that are not zero by number; a cached page maps it, and OT.BASE
names it. -/
def table (ds : List (Nat × Word)) (s : State) : State :=
  let s := { s with mem := s.mem ++ (ds.map fun (d : Nat × Word) => dwordCells d.1 d.2).flatten }
  let s := s.modDie 0 fun d => { d with tlb := [{ pool := false, tenant := 0, page := 0, large := false, frame := 0, attr := 0x0F }] }
  s.modCore 0 fun k => { k with r := { k.r with otBase := 0xFFFF000000000000 } }

theorem ok_of {α : Type} (d : α) {x : Except Trap α} (h : (trapOf x).isNone = true) : x = .ok (valOf d x) := by
  cases x <;> simp_all [trapOf, valOf]

/-- A store of the chunk waits in its buffer. -/
def stored : State := nextOf (.st 3 4 5 0) loads

theorem hyp_CommitPerformsStores : (1 : SlotNo).toNat < 11 ∧ ∃ ch, (stored.ctx 0 1).chunk = some ch ∧ (commitChunk stored 0 1).2 = true ∧
    ∀ r ∈ ch.buf, r.near = true → nearAllowed stored 0 1 r = true :=
  ⟨by decide, (stored.ctx 0 1).chunk.getD (freshChunk Arch.zero (Vector.replicate 16 0) 0), by decide +kernel, by decide +kernel,
    by decide +kernel⟩
theorem test_commit : memNat (commitChunk stored 0 1).1.mem 0x3FFF8 8 = 0x1122334455667788 ∧ memNat stored.mem 0x3FFF8 8 = 0xFF00000000000000 := by
  decide +kernel
theorem hyp_SquashRestoresSnapshot : (1 : SlotNo).toNat < 11 ∧ ∃ ch, (stored.ctx 0 1).chunk = some ch :=
  ⟨by decide, (stored.ctx 0 1).chunk.getD (freshChunk Arch.zero (Vector.replicate 16 0) 0), by decide +kernel⟩

theorem hyp_AtomicResults : (let o := loads.opened
    atomicCheck o (loads.rdG 5) 8 = none ∧ atomicCheck o (loads.rdG 2) 4 = none ∧ atomicCheck o (loads.rdG 6) 8 = none ∧
    o.ownSp (o.res (loads.rdG 5)) = true ∧ o.holdWrite (o.ownKey (loads.rdG 5)) 8 = none ∧ o.ownSp (o.res (loads.rdG 6)) = false ∧
    o.canLong = true ∧ o.behind = false) ∧ ∀ i ∈ [Instr.amo 1 5 3 1 0, .amo 1 6 3 1 9, .acas 1 5 3 1, .acas 1 6 3 0, .red 5 3 1 8, .red 6 3 0 0], endsAt i loads := by
  unfold endsAt runsC mayCommit; decide +kernel
/-- R245: the old value, and the sum in memory. -/
theorem test_amo : (after (exec (.amo 1 2 3 0 0) loads) fun t => (t.nowG 1, memNat t.mem 0x40 4)) = some (0x80, 0x81) := by decide +kernel
theorem test_acas : (after (exec (.acas 1 2 4 0) loads) fun t => (t.nowG 1, memNat t.mem 0x40 4)) = some (0x80, 0x80) := by decide +kernel
theorem test_red : (after (exec (.red 2 4 0 7) loads) fun t => memNat t.mem 0x40 4) = some 0x55667788 := by decide +kernel
theorem hyp_AtomicMemoryFrame : (3 < 4 ∨ 4 + 8 ≤ 3) ∧ (12 < 4 ∨ 4 + 8 ≤ 12) ∧ (fun v : Nat => some (v + 1)) (memNat loads.mem 4 8) = some 1 ∧
    1 < 2 ^ (8 * 8) ∧ (fun _ : Nat => (none : Option Nat)) (memNat loads.mem 4 8) = none := by decide +kernel

/-- Ring 0 of the core is an inbox of two entries at 0x1000, one of them taken; G[2] is its address, G[6] that of core 1. -/
def inbox (w : W32) : State := at_ 1 [(2, 0), (3, 9), (6, 0x100000000), (7, 0xFFFFFFFFFFFFFFFF)] id fun k =>
  k.setRing 0 { Ring.zero with obj := some 0, entry := vset (vset noEntry 0 0x00000480000000F2) 1 0x1000, w := w }

theorem hyp_InboxResults : (∀ i ∈ [Instr.fence 0, .fence 3, .post 1 2 3 1, .post 0 2 3 8, .post 1 6 3 1, .post 0 6 3 1, .recv 8 7], endsAt i (inbox 1)) ∧
    endsAt (.post 1 2 3 1) (inbox 2) ∧ endsAt (.recv 8 7) (inbox 0) ∧
    (let o := (inbox 1).opened; let p := (inbox 1).rdG 2
     postCheck o p = none ∧ o.ownSp (o.res p) = true ∧ (o.mine.ring 0).inboxFull = false ∧
       o.holdWrite (spKey o.iss.core ((o.mine.ring 0).slotOff (o.mine.ring 0).w)) 64 = none ∧
       postCheck o ((inbox 1).rdG 6) = none ∧ o.ownSp (o.res ((inbox 1).rdG 6)) = false ∧ o.canLong = true ∧ o.behind = false) ∧
    (inbox 2).opened.behind = false ∧
    ((inbox 2).opened.mine.ring 0).inboxFull = true ∧ postCheck (inbox 2).opened ((inbox 2).rdG 2) = none ∧
    (((inbox 1).committed (.recv 8 7)).mine.ring 0).w ≠ (((inbox 1).committed (.recv 8 7)).mine.ring 0).c ∧
    (((inbox 0).committed (.recv 8 7)).mine.ring 0).w = (((inbox 0).committed (.recv 8 7)).mine.ring 0).c ∧
    fenceIds ((inbox 1).committed (.fence 3)) 3 = [] := by unfold endsAt runsC mayCommit; decide +kernel
/-- A posted store is outstanding. -/
def posted : State := nextOf (.red 6 3 0 0) loads
theorem hyp_InboxResults_fence : let s := { posted with iss := loads.iss }
    endsAt (.fence 1) s ∧ fenceIds (s.committed (.fence 1)) 1 ≠ [] := by unfold endsAt runsC mayCommit; decide +kernel
/-- A range lock on the first two entries of the inbox. -/
def lockedInbox : State :=
  let l : Lock := { dst := true, xid := 9, tenant := 0, first := spPtr 0 0 0x1000, last := spPtr 0 0 0x107F, mask := 0, core := 5, ch := 0, shrinks := false }
  (inbox 1).modDie 0 fun d => { d with locks := [l] }
theorem hyp_InboxResults_locked : entryLocked (inbox 1).opened 64 = none ∧ entryLocked (inbox 1).opened 4 = none ∧
    (entryLocked lockedInbox.opened 64).isSome = true ∧ (entryLocked lockedInbox.opened 4).isSome = true ∧ runsC (.recv 8 7) lockedInbox ∧
    runsC (.ipeek 1) lockedInbox ∧ runsC (.post 1 2 3 1) lockedInbox ∧ (let o := lockedInbox.opened; let e := inboxNext o o.iss.core
      ((o.checkProt e 64 1).or ((o.checkLock e 64 1).or (o.watch e 64 1))).isSome = true ∧ o.ownSp (o.res (lockedInbox.rdG 2)) = true ∧
        (o.mine.ring 0).inboxFull = false) := by unfold runsC; decide +kernel
theorem test_post : (after (exec (.post 1 2 3 1) (inbox 1)) fun t => (t.nowG 1, (t.mine.ring 0).w, memNat t.mem 0x1040 8)) =
    some (0, 2, 9) := by decide +kernel
theorem test_post_full : (after (exec (.post 0 2 3 1) (inbox 2)) fun t => ((t.mine.ring 0).w, (t.mine.ring 0).drops)) = some (2, 1) := by
  decide +kernel

/-! ## Key map -/

theorem hyp_KeyMapResults : (∀ i ∈ [Instr.kclaim 1 2 3, .kunbind 1 2, .kunpin 1 2, .kscan 1, .kwin 1 2 3 63 0xFFF, .kpin 1 2, .kready 4, .kinv 2,
    .kcfg 4 9 0x100, .kcfg 14 15 0], endsAt i reads) ∧ (let k := keyOf (reads.opened.rdG 2)
      reads.opened.mine.km.bindsKey k = true ∧ reads.opened.mine.km.pinOf k < 15 ∧ reads.opened.behind = false) ∧
    (16 * ((0x100 : BitVec 18).toNat / 16) + ((9 : BitVec 12).toNat + 1) * 2 ^ (4 : BitVec 4).toNat ≤ 2 ^ 18) ∧
    16 * ((0 : BitVec 18).toNat / 16) + ((15 : BitVec 12).toNat + 1) * 2 ^ (14 : BitVec 4).toNat = 2 ^ 18 := by
  unfold endsAt runsC mayCommit; decide +kernel
theorem hyp_KeyMapLifeCycle : let m := reads.mine.km
    (4 : Word) ≠ BitVec.allOnes 64 ∧ (m.claim 7 4).2 = 0 ∧ (m.lookup 6).1 = stBUSY ∧ (m.lookup 5).1 ≠ stBUSY ∧ (m.unbind 5).2 = 0 ∧
    (5 : Word).getLsbD 63 = false ∧ (6 : BitVec 56) ≠ 5 ∧ m.slots ≤ 10 ∧ 9 < m.slots ∧ m.bound 2 = true ∧ m.bound 9 = false ∧ m.inUse < 1024 ∧
    ({ m with exact_ := List.replicate 1024 { key := 5, slot := 2, valid := true, pin := 0 } } : KeyMap).inUse = 1024 := by decide +kernel
/-- The EXACT entries of `keyed` and a window of three positions from slot 6: blocks 9 (BUSY), 7 and 8. -/
def windowed (pin : Nat) : KeyMap :=
  { (keyed (helper.core 0)).km with wins := [{ prefix32 := 1, base := 6, head := 9, pos := [{ tag := 9, st := 1, pin := 0 },
    { tag := 7, st := 2, pin := pin }, { tag := 8, st := 2, pin := 1 }] }] }
/-- A key of that window's prefix. -/
def key1 (b : Nat) : BitVec 56 := BitVec.ofNat 56 (2 ^ 24 + b)
/-- R264: HIT, BUSY, the next block, GAP, an older block, an EXACT entry, and neither. -/
theorem hyp_KeyMapLifeCycle_lookup : [key1 8, key1 9, key1 10, key1 11, key1 4, 5, 0x2000000, 6].map (windowed 0).lookup =
    [(1, 8), (2, 6), (0, 7), (3, 8), (0, 7), (1, 2), (0, 0), (2, 3)] := by decide +kernel
/-- R265, R269: the claim of a window position, and each of its failures. -/
theorem hyp_KeyMapLifeCycle_claim : let m := windowed 0; let c := fun (m : KeyMap) (k : BitVec 56) => m.claim k (BitVec.allOnes 64)
    (c m (key1 10)).2 = 0 ∧ (c m (key1 10)).1.lookup (key1 10) = (2, 7) ∧ (c m (key1 10)).1.lookup (key1 7) = (0, 7) ∧
    (c (windowed 2) (key1 10)).2 = 0x8400000000000007 ∧ (c m (key1 4)).2 = 0x0900000000000007 ∧ (c m (key1 11)).2 = 0xCA00000000000008 ∧
    (c m (key1 8)).2 = 0x4100000000000008 ∧ (c m 7).2 = 0x0800000000000000 := by decide +kernel
/-- R270, R273, R274, R276: pins, the scan, and the removal of a window. -/
theorem hyp_KeyMapLifeCycle_pins : let m := windowed 0
    m.scan = ({ m with hand := 3 }, 0x4000000000000002) ∧ ({ m with exact_ := [] } : KeyMap).scan.2 = 0 ∧ (m.pin 5).1.pinOf 5 = 1 ∧
    (m.unpin 5).2 = 0x4B00000000000002 ∧ (m.unpin (key1 8)).1.pinOf (key1 8) = 0 ∧ (m.pin 7).2 = 0x0600000000000000 ∧
    (m.ready (key1 9)).lookup (key1 9) = (1, 6) ∧ (0x8000000000000001 : Word).getLsbD 63 = true ∧ (m.inv 0x8000000000000001).wins.length = 0 := by
  decide +kernel
/-- R277: a window whose head is the last block, and the failures. -/
theorem hyp_KeyMapLifeCycle_window : let m := windowed 0; let u := m.window 2 0xFFFFFF 1 0
    (u.2 = 0 ∧ u.1.lookup 0x2000000 = (0, 0) ∧ (u.1.claim 0x2000000 (BitVec.allOnes 64)).2 = 0) ∧
    (m.window 1 0 1 0).2 = 0x0100000000000000 ∧ (m.window 2 0 2 9).2 = 0x0700000000000009 ∧ (m.window 2 0 2 1).2 = 0x0200000000000002 := by
  decide +kernel
theorem test_kclaim : (after (exec (.kclaim 1 3 2) reads) fun t => (t.nowG 1, t.mine.km.exact_.length)) = some (0, 3) ∧
    (after (exec (.kclaim 1 2 3) reads) fun t => (t.nowG 1, t.mine.km.exact_.length)) = some (0x4100000000000002, 2) := by decide +kernel
/-- R273: the sixteenth pin is PINOVF. -/
theorem test_kpin : causeAfter (.kpin 1 4) reads = some (true, 0x0A) := by decide +kernel

/-! ## Rings, channels, mailboxes -/

/-- Object 1 is ring 5 of core 0, 2 is ring 6 of core 1, 3 a LAUNCH, 4 a REGION and 5 a STREAM; ring 5 is bound, with the
indices and RC given. -/
def objects (n : SlotNo) (w c rc : W32) : State :=
  table [(8, 0x000004BFF00005F2), (9, 0x1000), (16, 0x000004BFF00106F2), (17, 0x1000), (24, 0x10F3), (25, 0x200), (26, 7),
    (32, 0x00010100000001F4), (33, 0x3F800000), (34, 0x10001), (40, 0x401F7)]
    (at_ n [(2, 1), (3, 2), (4, 3), (5, 4), (6, 5), (7, 0), (8, 9)] id fun k =>
      k.setRing 5 { Ring.zero with obj := some 1, entry := vset (vset noEntry 0 0x000004BFF00005F2) 1 0x1000, w := w, c := c, f := c, rc := rc })

/-- What the ring words need of an object. -/
def ringHyp (i : Instr) (op : RingOp) (x : RF) (s : State) : Prop :=
  let u := walkRing i s op (objIdx (s.rdG x))
  (∃ e, ringUse u op (objIdx (s.rdG x)) = .ok e) ∧ endsAt i u

theorem hyp_RingResults_checks : ∀ p ∈ [(Instr.rpush 2, RingOp.push, (2 : RF)), (.rrel 2, .rel, 2), (.rset 2 7, .set, 2), (.rpush 3, .push, 3),
    (.rclaim 1 2 7, .claim, 2), (.rwait 1 2 7, .wait, 2), (.rclaim 1 3 7, .claim, 3)],
      (trapOf (ringUse (walkRing p.1 (objects 1 1 0 1) p.2.1 (objIdx ((objects 1 1 0 1).rdG p.2.2))) p.2.1 (objIdx ((objects 1 1 0 1).rdG p.2.2)))).isNone = true ∧
      endsAt p.1 (walkRing p.1 (objects 1 1 0 1) p.2.1 (objIdx ((objects 1 1 0 1).rdG p.2.2))) := by unfold endsAt runsC mayCommit; decide +kernel
theorem hyp_RingResults : ∀ p ∈ [(Instr.rpush 2, RingOp.push, (2 : RF)), (.rrel 2, .rel, 2), (.rset 2 7, .set, 2), (.rpush 3, .push, 3),
    (.rclaim 1 2 7, .claim, 2), (.rwait 1 2 7, .wait, 2), (.rclaim 1 3 7, .claim, 3)], ringHyp p.1 p.2.1 p.2.2 (objects 1 1 0 1) :=
  fun p hp => ⟨⟨_, ok_of noEntry (hyp_RingResults_checks p hp).1⟩, (hyp_RingResults_checks p hp).2⟩
theorem hyp_RingResults_cases :
    let use := fun (i : Instr) (op : RingOp) (s : State) (x : RF) => valOf noEntry (ringUse (walkRing i s op (objIdx (s.rdG x))) op (objIdx (s.rdG x)))
    let s := objects 1 1 0 1; let e := use (.rpush 2) .push s 2; let e' := use (.rpush 3) .push s 3
    let m := (walkRing (.rpush 2) s .push 1).committed (.rpush 2)
    (walkRing (.rpush 2) s .push 1).opened.behind = false ∧ ownRing m e = true ∧ ownRing m e' = false ∧ rnNum e = 5 ∧ rnNum e' = 6 ∧ m.req m.nextId = none ∧ (trapOf (ringCapture s e)).isNone = true ∧
    (trapOf (ringShape s e)).isNone = true ∧ (m.mine.ring 5).ready .wait = true ∧ (m.mine.ring 5).ready .claim = false ∧
    ((objects 1 0 0 0).mine.ring 5).ready .wait = false ∧ ((objects 1 0 0 0).mine.ring 5).ready .claim = true := by decide +kernel
/-- A request for object 1 waits in the ring-wait table of core 0, whose ring 5 is bound to an object. -/
def aRingReq (op : RingOp) : Req :=
  { id := 7, core := 0, slot := 1, occ := 0, tenant := 0, priv := false, wid := 0, widf := 0, ltag := 0, ord := false, dest := .dev 0, tso := false, ret := false,
    body := .ring op 0 0 1 0 (vset (vset noEntry 0 0x000004BFF00005F2) 1 0x1000) none, given := none, phys := [], reply := .none, cancel := false, orphan := false }
def rwaits (obj : BitVec 16) : State :=
  { helper.modCore 0 fun k => { k.setRing 5 { Ring.zero with obj := some obj } with rwait := [7] } with net := [aRingReq .wait] }
theorem hyp_RingResults_unbound : rnNum (vset (vset noEntry 0 0x000004BFF00005F2) 1 0x1000) = 5 ∧ (rwaits 2).devId = 0 ∧
    (rwaits 2).req 7 = some (aRingReq .wait) ∧ ((rwaits 2).core 0).rwait = [7] ∧ (rwaits 2).mine.rwait ≠ [] ∧
    (((rwaits 2).core 0).ring 5).obj = some 2 ∧ (((rwaits 1).core 0).ring 5).obj = some 1 ∧
    (((rwaits 2).modCore 0 fun k => { k with svcq := [7], rwait := [] }).core 0).svcq = [7] := by decide +kernel
/-- R281: the request fails as soon as the ring is bound to another object than the one that it names. -/
theorem test_rset_unbound : ((dropUnbound (rwaits 2) 0 5).req 7).map (·.reply) = some (.err eBind 0 (Config.ringPtr 1)) := rfl
theorem test_rwait : (after (exec (.rwait 1 2 7) (objects 1 1 0 0)) fun t => (t.nowG 1, (t.mine.ring 5).c, (t.mine.ring 5).f)) =
    some (0x1000, 1, 0) := by decide +kernel
theorem test_rclaim : (after (exec (.rclaim 1 2 7) (objects 1 1 0 0)) fun t => (t.nowG 1, (t.mine.ring 5).rc)) = some (0x1040, 1) := by decide +kernel
theorem hyp_RingIndices : let r := (objects 1 1 0 1).mine.ring 5
    r.rc ≠ 0 ∧ ({ r with rc := 0 } : Ring).rc = 0 ∧ ({ r with c := 1 } : Ring).f ≠ ({ r with c := 1 } : Ring).c ∧ r.f = r.c := by decide +kernel

/-- Channel 0 holds the descriptor of a copy of 64 bytes from 0x40 to 0x2000, which also stands at 0x100; G[3] names it. -/
def channels (st : ChanState) : State :=
  let d : List Word := [1, 0x40, 0x2000, 64, 0, 0, 0, 0]
  let s := at_ 1 [(2, 0x100), (3, 0), (4, 1)] id fun k =>
    k.setCh 0 { Chan.zero with shadow := Vector.ofFn fun i => d.getD i.val 0, st := st, xid := 3 }
  { s with mem := memWrite s.mem 0x100 (d.map wordBytes).flatten }

theorem hyp_CopyChannelResults : let s := channels .idle; let o := s.opened
    (endsAt (.cpset 4 2) s ∧ (o.rdG 4).toNat < 2 ∧ addrBad (s.rdG 2) 64 64 = false ∧ o.ownSp (o.res (s.rdG 2)) = true ∧
      o.check (s.rdG 2) 64 0 64 = none ∧ (o.watch (s.rdG 2) 64 0).isNone = true ∧ ((s.committed (.cpset 4 2)).rdG 4).toNat < 2) ∧
    ((s.rdG 3).toNat < 2 ∧ cdRv (s.mine.ch 0).shadow = false ∧ cdKind (s.mine.ch 0).shadow = ckLINEAR ∧
      (∃ objs, cpgoCheck s 0 = .ok objs) ∧ endsAt (.cpgo 1 3) s ∧ cpHold o 0 noEntry noEntry = none ∧
      ((s.committed (.cpgo 1 3)).mine.ch 0).st ≠ .active ∧ ((s.committed (.cpgo 1 3)).die 0).locks.length ≤ 254) ∧
    (endsAt (.cpabort 3) (channels .active) ∧ (((channels .active).committed (.cpgo 1 3)).mine.ch 0).st = .active) :=
  ⟨by unfold endsAt runsC mayCommit; decide +kernel, ⟨by decide +kernel, by decide +kernel, by decide +kernel,
    ⟨_, ok_of (noEntry, noEntry) (by decide +kernel)⟩, by unfold endsAt runsC mayCommit; decide +kernel, by decide +kernel, by decide +kernel,
    by decide +kernel⟩, by unfold endsAt runsC mayCommit; decide +kernel⟩
/-- R187: the ring of the copy has advanced, and its push is on its way: `cpabort` waits. -/
def completing : State := (channels .active).modCh 0 0 fun h => { h with comp := 1 }
theorem hyp_CopyChannelResults_completing : endsAt (.cpabort 3) completing ∧ (completing.rdG 3).toNat = 0 ∧ completing.opened.me.nearOut = false ∧
    abortHold 0 completing.opened = some false ∧ endsAt (.cpabort 3) (channels .done) ∧ unheld (abortHold 0) (channels .done) := by
  unfold endsAt runsC mayCommit unheld; decide +kernel
theorem test_cpabort : (after (exec (.cpabort 3) (channels .active)) fun t => (t.mine.ch 0).st) = some .aborted ∧
    (after (exec (.cpabort 3) completing) fun t => ((t.mine.ch 0).st, t.iss.fate)) = some (.active, .held) := by decide +kernel
/-- A lock on one byte of die memory. -/
def aLock : Lock :=
  { dst := false, xid := 9, tenant := 0, first := 0x40000000000000, last := 0x40000000000000, mask := 0, core := 5, ch := 0, shrinks := false }

/-- R184: 255 entries of the lock table are taken: two do not fit. -/
theorem hyp_CopyChannelResults_full :
    let s := (channels .idle).modDie 0 fun d => { d with locks := List.replicate 255 aLock }
    254 < ((s.committed (.cpgo 1 3)).die 0).locks.length ∧ endsAt (.cpgo 1 3) s ∧ (∃ objs, cpgoCheck s 0 = .ok objs) ∧
      cpHold s.opened 0 noEntry noEntry = none :=
  ⟨by decide +kernel, by unfold endsAt runsC mayCommit; decide +kernel, ⟨_, ok_of (noEntry, noEntry) (by decide +kernel)⟩, by decide +kernel⟩
/-- R93, R100: the transfer id is a long result; R184: two locks are registered. -/
theorem test_cpgo : (after (exec (.cpgo 1 3) (channels .idle)) fun t => (t.me.long.map (·.val), (t.mine.ch 0).st, (t.die 0).locks.length)) =
    some ([some 1], .active, 2) ∧ (after (exec (.cpgo 1 3) (channels .active)) fun t => t.me.long.map (·.val)) = some [some 0] := by decide +kernel

/-- Channel 0 holds a descriptor; object 1 is a ring of the core, object 6 a BINSET of one bin, object 7 a CODE of two symbols of one
bit each, whose table stands at 0x2000. -/
def copies (d : List Word) : State :=
  let s := table [(8, 0x000004BFF00005F2), (9, 0x1000), (48, 0xF5), (49, 0x2000), (50, 0x40000000020000), (51, 0x40000000020100), (56, 0xF6), (57, 0x2000),
      (58, 0x2100), (60, 2)]
    (at_ 1 [(3, 0)] id fun k => k.setCh 0 { Chan.zero with shadow := Vector.ofFn fun i => d.getD i.val 0 })
  { s with mem := memWrite s.mem 0x2000 ([2] ++ List.replicate 29 0 ++ [8, 0, 0, 1]) }
/-- LINEAR with a ring; BINS of one token; DECODE to I8. -/
def withRing : State := copies [0x10011, 0x40, 0x3000, 64, 0, 0, 0, 0]
def binning : State := copies [0x600000004, 0x40, 0, 64, 1, 0, 0, 0x80]
def decoding : State := copies [0x700000005, 0x40, 0x4800000000003000, 0, 0, 0, 0, 0]
theorem hyp_CopyChannelResults_kinds : (cdRv (withRing.mine.ch 0).shadow = true ∧ ∃ objs, cpgoCheck withRing 0 = .ok objs) ∧
    (cdKind (binning.mine.ch 0).shadow = ckBINS ∧ ∃ objs, cpgoCheck binning 0 = .ok objs) ∧
    (cdKind (decoding.mine.ch 0).shadow = ckDECODE ∧ ∃ objs, cpgoCheck decoding 0 = .ok objs) :=
  ⟨⟨by decide +kernel, _, ok_of (noEntry, noEntry) (by decide +kernel)⟩, ⟨by decide +kernel, _, ok_of (noEntry, noEntry) (by decide +kernel)⟩,
    ⟨by decide +kernel, _, ok_of (noEntry, noEntry) (by decide +kernel)⟩⟩
theorem hyp_CopyChannelResults_issue : ∀ s ∈ [channels .idle, channels .active, withRing, binning, decoding],
    let u := walkDesc (.cpgo 1 3) s (s.mine.ch 0)
    endsAt (.cpgo 1 3) u ∧ mayLong u ∧ unheld (fun m => cpHold m 0 noEntry noEntry) u := by
  unfold endsAt runsC mayCommit mayLong unheld; decide +kernel
theorem hyp_CopyChannelResults_97 : let s := (channels .idle).modMe fun x => { x with long := (List.range 16).map fun i => helper.newLong i .none .word }
    let u := walkDesc (.cpgo 1 3) s (s.mine.ch 0)
    u.opened.canLong = false ∧ endsAt (.cpgo 1 3) u := by unfold endsAt runsC mayCommit; decide +kernel

theorem hyp_MailboxResults : let s := at_ 1 [(2, 0x3F), (3, 0x10000003F), (4, 5)]
    (∀ i ∈ [Instr.mbinc 2 4, .mbset 2 4, .mbinc 3 4], endsAt i s) ∧ mbOk (s.rdG 2) = true ∧ mbOk (s.rdG 3) = true ∧
    (s.committed (.mbinc 2 4)).ownSp ((s.committed (.mbinc 2 4)).res (s.rdG 2)) = true ∧
    (s.committed (.mbinc 3 4)).ownSp ((s.committed (.mbinc 3 4)).res (s.rdG 3)) = false ∧ runsC (.mbrd 1 3) s ∧ s.opened.canLong = true ∧
    s.opened.behind = false := by
  unfold endsAt runsC mayCommit; decide +kernel
/-- An `mbinc` at another core has not been performed. -/
def sentInc : State := let s := at_ 1 [(2, 0x3F), (3, 0x10000003F), (4, 5)]; { nextOf (.mbinc 3 4) s with iss := s.iss }
theorem hyp_MailboxResults_held : endsAt (.mbinc 2 4) sentInc ∧ endsAt (.mbset 2 4) sentInc ∧ mbOk (sentInc.rdG 2) = true ∧
    sentInc.opened.ownSp (sentInc.opened.res (sentInc.rdG 2)) = true ∧ sentInc.opened.behind = true := by
  unfold endsAt runsC mayCommit; decide +kernel
/-- R176, R188: the own counter is not changed before it. -/
theorem test_mbinc_held : (after (exec (.mbinc 2 4) sentInc) fun t => (vget t.mine.mbox 63 0, t.iss.fate == .issued)) = some (0, false) := by
  decide +kernel
theorem hyp_MailboxResults_rstat : let s := objects 1 1 0 1
    runsC (.rstat 1 2) (walkObj (.rstat 1 2) s 1) ∧ runsC (.rstat 1 3) (walkObj (.rstat 1 3) s 2) ∧
    (∃ e, ringUse (walkObj (.rstat 1 2) s 1).opened .stat 1 = .ok e) ∧ (∃ e, ringUse (walkObj (.rstat 1 3) s 2).opened .stat 2 = .ok e) :=
  ⟨by unfold runsC; decide +kernel, by unfold runsC; decide +kernel, ⟨_, ok_of noEntry (by decide +kernel)⟩, ⟨_, ok_of noEntry (by decide +kernel)⟩⟩
/-- R166, R188: the commit of an `mbinc` sends a far store of its own chunk, so the `mbinc` waits with its context. -/
def deferred : State := let s := at_ 1 [(2, 0x3F), (4, 5), (8, 0x40000000040), (3, 7)]; { nextOf (.st 3 4 8 0) s with iss := s.iss }
theorem test_mbinc_deferred : (after (exec (.mbinc 2 4) deferred) fun t => (t.me.rel.isSome, vget t.mine.mbox 63 0, t.net.length)) = some (true, 0, 1) ∧
    (performRelease (nextOf (.mbinc 2 4) deferred) 0 1).me.rel.isSome = true := by decide +kernel
theorem test_mbinc : (after (exec (.mbinc 2 4) (at_ 1 [(2, 0x3F), (4, 5)])) fun t => vget t.mine.mbox 63 0) = some 5 := by decide +kernel

/-! ## The accord, tasks, enfleurage, the alembic -/

/-- Ring 7 is bound to object 20, a ring of one-element FP32 panels for the accord, and ring 8 to object 21, the same; the
command queue holds `q` commands. -/
def accord (q : Nat) : State := at_ 1 [(2, 0x1800000000000040), (3, 0)] id fun k =>
  let cmd : AccCmd := { seq := 0, i := .mzero 0, ringA := 0, ringB := 0, ptr := 0, ltag := 0, begun := false, res := none, bind := false, band := false,
                        zp := false, clamp := false, oa := none, ob := none }
  let k := k.setRing 7 { Ring.zero with
    obj := some 20, entry := vset (vset noEntry 0 0x00028200000007F2) 1 0x1E00000000
    shape := some (vset (vset (vset (vset noEntry 0 0x1000100F1) 1 0x1800000000000000) 2 64) 3 1), w := 1 }
  let k := k.setRing 8 { Ring.zero with
    obj := some 21, entry := vset (vset noEntry 0 0x00028200000008F2) 1 0x1F00001000
    shape := some (vset (vset (vset (vset noEntry 0 0x1000100F1) 1 0x1800000000000000) 2 16) 3 1), w := 1 }
  { k with acc := { k.acc with q := List.replicate q cmd } }

theorem hyp_AccordWordResults : (let o := (accord 7).opened
    macCheck o o.mine 20 21 7 8 = none ∧ (accord 7).mine.ringOf 20 = some 7 ∧ (accord 7).mine.ringOf 21 = some 8 ∧ o.mine.acc.q.length < 8 ∧
    8 ≤ (accord 8).opened.mine.acc.q.length ∧ o.ownSp (o.res ((accord 7).rdG 2)) = true ∧ o.check ((accord 7).rdG 2) 1024 0 4 = none ∧
    mgetCheck o ((accord 7).rdG 2) = none ∧ o.canLong = true) ∧
    (∀ i ∈ [Instr.mmac 0 0 0 0 0 0 20 21 0, .mmac 3 1 1 1 1 1 20 21 1, .mzero 3, .mput 0 2, .mget 0 2], endsAt i (accord 7)) ∧
    endsAt (.mzero 0) (accord 8) ∧ runsC (.mwait 3) (accord 7) ∧ runsC (.mwait 3) (accord 0) ∧ runsC (.mstat 1) (accord 7) := by
  unfold endsAt runsC mayCommit; decide +kernel
theorem test_mmac : (after (exec (.mmac 0 0 0 0 0 0 20 21 0) (accord 0)) fun t => t.mine.acc.q.map fun x => (x.ringA, x.ringB)) =
    some [(7, 8)] := by decide +kernel
/-- R322: an operand object that no ring carries is OBJ, with reason 5. -/
theorem test_mmac_obj : (after (exec (.mmac 0 0 0 0 0 0 20 22 0) (accord 0)) fun t => t.mine.r.trapInfo0) = some 0x50016 := by decide +kernel

/-- G[2] names queue 1 of core 0, G[3] and G[10] the PC 0x200, G[6] a mailbox counter; a node descriptor with count 2
stands at 0x80, which G[4] names. G[5] is a child's frame of core 0. -/
def tasks (n : SlotNo) (x : Ctx → Ctx := id) (k : Core → Core := id) : State :=
  let s := at_ n [(2, 1), (3, 0x200), (4, 0x80), (6, 0x3F), (7, 0x10000003F), (10, 0x200), (63, 0)] x k
  { s with mem := memWrite s.mem 0x80 ((List.map wordBytes [0x200, 7, 8, 0x200000000]).flatten) }

/-- A deque entry for a frame. -/
def entry (frame : Word) : DqEntry :=
  { slot := 1, occ := 0, priv := false, tenant := 0, frame := frame, arch := Arch.zero, succ := 0, inv := Inv.zero, member := false, before := [],
    leaving := none }

theorem hyp_TaskWordResults : (let s := tasks 1; let o := s.opened
    (endsAt (.amsg 1 2 3) s ∧ amsgOk (s.rdG 2) = true ∧ fetchOkOn (pDev (o.res (s.rdG 2))) (pCore (o.res (s.rdG 2))) (s.rdG 3) = true ∧ o.canLong = true) ∧
    (endsAt (.tgnew 1 4) s ∧ o.ownSp (o.res (s.rdG 4)) = true ∧ o.check (s.rdG 4) 32 0 8 = none ∧ (o.watch (s.rdG 4) 32 0).isNone = true ∧
      nodeBad o (nodeDesc s (s.rdG 4)) = false ∧ o.behind = false ∧ (nodeOf (s.committed (.tgnew 1 4)) (nodeDesc s (s.rdG 4)) 0).count ≠ 0) ∧
    endsAt .tgdone s ∧ (s.committed .tgdone).me.succ = 0 ∧ endsAt .tgdone (tasks 1 fun x => { x with succ := 0x8000 }) ∧
    ((tasks 1 fun x => { x with succ := 0x8000 }).committed .tgdone).me.succ ≠ 0) := by unfold endsAt runsC mayCommit; decide +kernel
theorem hyp_TaskWordResults_node : freeNode (((tasks 1).committed (.tgnew 1 4)).die 0).tgu = some 0 := by decide +kernel

theorem kget_map {α : Type} (l : List Nat) (a : α) (j : Nat) (h : j ∈ l) : kget (l.map fun i => (i, a)) j = some a := by
  induction l with
  | nil => simp at h
  | cons x t ih =>
    by_cases hx : x = j
    · simp [kget, hx]
    · simp only [List.map_cons, kget, hx, if_false]
      exact ih (by simpa [Ne.symm hx] using h)
theorem freeNode_none (t : Tgu) (h : ∀ i, i ∈ List.range 8192 → (kget t.nodes i).isSome = true) : freeNode t = none := by
  unfold freeNode
  rw [List.find?_eq_none]
  intro i hi
  have := h i hi
  simp only [Option.isNone_iff_eq_none]
  intro h'
  simp [h'] at this
/-- R363: every entry of the unit is live. -/
theorem hyp_TaskWordResults_noNode (x : Node) : freeNode { Die.zero.tgu with nodes := (List.range 8192).map fun i => (i, x) } = none :=
  freeNode_none _ fun i hi => by simp only [kget_map _ x i hi]; rfl

theorem hyp_TaskWordResults_launch : let s := objects 1 0 0 0; let i := Instr.tglaunch 1 4; let u := walkObj i s 3
    endsAt i u ∧ unheld (tglaunchHold (valOf noEntry (useObj u 3 kLAUNCH rENG))) u ∧ (∃ e, useObj u 3 kLAUNCH rENG = .ok e) ∧
      launchReason (walkGang (u.committed i) (valOf noEntry (useObj u 3 kLAUNCH rENG))) (valOf noEntry (useObj u 3 kLAUNCH rENG)) none = 0 ∧ nextTag 0 ((u.committed i).die 0).tgu = some (1, 2) :=
  ⟨by unfold endsAt runsC mayCommit; decide +kernel, by unfold unheld; decide +kernel, ⟨_, ok_of noEntry (by decide +kernel)⟩, by decide +kernel, by decide +kernel⟩
/-- R367: no core carries the launch's tenant in its queue: reason 3. -/
theorem hyp_TaskWordResults_refusal : let s := (objects 0 0 0 0).modCore 0 fun k => { k with r := { k.r with qwgt := 0x1000100010001001 } }
    let i := Instr.tglaunch 1 4; let u := walkObj i s 3
    endsAt i u ∧ u.opened.behind = false ∧ u.opened.canLong = true ∧ (trapOf (useObj u 3 kLAUNCH rENG)).isNone = true ∧
      laGang (valOf noEntry (useObj u 3 kLAUNCH rENG)) = false ∧ launchReason (walkGang (u.committed i) (valOf noEntry (useObj u 3 kLAUNCH rENG))) (valOf noEntry (useObj u 3 kLAUNCH rENG)) none = 3 := by unfold endsAt runsC mayCommit; decide +kernel
theorem hyp_TaskWordResults_spawn : (let s := tasks 1; let i := Instr.spawn 6 0x3FFFE
    endsAt i s ∧ mbOk (s.rdG 6) = true ∧ targetOf s.iss.pc (0x3FFFE : BitVec 18).toInt = some 0xF0 ∧ s.opened.mine.longOf s.iss.slot = 0 ∧
    (s.committed i).nextPc = some 0x108 ∧ (s.committed i).mine.sched.deque.length < 32) ∧
    (let s := tasks 1 id fun k => { k with sched := { k.sched with deque := List.replicate 32 (entry 0x3F) } }
     endsAt (.spawn 6 2) s ∧ 32 ≤ (s.committed (.spawn 6 2)).mine.sched.deque.length) := by unfold endsAt runsC mayCommit; decide +kernel
/-- The deque's youngest entry is that of the frame of G[6]. -/
def forked : State := tasks 1 id fun k => { k with sched := { k.sched with deque := [entry 0x3E, entry 0x3F] } }
theorem hyp_TaskWordResults_spend : (let s := tasks 1; let i := Instr.spend 6
    s.opened.early i = none ∧ mayCommit s ∧ s.opened.behind = false ∧ mbOk (s.rdG 6) = true ∧ s.rdG 63 = 0 ∧ (∀ e ∈ s.opened.mine.sched.deque, e.leaving = none) ∧
    youngest (s.committed i) = none ∧ (s.committed i).ownSp ((s.committed i).res (s.rdG 6)) = true ∧
    (s.committed i).ownSp ((s.committed i).res (s.rdG 7)) = false ∧ mbOk (s.rdG 7) = true ∧ s.opened.early (.spend 7) = none) ∧
    (youngest (forked.committed (.spend 6))).map (fun p => (p.1, p.2.frame)) = some (1, 0x3F) ∧ forked.rdG 63 = 0 ∧ forked.opened.early (.spend 6) = none ∧
    (let s := at_ 1 [(6, 0x3F), (63, 0x200)]; s.rdG 63 ≠ 0 ∧ s.opened.fetchOk (s.rdG 63) = true ∧ s.opened.early (.spend 6) = none ∧ mayCommit s) := by
  unfold mayCommit; decide +kernel
theorem test_spend : (after (exec (.spend 6) forked) fun t => (t.mine.sched.deque.length, vget t.mine.mbox 63 0)) = some (1, 0) ∧
    (after (exec (.spend 6) (tasks 1)) fun t => (t.me.retiring, vget t.mine.mbox 63 0)) = some (true, 1) := by decide +kernel
theorem test_spawn : (after (exec (.spawn 6 2) (tasks 1)) fun t => (t.mine.sched.deque.map (·.frame), t.me.a.pc)) = some ([0x3F], 0x110) := by
  decide +kernel
theorem test_tgnew : (after (exec (.tgnew 1 4) (tasks 1)) fun t => ((t.die 0).tgu.nodes.map (·.1), t.me.long.map (·.val))) =
    some ([0], [some 0x8000]) := by decide +kernel

/-- An invocation state. -/
def invoc (ist : BitVec 3) (nin : Nat) (pend : Bool := false) : State :=
  (objects 1 0 0 0).modMe fun x => { x with inv := { x.inv with ist := ist, nin := nin, nout := 15, pend := pend } }

theorem hyp_EnfleurageWordResults : endsAt (.apxIn 2) (invoc 0 0) ∧ endsAt (.apxIn 2) (invoc 1 31) ∧ endsAt (.apxOut 15 2) (invoc 2 1) ∧
    endsAt (.apxOut 0 2) (invoc 4 1) ∧ endsAt (.apxRes 1 15) (invoc 3 1) ∧ (invoc 3 1).opened.canLong = true ∧ endsAt .apxEnd (invoc 2 1) ∧
    endsAt .apxEnd (invoc 3 1) ∧ (invoc 3 1).opened.me.inv.pend = false ∧ ((invoc 2 1).committed .apxEnd).iss.slot.toNat < 11 := by
  unfold endsAt runsC mayCommit; decide +kernel
theorem hyp_EnfleurageWordResults_region : let s := invoc 1 1
    (∀ i ∈ [Instr.apxOn 1 5, .apxInv 5, .apxSt 1 5, .apxLd 1 5], endsAt i (walkObj i s 4)) ∧
    (∃ e, regionUse (walkObj (.apxOn 1 5) s 4) (s.rdG 5) rR = .ok e) ∧ (∃ e, regionUse (walkObj (.apxInv 5) s 4) (s.rdG 5) rW = .ok e) ∧
    (walkObj (.apxOn 1 5) s 4).opened.me.inv.nin = rgNin (valOf noEntry (regionUse (walkObj (.apxOn 1 5) s 4) (s.rdG 5) rR)) + 1 ∧
    (s.rdG 5).extractLsb' 32 32 = 0 ∧ apxSelCheck (walkObj (.apxSt 1 5) s 4).opened (s.rdG 5) = none ∧
    (s.engine 0).find 0 4 = none :=
  ⟨by unfold endsAt runsC mayCommit; decide +kernel, ⟨_, ok_of noEntry (by decide +kernel)⟩, ⟨_, ok_of noEntry (by decide +kernel)⟩,
    by decide +kernel, by decide +kernel, by decide +kernel, by decide +kernel⟩
/-- R407: the engine holds a region of the object. -/
theorem hyp_EnfleurageWordResults_bound : let s := nextOf (.apxOn 1 5) (invoc 1 1)
    (s.engine 0).find 0 4 = some 0 ∧ ((s.engine 0).at_ 0).isSome = true := by decide +kernel
theorem test_apxIn : (after (exec (.apxIn 8) (invoc 0 0)) fun t => (t.me.inv.ist, t.me.inv.nin, vget t.me.inv.inp 0 0)) = some (1, 1, 9) := by decide +kernel

theorem hyp_AlembicWordResults : let s := (objects 1 0 0 0).modMe fun x => { x with hold := vset x.hold 0 0 }
    (∀ i ∈ [Instr.cbDone 6 2, .cbEnd 6, .cbSt 1 6, .cbPush 6 10 7, .cbPull 10 6 7], endsAt i (walkObj i s 5)) ∧
    (∃ e, streamUse (walkObj (.cbDone 6 2) s 5) 5 rR = .ok e) ∧ (∃ e, streamUse (walkObj (.cbEnd 6) s 5) 5 rW = .ok e) ∧
    (∃ e, streamUse (walkObj (.cbSt 1 6) s 5).opened 5 rR = .ok e) ∧ (s.rdG 6).extractLsb' 18 46 = 0 ∧
    (walkObj (.cbSt 1 6) s 5).opened.canLong = true ∧ (walkObj (.cbDone 6 2) s 5).opened.behind = false :=
  ⟨by unfold endsAt runsC mayCommit; decide +kernel, ⟨_, ok_of noEntry (by decide +kernel)⟩, ⟨_, ok_of noEntry (by decide +kernel)⟩,
    ⟨_, ok_of noEntry (by decide +kernel)⟩, by decide +kernel, by decide +kernel, by decide +kernel⟩
/-- A push opens the stream, and its constraint is admitted; a pull takes it (state 2). -/
theorem test_cbPush : (after (exec (.cbPush 6 10 7) (objects 1 0 0 0)) fun t => ((t.stream 0 1).st, (t.stream 0 1).cons.map (·.st))) =
    some (1, [1]) := by decide +kernel
theorem test_cbPull : (after (exec (.cbPull 20 6 7) (nextOf (.cbPush 6 10 7) (objects 1 0 0 0))) fun t => (t.stream 0 1).cons.map (·.st)) =
    some [2] := by decide +kernel
/-- Nothing more is admitted: a pull waits. -/
theorem test_cbPull_waits : (after (exec (.cbPull 28 6 7) (nextOf (.cbPull 20 6 7) (nextOf (.cbPush 6 10 7) (objects 1 0 0 0)))) fun t => t.me.st) =
    some .waiting := by decide +kernel

/-! ## Helpers, traps and control registers -/

/-- The control context beside a helper in slot 1 in UPCALL, whose record is written; G[2] = 1, G[3] = 0x800. -/
def upcalled (recorded : Bool) : State :=
  (at_ 0 [(2, 1), (3, 0x800), (4, 0x200)]).modCtx 0 1 fun x => { x with st := .upcall, recorded := recorded, priv := false }

theorem hyp_HelperWordResults : (let s := upcalled true; let o := s.opened
    (∀ i ∈ [Instr.hstart 1 4, .hload 2 3, .hresume 2, .hsave 2 3], endsAt i s) ∧ o.fetchOk (o.rdG 4) = true ∧ o.canLong = true ∧
    1 ≤ (o.rdG 2).toNat ∧ (o.rdG 2).toNat ≤ 10 ∧ (o.mine.ctx 1).st = .upcall ∧ (o.mine.ctx 1).recorded = true ∧ (o.mine.ctx 1).replay = [] ∧
    imageCheck o (o.rdG 3) 0 = none ∧ imageCheck o (o.rdG 3) 1 = none ∧ imageRefused o (imageAt o (o.rdG 3)) = none ∧
    imageWatch o (o.rdG 3) 0 = none ∧ imageWatch o (o.rdG 3) 1 = none ∧
    (s.committed (.hload 2 3)).rdG 2 = o.rdG 2 ∧ ((s.committed (.hsave 2 3)).mine.ctx 1).st = .upcall ∧ (s.committed (.hsave 2 3)).mine.longOf 1 = 0 ∧
    (s.committed (.hsave 2 3)).writeHeld (spKey 0 0x800) 2048 = false) ∧ ((upcalled false).opened.mine.ctx 1).recorded = false ∧
    endsAt (.hsave 2 3) (upcalled false) ∧ helper.opened.early .hend = none ∧ mayCommit helper := by
  unfold endsAt runsC mayCommit; decide +kernel
theorem test_hstart : (after (exec (.hstart 1 4) (upcalled true)) fun t => (t.mine.sched.hstart.map (·.pc), t.me.long.length)) =
    some ([0x200], 1) := by decide +kernel
/-- R188: a store to another die has been sent by an earlier chunk, and one waits in the buffer of the chunk that `hend` ends. -/
def farOut : State := (nextOf (.st 3 4 6 0) (at_ 1 [(6, 0x40000000040)])).committed .hend
def farStored : State := nextOf (.st 3 4 6 0) (at_ 1 [(6, 0x40000000040)])
theorem hyp_HelperWordResults_release : released helper ∧
    (farOut.opened.behind = true ∧ farOut.opened.me.nearOut = false ∧ farOut.opened.early .hend = none ∧ mayCommit farOut) ∧
    (farStored.opened.behind = false ∧ (farStored.committed .hend).behind = true ∧ mayCommit farStored ∧ farStored.opened.early .hend = none) := by
  unfold mayCommit released; decide +kernel
theorem test_hend : (after (exec .hend farOut) fun t => (t.iss.fate, t.me.retiring)) = some (.held, false) ∧
    (after (exec .hend farStored) fun t => (t.me.rel.map (·.i), t.me.retiring)) = some (some .hend, false) := by decide +kernel
theorem test_hresume : (after (exec (.hresume 2) (upcalled true)) fun t => ((t.mine.ctx 1).st, (t.mine.ctx 1).later)) = some (.ready, true) := by
  decide +kernel

/-- A trap of a helper. -/
def aTrap : Pend := { cause := cADDR, info0 := 5, info1 := 6, pc := 0x100, fpc := 0x100, aux := 0, aux2 := 0, wonly := false, dfr := false }

/-- BUSY is set for a slot. -/
def busy (n : Nat) : State := helper.modCore 0 fun k => { k with r := { k.r with trapCause := BitVec.ofNat 64 (2 ^ 63 + n * 2 ^ 8) } }

theorem hyp_TrapEntry : (10 : SlotNo).toNat < 11 ∧ (helper.core 0).busyBit = false ∧ fetchOkAt helper 0 (helper.core 0).r.trapVec = true ∧
    ((busy 1).core 0).busyBit = true ∧ ((busy 1).core 0).busyCtx = 1 ∧ ((busy 2).core 0).busyCtx ≠ 1 ∧ (helper.core 0).holder.isNone = true ∧
    (helper.core 0).bankq = [] := by decide +kernel
/-- R340: cause, context and BUSY. -/
theorem test_trap_cause : ((enterPriv helper 0 1 aTrap).core 0).r.trapCause = 0x8000000000000103 := by decide +kernel

/-- Privileged software of slot 1 with a trap of slot 1 taken in user mode; TRAP.VEC is 0x40. -/
def trapped : State :=
  let s := at_ 1 [(2, 1)] (fun x => { x with priv := true }) fun k =>
    { k with trapArea := some 0x30000, r := { k.r with trapCause := 0x8000000000000103, trapPc := 0x500, trapVec := 0x40 } }
  { s with mem := memWrite s.mem (dmKey 0 0x30000) [9] }

theorem hyp_TrapReturn : trapped.opened.early .eret = none ∧ mayCommit trapped ∧ trapped.opened.fetchOk trapped.opened.mine.r.trapPc = true ∧
    trapped.iss.slot.toNat < 11 ∧ (trapped.committed .eret).mine.r.trapCause.getLsbD 62 = false ∧
    (trapped.committed .eret).mine.holds (trapped.committed .eret).iss.slot = false := by unfold mayCommit; decide +kernel
theorem test_eret : (after (exec .eret trapped) fun t => (t.me.a.pc, t.me.priv, t.mine.busyBit, t.nowG 56)) = some (0x500, false, false, 9) := by
  decide +kernel
theorem hyp_SystemWordResults : (∀ i ∈ [Instr.trap 2, .brk], endsAt i helper) ∧ helper.iss.slot.toNat < 11 ∧ helper.opened.mine.busyBit = false ∧
    (let m := helper.committed .brk; m.nextPc = some 0x108 ∧ m.mine.busyBit = false ∧ goesPriv m.mine m.iss.slot cBRK = true ∧
      goesPriv m.mine m.iss.slot cSERVICE = true ∧ fetchOkAt m m.iss.core m.mine.r.trapVec = true) ∧
    (let s := at_ 1 [(2, 0x40040000010000)]; endsAt (.pshare 1 2) s ∧ pshareCheck s.opened (s.opened.rdG 2) = none ∧ s.opened.canLong = true) ∧ endsAt .halt trapped := by
  unfold endsAt runsC mayCommit; decide +kernel
theorem test_trap : (after (exec (.trap 2) helper) fun t => (t.mine.r.trapPc, t.mine.r.trapInfo0, t.mine.r.trapCause)) =
    some (0x108, 7, 0x8000000000000110) := by decide +kernel

/-- Words that are no bundle behind a chunk of one bundle, whose store waits. -/
def stored1 : State :=
  (stored.modMe fun x => { x with chunk := x.chunk.map fun ch => { ch with n := 1 } }).modMine fun k => { k with trapArea := some 0x30000 }
theorem hyp_SystemWordResults_words :
    let o := fun (s : State) => ({ s.opened with iss := { s.opened.iss with fate := .trapped } } : State)
    let fits := fun (m : State) => m.mine.busyBit = false ∧ fetchOkAt m m.iss.core m.mine.r.trapVec = true
    decodeBundle 0x0D000000 0 = .bad 1 ∧ helper.iss.slot.toNat < 11 ∧ (o helper).me.chunk.map (·.n) = some 0 ∧ (o helper).mine.busyBit = false ∧
    fits ((o helper).modMe fun x => { x with chunk := none, dfault := none }) ∧ stored1.iss.slot.toNat < 11 ∧
    (o stored1).me.chunk.map (·.n) ≠ some 0 ∧ (o stored1).me.nearOut = false ∧ (commitChunk (o stored1) 0 1).2 = true ∧ (o stored1).mine.busyBit = false ∧
    (o stored1).iss.core = 0 ∧ (o stored1).iss.slot = 1 ∧ fits (commitChunk (o stored1) 0 1).1 := by decide +kernel
theorem test_unassigned : (after (exec (.unassignedEncoding 0x0D000000 0) stored1) fun t =>
    (t.mine.r.trapPc, t.mine.r.trapInfo0, t.me.priv, memNat t.mem 0x3FFF8 8)) = some (0x100, 1, true, 0x1122334455667788) := by decide +kernel

/-- A context in HANDLER, with h1 = 0x300; the control context in an upcall, whose header is at 0x40. -/
def handler : State := at_ 1 [] (fun x => x) fun k => { k with holder := some 1, h := vset k.h 1 0x300 }
def upcall : State :=
  let s := at_ 0 [] id fun k => { k with r := { k.r with upcBase := 1, upcMask := true, upcPc := 0x600 } }
  { s with mem := memWrite s.mem 0x48 [7] }

theorem hyp_SystemWordResults_returns : handler.opened.early .hret = none ∧ mayCommit handler ∧ (∀ l ∈ handler.opened.me.long, l.byHandler = false) ∧
    (handler.committed .hret).fetchOk (vget (handler.committed .hret).mine.h 1 0) = true ∧ upcall.opened.early .upret = none ∧ mayCommit upcall ∧
    upcall.opened.fetchOk upcall.opened.mine.r.upcPc = true ∧ upcall.iss.slot.toNat < 11 ∧
    (upcall.committed .upret).mine.holds (upcall.committed .upret).iss.slot = false := by unfold mayCommit; decide +kernel
theorem test_hret : (after (exec .hret handler) fun t => (t.me.a.pc, t.mine.holder)) = some (0x300, none) := by decide +kernel
theorem test_upret : (after (exec .upret upcall) fun t => (t.me.a.pc, t.nowG 60, t.mine.r.upcMask)) = some (0x600, 7, false) := by decide +kernel

theorem hyp_ControlRegisterWrites : (let s := helper; crWriteTrap s.opened 0 5 (s.opened.rdG 2) = none ∧ endsChunk (.crw 2 5) = false ∧ runsC (.crw 2 5) s) ∧
    (let s := trapped; crWriteTrap s.opened 1 0x801 (s.opened.rdG 2) = none ∧ endsChunk (.crs 2 0x801) = true ∧ endsAt (.crs 2 0x801) s) := by
  unfold endsAt runsC mayCommit; decide +kernel
theorem hyp_ControlRegisterReadback : crExists 1 = true ∧ helper.iss.slot.toNat < 11 ∧ (1 : BitVec 12) ≠ 0x41 ∧ (1 : BitVec 12) ≠ 0x809 ∧
    (1 : BitVec 12) ≠ 0x10 := by decide +kernel
theorem hyp_TrapChecks : decodeBundle 0x0D000000 0 = .bad 1 ∧ (let s := helper.modMe fun x => { x with a := { x.a with sg := 4 } }
      let s := { s with iss := { s.iss with src := none } }
      s.isShadow 2 = false ∧ s.src.sg.getLsbD (2 : RF).toNat = true) ∧
    helper.opened.me.priv = false ∧ trapped.opened.me.priv = true ∧ helper.opened.mine.holds helper.opened.iss.slot = false ∧
    helper.opened.iss.slot ≠ 0 ∧ control.opened.iss.slot = 0 ∧ 0x800 ≤ (0x800 : BitVec 12).toNat ∧ 0x800 ≤ (0xFFF : BitVec 12).toNat ∧
    (∀ i ∈ [Instr.crr 1 0x800, .crw 1 0x800, .crs 1 0xFFF, .crc 1 0x801], runsC i helper) := by unfold runsC; decide +kernel
theorem hyp_TrapChecks_access : let o := loads.opened
    (∀ i ∈ [Instr.ld 3 1 5 8, .st 3 1 5 8], runsC i loads) ∧ moveOff (o.rdG 5) (8 : BitVec 12).toInt = none ∧
    moveOff (o.rdG 2) (1 : BitVec 12).toInt = some 0x41 ∧ o.check 0x41 8 0 8 = some (o.tAddr 0x41) ∧ pOff (0x41 : Word) % 8 ≠ 0 ∧
    mbzOk 0x40000 = false ∧
    (let s := (at_ 1 [] id fun k => { k with r := { k.r with protSize := Vector.replicate 8 0 } }).opened
     addrBad 0x40 8 8 = false ∧ s.ownSp (s.res 0x40) = true ∧ protOk s.mine s.tenant s.me.priv (pOff 0x40) 8 0 = false) := by
  unfold runsC; decide +kernel
theorem test_hazard : let s := helper.modMe fun x => { x with a := { x.a with sg := 4 } }
    (after (exec (.add 1 2 3 0) { s with iss := { s.iss with src := none } }) fun t => (t.mine.r.trapCause.extractLsb' 0 8, t.mine.r.trapInfo0)) =
      some (0x02, 2) := by decide +kernel
theorem test_prot : causeAfter (.crr 1 0x800) helper = some (true, 0x04) ∧ causeAfter .halt helper = some (true, 0x01) := by decide +kernel
theorem hyp_EndingWordFrame : reads.iss.fate = .issued ∧ ∀ i ∈ [Instr.kclaim 1 2 3, .kscan 1, .kcfg 4 9 0x100, .apxIn 2, .hend],
    (after (exec i reads) fun t => t.iss.fate) = some .issued := by decide +kernel

/-! ## What may hold a word back, for every statement that asks that it does not -/

theorem hyp_mayLong : mayLong loads ∧ mayLong (inbox 1) ∧ mayLong (tasks 1) ∧ mayLong (invoc 3 1) ∧ mayLong (accord 7) ∧ mayLong (upcalled true) ∧
    mayLong (at_ 1 [(2, 0x40040000010000)]) := by unfold mayLong; decide +kernel
theorem hyp_released : released loads ∧ released (inbox 1) ∧ released reads ∧ released (walkRing (.rpush 2) (objects 1 1 0 1) .push 1) ∧
    released (at_ 1 [(2, 0x3F), (3, 0x10000003F), (4, 5)]) ∧ released (tasks 1) ∧
    released (walkObj (.cbDone 6 2) (objects 1 0 0 0) 5) := by unfold released; decide +kernel
theorem hyp_unheld : unheld (fun m => m.holdWrite (m.ownKey (loads.rdG 5)) 8) loads ∧ unheld (fun m => m.holdWrite (m.ownKey (loads.rdG 2)) 4) loads ∧
    unheld (fun m => if (m.mine.ring 0).inboxFull then none else m.holdWrite (spKey m.iss.core ((m.mine.ring 0).slotOff (m.mine.ring 0).w)) 64) (inbox 1) ∧
    unheld holdQueue (accord 7) ∧
    unheld (abortHold 0) (channels .active) ∧ unheld (abortHold 0) (channels .idle) ∧
    unheld spawnHold (tasks 1) ∧ unheld (spendHold 0x3F 0) (tasks 1) ∧ unheld (spendHold 0x3F 0) forked ∧
    unheld (fun u => if u.me.inv.pend then some false else none) (invoc 2 1) ∧
    unheld (fun u => if u.oldLong.any (·.byHandler) then some false else none) handler := by unfold unheld; decide +kernel
theorem hyp_TaskWordResults_leaving : let s := tasks 1 id fun k => { k with sched := { k.sched with deque := [{ entry 0x3F with leaving := some 5 }] } }
    (s.opened.mine.sched.deque.any (·.leaving.isSome)) = true ∧ s.rdG 63 = 0 ∧ s.opened.early (.spend 6) = none ∧ mayCommit s ∧ mbOk (s.rdG 6) = true := by
  unfold mayCommit; decide +kernel
/-- A context waits for counter 63 of its core, whose condition holds. -/
theorem hyp_MailboxResults_wake : let w := helper.newWait (.mbwait 5 6 7) [0x3F, 1] none
    let s := (helper.modCore 0 fun k => { k with mbox := vset k.mbox 63 1 }).modCtx 0 2 fun x => { x with st := .waiting, wait := some w }
    (s.ctx 0 2).wait = some w ∧ (s.ctx 0 2).isWaiting = true ∧ (s.core 0).tests 2 = true ∧ mbIdx (w.vals.headD 0) = 63 ∧
    0 ≤ (vget (s.core 0).mbox 63 0 - (w.vals.getD 1 0).extractLsb' 0 32).toInt := by decide +kernel

/-- The entry of the region of `objects`: a region of one input and one output. -/
def anEntry : Vector Word 8 := valOf noEntry (regionUse (walkObj (.apxOn 1 5) (invoc 1 1) 4) ((invoc 1 1).rdG 5) rR)
/-- The engine's one region in a state. -/
def aRegion (st : Nat) : Region := { newRegion 0 4 anEntry 0 with st := st }
def regioned (st : Nat) : State := (invoc 1 1).setEngine 0 { (invoc 1 1).engine 0 with regions := [some (aRegion st)] }
theorem hyp_EnfleurageWordResults_states : (∀ st ∈ [0, 1, 2, 3, 4, 5, 6, 7, 8], ((regioned st).engine 0).find 0 4 = some 0 ∧
      (((regioned st).engine 0).at_ 0).map (·.st) = some st ∧ (aRegion st).entry = anEntry) ∧ (aRegion 0).params ≠ [] ∧
    ((invoc 1 1).engine 0).freeEntry.isSome = true ∧ (((invoc 1 1).engine 0).freeRun (paramCount (rgWidths anEntry))).isSome = true ∧
    (aRegion 4).entry ≠ noEntry ∧
    (((invalidate (regioned 4) 0 1 0 0 (aRegion 4)).engine 0).freeRun (paramCount (rgWidths anEntry))).isSome = true ∧
    outOfBounds (aRegion 4) [0x3F800000] = true ∧ outOfBounds { aRegion 4 with mins := List.replicate 32 0, maxs := List.replicate 32 0x40000000 } [0x3F800000] = false := by
  decide +kernel
/-- R417: the region's entry has changed, or it is INVALIDATED, and there is room, or none; R426: a word of the entry past those bound. -/
theorem hyp_EnfleurageWordResults_stale : ((invalidate (regioned 9) 0 1 0 0 (aRegion 9)).engine 0).freeRun (paramCount (rgWidths anEntry)) ≠ none ∧
    (let s := (regioned 9).setEngine 0 { (regioned 9).engine 0 with
        regions := [some { aRegion 9 with params := [] }, some { newRegion 1 4 anEntry 0 with params := List.replicate 131072 0 }] }
     (s.engine 0).find 0 4 = some 0 ∧ (((invalidate s 0 1 0 0 { aRegion 9 with params := [] }).engine 0).freeRun (paramCount (rgWidths anEntry))).isNone = true) ∧
    0 < (aRegion 0).params.length ∧ (aRegion 0).params.length ≤ paramCount (rgWidths anEntry) := by decide +kernel
theorem hyp_EnfleurageWordResults_bounds : 0 < rgBatch anEntry ∧ 0 < rgEval anEntry ∧ 0 < rgPeriod anEntry := by decide +kernel
/-- A stream that admits a push, one that forms a group, one whose pull is served. -/
theorem hyp_AlembicWordResults_stream : let s := nextOf (.cbPush 6 10 7) (objects 1 0 0 0)
    (s.stream 0 1).st = 1 ∧ (s.stream 0 1).pullReady 0 5 = true ∧ ((objects 1 0 0 0).stream 0 1).pushReady 0 5 = true ∧
    ((objects 1 0 0 0).stream 0 1).st = 0 ∧ ((nextOf (.cbPull 20 6 7) s).stream 0 1).pullReady 0 5 = false ∧
    ({ (s.stream 0 1) with cons := List.replicate 2048 { id := 0, bodies := [], ticket := 0, reissue := false, st := 0 } } : Stream).pushReady 0 5 = false ∧
    (({ (s.stream 0 1) with cons := (s.stream 0 1).cons.map fun c => { c with st := 0 } } : Stream).form).isSome = true := by decide +kernel
theorem hyp_HelperWordResults_resume : let o := (upcalled true).opened
    o.fetchOk (o.mine.ctx 1).a.pc = true ∧ ((upcalled true).committed (.hresume 2)).rdG 2 = o.rdG 2 := by decide +kernel
/-- R186: a lock of another context on the bytes at 0x40; R147: the tables of `mapped`. -/
def lockedOwn : State :=
  let l : Lock := { dst := true, xid := 9, tenant := 0, first := spPtr 0 0 0x40, last := spPtr 0 0 0x7F, mask := 0, core := 5, ch := 0, shrinks := false }
  loads.modDie 0 fun d => { d with locks := [l] }
theorem hyp_TrapChecks_locks : addrBad 0x40 8 8 = false ∧ (lockedOwn.checkProt 0x40 8 0).isNone = true ∧
    ((lockedOwn.die 0).locks.all fun l => l.dst && lockMeets lockedOwn l lockedOwn.tenant (lockedOwn.res 0x40) 8) = true ∧
    ((lockedOwn.die 0).locks.all fun l => !lockMeets lockedOwn l lockedOwn.tenant (lockedOwn.res 0x80) 8) = true := by decide +kernel

/-! ## Events -/

/-- A request of slot 1 of core 0, with number 7. -/
def aReq (body : Body) (reply : Reply) : Req :=
  { id := 7, core := 0, slot := 1, occ := 0, tenant := 0, priv := false, wid := 0, widf := 0, ltag := 0, ord := false, dest := .dev 0, tso := false,
    ret := false, body := body, given := none, phys := [], reply := reply, cancel := false, orphan := false }

/-- The state with requests on their way. -/
def withNet (rs : List Req) (s : State := helper) : State := { s with net := rs }

theorem hyp_ControlRegisterEvents : let x : Word := 0x3C00000 + 0x380000 + 0x100
    (x.extractLsb' 18 4).toNat = 14 ∧ (x.extractLsb' 4 14).toNat = 16 ∧ 16 * 16 + ((x.extractLsb' 22 12).toNat + 1) * 2 ^ 14 > 2 ^ 18 ∧
    (let y : Word := 0x2400000 + 0x100000 + 0x100; 4 ≤ (y.extractLsb' 18 4).toNat ∧ (y.extractLsb' 18 4).toNat ≤ 14 ∧
      16 * (y.extractLsb' 4 14).toNat + ((y.extractLsb' 22 12).toNat + 1) * 2 ^ (y.extractLsb' 18 4).toNat ≤ 2 ^ 18 ∧
      (helper.core 0).km.offset.toNat ≠ (y.extractLsb' 4 14).toNat) := by decide +kernel
/-- R393: the host links of a machine are up, or all are down. -/
theorem hyp_hostLinks : hostUp helper 2 = true ∧ ∀ d : BitVec 2, hostUp { helper with downLinks := [16, 17, 18, 19] } d = false := by decide +kernel
theorem test_devId : (after (exec (.devIdWrite 5) helper) (·.devId)) = some 5 ∧
    (after (exec (.devIdWrite 5) { helper with downLinks := [16, 17, 18, 19] }) (·.devId)) = some 0 := by decide +kernel
theorem test_slotOwn : (after (exec (.slotOwnWrite 0 0) helper) fun t => ((List.range 3).map fun i => ownerQ (t.core 0).r.slotOwn (i + 1))) =
    some [0, 0, 0] := by decide +kernel
/-- The machine at a stage of bring-up, its firmware accepted or its keys made. -/
def atStage (n : Nat) : State :=
  { State.reset with stage := n, fw := { State.reset.fw with accepted := decide (5 ≤ n), keys := decide (6 ≤ n) },
                     dies := if n = 7 then Vector.replicate 4 { Die.zero with svc := 0x0E } else State.reset.dies }
theorem hyp_BringUpEvents : State.reset.mem.wf = true ∧ State.reset.stage = 2 ∧ (atStage 3).stage = 3 ∧ (atStage 4).stage = 4 ∧
    ((atStage 5).stage = 5 ∧ (atStage 5).fw.accepted = true) ∧ (atStage 6).stage = 6 ∧ (atStage 5).stage ≠ 6 ∧ (atStage 7).stage = 7 ∧
    (4 : BitVec 4) ≠ 1 ∧ (4 : BitVec 4).toNat ≤ 4 ∧ (0 : BitVec 4) ≠ 1 ∧
    (atStage 4).fw.failed = false ∧ hdmOk { base := 0, size := 2 ^ 32, ports := [0, 1], gran := 4096 } = true ∧ hostUp (atStage 7) 3 = true ∧
    (let s := nextOf (.powerLimit true) (atStage 7); s.fw.power = some true ∧ (s.die 0).svc = 0x4F ∧ (s.die 1).svc ≠ 0x4F) ∧
    (let s := powerStep (powerStep (powerStep (nextOf (.powerLimit true) (atStage 7)))); s.fw.power = some true ∧ (∀ d : BitVec 2, (s.die d).svc = 0x4F) ∧
      (powerStep s).fw.power = none) ∧
    (let s := nextOf (.powerLimit false) (atStage 7); s.fw.power = none ∧ ∀ d : BitVec 2, (s.die d).svc ≠ 0x4F) := by decide +kernel
/-- Die 0 has changed, the host link of die 1 is down, die 2 is next; and none can be reached. -/
theorem hyp_BringUpEvents_links : let s := fun (ls : List Nat) => ({ (nextOf (.powerLimit true) (atStage 7)) with downLinks := ls } : State)
    ((s [17]).fw.power = some true ∧ ((s [17]).die 2).svc ≠ 0x4F ∧ hostUp (s [17]) 2 = true ∧
      ∀ d : BitVec 2, d < 2 → ((s [17]).die d).svc = 0x4F ∨ hostUp (s [17]) d = false) ∧
    (∃ d : BitVec 2, ((s [17, 18, 19]).die d).svc ≠ 0x4F) ∧ ∀ d : BitVec 2, ((s [17, 18, 19]).die d).svc = 0x4F ∨ hostUp (s [17, 18, 19]) d = false := by
  decide +kernel
theorem test_stages : (after (exec .normalService (atStage 6)) fun t => (t.stage, t.lanesOn, (t.die 3).svc)) = some (7, true, 0x0E) := by decide +kernel
theorem hyp_HostCommandEvents : (atStage 6).fw.keys = true ∧ (atStage 5).fw.keys = false ∧
    ((helper.ctx 0 1).st ≠ .vacant ∧ (helper.ctx 0 1).ended = false ∧ (helper.ctx 0 1).retiring = false ∧ (2 : BitVec 2) ≠ 3 ∧ (helper.ctx 0 1).tpend = []) ∧
    helper.fenced.contains 0 = false ∧ [2, 4, 1, 15].length = 4 ∧ (∀ w ∈ [2, 4, 1, 15], 1 ≤ w ∧ w ≤ 15) ∧ 64 ≤ 4095 ∧ helper.downLinks.contains 17 = false ∧
    (0 : BitVec 3).getLsbD 0 = false ∧ (7 : BitVec 3).getLsbD 0 = true ∧ progOk [] = false ∧ progOk [0x08000000] = true ∧ progOk (List.replicate 64 0) = true ∧ (helper.die 3).hostUp = true ∧ 17 = 16 + (1 : BitVec 2).toNat := by decide +kernel
theorem hyp_DebugEvents : (let s := helper.modCore 0 fun k => { k with freezing := some 4 }
      (s.core 0).freezing = some 4 ∧ (1 : SlotNo).toNat < 11 ∧ (s.ctx 0 1).st ≠ .vacant ∧ (s.ctx 0 1).st ≠ .frozen) ∧
    (∀ i : BitVec 4, (helper.core ((0 : BitVec 8) ++ i)).frozen = false ∧ (helper.core ((0 : BitVec 8) ++ i)).freezing = none) ∧
    (let s := helper.modCtx 0 1 fun x => { x with st := .frozen, held := .ready }; (s.ctx 0 1).st = .frozen ∧ (s.core 0).stepping = none) := by decide +kernel
theorem hyp_AssignmentEvents : 4 ≤ (atStage 4).stage ∧ coreFenced (atStage 4) 5 = false ∧ ((atStage 4).core 5).asg.isNone = true ∧
    (0x1000 : Word).extractLsb' 0 6 = 0 ∧ 65536 ≤ 65536 ∧ (helper.core 0).asg ≠ none ∧ ((helper.modCore 0 fun k => { k with halted := true }).core 0).halted = true ∧
    hostUp helper 0 = true ∧ spillOk 0x40000 16 = true := by decide +kernel

/-- The page tables of tenant 0 map page 0 of die 0 to frame 5, readable and writable. -/
def mapped : State := { helper with mem := helper.mem ++ dwordCells 0 0x1001 ++ dwordCells 0x200 0x10001 ++ dwordCells 0x2000 0x12001 ++ dwordCells 0x2400 0x5003F }
theorem hyp_AssignmentEvents_page : leafAt mapped 0 0 0 = some (0x12000, 0x5003F, false) ∧ attrS (BitVec.ofNat 7 (0x5003F / 4)) = false ∧
    9 * 2 ^ 16 + 2 ^ 16 ≤ dmSize ∧ moveRefused mapped 0 0 0 false 9 = false ∧ moveRefused mapped 0 0 0 false 0x7FFFFFFF = true ∧ mapped.mem.wf = true ∧
    (let s := openPage mapped (some 9) 0 false 0 0 false; (s.die 0).pageCmds.map (fun m => (m.die, m.frame, pageWaits s m)) = [(0, some 9, false)]) := by decide +kernel
/-- R150: the walk finds frame 5 for a store's first byte and its last: a byte of a table lies outside its descriptor, and a byte of the
descriptor does not. -/
theorem hyp_StoreFrame_pages : outsidePages mapped 0 false 0 0x40 8 0x2000 ∧
    ¬outsidePages mapped 0 false 0 0x40 8 (sramKey 0 ((mapped.die 0).descBase + 40)) := by
  have w : ∀ v ∈ [0x40, 0x40 + 8 - 1], walk mapped 0 false 0 v = .leaf 0x50000 false 0x0F := by decide +kernel
  have d : descKey mapped 0 false 0x50000 0x0F = some (sramKey 0 ((mapped.die 0).descBase + 40)) := by decide +kernel
  refine ⟨fun v hv fr lg a j hw hj => ?_, fun h => ?_⟩
  · rw [w v hv] at hw
    obtain ⟨rfl, rfl, rfl⟩ := by simpa using hw
    obtain rfl := Option.some.inj (d.symm.trans hj)
    decide +kernel
  · have := h 0x40 (by simp) _ _ _ _ (w 0x40 (by simp)) d
    omega
/-- R148, R153: nothing maps the second page, which faults; under migration it is held and does not. -/
theorem hyp_TrapChecks_page : mapped.ownDie 0x40000000010040 = true ∧ mapped.ownHeld 0x40000000010040 8 = false ∧
    (mapped.checkLock 0x40000000010040 8 1).isNone = true ∧ xlateFor mapped 0 false 0 0x10040 1 false false = .fault 0 ∧
    (let s := openPage mapped (some 9) 0 false 0 0x10000 false
     s.ownHeld 0x40000000010040 8 = true ∧ s.check 0x40000000010040 8 1 8 = some heldRead) := by decide +kernel
/-- R153: the table of entries lies on a page under migration: the push that would bind its stream waits. -/
theorem hyp_AlembicWordResults_held : let s := openPage (objects 1 0 0 0) (some 9) 0 false 0 0 false
    bindHeld s (s.stream 0 1) 5 = true ∧ bindHeld (objects 1 0 0 0) (s.stream 0 1) 5 = false ∧
    bindHeld s { (s.stream 0 1) with st := 1 } 5 = false := by decide +kernel
/-- Core 1 is assigned as core 0 is. -/
def twoCores : State := helper.setCore 1 ((helper.core 0).setCtx 1 Ctx.zero)
/-- The helper of core 0 leaves for slot 1 of core 1. -/
def leaving : State := nextOf (.contextMigration 0 1 1) twoCores
theorem hyp_AssignmentEvents_context : migrateRefused twoCores 0 1 1 = false ∧ slotForWork (twoCores.core 1) ((twoCores.core 0).tenantOf 1) = some 1 ∧
    (leaving.ctx 0 1).st = .departing ∧ (leaving.ctx 0 1).depart = some (1, 1) ∧ (leaving.ctx 0 1).wait.isNone = true ∧ mayDepart leaving 0 1 = true := by
  decide +kernel
/-- Its registers are on their way; a late reply for it has come to core 0. -/
def left : State := nextOf (.registerContextMessage 0 1) leaving
theorem hyp_AssignmentEvents_arrival : ∃ r m, left.req r.id = some r ∧ onWay left r = true ∧ isDiverted left r.body = false ∧ r.body = .ctx m :=
  ⟨left.net.headD (aReq (.pshare 0) .none), match (left.net.headD (aReq (.pshare 0) .none)).body with | .ctx m => m | _ => ⟨Arch.zero, false, 0, Inv.zero, Vector.replicate 16 0, false, 0, 0, 0, 0, false, []⟩,
    by decide +kernel, by decide +kernel, by decide +kernel, by decide +kernel⟩
theorem hyp_AssignmentEvents_forward : let s := (withNet [aReq (.pshare 0) (.ok [] 0)]).modCore 0 fun k => { k with fwd := [([7], 1, 1)] }
    (s.core 0).fwd = [([7], 1, 1)] ∧ s.req 7 = some (aReq (.pshare 0) (.ok [] 0)) ∧ (aReq (.pshare 0) (.ok [] 0)).reply ≠ .none ∧ (s.core 1).fwd = [] := by decide +kernel

/-- Core 0 in a state of pre-emption. -/
def pre (p : PreState) (s : State := helper) : State := s.modCore 0 fun k => { k with pre := p, divBase := 0x40000, divCap := 4 }
theorem hyp_PreemptionEvents : ((pre .running).core 0).pre = .running ∧ areaOk 0x10000 0x80000 8 = true ∧ hostUp (pre .running) 0 = true ∧ 0x10000 + 448 * 2 ^ 10 ≤ dmSize ∧ ((pre .saved).core 0).pre ≠ .running ∧
    drained (pre .draining) 0 = true ∧ ((pre .saving).core 0).pre = .saving ∧ ((pre .draining).core 0).pre = .draining := by decide +kernel
/-- A saved core: its record holds an image and one region. -/
def saved (p : PreState) : State :=
  let s := (pre p).modCore 0 fun k => { k with saveArea := 0x10000 }
  { s with saved := [(0, { area := 0x10000, img := s.core 0, parts := [(0, [0, 0])] })] }
theorem hyp_PreemptionEvents_restore : ((saved .saved).core 0).pre = .saved ∧ areaMatches (saved .saved) 0 0x10000 = true ∧
    (savedAt (saved .saved) 0 0x10000).isSome = true ∧ areaMatches (saved .saved) 0 0x20000 = false ∧
    ((saved .restoring).core 0).pre = .restoring ∧ (savedAt (saved .restoring) 0 ((saved .restoring).core 0).saveArea).isSome = true ∧
    ((saved .restoring).core 0).divert = [] := by decide +kernel
theorem hyp_PreemptionEvents_divert : let s := pre .saved (withNet [aReq (.mb .inc 0x3F 1) .none])
    s.req 7 = some (aReq (.mb .inc 0x3F 1) .none) ∧ onWay s (aReq (.mb .inc 0x3F 1) .none) = true ∧ isDiverted s (.mb .inc 0x3F 1) = true ∧
    divertible s (.mb .inc 0x3F 1) = some 0 ∧ (s.core 0).divert.length < (s.core 0).divCap := by decide +kernel
theorem hyp_PreemptionEvents_answer : let s := (pre .draining).modCtx 0 1 fun x =>
      { x with st := .waiting, wait := some { helper.newWait (.rwait 1 2 7) [] none with req := some 7 } }
    let s := { s with net := [aReq (.pshare 0) (.ok [] 9)] }
    (s.ctx 0 1).wait.isSome = true ∧ heldElsewhere s 0 1 = true ∧ ((s.ctx 0 1).wait.bind (completeWait s 0 1)).isSome = true := by decide +kernel
/-- Gang 5 has a member on core 0 and one on core 1, which is pre-empted. -/
def ganged : State :=
  let g := fun (x : Ctx) => { x with st := SlotState.ready, member := true, a := { x.a with ltag := 5 } }
  let s := (twoCores.modCtx 0 1 g).modCtx 1 1 g
  let s := s.modCore 1 fun k => { k with pre := .saved }
  s.modTgu 0 fun t => { t with launches := [{ tag := 5, tenant := 0, priv := false, core := 0, obj := noEntry, next := 0, last := none, expanded := true, started := 2,
                                              errors := 0, lost := 0, reduced := false, gang := true, kernels := [], pipes := Vector.replicate 8 0, slots := [] }] }
theorem hyp_PreemptionEvents_gang : (5 : BitVec 16) ≠ 0 ∧ gangBroken ganged 5 = true ∧ (gangSlots ganged 5).any (·.1 == 0) = true ∧
    (ganged.core 0).pre = .running ∧ ganged.atBoundary 0 = true ∧ (ganged.core 0).gheld.contains 5 = false ∧ gangBroken helper 5 = false := by decide +kernel

theorem hyp_ArrivalEvents_own : let r := aReq (.amo 0x100000040 1 0 0) .none; let s := withNet [r]
    s.req 7 = some r ∧ onWay s r = true ∧ serviceCore s.devId r.body = some 1 := by decide +kernel
theorem hyp_ArrivalEvents_access : let r := aReq (.load [0x100000040] 8) .none; let s := withNet [r]
    s.req 7 = some r ∧ r.ord = false ∧ onWay s r = true ∧ serviceCore s.devId r.body = none := by decide +kernel
theorem hyp_ArrivalEvents_memory : outsideDescs helper 0 ∧ outsideDescs helper 0x40000000 := ⟨outsideDescs_low (by decide), outsideDescs_low (by decide)⟩
theorem hyp_ArrivalEvents_phys : ({ aReq (.load [0x100000040] 8) .none with phys := [5] }).phys ≠ [] ∧ (aReq (.load [0x100000040] 8) .none).phys = [] := by
  decide
theorem hyp_ArrivalEvents_far : let r := { aReq (.store 0x100000040 [1] false) .none with ord := true }; let s := withNet [r]
    s.req 7 = some r ∧ r.ord = true ∧ onWay s r = true ∧ serviceCore s.devId r.body = none := by decide +kernel
theorem hyp_ArrivalEvents_reply : let r := aReq (.mb .inc 0 1) (.ok [] 0); let s := withNet [r]
    s.req 7 = some r ∧ r.ret = false ∧ onWay s r = false := by decide +kernel
theorem hyp_ArrivalEvents_long : let l := { helper.newLong 7 (.g 1) (.zx 8) with own := [] }; let r := aReq (.load [0x100000040] 8) (.ok [1] 0)
    let s := (withNet [r]).modMe fun x => { x with long := [l] }
    (s.ctx 0 1).long.find? (·.id == 7) = some l ∧ l.val.isNone = true ∧ l.cancelled = false ∧ formBadBytes l.conv (overlay l.own [1]) = false := by decide +kernel
theorem hyp_ArrivalEvents_ring : let r := { aReq (.ring .wait 1 0 1 0 noEntry none) .none with cancel := true }
    (withNet [r]).req 7 = some r ∧ r.cancel = true ∧ r.orphan = false ∧ helper.devId = 0 := by decide +kernel
theorem hyp_ArrivalEvents_error : let r := aReq (.mb .inc 0x100000000 1) (.err 1 0 0x100000000); let s := withNet [r]
    s.req 7 = some r ∧ r.orphan = false ∧ (s.ctx 0 1).long = [] ∧ (s.ctx 0 1).wait.isNone = true ∧ (s.core 0).counts 7 = false := by decide +kernel
/-- R191: the context has departed, and the failing late reply of its cancelled load is to be redirected. -/
theorem hyp_ArrivalEvents_redirected : let r := aReq (.load [0x100000040] 8) (.err 1 0 0x100000040)
    let s := (withNet [r]).modCore 0 fun k => { k with fwd := [([7], 1, 1)] }
    s.req 7 = some r ∧ r.orphan = false ∧ (s.ctx 0 1).long = [] ∧ (s.ctx 0 1).wait.isNone = true ∧ (s.core 0).counts 7 = false ∧
    s.redirected 7 = true ∧ (withNet [r]).redirected 7 = false := by decide +kernel
theorem hyp_ArrivalEvents_start : let e := helper.entryOf 3 0x200 1 2 1; let r := aReq (.start 0 helper.devId e 10) .none; let s := withNet [r]
    s.req 7 = some r ∧ onWay s r = true ∧ pathUp s r.core (bodyAddr s r.body) = true ∧ isDiverted s r.body = false ∧
    (s.core 0).sched.room = true ∧ diverts (s.core 0) = false := by decide +kernel
/-- The bytes of core 1's scratchpad from 0x40. -/
def farKeys (n : Nat) : List Nat := (List.range n).map fun i => spKey 1 (0x40 + i)
theorem hyp_ArrivalEvents_found : let s := withNet [] (helper.setCore 1 (helper.core 0))
    found s 0 0 false 0x100000040 8 0 false 7 = .ok (farKeys 8) ∧ found s 0 0 false 0x100000040 1 1 false 7 = .ok (farKeys 1) ∧
    found s 0 0 false 0x100000040 4 2 false 7 = .ok (farKeys 4) ∧ (farKeys 8).Nodup ∧ keysHeld s (farKeys 8) = false ∧
    found s 0 0 false 0x40000000000040 8 0 false 7 = .err eXlate 0 ∧ hostUp s 0 = true ∧ hostUp { s with downLinks := [16] } 0 = false := by decide +kernel
/-- R65: one queue is full, and the spill queue has no place. -/
theorem hyp_ArrivalEvents_noRoom : let e := helper.entryOf 3 0x200 1 2 1
    let s := helper.modCore 0 fun k => { k with sched := { k.sched.setQueue 0 (List.replicate 64 e) with spillCap := 0 } }
    (s.core 0).sched.room = false := by decide +kernel
theorem test_far : let r := { aReq (.store 0x100000040 [1] false) .none with ord := true }
    (after (exec (.farOperationArrival 7) (withNet [r] ((helper.setCore 1 (helper.core 0))))) fun t => memGet t.mem (spKey 1 0x40)) = some 1 := by decide +kernel

/-- A request in the service queue of core 0. -/
def queued : State := (withNet [aReq (.amo 0x40 1 0 0) .none]).modCore 0 fun k => { k with svcq := [7] }
theorem hyp_TurnEvents_service : (queued.core 0).svcq = [7] ∧ readyWait queued 0 = none ∧ readyHead queued 0 = some 7 ∧
    ringBlocked queued (aReq (.amo 0x40 1 0 0) .none) = false := by decide +kernel
theorem test_service : (after (exec (.serviceTurn 0) queued) fun t => memNat t.mem 0x40 4) = some 1 := by decide +kernel
/-- A context waits for its mailbox counter. -/
def waits (v : W32) (left : Option Nat) : State :=
  let s := helper.modCore 0 fun k => { k with mbox := vset k.mbox 63 v }
  s.modCtx 0 1 fun x => { x with st := .waiting, wait := some (helper.newWait (.mbwait 5 6 7) [0x3F, 1] left) }
theorem hyp_TurnEvents_wait : (let s := waits 1 none; (s.ctx 0 1).isWaiting = true ∧ (s.core 0).tests 1 = true ∧ (s.core 0).runs 1 = true ∧
      ((s.ctx 0 1).wait.map (·.takes)) = some false ∧
      ((s.ctx 0 1).wait.bind (completeWait s 0 1)).isSome = true) ∧
    (let s := waits 0 (some 0); (s.ctx 0 1).isWaiting = true ∧ (s.core 0).runs 1 = true ∧ ((s.ctx 0 1).wait.map (·.left)) = some (some 0) ∧
      ((s.ctx 0 1).wait.bind (·.req)).isNone = true ∧ ((s.ctx 0 1).wait.bind (completeWait s 0 1)).isNone = true) := by decide +kernel
/-- A context waits for an entry of its inbox, and one is there: the wait takes it, in its own turn. -/
theorem hyp_TurnEvents_takes : let w := (inbox 1).newWait (.recv 8 7) [] none
    let s := (inbox 1).modCtx 0 1 fun x => { x with st := .waiting, wait := some w }
    (s.ctx 0 1).wait = some w ∧ (s.ctx 0 1).isWaiting = true ∧ (s.core 0).tests 1 = true ∧ w.takes = true ∧
    (waitDone (asCtx s 0 1 w.bundle) w).isSome = true := by decide +kernel
theorem hyp_TurnEvents_commit : let s := stored.modMe fun x => { x with chunk := x.chunk.map fun ch => { ch with ending := true } }
    (s.ctx 0 1).chunk.isSome = true ∧ ((s.ctx 0 1).chunk.map fun ch => (ch.ending, ch.trap.isNone)) = some (true, true) ∧ (s.ctx 0 1).nearOut = false ∧
    (s.ctx 0 1).st ≠ .frozen := by decide +kernel
theorem hyp_TurnEvents_trap : let s := helper.modCtx 0 1 fun x => { x with tpend := [aTrap] }
    (s.ctx 0 1).tpend.find? (s.ctx 0 1).meetsPend = some aTrap ∧ (s.ctx 0 1).live = true ∧ (s.core 0).runs 1 = true ∧
    goesPriv (s.core 0) 1 aTrap.cause = true := by decide +kernel
/-- R338, R342: a trap of a bundle at another PC waits for the context to come back to it, and a trap of any bundle goes before it. -/
theorem test_nextPend : let x := helper.ctx 0 1
    ({ x with tpend := [{ aTrap with own := true, pc := x.a.pc + 8 }] } : Ctx).nextPend = none ∧
    ({ x with tpend := [{ aTrap with own := true, pc := x.a.pc + 8 }, aTrap] } : Ctx).nextPend = some aTrap ∧
    (({ x with tpend := [{ aTrap with own := true, pc := x.a.pc + 8 }] } : Ctx).resumeAt (x.a.pc + 8) false fun _ => false).nextPend.isSome = true := by decide +kernel
/-- R456: a frozen context keeps the entry that stopped it, and its next bundle passes that entry. -/
theorem test_skips : let x : Ctx := { (helper.ctx 0 1) with frozeBy := some (false, 3), stopBy := some (true, 2) }
    ({ x with frozeBy := none } : Ctx).skips (false, 3) = false ∧ x.skips (false, 3) = true := by decide
theorem hyp_TurnEvents_upcall : let s := enterUpcall helper 0 1 aTrap
    (s.ctx 0 1).upc = some (aTrap, 0) ∧ (s.ctx 0 1).recorded = false ∧ (s.core 0).longOf 1 = 0 ∧ (1 : SlotNo) ≠ 0 ∧ (s.core 0).upcArea + 704 ≤ 2 ^ 18 ∧
    protOk (s.core 0) ((s.core 0).tenantOf 0) false ((s.core 0).upcArea + 64) 64 1 = true := by decide +kernel
theorem hyp_TurnEvents_delivery : let s := upcall.modCore 0 fun k => { k with r := { k.r with upcMask := false, upcEn := true, upcPend := [1] } }
    (s.core 0).r.upcPend = [1] ∧ upcallDue (s.core 0) = true ∧ fetchOkAt s 0 (s.core 0).r.upcEntry = true ∧ (s.ctx 0 0).wait.isNone = true ∧
    (s.ctx 0 0).chunk.isNone = true := by decide +kernel

/-- A launch of one work id on core 0. -/
def aLaunch (done : Bool) : Launch :=
  { tag := 5, tenant := 0, priv := false, core := 0, obj := vset (vset noEntry 0 0x10F3) 1 0x200, next := 0, last := none, expanded := done, started := 0, errors := 0,
    lost := 0, reduced := false, gang := false, kernels := [], pipes := Vector.replicate 8 0, slots := [] }
def launched (l : Launch) : State := helper.modTgu 0 fun t => { t with launches := [l] }
theorem hyp_SchedulingEvents : ((launched (aLaunch false)).die 0).tgu.launches.find? (fun x => !x.gang && !x.expanded) = some (aLaunch false) ∧
    placeOn (launched (aLaunch false)) 0 (aLaunch false) = some 0 ∧
    ((launched (aLaunch true)).die 0).tgu.launches.find? (·.tag == 5) = some (aLaunch true) ∧ launchDone (launched (aLaunch true)) (aLaunch true) = true ∧
    laDone (aLaunch true).obj = 0 ∧
    (let l := { aLaunch false with gang := true, kernels := [((0x200 : Word), 1)], slots := [((0 : CoreId), (2 : SlotNo))] }
     ((launched l).die 0).tgu.launches.find? (fun x => x.gang && !x.expanded) = some l ∧ l.members ≤ l.slots.length ∧
     l.slots.any (fun p => diverts ((launched l).core p.1)) = false) := by decide +kernel
/-- R381: a victim has an entry for the thief; one that is LEAVING goes. -/
theorem hyp_SchedulingEvents_pick : let d := fun (l : Option CoreId) => ((twoCores.modCore 1 fun k => { k with sched := { k.sched with resv := vset k.sched.resv 2 .steal } }).modCore 0 fun k => { k with sched := { k.sched with deque := [{ entry 0x3F with leaving := l }] } })
    victimPick (d none) 0 1 = some 0 ∧ (leavingFor (d none) 0 1).isNone = true ∧ (leavingFor (d (some 1)) 0 1).isSome = true ∧
    bumpPending (d (some 1)) 0 1 = false ∧ dieUp { helper with downLinks := [1] } 0 1 = false ∧ stealComing twoCores 1 = false := by decide +kernel
theorem hyp_SchedulingEvents_done : (let l := { aLaunch true with obj := vset (aLaunch true).obj 2 0x40 }
      laDone l.obj ≠ 0 → heldAt (launched l) l.tenant none 64 (resolve 0 0 (laDone l.obj)) = false) ∧
    launchDone (launched { aLaunch true with expanded := false }) { aLaunch true with expanded := false } = false := by decide +kernel
theorem hyp_DebugEvents_hosts : hostUp helper 0 = true ∧ helper.atBoundary 0 = true ∧ ({ helper with turn := { core := 0, slot := 3 } } : State).atBoundary 0 = false ∧
    (let s := stored.modCtx 0 1 fun x => { x with st := .frozen, held := .ready }
     (s.ctx 0 1).st = .frozen ∧ (s.core 0).stepping = none ∧ (s.ctx 0 1).chunk.isSome = true) := by decide +kernel
theorem hyp_SchedulingEvents_diverted :
    let s := (twoCores.modCore 1 fun k => { k with sched := { k.sched with seek := some { victim := 0, asked := 1, at_ := 0 } } }).modCore 0
      fun k => { k with pre := .saved, divCap := 4 }
    ((s.core 1).sched.seek.map (·.victim)) = some 0 ∧ diverts (s.core 0) = true ∧ dieUp s 0 0 = true ∧ (leavingFor s 0 1).isNone = true ∧
      stealDiverted s 0 1 = false ∧ (s.core 0).sched.thieves.contains 1 = false ∧ (s.core 0).divert.length < (s.core 0).divCap := by decide +kernel
theorem hyp_SchedulingEvents_steal : (let s := twoCores.modCore 1 fun k => { k with sched := { k.sched with seek := some { victim := 0, asked := 1, at_ := 0 } } }
    let s := { s with now := 1 }
    ((s.core 1).sched.seek.map fun q => (q.victim, q.due s)) = some (0, true) ∧ servesSteals (s.core 0) = true ∧ (s.core 0).sched.deque = [] ∧ s.net = [] ∧
      (s.core 1).sched.arrivals = [] ∧ dieUp s 0 0 = true ∧ stealFirst s 0 1 = true) ∧
    seeks (helper.core 0) = true ∧ (helper.core 0).sched.backoff = 0 ∧ (helper.core 0).sched.seek.isNone = true ∧ idleSlot (helper.core 0) = some 2 := by decide +kernel

/-- R382: a request that the RESTORE of the victim delivered goes before another thief's. -/
theorem hyp_SchedulingEvents_thieves : let q : Seek := { victim := 0, asked := 1, at_ := 0 }
    let s := (twoCores.modCore 1 fun k => { k with sched := { k.sched with seek := some q } }).modCore 0
      fun k => { k with sched := { k.sched with thieves := [1] } }
    (s.core 0).sched.thieves = [1] ∧ (1 : CoreId) ≠ 2 ∧ (s.core 1).sched.seek = some { q with victim := 0 } ∧ (s.core 1).frozen = false ∧
    diverts (s.core 1) = false ∧ stealFirst s 0 2 = false ∧ stealFirst s 0 1 = true ∧ ((unqueue s 0 1).core 0).sched.thieves = [] := by decide +kernel

def isOk {α : Type} : Work α → Bool
  | .ok _ _ => true
  | .stop _ _ => false
theorem ok_of_work {w : Work Unit} (h : isOk w = true) : ∃ x, w = .ok x () := by
  cases w <;> simp_all [isOk]
theorem stop_of_work {w : Work Unit} (h : isOk w = false) : ∃ x e, w = .stop x e := by
  cases w <;> simp_all [isOk]
/-- A copy under way on channel 0, and one that has written everything. -/
def copying (pos : Nat) : State :=
  (channels .active).modCh 0 0 fun h => { h with active := h.shadow, pos := pos }
theorem hyp_EngineEvents_copy : copyRuns (copying 0) 0 0 = true ∧ (∃ x, copyNext (copying 0) 0 0 = .ok x ()) ∧ copyTotal (((copying 64).core 0).ch 0) ≤ 64 ∧
    (((copying 64).core 0).ch 0).st = .active ∧ cdRv (((copying 64).core 0).ch 0).active = false ∧
    cdMv (((copying 64).core 0).ch 0).active = false ∧ copyAwaits (copying 64) (((copying 64).core 0).ch 0) = false ∧
    (let s := (withNet [aReq (.mb .inc 0x100000000 1) .none] (copying 64)).modCh 0 0 fun h => { h with comp := 2, acks := [7] }
     copyAwaits s ((s.core 0).ch 0) = true) :=
  ⟨by decide +kernel, ok_of_work (by decide +kernel), by decide +kernel⟩
/-- The copy writes where no region grants the right; and it waits, where the page of its source is under migration. -/
theorem hyp_EngineEvents_error : (let s := (copying 0).modCore 0 fun k => { k with r := { k.r with protSize := Vector.replicate 8 0 } }
      copyRuns s 0 0 = true ∧ (∃ x e, copyNext s 0 0 = .stop x e) ∧ (copyNext s 0 0).err.map (·.cause) = some 1) ∧
    (let d : Vector Word 8 := vset (vset (vset (vset noEntry 0 1) 1 0x40000000000000) 2 0x2000) 3 64
     let s := (openPage mapped (some 9) 0 false 0 0 false).modCh 0 0 fun h => { h with active := d, st := .active }
     copyRuns s 0 0 = true ∧ (copyNext s 0 0).err.map (·.cause) = some 0) :=
  ⟨⟨by decide +kernel, stop_of_work (by decide +kernel), by decide +kernel⟩, by decide +kernel⟩
def bytesOf : Work (List Byte) → List Byte
  | .ok _ bs => bs
  | .stop _ _ => []
theorem read_of {w : Work (List Byte)} (h : w.val.isSome = true) : w = .ok w.eng (bytesOf w) := by
  cases w <;> simp_all [Work.val, Work.eng, bytesOf]
/-- Every condition under which a LINEAR copy moves the bytes of a line. -/
theorem hyp_EngineEvents_linear : let s := copying 0; let z := Eng.open_ s 0 0; let ks := (List.range 64).map fun i => spKey 0 (0x40 + i)
    let kd := (List.range 64).map fun i => spKey 0 (0x2000 + i)
    let ps := resolve s.devId 0 0x40; let pd := resolve s.devId 0 (resolve s.devId 0 0x2000); let x := (engRead z 0 0x40 64 false).eng
    engRead z 0 0x40 64 false = .ok x (bytesOf (engRead z 0 0x40 64 false)) ∧
    cdKind z.h.active = ckLINEAR ∧ z.h.pos < cdSize0 z.h.active ∧ moveOff (cdSrc z.h.active) z.h.pos = some 0x40 ∧
    moveOff (cdDst z.h.active) z.h.pos = some 0x2000 ∧
    64 = min (cdSize0 z.h.active - z.h.pos) (64 - pOff (0x2000 : Word) % 64) ∧ addrBad 0x40 64 1 = false ∧ addrBad (resolve s.devId 0 0x2000) 64 1 = false ∧
    z.waits 0 ps 64 = false ∧ z.found 0 ps 64 4 false = .ok ks ∧ x.waits 0 pd 64 = false ∧
    x.found 0 pd 64 5 false = .ok kd ∧ engHeld (x.take 0 pd 64 5 false).s 0 kd = false ∧ kd.Nodup ∧ ks.length = 64 ∧ kd.length = 64 :=
  ⟨read_of (by decide +kernel), by decide +kernel⟩
theorem hyp_EngineEvents_kinds : (let d := vset (vset noEntry 0 2) 4 0x300020004; cdKind d = ckSTRIDED ∧ 3 < cdSize d 1 ∧ 1 < cdSize d 2) ∧
    (let d := vset (vset (vset (vset noEntry 0 3) 1 0x40) 3 4) 7 0x80; let z : Eng := { s := helper, h := { Chan.zero with active := d } }
     cdKind z.h.active = ckGATHER ∧ moveOff (cdIndex z.h.active) 0 = some 0x80 ∧ (engRead z 0 0x80 4 false (2 ^ 32)).val.isSome = true ∧
       moveOff (cdSrc z.h.active) 0 = some 0x40) ∧ cdKind (vset noEntry 0 6) = ckMCAST := by decide +kernel
/-- Operands of I8, FP32 and I8A elements: the three ways to accumulate. -/
def anOpnd (f : Nat) : Opnd := { e := vset (vset noEntry 0 0x1000100F1) 1 (BitVec.ofNat 64 (f * 2 ^ 59)), bs := [2] }
theorem hyp_EngineEvents_mac : isInt32 (shFmt (anOpnd 9).e) (shFmt (anOpnd 9).e) = true ∧
    (isInt32 (shFmt (anOpnd 3).e) (shFmt (anOpnd 3).e) = false ∧ isBlk (shFmt (anOpnd 3).e) = false) ∧ isBlk (shFmt (anOpnd 21).e) = true ∧
    pFmt (0x4800000000000000 : Word) = 9 := by decide
/-- R125: with every other element zero, 2 * 2 + 5. -/
theorem test_macInt : (macInt { na := false, nb := false, fresh := false, sat := true, reduced := false } (anOpnd 9) (anOpnd 9) 0 0 5) = (9, false) := by
  decide +kernel
theorem test_copy : (after (exec (.copyWrite 0 0) { copying 0 with mem := memWrite (copying 0).mem 0x40 [5] }) fun t => (memGet t.mem 0x2000, ((t.core 0).ch 0).pos)) =
    some (5, 64) := by decide +kernel
theorem hyp_EngineEvents_accord : ((accord 1).half 0).begun.isNone = true ∧ (arbitrate ((accord 1).half 0) (eligibleCores (accord 1) 0)).isSome = true ∧
    (oldestCmd ((accord 1).core (halfCore 0 0))).isSome = true ∧ halfCore 0 0 = 0 := by decide +kernel
theorem hyp_EngineEvents_retire : let s := (accord 1).modCore 0 fun k => { k with acc := { k.acc with q := k.acc.q.map fun x => { x with begun := true } } }
    let s := s.setHalf 0 { s.half 0 with begun := some 0 }
    (s.half 0).begun = some 0 ∧ ((s.core 0).acc.q.find? (·.begun)).isSome = true := by decide +kernel
theorem hyp_EngineEvents_mget : let s := nextOf (.mget 0 2) (accord 0)
    ((s.core 0).acc.mgets.find? (mgetReady (s.core 0))).isSome = true ∧
    (let u := s.modCore 0 fun k => { k with cyc := 100, acc := { k.acc with mgets := k.acc.mgets.map fun g => { g with bytes := some [], due := 0 } } }
     ((u.core 0).acc.mgets.find? (fun g => g.bytes.isSome && g.due ≤ (u.core 0).cyc)).isSome = true ∧ keysHeld u [] = false) := by decide +kernel
theorem hyp_EngineEvents_surrogate : ((invoc 3 1 true).ctx 0 1).inv.pend = true ∧ (1 : SlotNo).toNat < 11 ∧
    (let s := helper.modCtx 0 1 fun x => { x with retiring := true }
     (s.ctx 0 1).retiring = true ∧ (s.ctx 0 1).chunk.isNone = true ∧ (s.ctx 0 1).rel.isNone = true ∧ (s.ctx 0 1).st ≠ .vacant) := by decide +kernel

/-- A packet of n flits. -/
def aPacket (n dest : Nat) : Packet :=
  { pid := 1, id := 7, vc := 0, flits := n, hdr := 0, data := [], inp := 0, dest := dest, urg := false, up := none, bufs := [], got := n, sent := 0, wait := 0 }
/-- A packet at core 0's router for core 0, or for core 1. -/
def routed (dest : Nat) : State :=
  helper.setRouter 0 { Router.zero with pkts := [aPacket 1 dest] }
/-- A packet of two flits holds the up-link of core 0's router; its header has gone to the next one. -/
def holding : State :=
  nextOf (.outputArbitration 0 1) (helper.setRouter 0 { Router.zero with pkts := [aPacket 2 1] })
theorem hyp_FabricEvents_holding : (((holding.router 0).holder 1).map fun x => (x.2.sent, x.2.got, hasCredit holding x.2.vc x.1.dest,
      linkOpen holding 0 ⟨1, x.1.dest.1, x.1.dest.2⟩)) = some (1, 2, true, true) := by
  decide +kernel
/-- R390: the second flit follows, and the output is free again. -/
theorem test_last_flit : let t := nextOf (.outputArbitration 0 1) holding
    (t.router 0).held = [] ∧ (t.router 0).pkts = [] ∧ (t.router 1).pkts.map (·.got) = [2] := by decide +kernel
theorem hyp_FabricEvents : (let s := routed 0; ((s.router 0).holder 0).isNone = true ∧ (choose s.vw (s.router 0) 0 (candidates s 0 0)).isSome = true ∧
      ((s.router 0).pkts.find? (fun q => q.inp == 0 && q.vc == 0)).isSome = true ∧ ((s.router 0).pkts.map fun p => (route s 0 p).map fun h => (h.1.port, hasCredit s p.vc h.1.dest)) = [some (0, true)]) ∧
    (let s := routed 1; ((s.router 0).held = []) ∧ ((s.router 0).pkts.map fun p => (route s 0 p).isSome) = [true] ∧
      ((List.range 8).any fun port => (choose s.vw (s.router 0) port (candidates s 0 port)).isSome) = true) ∧
    (let s := helper.setRouter 0 { Router.zero with inCred := [(0, { r := Vector.replicate 4 1, shared := 0, owed := [3, 4] })] }
     ((s.router 0).inbound 0).owed.contains 3 = true ∧ ((s.router 0).inbound 0).owed.contains 4 = true) := by decide +kernel
/-- R390, R391: an urgent packet goes first; the oldest may become urgent. -/
theorem hyp_FabricEvents_urgent : let p := aPacket 1 1; let q := { p with pid := 2, id := 8, inp := 3, urg := true, wait := 90 }
    choose (Vector.replicate 4 1) Router.zero 1 [p, q] = some (q, Router.zero) ∧ p.urg = false ∧ p.inp < 128 ∧
    (choose (Vector.replicate 4 1) Router.zero 1 [p]).isSome = true ∧
    (let s := helper.setRouter 0 { Router.zero with pkts := [{ p with wait := helper.age }] }
     ((s.router 0).pkts.find? (fun z => z.inp == 0 && z.vc == 0)).isSome = true ∧ p.sent = 0 ∧ 0 < helper.age) := by decide +kernel
/-- A unit stands in the input queue of die 0, one in its output queue, and records have been dropped. -/
def traced (prog : List W32) : State :=
  helper.modDie 0 fun d => { d with sil := { d.sil with inq := [[1, 2]], outq := [3], drops := 1, prog := prog } }
theorem hyp_TraceEvents : let s := traced []
    (s.die 0).sil.inq = [[1, 2]] ∧ (s.coresOfDie 0).all (fun c => (s.core c).stall == []) = true ∧ (∀ p ∈ s.cores, p.2.stall = []) ∧
      verdictOf (s.die 0).sil [1, 2] 0 = .keep ∧ verdictOf ((traced [0x18000000]).die 0).sil [1, 2] 0 = .trig 0 ∧
      (s.die 0).sil.drops ≠ 0 ∧ (s.die 0).sil.outq = [3] ∧ laneNext (s.die 0).sil = some 0 ∧ (s.die 0).sil.freeAt 0 ≤ 16 * s.now := by decide +kernel
theorem hyp_TraceEvents_filter : fOp 0 = 0 ∧ fOp 0x08000000 = 1 ∧ fOp 0x1000000F = 2 ∧ fOp 0x18000002 = 3 := by decide
/-- R449, R452: the unit is kept; the record on the way out takes lane 0. -/
theorem test_trace : (after (exec (.sillageAccept 0) (traced [])) fun t => (t.die 0).sil.outq) = some [3, 1, 2] ∧
    (after (exec (.traceFrame 0) (traced [])) fun t => (t.die 0).sil.sent.map (·.1)) = some [0] := by decide +kernel

end Sys2Proof.Tests
end

section
/-! SUPPORT. Numbers as little-endian bytes: what reading them back gives, and where a part of a byte list lies. -/

namespace Sys2Proof.Machine

/-- The number in some bytes depends on those bytes alone. -/
theorem leBytes_congr {xs ys : List Byte} {i j : Nat} (n : Nat) (h : ∀ k, k < n → xs.getD (i + k) 0 = ys.getD (j + k) 0) :
    leBytes xs i n = leBytes ys j n := by
  induction n generalizing i j with
  | zero => rfl
  | succ n ih =>
    have h0 : xs.getD i 0 = ys.getD j 0 := h 0 (by omega)
    have ht : leBytes xs (i + 1) n = leBytes ys (j + 1) n := ih fun k hk => by
      simpa only [Nat.add_assoc, Nat.add_comm 1 k] using h (k + 1) (by omega)
    rw [leBytes, leBytes, h0, ht]

theorem leBytes_append_left {xs ys : List Byte} {i n : Nat} (h : i + n ≤ xs.length) : leBytes (xs ++ ys) i n = leBytes xs i n :=
  leBytes_congr n fun k hk => List.getD_append _ _ _ _ (by omega)

theorem leBytes_append_right {xs ys : List Byte} {i n : Nat} (h : xs.length ≤ i) :
    leBytes (xs ++ ys) i n = leBytes ys (i - xs.length) n :=
  leBytes_congr n fun k _ => by
    rw [List.getD_append_right _ _ _ _ (by omega), show i + k - xs.length = i - xs.length + k by omega]

theorem leBytes_cons_succ (b : Byte) (bs : List Byte) (i n : Nat) : leBytes (b :: bs) (i + 1) n = leBytes bs i n :=
  leBytes_append_right (xs := [b]) (by simp)

theorem natBytes_succ (n x : Nat) : natBytes (n + 1) x = BitVec.ofNat 8 x :: natBytes n (x / 256) := by
  simp only [natBytes, List.range_succ_eq_map, List.map_cons, List.map_map, pow_zero, Nat.div_one]
  congr 2
  funext i
  simp [Nat.div_div_eq_div_mul, pow_succ, Nat.mul_comm]

/-- A number read back from its bytes (R4). -/
theorem leBytes_natBytes (n x : Nat) : leBytes (natBytes n x) 0 n = x % 256 ^ n := by
  induction n generalizing x with
  | zero => simp [leBytes, Nat.mod_one]
  | succ n ih =>
    rw [natBytes_succ, leBytes, leBytes_cons_succ, ih, pow_succ', Nat.mod_mul]
    simp

/-- A part of a list of parts of one size. -/
theorem leBytes_flatten {f : Nat → List Byte} {n : Nat} (hf : ∀ i, (f i).length = n) {m i : Nat} (h : i < m) :
    leBytes (((List.range m).map f).flatten) (n * i) n = leBytes (f i) 0 n := by
  induction m generalizing f i with
  | zero => omega
  | succ m ih =>
    rw [List.range_succ_eq_map, List.map_cons, List.flatten_cons, List.map_map]
    cases i with
    | zero => exact leBytes_append_left (by simp [hf])
    | succ i =>
      rw [leBytes_append_right (by rw [hf, Nat.mul_succ]; omega), hf, Nat.mul_succ, Nat.add_sub_cancel]
      exact ih (fun i => hf (i + 1)) (by omega)

theorem length_flatten_range {f : Nat → List Byte} {n : Nat} (hf : ∀ i, (f i).length = n) (m : Nat) :
    (((List.range m).map f).flatten).length = m * n := by
  simp [List.length_flatten, hf, Function.comp_def]

@[simp] theorem length_wordBytes (x : Word) : (wordBytes x).length = 8 := length_natBytes 8 _

/-- A dword of an image, of the part that holds it. -/
theorem imgWord_append_left {xs ys : List Byte} {o : Nat} (h : o + 8 ≤ xs.length) : imgWord (xs ++ ys) o = imgWord xs o := by
  simp only [imgWord, leBytes_append_left h]

theorem imgWord_append_right {xs ys : List Byte} {o : Nat} (h : xs.length ≤ o) :
    imgWord (xs ++ ys) o = imgWord ys (o - xs.length) := by
  simp only [imgWord, leBytes_append_right h]

theorem imgWord_natBytes (x : Nat) : imgWord (natBytes 8 x) 0 = BitVec.ofNat 64 x := by
  rw [imgWord, leBytes_natBytes]
  exact BitVec.eq_of_toNat_eq (by simp)

@[simp] theorem imgWord_wordBytes (x : Word) : imgWord (wordBytes x) 0 = x := by simp [wordBytes, imgWord_natBytes]

theorem imgWord_flatten {f : Nat → List Byte} (hf : ∀ i, (f i).length = 8) {m i : Nat} (h : i < m) :
    imgWord (((List.range m).map f).flatten) (8 * i) = imgWord (f i) 0 := by
  simp only [imgWord, leBytes_flatten hf h]

end Sys2Proof.Machine
end

section
/-! O42: the context image of R61 read back. -/

namespace Sys2Proof.Machine

@[simp] theorem length_flatten_natBytes (n m : Nat) (f : Nat → Nat) : (((List.range m).map fun i => natBytes n (f i)).flatten).length = m * n :=
  length_flatten_range (fun i => length_natBytes n (f i)) m

@[simp] theorem length_flatten_wordBytes (m : Nat) (f : Nat → Word) : (((List.range m).map fun i => wordBytes (f i)).flatten).length = m * 8 :=
  length_flatten_range (fun i => length_wordBytes (f i)) m

@[simp] theorem length_archBytes (a : Arch) : (archBytes a).length = 1704 := by
  simp [archBytes, length_natBytes, -List.length_flatten]

@[simp] theorem length_unitBytes (v : Inv) (hold : Vector Word 16) : (unitBytes v hold).length = 344 := by
  simp [unitBytes, length_natBytes, -List.length_flatten]

/-- A register of whole bytes read back from them. -/
theorem ofNat_leBytes_natBytes (n : Nat) (y : BitVec (8 * n)) : BitVec.ofNat (8 * n) (leBytes (natBytes n y.toNat) 0 n) = y := by
  have h : y.toNat < 256 ^ n := by rw [show 256 = 2 ^ 8 from rfl, ← pow_mul]; exact y.isLt
  rw [leBytes_natBytes, Nat.mod_eq_of_lt h, BitVec.ofNat_toNat, BitVec.setWidth_eq]

theorem length_imageBytes (x : Ctx) : (imageBytes x).length = 2048 := by simp [imageBytes]

/-- The dword of a list of words. -/
theorem imgWord_words (f : Nat → Word) {m i : Nat} (h : i < m) : imgWord (((List.range m).map fun i => wordBytes (f i)).flatten) (8 * i) = f i := by
  rw [imgWord_flatten (fun i => length_wordBytes (f i)) h, imgWord_wordBytes]

/-! The fields of an image, each at its place in R61's layout. -/

section
variable (x : Ctx)

theorem imageBytes_g {r : Nat} (h : r < 64) : imgWord (imageBytes x) (8 * r) = x.a.rdG r := by
  simp (disch := (simp [length_natBytes, -List.length_flatten]; omega)) only [imageBytes, archBytes, imgWord_append_left]
  exact imgWord_words _ h

theorem imageBytes_v {r : Nat} (h : r < 16) : BitVec.ofNat 512 (leBytes (imageBytes x) (512 + 64 * r) 64) = vget x.a.v r 0 := by
  simp (disch := (simp [length_natBytes, -List.length_flatten]; try omega)) only [imageBytes, archBytes, leBytes_append_left,
    leBytes_append_right]
  rw [length_flatten_wordBytes, Nat.add_sub_cancel_left, leBytes_flatten (fun i => length_natBytes 64 _) h]
  exact ofNat_leBytes_natBytes 64 _

theorem imageBytes_p {r : Nat} (h : r < 8) : imgWord (imageBytes x) (1536 + 8 * r) = x.a.rdP r := by
  simp (disch := (simp [length_natBytes, -List.length_flatten]; try omega)) only [imageBytes, archBytes, imgWord_append_left,
    imgWord_append_right]
  rw [List.length_append, length_flatten_wordBytes, length_flatten_natBytes, Nat.add_sub_cancel_left]
  exact imgWord_words _ h

theorem imageBytes_pipe {r : Nat} (h : r < 8) : imgWord (imageBytes x) (1640 + 8 * r) = BitVec.ofNat 64 (vget x.a.pipe r 0).toNat := by
  simp (disch := (simp [length_natBytes, -List.length_flatten]; try omega)) only [imageBytes, archBytes, imgWord_append_left,
    imgWord_append_right]
  simp only [List.length_append, length_flatten_wordBytes, length_flatten_natBytes, length_wordBytes, length_natBytes]
  rw [Nat.add_sub_cancel_left, imgWord_flatten (fun i => length_natBytes 8 _) h, imgWord_natBytes]

theorem imageBytes_hold {r : Nat} (h : r < 16) : imgWord (imageBytes x) (1904 + 8 * r) = vget x.hold r 0 := by
  simp (disch := (simp [length_natBytes, -List.length_flatten]; try omega)) only [imageBytes, unitBytes, imgWord_append_left,
    imgWord_append_right]
  simp only [List.length_append, length_archBytes, length_flatten_natBytes, length_natBytes]
  rw [show 1904 + 8 * r - 1704 - (8 + 32 * 4 + 16 * 4) = 8 * r by omega]
  exact imgWord_words _ h

theorem imageBytes_pc : imgWord (imageBytes x) 1600 = x.a.pc := by
  simp [imageBytes, archBytes, imgWord_append_left, imgWord_append_right, -List.length_flatten]

theorem imageBytes_wid : imgWord (imageBytes x) 1608 = x.a.wid := by
  simp [imageBytes, archBytes, imgWord_append_left, imgWord_append_right, -List.length_flatten]

theorem imageBytes_widf : imgWord (imageBytes x) 1616 = x.a.widf := by
  simp [imageBytes, archBytes, imgWord_append_left, imgWord_append_right, -List.length_flatten]

theorem imageBytes_ltag : imgWord (imageBytes x) 1624 = BitVec.ofNat 64 (x.a.ltag.toNat + if x.a.wonly then 2 ^ 16 else 0) := by
  simp [imageBytes, archBytes, imgWord_append_left, imgWord_append_right, length_natBytes, imgWord_natBytes, -List.length_flatten]

theorem imageBytes_fpf : imgWord (imageBytes x) 1632 = BitVec.ofNat 64 x.a.fpf.toNat := by
  simp [imageBytes, archBytes, imgWord_append_left, imgWord_append_right, length_natBytes, imgWord_natBytes, -List.length_flatten]
end

/-! Vectors by their elements. -/

@[simp] theorem vget_ofFn {α : Type} {n : Nat} (f : Fin n → α) (d : α) {i : Nat} (h : i < n) : vget (Vector.ofFn f) i d = f ⟨i, h⟩ := by
  simp [vget, h]

theorem vget_eq_getElem {α : Type} {n : Nat} (x : Vector α n) (d : α) {i : Nat} (h : i < n) : vget x i d = x[i] := by
  simp [vget, h]

/-- A vector is what a function that gives its elements makes. -/
theorem ofFn_eq_of_vget {α : Type} {n : Nat} {f : Fin n → α} {x : Vector α n} (d : α) (h : ∀ i : Fin n, f i = vget x i.val d) :
    Vector.ofFn f = x := by
  ext i hi
  rw [Vector.getElem_ofFn, h, vget_eq_getElem x d hi]

/-- LTAG and the WONLY mark share a dword of the image. -/
theorem ltag_wonly_fields (l : BitVec 16) (w : Bool) : let y := BitVec.ofNat 64 (l.toNat + if w then 2 ^ 16 else 0)
    y.extractLsb' 0 16 = l ∧ y.getLsbD 16 = w := by
  have h : l.toNat < 2 ^ 16 := l.isLt
  constructor
  · apply BitVec.eq_of_toNat_eq
    cases w <;> simp <;> omega
  · rw [BitVec.getLsbD, BitVec.toNat_ofNat, Nat.testBit_eq_decide_div_mod_eq]
    cases w <;> simp <;> omega

theorem extract_ofNat_toNat {n : Nat} (y : BitVec n) (h : n ≤ 64) : (BitVec.ofNat 64 y.toNat).extractLsb' 0 n = y := by
  apply BitVec.eq_of_toNat_eq
  have hy : y.toNat < 2 ^ 64 := Nat.lt_of_lt_of_le y.isLt (Nat.pow_le_pow_right (by omega) h)
  rw [BitVec.extractLsb'_toNat, BitVec.toNat_ofNat, Nat.shiftRight_zero, Nat.mod_eq_of_lt hy, Nat.mod_eq_of_lt y.isLt]

/-- The general and predicate registers that an image holds; g0 and p0 read as ever. -/
theorem archOf_rdG (x : Ctx) {r : Nat} (hr : r < 64) : (archOf (imageBytes x)).rdG r = x.a.rdG r := by
  by_cases h0 : r = 0
  · rw [h0, Arch.rdG_zero, Arch.rdG_zero]
  · simp [Arch.rdG, archOf, h0, hr, imageBytes_g]

theorem archOf_rdP (x : Ctx) {r : Nat} (hr : r < 8) : (archOf (imageBytes x)).rdP r = x.a.rdP r := by
  by_cases h0 : r = 0
  · rw [h0, Arch.rdP_zero, Arch.rdP_zero]
  · simp [Arch.rdP, archOf, h0, hr, imageBytes_p]

end Sys2Proof.Machine

open Sys2Proof Sys2Proof.Machine

/-- Settles O42: each field of the image stands at its place in R61's layout, where `archOf` and `holdOf` look for it. -/
theorem imageRoundTrip : Obligations.ImageRoundTrip := by
  intro x
  obtain ⟨hl, hw⟩ := ltag_wonly_fields x.a.ltag x.a.wonly
  refine ⟨length_imageBytes x, fun r hr => archOf_rdG x hr, fun r hr => archOf_rdP x hr, ?_, imageBytes_pc x, imageBytes_wid x, imageBytes_widf x, ?_, ?_, ?_, ?_, ?_⟩
  · exact ofFn_eq_of_vget 0 fun i => imageBytes_v x i.isLt
  · simp only [archOf, imageBytes_ltag, hl]
  · simp only [archOf, imageBytes_fpf, extract_ofNat_toNat _ (by decide : 6 ≤ 64)]
  · exact ofFn_eq_of_vget 0 fun i => by rw [imageBytes_pipe x i.isLt, extract_ofNat_toNat _ (by decide : 16 ≤ 64)]
  · simp only [archOf, imageBytes_ltag, hw]
  · exact ofFn_eq_of_vget 0 fun i => imageBytes_hold x i.isLt
end

section
/-! O3: a turn of the clock, and the bundle that a context's turn executes (R35, R52, R71-R76). -/

namespace Sys2Proof.Machine

/-- A fetch's walk changes no context and no issue record. -/
theorem touchFetch_cores (s : State) : (touchFetch s).cores = s.cores := by
  unfold touchFetch; dsimp only; split
  · exact touch_cores ..
  · rfl

theorem touchFetch_fixed (s : State) : (touchFetch s).fixed = s.fixed := by
  unfold touchFetch; dsimp only; split
  · exact fixed_touch ..
  · rfl

theorem touchFetch_iss (s : State) : (touchFetch s).iss = s.iss := congrArg (·.1) (touchFetch_fixed s)

theorem touchFetch_me (s : State) : (touchFetch s).me = s.me := by
  simp only [State.me, State.ctx, State.core, touchFetch_cores, touchFetch_iss]

/-- The turn of a context with no deferred fault, whose bundle is fetched and met by no breakpoint. -/
theorem issueTurn_fetched (ex : Instr → State → Out) {s : State} {c : CoreId} {n : SlotNo} {w0 w1 : W32} (hd : (s.ctx c n).dfault = none)
    (hh : fetchHeld (issueRecord s c n) = false) (hf : fetchBundle (issueRecord s c n) = .ok w0 w1)
    (hb : (touchFetch (issueRecord s c n)).breakpoint = none) :
    issueTurn ex s c n = issueWords ex (touchFetch (issueRecord s c n)) w0 w1 := by
  have hf' : issueTurn.fetched ex (issueRecord s c n) = issueWords ex (touchFetch (issueRecord s c n)) w0 w1 := by
    simp only [issueTurn.fetched, hh, hf, hb, Bool.false_eq_true, if_false]
  rw [← hf', issueTurn]
  simp only [State.ctx] at hd
  simp only [hd]
  rfl

/-- R71-R76: the words of a bundle run as they decode, where the context bears no WONLY mark and no scatter is out. -/
theorem issueWords_unmarked (ex : Instr → State → Out) {s : State} (w0 w1 : W32) (hw : s.me.a.wonly = false) (hs : s.me.scatterOut = false) :
    issueWords ex s w0 w1 =
      afterIssue (match decodeBundle w0 w1 with
        | .bad _ => ex (.unassignedEncoding w0 w1) ({ s with iss := { s.iss with bundle := w1 ++ w0 } } : State).opened
        | .pair i a => runPair ex i a ({ s with iss := { s.iss with bundle := w1 ++ w0 } } : State).opened
        | .lone i => runLone ex i ({ s with iss := { s.iss with bundle := w1 ++ w0 } } : State).opened)
        fun r => .next (settleBundle s.me (bundleS w0) r) := by
  unfold issueWords
  simp only [hw, hs]
  cases decodeBundle w0 w1 <;> rfl

/-- R52: what a context does that is READY or in HANDLER. -/
theorem ctxTurn_live (ex : Instr → State → Out) (s : State) (c : CoreId) (n : SlotNo)
    (h : (s.ctx c n).st = .ready ∨ (s.ctx c n).st = .handler) : ctxTurn ex s c n = liveTurn ex s c n := by
  simp only [State.ctx] at h
  rcases h with h | h <;> simp only [ctxTurn, h]

/-- A context before whose next bundle nothing comes issues. -/
theorem liveTurn_issues (ex : Instr → State → Out) {s : State} {c : CoreId} {n : SlotNo} (hl : (s.ctx c n).live = true)
    (hla : (s.ctx c n).later = false) (hch : ∀ ch, (s.ctx c n).chunk = some ch → ch.ending = false) (hco : (s.ctx c n).compl = none)
    (hu : upcallDue (s.core c) = false ∨ n ≠ 0) (ht : (s.ctx c n).tpend = []) (hr : (s.ctx c n).replaying = false)
    (hk : needsToken s c n = false) : liveTurn ex s c n = issueTurn ex s c n := by
  have hend : ((s.ctx c n).chunk.map (·.ending)).getD false = false := by
    cases hc : (s.ctx c n).chunk with
    | none => rfl
    | some ch => exact hch ch hc
  have htrap : trapDue s c n = none := by simp [trapDue, Ctx.nextPend_nil _ ht]
  have hrep : endReplay s c n = s := by simp [endReplay, hr]
  simp only [liveTurn, hl, hla, hend, hco, htrap, Ctx.replayOut, hr, hrep, hk]
  rcases hu with hu | hu
  · simp [hu]
  · simp [show ¬n = 0#4 from hu]

/-! A step: the event due, or the turn of the clock. -/

section
variable {s : State} (ha : s.agenda = [])
include ha

theorem step_turn : step s = turnStep exec s := by simp only [step, ha]

theorem step_slotTurn (h : s.turn.slot < 11) : step s = slotTurn exec s.tick s.turn.core (BitVec.ofNat 4 s.turn.slot) := by
  simp [step_turn ha, turnStep, h]

theorem step_serviceCycle (h : s.turn.slot = 11) : step s = .next (serviceCycle s.tick s.turn.core) := by
  simp [step_turn ha, turnStep, h]

theorem step_unitsCycle (h : 11 < s.turn.slot) : step s = .next (unitsCycle s.tick s.turn.core) := by
  simp [step_turn ha, turnStep, show ¬s.turn.slot < 11 by omega, show s.turn.slot ≠ 11 by omega]
end

theorem step_event {s : State} {i : Instr} {t : List Instr} (ha : s.agenda = i :: t) (he : isEvent i = true) :
    step s = exec i { s with agenda := t } := by
  simp [step, ha, agendaStep, he]

end Sys2Proof.Machine

open Sys2Proof Sys2Proof.Machine

/-- Settles O3: the fetch finds the bundle, `issueWords` runs it as it decodes, and each other clause is the branch of the turn, or of
the step, that its premises select. -/
theorem turnRunsDecodedBundle : Obligations.TurnRunsDecodedBundle := by
  refine ⟨?_, ?_, fun s => step_slotTurn, fun s => step_serviceCycle, fun s => step_unitsCycle, fun s i t => step_event⟩
  · intro s c n w0 w1 hd hw hs hh hf hb t t' fin
    have hme : t.me = s.ctx c n := touchFetch_me _
    have hrun := (issueTurn_fetched exec hd hh hf hb).trans
      (issueWords_unmarked exec w0 w1 (show t.me.a.wonly = false by rw [hme, hw]) (show t.me.scatterOut = false by rw [hme, hs]))
    refine ⟨fun i a hdec => ?_, fun i hdec => ?_, fun r hdec => ?_⟩
    all_goals
      rw [hrun, hdec]
      rfl
  · intro s c n x hst hrel hla hch hco hu ht hr hk
    have hl : x.live = true := by rcases hst with h | h <;> simp [Ctx.live, h, hrel]
    rw [ctxTurn_live exec s c n hst, liveTurn_issues exec hl hla hch hco hu ht hr hk]
end

section
/-! O50: the writes of control registers that have an effect of their own (R66, R67, R261, R317, R341, R455, R340, R90). -/

namespace Sys2Proof.Machine

/-! Fields of one size side by side are digits of a number. -/

/-- The digit at a place of a number made of digits. -/
theorem ofDigits_digit {b : Nat} {L : List Nat} (hL : ∀ x ∈ L, x < b) {i : Nat} (h : i < L.length) :
    Nat.ofDigits b L / b ^ i % b = L[i] := by
  induction L generalizing i with
  | nil => exact absurd h (Nat.not_lt_zero i)
  | cons d t ih =>
    have hd : d < b := hL d (by simp)
    rw [Nat.ofDigits_cons]
    cases i with
    | zero => simp [Nat.add_mul_mod_self_left, Nat.mod_eq_of_lt hd]
    | succ i =>
      rw [pow_succ', ← Nat.div_div_eq_div_mul, Nat.add_mul_div_left _ _ (by omega), Nat.div_eq_of_lt hd, Nat.zero_add]
      exact ih (fun x hx => hL x (by simp [hx])) (by simpa using h)

theorem sum_eq_ofDigits (b m : Nat) (f : Nat → Nat) : ((List.range m).map fun i => f i * b ^ i).sum = Nat.ofDigits b ((List.range m).map f) := by
  rw [Nat.ofDigits_eq_sum_mapIdx]
  congr 1
  exact List.ext_getElem (by simp) (by simp)

/-! SLOT.OWN (R66). -/

/-- The owner field of helper slot n after a write of SLOT.OWN. -/
def ownField (k : Core) (x : Word) (n : SlotNo) : Nat :=
  if (k.ctx n).st == .vacant then x.toNat / 4 ^ (n.toNat - 1) % 4 else ownerQ k.r.slotOwn n.toNat

theorem ownField_lt (k : Core) (x : Word) (n : SlotNo) : ownField k x n < 4 := by
  unfold ownField ownerQ; split <;> omega

/-- The owner fields that a write leaves, slot 1 first. -/
def ownFields (k : Core) (x : Word) : List Nat := helperSlots.map (ownField k x)

theorem setSlotOwn_eq (s : State) (c : CoreId) (x : Word) : setSlotOwn s c x = s.modCore c fun k =>
    { k with r := { k.r with slotOwn := BitVec.ofNat 20 (Nat.ofDigits 4 (ownFields (s.core c) x)) } } := by
  have hsum : (helperSlots.map fun n => ownField (s.core c) x n * 4 ^ (n.toNat - 1)).sum = Nat.ofDigits 4 (ownFields (s.core c) x) := by
    rw [ownFields, helperSlots, List.map_map, List.map_map, Function.comp_def, Function.comp_def, ← sum_eq_ofDigits]
    refine congrArg List.sum (List.map_congr_left fun i hi => ?_)
    have : i < 10 := List.mem_range.mp hi
    rw [BitVec.toNat_ofNat, Nat.mod_eq_of_lt (by omega), Nat.add_sub_cancel]
  simp only [setSlotOwn, State.modCore]
  rw [← hsum]
  simp only [ownField]

theorem ownerQ_ownFields (k : Core) (x : Word) {n : Nat} (h1 : 1 ≤ n) (h2 : n ≤ 10) :
    ownerQ (BitVec.ofNat 20 (Nat.ofDigits 4 (ownFields k x))) n = ownField k x (BitVec.ofNat 4 n) := by
  have hlen : (ownFields k x).length = 10 := rfl
  have hlt : ∀ y ∈ ownFields k x, y < 4 := by
    intro y hy
    obtain ⟨m, -, rfl⟩ := List.mem_map.mp hy
    exact ownField_lt k x m
  have hb : Nat.ofDigits 4 (ownFields k x) < 2 ^ 20 := by
    have := Nat.ofDigits_lt_base_pow_length (by decide : 1 < 4) hlt
    rwa [hlen] at this
  rw [ownerQ, BitVec.toNat_ofNat, Nat.mod_eq_of_lt hb, ofDigits_digit hlt (by omega)]
  simp [ownFields, helperSlots, show n - 1 + 1 = n by omega]

/-! KM.CFG (R261). -/

/-- A write of KM.CFG that moves the area configures anew, with no entry. -/
theorem setKmCfg_moved (m : KeyMap) (x : Word) (h : m.offset.toNat ≠ (x.extractLsb' 4 14).toNat) :
    let m' := setKmCfg m x
    m'.offset = x.extractLsb' 4 14 ∧ m'.sizelog = x.extractLsb' 18 4 ∧ m'.count = x.extractLsb' 22 12 ∧ m'.exact_ = [] ∧ m'.wins = [] := by
  have hne : (x.extractLsb' 4 14 == m.offset) = false := by
    rw [beq_eq_false_iff_ne]
    exact fun e => h (congrArg BitVec.toNat e).symm
  simp only [setKmCfg, hne, Bool.false_and, Bool.false_eq_true, if_false]
  split <;> exact ⟨rfl, rfl, rfl, rfl, rfl⟩

/-! ACC.WGT (R317). -/

/-- The weights that a write of ACC.WGT leaves, core 0 first. -/
def accWeights (x : Word) : List Nat := (List.range 8).map fun i => max 1 (x.toNat / 16 ^ i % 16)

theorem length_accWeights (x : Word) : (accWeights x).length = 8 := by simp [accWeights]

theorem accWeights_lt (x : Word) : ∀ y ∈ accWeights x, y < 16 := by
  intro y hy
  obtain ⟨i, -, rfl⟩ := List.mem_map.mp hy
  have := Nat.mod_lt (x.toNat / 16 ^ i) (by decide : 16 > 0)
  omega

theorem accWeights_getD (x : Word) {i : Nat} (h : i < 8) : (accWeights x).getD i 1 = max 1 (x.toNat / 16 ^ i % 16) := by
  simp [accWeights, h]

/-- The arbiter of a half-cluster after a write of ACC.WGT. -/
def halfAfterWgt (h : Half) (x : Word) : Half :=
  { h with wgt := BitVec.ofNat 32 (Nat.ofDigits 16 (accWeights x)), cred := Vector.ofFn fun i => (accWeights x).getD i.val 1, ptr := 0 }

theorem setAccWgt_eq (s : State) (c : CoreId) (x : Word) :
    setAccWgt s c x = s.setHalf (halfOf c) (halfAfterWgt (s.half (halfOf c)) x) := by
  rw [halfAfterWgt, Nat.ofDigits_eq_sum_mapIdx]
  simp only [setAccWgt, accWeights]

@[simp] theorem halfAfterWgt_ptr (h : Half) (x : Word) : (halfAfterWgt h x).ptr = 0 := by simp only [halfAfterWgt]
@[simp] theorem halfAfterWgt_begun (h : Half) (x : Word) : (halfAfterWgt h x).begun = h.begun := by simp only [halfAfterWgt]

theorem halfAfterWgt_weight (h : Half) (x : Word) {i : Nat} (hi : i < 8) :
    (halfAfterWgt h x).weight i = max 1 (x.toNat / 16 ^ i % 16) := by
  have hb : Nat.ofDigits 16 (accWeights x) < 2 ^ 32 := by
    have := Nat.ofDigits_lt_base_pow_length (by decide : 1 < 16) (accWeights_lt x)
    rwa [length_accWeights] at this
  rw [Half.weight, halfAfterWgt, BitVec.toNat_ofNat, Nat.mod_eq_of_lt hb, ofDigits_digit (accWeights_lt x) (by simpa [accWeights] using hi)]
  simp [accWeights]

theorem halfAfterWgt_cred (h : Half) (x : Word) {i : Nat} (hi : i < 8) :
    vget (halfAfterWgt h x).cred i 0 = max 1 (x.toNat / 16 ^ i % 16) := by
  rw [halfAfterWgt, vget_ofFn _ _ hi, accWeights_getD x hi]

/-! TRAP.CAUSE (R341). -/

theorem bits_getLsbD {hi lo i : Nat} (h : i < 64) (hle : lo ≤ hi) : (bits hi lo).getLsbD i = decide (lo ≤ i ∧ i ≤ hi) := by
  rw [bits, BitVec.getLsbD_ofNat, Nat.testBit_mul_two_pow, Nat.testBit_two_pow_sub_one, Bool.eq_iff_iff]
  simp only [Bool.and_eq_true, decide_eq_true_eq]
  omega

/-- Software writes BUSY, KILL and WONLY of TRAP.CAUSE. -/
theorem trapCauseMask_bit {i : Nat} (h : i < 64) : (crMask 0x800 true).getLsbD i = decide (i = 63 ∨ i = 62 ∨ i = 14) := by
  have hm : crMask 0x800 true = bits 63 62 ||| bits 14 14 := by simp [crMask]
  rw [hm, BitVec.getLsbD_or, bits_getLsbD h (by decide), bits_getLsbD h (by decide), Bool.eq_iff_iff]
  simp only [Bool.or_eq_true, decide_eq_true_eq]
  omega

/-- A field that a mask admits takes the value written; another keeps its own. -/
theorem merge_getLsbD (old x m : Word) {i : Nat} (h : i < 64) :
    ((old &&& ~~~m) ||| (x &&& m)).getLsbD i = if m.getLsbD i then x.getLsbD i else old.getLsbD i := by
  rw [BitVec.getLsbD_or, BitVec.getLsbD_and, BitVec.getLsbD_and, BitVec.getLsbD_not]
  cases m.getLsbD i <;> simp [h]

/-! DEV.ID (R90). -/

theorem foldl_fwWrite (s : State) (ds : List (BitVec 2)) :
    (ds.foldl fwWrite s).cores = s.cores ∧ (ds.foldl fwWrite s).mem = s.mem :=
  ⟨foldl_keeps State.cores _ (fun b d => fwWrite_cores b d) ds s, foldl_keeps State.mem _ (fun b d => fwWrite_mem b d) ds s⟩

theorem mem_allDies : ∀ d : BitVec 2, d ∈ allDies := by decide

/-- DEV.ID changes while any host link is up, and nothing of the cores or of memory with it. -/
theorem writeDevId_up (s : State) (x : BitVec 10) {d : BitVec 2} (h : hostUp s d = true) :
    (writeDevId s x).devId = x ∧ (writeDevId s x).cores = s.cores ∧ (writeDevId s x).mem = s.mem := by
  have hd : d ∈ allDies := mem_allDies d
  have hne : (allDies.filter (hostUp s)).isEmpty = false := by
    simpa [List.isEmpty_eq_false_iff_exists_mem] using ⟨d, hd, h⟩
  obtain ⟨hc, hm⟩ := foldl_fwWrite s (allDies.filter (hostUp s))
  simp only [writeDevId, hne, Bool.false_eq_true, if_false]
  exact ⟨trivial, hc, hm⟩

/-! The events. -/

section
variable (c : CoreId) (x : Word) (d : BitVec 10) (s : State)
theorem exec_qwgtWrite : exec (.qwgtWrite c x) s = .next (setQwgt s c x) := rfl
theorem exec_slotOwnWrite : exec (.slotOwnWrite c x) s = .next (setSlotOwn s c x) := rfl
theorem exec_kmCfgWrite : exec (.kmCfgWrite c x) s = execKmCfgWrite c x s := rfl
theorem exec_accWgtWrite : exec (.accWgtWrite c x) s = .next (setAccWgt s c x) := rfl
theorem exec_trapCauseWrite : exec (.trapCauseWrite c x) s = .next (setTrapCause s c x) := rfl
theorem exec_dbgBpWrite : exec (.dbgBpWrite c x) s = .next (setDbgBp s c (x &&& crMask 0x828 true)) := rfl
theorem exec_dbgWpWrite : exec (.dbgWpWrite c x) s = .next (setDbgWp s c (x &&& crMask 0x829 true)) := rfl
theorem exec_devIdWrite : exec (.devIdWrite d) s = .next (writeDevId s d) := rfl
theorem exec_trapVectorWrite : exec (.trapVectorWrite c x) s =
    .next (hostCommand c s fun s => s.modCore c fun k => { k with r := { k.r with trapVec := x } }) := rfl
end

/-- A host command crosses the link of its die (R393). -/
theorem dieCommand_up {d : BitVec 2} {s : State} (node : Nat) (f : State → State) (h : hostUp s d = true) :
    dieCommand d node s f = f (hostNote s node 3 18 (d ++ (0 : BitVec 10))) := by simp [dieCommand, h]

theorem dieCommand_down {d : BitVec 2} {s : State} (node : Nat) (f : State → State) (h : hostUp s d = false) :
    dieCommand d node s f = s := by simp [dieCommand, h]

theorem hostCommand_up {c : CoreId} {s : State} (f : State → State) (h : hostUp s (dieOf c) = true) :
    hostCommand c s f = f (hostNote s (nodeCore c) 3 18 (dieOf c ++ (0 : BitVec 10))) := dieCommand_up _ f h

theorem hostCommand_down {c : CoreId} {s : State} (f : State → State) (h : hostUp s (dieOf c) = false) :
    hostCommand c s f = s := dieCommand_down _ f h

/-- R261: a write of KM.CFG of an area that it may name. -/
theorem execKmCfgWrite_fits (c : CoreId) (x : Word) (s : State) (h1 : 4 ≤ (x.extractLsb' 18 4).toNat) (h2 : (x.extractLsb' 18 4).toNat ≤ 14)
    (h3 : 16 * (x.extractLsb' 4 14).toNat + ((x.extractLsb' 22 12).toNat + 1) * 2 ^ (x.extractLsb' 18 4).toNat ≤ 2 ^ 18) :
    execKmCfgWrite c x s = .next (s.modCore c fun k => { k with km := setKmCfg k.km x }) := by
  have ha : areaBad (x.extractLsb' 4 14).toNat (x.extractLsb' 18 4).toNat (x.extractLsb' 22 12).toNat = false :=
    decide_eq_false (Nat.not_lt.mpr h3)
  have hlo : decide ((x.extractLsb' 18 4).toNat < 4) = false := decide_eq_false (Nat.not_lt.mpr h1)
  have hhi : decide (14 < (x.extractLsb' 18 4).toNat) = false := decide_eq_false (Nat.not_lt.mpr h2)
  simp only [execKmCfgWrite, ha, hlo, hhi, Bool.or_false, Bool.and_false, Bool.false_eq_true, if_false]

theorem execKmCfgWrite_beyond (c : CoreId) (x : Word) (s : State) (h1 : (x.extractLsb' 18 4).toNat ≠ 0)
    (h2 : 2 ^ 18 < 16 * (x.extractLsb' 4 14).toNat + ((x.extractLsb' 22 12).toNat + 1) * 2 ^ (x.extractLsb' 18 4).toNat) :
    execKmCfgWrite c x s = .next s := by
  have ha : areaBad (x.extractLsb' 4 14).toNat (x.extractLsb' 18 4).toNat (x.extractLsb' 22 12).toNat = true := decide_eq_true h2
  have hz : ((x.extractLsb' 18 4).toNat != 0) = true := bne_iff_ne.mpr h1
  simp only [execKmCfgWrite, ha, hz, Bool.or_true, Bool.and_true, if_true]

end Sys2Proof.Machine

open Sys2Proof Sys2Proof.Machine

/-- Settles O50, a lemma for each register: owner fields and weights are digits of the register's value, and a host command does nothing
over a link that is down. -/
theorem controlRegisterEvents : Obligations.ControlRegisterEvents := by
  intro c x d s k
  refine ⟨exec_qwgtWrite c x s, ?_, ⟨fun h1 h2 h3 hm => ?_, fun h1 h2 => ?_⟩, ?_, ?_, exec_dbgBpWrite c x s, exec_dbgWpWrite c x s,
    fun h => ?_, fun h => ?_, fun ⟨e, he⟩ => ?_, fun h => ?_⟩
  · refine ⟨BitVec.ofNat 20 (Nat.ofDigits 4 (ownFields k x)), ?_, fun n h1 h2 => ?_⟩
    · rw [exec_slotOwnWrite, setSlotOwn_eq]
    · rw [ownerQ_ownFields k x h1 h2, ownField, BitVec.toNat_ofNat, Nat.mod_eq_of_lt (show n < 2 ^ 4 by omega)]
      simp only [beq_iff_eq]
  · obtain ⟨hoff, hsz, hcnt, hex, hwin⟩ := setKmCfg_moved k.km x hm
    exact ⟨setKmCfg k.km x, (exec_kmCfgWrite c x s).trans (execKmCfgWrite_fits c x s h1 h2 h3), by rw [hoff], by rw [hsz], by rw [hcnt],
      hex, hwin⟩
  · exact (exec_kmCfgWrite c x s).trans (execKmCfgWrite_beyond c x s h1 h2)
  · refine ⟨halfAfterWgt (s.half (halfOf c)) x, ?_, halfAfterWgt_ptr _ x, halfAfterWgt_begun _ x, fun i hi => ⟨halfAfterWgt_weight _ x hi, halfAfterWgt_cred _ x hi⟩⟩
    rw [exec_accWgtWrite, setAccWgt_eq]
  · refine ⟨_, exec_trapCauseWrite c x s, fun i hi => ?_⟩
    rw [merge_getLsbD _ _ _ hi, trapCauseMask_bit hi]
    simp only [decide_eq_true_eq]
    rfl
  · rw [exec_trapVectorWrite, hostCommand_up _ h]
  · rw [exec_trapVectorWrite, hostCommand_down _ h]
  · obtain ⟨hid, hcores, hmem⟩ := writeDevId_up s d he
    exact ⟨writeDevId s d, exec_devIdWrite d s, hid, hcores, hmem⟩
  · rw [exec_devIdWrite, writeDevId_down s d h]
end

section
/-! O54: assignment of cores, page commands, migration of contexts (R34, R43, R65, R231, R152, R153, R190-R193, R393). -/

namespace Sys2Proof.Machine

/-! The note of a host command changes nothing but the packets of the fabric. -/

section
variable (s : State) (node vc op : Nat) (e : CoreId)
@[simp] theorem hostNote_core (c : CoreId) : (hostNote s node vc op e).core c = s.core c := rfl
@[simp] theorem hostNote_stage : (hostNote s node vc op e).stage = s.stage := rfl
@[simp] theorem coreFenced_hostNote (c : CoreId) : coreFenced (hostNote s node vc op e) c = coreFenced s c := rfl
@[simp] theorem migrateRefused_hostNote (c : CoreId) (n : SlotNo) (dest : CoreId) :
    migrateRefused (hostNote s node vc op e) c n dest = migrateRefused s c n dest := rfl
end

section
variable (s : State) (m : HostMsg)
@[simp] theorem State.tell_core (c : CoreId) : (s.tell m).core c = s.core c := by simp only [State.core, State.tell_cores]
@[simp] theorem State.tell_ctx (c : CoreId) (n : SlotNo) : (s.tell m).ctx c n = s.ctx c n := by simp only [State.ctx, State.tell_core]

theorem State.tell_hostOut (h : hostUp s (dieOf m.core) = true) : (s.tell m).hostOut = s.hostOut ++ [m] := State.tellFrom_up s _ m h
end

@[simp] theorem Arch.rdG_of_zero (pc : Word) (r : Nat) : Arch.rdG { Arch.zero with pc := pc } r = 0 := by
  unfold Arch.rdG
  split
  · rfl
  · simp only [Arch.zero, vget, List.getD_eq_getElem?_getD, Vector.toList_replicate, List.getElem?_replicate]
    split <;> rfl

/-! The events. -/

section
variable (s : State) (c dest : CoreId) (n : SlotNo) (tn : Tenant) (pc spill : Word) (cap va frame id : Nat) (die : BitVec 2) (lg pool : Bool)
theorem exec_coreAssign : exec (.coreAssign c tn pc spill cap) s = execCoreAssign c tn pc spill cap s := rfl
theorem exec_coreUnassign : exec (.coreUnassign c) s = execCoreUnassign c s := rfl
theorem exec_coreResume : exec (.coreResume c) s = execCoreResume c s := rfl
theorem exec_contextMigration : exec (.contextMigration c n dest) s = execContextMigration c n dest s := rfl
theorem exec_pageInvalidation : exec (.pageInvalidation tn pool die va lg) s = execPageInvalidation tn pool die va lg s := rfl
theorem exec_pageMigration : exec (.pageMigration tn die va lg frame) s = execPageMigration tn die va lg frame s := rfl
theorem exec_registerContextMessage : exec (.registerContextMessage c n) s = execRegisterContextMessage c n s := rfl
theorem exec_contextArrival : exec (.contextArrival id) s = execContextArrival id s := rfl
theorem exec_lateReplyForward : exec (.lateReplyForward c id) s = execLateReplyForward c id s := rfl
end

/-! ## Assignment -/

/-- The core that CORE_ASSIGN leaves: the control context of R43 starts. -/
def assignedCore (tn : Tenant) (pc spill : Word) (cap : Nat) (k : Core) : Core :=
  { k.setCtx 0 { Ctx.zero with a := { Arch.zero with pc := pc }, st := .ready, occ := (k.ctx 0).occ + 1 } with
    asg := some tn, sched := { k.sched with spillBase := spill.toNat, spillCap := cap } }

section
variable {s : State} {c : CoreId} (tn : Tenant) (pc : Word) {spill : Word} {cap : Nat} (hup : hostUp s (dieOf c) = true)
include hup

theorem execCoreAssign_done (hst : 4 ≤ s.stage) (hf : coreFenced s c = false) (ha : (s.core c).asg = none) (hsp : spillOk spill cap = true) :
    execCoreAssign c tn pc spill cap s = .next (((hostNote s (nodeCore c) 3 18 (dieOf c ++ (0 : BitVec 10))).modCore c
      (assignedCore tn pc spill cap)).tell (.ok "ASSIGN" c)) := by
  rw [execCoreAssign, hostCommand_up _ hup]
  simp only [hostNote_stage, coreFenced_hostNote, hostNote_core, hf, ha, hsp, Option.isSome_none, Bool.not_true, Bool.or_false,
    decide_eq_true_eq, Nat.not_lt.mpr hst, if_false]
  rfl

theorem execCoreAssign_refused (ha : (s.core c).asg ≠ none) : execCoreAssign c tn pc spill cap s =
    .next ((hostNote s (nodeCore c) 3 18 (dieOf c ++ (0 : BitVec 10))).tell (.refused "ASSIGN" c)) := by
  rw [execCoreAssign, hostCommand_up _ hup]
  simp [hostNote_core, Option.isSome_iff_ne_none.mpr ha]
end

theorem assignedCore_ctx (tn : Tenant) (pc spill : Word) (cap : Nat) (k : Core) : (assignedCore tn pc spill cap k).ctx 0 =
    { Ctx.zero with a := { Arch.zero with pc := pc }, st := .ready, occ := (k.ctx 0).occ + 1 } :=
  Core.ctx_setCtx k 0 _ (by decide)

/-- The core that CORE_UNASSIGN leaves, its control context gone. -/
def unassignedCore (k : Core) : Core :=
  { k with asg := none, r := { k.r with trapCause := if k.busyCtx = 0 then k.r.trapCause &&& ~~~ BitVec.twoPow 64 63 else k.r.trapCause } }

theorem unassignedCore_ctx (k : Core) (n : SlotNo) : (unassignedCore k).ctx n = k.ctx n := rfl

section
variable {s : State} {c : CoreId} (hup : hostUp s (dieOf c) = true)
include hup

theorem execCoreUnassign_done (ha : (s.core c).asg ≠ none) : execCoreUnassign c s =
    .next (((leaveSlot (dropWork (hostNote s (nodeCore c) 3 18 (dieOf c ++ (0 : BitVec 10))) c 0) c 0 true).modCore c unassignedCore).tell
      (.ok "UNASSIGN" c)) := by
  have hn : (s.core c).asg.isNone = false := by simpa using Option.isSome_iff_ne_none.mpr ha
  rw [execCoreUnassign, hostCommand_up _ hup]
  simp only [hostNote_core, hn, Bool.false_eq_true, if_false]
  rfl

theorem execCoreResume_done (hh : (s.core c).halted = true) : execCoreResume c s =
    .next (((hostNote s (nodeCore c) 3 18 (dieOf c ++ (0 : BitVec 10))).modCore c fun k => { k with halted := false, halting := false }).tell
      (.ok "RESUME" c)) := by
  rw [execCoreResume, hostCommand_up _ hup]
  simp only [hostNote_core, hh, if_true]
end

/-! ## Migration -/

section
variable (s : State) (id : Nat)

@[simp] theorem hostXlate_cores (r : Req) : (hostXlate s r).cores = s.cores := by unfold hostXlate; split <;> rfl

@[simp] theorem leaveCore_cores (r : Req) : (s.leaveCore r).cores = s.cores := by
  unfold State.leaveCore; simp only [State.emit_cores, hostXlate_cores]

@[simp] theorem fillWindow_cores : s.fillWindow.cores = s.cores := by
  unfold State.fillWindow
  refine foldl_keeps State.cores _ (fun b a => ?_) _ _
  split
  · rfl
  · split
    · rfl
    · rw [leaveCore_cores]

/-- An answer changes no core. -/
@[simp] theorem answer_cores (a : Reply) : (s.answer id a).cores = s.cores := by
  unfold State.answer; dsimp only; split
  · split
    · rw [fillWindow_cores]; rfl
    · rfl
  · rfl

@[simp] theorem answer_core (a : Reply) (c : CoreId) : (s.answer id a).core c = s.core c := by simp only [State.core, answer_cores]

/-- A cancel changes no core. -/
@[simp] theorem sendCancel_cores (o : Bool) : (s.sendCancel id o).cores = s.cores := by
  unfold State.sendCancel; split
  · dsimp only; split <;> rfl
  · rfl
end

/-- A wait of a context that another core holds is asked back (R285). -/
def askWaitBack (s : State) (c : CoreId) (n : SlotNo) : State :=
  match (s.ctx c n).wait.bind (·.req) with
  | some id => s.sendCancel id false
  | none => s

theorem askWaitBack_core (s : State) (c : CoreId) (n : SlotNo) (e : CoreId) : (askWaitBack s c n).core e = s.core e := by
  unfold askWaitBack; split
  · simp only [State.core, sendCancel_cores]
  · rfl

/-- A slot of a core is kept for a context that migrates. -/
def keepSlot (d : SlotNo) (k : Core) : Core := { k with sched := { k.sched with resv := vset k.sched.resv d.toNat .migrate } }

/-- A context whose migration to a slot begins. -/
def departing (dest : CoreId) (d : SlotNo) (x : Ctx) : Ctx :=
  { x with st := .departing, depart := some (dest, d), compl := none,
           chunk := if x.wait.isSome then x.chunk else x.chunk.map fun ch => { ch with ending := true } }

/-- The state in which a migration has begun. -/
def migrationBegun (s : State) (c : CoreId) (n : SlotNo) (dest : CoreId) (d : SlotNo) : State :=
  (askWaitBack (s.modCore dest (keepSlot d)) c n).modCtx c n (departing dest d)

theorem execContextMigration_done {s : State} {c dest : CoreId} {n d : SlotNo} (hup : hostUp s (dieOf c) = true)
    (hr : migrateRefused s c n dest = false) (hs : slotForWork (s.core dest) ((s.core c).tenantOf n) = some d) :
    execContextMigration c n dest s = .next (migrationBegun (hostNote s (nodeCore c) 3 18 (dieOf c ++ (0 : BitVec 10))) c n dest d) := by
  rw [execContextMigration, hostCommand_up _ hup]
  simp only [hostNote_core, migrateRefused_hostNote, hr, hs, Bool.false_eq_true, if_false]
  rfl

/-- A context that a migration does not refuse stands in a helper slot. -/
theorem slot_of_migrateRefused {s : State} {c dest : CoreId} {n : SlotNo} (h : migrateRefused s c n dest = false) : n.toNat < 11 := by
  simp only [migrateRefused, Bool.or_eq_false_iff, decide_eq_false_iff_not] at h
  obtain ⟨⟨⟨⟨⟨⟨⟨⟨-, h⟩, -⟩, -⟩, -⟩, -⟩, -⟩, -⟩, -⟩ := h
  omega

section
variable {s : State} {c dest : CoreId} {n d : SlotNo} (hne : c ≠ dest)
include hne

theorem migrationBegun_ctx (hn : n.toNat < 11) : (migrationBegun s c n dest d).ctx c n = departing dest d (s.ctx c n) := by
  rw [migrationBegun, State.ctx_modCtx _ _ _ _ hn]
  simp only [State.ctx, askWaitBack_core, State.core_modCore_ne _ _ hne]

theorem migrationBegun_dest : (migrationBegun s c n dest d).core dest = keepSlot d (s.core dest) := by
  rw [migrationBegun, State.modCtx, State.core_modCore_ne _ _ hne.symm, askWaitBack_core, State.core_modCore]
end

/-- R190: a departing context that waits for nothing sends its message once nothing holds it back. -/
theorem execRegisterContextMessage_sent {s : State} {c dest : CoreId} {n d : SlotNo} (hst : (s.ctx c n).st = .departing)
    (hd : (s.ctx c n).depart = some (dest, d)) (hw : (s.ctx c n).wait = none) (hm : mayDepart s c n = true) :
    execRegisterContextMessage c n s = .next (sendContext s c n dest d) := by
  simp only [execRegisterContextMessage, hst, hd, hw, hm, if_true]

/-! ## Arrival of a context, and its late replies -/

section
variable {s : State} {id : Nat} {r : Req} {m : CtxMsg} (hr : s.req id = some r) (hw : onWay s r = true) (hv : isDiverted s r.body = false)
  (hb : r.body = .ctx m)
include hr hw hv hb

theorem execContextArrival_up (hup : dieUp s (dieOf r.core) (dieOf m.dest) = true) : execContextArrival id s =
    .next ((s.dropReq id).modCore m.dest fun k => { k with sched := { k.sched with arrivals := k.sched.arrivals ++ [.ctx m] } }) := by
  rw [hb] at hv
  simp only [execContextArrival, hr, hw, hv, hb, hup, Bool.not_true, Bool.or_self, Bool.false_eq_true, if_false]

theorem execContextArrival_down (hup : dieUp s (dieOf r.core) (dieOf m.dest) = false) : execContextArrival id s =
    .next ((dropResv s m).answer id (.err eLink 0 (spPtr s.devId m.dest 0))) := by
  rw [hb] at hv
  simp only [execContextArrival, hr, hw, hv, hb, hup, Bool.not_true, Bool.not_false, Bool.or_self, Bool.false_eq_true, if_false, if_true]
end

@[simp] theorem Core.unpark_stray (k : Core) (n : SlotNo) : (k.unpark n).stray = k.stray := by
  unfold Core.unpark; dsimp only; split
  · split <;> rfl
  · rfl

theorem discardLong_stray (s : State) (c : CoreId) (n : SlotNo) (id : Nat) :
    ((discardLong s c n id).core c).stray = (s.core c).stray.filter (· != id) := by
  rw [discardLong, State.core_modCore, Core.unpark_stray]
  rfl

theorem req_none_of_net {s : State} {id : Nat} (h : ∀ r ∈ s.net, r.id ≠ id) : s.req id = none := by
  simpa [State.req, List.find?_eq_none] using h

@[simp] theorem req_dropReq_same (s : State) (id : Nat) : (s.dropReq id).req id = none :=
  req_none_of_net fun r hr => by simpa using (List.mem_filter.mp hr).2

/-- R191: the last late reply of a forwarding entry frees it, and is discarded at the new core. -/
theorem execLateReplyForward_last {s : State} {c dest : CoreId} {d : SlotNo} {id : Nat} {r : Req} (hf : (s.core c).fwd = [([id], dest, d)])
    (hr : s.req id = some r) (ho : r.open_ = false) (hne : c ≠ dest) (hd : (s.core dest).fwd = []) : execLateReplyForward c id s =
      .next (discardLong ((s.modCore c fun k => { k with
        fwd := (k.fwd.map fun f => (f.1.filter (· != id), f.2)).filter fun f => !f.1.isEmpty }).dropReq id) dest d id) := by
  simp only [execLateReplyForward, hf, List.find?_cons, List.contains_cons, List.contains_nil, beq_self_eq_true, Bool.or_false, hr, ho,
    Bool.false_eq_true, if_false, State.core_modCore_ne _ _ hne.symm, hd, List.any_nil]

end Sys2Proof.Machine
end

section
/-! O54: page invalidation and migration (R152, R153), and the statement's proof. -/

namespace Sys2Proof.Machine

/-! ## Numbers in memory -/

section
variable (m : Mem)

/-- A number read where it has been written. -/
theorem memNat_memWrite_same (k n x : Nat) : memNat (memWrite m k (natBytes n x)) k n = x % 256 ^ n := by
  have hread : memRead (memWrite m k (natBytes n x)) k n = natBytes n x := by
    refine List.ext_getElem (by simp [memRead, length_natBytes]) fun i h1 h2 => ?_
    simp only [memRead, List.getElem_map, List.getElem_range]
    exact memGet_memWrite_at m k _ i h2
  rw [memNat, hread, leBytes_natBytes]

/-- A number that lies clear of what is written. -/
theorem memNat_memWrite_ne {k j n : Nat} {bs : List Byte} (h : j + n ≤ k ∨ k + bs.length ≤ j) :
    memNat (memWrite m k bs) j n = memNat m j n := by
  unfold memNat memRead
  refine congrArg (leBytes · 0 n) (List.map_congr_left fun i hi => memGet_memWrite m k bs _ ?_)
  rw [List.mem_range] at hi
  omega

/-- Bytes copied from one place to another. -/
theorem memGet_memWrite_memRead {k j n i : Nat} (h : i < n) (m' : Mem) : memGet (memWrite m k (memRead m' j n)) (k + i) = memGet m' (j + i) := by
  rw [memGet_memWrite_at m k _ i (by simpa [memRead] using h)]
  simp [memRead]

theorem length_memRead (k n : Nat) : (memRead m k n).length = n := by simp [memRead]
end

@[simp] theorem core_dropReq (s : State) (id : Nat) (c : CoreId) : (s.dropReq id).core c = s.core c := rfl

/-! ## Page commands -/

section
variable (s : State) (f : Option Nat) (tn : Tenant) (die : BitVec 2) (va : Nat) (lg : Bool)

/-- The command that `openPage` notes for a page of a die's memory. -/
def openedCmd : PageCmd :=
  let pages := pageSpan va lg
  let before := (s.die die).pageCmds.filter fun e => e.tenant == tn && e.pool == false && (pageSpan e.va e.large).any pages.contains
  let rs := pageKeys s tn false die pages ++ (before.map (·.ranges)).flatten
  { frame := f, tenant := tn, pool := false, die := die, va := va, large := lg, ranges := rs, chunks := chunkHolders s die rs,
    copies := copyHolders s tn false die pages, mgets := mgetHolders s die rs }

theorem openPage_die : openPage s f tn false die va lg =
    (dropPages s tn false die (pageSpan va lg)).modDie die fun x => { x with pageCmds := x.pageCmds ++ [openedCmd s f tn die va lg] } := by
  simp [openPage, openedCmd]

/-- R152 step 1: no translation of the pages is left in the cache. -/
theorem dropPages_tlb (pages : List Nat) {g : Tlb} (hg : g ∈ ((dropPages s tn false die pages).die die).tlb) (hp : g.pool = false)
    (ht : g.tenant = tn) : g.page ∉ pages := by
  intro hmem
  simp only [dropPages, State.die_modDie, List.mem_filter, hp, ht, beq_self_eq_true, Bool.true_and, Bool.not_eq_true'] at hg
  obtain ⟨-, hkeep⟩ := hg
  split at hkeep
  · exact List.any_eq_false.mp hkeep g.page hmem (beq_self_eq_true _)
  · simp [hmem] at hkeep
end

section
variable {s : State} {die : BitVec 2} {m : PageCmd} (hc : (s.die die).pageCmds = [m])
include hc

/-- A die whose one page command still waits does nothing. -/
theorem pageStep_waits (hw : pageWaits s m = true) : pageStep s die = s := by
  simp [pageStep, hc, hw]

/-- A die's one page command for which nothing waits is done. -/
theorem pageStep_closes (hw : pageWaits s m = false) : pageStep s die = closePage (s.modDie die fun x => { x with pageCmds := [] }) m := by
  simp [pageStep, hc, hw, State.modDie]
end

theorem closePage_invalidation (s : State) {m : PageCmd} (hf : m.frame = none) : closePage s m = s.tell (.ok "INVALIDATE" (dieCore m.die)) := by
  simp only [closePage, hf]

theorem closePage_migration {s : State} {m : PageCmd} {f a e : Nat} {l : Bool} (hf : m.frame = some f)
    (hr : moveRefused s m.tenant m.die m.va m.large f = false) (hl : leafAt s m.die m.tenant m.va = some (a, e, l)) :
    closePage s m = serveStreams ((dropPages (moveFrame s m.die a e (e / 2 ^ 16 % 2 ^ 36) f (if m.large then 2 ^ 21 else 2 ^ 16)) m.tenant
      false m.die (pageSpan m.va m.large)).tell (.ok "MIGRATE_PAGE" (dieCore m.die))) := by
  simp only [closePage, hf, hr, hl, Bool.false_eq_true, if_false]

/-! ## The move of a frame (R153) -/

/-- A leaf entry with another frame. -/
theorem movedEntry_fields (entry new : Nat) (h : new < 2 ^ 36) :
    let x := (entry - entry / 2 ^ 16 % 2 ^ 36 * 2 ^ 16 + new * 2 ^ 16) % 256 ^ 8
    x / 2 ^ 16 % 2 ^ 36 = new ∧ x % 2 ^ 16 = entry % 2 ^ 16 := by
  omega

section
variable (s : State) (die : BitVec 2) {leaf entry old new size : Nat}

/-- The memory that the move of a frame leaves: the frame's bytes, the leaf, the two descriptors. -/
theorem moveFrame_mem : (moveFrame s die leaf entry old new size).mem =
    let kd := fun f => sramKey die ((s.die die).descBase + 8 * f)
    let m := memWrite (memWrite s.mem (dmKey die (new * 2 ^ 16)) (memRead s.mem (dmKey die (old * 2 ^ 16)) size)) (dmKey die leaf)
      (natBytes 8 (entry - entry / 2 ^ 16 % 2 ^ 36 * 2 ^ 16 + new * 2 ^ 16))
    memWrite (memWrite m (kd old) (natBytes 8 0)) (kd new) (natBytes 8 (memNat m (kd old) 8 % 2 ^ 10)) := rfl

/-- Die memory lies below the descriptors. -/
theorem dmKey_add_lt {a n : Nat} (ha : a + n ≤ dmSize) (d : BitVec 2) (o : Nat) : dmKey die a + n ≤ sramKey d o := by
  have := die.isLt
  unfold dmKey sramKey dmSize at *
  omega

theorem moveFrame_bytes (hn : new * 2 ^ 16 + size ≤ dmSize) (hl : leaf + 8 ≤ new * 2 ^ 16 ∨ new * 2 ^ 16 + size ≤ leaf) {k : Nat}
    (hk : k < size) : memGet (moveFrame s die leaf entry old new size).mem (dmKey die (new * 2 ^ 16) + k) =
      memGet s.mem (dmKey die (old * 2 ^ 16) + k) := by
  have hlow := fun o => dmKey_add_lt die hn die o
  have hleaf : dmKey die (new * 2 ^ 16) + k < dmKey die leaf ∨ dmKey die leaf + 8 ≤ dmKey die (new * 2 ^ 16) + k := by
    unfold dmKey; omega
  rw [moveFrame_mem]
  dsimp only
  rw [memGet_memWrite _ _ _ _ (.inl (Nat.lt_of_lt_of_le (Nat.add_lt_add_left hk _) (hlow _))),
    memGet_memWrite _ _ _ _ (.inl (Nat.lt_of_lt_of_le (Nat.add_lt_add_left hk _) (hlow _))),
    memGet_memWrite _ _ _ _ (by rwa [length_natBytes]), memGet_memWrite_memRead _ hk]

theorem moveFrame_leaf (hl : leaf + 8 ≤ dmSize) : memNat (moveFrame s die leaf entry old new size).mem (dmKey die leaf) 8 =
    (entry - entry / 2 ^ 16 % 2 ^ 36 * 2 ^ 16 + new * 2 ^ 16) % 256 ^ 8 := by
  have hlow := fun o => dmKey_add_lt die hl die o
  rw [moveFrame_mem]
  dsimp only
  rw [memNat_memWrite_ne _ (.inl (hlow _)), memNat_memWrite_ne _ (.inl (hlow _)), memNat_memWrite_same]

/-- The descriptor of the new frame takes the reference count of the old one. -/
theorem moveFrame_descNew (hn : new * 2 ^ 16 + size ≤ dmSize) (hl : leaf + 8 ≤ dmSize) :
    memNat (moveFrame s die leaf entry old new size).mem (sramKey die ((s.die die).descBase + 8 * new)) 8 =
      memNat s.mem (sramKey die ((s.die die).descBase + 8 * old)) 8 % 2 ^ 10 := by
  rw [moveFrame_mem]
  dsimp only
  rw [memNat_memWrite_same, memNat_memWrite_ne _ (.inr (by rw [length_natBytes]; exact dmKey_add_lt die hl die _)),
    memNat_memWrite_ne _ (.inr (by rw [length_memRead]; exact dmKey_add_lt die hn die _))]
  exact Nat.mod_eq_of_lt (Nat.lt_of_lt_of_le (Nat.mod_lt _ (by decide)) (by decide))

/-- The descriptor of the old frame is cleared. -/
theorem moveFrame_descOld (h : old ≠ new) :
    memNat (moveFrame s die leaf entry old new size).mem (sramKey die ((s.die die).descBase + 8 * old)) 8 = 0 := by
  rw [moveFrame_mem]
  dsimp only
  rw [memNat_memWrite_ne _ (by rw [length_natBytes]; unfold sramKey; omega), memNat_memWrite_same, Nat.zero_mod]

end

/-! ## The commands -/

theorem execPageInvalidation_up {s : State} {die : BitVec 2} (tn : Tenant) (pool : Bool) (va : Nat) (lg : Bool) (h : hostUp s die = true) :
    execPageInvalidation tn pool die va lg s =
      .next (pageStep (openPage (hostNote s (nodeRoot die) 3 18 (die ++ (0 : BitVec 10))) none tn pool die va lg) die) := by
  rw [execPageInvalidation, dieCommand_up _ _ h]

theorem execPageMigration_up {s : State} {die : BitVec 2} (tn : Tenant) (va : Nat) (lg : Bool) (frame : Nat) (h : hostUp s die = true) :
    execPageMigration tn die va lg frame s =
      let hd := hostNote s (nodeRoot die) 3 18 (die ++ (0 : BitVec 10))
      .next (if moveRefused hd tn die va lg frame then hd.tell (.refused "MIGRATE_PAGE" (dieCore die))
        else pageStep (openPage hd (some frame) tn false die va lg) die) := by
  rw [execPageMigration, dieCommand_up _ _ h]

end Sys2Proof.Machine

open Sys2Proof Sys2Proof.Machine

/-- Settles O54: each event comes to the state that the lemma about its meaning names, and the fields of that state are read off it. -/
theorem assignmentEvents : Obligations.AssignmentEvents := by
  intro s c dest n d tn pc spill cap va frame die lg pool h hd
  refine ⟨fun hup hst hf ha hsp => ?_, fun hup ha => ?_, fun hup ha => ?_, fun hup hh => ?_, fun hdown => ?_, fun hup => ?_, fun hup hr => ?_,
    fun hup hr => ?_, fun f => ?_, fun m hc hm => ?_, ?_, fun hup hr hne hs hd11 => ?_, fun hst hdep hw hm => ?_, fun id r m hr hw hv hb => ?_,
    fun id r l hf hr ho hne hdf hl => ?_⟩
  · have hctx : (((h.modCore c (assignedCore tn pc spill cap)).tell (.ok "ASSIGN" c)).ctx c 0) = (assignedCore tn pc spill cap (h.core c)).ctx 0 := by
      rw [State.tell_ctx, State.ctx, State.core_modCore]
    refine ⟨_, (exec_coreAssign ..).trans (execCoreAssign_done tn pc hup hst hf ha hsp), ?_, ?_, ?_, fun r => ?_, ?_, ?_, ?_, ?_⟩
    · simp only [State.tell_core, State.core_modCore, assignedCore]
    · rw [hctx, assignedCore_ctx]
    · rw [hctx, assignedCore_ctx]
    · rw [hctx, assignedCore_ctx]
      exact Arch.rdG_of_zero pc r
    · simp only [State.tell_core, State.core_modCore, assignedCore]
    · simp only [State.tell_core, State.core_modCore, assignedCore]
    · exact State.tell_hostOut _ _ hup
    · exact State.tell_mem _ _
  · exact (exec_coreAssign ..).trans (execCoreAssign_refused tn pc hup ha)
  · refine ⟨_, (exec_coreUnassign ..).trans (execCoreUnassign_done hup ha), ?_, ?_⟩
    · simp only [State.tell_core, State.core_modCore, unassignedCore]
    · rw [State.tell_ctx, State.ctx, State.core_modCore, unassignedCore_ctx]
      exact leaveSlot_vacant _ c 0 true (by decide)
  · exact (exec_coreResume ..).trans (execCoreResume_done hup hh)
  · rw [exec_coreAssign, exec_coreUnassign, exec_coreResume, exec_contextMigration, execCoreAssign, execCoreUnassign, execCoreResume,
      execContextMigration]
    simp only [hostCommand_down _ hdown, and_self]
  · exact (exec_pageInvalidation ..).trans (execPageInvalidation_up tn pool va lg hup)
  · rw [exec_pageMigration, execPageMigration_up tn va lg frame hup]
    exact congrArg Host.Outcome.next (if_neg (Bool.eq_false_iff.mp hr))
  · rw [exec_pageMigration, execPageMigration_up tn va lg frame hup]
    exact congrArg Host.Outcome.next (if_pos hr)
  · intro t
    have ht : t = _ := openPage_die s f tn die va lg
    refine ⟨?_, ?_, fun g hg hp hgt => ?_, openedCmd s f tn die va lg, ?_, rfl, rfl, rfl, rfl, rfl, rfl, rfl⟩
    · rw [ht]; rfl
    · rw [ht]; rfl
    · rw [ht, State.die_modDie] at hg
      exact dropPages_tlb s tn die _ hg hp hgt
    · rw [ht, State.die_modDie]
      simp only [dropPages, State.die_modDie]
  · intro t
    refine ⟨pageStep_waits hc, fun hw => ⟨fun hf => ?_, fun f a e l hf hmr hl => ?_⟩⟩
    · rw [pageStep_closes hc hw, closePage_invalidation _ hf, hm]
    · rw [pageStep_closes hc hw, closePage_migration hf (by rw [hm]; exact hmr) (by rw [hm]; exact hl), hm]
  · intro leaf entry old new size t desc _ hn hl hclear
    refine ⟨fun k hk => moveFrame_bytes s die hn hclear hk, ?_, ?_, moveFrame_descNew s die hn hl, fun hne => moveFrame_descOld s die hne⟩
    all_goals
      have hnew : new < 2 ^ 36 := by unfold dmSize at hn; omega
      rw [moveFrame_leaf s die hl]
    · exact (movedEntry_fields entry new hnew).1
    · exact (movedEntry_fields entry new hnew).2
  · have hctx := migrationBegun_ctx (s := h) hne (d := d) (slot_of_migrateRefused hr)
    refine ⟨_, (exec_contextMigration ..).trans (execContextMigration_done hup hr hs), ?_, ?_, ?_, ?_, ?_⟩
    · rw [hctx]; rfl
    · rw [hctx]; rfl
    · rw [hctx]; rfl
    · rw [hctx]; rfl
    · rw [migrationBegun_dest hne]
      exact vget_vset_same _ _ _ _ hd11
  · exact (exec_registerContextMessage ..).trans (execRegisterContextMessage_sent hst hdep hw hm)
  · refine ⟨fun hup => (exec_contextArrival ..).trans (execContextArrival_up hr hw hv hb hup), fun hup =>
      ⟨_, (exec_contextArrival ..).trans (execContextArrival_down hr hw hv hb hup), fun c' hc' => ?_, ?_⟩⟩
    · rw [answer_core, dropResv, State.core_modCore_ne _ _ hc']
    · rw [answer_core, dropResv, State.core_modCore]
  · refine ⟨_, (exec_lateReplyForward ..).trans (execLateReplyForward_last hf hr ho hne hdf), ?_, req_dropReq_same _ id, ?_⟩
    · rw [discardLong, State.core_modCore_ne _ _ hne, core_dropReq, State.core_modCore]
      simp [hf]
    · rw [discardLong_stray, core_dropReq, State.core_modCore_ne _ _ hne.symm, hl]
end

section
/-! O57, the boundary: what goes on at a rotation boundary leaves the rotation counts of the cores alone, up to the last step, which
raises that of the core (R59). -/

namespace Sys2Proof.Machine

/-- The rotation counts of the cores (R37). -/
def State.rots (s : State) : CoreId → BitVec 40 := fun c => (s.core c).rot

theorem rots_of_cores {s t : State} (h : t.cores = s.cores) : t.rots = s.rots := by
  funext c; simp only [State.rots, State.core, h]

section
variable (s : State)

theorem rots_setCore {c : CoreId} {k : Core} (h : k.rot = (s.core c).rot) : (s.setCore c k).rots = s.rots := by
  funext e
  by_cases he : e = c
  · subst he; simp only [State.rots, State.core_setCore, h]
  · simp only [State.rots, State.core_setCore_ne _ _ he]

@[simp] theorem rots_modCore {c : CoreId} {f : Core → Core} (h : ∀ k, (f k).rot = k.rot) : (s.modCore c f).rots = s.rots :=
  rots_setCore s (h _)

@[simp] theorem rots_modCtx (c : CoreId) (n : SlotNo) (f : Ctx → Ctx) : (s.modCtx c n f).rots = s.rots := rots_modCore s fun _ => rfl
@[simp] theorem rots_modMe (f : Ctx → Ctx) : (s.modMe f).rots = s.rots := rots_modCtx s _ _ f
@[simp] theorem rots_modDie (d : BitVec 2) (f : Die → Die) : (s.modDie d f).rots = s.rots := rfl
@[simp] theorem rots_countDie (d : BitVec 2) (e : Nat) : (s.countDie d e).rots = s.rots := rfl
@[simp] theorem rots_countCtx (c : CoreId) (n : SlotNo) (e : Nat) : (s.countCtx c n e).rots = s.rots := rots_modCore s fun _ => rfl
@[simp] theorem rots_countCore (c : CoreId) (e m : Nat) : (s.countCore c e m).rots = s.rots := rots_modCore s fun _ => rfl
@[simp] theorem rots_setEngine (cl : BitVec 8) (e : Engine) : (s.setEngine cl e).rots = s.rots := rfl
@[simp] theorem rots_draw : s.draw.rots = s.rots := rfl
@[simp] theorem rots_dropReq (id : Nat) : (s.dropReq id).rots = s.rots := rfl
@[simp] theorem rots_answer (id : Nat) (a : Reply) : (s.answer id a).rots = s.rots := rots_of_cores (answer_cores s id a)
@[simp] theorem rots_sendCancel (id : Nat) (o : Bool) : (s.sendCancel id o).rots = s.rots := rots_of_cores (sendCancel_cores s id o)
@[simp] theorem rots_tell (m : HostMsg) : (s.tell m).rots = s.rots := rots_of_cores (State.tell_cores s m)
@[simp] theorem rots_setStream (d : BitVec 2) (j : Nat) (x : Stream) : (s.setStream d j x).rots = s.rots := rfl
@[simp] theorem rots_writeImage (k : Nat) : (writeImage s k).rots = s.rots := rots_of_cores (by simp only [writeImage, State.draw_cores])
@[simp] theorem rots_asCtx (c : CoreId) (n : SlotNo) (b : Word) : (asCtx s c n b).rots = s.rots := rfl
@[simp] theorem rots_iss (i : Iss) : ({ s with iss := i } : State).rots = s.rots := rfl

/-! Trace records. -/

@[simp] theorem rots_offer (c : CoreId) (u : List (BitVec 128)) : (s.offer c u).rots = s.rots := by
  unfold State.offer; dsimp only; split
  · rfl
  · split <;> simp

@[simp] theorem rots_offerIf (c : CoreId) (b : Nat) (u : List (BitVec 128)) : (s.offerIf c b u).rots = s.rots := by
  unfold State.offerIf; split <;> simp

@[simp] theorem rots_offerKept (c : CoreId) : (s.offerKept c).rots = s.rots := by
  unfold State.offerKept
  rw [foldl_keeps State.rots _ fun b u => rots_offer b c u]
  simp

@[simp] theorem rots_traceStart (c : CoreId) (n : SlotNo) (src : Nat) : (s.traceStart c n src).rots = s.rots := rots_offerIf s c 2 _
@[simp] theorem rots_traceEvent (c : CoreId) (n : SlotNo) (a b : Nat) (x : List (BitVec 128)) : (s.traceEvent c n a b x).rots = s.rots :=
  rots_offerIf s c 3 _
@[simp] theorem rots_tracePre (c : CoreId) (code : Nat) : (s.tracePre c code).rots = s.rots := rots_offerIf s c 3 _
@[simp] theorem rots_traceDebug (c : CoreId) (n : SlotNo) (a b e k : Nat) : (s.traceDebug c n a b e k).rots = s.rots := by
  unfold State.traceDebug; split <;> exact rots_offerIf s c 3 _
@[simp] theorem rots_traceSlot (c : CoreId) (cls : List (BitVec 2)) (n : Nat) (r : BitVec 40) : (s.traceSlot c cls n r).rots = s.rots := by
  unfold State.traceSlot; dsimp only; split <;> simp
@[simp] theorem rots_traceCounts (c : CoreId) (k : Core) : (s.traceCounts c k).rots = s.rots := by
  unfold State.traceCounts
  exact foldl_keeps State.rots _ (fun b i => rots_offer b c _) _ _

/-! Tokens and squashes. -/

@[simp] theorem rots_grantToken (d : BitVec 2) : (grantToken s d).rots = s.rots := by
  unfold grantToken; dsimp only; split <;> simp

@[simp] theorem rots_requestToken (c : CoreId) (n : SlotNo) : (requestToken s c n).rots = s.rots := by simp [requestToken]
@[simp] theorem rots_releaseToken (c : CoreId) (n : SlotNo) : (releaseToken s c n).rots = s.rots := by simp [releaseToken]

@[simp] theorem rots_squash (c : CoreId) (n : SlotNo) : (squash s c n).rots = s.rots := by
  unfold squash; dsimp only
  split
  · rfl
  · have hset : ∀ k : Core, k.rot = (s.core c).rot → (((s.setCore c k).countCtx c n 8).countDie (dieOf c) 1).rots = s.rots := by
      intro k hk
      rw [rots_countDie, rots_countCtx, rots_setCore s hk]
    split
    · rw [rots_requestToken, hset]
      split <;> rfl
    · rw [hset]
      split <;> rfl

/-! Invocations, streams, held constraints. -/

@[simp] theorem rots_putRegion (c : CoreId) (n : SlotNo) (eng : BitVec 8) (i old : Nat) (r : Region) :
    (putRegion s c n eng i old r).rots = s.rots := by
  unfold putRegion; dsimp only; split <;> simp

@[simp] theorem rots_closeEvent (c : CoreId) (n : SlotNo) (v : Inv) (b : Bool) : (closeEvent s c n v b).rots = s.rots := by
  unfold closeEvent; dsimp only
  split
  · rfl
  · split
    · rfl
    · simp only [apply_ite State.rots, rots_putRegion, rots_draw, ite_self]

@[simp] theorem rots_closeInv (c : CoreId) (n : SlotNo) (b : Bool) : (closeInv s c n b).rots = s.rots := by
  unfold closeInv; dsimp only; split <;> simp

@[simp] theorem rots_touch (d : BitVec 2) (p : Bool) (t : Tenant) (va q k : Nat) (a b : Bool) : (touch s d p t va q k a b).rots = s.rots :=
  rots_of_cores (touch_cores s d p t va q k a b)

@[simp] theorem rots_bindWalk (x : Stream) (i : Nat) : (bindWalk s x i).rots = s.rots := by
  unfold bindWalk; dsimp only; split <;> simp

@[simp] theorem rots_streamEvent (c : CoreId) (n : SlotNo) (j : Nat) (x : Stream) : (streamEvent s c n j x).rots = s.rots := by
  unfold streamEvent; dsimp only; split <;> simp

@[simp] theorem rots_wrG (r : RF) (x : Word) : (s.wrG r x).rots = s.rots := by
  unfold State.wrG; split
  · exact rots_modCore s fun _ => rfl
  · exact rots_modMe s _

@[simp] theorem rots_pullRegs (a : RF) (ws : List Word) : (pullRegs s a ws).rots = s.rots :=
  foldl_keeps State.rots _ (fun b _ => rots_wrG b _ _) _ _

theorem rots_pushNow {w : Wait} {t : State} (h : pushNow s w = some t) : t.rots = s.rots := by
  unfold pushNow at h; dsimp only at h
  split at h
  · cases h
  · rw [← Option.some.inj h]; simp

theorem rots_pullNow {a : RF} {w : Wait} {t : State} (h : pullNow a s w = some t) : t.rots = s.rots := by
  unfold pullNow at h; dsimp only at h
  split at h
  · cases h
  · split at h <;> rw [← Option.some.inj h] <;> simp

@[simp] theorem rots_wakeCtx (c : CoreId) (n : SlotNo) (b : Bool) : (wakeCtx s c n b).rots = s.rots := rots_modCore s fun _ => rfl
@[simp] theorem rots_advance : s.advance.rots = s.rots := rots_modMe s _

theorem rots_serveWaiter {c : CoreId} {n : SlotNo} {t : State} (h : serveWaiter s c n = some t) : t.rots = s.rots := by
  unfold serveWaiter at h
  split at h
  · rename_i w _
    obtain ⟨u, hu, rfl⟩ := Option.map_eq_some_iff.mp h
    have hrots : u.rots = s.rots := by
      split at hu
      · exact (rots_pushNow _ hu).trans (rots_asCtx s c n w.bundle)
      · exact (rots_pullNow _ hu).trans (rots_asCtx s c n w.bundle)
      · cases hu
    rw [rots_iss, rots_wakeCtx, rots_advance, hrots]
  · cases h

@[simp] theorem rots_serveStream (d : BitVec 2) (j m : Nat) : (serveStream s d j m).rots = s.rots := by
  induction m generalizing s with
  | zero => rfl
  | succ m ih =>
    unfold serveStream
    split
    · rename_i t ht
      obtain ⟨p, -, hp⟩ := List.exists_of_findSome?_eq_some ht
      rw [ih, rots_serveWaiter _ hp]
    · rfl

@[simp] theorem rots_serveAll (d : BitVec 2) (j : Nat) : (serveAll s d j).rots = s.rots := rots_serveStream s d j _

@[simp] theorem rots_returnHeld (c : CoreId) (n : SlotNo) (w : Word) : (returnHeld s c n w).rots = s.rots := by
  unfold returnHeld; dsimp only; split
  · rfl
  · split <;> simp

@[simp] theorem rots_returnAllHeld (c : CoreId) (n : SlotNo) : (returnAllHeld s c n).rots = s.rots := by
  unfold returnAllHeld; dsimp only
  rw [rots_modCtx, foldl_keeps State.rots _ fun b w => rots_returnHeld b c n w]

/-! The steps of R59. -/

@[simp] theorem rots_leaveSlot (c : CoreId) (n : SlotNo) (b : Bool) : (leaveSlot s c n b).rots = s.rots := by
  unfold leaveSlot; dsimp only
  rw [rots_modCore]
  · simp only [apply_ite State.rots, rots_returnAllHeld, rots_closeInv, ite_self]
  · exact fun _ => rfl

@[simp] theorem rots_vacate (c : CoreId) (n : SlotNo) : (vacate s c n).rots = s.rots := by
  unfold vacate; dsimp only; split
  · rw [rots_modCore, rots_leaveSlot]
    exact fun _ => rfl
  · rfl

@[simp] theorem rots_applyFreeze (c : CoreId) (cause : Nat) : (applyFreeze s c cause).rots = s.rots := by
  unfold applyFreeze
  rw [rots_modCore]
  · refine foldl_keeps State.rots _ (fun b n => ?_) _ _
    dsimp only; split
    · rfl
    · simp [freezeCtx]
  · exact fun _ => rfl

@[simp] theorem rots_freezeNow (c : CoreId) : (freezeNow s c).rots = s.rots := by unfold freezeNow; split <;> simp

@[simp] theorem rots_grantBank (c : CoreId) : (grantBank s c).rots = s.rots := by
  unfold grantBank; dsimp only; split
  · split
    · exact rots_modCore s fun _ => rfl
    · rfl
  · rfl

@[simp] theorem rots_modLaunch (t : BitVec 16) (f : Launch → Launch) : (s.modLaunch t f).rots = s.rots := by
  unfold State.modLaunch; split <;> rfl

@[simp] theorem rots_startCtx (c : CoreId) (n : SlotNo) (e : Entry) : (startCtx s c n e).rots = s.rots := by
  unfold startCtx; dsimp only
  rw [rots_traceStart]
  split
  · rw [rots_modLaunch, rots_modCore]
    exact fun _ => rfl
  · rw [rots_modCore]
    exact fun _ => rfl

@[simp] theorem rots_startHelper (c : CoreId) (q : HStart) : (startHelper c s q).rots = s.rots := by
  unfold startHelper; dsimp only; split <;> simp

@[simp] theorem rots_serveHstart (c : CoreId) : (serveHstart s c).rots = s.rots := by
  unfold serveHstart
  rw [foldl_keeps State.rots _ fun b q => rots_startHelper b c q, rots_modCore]
  exact fun _ => rfl

@[simp] theorem rots_refusedReply (c : CoreId) (id : Nat) : (refusedReply s c id).rots = s.rots := by
  unfold refusedReply; split <;> simp

@[simp] theorem rots_appliedReply (c : CoreId) (id : Nat) (x : Word) : (appliedReply s c id x).rots = s.rots := by
  unfold appliedReply; split <;> simp

@[simp] theorem rots_enqueueWork (c : CoreId) (e : Entry) : (enqueueWork s c e).rots = s.rots := by
  unfold enqueueWork; dsimp only; split
  · exact rots_modCore s fun _ => rfl
  · rw [rots_modCore, rots_writeImage]
    exact fun _ => rfl

@[simp] theorem rots_applyStart (c : CoreId) (e : Entry) (q : Nat) (b : Bool) : (applyStart s c e q b).rots = s.rots := by
  unfold applyStart; dsimp only; split
  · simp
  · split
    · simp
    · split
      · simp
      · exact rots_modCore s fun _ => rfl

@[simp] theorem rots_arriveCtx (c : CoreId) (m : CtxMsg) : (arriveCtx s c m).rots = s.rots := by
  unfold arriveCtx; dsimp only
  split
  · rw [rots_traceStart, rots_modCore]
    exact fun _ => rfl
  · rw [rots_tell, rots_traceStart, rots_modCore]
    exact fun _ => rfl

@[simp] theorem rots_applyArrival (b : Bool) (c : CoreId) (a : Arrival) : (applyArrival b c s a).rots = s.rots := by
  cases a with
  | start e q => exact rots_applyStart s c e q b
  | ctx m =>
    unfold applyArrival; dsimp only; split
    · exact rots_arriveCtx s c m
    · exact rots_modCore s fun _ => rfl
  | gang n e =>
    unfold applyArrival; dsimp only; split
    · exact rots_startCtx s c n e
    · exact rots_modCore s fun _ => rfl

@[simp] theorem rots_serveArrivals (c : CoreId) (b : Bool) : (serveArrivals s c b).rots = s.rots := by
  unfold serveArrivals; dsimp only
  rw [foldl_keeps State.rots _ fun t a => rots_applyArrival t b c a, rots_modCore]
  exact fun _ => rfl

@[simp] theorem rots_refill (c : CoreId) (n : SlotNo) : (refill c s n).rots = s.rots := by
  unfold refill; dsimp only; split
  · rfl
  · split
    · rfl
    · split
      · rfl
      · rw [rots_startCtx, rots_modCore]
        exact fun _ => rfl

@[simp] theorem rots_refillSlots (c : CoreId) : (refillSlots s c).rots = s.rots := by
  unfold refillSlots; split
  · rfl
  · rw [foldl_keeps State.rots _ fun t n => rots_refill t c n, rots_modCore]
    exact fun _ => rfl

@[simp] theorem rots_stealNote (a b : CoreId) (v o : Nat) : (stealNote s a b v o).rots = s.rots := by unfold stealNote; split <;> rfl

@[simp] theorem rots_askNext (c : CoreId) (n : Nat) : (askNext s c n).rots = s.rots := by
  unfold askNext; dsimp only; split
  · rw [rots_stealNote, rots_modCore]
    exact fun _ => rfl
  · exact rots_modCore s fun _ => rfl

@[simp] theorem rots_beginSeek (c : CoreId) : (beginSeek s c).rots = s.rots := by
  unfold beginSeek; dsimp only; split
  · rfl
  · split
    · rw [rots_askNext, rots_modCore]
      exact fun _ => rfl
    · rfl

@[simp] theorem rots_boundarySteps (c : CoreId) : (boundarySteps s c).rots = s.rots := by
  have hfirst : (freezeNow (helperSlots.foldl (fun s n => vacate s c n) s) c).rots = s.rots := by
    rw [rots_freezeNow, foldl_keeps State.rots _ fun t n => rots_vacate t c n]
  unfold boundarySteps; dsimp only
  split
  · exact hfirst
  · split
    · rw [rots_serveArrivals, hfirst]
    · split
      · rw [rots_serveArrivals, rots_serveHstart, rots_grantBank, hfirst]
      · split <;> simp [hfirst]

@[simp] theorem rots_applyHalt (c : CoreId) : (applyHalt s c).rots = s.rots := by
  unfold applyHalt; dsimp only; split
  · rw [rots_tell, rots_modCore]
    exact fun _ => rfl
  · rfl

@[simp] theorem rots_decide (c : CoreId) : (decide_ s c).rots = s.rots := by
  unfold decide_; dsimp only
  rw [rots_tracePre, rots_modCore, foldl_keeps State.rots, foldl_keeps State.rots]
  · intro b n; simp
  · intro b n; split <;> simp
  · exact fun _ => rfl

@[simp] theorem rots_boundaryCounts (c : CoreId) : (boundaryCounts s c).rots = s.rots := by
  unfold boundaryCounts; dsimp only
  rw [rots_modCore, rots_countCore, rots_countCore]
  exact fun _ => rfl

@[simp] theorem rots_boundaryRecords (c : CoreId) (k : Core) : (boundaryRecords s c k).rots = s.rots := by
  unfold boundaryRecords; dsimp only; split <;> simp

/-- R59: the boundary of a core raises its rotation count. -/
theorem execRotationBoundary_rot (c : CoreId) :
    ∃ t : State, execRotationBoundary c s = .next t ∧ (t.core c).rot = (s.core c).rot + 1 := by
  refine ⟨_, rfl, ?_⟩
  rw [State.core_modCore]
  refine congrArg (· + 1) ?_
  rw [← State.rots, ← State.rots, rots_boundaryRecords]
  split
  · rw [rots_decide, rots_applyHalt, rots_boundarySteps, rots_modCore, rots_boundaryCounts]
    exact fun _ => rfl
  · rw [rots_applyHalt, rots_boundarySteps, rots_modCore, rots_boundaryCounts]
    exact fun _ => rfl
end

end Sys2Proof.Machine
end

section
/-! O57: the service turn, the conditions of waits, an ended chunk, the traps and upcalls that wait (R37, R52, R98, R166, R340, R345,
R346). -/

namespace Sys2Proof.Machine

section
variable (s : State) (c : CoreId) (n : SlotNo)

/-! What each event of a core's turn is. -/

theorem exec_waitConditionMet : exec (.waitConditionMet c n) s = execWaitConditionMet c n s := rfl
theorem exec_chunkCommit : exec (.chunkCommit c n) s = .next (finishChunk s c n) := rfl
theorem exec_upcallRecord : exec (.upcallRecord c n) s = execUpcallRecord c n s := rfl
theorem exec_upcallDelivery : exec (.upcallDelivery c) s = execUpcallDelivery c s := rfl

variable {s c n}

/-- R37: the core serves the head of its queue when no read waits. -/
theorem execServiceTurn_head {id : Nat} (hs : settleHead s c = s) (hw : readyWait s c = none) (hh : readyHead s c = some id) :
    execServiceTurn c s = .next (settleHead (serveOne s c id) c) := by
  simp only [execServiceTurn, hs, hw, hh]

/-! A wait whose condition is tested. -/

theorem execWaitConditionMet_eq {w : Wait} (hw : (s.ctx c n).wait = some w) (hi : (s.ctx c n).isWaiting = true)
    (ht : (s.core c).tests n = true) : execWaitConditionMet c n s = .next ((meetWait s c n w).getD s) := by
  simp only [execWaitConditionMet, hw, hi, ht, Bool.and_self, if_true]

theorem meetWait_of_not_takes {w : Wait} (h : w.takes = false) : meetWait s c n w = completeWait s c n w := by
  simp only [meetWait, h, Bool.false_eq_true, if_false]

/-- R52: the context of a wait that takes something of its core is live, with the result of the condition and its wait kept for its turn. -/
def madeLive (s : State) (c : CoreId) (n : SlotNo) (w : Wait) : State :=
  s.modCore c fun k => k.setCtx n { k.ctx n with st := k.liveState n, compl := some w.sbit }

theorem meetWait_of_takes {w : Wait} (h : w.takes = true) (hd : (waitDone (asCtx s c n w.bundle) w).isSome = true) :
    meetWait s c n w = some (madeLive s c n w) := by
  obtain ⟨t, ht⟩ := Option.isSome_iff_exists.mp hd
  simp only [meetWait, h, ht, if_true, Option.map_some, madeLive]

theorem madeLive_ctx {w : Wait} (hn : n.toNat < 11) :
    (madeLive s c n w).ctx c n = { s.ctx c n with st := (s.core c).liveState n, compl := some w.sbit } := by
  rw [State.ctx, madeLive, State.core_modCore, Core.ctx_setCtx _ _ _ hn]
  rfl

theorem meetWait_of_not_done {w : Wait} (h : waitDone (asCtx s c n w.bundle) w = none) : meetWait s c n w = none := by
  simp only [meetWait, completeWait, h, Option.map_none, ite_self]

/-- R286: a wait at its own core whose limit has run out, and whose condition does not hold, ends. -/
theorem execWaitx_expired {w : Wait} (hw : (s.ctx c n).wait = some w) (hi : (s.ctx c n).isWaiting = true) (hr : (s.core c).runs n = true)
    (hl : w.left = some 0) (hq : w.req = none) (hm : meetWait s c n w = none) :
    execWaitx c n s = .next (expireWait s c n w none) := by
  simp only [execWaitx, hw, hi, hl, hr, beq_self_eq_true, Bool.and_self, if_true, expire, hm, hq]

/-! An ended chunk. -/

theorem finishChunk_commits {ch : Chunk} (hc : (s.ctx c n).chunk = some ch) (he : ch.ending = true) (ht : ch.trap = none)
    (ho : (s.ctx c n).nearOut = false) :
    finishChunk s c n = (commitChunk s c n).1 := by
  simp only [finishChunk, hc, he, ho, ht, Bool.not_true, Bool.or_self, Bool.false_eq_true, if_false]
  cases (commitChunk s c n).2 <;> rfl

theorem finishChunk_waits {ch : Chunk} (hc : (s.ctx c n).chunk = some ch) (h : ch.ending = false ∨ (s.ctx c n).nearOut = true) :
    finishChunk s c n = s := by
  have hheld : (!ch.ending || (s.ctx c n).nearOut) = true := by rcases h with h | h <;> simp [h]
  simp only [finishChunk, hc, hheld, if_true]

/-! The traps and upcalls that wait. -/

theorem execPrivilegedTrap_takes {p : Pend} (hp : (s.ctx c n).tpend.find? (s.ctx c n).meetsPend = some p)
    (hl : (s.ctx c n).live = true) (hc : (s.ctx c n).compl = none) (hr : (s.core c).runs n = true)
    (hg : goesPriv (s.core c) n p.cause = true) : execPrivilegedTrap c n s = .next (takePend s c n p) := by
  have hnext : (s.ctx c n).nextPend = some p := hp
  simp only [execPrivilegedTrap, hnext, hl, hc, hr, hg, Option.isNone_none, Bool.and_self, if_true]

theorem execUpcallRecord_writes {p : Pend} {rot : BitVec 40} (hu : (s.ctx c n).upc = some (p, rot)) (hr : (s.ctx c n).recorded = false)
    (hl : (s.core c).longOf n = 0) (hn : n ≠ 0) : execUpcallRecord c n s = .next (writeUpcall s c n p rot) := by
  have hne : (n != 0) = true := bne_iff_ne.mpr hn
  simp only [execUpcallRecord, hu, hr, hl, hne, Bool.not_false, decide_true, Bool.and_self, if_true]

/-- The context is marked as recorded, and its handle waits for delivery. -/
def recordedUpcall (s : State) (c : CoreId) (n : SlotNo) : State := pendUpcall s c n fun x => { x with recorded := true }

theorem recordedUpcall_core : (recordedUpcall s c n).core c =
    { ((s.core c).setCtx n { s.ctx c n with recorded := true }) with r := { (s.core c).r with upcPend := (s.core c).r.upcPend ++ [n] } } := by
  rw [recordedUpcall, pendUpcall, State.core_modCore]
  rfl

theorem recordedUpcall_ctx (hn : n.toNat < 11) : (recordedUpcall s c n).ctx c n = { s.ctx c n with recorded := true } := by
  rw [State.ctx, recordedUpcall_core]
  exact Core.ctx_setCtx _ _ _ hn

/-- R345: the record of a helper goes to its place in an upcall area that fits and that the control context may write. -/
theorem writeUpcall_eq (p : Pend) (rot : BitVec 40) (hfit : (s.core c).upcArea + 704 ≤ 2 ^ 18)
    (hprot : protOk (s.core c) ((s.core c).tenantOf 0) false ((s.core c).upcArea + 64 * n.toNat) 64 1 = true) :
    writeUpcall s c n p rot = { recordedUpcall s c n with
      mem := memWrite s.mem (spKey c ((s.core c).upcArea + 64 * n.toNat)) (upcRecord (s.ctx c n) n p rot) } := by
  simp only [writeUpcall, if_neg (Nat.not_lt.mpr hfit), hprot, Bool.not_true, Bool.false_eq_true, if_false]
  rfl

theorem execUpcallDelivery_due {h : SlotNo} {hs : List SlotNo} (hp : (s.core c).r.upcPend = h :: hs) (hd : upcallDue (s.core c) = true) :
    execUpcallDelivery c s = .next (deliverUpcall s c h) := by
  simp only [execUpcallDelivery, hp, hd, if_true]

theorem deliverUpcall_enters (h : SlotNo) (hf : fetchOkAt s c (s.core c).r.upcEntry = true) (hw : (s.ctx c 0).wait = none)
    (hc : (s.ctx c 0).chunk = none) : deliverUpcall s c h = enterUpcEntry s c h := by
  have hw' : ((s.core c).ctx 0).wait = none := hw
  have hc' : ((s.core c).ctx 0).chunk = none := hc
  simp only [deliverUpcall, hf, hw', hc', Bool.not_true, Bool.false_and, Bool.false_eq_true, if_false, if_true]

/-! R346: what a delivery leaves. -/

theorem mem_withMem (m : Mem) : ({ s with mem := m } : State).mem = m := rfl
theorem core_withMem (m : Mem) : ({ s with mem := m } : State).core c = s.core c := rfl

/-- The control context at the upcall's entry, with the record's area and the handle of the helper. -/
def atUpcEntry (k : Core) (h : SlotNo) : Ctx :=
  { k.ctx 0 with a := { (((k.ctx 0).a.wrG 60 (selfArea k.upcArea)).wrG 61 (h.setWidth 64)) with pc := k.r.upcEntry, wonly := false } }

theorem enterUpcEntry_core (h : SlotNo) : (enterUpcEntry s c h).core c =
    ({ s.core c with r := { (s.core c).r with
      upcPend := (s.core c).r.upcPend.filter (· != h), upcMask := true, upcPc := ((s.core c).ctx 0).a.pc,
      upcWonly := ((s.core c).ctx 0).a.wonly, upcMark := ((s.core c).ctx 0).a.pc } } : Core).setCtx 0 (atUpcEntry (s.core c) h) := by
  simp only [enterUpcEntry, core_withMem, State.core_setCore, atUpcEntry]

theorem enterUpcEntry_ctx (h : SlotNo) : (enterUpcEntry s c h).ctx c 0 = atUpcEntry (s.core c) h := by
  rw [State.ctx, enterUpcEntry_core, Core.ctx_setCtx _ _ _ (by decide)]
end

end Sys2Proof.Machine

open Sys2Proof Sys2Proof.Machine

/-- Settles O57: the boundary raises the rotation count once the steps before it have left it alone; each other event of a turn is the
branch that its premises select. -/
theorem turnEvents : Obligations.TurnEvents := by
  intro s c n
  refine ⟨execRotationBoundary_rot s c, fun id => execServiceTurn_head, fun w hw hi ht => ?_, fun w => execWaitx_expired,
    fun ch hc he ht ho => ?_, fun ch hc h => ?_, fun p => execPrivilegedTrap_takes, fun p rot hu hr hl hn hlt hfit hprot => ?_,
    fun h hs hp hd hf hw hc => ?_⟩
  · rw [exec_waitConditionMet, execWaitConditionMet_eq hw hi ht]
    refine ⟨fun hk t hd => ?_, fun hk hd => ?_, fun hd => ?_⟩
    · rw [meetWait_of_not_takes hk, hd, Option.getD_some]
    · rw [meetWait_of_takes hk hd, Option.getD_some]
      refine ⟨_, rfl, fun hlt => ?_, rfl⟩
      rw [madeLive_ctx hlt]
      exact ⟨rfl, rfl, hw⟩
    · rw [meetWait_of_not_done hd, Option.getD_none]
  · rw [exec_chunkCommit, finishChunk_commits hc he ht ho]
  · rw [exec_chunkCommit, finishChunk_waits hc h]
  · rw [exec_upcallRecord, execUpcallRecord_writes hu hr hl hn, writeUpcall_eq p rot hfit hprot]
    refine ⟨_, rfl, ?_, ?_, ?_⟩
    · rw [State.ctx, core_withMem, ← State.ctx, recordedUpcall_ctx hlt]
    · rw [core_withMem, recordedUpcall_core]
      exact List.mem_append_right _ (List.mem_singleton_self n)
    · rw [mem_withMem]
  · rw [exec_upcallDelivery, execUpcallDelivery_due hp hd, deliverUpcall_enters h hf hw hc]
    refine ⟨_, rfl, ?_, ?_, ?_, ?_, ?_⟩
    · rw [enterUpcEntry_ctx, atUpcEntry]
    · rw [enterUpcEntry_core, Core.setCtx_r, State.ctx]
    · rw [enterUpcEntry_core, Core.setCtx_r]
    · rw [enterUpcEntry_ctx]
      exact Arch.rdG_wrG_same _ 61 _ (by decide) (by decide)
    · rw [enterUpcEntry_core, Core.setCtx_r]
      exact fun hm => by simpa using (List.mem_filter.mp hm).2
end

section
/-! What a load, a store and an atomic that arrive do at the bytes of their access (R169, R348, R349). -/

namespace Sys2Proof.Machine

/-! ## Writes at distinct keys -/

/-- What a list of writes at distinct keys leaves at each of them. -/
theorem memGet_memSetAll_zip (m : Mem) {ks : List Nat} {bs : List Byte} (hn : ks.Nodup) (hl : ks.length = bs.length) {i : Nat}
    (hi : i < bs.length) : memGet (memSetAll m (ks.zip bs)) (ks.getD i 0) = bs.getD i 0 := by
  induction ks generalizing m bs i with
  | nil => exact absurd hi (by simp [← hl])
  | cons k ks ih =>
    obtain _ | ⟨b, bs⟩ := bs
    · exact absurd hl (by simp)
    obtain ⟨hk, hn⟩ := List.nodup_cons.mp hn
    simp only [List.zip_cons_cons, memSetAll]
    cases i with
    | zero =>
      rw [List.getD_cons_zero, List.getD_cons_zero, memGet_memSetAll, memGet_memSet_same]
      exact fun p hp e => hk (e ▸ (List.of_mem_zip hp).1)
    | succ i =>
      rw [List.getD_cons_succ, List.getD_cons_succ]
      exact ih _ hn (by simpa using hl) (by simpa using hi)

theorem memGet_memSetAll_zip_ne (m : Mem) {ks : List Nat} (bs : List Byte) {k : Nat} (h : k ∉ ks) :
    memGet (memSetAll m (ks.zip bs)) k = memGet m k :=
  memGet_memSetAll m _ k fun _ hp e => h (e ▸ (List.of_mem_zip hp).1)

theorem natBytes_getD {n i : Nat} (v : Nat) (h : i < n) : (natBytes n v).getD i 0 = BitVec.ofNat 8 (v / 2 ^ (8 * i)) := by
  simp [natBytes, h, pow_mul]

/-! ## Squashes write no memory -/

section
variable (s : State)

@[simp] theorem mem_squash (c : CoreId) (n : SlotNo) : (squash s c n).mem = s.mem := by
  unfold squash; dsimp only; split
  · rfl
  · split <;> simp

@[simp] theorem mem_squashMeeting (d : BitVec 2) (e : Option (CoreId × SlotNo)) (ls : List Nat) : (squashMeeting s d e ls).mem = s.mem := by
  unfold squashMeeting; split
  · rfl
  · refine foldl_keeps State.mem _ (fun b c => foldl_keeps State.mem _ (fun b n => ?_) _ _) _ _
    split
    · rfl
    · split
      · split <;> simp
      · rfl

theorem mem_writeKeysSquash (ks : List Nat) (bs : List Byte) :
    (writeKeysSquash s ks bs).mem = memSetAll s.mem (ks.zip (s.cutBytes ks bs)) := by
  unfold writeKeysSquash; split
  · rw [mem_squashMeeting]; rfl
  · rfl

/-! ## What the counters of the dies leave alone -/

/-- What each count of a die leaves alone, the counts of an access leave alone. -/
theorem countAccess_keeps {α : Type} (f : State → α) (h : ∀ (t : State) d e, f (t.countDie d e) = f t) (ks : List Nat) (a w : Bool) :
    f (countAccess s ks a w) = f s := by
  unfold countAccess; split
  · rfl
  · dsimp only
    split
    · simp only [apply_ite f, h, ite_self]
    · split
      · exact h _ _ _
      · rfl

@[simp] theorem countAccess_mem (ks : List Nat) (a w : Bool) : (countAccess s ks a w).mem = s.mem :=
  countAccess_keeps s State.mem (fun _ _ _ => rfl) ks a w

theorem countAccess_descBase (ks : List Nat) (a w : Bool) (d : BitVec 2) : ((countAccess s ks a w).die d).descBase = (s.die d).descBase :=
  countAccess_keeps s (fun t => (t.die d).descBase) (fun t e i => descBase_modDie t e d fun x => Die.count_descBase x i) ks a w

theorem tokenHolds_countDie (d : BitVec 2) (e : Nat) : (s.countDie d e).tokenHolds = s.tokenHolds := by
  have htoken : ∀ d', ((s.countDie d e).die d').token = (s.die d').token := fun d' => die_modDie Die.token s d d' fun x => by simp only [Die.count]
  funext d' rs ws
  simp only [State.tokenHolds, State.tokenChunk, htoken]
  rfl

theorem keysHeld_countAccess (ks js : List Nat) (a w : Bool) : keysHeld (countAccess s ks a w) js = keysHeld s js :=
  countAccess_keeps s (fun t => keysHeld t js) (fun t d e => by simp only [keysHeld, tokenHolds_countDie]) ks a w

@[simp] theorem bytesAt_countAccess (ks js : List Nat) (a w : Bool) : bytesAt (countAccess s ks a w) js = bytesAt s js := by
  simp only [bytesAt, countAccess_mem]

@[simp] theorem countPoison_mem (d : BitVec 2) (w : Walk) (va : Nat) : (countPoison s d w va).mem = s.mem := by
  cases w <;> rfl
end

/-! ## The translations of an access -/

section
variable (s : State)

/-- The translations of an access write no byte of memory but those of page descriptors. -/
theorem touchAt_mem (c : CoreId) (t : Tenant) (q : Word) (w kind : Nat) (priv dec : Bool) {k : Nat} (h : outsideDescs s k) :
    memGet (touchAt s c t q w kind priv dec).mem k = memGet s.mem k := by
  unfold touchAt
  split
  · rfl
  · split
    · exact touchSpan_mem s _ _ _ _ _ _ _ _ _ h
    · split
      · exact touchSpan_mem s _ _ _ _ _ _ _ _ _ h
      · rfl

theorem touchSpan_descBase (d : BitVec 2) (p : Bool) (t : Tenant) (va n quad kind : Nat) (priv dec : Bool) (d' : BitVec 2) :
    ((touchSpan s d p t va n quad kind priv dec).die d').descBase = (s.die d').descBase := by
  unfold touchSpan; dsimp only; split <;> simp only [descBase_touch]

theorem touchAt_descBase (c : CoreId) (t : Tenant) (q : Word) (w kind : Nat) (priv dec : Bool) (d : BitVec 2) :
    ((touchAt s c t q w kind priv dec).die d).descBase = (s.die d).descBase := by
  unfold touchAt
  split
  · rfl
  · split
    · exact touchSpan_descBase s _ _ _ _ _ _ _ _ _ d
    · split
      · exact touchSpan_descBase s _ _ _ _ _ _ _ _ _ d
      · rfl

variable (r : Req)

theorem Req.touch_descBase (q : Word) (w kind : Nat) (d : BitVec 2) : ((r.touch s q w kind).die d).descBase = (s.die d).descBase := by
  unfold Req.touch; split
  · exact touchAt_descBase s _ _ _ _ _ _ _ d
  · rfl

theorem Req.found_of_phys_nil (h : r.phys = []) (q : Word) (w kind : Nat) :
    r.found s q w kind = Machine.found s r.core r.tenant r.priv q w kind false r.id := by simp [Req.found, h]

theorem Req.touch_of_phys_nil (h : r.phys = []) (q : Word) (w kind : Nat) :
    r.touch s q w kind = touchAt s r.core r.tenant q w kind r.priv false := by simp [Req.touch, h]

theorem Req.found_of_phys (h : r.phys ≠ []) (q : Word) (w kind : Nat) : r.found s q w kind = .ok r.phys := by
  simp [Req.found, h]

theorem Req.touch_of_phys (h : r.phys ≠ []) (q : Word) (w kind : Nat) : r.touch s q w kind = s := by
  simp [Req.touch, h]
end

theorem cutByte_congr {s t : State} (h : ∀ d, (t.die d).descBase = (s.die d).descBase) : t.cutByte = s.cutByte := by
  funext k b
  simp only [State.cutByte, h]

/-- What the write of an access leaves at each of its keys, where the state of the write has the descriptors of s (R152). -/
theorem writeKeysSquash_at {s t : State} (h : ∀ d, (t.die d).descBase = (s.die d).descBase) {ks : List Nat} {bs : List Byte}
    (hn : ks.Nodup) (hl : ks.length = bs.length) {i : Nat} (hi : i < bs.length) :
    memGet (writeKeysSquash t ks bs).mem (ks.getD i 0) = s.cutByte (ks.getD i 0) (bs.getD i 0) := by
  have hk : i < ks.length := hl ▸ hi
  rw [mem_writeKeysSquash, State.cutBytes, cutByte_congr h, memGet_memSetAll_zip _ hn (by simp [hl]) (by simpa [hl] using hi)]
  simp [hi, hk]

theorem writeKeysSquash_ne (s : State) {ks : List Nat} (bs : List Byte) {k : Nat} (h : k ∉ ks) :
    memGet (writeKeysSquash s ks bs).mem k = memGet s.mem k := by
  rw [mem_writeKeysSquash, memGet_memSetAll_zip_ne _ _ h]

/-! ## The accesses -/

section
variable (s : State) (r : Req)

/-- The state in which a load of one piece answers: its translations are taken and its bytes counted. -/
def loadTouched (p : Word) (w : Nat) : State :=
  countAccess (touchAt s.draw r.core r.tenant p w 0 r.priv false) (keysOf s.draw r p w 0) false false

theorem loadTouched_mem (p : Word) (w : Nat) {k : Nat} (h : outsideDescs s k) : memGet (loadTouched s r p w).mem k = memGet s.mem k := by
  rw [loadTouched, countAccess_mem]
  exact touchAt_mem s.draw _ _ _ _ _ _ _ h

theorem performLoad_found {p : Word} {w : Nat} {ks : List Nat} (h : found s r.core r.tenant r.priv p w 0 false r.id = .ok ks) :
    performLoad s r [p] w = (loadTouched s r p w).answer r.id (.ok (bytesAt s ks) 0) := by
  simp only [performLoad, readAll, h, List.append_nil, List.foldl_cons, List.foldl_nil, loadTouched]

/-- A load that fails answers with its failure; one that poison stops is counted first (R348). -/
theorem performLoad_fails {p : Word} {w k : Nat} {fw : BitVec 5} (h : found s r.core r.tenant r.priv p w 0 false r.id = .err k fw) :
    ∃ u : State, performLoad s r [p] w = u.answer r.id (if k = eXlate then .page p (fw.setWidth 64) else .err k fw p) ∧
      u.mem = (loadTouched s r p w).mem := by
  have hdone : [p].takeWhile (· != p) ++ [p] = [p] := by simp
  simp only [performLoad, readAll, h, hdone, List.foldl_cons, List.foldl_nil, fails, Bool.true_and, decide_eq_true_eq]
  refine ⟨_, rfl, ?_⟩
  split
  · rw [countPoison_mem, loadTouched]
  · rw [loadTouched]

theorem performStore_found {q : Word} {bs : List Byte} {ks : List Nat} (h : r.found s q bs.length 1 = .ok ks) (hh : keysHeld s ks = false) :
    performStore s r q bs = (writeKeysSquash (countAccess (r.touch s q bs.length 1) ks false true) ks bs).answer r.id ack := by
  simp only [performStore, h, hh, Bool.false_eq_true, if_false]

/-- The state in which an atomic reads and writes. -/
def atomicTouched (q : Word) (ks : List Nat) : State :=
  let n := atomicBytes r.body
  countAccess (r.touch s q n 2) ks true (atomicNew r.body n (leBytes (bytesAt s ks) 0 n)).1.isSome

theorem atomicTouched_descBase (q : Word) (ks : List Nat) (d : BitVec 2) :
    ((atomicTouched s r q ks).die d).descBase = (s.die d).descBase := by
  rw [atomicTouched, countAccess_descBase, Req.touch_descBase]

theorem atomicTouched_mem (q : Word) (ks : List Nat) : (atomicTouched s r q ks).mem = (r.touch s q (atomicBytes r.body) 2).mem := by
  rw [atomicTouched, countAccess_mem]

theorem performAtomic_found {q : Word} {ks : List Nat} (h : r.found s q (atomicBytes r.body) 2 = .ok ks) (hh : keysHeld s ks = false) :
    performAtomic s r q = atomicReq (atomicTouched s r q ks) r ks := by
  simp only [performAtomic, h, hh, Bool.false_eq_true, if_false, atomicTouched]

/-- An atomic leaves its new number, or nothing where its comparison fails. -/
def atomicWrites (t : State) (ks : List Nat) (n : Nat) : Option Nat → State
  | some v => writeKeysSquash t ks (natBytes n v)
  | none => t

theorem atomicReq_eq (t : State) {ks : List Nat} (h : keysHeld t ks = false) :
    let n := atomicBytes r.body
    let a := atomicNew r.body n (leBytes (bytesAt t ks) 0 n)
    atomicReq t r ks = (atomicWrites t ks n a.1).answer r.id (.ok [] a.2) := by
  intro n a
  simp only [atomicReq, h, Bool.false_eq_true, if_false, n, a]
  cases (atomicNew r.body (atomicBytes r.body) (leBytes (bytesAt t ks) 0 (atomicBytes r.body))).1 <;> rfl

theorem atomicWrites_ne (t : State) {ks : List Nat} (n : Nat) (v : Option Nat) {k : Nat} (h : k ∉ ks) :
    memGet (atomicWrites t ks n v).mem k = memGet t.mem k := by
  cases v with
  | none => rfl
  | some v => exact writeKeysSquash_ne t _ h
end

end Sys2Proof.Machine
end

section
/-! O56: what arrives at a core or a unit, and what comes back (R37, R170, R174-R176, R191, R285, R348-R350). -/

namespace Sys2Proof.Machine

/-! ## Arrivals -/

/-- The entry that a host message asks for (R360). -/
def hostEntry (q : BitVec 2) (pc w1 w2 : Word) (tn : Tenant) : Entry :=
  { q := q, pc := pc, w1 := w1, w2 := w2, wid := 0, widf := 0, ltag := 0, tenant := tn, succ := 0, src := 1, pipe := Vector.replicate 8 0 }

/-- The request that carries it. -/
def hostStart (s : State) (c : CoreId) (e : Entry) : Req :=
  { id := s.nextId, core := c, slot := noSlot, occ := 0, tenant := e.tenant, priv := true, wid := 0, widf := 0, ltag := 0, ord := false,
    dest := .dev s.devId, tso := false, ret := false, body := .start c s.devId e 0, given := none, phys := [], reply := .none,
    cancel := false, orphan := true }

section
variable {s : State} {c : CoreId} (q : BitVec 2) (pc w1 w2 : Word) (tn : Tenant)

/-- R393: a host message travels where the host link of the die is up. -/
theorem exec_hostActiveMessage_up (h : hostUp s (dieOf c) = true) : exec (.hostActiveMessage c q pc w1 w2 tn) s =
    .next (({ s with net := s.net ++ [hostStart s c (hostEntry q pc w1 w2 tn)], nextId := s.nextId + 1 } : State).emit nodeHost
      ((hostStart s c (hostEntry q pc w1 w2 tn)).packets s)) := congrArg Host.Outcome.next (if_pos h)

theorem exec_hostActiveMessage_down (h : hostUp s (dieOf c) = false) : exec (.hostActiveMessage c q pc w1 w2 tn) s = .next s :=
  congrArg Host.Outcome.next (if_neg (by simp [h]))
end

section
variable {s : State} {id : Nat} {r : Req} (hr : s.req id = some r)
include hr

theorem execServiceRequestArrival_eq {c : CoreId} (hw : onWay s r = true) (hc : serviceCore s.devId r.body = some c) :
    execServiceRequestArrival id s = .next (arriveService s r) := by
  simp only [execServiceRequestArrival, hr, hw, hc, Option.isSome_some, Bool.and_self, if_true]

theorem execRemoteAccessArrival_eq (ho : r.ord = false) (hw : onWay s r = true) (hc : serviceCore s.devId r.body = none) :
    execRemoteAccessArrival id s = .next (performHere s r) := by
  simp only [execRemoteAccessArrival, hr, ho, hw, hc, Option.isNone_none, Bool.not_false, Bool.and_self, if_true]

theorem execFarOperationArrival_eq (ho : r.ord = true) (hw : onWay s r = true) (hc : serviceCore s.devId r.body = none) :
    execFarOperationArrival id s = .next (performHere s r) := by
  simp only [execFarOperationArrival, hr, ho, hw, hc, Option.isSome_none, Bool.and_self, Bool.false_eq_true, if_true, if_false]

theorem execFarOperationArrival_stays (hw : onWay s r = false) : execFarOperationArrival id s = .next s := by
  simp only [execFarOperationArrival, hr, hw, Bool.and_false, Bool.false_eq_true, if_false]

theorem execRemoteAccessArrival_stays (hw : onWay s r = false) : execRemoteAccessArrival id s = .next s := by
  simp only [execRemoteAccessArrival, hr, hw, Bool.and_false, Bool.false_and, Bool.false_eq_true, if_false]

theorem execAcknowledgement_drops {bs : List Byte} {x : Word} (ha : r.reply = .ok bs x) (hret : r.ret = false) :
    execAcknowledgement id s = .next (s.dropReq id) := by
  simp only [execAcknowledgement, hr, ha, hret, Bool.not_false, Bool.true_or, if_true]

/-- R174: the result of a long operation that is not cancelled goes to its destination. -/
theorem execLongResultReturn_finishes {c : CoreId} {n : SlotNo} {l : LongOp} (hl : (s.ctx c n).long.find? (·.id == id) = some l)
    (hv : l.val = none) (hid : l.id = id) {bs : List Byte} {x : Word} (ha : r.reply = .ok bs x) (hc : l.cancelled = false)
    (hf : formBadBytes l.conv (overlay l.own bs) = false) : execLongResultReturn c n id s =
      .next (finishLong (s.dropReq id) c n l (some (convVal l.conv (overlay l.own bs) x)) l.flags) := by
  simp only [execLongResultReturn, hl, settleLong, hv, hid, hr, settleReply, ha, hc, hf, Bool.false_eq_true, if_false]

/-! ## Messages -/

section
variable {c : CoreId} {e : Entry} {op : Nat} (hb : r.body = .start c s.devId e op) (hw : onWay s r = true)
  (hp : pathUp s r.core (bodyAddr s r.body) = true)
include hb hw hp

theorem execActiveMessageArrival_joins (hd : isDiverted s r.body = false) (hroom : (s.core c).sched.room = true) :
    execActiveMessageArrival id s = .next (s.modCore c fun k =>
      { k with sched := { k.sched with arrivals := k.sched.arrivals ++ [.start e id] } }) := by
  rw [hb] at hp hd
  simp only [execActiveMessageArrival, hr, hw, hb, hp, hd, hroom, ne_eq, not_true, Bool.not_true, Bool.or_self, Bool.false_eq_true, if_false]

theorem execActiveMessageArrival_stays (h : isDiverted s r.body = true ∨ (s.core c).sched.room = false) :
    execActiveMessageArrival id s = .next s := by
  have hheld : (isDiverted s r.body || !(s.core c).sched.room) = true := by rcases h with h | h <;> simp [h]
  rw [hb] at hp hheld
  simp only [execActiveMessageArrival, hr, hw, hb, hp, hheld, ne_eq, not_true, Bool.not_true, Bool.false_eq_true, if_false, if_true]
end

/-! ## A failing reply that no long operation awaits -/

section
variable {k : Nat} {fw : BitVec 5} {p : Word} (ha : r.reply = .err k fw p) (ho : r.orphan = false)
  (hl : (s.ctx r.core r.slot).long = []) (hc : (s.core r.core).counts id = false)
include ha ho hl hc

theorem execRemoteError_waits (hf : s.redirected id = true) : execRemoteError id s = .next s := by
  simp only [execRemoteError, hr, ha, ho, hl, hc, hf, List.find?_nil, Bool.false_eq_true, if_false, if_true]

theorem execRemoteError_charges (hw : (s.ctx r.core r.slot).wait = none) (hf : s.redirected id = false) :
    execRemoteError id s = .next (chargeError (s.dropReq id) r.core r.occ (reqErr r k fw p)) := by
  have hwait : failWait s r = s := by simp only [failWait, awaited, hw, Bool.and_false, Bool.false_eq_true, if_false]
  simp only [execRemoteError, hr, ha, ho, hl, hc, hf, hwait, List.find?_nil, Bool.false_eq_true, if_false]
end
end

/-! ## A ring wait that is withdrawn (R285) -/

/-- The operation stands neither in the service queue of a core nor among its ring waits. -/
def notQueued (k : Core) (id : Nat) : Prop := id ∉ k.svcq ∧ id ∉ k.rwait

theorem notQueued_dropSvc {k : Core} {id : Nat} (j : Nat) (h : notQueued k id) : notQueued (k.dropSvc j) id :=
  ⟨fun hm => h.1 (List.mem_filter.mp hm).1, fun hm => h.2 (List.mem_filter.mp hm).1⟩

theorem notQueued_dropSvc_same (k : Core) (id : Nat) : notQueued (k.dropSvc id) id :=
  ⟨fun hm => by simpa using (List.mem_filter.mp hm).2, fun hm => by simpa using (List.mem_filter.mp hm).2⟩

/-- The heads that leave a service queue are of that queue. -/
theorem notQueued_moveHeads {s : State} {c : CoreId} {id : Nat} {l : List Nat} (hl : id ∉ l) (h : notQueued (s.core c) id) :
    notQueued ((moveHeads s c l).core c) id := by
  induction l generalizing s with
  | nil => exact h
  | cons j t ih =>
    obtain ⟨hj, ht⟩ : id ≠ j ∧ id ∉ t := by simpa using hl
    unfold moveHeads
    split
    · exact ih ht (by rw [State.core_modCore]; exact notQueued_dropSvc j h)
    · split
      · exact ih ht (by rw [State.core_modCore, answer_core]; exact notQueued_dropSvc j h)
      · split
        · refine ih ht ?_
          rw [State.core_modCore]
          exact ⟨fun hm => h.1 (List.mem_filter.mp hm).1, fun hm => (List.mem_append.mp hm).elim h.2 fun e => hj (List.mem_singleton.mp e)⟩
        · exact h

theorem notQueued_settleHead {s : State} {c : CoreId} {id : Nat} (h : notQueued (s.core c) id) : notQueued ((settleHead s c).core c) id :=
  notQueued_moveHeads h.1 h

/-- The core that owns a ring, without a wait that is asked back. -/
def askedBack (s : State) (c : CoreId) (id : Nat) : State :=
  settleHead (s.modCore c fun k => let k := k.dropSvc id; { k with divert := k.divert.filter (· != id) }) c

theorem askedBack_mem (s : State) (c : CoreId) (id : Nat) : (askedBack s c id).mem = s.mem := mem_settleHead _ c

theorem notQueued_askedBack (s : State) (c : CoreId) (id : Nat) : notQueued ((askedBack s c id).core c) id := by
  refine notQueued_settleHead ?_
  rw [State.core_modCore]
  exact notQueued_dropSvc_same (s.core c) id

theorem execRingCancel_answers {s : State} {id : Nat} {r : Req} (hr : s.req id = some r) (hc : r.cancel = true) (ha : r.reply = .none)
    (ho : r.orphan = false) {op : RingOp} {o : CoreId} {obj : BitVec 16} {x : Word} {e : Vector Word 8} {sh : Option (Vector Word 8)}
    (hb : r.body = .ring op o s.devId obj x e sh) : ∃ a, execRingCancel id s = .next ((askedBack s o id).answer id a) := by
  have hopen : r.open_ = true := by rw [Req.open_, ha]; rfl
  simp only [execRingCancel, hr, hc, hopen, hb, ho, ne_eq, not_true, Bool.not_true, Bool.or_self, Bool.false_eq_true, if_false]
  exact ⟨_, rfl⟩

/-! ## An operation at its target -/

section
variable {s : State} {r : Req} (hp : pathUp s r.core (bodyAddr s r.body) = true) (hh : bodyHeld s r = false) (hd : isDiverted s r.body = false)
include hp hh hd

theorem performHere_load {ps : List Word} {w : Nat} (hb : r.body = .load ps w) : performHere s r = performLoad s r ps w := by
  rw [hb] at hp hd
  simp only [performHere, hb, hp, hh, hd, Bool.not_true, Bool.or_self, Bool.false_eq_true, if_false]

theorem performHere_store {q : Word} {bs : List Byte} {sc : Bool} (hb : r.body = .store q bs sc) : performHere s r = performStore s r q bs := by
  rw [hb] at hp hd
  simp only [performHere, hb, hp, hh, hd, Bool.not_true, Bool.or_self, Bool.false_eq_true, if_false]

theorem performHere_amo {q x : Word} {w : BitVec 1} {op : BitVec 4} (hb : r.body = .amo q x w op) : performHere s r = performAtomic s r q := by
  rw [hb] at hp hd
  simp only [performHere, hb, hp, hh, hd, Bool.not_true, Bool.or_self, Bool.false_eq_true, if_false]
end

end Sys2Proof.Machine

open Sys2Proof Sys2Proof.Machine

/-- Settles O56: each event is the branch of its meaning that its premises select; the state in which an access answers is named, and what its
translations, counts and squashes leave alone is said of it. -/
theorem arrivalEvents : Obligations.ArrivalEvents := by
  intro s c n id r l hr
  refine ⟨execServiceRequestArrival_eq hr, execRemoteAccessArrival_eq hr, execFarOperationArrival_eq hr,
    fun hw => ⟨execFarOperationArrival_stays hr hw, execRemoteAccessArrival_stays hr hw⟩, fun bs x => execAcknowledgement_drops hr,
    fun hl hv hid bs x => execLongResultReturn_finishes hr hl hv hid, fun op o obj x e sh hc ha ho hb => ?_,
    fun k fw p ha ho hl hw hc => ⟨execRemoteError_waits hr ha ho hl hc, execRemoteError_charges hr ha ho hl hc hw⟩,
    fun e op => execActiveMessageArrival_joins hr, fun e op => execActiveMessageArrival_stays hr, fun q pc w1 w2 tn => ⟨fun hup => ?_, fun hup => ?_⟩,
    fun hp hh hd => ⟨fun ps w => performHere_load hp hh hd, fun q bs sc => performHere_store hp hh hd, fun q x w op => performHere_amo hp hh hd⟩,
    fun p w => ⟨fun ks h => ?_, fun k fw h => ?_⟩, fun q bs ks hf hk hn hlen => ?_, fun q ks hf hk hkb hn hlen => ?_,
    fun q w kind => ⟨fun h => ⟨r.found_of_phys_nil s h q w kind, r.touch_of_phys_nil s h q w kind⟩,
      fun h => ⟨r.found_of_phys s h q w kind, r.touch_of_phys s h q w kind⟩⟩, fun t q w kind priv dec k => touchAt_mem s c t q w kind priv dec⟩
  · obtain ⟨a, h⟩ := execRingCancel_answers hr hc ha ho hb
    refine ⟨_, h, by rw [mem_answer, askedBack_mem], ?_⟩
    rw [answer_core]
    exact notQueued_askedBack s o id
  · exact ⟨hostStart s c (hostEntry q pc w1 w2 tn), hostEntry q pc w1 w2 tn, rfl, rfl, rfl, rfl, rfl, rfl, rfl, rfl, rfl, rfl, rfl,
      exec_hostActiveMessage_up q pc w1 w2 tn hup⟩
  · exact exec_hostActiveMessage_down q pc w1 w2 tn hup
  · exact ⟨_, performLoad_found s r h, fun k hk => loadTouched_mem s r p w hk⟩
  · obtain ⟨u, hu, hm⟩ := performLoad_fails s r h
    exact ⟨u, hu, fun j hj => by rw [hm, loadTouched_mem s r p w hj]⟩
  · refine ⟨_, performStore_found s r hf hk, fun i hi => writeKeysSquash_at (fun d => ?_) hn hlen hi, fun k hne => ?_⟩
    · rw [countAccess_descBase, Req.touch_descBase]
    · rw [writeKeysSquash_ne _ _ hne, countAccess_mem]
  · have hheld : keysHeld (atomicTouched s r q ks) ks = false := by rw [atomicTouched, keysHeld_countAccess, hkb]
    have hbytes : bytesAt (atomicTouched s r q ks) ks = bytesAt (r.touch s q (atomicBytes r.body) 2) ks := by
      rw [atomicTouched, bytesAt_countAccess]
    have hrun := (performAtomic_found s r hf hk).trans (atomicReq_eq r _ hheld)
    rw [hbytes] at hrun
    refine ⟨_, hrun, fun v hv i hi => ?_, fun hv => ?_, fun k hne => ?_⟩
    · rw [hv, atomicWrites, writeKeysSquash_at (atomicTouched_descBase s r q ks) hn (by rw [hlen, length_natBytes])
        (by rwa [length_natBytes]), natBytes_getD v hi]
    · rw [hv, atomicWrites, atomicTouched_mem]
    · rw [atomicWrites_ne _ _ _ hne, atomicTouched_mem]
end

section
/-! O2, O1: each field of an encoded word is found where the encoder put it, so every word decodes to the instruction that was encoded. -/

namespace Sys2Proof

/-! ## Fields of encoded words -/

section
variable (op a b c d sub : BitVec 6) (imm : BitVec 12) (g m t : BitVec 3) (sub5 : BitVec 5) (i14 : BitVec 14) (vd va vb vc sub4 : BitVec 4)

theorem fld_encCR : fld (encCR op a b c sub) 31 1 = 0 ∧ fld (encCR op a b c sub) 24 6 = op ∧ fld (encCR op a b c sub) 18 6 = a ∧
    fld (encCR op a b c sub) 12 6 = b ∧ fld (encCR op a b c sub) 6 6 = c ∧ fld (encCR op a b c sub) 0 6 = sub := by
  unfold fld encCR
  simp (disch := omega) only [BitVec.extractLsb'_append_eq_of_le, BitVec.extractLsb'_append_eq_of_add_le, Nat.reduceSub,
    BitVec.extractLsb'_eq_self, and_true]
  rfl

theorem fld_encCI : fld (encCI op a b imm) 31 1 = 0 ∧ fld (encCI op a b imm) 24 6 = op ∧ fld (encCI op a b imm) 18 6 = a ∧
    fld (encCI op a b imm) 12 6 = b ∧ fld (encCI op a b imm) 0 12 = imm := by
  unfold fld encCI
  simp (disch := omega) only [BitVec.extractLsb'_append_eq_of_le, BitVec.extractLsb'_append_eq_of_add_le, Nat.reduceSub,
    BitVec.extractLsb'_eq_self, and_true]
  rfl

theorem fld_encAR : fld (encAR op d a b g sub5) 26 6 = op ∧ fld (encAR op d a b g sub5) 20 6 = d ∧ fld (encAR op d a b g sub5) 14 6 = a ∧
    fld (encAR op d a b g sub5) 8 6 = b ∧ fld (encAR op d a b g sub5) 5 3 = g ∧ fld (encAR op d a b g sub5) 0 5 = sub5 ∧
    fld (encAR op d a b g sub5) 23 3 = d.extractLsb' 3 3 ∧ fld (encAR op d a b g sub5) 20 3 = d.extractLsb' 0 3 ∧
    fld (encAR op d a b g sub5) 0 3 = sub5.extractLsb' 0 3 := by
  unfold fld encAR
  simp (disch := omega) only [BitVec.extractLsb'_append_eq_of_le, BitVec.extractLsb'_append_eq_of_add_le, Nat.reduceSub,
    BitVec.extractLsb'_eq_self, and_self]

theorem fld_encAI : fld (encAI op d a i14) 26 6 = op ∧ fld (encAI op d a i14) 20 6 = d ∧ fld (encAI op d a i14) 14 6 = a ∧
    fld (encAI op d a i14) 0 14 = i14 ∧ fld (encAI op d a i14) 23 3 = d.extractLsb' 3 3 ∧ fld (encAI op d a i14) 20 3 = d.extractLsb' 0 3 ∧
    fld (encAI op d a i14) 6 8 = i14.extractLsb' 6 8 ∧ fld (encAI op d a i14) 0 6 = i14.extractLsb' 0 6 := by
  unfold fld encAI
  simp (disch := omega) only [BitVec.extractLsb'_append_eq_of_le, BitVec.extractLsb'_append_eq_of_add_le, Nat.reduceSub,
    BitVec.extractLsb'_eq_self, and_self]

theorem fld_encAV : fld (encAV op vd va vb vc m t sub4) 26 6 = op ∧ fld (encAV op vd va vb vc m t sub4) 22 4 = vd ∧
    fld (encAV op vd va vb vc m t sub4) 18 4 = va ∧ fld (encAV op vd va vb vc m t sub4) 14 4 = vb ∧
    fld (encAV op vd va vb vc m t sub4) 10 4 = vc ∧ fld (encAV op vd va vb vc m t sub4) 7 3 = m ∧
    fld (encAV op vd va vb vc m t sub4) 4 3 = t ∧ fld (encAV op vd va vb vc m t sub4) 0 4 = sub4 ∧
    fld (encAV op vd va vb vc m t sub4) 25 1 = vd.extractLsb' 3 1 ∧ fld (encAV op vd va vb vc m t sub4) 22 3 = vd.extractLsb' 0 3 ∧
    fld (encAV op vd va vb vc m t sub4) 17 1 = vb.extractLsb' 3 1 ∧ fld (encAV op vd va vb vc m t sub4) 14 3 = vb.extractLsb' 0 3 ∧
    fld (encAV op vd va vb vc m t sub4) 13 1 = vc.extractLsb' 3 1 ∧ fld (encAV op vd va vb vc m t sub4) 10 3 = vc.extractLsb' 0 3 ∧
    fld (encAV op vd va vb vc m t sub4) 11 3 = vc.extractLsb' 1 3 ∧ fld (encAV op vd va vb vc m t sub4) 10 1 = vc.extractLsb' 0 1 := by
  unfold fld encAV
  simp (disch := omega) only [BitVec.extractLsb'_append_eq_of_le, BitVec.extractLsb'_append_eq_of_add_le, Nat.reduceSub,
    BitVec.extractLsb'_eq_self, and_self]

theorem fld_encAVG : fld (encAVG vd a vc m t sub4) 26 6 = 0x26 ∧ fld (encAVG vd a vc m t sub4) 22 4 = vd ∧
    fld (encAVG vd a vc m t sub4) 16 6 = a ∧ fld (encAVG vd a vc m t sub4) 14 2 = 0 ∧
    fld (encAVG vd a vc m t sub4) 10 4 = vc ∧ fld (encAVG vd a vc m t sub4) 7 3 = m ∧
    fld (encAVG vd a vc m t sub4) 4 3 = t ∧ fld (encAVG vd a vc m t sub4) 0 4 = sub4 := by
  unfold fld encAVG
  simp (disch := omega) only [BitVec.extractLsb'_append_eq_of_le, BitVec.extractLsb'_append_eq_of_add_le, Nat.reduceSub,
    BitVec.extractLsb'_eq_self, and_true]

end

/-! Fields that a word makes out of narrower parts. -/

theorem fld_type (x y : BitVec 3) : BitVec.extractLsb' (n := 6) 3 3 (x ++ y) = x ∧ BitVec.extractLsb' (n := 6) 0 3 (x ++ y) = y := by
  simp (disch := omega) only [BitVec.extractLsb'_append_eq_of_le, BitVec.extractLsb'_append_eq_of_add_le, Nat.reduceSub,
    BitVec.extractLsb'_eq_self, and_self]

theorem fld_width (w : BitVec 2) : BitVec.extractLsb' (n := 6) 2 1 (0#4 ++ w) = 0 ∧ BitVec.extractLsb' (n := 6) 3 3 (0#4 ++ w) = 0 ∧
    BitVec.extractLsb' (n := 6) 0 2 (0#4 ++ w) = w := by
  simp (disch := omega) only [BitVec.extractLsb'_append_eq_of_le, BitVec.extractLsb'_append_eq_of_add_le, Nat.reduceSub,
    BitVec.extractLsb'_eq_self, and_true]
  exact ⟨rfl, rfl⟩

theorem fld_vec (v : BitVec 4) : BitVec.extractLsb' (n := 6) 4 2 (0#2 ++ v) = 0 ∧ BitVec.extractLsb' (n := 6) 0 4 (0#2 ++ v) = v := by
  simp (disch := omega) only [BitVec.extractLsb'_append_eq_of_le, BitVec.extractLsb'_append_eq_of_add_le, Nat.reduceSub,
    BitVec.extractLsb'_eq_self, and_true]
  rfl

theorem fld_atomic (z : BitVec 1) (f : BitVec 4) : BitVec.extractLsb' (n := 6) 5 1 (0#1 ++ z ++ f) = 0 ∧
    BitVec.extractLsb' (n := 6) 4 1 (0#1 ++ z ++ f) = z ∧ BitVec.extractLsb' (n := 6) 0 4 (0#1 ++ z ++ f) = f := by
  simp (disch := omega) only [BitVec.extractLsb'_append_eq_of_le, BitVec.extractLsb'_append_eq_of_add_le, Nat.reduceSub,
    BitVec.extractLsb'_eq_self, and_true]
  rfl


/-! ## A word beside `nop` -/

theorem decIf_ok {l : List Nat} (i : Instr) (h : lowest l = 0) : decIf l i = .ok i := by simp [decIf, h]

theorem decDst_ok {r : Nat} {l : List Nat} (i : Instr) (hr : r = 0) (h : lowest l = 0) : decDst r l i = .ok i := by
  simp only [decDst, hr, if_true, decIf_ok i h]

theorem decIf_sel {x : Bool} {l : List Nat} (i : Instr) (h : x = true) (hl : lowest l = 0) : decIf (sel2 x :: l) i = .ok i :=
  decIf_ok i (by simp only [lowest, sel2, flt, h, hl]; rfl)

/-- A word of position C decodes to the instruction, and is word 0 of a bundle of two words. -/
def decodesC (w : W32) (i : Instr) : Prop := fld w 31 1 = 0 ∧ decodeC w = .ok i

theorem sameDest_nopA (i : Instr) : sameDest i .nopA = false := by
  simp only [sameDest, show Instr.nopA.destG = [] from rfl, show Instr.nopA.destV = [] from rfl, show Instr.nopA.destP = [] from rfl,
    List.contains_nil, Bool.and_false, Bool.or_eq_false_iff, List.any_eq_false, Bool.false_eq_true, not_false_eq_true, implies_true, and_self]

theorem only_of_decodesC {w : W32} {i : Instr} (h : decodesC w i) : (decodeBundle w 0).only = some i := by
  have ha : decodeA 0 = .ok .nopA := rfl
  simp only [decodeBundle, h.1, h.2, ha, sameDest_nopA, Bundle.only]
  by_cases hi : i = .nop <;> simp [hi]

theorem only_of_decodeA {w : W32} {i : Instr} (h : decodeA w = .ok i) (hi : i ≠ .nopA) : (decodeBundle 0 w).only = some i := by
  have hc : decodeC 0 = .ok .nop := rfl
  have hd : sameDest .nop i = false := rfl
  have hb : fld 0 31 1 = 0 := rfl
  simp only [decodeBundle, hb, hc, h, hd, Bundle.only]
  exact if_neg hi

/-- A lone form decodes to the instruction, and bit 31 of its word 0 says that it is one. -/
def decodesLone (w0 w1 : W32) (i : Instr) : Prop := fld w0 31 1 = 1 ∧ decodeLone w0 w1 = .ok i

theorem only_of_decodesLone {w0 w1 : W32} {i : Instr} (h : decodesLone w0 w1 i) : (decodeBundle w0 w1).only = some i := by
  simp [decodeBundle, h.1, h.2, Bundle.only]

/-! ## C words -/

section
variable (a b c sub : RF) (n e : BitVec 12) (v x : BitVec 4) (t : BitVec 3) (w : BitVec 2)

theorem decodesC_br (p : BitVec 3) (k : BitVec 1) (d : BitVec 20) : decodesC (0#2 ++ 1#6 ++ p ++ k ++ d) (.br p k d) := by
  unfold decodesC decodeC fld
  simp (disch := omega) only [BitVec.extractLsb'_append_eq_of_le, BitVec.extractLsb'_append_eq_of_add_le, Nat.reduceSub, BitVec.extractLsb'_eq_self]
  exact ⟨rfl, rfl⟩

theorem decodesC_jmp (d : BitVec 24) : decodesC (0#2 ++ 2#6 ++ d) (.jmp d) := by
  unfold decodesC decodeC fld
  simp (disch := omega) only [BitVec.extractLsb'_append_eq_of_le, BitVec.extractLsb'_append_eq_of_add_le, Nat.reduceSub, BitVec.extractLsb'_eq_self]
  exact ⟨rfl, rfl⟩

theorem decodesC_call (d : BitVec 24) : decodesC (0#2 ++ 3#6 ++ d) (.call d) := by
  unfold decodesC decodeC fld
  simp (disch := omega) only [BitVec.extractLsb'_append_eq_of_le, BitVec.extractLsb'_append_eq_of_add_le, Nat.reduceSub, BitVec.extractLsb'_eq_self]
  exact ⟨rfl, rfl⟩

theorem decodesC_loop (d : BitVec 18) (h : (a != 0) = true) : decodesC (0#2 ++ 5#6 ++ a ++ d) (.loop a d) := by
  unfold decodesC decodeC fld
  simp (disch := omega) only [BitVec.extractLsb'_append_eq_of_le, BitVec.extractLsb'_append_eq_of_add_le, Nat.reduceSub, BitVec.extractLsb'_eq_self]
  exact ⟨rfl, decIf_ok _ (by simp only [lowest, reg5, flt, h]; rfl)⟩

theorem decodesC_spawn (d : BitVec 18) : decodesC (0#2 ++ 0x35#6 ++ a ++ d) (.spawn a d) := by
  unfold decodesC decodeC fld
  simp (disch := omega) only [BitVec.extractLsb'_append_eq_of_le, BitVec.extractLsb'_append_eq_of_add_le, Nat.reduceSub, BitVec.extractLsb'_eq_self]
  exact ⟨rfl, rfl⟩

theorem only_of_encCR {op a b c sub : RF} {i : Instr} (h : decodeC (encCR op a b c sub) = .ok i) :
    (decodeBundle (encCR op a b c sub) 0).only = some i := only_of_decodesC ⟨(fld_encCR ..).1, h⟩

theorem only_of_encCI {op a b : RF} {n : BitVec 12} {i : Instr} (h : decodeC (encCI op a b n) = .ok i) :
    (decodeBundle (encCI op a b n) 0).only = some i := only_of_decodesC ⟨(fld_encCI ..).1, h⟩

-- Elaborated before the theorems after it: all of them wait for the cases of the decoder's `match`, which are worked out once.
set_option Elab.async false in
theorem decodeC_helper : decodeC (encCR 0x07 a b c sub) = decHelper a b c sub := by simp [decodeC, fld_encCR]
theorem decodeC_system : decodeC (encCR 0x08 a b c sub) = decSystem a b c sub := by simp [decodeC, fld_encCR]
theorem decodeC_key : decodeC (encCR 0x30 a b c sub) = decKey a b c sub := by simp [decodeC, fld_encCR]
theorem decodeC_ring : decodeC (encCR 0x31 a b c sub) = decRing a b c sub := by simp [decodeC, fld_encCR]
theorem decodeC_copy : decodeC (encCR 0x32 a b c sub) = decCopy a b c sub := by simp [decodeC, fld_encCR]
theorem decodeC_mailbox : decodeC (encCR 0x33 a b c sub) = decMailbox a b c sub := by simp [decodeC, fld_encCR]
theorem decodeC_task : decodeC (encCR 0x34 a b c sub) = decTask a b c sub := by simp [decodeC, fld_encCR]
theorem decodeC_apx : decodeC (encCR 0x36 a b c sub) = decApx a b c sub := by simp [decodeC, fld_encCR]
theorem decodeC_alembic : decodeC (encCR 0x37 a b c sub) = decAlembic a b c sub := by simp [decodeC, fld_encCR]
theorem decodeC_atomic : decodeC (encCR 0x28 a b c sub) = decAtomic false a b c sub := by simp [decodeC, fld_encCR]
theorem decodeC_reduction : decodeC (encCR 0x2A a b c sub) = decAtomic true a b c sub := by simp [decodeC, fld_encCR]

theorem decodeC_jmpi : decodeC (encCR 0x04 a 0 0 0) = .ok (.jmpi a) := by simp [decodeC, fld_encCR, decIf, nz, flt, lowest]
theorem decodeC_ret : decodeC (encCR 0x04 0 0 0 1) = .ok .ret := by simp [decodeC, fld_encCR, decIf, nz, flt, lowest]
theorem decodeC_park : decodeC (encCR 0x06 a 0 0 0) = .ok (.park a) := by simp [decodeC, fld_encCR, decIf, sel2, nz, flt, lowest]
theorem decodeC_hstart (h : groupOk b 3 = true) : decodeC (encCR 0x07 a b 0 0) = .ok (.hstart a b) := by
  rw [decodeC_helper]
  exact decIf_ok _ (by simp [lowest, nz, reg5, flt, h])

theorem decodeC_crr (h : crExists n = true) : decodeC (encCI 0x09 a 0 n) = .ok (.crr a n) := by
  simp [decodeC, fld_encCI, decIf, sel2, nz, flt, lowest, h]
theorem decodeC_crw (h : crExists n = true) : decodeC (encCI 0x0A a 0 n) = .ok (.crw a n) := by
  simp [decodeC, fld_encCI, decIf, sel2, nz, flt, lowest, h]
theorem decodeC_crs (h : crExists n = true) : decodeC (encCI 0x0B a 0 n) = .ok (.crs a n) := by
  simp [decodeC, fld_encCI, decIf, sel2, nz, flt, lowest, h]
theorem decodeC_crc (h : crExists n = true) : decodeC (encCI 0x0C a 0 n) = .ok (.crc a n) := by
  simp [decodeC, fld_encCI, decIf, sel2, nz, flt, lowest, h]

theorem cases_width (w : BitVec 2) : w = 0#2 ∨ w = 1#2 ∨ w = 2#2 ∨ w = 3#2 := by revert w; decide

theorem decodeC_ld : decodeC (encCI (4#4 ++ w) a b e) = .ok (.ld w a b e) := by
  obtain h | h | h | h := cases_width w
  all_goals subst h; simp [decodeC, fld_encCI]

theorem decodeC_ldn (hw : (w != 3) = true) : decodeC (encCI (5#4 ++ w) a b e) = .ok (.ldn w a b e) := by
  obtain h | h | h | h := cases_width w
  case inr.inr.inr => subst h; contradiction
  all_goals subst h; simp [decodeC, fld_encCI]

theorem decodeC_st : decodeC (encCI (6#4 ++ w) a b e) = .ok (.st w a b e) := by
  obtain h | h | h | h := cases_width w
  all_goals subst h; simp [decodeC, fld_encCI]

theorem decodeC_ldx (h : (t != 7) = true) : decodeC (encCR 0x1C a b c (0#3 ++ t)) = .ok (.ldx a b c t) := by
  simp only [decodeC, fld_encCR, fld_type]
  exact decIf_ok _ (by simp only [sel2, flt, lowest, h]; rfl)
theorem decodeC_stx : decodeC (encCR 0x1D a b c (0#4 ++ w)) = .ok (.stx a b c w) := by
  simp only [decodeC, fld_encCR, fld_width]
  exact decIf_ok _ (by simp [sel2, flt, lowest])
theorem decodeC_vld : decodeC (encCI 0x20 (0#2 ++ v) b e) = .ok (.vld v b e) := by
  simp only [decodeC, fld_encCI, fld_vec, vecField]
  exact decDst_ok _ rfl rfl
theorem decodeC_vst : decodeC (encCI 0x21 (0#2 ++ v) b e) = .ok (.vst v b e) := by
  simp only [decodeC, fld_encCI, fld_vec, vecField]
  exact decIf_ok _ rfl
theorem decodeC_vldf (h : typeOk t = true) : decodeC (encCR 0x22 (0#2 ++ v) b c (0#3 ++ t)) = .ok (.vldf v b c t) := by
  simp only [decodeC, fld_encCR, fld_type, fld_vec, vecField]
  exact decDst_ok _ rfl (by simp [sel2, flt, lowest, h])
theorem decodeC_vstf (m : BitVec 3) (h : (decide (m.toNat ≤ 4) && typeOk t) = true) :
    decodeC (encCR 0x23 (0#2 ++ v) b c (m ++ t)) = .ok (.vstf v b c m t) := by
  simp only [Bool.and_eq_true, decide_eq_true_eq] at h
  simp only [decodeC, fld_encCR, fld_type, fld_vec, vecField]
  exact decIf_ok _ (by simp [sel2, reg5, flt, lowest, h])
theorem decodeC_vldt (h : typeOk t = true) : decodeC (encCR 0x24 (0#2 ++ v) b c (0#3 ++ t)) = .ok (.vldt v b c t) := by
  simp only [decodeC, fld_encCR, fld_type, fld_vec, vecField]
  exact decDst_ok _ rfl (by simp [sel2, flt, lowest, h])
theorem decodeC_vgath (h : typeOk t = true) : decodeC (encCR 0x25 (0#2 ++ v) b (0#2 ++ x) (0#3 ++ t)) = .ok (.vgath v b x t) := by
  simp only [decodeC, fld_encCR, fld_type, fld_vec, vecField]
  exact decDst_ok _ rfl (by simp [sel2, reg5, flt, lowest, h])
theorem decodeC_vscat (h : typeOk t = true) : decodeC (encCR 0x26 (0#2 ++ v) b (0#2 ++ x) (0#3 ++ t)) = .ok (.vscat v b x t) := by
  simp only [decodeC, fld_encCR, fld_type, fld_vec, vecField]
  exact decIf_ok _ (by simp [sel2, reg5, flt, lowest, h])

theorem decodeC_amo (k : BitVec 1) (op : BitVec 4) (h : (decide (op.toNat ≤ 9) && !(op == 1 && k == 1)) = true) :
    decodeC (encCR 0x28 a b c (0#1 ++ k ++ op)) = .ok (.amo a b c k op) := by
  rw [decodeC_atomic, decAtomic]
  simp only [fld_atomic, Bool.false_eq_true, if_false, h]
  exact decIf_ok _ rfl
theorem decodeC_red (k : BitVec 1) (op : BitVec 4) (h : (decide (op.toNat ≤ 8) && !(op == 1 && k == 1)) = true) :
    decodeC (encCR 0x2A 0 b c (0#1 ++ k ++ op)) = .ok (.red b c k op) := by
  rw [decodeC_reduction, decAtomic]
  simp only [fld_atomic, if_true, h]
  exact decIf_ok _ rfl
theorem decodeC_acas (k : BitVec 1) : decodeC (encCR 0x29 a b c (0#1 ++ k ++ 0#4)) = .ok (.acas a b c k) := by
  simp only [decodeC, fld_encCR, fld_atomic]
  exact decIf_ok _ (by simp [flt, lowest])
theorem decodeC_fence : decodeC (encCR 0x2B 0 0 0 (0#4 ++ w)) = .ok (.fence w) := by
  have : (0#4 ++ w).toNat ≤ 3 := by obtain h | h | h | h := cases_width w <;> subst h <;> decide
  simp only [decodeC, fld_encCR, fld_width]
  exact decIf_ok _ (by simp [sel2, nz, flt, lowest, this])
theorem decodeC_post (h : (decide (1 ≤ sub.toNat) && decide (sub.toNat ≤ 8) && groupOk c sub.toNat) = true) :
    decodeC (encCR 0x2C a b c sub) = .ok (.post a b c sub) := by
  simp only [Bool.and_eq_true, decide_eq_true_eq] at h
  simp [decodeC, fld_encCR, decIf, sel2, reg5, flt, lowest, h]
theorem decodeC_recv (h : groupOk a 8 = true) : decodeC (encCR 0x2D a b 0 0) = .ok (.recv a b) := by
  simp [decodeC, fld_encCR, decIf, sel2, nz, reg5, flt, lowest, h]
theorem decodeC_ipeek : decodeC (encCR 0x2E a 0 0 0) = .ok (.ipeek a) := by simp [decodeC, fld_encCR, decIf, sel2, nz, flt, lowest]

theorem decodeC_amsg (h : groupOk c 3 = true) : decodeC (encCR 0x34 a b c 1) = .ok (.amsg a b c) := by
  rw [decodeC_task]
  exact decIf_ok _ (by simp [lowest, reg5, flt, h])
theorem decodeC_wfield (h : decide (b.toNat ≤ 5) = true) : decodeC (encCR 0x34 a b 0 2) = .ok (.wfield a b) := by
  rw [decodeC_task]
  exact decIf_ok _ (by simp [lowest, nz, sel2, flt, of_decide_eq_true h])
theorem decodeC_apxOn (p : BitVec 3) : decodeC (encCR 0x36 (0#3 ++ p) b 0 0) = .ok (.apxOn p b) := by
  rw [decodeC_apx]
  simp only [decApx, predField, fld_type]
  exact decDst_ok _ rfl rfl
theorem decodeC_apxOut (h : decide (a.toNat ≤ 15) = true) : decodeC (encCR 0x36 a b 0 2) = .ok (.apxOut a b) := by
  rw [decodeC_apx]
  exact decIf_ok _ (by simp [lowest, nz, sel2, flt, of_decide_eq_true h])
theorem decodeC_apxRes (h : decide (b.toNat ≤ 15) = true) : decodeC (encCR 0x36 a b 0 3) = .ok (.apxRes a b) := by
  rw [decodeC_apx]
  exact decIf_ok _ (by simp [lowest, nz, sel2, flt, of_decide_eq_true h])
theorem decodeC_cbPush (h : groupOk b 5 = true) : decodeC (encCR 0x37 a b c 0) = .ok (.cbPush a b c) := by
  rw [decodeC_alembic]
  exact decIf_ok _ (by simp [lowest, reg5, flt, h])
theorem decodeC_cbPull (h : groupOk a 5 = true) : decodeC (encCR 0x37 a b c 1) = .ok (.cbPull a b c) := by
  rw [decodeC_alembic]
  exact decIf_ok _ (by simp [lowest, reg5, flt, h])
end

/-! ## A words -/

section
variable (d a b : RF) (g m t : BitVec 3) (s : BitVec 5) (i : BitVec 14) (n : BitVec 6) (vd va vb vc k : BitVec 4)

-- For the same reason.
set_option Elab.async false in
theorem decodeA_int : decodeA (encAR 0x01 d a b g s) = decInt d a b g s := by simp [decodeA, fld_encAR]
theorem decodeA_addi : decodeA (encAI 0x02 d a i) = .ok (.addi d a i) := by simp [decodeA, fld_encAI]
theorem decodeA_andi : decodeA (encAI 0x03 d a i) = .ok (.andi d a i) := by simp [decodeA, fld_encAI]
theorem decodeA_ori : decodeA (encAI 0x04 d a i) = .ok (.ori d a i) := by simp [decodeA, fld_encAI]
theorem decodeA_xori : decodeA (encAI 0x05 d a i) = .ok (.xori d a i) := by simp [decodeA, fld_encAI]
theorem decodeA_paddi : decodeA (encAI 0x11 d a i) = .ok (.paddi d a i) := by simp [decodeA, fld_encAI]

/-- The count of an immediate shift, and the zeros above it. -/
theorem fld_shift : BitVec.extractLsb' (n := 14) 6 8 (0#8 ++ n) = 0 ∧ BitVec.extractLsb' (n := 14) 0 6 (0#8 ++ n) = n := by
  simp (disch := omega) only [BitVec.extractLsb'_append_eq_of_le, BitVec.extractLsb'_append_eq_of_add_le, Nat.reduceSub,
    BitVec.extractLsb'_eq_self, and_true]
  rfl

theorem decodeA_shli : decodeA (encAI 0x06 d a (0#8 ++ n)) = .ok (.shli d a n) := by
  simp only [decodeA, fld_encAI, fld_shift]; exact decIf_ok _ rfl
theorem decodeA_shri : decodeA (encAI 0x07 d a (0#8 ++ n)) = .ok (.shri d a n) := by
  simp only [decodeA, fld_encAI, fld_shift]; exact decIf_ok _ rfl
theorem decodeA_srai : decodeA (encAI 0x08 d a (0#8 ++ n)) = .ok (.srai d a n) := by
  simp only [decodeA, fld_encAI, fld_shift]; exact decIf_ok _ rfl

theorem decodeA_movi (x : BitVec 20) : decodeA (9#6 ++ d ++ x) = .ok (.movi d x) := by
  unfold decodeA fld
  simp (disch := omega) only [BitVec.extractLsb'_append_eq_of_le, BitVec.extractLsb'_append_eq_of_add_le, Nat.reduceSub, BitVec.extractLsb'_eq_self]
  rfl
theorem decodeA_movh (x : BitVec 20) : decodeA (10#6 ++ d ++ x) = .ok (.movh d x) := by
  unfold decodeA fld
  simp (disch := omega) only [BitVec.extractLsb'_append_eq_of_le, BitVec.extractLsb'_append_eq_of_add_le, Nat.reduceSub, BitVec.extractLsb'_eq_self]
  rfl

theorem decodeA_cmp (p c : BitVec 3) : decodeA (encAR 0x0B (p ++ 0#3) a b g (0#2 ++ c)) = .ok (.cmp p a b g c) := by
  have hc : BitVec.toNat (w := 5) (0#2 ++ c) ≤ 7 := by revert c; decide
  simp only [decodeA, fld_encAR]
  simp (disch := omega) only [BitVec.extractLsb'_append_eq_of_le, BitVec.extractLsb'_append_eq_of_add_le, Nat.reduceSub, BitVec.extractLsb'_eq_self]
  exact decIf_ok _ (by simp only [sel2, flt, lowest, hc]; rfl)
theorem decodeA_cmpi (p c : BitVec 3) : decodeA (encAI 0x0C (p ++ c) a i) = .ok (.cmpi p c a i) := by
  simp only [decodeA, fld_encAI]
  simp (disch := omega) only [BitVec.extractLsb'_append_eq_of_le, BitVec.extractLsb'_append_eq_of_add_le, Nat.reduceSub, BitVec.extractLsb'_eq_self]
  rfl
theorem decodeA_bfx (o l : RF) (z : BitVec 1) (h : decide (o.toNat + l.toNat + 1 ≤ 64) = true) :
    decodeA (13#6 ++ d ++ a ++ o ++ l ++ z ++ 0#1) = .ok (.bfx d a o l z) := by
  unfold decodeA fld
  simp (disch := omega) only [BitVec.extractLsb'_append_eq_of_le, BitVec.extractLsb'_append_eq_of_add_le, Nat.reduceSub, BitVec.extractLsb'_eq_self]
  exact decIf_ok _ (by simp only [sel2, flt, lowest, h]; rfl)
theorem decodeA_bfi (o l : RF) (z : BitVec 1) (h : decide (o.toNat + l.toNat + 1 ≤ 64) = true) :
    decodeA (14#6 ++ d ++ a ++ o ++ l ++ 0#1 ++ z) = .ok (.bfi d a o l z) := by
  unfold decodeA fld
  simp (disch := omega) only [BitVec.extractLsb'_append_eq_of_le, BitVec.extractLsb'_append_eq_of_add_le, Nat.reduceSub, BitVec.extractLsb'_eq_self]
  exact decIf_ok _ (by simp only [sel2, flt, lowest, h]; rfl)

theorem decodeA_padd : decodeA (encAR 0x10 d a b g 0) = .ok (.padd d a b g) := by simp [decodeA, fld_encAR, decIf, sel2, flt, lowest]
theorem decodeA_pidx : decodeA (encAR 0x12 d a b g 0) = .ok (.pidx d a b g) := by simp [decodeA, fld_encAR, decIf, sel2, flt, lowest]
theorem decodeA_ptag (f : BitVec 5) (l : BitVec 3) : decodeA (0x13#6 ++ d ++ a ++ 0#1 ++ f ++ 0#3 ++ l ++ 0#2) = .ok (.ptag d a f l) := by
  unfold decodeA fld
  simp (disch := omega) only [BitVec.extractLsb'_append_eq_of_le, BitVec.extractLsb'_append_eq_of_add_le, Nat.reduceSub, BitVec.extractLsb'_eq_self]
  exact decIf_ok _ rfl
theorem decodeA_pget (h : decide (b.toNat ≤ 5) = true) : decodeA (encAR 0x14 d a b g 0) = .ok (.pget d a b g) := by
  simp [decodeA, fld_encAR, decIf, sel2, flt, lowest, of_decide_eq_true h]
theorem decodeA_pchk (p : BitVec 3) : decodeA (encAR 0x15 (p ++ 0#3) a b g 0) = .ok (.pchk p a b g) := by
  simp only [decodeA, fld_encAR]
  simp (disch := omega) only [BitVec.extractLsb'_append_eq_of_le, BitVec.extractLsb'_append_eq_of_add_le, Nat.reduceSub, BitVec.extractLsb'_eq_self]
  exact decIf_ok _ rfl
theorem decodeA_pmk : decodeA (encAR 0x16 d a b g 0) = .ok (.pmk d a b g) := by simp [decodeA, fld_encAR, decIf, sel2, flt, lowest]

theorem decodeA_varith : decodeA (encAV 0x20 vd va vb vc m t k) = decVArith vd va vb vc m t k := by simp [decodeA, fld_encAV]
theorem decodeA_vlong : decodeA (encAV 0x21 vd va vb vc m t k) = decVLong vd va vb vc m t k := by simp [decodeA, fld_encAV]
theorem decodeA_vcvt (x : BitVec 1) (f : BitVec 3) (h : (decide (k.toNat ≤ 4) && typeOk f && typeOk t) = true) :
    decodeA (encAV 0x22 vd va 0 (x ++ f) m t k) = .ok (.vcvt vd va x f m t k) := by
  simp only [Bool.and_eq_true, decide_eq_true_eq] at h
  simp only [decodeA, fld_encAV]
  simp (disch := omega) only [BitVec.extractLsb'_append_eq_of_le, BitVec.extractLsb'_append_eq_of_add_le, Nat.reduceSub, BitVec.extractLsb'_eq_self]
  exact decIf_ok _ (by simp [sel2, nz, flt, lowest, h])
theorem decodeA_vcmp (p : BitVec 3) (h : (decide (k.toNat ≤ 7) && typeOk t && !(decide (6 ≤ k.toNat) && decide (t.toNat ≤ 2))) = true) :
    decodeA (encAV 0x23 (0#1 ++ p) va vb 0 m t k) = .ok (.vcmp p va vb m t k) := by
  simp only [Bool.and_eq_true] at h
  simp only [decodeA, fld_encAV]
  simp (disch := omega) only [BitVec.extractLsb'_append_eq_of_le, BitVec.extractLsb'_append_eq_of_add_le, Nat.reduceSub, BitVec.extractLsb'_eq_self]
  exact decIf_ok _ (by simp only [sel2, flt, lowest, h]; rfl)
theorem decodeA_vsel (h : typeOk t = true) : decodeA (encAV 0x24 vd va vb 0 m t 0) = .ok (.vsel vd va vb m t) := by
  simp [decodeA, fld_encAV, decIf, sel2, nz, flt, lowest, h]
theorem decodeA_vsum (h : typeOk t = true) : decodeA (encAV 0x25 vd va 0 0 m t 0) = .ok (.vsum vd va m t) := by
  simp [decodeA, fld_encAV, decIf, sel2, nz, flt, lowest, h]
theorem decodeA_vmaxr (h : typeOk t = true) : decodeA (encAV 0x25 vd va 0 0 m t 1) = .ok (.vmaxr vd va m t) := by
  simp [decodeA, fld_encAV, decIf, sel2, nz, flt, lowest, h]
theorem decodeA_avg : decodeA (encAVG vd a vc m t k) =
    decVMove vd (fld (encAVG vd a vc m t k) 18 4) (fld (encAVG vd a vc m t k) 14 4) vc a 0 m t k := by
  simp [decodeA, fld_encAVG]
theorem decodeA_vmove : decodeA (encAV 0x26 vd va vb vc m t k) =
    decVMove vd va vb vc (fld (encAV 0x26 vd va vb vc m t k) 16 6) (fld (encAV 0x26 vd va vb vc m t k) 14 2) m t k := by
  simp [decodeA, fld_encAV]
theorem decodeA_vpack (h : typeOk t = true) : decodeA (encAV 0x27 vd va vb 0 m t 0) = .ok (.vpack vd va vb m t) := by
  simp [decodeA, fld_encAV, decIf, sel2, nz, flt, lowest, h]
theorem decodeA_vunpack (z : BitVec 1) (h : typeOk t = true) : decodeA (encAV 0x27 vd va 0 (0#3 ++ z) m t 1) = .ok (.vunpack vd va z m t) := by
  simp only [decodeA, fld_encAV]
  simp (disch := omega) only [BitVec.extractLsb'_append_eq_of_le, BitVec.extractLsb'_append_eq_of_add_le, Nat.reduceSub, BitVec.extractLsb'_eq_self]
  exact decIf_ok _ (by simp only [sel2, flt, lowest, h]; rfl)
theorem decodeA_vbsc (l : BitVec 3) (h : vbscOk l vc t k = true) : decodeA (encAV 0x28 vd va (0#1 ++ l) vc m t k) = .ok (.vbsc vd va l vc m t k) := by
  simp only [decodeA, fld_encAV]
  simp (disch := omega) only [BitVec.extractLsb'_append_eq_of_le, BitVec.extractLsb'_append_eq_of_add_le, Nat.reduceSub, BitVec.extractLsb'_eq_self]
  exact decIf_ok _ (by simp only [sel2, flt, lowest, h]; rfl)
theorem decodeA_vand (h : typeOk t = true) : decodeA (encAV 0x29 vd va vb 0 m t 0) = .ok (.vand vd va vb m t) := by
  simp [decodeA, fld_encAV, decIf, sel2, nz, flt, lowest, h]
theorem decodeA_vor (h : typeOk t = true) : decodeA (encAV 0x29 vd va vb 0 m t 1) = .ok (.vor vd va vb m t) := by
  simp [decodeA, fld_encAV, decIf, sel2, nz, flt, lowest, h]
theorem decodeA_vxor (h : typeOk t = true) : decodeA (encAV 0x29 vd va vb 0 m t 2) = .ok (.vxor vd va vb m t) := by
  simp [decodeA, fld_encAV, decIf, sel2, nz, flt, lowest, h]
theorem decodeA_vshift (h : (decide (3 ≤ t.toNat) && typeOk t) = true) : decodeA (encAV 0x29 vd va vb 0 m t 3) = .ok (.vshift vd va vb m t) := by
  simp only [Bool.and_eq_true, decide_eq_true_eq] at h
  simp [decodeA, fld_encAV, decIf, sel2, nz, flt, lowest, h]
end

/-! ## Lone forms -/

section
variable (d a b : RF) (acc : BitVec 2)
theorem decodesLone_kwin (w : BitVec 6) (o : BitVec 12) :
    decodesLone (encLone 0x02 (0#2 ++ d ++ a ++ b ++ 0#3)) (w ++ o ++ 0#14) (.kwin d a b w o) := by
  unfold decodesLone decodeLone fld encLone
  simp (disch := omega) only [BitVec.extractLsb'_append_eq_of_le, BitVec.extractLsb'_append_eq_of_add_le, Nat.reduceSub, BitVec.extractLsb'_eq_self]
  exact ⟨rfl, decIf_ok _ rfl⟩
theorem decodesLone_kcfg (z : BitVec 4) (n : BitVec 12) (o : BitVec 18)
    (h : (decide (4 ≤ z.toNat) && decide (z.toNat ≤ 14) && o.extractLsb' 0 4 == 0) = true) :
    decodesLone (encLone 0x03 (z ++ 0#7 ++ n)) (0#14 ++ o) (.kcfg z n o) := by
  simp only [Bool.and_eq_true, decide_eq_true_eq, beq_iff_eq] at h
  obtain ⟨⟨h1, h2⟩, h3⟩ := h
  unfold decodesLone decodeLone fld encLone
  simp (disch := omega) only [BitVec.extractLsb'_append_eq_of_le, BitVec.extractLsb'_append_eq_of_add_le, Nat.reduceSub, BitVec.extractLsb'_eq_self]
  exact ⟨rfl, decIf_ok _ (by simp [sel2, nz, flt, lowest, h1, h2, h3])⟩
theorem decodesLone_mmac (na nb fr ka kb : BitVec 1) (ra rb : BitVec 16) (mode : BitVec 2) (h : decide (mode.toNat ≤ 1) = true) :
    decodesLone (encLone 0x04 (acc ++ na ++ nb ++ fr ++ ka ++ kb ++ ra)) (rb ++ mode ++ 0#14)
      (.mmac acc na nb fr ka kb ra rb mode) := by
  unfold decodesLone decodeLone fld encLone
  simp (disch := omega) only [BitVec.extractLsb'_append_eq_of_le, BitVec.extractLsb'_append_eq_of_add_le, Nat.reduceSub, BitVec.extractLsb'_eq_self]
  exact ⟨rfl, decIf_ok _ (by simp only [sel2, flt, lowest, h]; rfl)⟩
theorem decodesLone_mzero : decodesLone (encLone 0x05 (acc ++ 0#21)) 0 (.mzero acc) := by
  unfold decodesLone decodeLone fld encLone
  simp (disch := omega) only [BitVec.extractLsb'_append_eq_of_le, BitVec.extractLsb'_append_eq_of_add_le, Nat.reduceSub, BitVec.extractLsb'_eq_self]
  exact ⟨rfl, decIf_ok _ rfl⟩
theorem decodesLone_mget : decodesLone (encLone 0x06 (acc ++ a ++ 0#15)) 0 (.mget acc a) := by
  unfold decodesLone decodeLone fld encLone
  simp (disch := omega) only [BitVec.extractLsb'_append_eq_of_le, BitVec.extractLsb'_append_eq_of_add_le, Nat.reduceSub, BitVec.extractLsb'_eq_self]
  exact ⟨rfl, decIf_ok _ rfl⟩
theorem decodesLone_mput : decodesLone (encLone 0x07 (acc ++ a ++ 0#15)) 0 (.mput acc a) := by
  unfold decodesLone decodeLone fld encLone
  simp (disch := omega) only [BitVec.extractLsb'_append_eq_of_le, BitVec.extractLsb'_append_eq_of_add_le, Nat.reduceSub, BitVec.extractLsb'_eq_self]
  exact ⟨rfl, decIf_ok _ rfl⟩
theorem decodesLone_mwait : decodesLone (encLone 0x08 (0#2 ++ a ++ 0#15)) 0 (.mwait a) := by
  unfold decodesLone decodeLone fld encLone
  simp (disch := omega) only [BitVec.extractLsb'_append_eq_of_le, BitVec.extractLsb'_append_eq_of_add_le, Nat.reduceSub, BitVec.extractLsb'_eq_self]
  exact ⟨rfl, decIf_ok _ rfl⟩
theorem decodesLone_mstat : decodesLone (encLone 0x09 (0#2 ++ d ++ 0#15)) 0 (.mstat d) := by
  unfold decodesLone decodeLone fld encLone
  simp (disch := omega) only [BitVec.extractLsb'_append_eq_of_le, BitVec.extractLsb'_append_eq_of_add_le, Nat.reduceSub, BitVec.extractLsb'_eq_self]
  exact ⟨rfl, decIf_ok _ rfl⟩
theorem decodesLone_movl (m : BitVec 2) (w : W32) (h : (m != 3) = true) :
    decodesLone (1#1 ++ 0#1 ++ 1#1 ++ 1#6 ++ m ++ d ++ 0#15) w (.movl d m w) := by
  unfold decodesLone decodeLone fld
  simp (disch := omega) only [BitVec.extractLsb'_append_eq_of_le, BitVec.extractLsb'_append_eq_of_add_le, Nat.reduceSub, BitVec.extractLsb'_eq_self]
  exact ⟨rfl, decIf_ok _ (by simp only [sel2, flt, lowest, h]; rfl)⟩
end

/-! ## Every word and every lone form -/

end Sys2Proof

open Sys2Proof

/-- Settles O2, by the instruction's place and the encoding table that holds it: the word's fields are where the encoder put them, and the
table's row is chosen by them. -/
theorem decodeEncode : Obligations.DecodeEncode := by
  intro i hw hp hn
  cases i
  case nop => rfl
  case nopA => exact absurd rfl hn
  -- transfers
  case br => exact only_of_decodesC (decodesC_br ..)
  case jmp => exact only_of_decodesC (decodesC_jmp ..)
  case call => exact only_of_decodesC (decodesC_call ..)
  case loop => exact only_of_decodesC (decodesC_loop _ _ hw)
  case spawn => exact only_of_decodesC (decodesC_spawn ..)
  case jmpi => exact only_of_encCR (decodeC_jmpi ..)
  case ret => exact only_of_encCR decodeC_ret
  case park => exact only_of_encCR (decodeC_park ..)
  -- helpers and the system
  case hstart => exact only_of_encCR (decodeC_hstart _ _ hw)
  case hend | hjoin | hsave | hload | hresume => exact only_of_encCR ((decodeC_helper ..).trans rfl)
  case trap | eret | hret | upret | brk | tmark | cnt | pshare | halt =>
    exact only_of_encCR ((decodeC_system ..).trans rfl)
  case crr => exact only_of_encCI (decodeC_crr _ _ hw)
  case crw => exact only_of_encCI (decodeC_crw _ _ hw)
  case crs => exact only_of_encCI (decodeC_crs _ _ hw)
  case crc => exact only_of_encCI (decodeC_crc _ _ hw)
  -- memory
  case ld => exact only_of_encCI (decodeC_ld ..)
  case ldn => exact only_of_encCI (decodeC_ldn _ _ _ _ hw)
  case st => exact only_of_encCI (decodeC_st ..)
  case ldx => exact only_of_encCR (decodeC_ldx _ _ _ _ hw)
  case stx => exact only_of_encCR (decodeC_stx ..)
  case vld => exact only_of_encCI (decodeC_vld ..)
  case vst => exact only_of_encCI (decodeC_vst ..)
  case vldf => exact only_of_encCR (decodeC_vldf _ _ _ _ hw)
  case vstf => exact only_of_encCR (decodeC_vstf _ _ _ _ _ hw)
  case vldt => exact only_of_encCR (decodeC_vldt _ _ _ _ hw)
  case vgath => exact only_of_encCR (decodeC_vgath _ _ _ _ hw)
  case vscat => exact only_of_encCR (decodeC_vscat _ _ _ _ hw)
  case amo => exact only_of_encCR (decodeC_amo _ _ _ _ _ hw)
  case acas => exact only_of_encCR (decodeC_acas ..)
  case red => exact only_of_encCR (decodeC_red _ _ _ _ hw)
  case fence => exact only_of_encCR (decodeC_fence ..)
  case post => exact only_of_encCR (decodeC_post _ _ _ _ hw)
  case recv => exact only_of_encCR (decodeC_recv _ _ hw)
  case ipeek => exact only_of_encCR (decodeC_ipeek ..)
  -- key map, rings, copies, mailboxes
  case klook | kclaim | kready | kwait | kunbind | kpin | kunpin | kscan | kload | kinv =>
    exact only_of_encCR ((decodeC_key ..).trans rfl)
  case rclaim | rpush | rwait | rrel | rstat | rset => exact only_of_encCR ((decodeC_ring ..).trans rfl)
  case cpset | cpgo | cpwp | cpwait | cpabort => exact only_of_encCR ((decodeC_copy ..).trans rfl)
  case mbinc | mbwait | mbrd | mbset => exact only_of_encCR ((decodeC_mailbox ..).trans rfl)
  -- tasks, enfleurage, alembic
  case amsg => exact only_of_encCR (decodeC_amsg _ _ _ hw)
  case wfield => exact only_of_encCR (decodeC_wfield _ _ hw)
  case spend | tgnew | tgdone | tglaunch | tgstat => exact only_of_encCR ((decodeC_task ..).trans rfl)
  case apxOn => exact only_of_encCR (decodeC_apxOn ..)
  case apxOut => exact only_of_encCR (decodeC_apxOut _ _ hw)
  case apxRes => exact only_of_encCR (decodeC_apxRes _ _ hw)
  case apxIn | apxEnd | apxInv | apxSt | apxLd => exact only_of_encCR ((decodeC_apx ..).trans rfl)
  case cbPush => exact only_of_encCR (decodeC_cbPush _ _ _ hw)
  case cbPull => exact only_of_encCR (decodeC_cbPull _ _ _ hw)
  case cbDone | cbEnd | cbSt => exact only_of_encCR ((decodeC_alembic ..).trans rfl)
  -- integer A words
  case add | sub | mul | mulh | mulhn | div | divn | rem | remn | and | or | xor | shl | shr | sra | min | max | minn | maxn | clz | ctz |
      popc | sel => exact only_of_decodeA ((decodeA_int ..).trans rfl) hn
  case addi => exact only_of_decodeA (decodeA_addi ..) hn
  case andi => exact only_of_decodeA (decodeA_andi ..) hn
  case ori => exact only_of_decodeA (decodeA_ori ..) hn
  case xori => exact only_of_decodeA (decodeA_xori ..) hn
  case shli => exact only_of_decodeA (decodeA_shli ..) hn
  case shri => exact only_of_decodeA (decodeA_shri ..) hn
  case srai => exact only_of_decodeA (decodeA_srai ..) hn
  case movi => exact only_of_decodeA (decodeA_movi ..) hn
  case movh => exact only_of_decodeA (decodeA_movh ..) hn
  case cmp => exact only_of_decodeA (decodeA_cmp ..) hn
  case cmpi => exact only_of_decodeA (decodeA_cmpi ..) hn
  case bfx => exact only_of_decodeA (decodeA_bfx _ _ _ _ _ hw) hn
  case bfi => exact only_of_decodeA (decodeA_bfi _ _ _ _ _ hw) hn
  -- pointer A words
  case padd => exact only_of_decodeA (decodeA_padd ..) hn
  case paddi => exact only_of_decodeA (decodeA_paddi ..) hn
  case pidx => exact only_of_decodeA (decodeA_pidx ..) hn
  case ptag => exact only_of_decodeA (decodeA_ptag ..) hn
  case pget => exact only_of_decodeA (decodeA_pget _ _ _ _ hw) hn
  case pchk => exact only_of_decodeA (decodeA_pchk ..) hn
  case pmk => exact only_of_decodeA (decodeA_pmk ..) hn
  -- vector A words
  case vadd | vsub | vmul | vfma | vfms | vnfma | vmin | vmax | vabs | vneg =>
    exact only_of_decodeA ((decodeA_varith ..).trans (decIf_sel _ hw rfl)) hn
  case vdiv | vsqrt | vrcp | vrsq | vexp2 | vlog2 => exact only_of_decodeA ((decodeA_vlong ..).trans rfl) hn
  case vcvt => exact only_of_decodeA (decodeA_vcvt _ _ _ _ _ _ _ hw) hn
  case vcmp => exact only_of_decodeA (decodeA_vcmp _ _ _ _ _ _ hw) hn
  case vsel => exact only_of_decodeA (decodeA_vsel _ _ _ _ _ hw) hn
  case vsum => exact only_of_decodeA (decodeA_vsum _ _ _ _ hw) hn
  case vmaxr => exact only_of_decodeA (decodeA_vmaxr _ _ _ _ hw) hn
  case vbc | vins | vext => exact only_of_decodeA ((decodeA_avg ..).trans (decIf_sel _ hw rfl)) hn
  case vperm | vslide => exact only_of_decodeA ((decodeA_vmove ..).trans (decIf_sel _ hw rfl)) hn
  case vpack => exact only_of_decodeA (decodeA_vpack _ _ _ _ _ hw) hn
  case vunpack => exact only_of_decodeA (decodeA_vunpack _ _ _ _ _ hw) hn
  case vbsc => exact only_of_decodeA (decodeA_vbsc _ _ _ _ _ _ _ hw) hn
  case vand => exact only_of_decodeA (decodeA_vand _ _ _ _ _ hw) hn
  case vor => exact only_of_decodeA (decodeA_vor _ _ _ _ _ hw) hn
  case vxor => exact only_of_decodeA (decodeA_vxor _ _ _ _ _ hw) hn
  case vshift => exact only_of_decodeA (decodeA_vshift _ _ _ _ _ hw) hn
  -- lone forms
  case kwin => exact only_of_decodesLone (decodesLone_kwin ..)
  case kcfg => exact only_of_decodesLone (decodesLone_kcfg _ _ _ hw)
  case movl => exact only_of_decodesLone (decodesLone_movl _ _ _ hw)
  case mmac => exact only_of_decodesLone (decodesLone_mmac _ _ _ _ _ _ _ _ _ hw)
  case mzero => exact only_of_decodesLone (decodesLone_mzero ..)
  case mget => exact only_of_decodesLone (decodesLone_mget ..)
  case mput => exact only_of_decodesLone (decodesLone_mput ..)
  case mwait => exact only_of_decodesLone (decodesLone_mwait ..)
  case mstat => exact only_of_decodesLone (decodesLone_mstat ..)
  -- events have no words
  all_goals exact absurd rfl hp
/-! ## Unassigned values -/

namespace Sys2Proof

theorem decodeC_unassigned {w : W32} (h : (fld w 24 6).toNat ∈
    [0x0D, 0x0E, 0x0F, 0x17, 0x1E, 0x1F, 0x27, 0x2F, 0x38, 0x39, 0x3A, 0x3B, 0x3C, 0x3D, 0x3E, 0x3F]) : decodeC w = .bad 1 := by
  simp only [List.mem_cons, List.not_mem_nil, or_false] at h
  unfold decodeC
  split
  case h_49 => rfl
  all_goals omega

theorem decodeA_unassigned {w : W32} (h : (fld w 26 6).toNat = 0x0F ∨ (0x17 ≤ (fld w 26 6).toNat ∧ (fld w 26 6).toNat ≤ 0x1F) ∨
    0x2A ≤ (fld w 26 6).toNat) : decodeA w = .bad 1 := by
  unfold decodeA
  split
  case h_33 => rfl
  all_goals omega

theorem decodeLone_unassigned {w0 w1 : W32} (h : ((fld w0 29 1).toNat = 0 ∧ ((fld w0 23 6).toNat ≤ 1 ∨ 0x0A ≤ (fld w0 23 6).toNat)) ∨
    ((fld w0 29 1).toNat = 1 ∧ (fld w0 23 6).toNat ≠ 1)) : decodeLone w0 w1 = .bad 1 := by
  unfold decodeLone
  split
  case h_10 => rfl
  all_goals omega

theorem fld_bit (w : W32) (i : Nat) : (fld w i 1).toNat = (w.getLsbD i).toNat := by
  simp [fld, BitVec.getLsbD, Nat.toNat_testBit, Nat.shiftRight_eq_div_pow]

end Sys2Proof

open Sys2Proof

/-- Settles O1: the words are decoded, and an unassigned value is none of the rows of its table. -/
theorem wordsDecode : Obligations.WordsDecode := by
  refine ⟨⟨rfl, rfl, rfl, rfl, rfl, rfl⟩, fun w h => decodeC_unassigned h, fun w h => decodeA_unassigned h, fun w0 w1 h => ?_⟩
  refine decodeLone_unassigned ?_
  rw [fld_bit]
  exact h.imp (fun ⟨hb, hn⟩ => ⟨by rw [hb]; rfl, hn⟩) fun ⟨hb, hn⟩ => ⟨by rw [hb]; rfl, hn⟩
end
section
/-! A word whose bundle issues took no trap and was not held back (R76, R97): what a trap or a hold makes of the issue record. -/

namespace Sys2Proof.Machine

/-! ## What a trap leaves alone -/

section
variable (s : State) (c : CoreId) (n : SlotNo) (p : Pend)

theorem fixed_traceTrap : (s.traceTrap c n p).fixed = s.fixed := by unfold State.traceTrap; rw [fixed_traceEvent, fixed_countCtx]

theorem fixed_traceDebug (a b d e : Nat) : (s.traceDebug c n a b d e).fixed = s.fixed := by
  unfold State.traceDebug; split <;> exact fixed_offerIf ..

theorem fixed_enterPriv : (enterPriv s c n p).fixed = s.fixed := by
  have hstop : ∀ t : State, (stopCore t c).fixed = t.fixed := fun t => fixed_modCore t c _
  have hent : ∀ (t : State) (m : Mem) (f : Core → Core), (({ t with mem := m } : State).modCore c f).fixed = t.fixed := fun t m f => rfl
  unfold enterPriv
  extract_lets k x t u v
  split
  · split
    · rw [hstop, fixed_modCtx]
    · rw [fixed_modCtx]
  · have hv : v.fixed = s.fixed := (hent t _ _).trans (fixed_traceTrap s c n p)
    split
    · exact hv
    · rw [hstop, hv]

theorem fixed_enterUpcall : (enterUpcall s c n p).fixed = s.fixed := by rw [enterUpcall, fixed_modCore, fixed_traceTrap]

theorem fixed_enterHandler : (enterHandler s c n p).fixed = s.fixed := by
  unfold enterHandler takeBank
  dsimp only
  split <;> rw [fixed_modCore, fixed_traceTrap]

/-- R336: the receiver takes the trap, by its cause. -/
def receive : State :=
  if p.cause = 0 then freezeCtx s c n else if p.cause = cKMISS then enterHandler s c n p
  else if goesPriv (s.core c) n p.cause then enterPriv s c n p else enterUpcall s c n p

theorem deliver_eq : deliver s c n p = receive (if p.cause = cWATCH || p.cause = 0 || (p.cause = cBRK && p.info0 = 1) then
    s.modCtx c n fun x => let e := some (decide (p.cause = cWATCH) || decide (p.cause = 0) && decide (p.info0 = 1), p.aux.toNat)
      if p.cause = 0 then { x with frozeBy := e } else { x with stopBy := e, skipStop := false } else s) c n p := rfl

theorem fixed_receive : (receive s c n p).fixed = s.fixed := by
  unfold receive
  split
  · exact fixed_modCtx ..
  · split
    · exact fixed_enterHandler ..
    · split
      · exact fixed_enterPriv ..
      · exact fixed_enterUpcall ..

theorem fixed_deliver : (deliver s c n p).fixed = s.fixed := by
  rw [deliver_eq, fixed_receive]
  split
  · exact fixed_modCtx ..
  · rfl

theorem fixed_hitFreeze : (hitFreeze s c p).fixed = s.fixed := by
  unfold hitFreeze broadcastFreeze
  dsimp only
  split
  · split
    · rfl
    · exact foldl_keeps State.fixed _ (fun b a => fixed_modCore b a _) _ _
  · rfl
end

/-- The state in which a trap of the issuing context is taken: the bundle has its fate, LOCKED is counted, a cluster freezes. -/
def trapState (s : State) (f : Fate) (p : Pend) : State :=
  let s' : State := { s with iss := { s.iss with fate := f } }
  hitFreeze (if p.cause = cLOCKED then s'.countCtx s.iss.core s.iss.slot 17 else s') s.iss.core p

/-- R164, R337: the chunk ends before the bundle that traps, and the receiver takes the trap. -/
def trapAfterChunk (s : State) (c : CoreId) (n : SlotNo) (p : Pend) : State :=
  match s.me.chunk with
  | none => deliver s c n p
  | some ch =>
    if ch.n = 0 then deliver (s.modMe fun x => { x with chunk := none, dfault := none }) c n p
    else if s.me.nearOut then s.modChunk fun ch => { ch with ending := true, trap := some p }
    else if (commitChunk s c n).2 then deliver (commitChunk s c n).1 c n p else (commitChunk s c n).1

theorem raiseAs_eq (s : State) (f : Fate) (p : Pend) : raiseAs s f p = if heldByBusy s s.iss.core s.iss.slot p.cause
    then { s with iss := { s.iss with fate := .stalled } } else trapAfterChunk (trapState s f p) s.iss.core s.iss.slot p := rfl

theorem trapState_iss (s : State) (f : Fate) (p : Pend) : (trapState s f p).iss = { s.iss with fate := f } := by
  unfold trapState
  dsimp only
  rw [show (hitFreeze _ s.iss.core p).iss = _ from congrArg (·.1) (fixed_hitFreeze ..)]
  split <;> rfl

theorem trapAfterChunk_iss (s : State) (c : CoreId) (n : SlotNo) (p : Pend) : (trapAfterChunk s c n p).iss = s.iss := by
  have hd : ∀ t : State, (deliver t c n p).iss = t.iss := fun t => congrArg (·.1) (fixed_deliver t c n p)
  have hc : (commitChunk s c n).1.iss = s.iss := congrArg (·.1) (fixed_commitChunk s c n)
  unfold trapAfterChunk
  split
  · exact hd s
  · split
    · exact hd _
    · split
      · rfl
      · split
        · rw [hd, hc]
        · exact hc

/-- A trap's bundle has the fate that the trap gives it, unless the trap waits. -/
theorem raiseAs_fate (s : State) (f : Fate) (p : Pend) : (raiseAs s f p).iss.fate = f ∨ (raiseAs s f p).iss.fate = .stalled := by
  rw [raiseAs_eq]
  split
  · exact .inr rfl
  · exact .inl (by rw [trapAfterChunk_iss, trapState_iss])

/-- A trap's bundle has not issued. -/
theorem raise_not_issued (s : State) (t : Trap) : (raise s t).iss.fate ≠ .issued := by
  unfold raise
  split
  · exact nofun
  · split
    · split
      · exact nofun
      · rcases raiseAs_fate (s.traceDebug s.iss.core s.iss.slot 0 1 t.aux.toNat t.aux2.toNat) .watched (s.pendAt t)
          with h | h <;> rw [h] <;> exact nofun
    · rcases raiseAs_fate s .trapped (s.pendAt t) with h | h <;> rw [h] <;> exact nofun

theorem endBefore_not_issued (s : State) : (endBefore s).iss.fate ≠ .issued := by
  unfold endBefore
  dsimp only
  split
  · exact nofun
  · rw [show (commitChunk _ _ _).1.iss = _ from congrArg (·.1) (fixed_commitChunk ..)]; exact nofun

/-! ## A word that issues -/

/-- What a word comes to issues only where it comes to a state. -/
theorem settle_issued {s : State} {r : Res} (h : (settle s r).iss.fate = .issued) : ∃ u, r = .ok u := by
  cases r with
  | ok u => exact ⟨u, rfl⟩
  | trap t => exact absurd h (raise_not_issued s t)
  | fault u t =>
    simp only [settle] at h
    split at h
    · exact absurd h (raise_not_issued s t)
    · exact absurd h (raise_not_issued u t)
  | hold b => cases b <;> exact absurd h (by simp [settle, hold97, holdTurn, State.countCtx])
  | full => exact absurd h (endBefore_not_issued s)

section
variable {i : Instr} {s : State}

theorem runA_issued {body : State → Res} (h : (runA i s body).iss.fate = .issued) : ∃ u, body s = .ok u ∧ runA i s body = u := by
  cases he : s.early i with
  | some t => rw [runA_trap body he] at h; exact absurd h (raise_not_issued s t)
  | none =>
    rw [runA_eq body he] at h ⊢
    obtain ⟨u, hu⟩ := settle_issued h
    exact ⟨u, hu, by rw [hu]; rfl⟩
end

end Sys2Proof.Machine
end

section
/-! O15: the frame of an A word (R74, R75, R78). Each way in which an A word changes the state is a write of a register that it names, or
the start of a long operation; each leaves everything else alone, and so do two after each other. -/

namespace Sys2Proof.Machine

/-- What a change of registers of the lists leaves of a context: every other register, the special registers, mode, successor handle,
invocation, held list and PC; no flag clears, and without a vector register FP.FLAGS is whole. -/
structure CtxKept (x y : Ctx) (gs : List RF) (vs : List (BitVec 4)) (ps : List (BitVec 3)) : Prop where
  g : ∀ r, r ∉ gs → y.a.rdG r.toNat = x.a.rdG r.toNat
  v : ∀ r, r ∉ vs → vget y.a.v r.toNat 0 = vget x.a.v r.toNat 0
  p : ∀ r, r ∉ ps → y.a.rdP r.toNat = x.a.rdP r.toNat
  special : y.a.wid = x.a.wid ∧ y.a.widf = x.a.widf ∧ y.a.ltag = x.a.ltag ∧ y.a.pipe = x.a.pipe ∧ y.priv = x.priv ∧ y.succ = x.succ ∧
    y.inv = x.inv ∧ y.hold = x.hold
  pc : y.a.pc = x.a.pc
  wonly : y.a.wonly = x.a.wonly
  flags : y.a.fpf &&& x.a.fpf = x.a.fpf
  whole : vs = [] → y.a.fpf = x.a.fpf

/-- What a change of registers of the lists leaves of the machine, beside the issue record. -/
structure Kept (s t : State) (gs : List RF) (vs : List (BitVec 4)) (ps : List (BitVec 3)) : Prop where
  iss : t.iss = s.iss
  mem : t.mem = s.mem
  device : sameDevice s t
  others : sameOthers s t
  units : sameUnits s t
  holder : t.mine.holder = s.mine.holder
  sched : t.mine.sched = s.mine.sched
  bank : s.mine.holds s.iss.slot = false → t.mine.h = s.mine.h ∧ t.mine.sh = s.mine.sh
  shadow : ∀ r, r ∉ gs → s.isShadow r = true → vget t.mine.h (r.toNat - 48) 0 = vget s.mine.h (r.toNat - 48) 0
  ctx : CtxKept s.me t.me gs vs ps

section
variable {s t u : State} {gs : List RF} {vs : List (BitVec 4)} {ps : List (BitVec 3)}

theorem CtxKept.refl (x : Ctx) : CtxKept x x gs vs ps :=
  ⟨fun _ _ => rfl, fun _ _ => rfl, fun _ _ => rfl, ⟨rfl, rfl, rfl, rfl, rfl, rfl, rfl, rfl⟩, rfl, rfl, BitVec.and_self, fun _ => rfl⟩

theorem CtxKept.trans {x y z : Ctx} (h : CtxKept x y gs vs ps) (k : CtxKept y z gs vs ps) : CtxKept x z gs vs ps where
  g r hr := (k.g r hr).trans (h.g r hr)
  v r hr := (k.v r hr).trans (h.v r hr)
  p r hr := (k.p r hr).trans (h.p r hr)
  special := by
    obtain ⟨h1, h2, h3, h4, h5, h6, h7, h8⟩ := h.special
    obtain ⟨k1, k2, k3, k4, k5, k6, k7, k8⟩ := k.special
    exact ⟨k1.trans h1, k2.trans h2, k3.trans h3, k4.trans h4, k5.trans h5, k6.trans h6, k7.trans h7, k8.trans h8⟩
  pc := k.pc.trans h.pc
  wonly := k.wonly.trans h.wonly
  flags := by rw [← h.flags, ← BitVec.and_assoc, k.flags]
  whole hv := (k.whole hv).trans (h.whole hv)

theorem State.isShadow_of_eq (hi : t.iss = s.iss) (hh : t.mine.holder = s.mine.holder) (r : RF) : t.isShadow r = s.isShadow r := by
  simp only [State.isShadow, Core.holds, hi, hh]

theorem Kept.refl (s : State) : Kept s s gs vs ps :=
  ⟨rfl, rfl, ⟨rfl, rfl, rfl, rfl, rfl⟩, ⟨fun _ _ => rfl, fun _ _ => rfl⟩, ⟨rfl, rfl, rfl, rfl, rfl, rfl⟩, rfl, rfl, fun _ => ⟨rfl, rfl⟩,
    fun _ _ _ => rfl, CtxKept.refl _⟩

theorem Kept.trans (h : Kept s t gs vs ps) (k : Kept t u gs vs ps) : Kept s u gs vs ps where
  iss := k.iss.trans h.iss
  mem := k.mem.trans h.mem
  device := by
    obtain ⟨h1, h2, h3, h4, h5⟩ := h.device
    obtain ⟨k1, k2, k3, k4, k5⟩ := k.device
    exact ⟨k1.trans h1, k2.trans h2, k3.trans h3, k4.trans h4, k5.trans h5⟩
  others := by
    obtain ⟨hc, hn⟩ := h.others
    obtain ⟨kc, kn⟩ := k.others
    rw [h.iss] at kc kn
    exact ⟨fun c h => (kc c h).trans (hc c h), fun n h => (kn n h).trans (hn n h)⟩
  units := by
    obtain ⟨h1, h2, h3, h4, h5, h6⟩ := h.units
    obtain ⟨k1, k2, k3, k4, k5, k6⟩ := k.units
    refine ⟨?_, k2.trans h2, k3.trans h3, k4.trans h4, k5.trans h5, k6.trans h6⟩
    calc { u.mine.r with cntVal := s.mine.r.cntVal }
      _ = { ({ u.mine.r with cntVal := t.mine.r.cntVal } : CoreRegs) with cntVal := s.mine.r.cntVal } := rfl
      _ = s.mine.r := by rw [k1, h1]
  holder := k.holder.trans h.holder
  sched := k.sched.trans h.sched
  bank hb := by
    have hb' : t.mine.holds t.iss.slot = false := by rw [Core.holds, h.holder, h.iss]; exact hb
    exact ⟨(k.bank hb').1.trans (h.bank hb).1, (k.bank hb').2.trans (h.bank hb).2⟩
  shadow r hr hs := by
    have hs' : t.isShadow r = true := by rw [State.isShadow_of_eq h.iss h.holder]; exact hs
    exact (k.shadow r hr hs').trans (h.shadow r hr hs)
  ctx := h.ctx.trans k.ctx

/-- Two states that differ in the registers of the lists alone have the same registers otherwise. -/
theorem Kept.regs (h : Kept s t gs vs ps) : sameRegs s t gs vs ps := by
  refine ⟨fun r hr => ?_, h.ctx.v, h.ctx.p⟩
  unfold State.nowG
  rw [State.isShadow_of_eq h.iss h.holder]
  by_cases hs : s.isShadow r = true
  · rw [if_pos hs, if_pos hs, h.shadow r hr hs]
  · rw [if_neg hs, if_neg hs, h.ctx.g r hr]

/-! ## Changes of the issuing context and of the shadow bank -/

/-- A change of the issuing context changes it, or, where its slot is none of the contexts, nothing. -/
theorem State.modMe_me (s : State) (f : Ctx → Ctx) : (s.modMe f).me = f s.me ∨ (s.modMe f).me = s.me := by
  by_cases h : s.iss.slot.toNat < 11
  · exact .inl (State.me_modMe s f h)
  · refine .inr ?_
    show (s.modMe f).mine.ctx s.iss.slot = _
    rw [show (s.modMe f).mine = s.mine.setCtx s.iss.slot (f s.me) from State.core_modCore s _ _, Core.setCtx_ge _ _ _ (by omega)]
    rfl

theorem State.modMe_mine (s : State) (f : Ctx → Ctx) : (s.modMe f).mine = s.mine.setCtx s.iss.slot (f s.me) := State.core_modCore s _ _

theorem kept_modMe {f : Ctx → Ctx} (hf : ∀ x, CtxKept x (f x) gs vs ps) : Kept s (s.modMe f) gs vs ps where
  iss := rfl
  mem := rfl
  device := ⟨rfl, rfl, rfl, rfl, rfl⟩
  others := ⟨fun _ h => State.core_modCore_ne s _ h, fun _ h => State.ctx_modCtx_ne s _ f h⟩
  units := by rw [sameUnits, State.modMe_mine]; exact ⟨rfl, rfl, rfl, rfl, rfl, rfl⟩
  holder := by rw [State.modMe_mine]; rfl
  sched := by rw [State.modMe_mine]; rfl
  bank _ := by rw [State.modMe_mine]; exact ⟨rfl, rfl⟩
  shadow _ _ _ := by rw [State.modMe_mine]; rfl
  ctx := by rcases State.modMe_me s f with h | h <;> rw [h]; exacts [hf _, CtxKept.refl _]

theorem kept_modBank {H : Vector Word 16 → Vector Word 16} {S : BitVec 16 → BitVec 16}
    (hb : s.mine.holds s.iss.slot = false → H s.mine.h = s.mine.h ∧ S s.mine.sh = s.mine.sh)
    (hs : ∀ r, r ∉ gs → s.isShadow r = true → vget (H s.mine.h) (r.toNat - 48) 0 = vget s.mine.h (r.toNat - 48) 0) :
    Kept s (s.modMine fun k => { k with h := H k.h, sh := S k.sh }) gs vs ps where
  iss := rfl
  mem := rfl
  device := ⟨rfl, rfl, rfl, rfl, rfl⟩
  others := ⟨fun _ h => State.core_modCore_ne s _ h, fun n _ => by
    show (State.mine _).ctx n = s.mine.ctx n
    rw [State.mine_modMine]; rfl⟩
  units := by rw [sameUnits, State.mine_modMine]; exact ⟨rfl, rfl, rfl, rfl, rfl, rfl⟩
  holder := by rw [State.mine_modMine]
  sched := by rw [State.mine_modMine]
  bank h := by rw [State.mine_modMine]; exact hb h
  shadow r hr h := by rw [State.mine_modMine]; exact hs r hr h
  ctx := by
    have : (s.modMine fun k => { k with h := H k.h, sh := S k.sh }).me = s.me := by
      show (State.mine _).ctx s.iss.slot = s.mine.ctx s.iss.slot
      rw [State.mine_modMine]; rfl
    rw [this]
    exact CtxKept.refl _

/-! ## The changes that A words make -/

/-- Of the register set, a write of a general or a predicate register changes that file alone, and a scoreboard bit its scoreboard. -/
theorem Arch.wrG_eq (a : Arch) (r : Nat) (x : Word) : a.wrG r x = { a with g := (a.wrG r x).g } := by
  unfold Arch.wrG; split <;> rfl

theorem Arch.wrP_eq (a : Arch) (r : Nat) (x : Word) : a.wrP r x = { a with p := (a.wrP r x).p } := by
  unfold Arch.wrP; split <;> rfl

theorem Arch.setBusy_eq (a : Arch) (d : Dst) (b : Bool) :
    a.setBusy d b = { a with sg := (a.setBusy d b).sg, sv := (a.setBusy d b).sv, sp := (a.setBusy d b).sp } := by
  cases d <;> rfl

theorem or_and_absorb {n : Nat} (x y : BitVec n) : (x ||| y) &&& x = x := by
  ext k hk
  rw [BitVec.getElem_and, BitVec.getElem_or]
  cases x[k] <;> simp

theorem toNat_ne_of_not_mem {n : Nat} {d r : BitVec n} (h : r ∉ [d]) : r.toNat ≠ d.toNat := fun e =>
  h (by rw [BitVec.eq_of_toNat_eq e]; exact List.mem_singleton_self d)

theorem kept_wrG (d : RF) (x : Word) : Kept s (s.wrG d x) [d] vs ps := by
  unfold State.wrG
  split
  · next hd =>
    refine kept_modBank (H := fun h => vset h (d.toNat - 48) x) (S := id) (fun hb => ?_) fun r hr hs => ?_
    · simp [State.isShadow, hb] at hd
    · have hne : r.toNat - 48 ≠ d.toNat - 48 := by
        simp only [State.isShadow, Bool.and_eq_true, decide_eq_true_eq] at hd hs
        have := toNat_ne_of_not_mem hr
        omega
      exact vget_vset_ne _ _ _ hne
  · refine kept_modMe fun c => ?_
    have hg : ∀ r : RF, r ∉ [d] → (c.a.wrG d.toNat x).rdG r.toNat = c.a.rdG r.toNat := fun r hr =>
      Arch.rdG_wrG_ne _ _ (toNat_ne_of_not_mem hr)
    rw [Arch.wrG_eq] at hg ⊢
    exact ⟨hg, fun _ _ => rfl, fun _ _ => rfl, ⟨rfl, rfl, rfl, rfl, rfl, rfl, rfl, rfl⟩, rfl, rfl, BitVec.and_self, fun _ => rfl⟩

theorem kept_wrP (d : BitVec 3) (x : Word) : Kept s (s.wrP d x) gs vs [d] := by
  refine kept_modMe fun c => ?_
  have hp : ∀ r : BitVec 3, r ∉ [d] → (c.a.wrP d.toNat x).rdP r.toNat = c.a.rdP r.toNat := fun r hr =>
    Arch.rdP_wrP_ne _ _ (toNat_ne_of_not_mem hr)
  rw [Arch.wrP_eq] at hp ⊢
  exact ⟨fun _ _ => rfl, fun _ _ => rfl, hp, ⟨rfl, rfl, rfl, rfl, rfl, rfl, rfl, rfl⟩, rfl, rfl, BitVec.and_self, fun _ => rfl⟩

theorem kept_wrV (d : BitVec 4) (x : VReg) : Kept s (s.wrV d x) gs [d] ps :=
  kept_modMe fun _ => ⟨fun _ _ => rfl, fun _ hr => vget_vset_ne _ _ _ (toNat_ne_of_not_mem hr), fun _ _ => rfl,
    ⟨rfl, rfl, rfl, rfl, rfl, rfl, rfl, rfl⟩, rfl, rfl, BitVec.and_self, fun _ => rfl⟩

theorem kept_orFlags (f : BitVec 6) (hv : vs ≠ []) : Kept s (s.orFlags f) gs vs ps :=
  kept_modMe fun _ => ⟨fun _ _ => rfl, fun _ _ => rfl, fun _ _ => rfl, ⟨rfl, rfl, rfl, rfl, rfl, rfl, rfl, rfl⟩, rfl, rfl,
    or_and_absorb _ _, fun h => absurd h hv⟩

/-- R132: a vector result and its flags. -/
theorem kept_wrV_orFlags (d : BitVec 4) (x : VReg) (f : BitVec 6) : Kept s ((s.wrV d x).orFlags f) gs [d] ps :=
  (kept_wrV d x).trans (kept_orFlags f (List.cons_ne_nil _ _))

theorem kept_freshId : Kept s s.freshId gs vs ps := { Kept.refl s with }

/-- R93: the start of a long operation sets a scoreboard bit. -/
theorem kept_addLong {l : LongOp} (h : s.mine.holds s.iss.slot = false → ∀ n, l.dst ≠ .h n) : Kept s (s.addLong l) gs vs ps := by
  unfold State.addLong
  refine Kept.trans (t := s.modMe fun x => { x with long := x.long ++ [l], a := x.a.setBusy l.dst true }) (kept_modMe fun x => ?_) ?_
  · rw [Arch.setBusy_eq]
    exact ⟨fun _ _ => rfl, fun _ _ => rfl, fun _ _ => rfl, ⟨rfl, rfl, rfl, rfl, rfl, rfl, rfl, rfl⟩, rfl, rfl, BitVec.and_self, fun _ => rfl⟩
  · refine kept_modBank (H := id) (S := fun sh => busyH sh l.dst true) (fun hb => ⟨rfl, ?_⟩) fun _ _ _ => rfl
    rw [State.modMe_mine] at hb
    have := h hb
    cases hd : l.dst with
    | h n => exact absurd hd (this n)
    | _ => rfl

/-- A general register that a field names is one of the bank only for its holder (R81). -/
theorem dstG_ne_bank (r : RF) (hb : s.mine.holds s.iss.slot = false) (n : BitVec 4) : s.dstG r ≠ .h n := by
  unfold State.dstG
  rw [show s.isShadow r = false by simp [State.isShadow, hb]]
  split
  · next h => exact absurd h Bool.false_ne_true
  · split <;> exact nofun

/-! ## The shapes of A words -/

section
variable {i : Instr}

theorem runA_kept {body : State → Res} (hb : ∀ u, body s = .ok u → Kept s u gs vs ps) (h : runA i s body = t)
    (ht : t.iss.fate = .issued) : Kept s t gs vs ps := by
  subst h
  obtain ⟨u, hu, hr⟩ := runA_issued ht
  rw [hr]
  exact hb u hu

theorem aluW_kept {d : RF} {g : BitVec 3} {f : State → Word} (h : aluW i d g f s = t) (ht : t.iss.fate = .issued) : Kept s t [d] vs ps := by
  refine runA_kept (fun u hu => ?_) h ht
  obtain rfl := Res.ok.inj hu
  split
  · exact kept_wrG ..
  · exact Kept.refl _

theorem divOp_kept {d a b : RF} {g : BitVec 3} {f : Word → Word → Word} (h : divOp i d a b g f s = t) (ht : t.iss.fate = .issued) :
    Kept s t [d] vs ps := by
  refine runA_kept (fun u hu => ?_) h ht
  split at hu
  · obtain rfl := Res.ok.inj hu; exact Kept.refl _
  · split at hu
    · cases hu
    · obtain rfl := Res.ok.inj hu
      exact kept_freshId.trans (kept_addLong fun hb => dstG_ne_bank (s := s) d hb)

theorem ptrOp_kept {d : RF} {g : BitVec 3} {f : State → Except Trap Word} (h : ptrOp i d g f s = t) (ht : t.iss.fate = .issued) :
    Kept s t [d] vs ps := by
  refine runA_kept (fun u hu => ?_) h ht
  split at hu
  · obtain rfl := Res.ok.inj hu; exact Kept.refl _
  · split at hu
    · obtain rfl := Res.ok.inj hu; exact kept_wrG ..
    · cases hu

/-- A comparison or a pointer check, under a guard or without one. -/
theorem wrPIf_kept {p : BitVec 3} {c : State → Bool} {f : State → Word} (h : runA i s (fun s => .ok (if c s then s.wrP p (f s) else s)) = t)
    (ht : t.iss.fate = .issued) : Kept s t gs vs [p] := by
  refine runA_kept (fun u hu => ?_) h ht
  obtain rfl := Res.ok.inj hu
  split
  · exact kept_wrP ..
  · exact Kept.refl _

theorem wrP_kept {p : BitVec 3} {f : State → Word} (h : runA i s (fun s => .ok (s.wrP p (f s))) = t) (ht : t.iss.fate = .issued) :
    Kept s t gs vs [p] :=
  runA_kept (fun u hu => by obtain rfl := Res.ok.inj hu; exact kept_wrP ..) h ht

/-- A vector register written with flags: on the active lanes, as a reduction, or as a quantised block. -/
theorem wrV_kept {d : BitVec 4} {f : State → VReg} {g : State → BitVec 6} (h : runA i s (fun s => .ok ((s.wrV d (f s)).orFlags (g s))) = t)
    (ht : t.iss.fate = .issued) : Kept s t gs [d] ps :=
  runA_kept (fun u hu => by obtain rfl := Res.ok.inj hu; exact kept_wrV_orFlags ..) h ht

theorem vecRun_kept {d : BitVec 4} {m y : BitVec 3} {f : State → Nat → Rounded} (h : vecRun i d m y f s = t) (ht : t.iss.fate = .issued) :
    Kept s t gs [d] ps := wrV_kept h ht

theorem vecReduce_kept {d a : BitVec 4} {m y : BitVec 3} {n : Nat} {f : Nat → Nat → Rounded} (h : vecReduce i d a m y n f s = t)
    (ht : t.iss.fate = .issued) : Kept s t gs [d] ps := wrV_kept h ht

theorem vecWhole_kept {d : BitVec 4} {f : State → VReg} (h : vecWhole i d f s = t) (ht : t.iss.fate = .issued) : Kept s t gs [d] ps :=
  runA_kept (fun u hu => by obtain rfl := Res.ok.inj hu; exact kept_wrV ..) h ht

theorem vecLong_kept {d : BitVec 4} {m : BitVec 3} {n : Nat} {f : State → Nat → Rounded} (h : vecLong i d m n f s = t)
    (ht : t.iss.fate = .issued) : Kept s t gs [d] ps := by
  refine runA_kept (fun u hu => ?_) h ht
  split at hu
  · cases hu
  · obtain rfl := Res.ok.inj hu
    exact kept_freshId.trans (kept_addLong fun _ => nofun)
end

/-- R74, R75, R78: an A word that issues leaves everything but its destinations. -/
theorem exec_aWord_kept {i : Instr} (hp : i.place = .a) (hx : exec i s = .next t) (ht : t.iss.fate = .issued) :
    Kept s t i.destG i.destV i.destP := by
  have hn {u : State} (h : exec i s = .next u) : u = t := Host.Outcome.next.inj (h.symm.trans hx)
  cases i
  case nopA => exact runA_kept (fun u hu => by obtain rfl := Res.ok.inj hu; exact Kept.refl _) (hn rfl) ht
  case add | sub | mul | mulh | mulhn | and | or | xor | shl | shr | sra | min | max | minn | maxn | clz | ctz | popc | sel | addi | andi |
      ori | xori | shli | shri | srai | movi | movh | bfx | bfi => exact aluW_kept (hn rfl) ht
  case div | divn | rem | remn => exact divOp_kept (hn rfl) ht
  case padd | paddi | pidx | ptag | pget | pmk => exact ptrOp_kept (hn rfl) ht
  case cmp | pchk => exact wrPIf_kept (hn rfl) ht
  case cmpi | vcmp => exact wrP_kept (hn rfl) ht
  case vadd | vsub | vmul | vfma | vfms | vnfma | vmin | vmax | vabs | vneg | vcvt | vbc | vins | vperm | vslide | vpack | vunpack | vand |
      vor | vxor | vshift => exact vecRun_kept (hn rfl) ht
  case vdiv | vsqrt | vrcp | vrsq | vexp2 | vlog2 => exact vecLong_kept (hn rfl) ht
  case vsel => exact vecWhole_kept (hn rfl) ht
  case vsum | vmaxr => exact vecReduce_kept (hn rfl) ht
  case vbsc => exact wrV_kept (hn rfl) ht
  case vext a g l m y =>
    refine runA_kept (fun u hu => ?_) (hn rfl) ht
    obtain rfl := Res.ok.inj hu
    split
    · exact kept_wrG ..
    · exact Kept.refl _
  all_goals exact absurd hp nofun
end

end Sys2Proof.Machine

open Sys2Proof Sys2Proof.Machine

/-- Settles O15: what an A word writes is kept to its destinations, word by word. -/
theorem aWordFrame : Obligations.AWordFrame := by
  intro i s t hp _ hx ht
  have h := exec_aWord_kept hp hx ht
  exact ⟨fun k => by rw [h.mem], h.others, h.regs, h.ctx.special, h.units, h.device, h.ctx.pc, h.ctx.wonly, h.ctx.flags, h.ctx.whole, h.holder,
    h.sched, h.bank⟩
end
section
/-! O47: a control register reads back on its writable bits as it was written (R90, R91). -/

namespace Sys2Proof.Machine

@[simp] theorem State.mine_modR (s : State) (f : CoreRegs → CoreRegs) : (s.modR f).mine = { s.mine with r := f s.mine.r } :=
  State.mine_modMine s _

theorem State.mine_modCore_iss (s : State) (f : Core → Core) : (s.modCore s.iss.core f).mine = f s.mine := State.core_modCore s _ f

/-! ## Fields and their masks -/

theorem merge_and_mask (old x m : Word) : ((old &&& ~~~m) ||| (x &&& m)) &&& m = x &&& m := by
  refine BitVec.eq_of_getLsbD_eq fun i hi => ?_
  rw [BitVec.getLsbD_and, merge_getLsbD _ _ _ hi, BitVec.getLsbD_and]
  cases m.getLsbD i <;> simp

/-- A register that keeps the low bits of what is written. -/
theorem extract_and_bits (x : Word) (k : Nat) : (x.extractLsb' 0 (k + 1)).setWidth 64 &&& bits k 0 = x &&& bits k 0 := by
  refine BitVec.eq_of_getLsbD_eq fun i hi => ?_
  rw [BitVec.getLsbD_and, BitVec.getLsbD_and, bits_getLsbD hi (Nat.zero_le k)]
  by_cases h : i ≤ k
  · simp [hi, Nat.lt_succ_of_le h]
  · simp [h]

theorem priv_and_congr {a b m : Word} (p : Bool) (h : a &&& m = b &&& m) : (a &&& if p then m else 0) = b &&& if p then m else 0 := by
  cases p
  · simp
  · exact h

/-! ## What a write leaves in a register -/

section
variable (s : State) (v : Word)

/-- The registers of core scope that hold a whole word: what is written is read. -/
theorem crRead_crWrite_core {n : Nat} (h : n ∈ [0x11, 0x18, 0x1A, 0x40, 0x801, 0x802, 0x803, 0x808, 0x820, 0x828, 0x829]) :
    crRead (crWrite s n v) n = v := by
  simp only [List.mem_cons, List.not_mem_nil, or_false] at h
  rcases h with rfl | rfl | rfl | rfl | rfl | rfl | rfl | rfl | rfl | rfl | rfl <;>
    simp [crRead, crWrite, setQwgt, setDbgBp, setDbgWp, State.mine_modCore_iss]

/-- So do the words of the tables of R90: the counters and the protection ranges. -/
theorem crRead_crWrite_counter {i : Nat} (h : i < 4) :
    crRead (crWrite s (0x28 + i) v) (0x28 + i) = v ∧ crRead (crWrite s (0x2C + i) v) (0x2C + i) = v := by
  interval_cases i <;> simp [crRead, crWrite]

theorem crRead_crWrite_prot {i : Nat} (h : i < 8) :
    crRead (crWrite s (0x810 + i) v) (0x810 + i) = v ∧ crRead (crWrite s (0x818 + i) v) (0x818 + i) = v := by
  interval_cases i <;> simp [crRead, crWrite]


/-- The registers of context scope, each of its own width. -/
theorem crRead_crWrite_ctx (hslot : s.iss.slot.toNat < 11) :
    crRead (crWrite s 1 v) 1 = (v.extractLsb' 0 16).setWidth 64 ∧ crRead (crWrite s 3 v) 3 = v ∧ crRead (crWrite s 4 v) 4 = v ∧
    crRead (crWrite s 5 v) 5 = (v.extractLsb' 0 6).setWidth 64 ∧
    ∀ i < 8, crRead (crWrite s (8 + i) v) (8 + i) = (v.extractLsb' 0 16).setWidth 64 := by
  refine ⟨?_, ?_, ?_, ?_, fun i hi => ?_⟩
  case refine_5 => interval_cases i <;> simp [crRead, crWrite, State.me_modMe s _ hslot]
  all_goals simp [crRead, crWrite, State.me_modMe s _ hslot]

/-- The count of the deque, under its length (R90). -/
theorem crRead_crWrite_deque : crRead (crWrite s 6 v) 6 &&& bits 31 0 = v &&& bits 31 0 := by
  have h : crRead (crWrite s 6 v) 6 = BitVec.ofNat 64 (s.mine.sched.deque.length * 2 ^ 32 + (v.extractLsb' 0 32).toNat) := by
    simp [crRead, crWrite]
  refine BitVec.eq_of_getLsbD_eq fun i hi => ?_
  rw [BitVec.getLsbD_and, BitVec.getLsbD_and, bits_getLsbD hi (by decide), h, BitVec.getLsbD_ofNat]
  by_cases hb : i ≤ 31
  · rw [Nat.mul_comm, Nat.testBit_two_pow_mul_add _ (v.extractLsb' 0 32).isLt, if_pos (by omega), BitVec.testBit_toNat]
    simp [hb, hi, show i < 32 by omega]
  · simp [hb]

/-- The pending upcalls of UPC.BASE stand above its base (R344). -/
theorem upcPend_dvd (r : CoreRegs) :
    2 ^ 18 ∣ ((helperSlots.filter fun n => r.upcPend.contains n).map fun n => 2 ^ (17 + n.toNat)).sum := by
  refine List.dvd_sum fun x hx => ?_
  obtain ⟨n, hn, rfl⟩ := List.mem_map.mp hx
  have h1 : 1 ≤ n.toNat := (by decide : ∀ m ∈ helperSlots, 1 ≤ m.toNat) n (List.mem_filter.mp hn).1
  exact Nat.pow_dvd_pow 2 (by omega)

/-- The low 18 bits of UPC.BASE are its base and its enable bit (R344). -/
theorem upcBaseWord_low (r : CoreRegs) :
    ∃ k, upcBaseWord r = BitVec.ofNat 64 (2 ^ 18 * k + (2 ^ 6 * r.upcBase.toNat + if r.upcEn then 1 else 0)) := by
  obtain ⟨k, hk⟩ := upcPend_dvd r
  refine ⟨2 ^ 11 * (if r.upcWonly then 1 else 0) + 2 ^ 10 * (if r.upcMask then 1 else 0) + k, ?_⟩
  rw [upcBaseWord, hk]
  congr 1
  split <;> split <;> omega

theorem crRead_crWrite_upcBase : crRead (crWrite s 0x19 v) 0x19 &&& (bits 17 6 ||| bits 0 0) = v &&& (bits 17 6 ||| bits 0 0) := by
  let r := (crWrite s 0x19 v).mine.r
  have hbase : r.upcBase = v.extractLsb' 6 12 := by simp [r, crWrite]
  have hen : r.upcEn = v.getLsbD 0 := by simp [r, crWrite]
  have hc : crRead (crWrite s 0x19 v) 0x19 = upcBaseWord r := rfl
  obtain ⟨k, hk⟩ := upcBaseWord_low r
  have hlt : 2 ^ 6 * r.upcBase.toNat + (if r.upcEn then 1 else 0) < 2 ^ 18 := by
    have := r.upcBase.isLt
    split <;> omega
  have he : (if r.upcEn then 1 else 0) < 2 ^ 6 := by split <;> decide
  refine BitVec.eq_of_getLsbD_eq fun i hi => ?_
  rw [BitVec.getLsbD_and, BitVec.getLsbD_and, BitVec.getLsbD_or, bits_getLsbD hi (by decide), bits_getLsbD hi (by decide), hc, hk,
    BitVec.getLsbD_ofNat]
  by_cases hb : i = 0
  · subst hb
    rw [Nat.testBit_two_pow_mul_add _ hlt, if_pos (by decide), Nat.testBit_two_pow_mul_add _ he, if_pos (by decide), hen]
    cases h0 : v.getLsbD 0 <;> simp
  by_cases hm : 6 ≤ i ∧ i ≤ 17
  · rw [Nat.testBit_two_pow_mul_add _ hlt, if_pos (by omega), Nat.testBit_two_pow_mul_add _ he, if_neg (by omega), hbase, BitVec.testBit_toNat]
    simp [hm, show i - 6 < 12 by omega, hi, show 6 + (i - 6) = i by omega]
  · simp [hb, hm]

/-- TRAP.CAUSE takes what its mask admits (R341). -/
theorem crRead_crWrite_trapCause : crRead (crWrite s 0x800 v) 0x800 &&& crMask 0x800 true = v &&& crMask 0x800 true := by
  have h : crRead (crWrite s 0x800 v) 0x800 =
      (s.mine.r.trapCause &&& ~~~ crMask 0x800 true) ||| (v &&& crMask 0x800 true) := by
    simp [crRead, crWrite, setTrapCause, State.mine_modCore_iss]
  rw [h, merge_and_mask]

end

/-! ## Every register -/

/-- The numbers of R90 by what a write does to the register. -/
theorem mem_crNumbers_cases : ∀ n ∈ crNumbers, n ≠ 0x41 → n ≠ 0x809 → n ≠ 0x10 →
    n ∈ [0, 2, 0x20, 0x21] ∨ n = 1 ∨ n = 3 ∨ n = 4 ∨ n = 5 ∨ n = 6 ∨ (∃ i < 8, n = 8 + i) ∨ n = 0x19 ∨ n = 0x800 ∨
    n ∈ [0x11, 0x18, 0x1A, 0x40, 0x801, 0x802, 0x803, 0x808, 0x820, 0x828, 0x829] ∨ (∃ i < 4, n = 0x28 + i ∨ n = 0x2C + i) ∨
    (∃ i < 8, n = 0x810 + i ∨ n = 0x818 + i) := by decide

/-- The writable bits of a register read back as they were written, unless a rule of its own takes the write (R66, R261, R317). -/
theorem crRead_crWrite (s : State) (v : Word) (p : Bool) {n : Nat} (hn : n ∈ crNumbers) (hslot : s.iss.slot.toNat < 11) (h41 : n ≠ 0x41)
    (h809 : n ≠ 0x809) (h10 : n ≠ 0x10) : crRead (crWrite s n v) n &&& crMask n p = v &&& crMask n p := by
  obtain ⟨h1, h3, h4, h5, hpipe⟩ := crRead_crWrite_ctx s v hslot
  rcases mem_crNumbers_cases n hn h41 h809 h10 with
    hro | rfl | rfl | rfl | rfl | rfl | ⟨i, hi, rfl⟩ | rfl | rfl | hw | ⟨i, hi, rfl | rfl⟩ | ⟨i, hi, rfl | rfl⟩
  · have hm : crMask n p = 0 := by
      simp only [List.mem_cons, List.not_mem_nil, or_false] at hro
      rcases hro with rfl | rfl | rfl | rfl <;> rfl
    rw [hm]
    simp
  · rw [h1]
    exact priv_and_congr p (extract_and_bits v 15)
  · rw [h3]
  · rw [h4]
  · rw [h5]
    exact extract_and_bits v 5
  · exact crRead_crWrite_deque s v
  · rw [hpipe i hi]
    have hm : crMask (8 + i) p = if p then bits 15 0 else 0 := by interval_cases i <;> rfl
    rw [hm]
    exact priv_and_congr p (extract_and_bits v 15)
  · exact crRead_crWrite_upcBase s v
  · have hm : crMask 0x800 p = if p then crMask 0x800 true else 0 := by cases p <;> rfl
    rw [hm]
    exact priv_and_congr p (crRead_crWrite_trapCause s v)
  · rw [crRead_crWrite_core s v hw]
  · rw [(crRead_crWrite_counter s v hi).1]
  · rw [(crRead_crWrite_counter s v hi).2]
  · rw [(crRead_crWrite_prot s v hi).1]
  · rw [(crRead_crWrite_prot s v hi).2]

/-- The mark that `crs` and `crc` keep is not a part of the value read (R459). -/
theorem crRead_crStore (s : State) (op : Nat) (n : BitVec 12) (x : Word) :
    crRead (crStore s op n x) n.toNat = crRead (crWrite s n.toNat (crMerge op (crRead s n.toNat) x (crMask n.toNat s.me.priv))) n.toNat := by
  unfold crStore
  dsimp only
  generalize crWrite s n.toNat _ = t
  split
  case isFalse => rfl
  case isTrue h =>
    have hn : n.toNat = 0x800 := by
      simp only [Bool.and_eq_true, decide_eq_true_eq] at h
      rw [h.1.1]
      rfl
    simp [hn, crRead]

end Sys2Proof.Machine

open Sys2Proof Sys2Proof.Machine

/-- Settles O47: register by register, what is written is read on the writable bits. -/
theorem controlRegisterReadback : Obligations.ControlRegisterReadback := by
  intro s op n x hn hslot h41 h809 h10
  have hne : ∀ m : BitVec 12, n ≠ m → n.toNat ≠ m.toNat := fun m h he => h (BitVec.eq_of_toNat_eq he)
  rw [crRead_crStore]
  exact crRead_crWrite s _ _ (List.contains_iff_mem.mp hn) hslot (hne _ h41) (hne _ h809) (hne _ h10)
end

section
/-! O49: the frame of a chunk-ending word that stores nothing (R74, R165): from the state after the commit, each of these words changes a unit
of its core, the issuing context's invocation or its destination, and goes on. -/

namespace Sys2Proof.Machine

/-! ## A chunk-ending word that issues -/

section
variable {i : Instr} {s : State}

/-- A chunk-ending word issues only where its commit came to its operation. -/
theorem endFrame_issued {next : Bool} {chk : State → Option Trap} {hold : State → Option Bool} {op : State → State → State}
    (h : (endFrame i s next chk hold op).iss.fate = .issued) :
    endFrame i s next chk hold op = op (commitChunk s.opened s.iss.core s.iss.slot).1 (s.committed i) := by
  have hcommit : (commitThen i s.opened op).iss.fate = .issued →
      commitThen i s.opened op = op (commitChunk s.opened s.iss.core s.iss.slot).1 (s.committed i) := by
    intro hc
    cases hk : (commitChunk s.opened s.iss.core s.iss.slot).2 with
    | true => exact commitThen_eq op hk
    | false => simp [commitThen, hk] at hc
  unfold endFrame at h ⊢
  rw [← State.opened] at h ⊢
  dsimp only at h ⊢
  split at h
  · exact absurd h (raise_not_issued _ _)
  · split at h
    · exact absurd h (raise_not_issued _ _)
    · split at h
      · exact absurd h (raise_not_issued _ _)
      · split at h
        · exact absurd h nofun
        · split at h
          · obtain ⟨u, hu⟩ := settle_issued h
            exact absurd hu nofun
          · next hn _ _ hl _ _ =>
            rw [if_neg hn, if_neg hl]
            exact hcommit h

theorem runE_issued {next : Bool} {chk : State → Option Trap} {hold : State → Option Bool} {op : State → State}
    (h : (runE i s next chk hold op).iss.fate = .issued) : runE i s next chk hold op = op (s.committed i) := endFrame_issued h
end

/-! ## What the operations leave alone -/

/-- What an operation after a commit leaves: memory, the dies, the requests, the other contexts and cores, and of the issuing context its
mode, its special registers and every register outside the lists. -/
structure RegsKept (s t : State) (gs : List RF) (vs : List (BitVec 4)) (ps : List (BitVec 3)) : Prop where
  iss : t.iss = s.iss
  mem : t.mem = s.mem
  dies : t.dies = s.dies
  net : t.net = s.net
  others : sameOthers s t
  holder : t.mine.holder = s.mine.holder
  regs : sameRegs s t gs vs ps
  special : t.me.a.wid = s.me.a.wid ∧ t.me.a.ltag = s.me.a.ltag ∧ t.me.a.fpf = s.me.a.fpf ∧ t.me.priv = s.me.priv

section
variable {s t u : State} {gs : List RF} {vs : List (BitVec 4)} {ps : List (BitVec 3)}

theorem RegsKept.trans (h : RegsKept s t gs vs ps) (k : RegsKept t u gs vs ps) : RegsKept s u gs vs ps where
  iss := k.iss.trans h.iss
  mem := k.mem.trans h.mem
  dies := k.dies.trans h.dies
  net := k.net.trans h.net
  others := by
    obtain ⟨hc, hn⟩ := h.others
    obtain ⟨kc, kn⟩ := k.others
    rw [h.iss] at kc kn
    exact ⟨fun c h => (kc c h).trans (hc c h), fun n h => (kn n h).trans (hn n h)⟩
  holder := k.holder.trans h.holder
  regs := by
    obtain ⟨hg, hv, hp⟩ := h.regs
    obtain ⟨kg, kv, kp⟩ := k.regs
    exact ⟨fun r hr => (kg r hr).trans (hg r hr), fun r hr => (kv r hr).trans (hv r hr), fun r hr => (kp r hr).trans (hp r hr)⟩
  special := by
    obtain ⟨h1, h2, h3, h4⟩ := h.special
    obtain ⟨k1, k2, k3, k4⟩ := k.special
    exact ⟨k1.trans h1, k2.trans h2, k3.trans h3, k4.trans h4⟩

/-- A write of registers of the lists leaves all that without vector registers among them: no flag is set. -/
theorem Kept.regsKept (h : Kept s t gs [] ps) (hnet : t.net = s.net) : RegsKept s t gs [] ps :=
  ⟨h.iss, h.mem, h.device.1, hnet, h.others, h.holder, h.regs,
    h.ctx.special.1, h.ctx.special.2.2.1, h.ctx.whole rfl, h.ctx.special.2.2.2.2.1⟩

/-- A change of the issuing core that is none of its contexts, of its bank or of the bank's holder. -/
theorem regsKept_modMine {f : Core → Core} (hctx : ∀ k n, (f k).ctx n = k.ctx n) (hh : ∀ k, (f k).h = k.h)
    (hb : ∀ k, (f k).holder = k.holder) : RegsKept s (s.modMine f) gs vs ps := by
  have hme : (s.modMine f).me = s.me := by
    show (State.mine _).ctx s.iss.slot = s.mine.ctx s.iss.slot
    rw [State.mine_modMine, hctx]
  have hho : (s.modMine f).mine.holder = s.mine.holder := by rw [State.mine_modMine, hb]
  refine ⟨rfl, rfl, rfl, rfl, ⟨fun _ h => State.core_modCore_ne s _ h, fun n _ => ?_⟩, hho, ⟨fun r _ => ?_, fun r _ => ?_, fun r _ => ?_⟩, ?_⟩
  · show (State.mine _).ctx n = s.mine.ctx n
    rw [State.mine_modMine, hctx]
  · rw [State.nowG, State.nowG, State.isShadow_of_eq (s := s) (t := s.modMine f) rfl hho, hme, State.mine_modMine, hh]
  · rw [State.nowV, State.nowV, hme]
  · rw [State.nowP, State.nowP, hme]
  · rw [hme]; exact ⟨rfl, rfl, rfl, rfl⟩

/-- A change of the issuing context that is none of its registers, beside its PC and its mark, and not its mode. -/
theorem regsKept_modMe {f : Ctx → Ctx} (hf : ∀ x, ∃ pc w, (f x).a = { x.a with pc := pc, wonly := w }) (hp : ∀ x, (f x).priv = x.priv) :
    RegsKept s (s.modMe f) gs vs ps := by
  have hho : (s.modMe f).mine.holder = s.mine.holder := by rw [State.modMe_mine]; rfl
  have hme : (∃ pc w, (s.modMe f).me.a = { s.me.a with pc := pc, wonly := w }) ∧ (s.modMe f).me.priv = s.me.priv := by
    rcases State.modMe_me s f with h | h <;> rw [h]
    · exact ⟨hf _, hp _⟩
    · exact ⟨⟨s.me.a.pc, s.me.a.wonly, rfl⟩, rfl⟩
  obtain ⟨⟨pc, w, ha⟩, hpriv⟩ := hme
  refine ⟨rfl, rfl, rfl, rfl, ⟨fun _ h => State.core_modCore_ne s _ h, fun _ h => State.ctx_modCtx_ne s _ f h⟩, hho,
    ⟨fun r _ => ?_, fun r _ => ?_, fun r _ => ?_⟩, ?_⟩
  · rw [State.nowG, State.nowG, State.isShadow_of_eq (s := s) (t := s.modMe f) rfl hho, ha, State.modMe_mine]; rfl
  · rw [State.nowV, State.nowV, ha]
  · rw [State.nowP, State.nowP, ha]; rfl
  · rw [ha, hpriv]; exact ⟨rfl, rfl, rfl, rfl⟩

theorem regsKept_setPc (pc : Word) : RegsKept s (s.setPc pc) gs vs ps :=
  regsKept_modMe (f := fun x => { x with a := { x.a with pc := pc, wonly := false } }) (fun _ => ⟨pc, false, rfl⟩) fun _ => rfl

theorem regsKept_advance : RegsKept s s.advance gs vs ps := regsKept_setPc _

theorem regsKept_modInv (g : Ctx → Inv) : RegsKept s (s.modMe fun x => { x with inv := g x }) gs vs ps :=
  regsKept_modMe (f := fun x => { x with inv := g x }) (fun x => ⟨x.a.pc, x.a.wonly, rfl⟩) fun _ => rfl

theorem regsKept_retire : RegsKept s (retire s) gs vs ps :=
  regsKept_modMe (f := fun x => { x with retiring := true }) (fun x => ⟨x.a.pc, x.a.wonly, rfl⟩) fun _ => rfl

theorem regsKept_modCh (i : Nat) (f : Chan → Chan) : RegsKept s (s.modCh s.iss.core i f) gs vs ps :=
  regsKept_modMine (f := fun k => k.setCh i (f (k.ch i))) (fun _ _ => rfl) (fun _ => rfl) fun _ => rfl

theorem regsKept_setKm (m : KeyMap) : RegsKept s (s.setKm m) gs vs ps := regsKept_modMine (fun _ _ => rfl) (fun _ => rfl) fun _ => rfl

theorem regsKept_wrG (d : RF) (x : Word) : RegsKept s (s.wrG d x) [d] [] ps := (kept_wrG d x).regsKept (State.wrG_net s d x)

/-! ## The words -/

section
variable {i : Instr}

theorem runE_kept {next : Bool} {chk : State → Option Trap} {hold : State → Option Bool} {op : State → State}
    (hop : ∀ m, RegsKept m (op m) gs vs ps) (h : runE i s next chk hold op = t) (ht : t.iss.fate = .issued) :
    RegsKept (s.committed i) t gs vs ps := by
  subst h
  rw [runE_issued ht]
  exact hop _

/-- R188: a release that is put off stays with its context, and changes nothing of these either. -/
theorem runR_kept {next : Bool} {chk : State → Option Trap} {hold : State → Option Bool} {e : Vector Word 8} {op : State → State}
    (hop : ∀ m, RegsKept m (op m) gs vs ps) (h : runR i s next chk hold e op = t) (ht : t.iss.fate = .issued) :
    RegsKept (s.committed i) t gs vs ps := by
  subst h
  rw [runR, endFrame_issued ht]
  unfold orDefer
  split
  · exact hop _
  · exact regsKept_modMe (fun x => ⟨x.a.pc, x.a.wonly, rfl⟩) fun _ => rfl

theorem kmOp_kept {a : RF} {f : State → KeyMap → KeyMap × Word} (h : kmOp i s a f = t) (ht : t.iss.fate = .issued) :
    RegsKept (s.committed i) t [a] [] ps :=
  runE_kept (fun _ => ((regsKept_setKm _).trans (regsKept_wrG a _)).trans regsKept_advance) h ht
end

/-- The chunk-ending words that store nothing. -/
def endsPlain : Instr → Bool
  | .kclaim .. | .kready .. | .kunbind .. | .kpin .. | .kunpin .. | .kscan .. | .kinv .. | .kwin .. | .kcfg .. | .cpset .. | .apxIn .. |
    .apxOut .. | .hend => true
  | _ => false

theorem exec_endsPlain_kept {i : Instr} (hp : endsPlain i = true) (hx : exec i s = .next t) (ht : t.iss.fate = .issued) :
    RegsKept (s.committed i) t i.destG i.destV i.destP := by
  have hn {u} (h : exec i s = .next u) : u = t := Host.Outcome.next.inj (h.symm.trans hx)
  cases i
  case kclaim | kunbind | kunpin | kscan | kwin => exact kmOp_kept (hn rfl) ht
  case kpin => exact runE_kept (fun _ => ((regsKept_setKm _).trans (regsKept_wrG _ _)).trans regsKept_advance) (hn rfl) ht
  case kready => exact runR_kept (fun _ => (regsKept_setKm _).trans regsKept_advance) (hn rfl) ht
  case kinv | kcfg => exact runE_kept (fun _ => (regsKept_setKm _).trans regsKept_advance) (hn rfl) ht
  case cpset => exact runE_kept (fun _ => (regsKept_modCh _ _).trans regsKept_advance) (hn rfl) ht
  case apxIn | apxOut =>
    exact runE_kept (fun _ => (regsKept_modInv _).trans regsKept_advance) (hn rfl) ht
  case hend => exact runR_kept (fun _ => regsKept_retire) (hn rfl) ht
  all_goals exact absurd hp nofun
end

end Sys2Proof.Machine

open Sys2Proof Sys2Proof.Machine

/-- Settles O49: what each of these words does after its commit is kept to its unit and its destinations. -/
theorem endingWordFrame : Obligations.EndingWordFrame := by
  intro i s t _ hx ht hi
  have hp : endsPlain i = true := by
    rcases hi with ⟨a, b, c, rfl⟩ | ⟨a, rfl⟩ | ⟨a, b, rfl⟩ | ⟨a, b, rfl⟩ | ⟨a, b, rfl⟩ | ⟨a, rfl⟩ | ⟨a, rfl⟩ | ⟨d, a, b, w, n, rfl⟩ |
      ⟨z, n, f, rfl⟩ | ⟨a, b, rfl⟩ | ⟨a, rfl⟩ | ⟨k, b, rfl⟩ | rfl <;> rfl
  have h := exec_endsPlain_kept hp hx ht
  exact ⟨fun k => by rw [h.mem], h.others, h.regs, h.dies, h.net, h.special⟩
end

section
/-! O46: `crw`, `crs` and `crc` of a writable number (R91, R232, R233). -/

namespace Sys2Proof.Machine

section
variable {i : Instr} {op : Nat} {a : RF} {n : BitVec 12} {s : State}

/-- A register of context scope is written inside the chunk (R233). -/
theorem crWriteOp_inside (he : endsChunk i = false) (h : runsC i s) (hw : crWriteTrap s.opened op n (s.opened.rdG a) = none) :
    crWriteOp i op a n s = ((crStore s.opened op n (s.opened.rdG a)).markViol i).advance := by
  rw [crWriteOp, if_neg (by rw [he]; exact Bool.false_ne_true)]
  exact runC_ok h (by rw [hw])

/-- Any other register is written after the commit (R233). -/
theorem crWriteOp_after (he : endsChunk i = true) (h : endsAt i s) (hw : crWriteTrap s.opened op n (s.opened.rdG a) = none) :
    crWriteOp i op a n s = (crStore (s.committed i) op n ((s.committed i).rdG a)).advance := by
  rw [crWriteOp, if_pos he]
  exact runE_ends _ h hw (unheld_noHold s)
end

end Sys2Proof.Machine

open Sys2Proof Sys2Proof.Machine

/-- Settles O46: the three words are one operation, which either scope of register performs in its own frame. -/
theorem controlRegisterWrites : Obligations.ControlRegisterWrites := by
  intro a n s q hq hw
  have hexec : exec q.1 s = .next (crWriteOp q.1 q.2 a n s) := by
    simp only [List.mem_cons, List.not_mem_nil, or_false] at hq
    rcases hq with rfl | rfl | rfl <;> rfl
  rw [hexec]
  exact ⟨fun he h => by rw [crWriteOp_inside he h hw], fun he h => by rw [crWriteOp_after he h hw]⟩
end

section
/-! O16: the control transfers (R210-R212) and the two words that do nothing (R73). -/

namespace Sys2Proof.Machine

section
variable {i : Instr} {s : State}

/-- A transfer goes on at its target in the state `w`, or traps in `o` where no target is formed (R71). -/
def goIn (o w : State) : Option Word → State
  | some pc => w.setPc pc
  | none => raise o (o.tAddr o.iss.pc)

theorem settle_goto (o : State) (t : Option Word) : settle o (goto o t) = goIn o o t := by cases t <;> rfl

theorem settle_jumpTo (o : State) (t : Word) : settle o (jumpTo o t) = if o.fetchOk t then o.setPc t else raise o (o.tAddr t) := by
  unfold jumpTo
  split <;> rfl

/-- `nop` of either kind does nothing, and the one that is a bundle goes on (R73). -/
theorem exec_nop (h : runsC .nop s) : exec .nop s = .next s.opened.advance := congrArg Host.Outcome.next (runC_ok h rfl)

theorem exec_nopA (h : runsA .nopA s) : exec .nopA s = .next s := congrArg Host.Outcome.next (runA_eq _ h)

theorem exec_br {p : BitVec 3} {n : BitVec 1} {d : BitVec 20} (h : s.opened.early (.br p n d) = none) : exec (.br p n d) s =
    .next (goIn s.opened s.opened (if (s.opened.rdP p).getLsbD 0 != (n == 1) then moveOff s.opened.iss.pc (8 * d.toInt)
      else moveOff s.opened.iss.pc 8)) :=
  congrArg Host.Outcome.next ((runJ_eq _ h).trans (settle_goto _ _))

theorem exec_jmp {d : BitVec 24} (h : s.opened.early (.jmp d) = none) :
    exec (.jmp d) s = .next (goIn s.opened s.opened (moveOff s.opened.iss.pc (8 * d.toInt))) :=
  congrArg Host.Outcome.next ((runJ_eq _ h).trans (settle_goto _ _))

theorem exec_jmpi {a : RF} (h : s.opened.early (.jmpi a) = none) : exec (.jmpi a) s =
    .next (if s.opened.fetchOk (s.opened.rdG a) then s.opened.setPc (s.opened.rdG a) else raise s.opened (s.opened.tAddr (s.opened.rdG a))) :=
  congrArg Host.Outcome.next ((runJ_eq _ h).trans (settle_jumpTo _ _))

theorem exec_ret (h : s.opened.early .ret = none) : exec .ret s =
    .next (if s.opened.fetchOk (s.opened.rdG 63) then s.opened.setPc (s.opened.rdG 63)
      else raise s.opened (s.opened.tAddr (s.opened.rdG 63))) :=
  congrArg Host.Outcome.next ((runJ_eq _ h).trans (settle_jumpTo _ _))

/-- A call leaves the next PC in G[63] (R210). Neither it nor the target is formed: ADDR all the same. -/
theorem exec_call {d : BitVec 24} (h : s.opened.early (.call d) = none) : exec (.call d) s = .next
    (match moveOff s.opened.iss.pc 8 with
      | some r => goIn s.opened (s.opened.wrG 63 r) (moveOff s.opened.iss.pc (8 * d.toInt))
      | none => raise s.opened (s.opened.tAddr s.opened.iss.pc)) := by
  refine congrArg Host.Outcome.next ((runJ_eq _ h).trans ?_)
  rw [show s.opened.nextPc = moveOff s.opened.iss.pc 8 from rfl, targetOf]
  cases moveOff s.opened.iss.pc 8 <;> cases moveOff s.opened.iss.pc (8 * d.toInt) <;> rfl

theorem exec_loop {a : RF} {d : BitVec 18} (h : s.opened.early (.loop a d) = none) : exec (.loop a d) s =
    .next (goIn s.opened (s.opened.wrG a (s.opened.rdG a - 1))
      (if s.opened.rdG a - 1 = 0 then moveOff s.opened.iss.pc 8 else moveOff s.opened.iss.pc (8 * d.toInt))) := by
  refine congrArg Host.Outcome.next ((runJ_eq _ h).trans ?_)
  rw [show s.opened.nextPc = moveOff s.opened.iss.pc 8 from rfl, targetOf]
  dsimp only
  generalize ite (s.opened.rdG a - 1 = 0) _ _ = t
  cases t <;> rfl
end

end Sys2Proof.Machine

open Sys2Proof Sys2Proof.Machine

/-- Settles O16: each transfer by its own rule. -/
theorem transferResults : Obligations.TransferResults :=
  ⟨⟨fun _ => exec_nop, fun _ => exec_nopA⟩, fun _ _ _ _ _ _ _ => ⟨exec_br, exec_jmp, exec_call, exec_jmpi, exec_ret, exec_loop⟩⟩
end

section
/-! O18: a load elsewhere than in the issuer's scratchpad is long (R93, R97, R237-R239). -/

namespace Sys2Proof.Machine

/-! ## The start of a long load -/

section
variable {s : State} {q : Word} {n : Nat} {dst : Dst} {conv : Conv}

/-- A load elsewhere that passes its checks starts, or is held back by R97. -/
theorem loadAt_elsewhere {align : Nat} {wr : State → List Byte → Res} (hown : s.ownSp (s.res q) = false) (hc : s.check q n 0 align = none)
    (hw : s.watch q n 0 = none) (hn : n ≠ 0) :
    loadAt s q n align dst conv wr = if s.canLong then .ok (startLoad s q n dst conv) else .hold true := by
  simp only [loadAt, hc, hown, watched, hw, hn, if_false, Bool.false_eq_true]
  cases s.canLong <;> rfl

theorem startLoad_mem : (startLoad s q n dst conv).mem = s.mem := by
  simp only [startLoad, State.addLong, State.modMine_mem, State.modMe_mem, mem_send, mem_countCtx]
  split <;> rfl

/-- Its request is the one that enters the fabric. -/
theorem startLoad_net : (startLoad s q n dst conv).net = s.net ++
    [s.request s.iss.core s.iss.slot false (destOf (s.res q)) (s.isTso (s.res q)) true (.load [s.res q] n) (some q)] := by
  simp only [startLoad, State.addLong, State.modMine_net, State.modMe_net, net_send]
  split <;> rfl
end

/-- The load elsewhere of a word whose effect is `loadAt`. -/
theorem runC_loadAt {i : Instr} {s : State} {body : State → Res} {q : Word} {n : Nat} {dst : Dst} {conv : Conv} {wr : State → List Byte → Res}
    (h : runsC i s) (hb : body s.opened = loadAt s.opened q n n dst conv wr) (hv : isViol i = false)
    (hown : s.opened.ownSp (s.opened.res q) = false) (hc : s.opened.check q n 0 n = none) (hw : s.opened.watch q n 0 = none) (hn : n ≠ 0) :
    (s.opened.canLong = true → runC i s body = (startLoad s.opened q n dst conv).advance) ∧
    (s.opened.canLong = false → runC i s body = hold97 s.opened) := by
  rw [loadAt_elsewhere hown hc hw hn] at hb
  refine ⟨fun hl => ?_, fun hl => runC_hold h (by rw [hb, hl]; rfl)⟩
  rw [runC_ok h (by rw [hb, if_pos hl]), markViol_none _ hv]

/-! ## The words -/

theorem withEA_some {s : State} {base q : Word} {d : Int} {f : Word → Res} (h : moveOff base d = some q) : withEA s base d f = f q := by
  simp only [withEA, h]

/-- A scalar load that is at once writes its bytes into G[a], extended (R237). -/
def putScalar (a : RF) (cv : Conv) (s : State) (bs : List Byte) : Res := .ok (s.wrG a (BitVec.ofNat 64 (convVal cv bs 0)))

theorem scalarLoad_sx (s : State) (a : RF) (q : Word) (n : Nat) :
    scalarLoad s a q n false = loadAt s q n n (s.dstG a) (.sx n) (putScalar a (.sx n)) := rfl

theorem scalarLoad_zx (s : State) (a : RF) (q : Word) (n : Nat) :
    scalarLoad s a q n true = loadAt s q n n (s.dstG a) (.zx n) (putScalar a (.zx n)) := rfl

/-- R238: the width code of `ldx` is that of `ld`, with bit 2 for zero extension. -/
theorem ldx_width (w : BitVec 2) : ((w.setWidth 3).toNat % 4 = w.toNat ∧ ¬ 4 ≤ (w.setWidth 3).toNat) ∧
    (w.setWidth 3 + 4).toNat % 4 = w.toNat ∧ 4 ≤ (w.setWidth 3 + 4).toNat := by
  revert w; decide

end Sys2Proof.Machine

open Sys2Proof Sys2Proof.Machine

/-- Settles O18: every load is `loadAt` at its address, which starts the long operation. -/
theorem longLoadStarts : Obligations.LongLoadStarts := by
  intro a b c v w e s q o n p hp hr hq hown hc hw u
  obtain ⟨body, wr, hx, hb, hv, hn⟩ : ∃ body wr, exec p.1 s = .next (runC p.1 s body) ∧
      body o = loadAt o q p.2.2.1 p.2.2.1 p.2.2.2.2 p.2.2.2.1 wr ∧ isViol p.1 = false ∧ p.2.2.1 ≠ 0 := by
    have hpos : 2 ^ w.toNat ≠ 0 := by positivity
    obtain ⟨⟨hcode, hsx⟩, hcode', hzx⟩ := ldx_width w
    simp only [List.mem_cons, List.not_mem_nil, or_false] at hp
    rcases hp with rfl | rfl | rfl | rfl | rfl
    · exact ⟨_, putScalar a (.sx n), rfl, (withEA_some hq).trans (scalarLoad_sx ..), rfl, hpos⟩
    · exact ⟨_, putScalar a (.zx n), rfl, (withEA_some hq).trans (scalarLoad_zx ..), rfl, hpos⟩
    · refine ⟨_, putScalar a (.sx n), rfl, (withEA_some hq).trans ?_, rfl, hpos⟩
      rw [hcode, decide_eq_false hsx]
      exact scalarLoad_sx ..
    · refine ⟨_, putScalar a (.zx n), rfl, (withEA_some hq).trans ?_, rfl, hpos⟩
      rw [hcode', decide_eq_true hzx]
      exact scalarLoad_zx ..
    · exact ⟨_, _, rfl, withEA_some hq, rfl, OfNat.ofNat_ne_zero 64⟩
  obtain ⟨hgo, hheld⟩ := runC_loadAt hr hb hv hown hc hw hn
  rw [hx]
  exact ⟨fun hl => ⟨congrArg _ (hgo hl), startLoad_mem, startLoad_net⟩, fun hl => congrArg _ (hheld hl)⟩
end

section
/-! O24: the waiting words that keep their chunk open (R98, R102): each completes at once where its condition holds, and parks else. -/

namespace Sys2Proof.Machine

section
variable {i : Instr} {s : State} {chk : State → Option Trap} {mk : State → Wait} {done : State → Wait → Option State}

/-- A waiting word whose condition is `p` and whose completion is `t`. -/
theorem runW_done (h : runsC i s) (hv : isViol i = false) (hc : chk s.opened = none) {p : Prop} [Decidable p] {t : State}
    (hd : done s.opened (mk s.opened) = if p then some t else none) :
    runW i s chk mk done = if p then t.advance else park s.opened (mk s.opened) := by
  rw [runW_eq mk done h hc, markViol_none _ hv]
  split
  · next hp => exact beginWait_done (by rw [hd, if_pos hp])
  · next hp => exact beginWait_park (by rw [hd, if_neg hp])

/-- The same, of a condition `p` that holds the word back. -/
theorem runW_held (h : runsC i s) (hv : isViol i = false) (hc : chk s.opened = none) {p : Prop} [Decidable p] {t : State}
    (hd : done s.opened (mk s.opened) = if p then none else some t) :
    runW i s chk mk done = if p then park s.opened (mk s.opened) else t.advance := by
  rw [runW_done h hv hc (p := ¬ p) (hd.trans (ite_not ..).symm), ite_not]
end

section
variable {a b c : RF} {s : State}

/-- The checks of these words pass a channel, a counter of the issuing core, and a helper slot. -/
theorem chanCheck_none {x : Word} (h : x.toNat < 2) : chanCheck s x = none := by simp only [chanCheck, chanOf, if_pos h]; rfl

theorem mbCheck_none {p : Word} (hm : mbOk p = true) (ho : s.ownSp (s.res p) = true) : mbCheck s p true = none := by simp [mbCheck, hm, ho]

theorem helperSlot_eq {x : Word} (h1 : 1 ≤ x.toNat) (h2 : x.toNat ≤ 10) : helperSlot x = some (BitVec.ofNat 4 x.toNat) := by
  simp [helperSlot, h1, h2]

theorem exec_park (h : runsC (.park a) s) : exec (.park a) s =
    .next (if (s.opened.mine.ring 0).w ≠ (s.opened.mine.ring 0).c then s.opened.advance
      else park s.opened (s.opened.newWait (.park a) [] (limitOf (s.opened.rdG a)))) :=
  congrArg _ (runW_done h rfl rfl rfl)

theorem exec_kwait (h : runsC (.kwait a b c) s) : exec (.kwait a b c) s =
    .next (let l := s.opened.mine.km.lookup (keyOf (s.opened.rdG b))
      if l.1 = stBUSY then park s.opened (s.opened.newWait (.kwait a b c) [s.opened.rdG b] (limitOf (s.opened.rdG c)))
      else (s.opened.wrG a (kStatus l.1 l.2)).advance) :=
  congrArg _ (runW_held h rfl rfl rfl)

theorem exec_cpwait (h : runsC (.cpwait a b c) s) (hb : (s.opened.rdG b).toNat < 2) : exec (.cpwait a b c) s =
    .next (let h := s.opened.mine.ch (s.opened.rdG b).toNat
      if h.st = .active then park s.opened (s.opened.newWait (.cpwait a b c) [s.opened.rdG b] (limitOf (s.opened.rdG c)))
      else (s.opened.wrG a (cpStatus h)).advance) := by
  refine congrArg _ (runW_held h rfl (chanCheck_none hb) ?_)
  simp only [doneCpwait, beq_iff_eq]
  rfl

theorem exec_mbwait (h : runsC (.mbwait a b c) s) (hm : mbOk (s.opened.rdG a) = true) (ho : s.opened.ownSp (s.opened.res (s.opened.rdG a)) = true) :
    exec (.mbwait a b c) s =
    .next (if 0 ≤ (vget s.opened.mine.mbox (mbIdx (s.opened.rdG a)) 0 - (s.opened.rdG b).extractLsb' 0 32).toInt then s.opened.advance
      else park s.opened (s.opened.newWait (.mbwait a b c) [s.opened.rdG a, s.opened.rdG b] (limitOf (s.opened.rdG c)))) := by
  refine congrArg _ (runW_done h rfl (mbCheck_none hm ho) ?_)
  simp only [doneMbwait, mbReached, decide_eq_true_eq]
  rfl

/-- A register of 1 to 10 names a helper slot of the issuing core (R215). -/
theorem helper_eq {x : Word} (h1 : 1 ≤ x.toNat) (h2 : x.toNat ≤ 10) : s.helper x = s.mine.ctx (BitVec.ofNat 4 x.toNat) := by
  rw [State.helper, helperSlot_eq h1 h2]
  rfl

/-- The occupant that `hjoin` waits for is the one present at issue (R58), so that a slot which is not VACANT holds it. -/
theorem exec_hjoin (h : runsC (.hjoin a b) s) (h1 : 1 ≤ (s.opened.rdG a).toNat) (h2 : (s.opened.rdG a).toNat ≤ 10) : exec (.hjoin a b) s =
    .next (let x := s.opened.mine.ctx (BitVec.ofNat 4 (s.opened.rdG a).toNat)
      if x.st = .vacant then s.opened.advance
      else park s.opened { s.opened.newWait (.hjoin a b) [s.opened.rdG a] (limitOf (s.opened.rdG b)) with occ := x.occ }) := by
  rw [← helper_eq h1 h2]
  refine congrArg _ (runW_done h rfl (by simp only [helperSlot_eq h1 h2]; rfl) ?_)
  simp [doneHjoin, State.newWait]
end

end Sys2Proof.Machine

open Sys2Proof Sys2Proof.Machine

/-- Settles O24: each word by its own condition. -/
theorem openWaits : Obligations.OpenWaits := fun _ _ _ _ => ⟨exec_park, exec_hjoin, exec_kwait, exec_cpwait, exec_mbwait⟩
end

section
/-! O45: system words and words that are no bundle (R88, R94, R223-R231, R340, R341, R347). -/

namespace Sys2Proof.Machine

/-! ## A privileged trap that is taken (R340, R341) -/

/-- A part of what has been written, read as a number. -/
theorem memNat_memWrite_part (m : Mem) (k : Nat) {bs : List Byte} {o n : Nat} (h : o + n ≤ bs.length) :
    memNat (memWrite m k bs) (k + o) n = leBytes bs o n := by
  refine leBytes_congr n fun j hj => ?_
  have hl : o + j < bs.length := by omega
  simp only [memRead, List.getD_eq_getElem?_getD, Nat.zero_add, List.getElem?_map, List.getElem?_range hj, Option.map_some, Option.getD_some,
    List.getElem?_eq_getElem hl]
  rw [Nat.add_assoc]
  exact memGet_memWrite_at m k bs _ hl

/-- The fields of TRAP.CAUSE below NREP stay below bit 63 (R341). -/
theorem causeWord_eq (p : Pend) (n : SlotNo) (priv : Bool) (nrep : Nat) :
    ∃ k, causeWord p n priv nrep = BitVec.ofNat 64 (2 ^ 63 * 1 + (2 ^ 8 * k + p.cause.toNat)) ∧ 2 ^ 8 * k + p.cause.toNat < 2 ^ 63 := by
  refine ⟨n.toNat + (if priv then 2 ^ 4 else 0) + (if p.dfr then 2 ^ 5 else 0) + (if p.wonly then 2 ^ 6 else 0) +
    (nrepField nrep).toNat * 2 ^ 8, ?_, ?_⟩
  · unfold causeWord
    congr 1
    split <;> split <;> split <;> omega
  · have h1 := n.isLt
    have h2 := p.cause.isLt
    have h3 := (nrepField nrep).isLt
    split <;> split <;> split <;> omega

theorem causeWord_busy (p : Pend) (n : SlotNo) (priv : Bool) (nrep : Nat) : (causeWord p n priv nrep).getLsbD 63 = true := by
  obtain ⟨k, hk, hlt⟩ := causeWord_eq p n priv nrep
  rw [hk, BitVec.getLsbD_ofNat, Nat.testBit_two_pow_mul_add _ hlt]
  rfl

theorem causeWord_cause (p : Pend) (n : SlotNo) (priv : Bool) (nrep : Nat) : (causeWord p n priv nrep).extractLsb' 0 8 = p.cause := by
  obtain ⟨k, hk, -⟩ := causeWord_eq p n priv nrep
  have := p.cause.isLt
  refine BitVec.eq_of_toNat_eq ?_
  rw [hk, BitVec.extractLsb'_toNat, BitVec.toNat_ofNat, Nat.shiftRight_zero]
  omega

/-- FetchOK asks of the state the device's id alone (R194). -/
theorem fetchOkAt_congr {s t : State} (h : t.devId = s.devId) (c : CoreId) (x : Word) : fetchOkAt t c x = fetchOkAt s c x := by
  simp only [fetchOkAt, isSp, h]

/-- The count and the record of a trap change the counters and the records kept of its core alone. -/
theorem traceTrap_core (s : State) (c : CoreId) (n : SlotNo) (p : Pend) :
    ∃ v l, (s.traceTrap c n p).core c = { s.core c with r := { (s.core c).r with cntVal := v }, kept := l } := by
  unfold State.traceTrap State.traceEvent State.offerIf
  split
  · exact ⟨_, _, by rw [State.core_modCore, State.countCtx, State.core_modCore, cntAdd]⟩
  · exact ⟨_, _, by rw [State.countCtx, State.core_modCore, cntAdd]⟩

theorem traceTrap_mem (s : State) (c : CoreId) (n : SlotNo) (p : Pend) : (s.traceTrap c n p).mem = s.mem := by
  rw [State.traceTrap, mem_traceEvent, mem_countCtx]

theorem State.core_withMem (s : State) (m : Mem) (c : CoreId) : ({ s with mem := m } : State).core c = s.core c := rfl

/-- The core of a context that enters privileged software (R340, R341). -/
def Core.privEntry (k : Core) (n : SlotNo) (p : Pend) (cause : Word) : Core :=
  let k := { k with r := { k.r with trapCause := cause, trapPc := p.pc, trapInfo0 := p.info0, trapInfo1 := p.info1, trapMark := some p.pc } }
  k.setCtx n { k.ctx n with
    priv := true, st := k.liveState n, wait := none, replaying := false, tpend := Ctx.without (k.ctx n) p, inv := (k.ctx n).inv.abandon,
    a := { (k.ctx n).a with pc := k.r.trapVec, wonly := false } }

theorem Core.privEntry_r (k : Core) (n : SlotNo) (p : Pend) (cause : Word) : (k.privEntry n p cause).r =
    { k.r with trapCause := cause, trapPc := p.pc, trapInfo0 := p.info0, trapInfo1 := p.info1, trapMark := some p.pc } := rfl

theorem Core.privEntry_trapArea (k : Core) (n : SlotNo) (p : Pend) (cause : Word) : (k.privEntry n p cause).trapArea = k.trapArea := rfl

theorem Core.privEntry_ctx (k : Core) {n : SlotNo} (p : Pend) (cause : Word) (hn : n.toNat < 11) :
    ((k.privEntry n p cause).ctx n).priv = true ∧ ((k.privEntry n p cause).ctx n).a.pc = k.r.trapVec := by
  rw [Core.privEntry, Core.ctx_setCtx _ _ _ hn]
  exact ⟨rfl, rfl⟩

/-- The registers that stand for privileged software once the trap `p` of a context is taken, and the trap save block (R340, R341). -/
structure TookPriv (s t : State) (c : CoreId) (n : SlotNo) (p : Pend) : Prop where
  trapPc : (t.core c).r.trapPc = p.pc
  info0 : (t.core c).r.trapInfo0 = p.info0
  info1 : (t.core c).r.trapInfo1 = p.info1
  cause : (t.core c).r.trapCause = causeWord p n (s.ctx c n).priv (s.ctx c n).replay.length
  pc : (t.ctx c n).a.pc = (s.core c).r.trapVec
  priv : (t.ctx c n).priv = true
  area : (t.core c).trapArea = (s.core c).trapArea
  mem : t.mem = memWrite s.mem ((s.core c).trapBlock c) ((List.range 8).map fun i => wordBytes ((s.core c).named56 n i)).flatten

section
variable {s t : State} {c : CoreId} {n : SlotNo} {p : Pend}

/-- R340: the trap save block takes the registers named 56 to 63, and the core enters privileged software. -/
def privTaken (s : State) (c : CoreId) (n : SlotNo) (p : Pend) : State :=
  ({ s.traceTrap c n p with
    mem := memWrite (s.traceTrap c n p).mem ((s.core c).trapBlock c)
      ((List.range 8).map fun i => wordBytes ((s.core c).named56 n i)).flatten } : State).modCore c fun k =>
    k.privEntry n p (causeWord p n (s.ctx c n).priv (s.ctx c n).replay.length)

theorem enterPriv_eq (hb : (s.core c).busyBit = false) (hf : fetchOkAt s c (s.core c).r.trapVec = true) :
    enterPriv s c n p = privTaken s c n p := by
  have hd : (privTaken s c n p).devId = s.devId := congrArg (·.2.1) (fixed_traceTrap s c n p)
  rw [← fetchOkAt_congr hd] at hf
  unfold enterPriv
  extract_lets k x t u w
  rw [if_neg (by rw [hb]; exact Bool.false_ne_true)]
  exact if_pos hf

theorem privTaken_core : (privTaken s c n p).core c =
    ((s.traceTrap c n p).core c).privEntry n p (causeWord p n (s.ctx c n).priv (s.ctx c n).replay.length) := by
  rw [privTaken, State.core_modCore, State.core_withMem]

theorem enterPriv_took (hn : n.toNat < 11) (hb : (s.core c).busyBit = false) (hf : fetchOkAt s c (s.core c).r.trapVec = true) :
    TookPriv s (enterPriv s c n p) c n p := by
  obtain ⟨v, l, hk⟩ := traceTrap_core s c n p
  rw [enterPriv_eq hb hf]
  have hcore := privTaken_core (s := s) (c := c) (n := n) (p := p)
  obtain ⟨hpriv, hpc⟩ := ((s.traceTrap c n p).core c).privEntry_ctx p (causeWord p n (s.ctx c n).priv (s.ctx c n).replay.length) hn
  have hr := congrArg Core.r hcore
  rw [Core.privEntry_r] at hr
  refine ⟨by rw [hr], by rw [hr], by rw [hr], by rw [hr], ?_, ?_, ?_, ?_⟩
  · rw [State.ctx, hcore, hpc, hk]
  · rw [State.ctx, hcore, hpriv]
  · rw [hcore, Core.privEntry_trapArea, hk]
  · rw [privTaken, State.modCore_mem, traceTrap_mem]

/-- Each register named 56 to 63 lies in the trap save block. -/
theorem TookPriv.savedReg_eq (h : TookPriv s t c n p) {j : Nat} (hj : j < 8) : t.savedReg c j = (s.core c).named56 n j := by
  have hblock : (t.core c).trapBlock c = (s.core c).trapBlock c := by rw [Core.trapBlock, Core.trapBlock, h.area]
  rw [State.savedReg, h.mem, hblock, memNat_memWrite_part]
  · exact imgWord_words (fun i => (s.core c).named56 n i) hj
  · rw [length_flatten_wordBytes]
    omega

/-- No byte outside the trap save block changes. -/
theorem TookPriv.mem_outside (h : TookPriv s t c n p) {k : Nat} (hk : k < (s.core c).trapBlock c ∨ (s.core c).trapBlock c + 64 ≤ k) :
    memGet t.mem k = memGet s.mem k := by
  rw [h.mem]
  exact memGet_memWrite _ _ _ _ (by rwa [length_flatten_wordBytes])

/-- A trap of privileged software, beside those that stop a context at its bundle (R336, R456). -/
theorem deliver_eq_enterPriv (hw : p.cause ≠ cWATCH) (hb : p.cause = cBRK → p.info0 ≠ 1) (hg : goesPriv (s.core c) n p.cause = true) :
    deliver s c n p = enterPriv s c n p := by
  have hk : p.cause ≠ cKMISS ∧ p.cause ≠ 0 := by
    simp only [goesPriv, Bool.and_eq_true, bne_iff_ne] at hg
    exact hg.1
  have hstop : ¬ (p.cause = cWATCH ∨ p.cause = 0) ∧ ¬ (p.cause = cBRK ∧ p.info0 = 1) :=
    ⟨not_or.mpr ⟨hw, hk.2⟩, fun h => hb h.1 h.2⟩
  rw [deliver_eq, if_neg (by simpa using hstop), receive, if_neg hk.2, if_neg hk.1, if_pos hg]

theorem heldByBusy_of_idle (h : (s.core c).busyBit = false) (cause : BitVec 8) : heldByBusy s c n cause = false := by
  simp [heldByBusy, h]
end

/-! ## Words that are no bundle (R88, R94) -/

section
variable {s : State} {p : Pend}

/-- R164, R337: what the chunk of the bundles before a trap comes to; of a chunk without a bundle nothing is left. -/
def beforeTrap (s : State) : State :=
  if s.me.chunk.map (·.n) = some 0 then s.modMe fun x => { x with chunk := none, dfault := none } else (commitChunk s s.iss.core s.iss.slot).1

theorem trapAfterChunk_eq (h : ¬ s.me.chunk.map (·.n) = some 0 → s.me.nearOut = false ∧ (commitChunk s s.iss.core s.iss.slot).2 = true) :
    trapAfterChunk s s.iss.core s.iss.slot p = deliver (beforeTrap s) s.iss.core s.iss.slot p := by
  unfold trapAfterChunk beforeTrap
  split
  · next hc =>
    have hcc : (commitChunk s s.iss.core s.iss.slot).1 = s := by
      unfold commitChunk
      rw [show (s.ctx s.iss.core s.iss.slot).chunk = none from hc]
    rw [if_neg (by rw [hc]; exact nofun), hcc]
  · next ch hc =>
    by_cases h0 : ch.n = 0
    · rw [if_pos h0, if_pos (by rw [hc, Option.map_some, h0])]
    · have hne : ¬ s.me.chunk.map (·.n) = some 0 := by simpa [hc] using h0
      obtain ⟨hnear, hcom⟩ := h hne
      rw [if_neg h0, if_neg (by rw [hnear]; exact Bool.false_ne_true), if_pos hcom, if_neg hne]

theorem beforeTrap_iss : (beforeTrap s).iss = s.iss := by
  unfold beforeTrap
  split
  · rfl
  · exact congrArg (·.1) (fixed_commitChunk ..)

theorem raise_ordinary {t : Trap} (hh : t.cause ≠ 0xFF) (hw : t.cause ≠ cWATCH) (h0 : t.cause ≠ 0) :
    raise s t = raiseAs s .trapped (s.pendAt t) := by
  rw [raise, if_neg (fun h => hh (congrArg Trap.cause h)), if_neg (by simpa using ⟨hw, h0⟩)]

/-- ILLEGAL has no receiver but privileged software (R336). -/
theorem goesPriv_illegal (k : Core) (n : SlotNo) : goesPriv k n cILLEGAL = true := by
  rw [goesPriv, show upcallClass cILLEGAL = false by decide, Bool.and_false]
  rfl

theorem trapState_ordinary {f : Fate} (hl : p.cause ≠ cLOCKED) (h0 : p.cause ≠ 0) :
    trapState s f p = { s with iss := { s.iss with fate := f } } := by
  simp only [trapState, if_neg hl, hitFreeze, h0, decide_false, Bool.false_and, Bool.false_eq_true, if_false]

/-- ILLEGAL of a bundle is taken by privileged software once the chunk before it has ended. -/
theorem raise_illegal_took {t : Trap} (ht : t.cause = cILLEGAL) (hslot : s.iss.slot.toNat < 11) :
    let o : State := { s with iss := { s.iss with fate := .trapped } }
    let m := beforeTrap o
    (¬ o.me.chunk.map (·.n) = some 0 → o.me.nearOut = false ∧ (commitChunk o o.iss.core o.iss.slot).2 = true) →
    o.mine.busyBit = false → m.mine.busyBit = false → fetchOkAt m m.iss.core m.mine.r.trapVec = true →
    TookPriv m (raise s t) s.iss.core s.iss.slot (s.pendAt t) ∧ (raise s t).iss = o.iss := by
  intro o m hch hb hmb hf
  have hp : (s.pendAt t).cause = cILLEGAL := ht
  have hm : m.iss = o.iss := beforeTrap_iss
  rw [State.mine, hm] at hmb
  rw [State.mine, hm] at hf
  have hr : raise s t = enterPriv m s.iss.core s.iss.slot (s.pendAt t) := by
    rw [raise_ordinary (by rw [ht]; decide) (by rw [ht]; decide) (by rw [ht]; decide), raiseAs_eq,
      if_neg (by rw [heldByBusy_of_idle (s := s) hb]; exact Bool.false_ne_true), trapState_ordinary (by rw [hp]; decide) (by rw [hp]; decide)]
    refine (trapAfterChunk_eq (s := o) hch).trans (deliver_eq_enterPriv ?_ ?_ ?_)
    · rw [hp]; decide
    · rw [hp]; exact fun h => absurd h (by decide)
    · rw [hp]; exact goesPriv_illegal _ _
  rw [hr]
  exact ⟨enterPriv_took hslot hmb hf, (congrArg (·.1) (fixed_enterPriv ..)).trans hm⟩
end

/-! ## What privileged software finds (R340, R341) -/

section
variable {m t : State} {p : Pend}

/-- What the registers of the issuing core and the trap save block hold once its trap is taken. -/
theorem TookPriv.found (h : TookPriv m t m.iss.core m.iss.slot p) (hc : t.iss.core = m.iss.core) (hs : t.iss.slot = m.iss.slot) :
    t.mine.r.trapPc = p.pc ∧ t.mine.r.trapInfo0 = p.info0 ∧ t.mine.r.trapInfo1 = p.info1 ∧ t.mine.r.trapCause.extractLsb' 0 8 = p.cause ∧
    t.mine.r.trapCause.getLsbD 63 = true ∧ t.me.a.pc = m.mine.r.trapVec ∧ t.me.priv = true ∧
    (∀ j, j < 8 → t.savedReg m.iss.core j = m.mine.named56 m.iss.slot j) ∧
    ∀ k, k < m.mine.trapBlock m.iss.core ∨ m.mine.trapBlock m.iss.core + 64 ≤ k → memGet t.mem k = memGet m.mem k := by
  have hmine : t.mine = t.core m.iss.core := by rw [State.mine, hc]
  have hme : t.me = t.ctx m.iss.core m.iss.slot := by rw [State.me, hc, hs]
  rw [hmine, hme, h.cause, causeWord_cause]
  exact ⟨h.trapPc, h.info0, h.info1, rfl, causeWord_busy .., h.pc, h.priv, fun _ => h.savedReg_eq, fun _ => h.mem_outside⟩
end

section
variable {s : State} (hslot : s.iss.slot.toNat < 11)

theorem State.advance_mine (s : State) : s.advance.mine = s.mine.setCtx s.iss.slot
    { s.me with a := { s.me.a with pc := s.nextPc.getD s.iss.pc, wonly := false } } := State.modMe_mine s _

include hslot

theorem State.advance_me : s.advance.me = { s.me with a := { s.me.a with pc := s.nextPc.getD s.iss.pc, wonly := false } } :=
  State.me_modMe s _ hslot

/-- Going on at the next bundle changes none of what a trap saves, or asks for its receiver. -/
theorem named56_advance (j : Nat) : s.advance.mine.named56 s.iss.slot j = s.mine.named56 s.iss.slot j := by
  rw [State.advance_mine, Core.named56, Core.named56, Core.setCtx_holds, Core.ctx_setCtx _ _ _ hslot]
  rfl

theorem goesPriv_advance (cause : BitVec 8) : goesPriv s.advance.mine s.iss.slot cause = goesPriv s.mine s.iss.slot cause := by
  rw [State.advance_mine, goesPriv, goesPriv, Core.ctx_setCtx _ _ _ hslot]
  rfl

/-- A trap that completes its bundle stands for privileged software with the PC of the next one (R223, R226). -/
theorem trapAfter_found {cause : BitVec 8} {i0 nx : Word} (hnx : s.nextPc = some nx) (hb : s.mine.busyBit = false)
    (hg : goesPriv s.mine s.iss.slot cause = true) (hf : fetchOkAt s s.iss.core s.mine.r.trapVec = true) (hw : cause ≠ cWATCH)
    (hbrk : cause = cBRK → i0 ≠ 1) :
    let t := trapAfter s cause i0
    t.mine.r.trapPc = nx ∧ t.mine.r.trapInfo0 = i0 ∧
    t.mine.r.trapCause.extractLsb' 0 8 = cause ∧ t.mine.r.trapCause.getLsbD 63 = true ∧ t.me.a.pc = s.mine.r.trapVec ∧
    t.me.priv = true ∧ (∀ j, j < 8 → t.savedReg s.iss.core j = s.mine.named56 s.iss.slot j) ∧
    ∀ k, k < s.mine.trapBlock s.iss.core ∨ s.mine.trapBlock s.iss.core + 64 ≤ k → memGet t.mem k = memGet s.mem k := by
  intro t
  let p : Pend := { cause := cause, info0 := i0, info1 := 0, pc := s.advance.me.a.pc, fpc := s.iss.pc, aux := 0, aux2 := 0, wonly := false,
                    dfr := false }
  have hr : s.advance.mine.r = s.mine.r := by rw [State.advance_mine]; rfl
  have hdel : deliver s.advance s.iss.core s.iss.slot p = enterPriv s.advance s.iss.core s.iss.slot p :=
    deliver_eq_enterPriv hw hbrk ((goesPriv_advance hslot cause).trans hg)
  have hbusy : s.advance.mine.busyBit = false := by rw [Core.busyBit, hr]; exact hb
  have hfetch : fetchOkAt s.advance s.iss.core s.advance.mine.r.trapVec = true := by rw [hr]; exact hf
  have htook : TookPriv s.advance t s.iss.core s.iss.slot p := by
    have h := enterPriv_took (s := s.advance) (c := s.iss.core) (p := p) hslot hbusy hfetch
    rw [← hdel] at h
    exact ⟨h.trapPc, h.info0, h.info1, h.cause, h.pc, h.priv, h.area, h.mem⟩
  have hblock : s.advance.mine.trapBlock s.iss.core = s.mine.trapBlock s.iss.core := by rw [State.advance_mine]; rfl
  have hpc : p.pc = nx := by
    show s.advance.me.a.pc = nx
    rw [State.advance_me hslot, hnx]
    rfl
  obtain ⟨h1, h2, -, h4, h5, h6, h7, h8, h9⟩ := TookPriv.found (m := s.advance) (t := t) htook rfl rfl
  rw [show s.advance.iss.core = s.iss.core from rfl, hblock] at h9
  rw [hr] at h6
  exact ⟨h1.trans hpc, h2, h4, h5, h6, h7, fun j hj => (h8 j hj).trans (named56_advance hslot j), h9⟩
end

/-! ## The words -/

theorem exec_unassigned {w0 w1 : W32} {r : Nat} {s : State} (hd : decodeBundle w0 w1 = .bad r) :
    exec (.unassignedEncoding w0 w1) s = .next (raise s.opened (mkTrap cILLEGAL (BitVec.ofNat 64 r) (w1 ++ w0))) := by
  show execUnassignedEncoding w0 w1 s = _
  simp only [execUnassignedEncoding, hd]
  rfl

/-- `trap` and `brk` come to their trap, once no other context is in privileged software (R342). -/
theorem runE_trapAfter {i : Instr} {s : State} {cause : BitVec 8} {i0 : State → Word} (h : endsAt i s) (hb : s.opened.mine.busyBit = false) :
    runE i s true (fun _ => none) (holdBusy cause) (fun u => trapAfter u cause (i0 u)) = trapAfter (s.committed i) cause (i0 (s.committed i)) := by
  refine endFrame_eq _ h.1.1 (fun _ => h.1.2) rfl h.2 ?_
  rw [holdBusy, if_neg]
  rw [show heldByBusy s.opened s.opened.iss.core s.opened.iss.slot cause = false from heldByBusy_of_idle hb cause]
  exact Bool.false_ne_true

/-- A general register is written in the context that does not hold the bank. -/
theorem State.wrG_me {s : State} (hslot : s.iss.slot.toNat < 11) (hh : s.mine.holds s.iss.slot = false) (r : RF) (x : Word) :
    (s.wrG r x).me = { s.me with a := s.me.a.wrG r.toNat x } := by
  rw [State.wrG, if_neg (by rw [State.isShadow, hh]; exact Bool.false_ne_true)]
  exact State.me_modMe s _ hslot

theorem State.wrG_holds (s : State) (r : RF) (x : Word) (n : SlotNo) : (s.wrG r x).mine.holds n = s.mine.holds n := by
  rw [Core.holds, Core.holds, (kept_wrG (vs := []) (ps := []) r x).holder]

/-- R347: what `upret` leaves of the upcall. -/
theorem retUpcall_found {m : State} (hslot : m.iss.slot.toNat < 11) :
    let t := retUpcall m
    t.me.a.pc = m.mine.r.upcPc ∧ t.mine.r.upcMask = false ∧
    t.me.a.wonly = (m.mine.r.upcWonly && marks (some m.mine.r.upcMark) m.mine.r.upcPc) ∧
    (m.mine.holds m.iss.slot = false → ∀ j, j < 2 → vget t.me.a.g (60 + j) 0 =
      BitVec.ofNat 64 (memNat m.mem (spKey m.iss.core (64 * m.mine.r.upcBase.toNat) + 8 + 8 * j) 8)) := by
  intro t
  let w := (m.wrG 60 (BitVec.ofNat 64 (memNat m.mem (spKey m.iss.core (64 * m.mine.r.upcBase.toNat) + 8) 8))).wrG 61
    (BitVec.ofNat 64 (memNat m.mem (spKey m.iss.core (64 * m.mine.r.upcBase.toNat) + 16) 8))
  let u := w.modMine fun k => { k with r := { k.r with upcMask := false, upcWonly := false } }
  have hiss : u.iss = m.iss := by
    show (State.modMine _ _).iss = _
    rw [State.modMine_iss, State.wrG_iss, State.wrG_iss]
  have ht : t = u.modMe fun x => x.resumeAt m.mine.r.upcPc (m.mine.r.upcWonly && marks (some m.mine.r.upcMark) m.mine.r.upcPc)
      (· != m.mine.r.upcMark) := rfl
  have hme : t.me = u.me.resumeAt m.mine.r.upcPc (m.mine.r.upcWonly && marks (some m.mine.r.upcMark) m.mine.r.upcPc)
      (· != m.mine.r.upcMark) := by
    rw [ht]
    exact State.me_modMe u _ (by rw [hiss]; exact hslot)
  refine ⟨by rw [hme, Ctx.resumeAt_a], ?_, by rw [hme, Ctx.resumeAt_a], fun hh j hj => ?_⟩
  · rw [ht, State.modMe_mine, Core.setCtx_r]
    show (State.mine _).r.upcMask = _
    rw [State.mine_modMine]
  · have hu : u.me = w.me := by
      show (State.mine _).ctx _ = _
      rw [State.mine_modMine]
      rfl
    have hh' : ∀ x, (m.wrG 60 x).mine.holds (m.wrG 60 x).iss.slot = false := fun x => by rw [State.wrG_holds, State.wrG_iss]; exact hh
    rw [hme, Ctx.resumeAt_a, hu, State.wrG_me (by rw [State.wrG_iss]; exact hslot) (hh' _), State.wrG_me hslot hh]
    obtain rfl | rfl : j = 0 ∨ j = 1 := by omega
    · simp [Arch.wrG, vget_vset_ne]
    · simp [Arch.wrG]

end Sys2Proof.Machine

open Sys2Proof Sys2Proof.Machine

/-- Settles O45: a trap that is taken by privileged software, before its bundle or after it, and the words that return. -/
theorem systemWordResults : Obligations.SystemWordResults := by
  refine ⟨?_, ?_, fun a b s => ?_⟩
  · intro w0 w1 r s hd hslot o first hch m hb hmb hf
    obtain ⟨htook, hiss⟩ := raise_illegal_took (s := s.opened) (t := mkTrap cILLEGAL (BitVec.ofNat 64 r) (w1 ++ w0)) rfl hslot hch hb hmb hf
    have hm : m.iss = o.iss := beforeTrap_iss (s := o)
    obtain ⟨h1, h2, h3, h4, h5, h6, h7, h8, h9⟩ := TookPriv.found (m := m) (by rw [hm]; exact htook) (by rw [hm, hiss]) (by rw [hm, hiss])
    refine ⟨_, exec_unassigned hd, h1, h2, h3, h4, h5, h6, h7, h8, h9, fun hfirst => ?_⟩
    rw [show m = _ from if_pos hfirst]
    rfl
  · intro a s nx q hq h hslot hb m hnx hmb hg hf
    have hms : m.iss = s.iss := committed_iss s q.1
    have hmslot : m.iss.slot.toNat < 11 := by rw [hms]; exact hslot
    simp only [List.mem_cons, List.not_mem_nil, or_false] at hq
    rcases hq with rfl | rfl
    · have hx : exec (.trap a) s = .next (trapAfter m cSERVICE (m.rdG a)) := congrArg _ (runE_trapAfter (i0 := fun u => u.rdG a) h hb)
      exact ⟨_, hx, trapAfter_found hmslot hnx hmb hg hf (by decide) fun h => absurd h (by decide)⟩
    · have hx : exec .brk s = .next (trapAfter m cBRK 0) := congrArg _ (runE_trapAfter (i0 := fun _ => 0) h hb)
      exact ⟨_, hx, trapAfter_found hmslot hnx hmb hg hf (by decide) fun _ => by decide⟩
  · refine ⟨fun he hm hh => ?_, fun he hm hf => ?_, fun h hc hl => ?_, fun h => ?_⟩
    · intro m t hf
      refine congrArg Host.Outcome.next ((runE_eq (chk := fun _ => none) retHandler he (fun h => absurd h Bool.false_ne_true) rfl hm hh).trans ?_)
      exact if_pos hf
    · intro m hslot
      have hc : (if s.opened.fetchOk s.opened.mine.r.upcPc then none else some (s.opened.tAddr s.opened.mine.r.upcPc)) = none := if_pos hf
      have hms : m.iss = s.iss := committed_iss s .upret
      exact ⟨_, congrArg Host.Outcome.next (runE_eq retUpcall he (fun h => absurd h Bool.false_ne_true) hc hm (unheld_noHold s)),
        retUpcall_found (by rw [hms]; exact hslot)⟩
    · exact ⟨_, congrArg Host.Outcome.next (runE_ends _ h hc (unheld_holdLong hl)), rfl, rfl⟩
    · exact congrArg Host.Outcome.next (runE_ends _ h rfl (unheld_noHold s))
end

section
/-! O48: where ILLEGAL, HAZARD, PROT, ADDR, LOCKED and PAGE are taken (R76, R88, R94, R136, R146-R148, R186, R232, R234). -/

namespace Sys2Proof.Machine

/-! ## Traps of the mode and of the scoreboard (R76 item 2, R94) -/

section
variable {i : Instr} {s : State} {t : Trap}

theorem early_of_forbidden {r : Nat} (h : s.forbidden i = some r) : s.early i = some (s.tIllegal r) := by simp only [State.early, h]

/-- A chunk-ending word takes such a trap before its own checks. -/
theorem endFrame_early (next : Bool) (chk : State → Option Trap) (hold : State → Option Bool) (op : State → State → State)
    (h : s.opened.early i = some t) : endFrame i s next chk hold op = raise s.opened t := by
  unfold endFrame
  rw [← State.opened]
  simp only [h]

theorem runW_early (chk : State → Option Trap) (mk : State → Wait) (done : State → Wait → Option State)
    (h : s.opened.early i = some t) : runW i s chk mk done = raise s.opened t := by
  unfold runW
  rw [← State.opened]
  simp only [h]

theorem runEW_early (chk : State → Option Trap) (mk : State → State × Wait) (done : State → Wait → Option State)
    (h : s.opened.early i = some t) : runEW i s chk mk done = raise s.opened t :=
  endFrame_early true chk noHold (fun _ s => beginWait (mk s).1 (mk s).2 done) h

theorem aluW_early (d : RF) (g : BitVec 3) (f : State → Word) (h : s.early i = some t) : aluW i d g f s = raise s t := runA_trap _ h

/-- A word of the lone and C classes that its mode forbids. -/
theorem early_need {ok : Bool} {r : Nat} (hf : s.opened.forbidden i = if ok then none else some r) (h : ok = false) :
    s.opened.early i = some (s.opened.tIllegal r) := early_of_forbidden (by rw [hf, h]; rfl)

/-- R94: the first register that a word reads, when its scoreboard bit is set. -/
theorem early_hazard {a : RF} {rs : List RF} (hf : s.forbidden i = none) (hr : i.readsG = a :: rs) (hs : s.isShadow a = false)
    (hb : s.src.sg.getLsbD a.toNat = true) : s.early i = some (mkTrap cHAZARD (BitVec.ofNat 64 a.toNat) s.iss.bundle) := by
  have hbusy : s.busyG false a = some (BitVec.ofNat 64 a.toNat) := by
    simp [State.busyG, hs, hb, hazardInfo]
  have hz : s.hazard i = some (BitVec.ofNat 64 a.toNat) := by
    rw [State.hazard, hr, List.findSome?_cons, hbusy]
    rfl
  simp only [State.early, hf, hz, Option.map_some]
end

/-! ## PROT on a control register (R232) -/

section
variable {i : Instr} {s : State} {n : BitVec 12}

theorem crPriv_user (hn : 0x800 ≤ n.toNat) (hp : s.me.priv = false) : crPriv s n = some (mkTrap cPROT (n.zeroExtend 64) 6) := by
  simp only [crPriv, hn, hp, decide_true, Bool.not_false, Bool.and_self, if_true]
  rfl

theorem crWriteOp_user {op : Nat} {a : RF} (h : runsC i s) (hn : 0x800 ≤ n.toNat) (hp : s.opened.me.priv = false) :
    crWriteOp i op a n s = raise s.opened (mkTrap cPROT (n.zeroExtend 64) 6) := by
  have hw : crWriteTrap s.opened op n (s.opened.rdG a) = some (mkTrap cPROT (n.zeroExtend 64) 6) := by
    rw [crWriteTrap, crPriv_user hn hp]
    rfl
  unfold crWriteOp
  split
  · exact runE_trap _ h hw
  · exact runC_trap h (by rw [hw])
end

/-! ## The checks of an access (R136, R234) -/

section
variable {s : State} {p : Word} {n kind align : Nat}

theorem withEA_none {base : Word} {d : Int} {f : Word → Res} (h : moveOff base d = none) : withEA s base d f = .trap (s.tAddr base) := by
  simp only [withEA, h]

theorem check_of_addrBad (h : addrBad p n align = true) : s.check p n kind align = some (s.tAddr p) := if_pos h

theorem check_of_addrOk (h : addrBad p n align = false) :
    s.check p n kind align = (s.checkProt p n kind).or ((s.checkLock p n kind).or (s.checkPage p n kind)) :=
  if_neg (by rw [h]; exact Bool.false_ne_true)

theorem addrBad_of_misaligned (hn : 0 < n) (h : pOff p % align ≠ 0) : addrBad p n align = true := by
  simp [addrBad, h, Nat.ne_of_gt hn]

theorem addrBad_of_mbz (h : mbzOk p = false) : addrBad p n align = true := by simp [addrBad, h]

theorem checkProt_refused (hn : 0 < n) (ho : s.ownSp (s.res p) = true) (hr : protOk s.mine s.tenant s.me.priv (pOff p) n kind = false) :
    s.checkProt p n kind = some (tProt p kind) := by
  simp [State.checkProt, ho, hr, Nat.ne_of_gt hn]

/-! Range locks (R186). -/

/-- A lock bars an access of a kind: a destination every access, a source a store or an atomic. -/
def Lock.bars (l : Lock) (kind : Nat) : Prop := l.dst = true ∨ kind = 1 ∨ kind = 2

theorem lockHit_pred (l : Lock) (t : Tenant) (q : Word) :
    ((l.dst || kind = 1 || kind = 2) && lockMeets s l t q n) = true ↔ l.bars kind ∧ lockMeets s l t q n = true := by
  simp only [Bool.and_eq_true, Bool.or_eq_true, decide_eq_true_eq, Lock.bars, or_assoc]

/-- An access that meets a lock takes LOCKED, of a lock that it meets. -/
theorem checkLock_met {l : Lock} (hl : l ∈ (s.die (dieOf s.iss.core)).locks) (hb : l.bars kind)
    (hm : lockMeets s l s.tenant (s.res p) n = true) : ∃ l' ∈ (s.die (dieOf s.iss.core)).locks, l'.bars kind ∧
      lockMeets s l' s.tenant (s.res p) n = true ∧ s.checkLock p n kind = some (mkTrap cLOCKED p (l'.xid.setWidth 64)) := by
  obtain ⟨l', hf⟩ : ∃ l', lockHit s (dieOf s.iss.core) s.tenant (s.res p) n kind = some l' :=
    Option.isSome_iff_exists.mp (List.find?_isSome.mpr ⟨l, hl, (lockHit_pred l _ _).mpr ⟨hb, hm⟩⟩)
  have hp := List.find?_some (p := fun l : Lock => (l.dst || kind = 1 || kind = 2) && lockMeets s l s.tenant (s.res p) n) hf
  obtain ⟨hb', hm'⟩ := (lockHit_pred l' _ _).mp hp
  exact ⟨l', List.mem_of_find?_eq_some hf, hb', hm', by rw [State.checkLock, hf]; rfl⟩

theorem checkLock_clear (h : ∀ l ∈ (s.die (dieOf s.iss.core)).locks, l.bars kind → lockMeets s l s.tenant (s.res p) n = false) :
    s.checkLock p n kind = none := by
  have hf : lockHit s (dieOf s.iss.core) s.tenant (s.res p) n kind = none := by
    refine List.find?_eq_none.mpr fun l hl hp => ?_
    obtain ⟨hb, hm⟩ := (lockHit_pred l _ _).mp hp
    rw [h l hl hb] at hm
    exact Bool.false_ne_true hm
  rw [State.checkLock, hf]
  rfl

/-- R148: PAGE of a store or an atomic whose first page faults, where no migration holds the page. -/
theorem checkPage_fault {c : Nat} (hn : 0 < n) (ho : s.ownDie (s.res p) = true) (hh : s.ownHeld (s.res p) n = false)
    (hk : kind = 1 ∨ kind = 2) (hx : xlateFor s (dieOf s.iss.core) false s.tenant (pOff (s.res p)) kind s.me.priv false = .fault c) :
    s.checkPage p n kind = some (mkTrap cPAGE p (faultWord c kind)) := by
  have hkb : (kind == 1 || kind == 2) = true := by simpa using hk
  simp [State.checkPage, ho, hh, hkb, Nat.ne_of_gt hn, State.pageFault, hx]

/-- The places that a lock without a mask covers (R186), of a range that does not shrink. -/
theorem lockMeets_iff {l : Lock} {t : Tenant} {q : Word} (hn : 0 < n) (hm : l.mask = 0) (hs : (l.dst && l.shrinks) = false) :
    lockMeets s l t q n = true ↔ (pSpc q = 0 ∨ t = l.tenant) ∧ posOf q ≤ posOf l.last ∧ posOf l.first < posOf q + n := by
  simp [lockMeets, lockFirst, hm, hs, hn]
end

/-! ## Walks (R145-R147) -/

/-- A walk by the four entries that it may read. -/
def walkFrom (hdm : List HdmDec) (pool : Bool) (root e1 e2 e3 : Nat) : Walk :=
  if root % 2 = 0 then .fault 0
  else if e1 % 2 = 0 then .fault 0
  else if e1 / 2 % 2 = 1 || tableRsv e1 || e1 / 256 % 256 != 0 then .fault 2
  else if e2 % 2 = 0 then .fault 0
  else if e2 / 2 % 2 = 1 then walkLeaf hdm pool true e2
  else if tableRsv e2 then .fault 2
  else if e3 % 2 = 0 then .fault 0
  else if e3 / 2 % 2 = 0 then .fault 2
  else walkLeaf hdm pool false e3

section
variable {hdm : List HdmDec} {pool large : Bool} {root e e1 e2 e3 : Nat}

/-- An entry of the first level that is no table (R146). -/
def badTable1 (e1 : Nat) : Prop := e1 / 2 % 2 = 1 ∨ tableRsv e1 = true ∨ e1 / 256 % 256 ≠ 0

theorem badTable1_iff : (e1 / 2 % 2 = 1 || tableRsv e1 || e1 / 256 % 256 != 0) = true ↔ badTable1 e1 := by
  simp [badTable1, or_assoc]

theorem walkFrom_root (h : root % 2 = 0) : walkFrom hdm pool root e1 e2 e3 = .fault 0 := if_pos h

theorem walkFrom_absent1 (hr : root % 2 = 1) (h : e1 % 2 = 0) : walkFrom hdm pool root e1 e2 e3 = .fault 0 := by
  simp [walkFrom, hr, h]

theorem walkFrom_bad1 (hr : root % 2 = 1) (h1 : e1 % 2 = 1) (h : badTable1 e1) : walkFrom hdm pool root e1 e2 e3 = .fault 2 := by
  rw [walkFrom, if_neg (by omega), if_neg (by omega), if_pos (badTable1_iff.mpr h)]

/-- Past a sound table of the first level a walk depends on the second and the third. -/
theorem walkFrom_level2 (hr : root % 2 = 1) (h1 : e1 % 2 = 1) (h : ¬ badTable1 e1) : walkFrom hdm pool root e1 e2 e3 =
    if e2 % 2 = 0 then .fault 0
    else if e2 / 2 % 2 = 1 then walkLeaf hdm pool true e2
    else if tableRsv e2 then .fault 2
    else if e3 % 2 = 0 then .fault 0
    else if e3 / 2 % 2 = 0 then .fault 2
    else walkLeaf hdm pool false e3 := by
  rw [walkFrom, if_neg (by omega), if_neg (by omega), if_neg fun hb => h (badTable1_iff.mp hb)]

/-- A leaf of a page that may be mapped (R146, R147). -/
def leafSound (hdm : List HdmDec) (pool : Bool) (e : Nat) (large : Bool) : Prop :=
  let f := e / 2 ^ 16 % 2 ^ 36; let x : Attr := BitVec.ofNat 7 (e / 4)
  leafRsv e = false ∧ (large = true → f % 32 = 0 ∧ attrS x = false) ∧ (attrS x = true → pool = false ∧ f < 32) ∧
    (attrS x = false → if pool then hdmMaps hdm f large = true else f * 2 ^ 16 < 384 * 2 ^ 20)

theorem walkLeaf_eq (hdm : List HdmDec) (pool : Bool) (e : Nat) (large : Bool) :
    (leafSound hdm pool e large → walkLeaf hdm pool large e = .leaf (e / 2 ^ 16 % 2 ^ 36 * 2 ^ 16) large (BitVec.ofNat 7 (e / 4))) ∧
    (¬ leafSound hdm pool e large → walkLeaf hdm pool large e = .fault 2) := by
  unfold leafSound walkLeaf
  extract_lets f x
  have hsize : (large && (f % 32 != 0 || attrS x)) = true ↔ ¬ (large = true → f % 32 = 0 ∧ attrS x = false) := by
    cases large <;> cases attrS x <;> simp
  have hsram : (attrS x && (pool || 31 < f)) = true ↔ ¬ (attrS x = true → pool = false ∧ f < 32) := by
    cases attrS x <;> cases pool <;> simp
    omega
  have hmem : (!attrS x && (if pool then !hdmMaps hdm f large else dmSize ≤ f * 2 ^ 16)) = true ↔
      ¬ (attrS x = false → if pool then hdmMaps hdm f large = true else f * 2 ^ 16 < 384 * 2 ^ 20) := by
    cases attrS x <;> cases pool <;> simp [dmSize]
    exact decide_eq_true_iff
  refine ⟨fun ⟨h1, h2, h3, h4⟩ => ?_, fun h => ?_⟩
  · rw [if_neg (by rw [h1]; exact Bool.false_ne_true), if_neg fun hb => hsize.mp hb h2, if_neg fun hb => hsram.mp hb h3,
      if_neg fun hb => hmem.mp hb h4]
  · by_cases h1 : leafRsv e = true
    · rw [if_pos h1]
    by_cases h2 : large = true → f % 32 = 0 ∧ attrS x = false
    · by_cases h3 : attrS x = true → pool = false ∧ f < 32
      · rw [if_neg h1, if_neg fun hb => hsize.mp hb h2, if_neg fun hb => hsram.mp hb h3,
          if_pos (hmem.mpr fun h4 => h ⟨eq_false_of_ne_true h1, h2, h3, h4⟩)]
      · rw [if_neg h1, if_neg fun hb => hsize.mp hb h2, if_pos (hsram.mpr h3)]
    · rw [if_neg h1, if_pos (hsize.mpr h2)]
end

/-- What a walk that ends at a leaf finds. -/
theorem leafIs_of {hdm : List HdmDec} {pool large : Bool} {e : Nat} {w : Walk} (hw : w = walkLeaf hdm pool large e) :
    (leafSound hdm pool e large → w = .leaf (e / 2 ^ 16 % 2 ^ 36 * 2 ^ 16) large (BitVec.ofNat 7 (e / 4))) ∧
    (¬ leafSound hdm pool e large → w = .fault 2) := hw ▸ walkLeaf_eq hdm pool e large

/-- The rights that an access of a kind needs of a page (R146, R148). -/
theorem xlateFor_leaf {s : State} {d : BitVec 2} {pool : Bool} {t : Tenant} {va f kind : Nat} {priv dec large : Bool} {x : Attr}
    (hx : xlate s d pool t va = .leaf f large x) (hk : kind < 6) : xlateFor s d pool t va kind priv dec =
      if (priv || x.getLsbD 3) && (match (generalizing := false) kind with
          | 0 | 4 => x.getLsbD 0 | 1 | 5 => x.getLsbD 1 | 2 => x.getLsbD 0 && x.getLsbD 1 | _ => x.getLsbD 2) && (!dec || x.getLsbD 6)
        then .ok (leafKey d pool va f large x) x else .fault 1 := by
  rw [xlateFor, hx]
  interval_cases kind <;> rfl

/-! ## The words -/

section
variable {s : State}

/-- Words that their mode forbids: each of them takes ILLEGAL, whatever its registers hold. -/
theorem exec_forbidden_mode {i : Instr} (hi : i ∈ [Instr.eret, .halt]) (hp : s.opened.me.priv = false) :
    exec i s = .next (raise s.opened (s.opened.tIllegal 6)) := by
  have he : s.opened.early i = some (s.opened.tIllegal 6) := by
    simp only [List.mem_cons, List.not_mem_nil, or_false] at hi
    rcases hi with rfl | rfl <;> exact early_need rfl hp
  simp only [List.mem_cons, List.not_mem_nil, or_false] at hi
  rcases hi with rfl | rfl <;> exact congrArg _ (endFrame_early _ _ _ _ he)

theorem exec_trap_priv {a : RF} (hp : s.opened.me.priv = true) : exec (.trap a) s = .next (raise s.opened (s.opened.tIllegal 6)) :=
  congrArg _ (endFrame_early _ _ _ _ (early_need rfl (by rw [hp]; rfl)))

theorem exec_hret_bankless (hh : s.opened.mine.holds s.opened.iss.slot = false) :
    exec .hret s = .next (raise s.opened (s.opened.tIllegal 7)) := congrArg _ (endFrame_early _ _ _ _ (early_need rfl hh))

/-- The words of the control context (R215). -/
theorem exec_helper_forbidden {a b : RF} {i : Instr} (hi : i ∈ [Instr.hstart a b, .hjoin a b, .hsave a b, .hload a b, .hresume a, .upret])
    (h : s.opened.iss.slot ≠ 0) : exec i s = .next (raise s.opened (s.opened.tIllegal 6)) := by
  have hc : (s.opened.iss.slot == 0) = false := beq_eq_false_iff_ne.mpr h
  simp only [List.mem_cons, List.not_mem_nil, or_false] at hi
  rcases hi with rfl | rfl | rfl | rfl | rfl | rfl
  · exact congrArg _ (endFrame_early _ _ _ _ (early_need (i := .hstart a b) rfl hc))
  · exact congrArg _ (runW_early _ _ _ (early_need (i := .hjoin a b) rfl hc))
  · exact congrArg _ (runEW_early _ _ _ (early_need (i := .hsave a b) rfl hc))
  · exact congrArg _ (endFrame_early _ _ _ _ (early_need (i := .hload a b) rfl hc))
  · exact congrArg _ (endFrame_early _ _ _ _ (early_need (i := .hresume a) rfl hc))
  · exact congrArg _ (endFrame_early _ _ _ _ (early_need (i := .upret) rfl hc))

/-- The words of a helper (R215). -/
theorem exec_control_forbidden {a : RF} {i : Instr} (hi : i ∈ [Instr.hend, .spend a]) (h : s.opened.iss.slot = 0) :
    exec i s = .next (raise s.opened (s.opened.tIllegal 6)) := by
  have hc : (s.opened.iss.slot == 0) = true := beq_iff_eq.mpr h
  simp only [List.mem_cons, List.not_mem_nil, or_false] at hi
  rcases hi with rfl | rfl
  · exact congrArg _ (endFrame_early _ _ _ _ (early_of_forbidden (i := .hend) (if_pos hc)))
  · exact congrArg _ (endFrame_early _ _ _ _ (early_of_forbidden (i := .spend a) (if_pos hc)))

theorem exec_hazard {d a b : RF} {g : BitVec 3} {i : Instr} (hi : i ∈ [Instr.add d a b g, .sub d a b g, .div d a b g, .padd d a b g])
    (hs : s.isShadow a = false) (hb : s.src.sg.getLsbD a.toNat = true) :
    exec i s = .next (raise s (mkTrap cHAZARD (BitVec.ofNat 64 a.toNat) s.iss.bundle)) := by
  simp only [List.mem_cons, List.not_mem_nil, or_false] at hi
  rcases hi with rfl | rfl | rfl | rfl
  · exact congrArg _ (aluW_early _ _ _ (early_hazard (i := .add d a b g) rfl rfl hs hb))
  · exact congrArg _ (aluW_early _ _ _ (early_hazard (i := .sub d a b g) rfl rfl hs hb))
  · exact congrArg _ (runA_trap _ (early_hazard (i := .div d a b g) rfl rfl hs hb))
  · exact congrArg _ (runA_trap _ (early_hazard (i := .padd d a b g) rfl rfl hs hb))

/-- R232: a privileged number in user mode. -/
theorem exec_cr_user {a : RF} {n : BitVec 12} (hn : 0x800 ≤ n.toNat) (hp : s.opened.me.priv = false) :
    (runsC (.crr a n) s → exec (.crr a n) s = .next (raise s.opened (mkTrap cPROT (n.zeroExtend 64) 6))) ∧
    ∀ i ∈ [Instr.crw a n, .crs a n, .crc a n], runsC i s → exec i s = .next (raise s.opened (mkTrap cPROT (n.zeroExtend 64) 6)) := by
  refine ⟨fun h => congrArg _ (runC_trap h ?_), fun i hi h => ?_⟩
  · rw [crPriv_user hn hp]
  · simp only [List.mem_cons, List.not_mem_nil, or_false] at hi
    rcases hi with rfl | rfl | rfl <;> exact congrArg _ (crWriteOp_user h hn hp)
end

section
variable {s : State} {a b : RF} {w : BitVec 2} {e : BitVec 12}

theorem exec_ld_unformed (h : runsC (.ld w a b e) s) (hq : moveOff (s.opened.rdG b) e.toInt = none) :
    exec (.ld w a b e) s = .next (raise s.opened (s.opened.tAddr (s.opened.rdG b))) := congrArg _ (runC_trap h (withEA_none hq))

theorem exec_st_unformed (h : runsC (.st w a b e) s) (hq : moveOff (s.opened.rdG b) e.toInt = none) :
    exec (.st w a b e) s = .next (raise s.opened (s.opened.tAddr (s.opened.rdG b))) := congrArg _ (runC_trap h (withEA_none hq))

theorem exec_ld_refused {q : Word} {t : Trap} (h : runsC (.ld w a b e) s) (hq : moveOff (s.opened.rdG b) e.toInt = some q)
    (hc : s.opened.check q (2 ^ w.toNat) 0 (2 ^ w.toNat) = some t) : exec (.ld w a b e) s = .next (raise s.opened t) := by
  refine congrArg _ (runC_trap h ((withEA_some hq).trans ?_))
  rw [scalarLoad_sx, loadAt, widthOf, hc]
end

end Sys2Proof.Machine

open Sys2Proof Sys2Proof.Machine

/-- Settles O48: the traps of a word's mode and registers, of the checks of its access, and of a walk. -/
theorem trapChecks : Obligations.TrapChecks := by
  refine ⟨⟨fun w0 w1 r s h => exec_unassigned h, fun d a b g s hs hb i hi => exec_hazard hi hs hb⟩, fun a b n s => ?_,
    fun a b w e s n kind align p => ?_⟩
  · exact ⟨fun i hi => exec_forbidden_mode hi, exec_trap_priv, exec_hret_bankless, fun i hi => exec_helper_forbidden hi,
      fun i hi => exec_control_forbidden hi, fun _ => exec_cr_user⟩
  · refine ⟨exec_ld_unformed, exec_st_unformed, fun q t => exec_ld_refused, fun hn h => check_of_addrBad (addrBad_of_misaligned hn h),
      fun h => check_of_addrBad (addrBad_of_mbz h), fun ha hn ho hr => ?_,
      fun ha hp => ⟨fun l hl hb hm => ?_, fun h => ?_, fun c hl hn ho hh hk hx => ?_⟩,
      fun l t q hn hm hs => lockMeets_iff hn hm hs, ?_⟩
    · rw [check_of_addrOk ha, checkProt_refused hn ho hr]
      rfl
    · obtain ⟨l', hl', hb', hm', hc⟩ := checkLock_met hl hb hm
      exact ⟨l', hl', hb', hm', by rw [check_of_addrOk ha, hp, hc]; rfl⟩
    · rw [check_of_addrOk ha, hp, checkLock_clear h]
      rfl
    · rw [check_of_addrOk ha, hp, hl, checkPage_fault hn ho hh hk hx]
      rfl
    · intro d pool t va priv dec at_ root e1 e2 e3 w leafIs
      have hw : w = walkFrom s.hdm pool root e1 e2 e3 := rfl
      refine ⟨fun k hk => if_pos hk, fun h => hw.trans (walkFrom_root h), fun hr h => hw.trans (walkFrom_absent1 hr h), ?_, fun h => ?_,
        fun x h => ?_, fun k h => ?_, ?_⟩
      · intro hr h1 bad
        refine ⟨fun h => hw.trans (walkFrom_bad1 hr h1 h), fun hb h2 => ?_, fun hb h2 h => ?_,
          fun hb h2 h => ⟨fun h3 => ?_, fun hr2 => ⟨fun h3 => ?_, fun h3 h4 => ?_, fun h3 h4 => ?_⟩⟩⟩
        all_goals rw [walkFrom_level2 hr h1 hb] at hw
        · rw [hw, if_pos h2]
        · rw [if_neg (by omega), if_pos h] at hw
          exact leafIs_of hw
        · rw [hw, if_neg (by omega), if_neg (by omega), if_pos h3]
        · rw [hw, if_neg (by omega), if_neg (by omega), if_neg (by rw [hr2]; exact Bool.false_ne_true), if_pos h3]
        · rw [hw, if_neg (by omega), if_neg (by omega), if_neg (by rw [hr2]; exact Bool.false_ne_true), if_neg (by omega), if_pos h4]
        · rw [if_neg (by omega), if_neg (by omega), if_neg (by rw [hr2]; exact Bool.false_ne_true), if_neg (by omega), if_neg (by omega)] at hw
          exact leafIs_of hw
      · rw [xlate, h]
      · rw [xlate, h]; rfl
      · rw [xlateFor, h]; rfl
      · intro f large x h rights hk
        exact xlateFor_leaf h hk
end

section
/-! O8: the long operations of the integer and the vector unit (R100, R133, R306): what they leave at issue. -/

namespace Sys2Proof.Machine

/-! ## The values of R133 -/

theorem divW_eq (n d : Word) : divW n d = if d = 0 then (if n.toInt < 0 then 1 else BitVec.allOnes 64) else n.sdiv d :=
  if_congr Iff.rfl rfl (BitVec.eq_of_toInt_eq (by rw [BitVec.toInt_ofInt, BitVec.toInt_sdiv]))

theorem remW_eq (n d : Word) : remW n d = if d = 0 then n else n.srem d :=
  if_congr Iff.rfl rfl (by rw [← BitVec.toInt_srem, BitVec.ofInt_toInt])

theorem divnW_eq (n d : Word) : divnW n d = if d = 0 then BitVec.allOnes 64 else n.udiv d :=
  if_congr Iff.rfl rfl (by rw [← BitVec.toNat_udiv, BitVec.ofNat_toNat, BitVec.setWidth_eq, BitVec.udiv_eq])

theorem remnW_eq (n d : Word) : remnW n d = if d = 0 then n else n.umod d :=
  if_congr Iff.rfl rfl (by rw [← BitVec.toNat_umod, BitVec.ofNat_toNat, BitVec.setWidth_eq, BitVec.umod_eq])

/-! ## The two shapes -/

section
variable {i : Instr} {s : State} {g : BitVec 3}

/-- A division whose guard fails starts nothing (R196). -/
theorem divOp_unguarded (d a b : RF) (f : Word → Word → Word) (h : runsA i s) (hg : s.guard g = false) : divOp i d a b g f s = s := by
  rw [divOp, runA_eq _ h, hg]
  rfl

/-- A guarded division within the limits of R97 starts the long operation that holds its result. -/
theorem divOp_started (d a b : RF) (f : Word → Word → Word) (h : runsA i s) (hg : s.guard g = true) (hl : s.canLong = true) :
    divOp i d a b g f s = s.freshId.addLong { s.newLong s.nextId (s.dstG d) .word with
      val := some (f (s.rdG a) (s.rdG b)).toNat, due := some (s.mine.cyc + 40) } := by
  rw [divOp, runA_eq _ h, hg, hl]
  rfl

/-- Past those limits its bundle is held. -/
theorem divOp_held (d a b : RF) (f : Word → Word → Word) (h : runsA i s) (hg : s.guard g = true) (hl : s.canLong = false) :
    divOp i d a b g f s = hold97 s := by
  rw [divOp, runA_eq _ h, hg, hl]
  rfl

/-- What a word that is a division of value `v` does at issue. -/
theorem exec_division {d a b : RF} {f : Word → Word → Word} {v : Word} (hi : exec i s = .next (divOp i d a b g f s))
    (hv : f (s.rdG a) (s.rdG b) = v) (h : runsA i s) :
    (s.guard g = false → exec i s = .next s) ∧
    (s.guard g = true → s.canLong = true → exec i s = .next (s.freshId.addLong { s.newLong s.nextId (s.dstG d) .word with
      val := some v.toNat, due := some (s.mine.cyc + 40) })) ∧
    (s.guard g = true → s.canLong = false → exec i s = .next (hold97 s)) := by
  rw [hi, ← hv]
  exact ⟨fun hg => congrArg _ (divOp_unguarded d a b f h hg), fun hg hl => congrArg _ (divOp_started d a b f h hg hl),
    fun hg hl => congrArg _ (divOp_held d a b f h hg hl)⟩

/-- A long vector word within the limits of R97 starts the long operation that holds its lanes and their flags (R306, R129). -/
theorem vecLong_started (d : BitVec 4) (m : BitVec 3) (n : Nat) (f : State → Nat → Rounded) (h : runsA i s) (hl : s.canLong = true) :
    vecLong i d m n f s = s.freshId.addLong { s.newLong s.nextId (.v d) .vec with
      val := some (masked s 0 m (s.rdV d) (f s)).1.toNat, due := some (s.mine.cyc + n), flags := (masked s 0 m (s.rdV d) (f s)).2 } := by
  rw [vecLong, runA_eq _ h, hl]
  rfl
end

end Sys2Proof.Machine

open Sys2Proof Sys2Proof.Machine

/-- Settles O8: a division is `divOp` at its value of R133, and a long vector word is `vecLong` at its lanes. -/
theorem longResults : Obligations.LongResults := by
  refine ⟨fun d a b g s p hp h => ?_, fun d a b m s p hp h hl => ?_⟩
  · simp only [List.mem_cons, List.not_mem_nil, or_false] at hp
    rcases hp with rfl | rfl | rfl | rfl
    · exact exec_division rfl (divW_eq ..) h
    · exact exec_division rfl (divnW_eq ..) h
    · exact exec_division rfl (remW_eq ..) h
    · exact exec_division rfl (remnW_eq ..) h
  · simp only [List.mem_cons, List.not_mem_nil, or_false] at hp
    rcases hp with rfl | rfl | rfl | rfl | rfl | rfl <;> exact congrArg _ (vecLong_started d m _ _ h hl)
end

section
/-! O4: every step keeps the canonical form of memory (log 3, R134). Nothing in the model writes memory but through `memWrite` and
`memSetAll`, which keep that form, and through a filter of the list, which keeps it too. One rule per operation of the model says that
what the operation returns is canonical when the state it was given is; the rules follow the model file by file, up to the step.

What it means that a state, an outcome, or an engine's work is canonical, and the rules of the control structure. -/

namespace Sys2Proof.Machine

/-- Memory is in the canonical form. -/
def State.Canon (s : State) : Prop := s.mem.wf = true

/-- The state that a word comes to, if it comes to one, is canonical. -/
def Res.Canon : Res → Prop
  | .ok s | .fault s _ => s.Canon
  | _ => True

/-- The next state, if there is one, is canonical. -/
def OutCanon : Out → Prop
  | .next s => s.Canon
  | _ => True

/-- The state, if there is one, is canonical. -/
def OptCanon : Option State → Prop
  | some s => s.Canon
  | none => True

/-- The state of an engine at work is canonical. -/
def Eng.Canon (x : Eng) : Prop := x.s.Canon

/-- Work ends with a canonical state, whether it comes to a value or not. -/
def Work.Canon {α : Type} (w : Work α) : Prop := w.eng.Canon

/-- Every word and event of a meaning keeps memory canonical. -/
def MeaningCanon (ex : Instr → State → Out) : Prop := ∀ i u, u.Canon → OutCanon (ex i u)

section
variable {p : Prop} [Decidable p]

theorem canon_ite {a b : State} (ha : a.Canon) (hb : b.Canon) : (if p then a else b).Canon := by split <;> assumption
theorem resCanon_ite {a b : Res} (ha : a.Canon) (hb : b.Canon) : (if p then a else b).Canon := by split <;> assumption
theorem outCanon_ite {a b : Out} (ha : OutCanon a) (hb : OutCanon b) : OutCanon (if p then a else b) := by split <;> assumption
theorem optCanon_ite {a b : Option State} (ha : OptCanon a) (hb : OptCanon b) : OptCanon (if p then a else b) := by split <;> assumption
theorem engCanon_ite {a b : Eng} (ha : a.Canon) (hb : b.Canon) : (if p then a else b).Canon := by split <;> assumption
theorem workCanon_ite {α : Type} {a b : Work α} (ha : a.Canon) (hb : b.Canon) : (if p then a else b).Canon := by split <;> assumption
end

section
variable {s t : State}

theorem canon_foldl {α : Type} {f : State → α → State} {l : List α} (hf : ∀ u a, u.Canon → (f u a).Canon) (hs : s.Canon) :
    (l.foldl f s).Canon := foldl_holds State.Canon f hf l s hs

theorem engCanon_foldl {α : Type} {f : Eng → α → Eng} {l : List α} {x : Eng} (hf : ∀ y a, y.Canon → (f y a).Canon) (hx : x.Canon) :
    (l.foldl f x).Canon := foldl_holds Eng.Canon f hf l x hx

theorem canon_of_some {o : Option State} (ho : OptCanon o) (h : o = some t) : t.Canon := by subst h; exact ho
theorem canon_of_ok {r : Res} (hr : r.Canon) (h : r = .ok t) : t.Canon := by subst h; exact hr
theorem canon_of_next {o : Out} (ho : OutCanon o) (h : o = .next t) : t.Canon := by subst h; exact ho
theorem engCanon_of_ok {α : Type} {w : Work α} {x : Eng} {v : α} (hw : w.Canon) (h : w = .ok x v) : x.Canon := by subst h; exact hw
theorem engCanon_of_stop {α : Type} {w : Work α} {x : Eng} {e : CopyErr} (hw : w.Canon) (h : w = .stop x e) : x.Canon := by
  subst h; exact hw

/-- An operation that leaves memory alone. -/
theorem canon_of_mem (h : t.mem = s.mem) (hs : s.Canon) : t.Canon := by
  unfold State.Canon
  rw [h]
  exact hs

theorem canon_memWrite {k : Nat} {bs : List Byte} (hs : s.Canon) : ({ t with mem := memWrite s.mem k bs } : State).Canon :=
  Mem.wf_memWrite _ _ _ hs

theorem canon_memSetAll {cs : List (Nat × Byte)} (hs : s.Canon) : ({ t with mem := memSetAll s.mem cs } : State).Canon :=
  Mem.wf_memSetAll _ _ hs

variable {c : CoreId} {n : SlotNo} {d : BitVec 2} {e : Nat}

theorem canon_setCore {k : Core} (hs : s.Canon) : (s.setCore c k).Canon := hs
theorem canon_modCore {f : Core → Core} (hs : s.Canon) : (s.modCore c f).Canon := hs
theorem canon_modCtx {f : Ctx → Ctx} (hs : s.Canon) : (s.modCtx c n f).Canon := hs
theorem canon_modMe {f : Ctx → Ctx} (hs : s.Canon) : (s.modMe f).Canon := hs
theorem canon_modMine {f : Core → Core} (hs : s.Canon) : (s.modMine f).Canon := hs
theorem canon_modDie {f : Die → Die} (hs : s.Canon) : (s.modDie d f).Canon := hs
theorem canon_countCtx (hs : s.Canon) : (s.countCtx c n e).Canon := hs
theorem canon_countDie (hs : s.Canon) : (s.countDie d e).Canon := hs
theorem canon_modLaunch {w : BitVec 16} {f : Launch → Launch} (hs : s.Canon) : (s.modLaunch w f).Canon := canon_of_mem (mem_modLaunch ..) hs
end

end Sys2Proof.Machine
end

section
/-! O4: options, and a filter of memory. -/

namespace Sys2Proof.Machine

variable {s : State} {o : Option State} {m : Mem} {p : Nat × Byte → Bool}

theorem canon_getD (ho : OptCanon o) (hs : s.Canon) : (o.getD s).Canon := by
  cases o
  · exact hs
  · exact ho

theorem canon_map {f : State → State} (hf : ∀ u, u.Canon → (f u).Canon) (ho : OptCanon o) : OptCanon (o.map f) := by
  cases o
  · trivial
  · exact hf _ ho

/-- A part of a canonical list is canonical: what was above a key stays above it. -/
theorem Mem.wf_filter (h : m.wf = true) : Mem.wf (m.filter p) = true ∧ ∀ j, Mem.above j m = true → Mem.above j (m.filter p) = true := by
  induction m with
  | nil => exact ⟨rfl, fun _ h => h⟩
  | cons q t ih =>
    obtain ⟨k, b⟩ := q
    rw [Mem.wf_cons] at h
    simp only [Bool.and_eq_true] at h
    obtain ⟨⟨hb, hk⟩, ht⟩ := h
    obtain ⟨hwf, habove⟩ := ih ht
    rw [List.filter_cons]
    split
    · refine ⟨?_, fun j hj => hj⟩
      rw [Mem.wf_cons, hb, habove k hk, hwf]; rfl
    · exact ⟨hwf, fun j hj => habove j (Mem.above_trans hk (by simpa [Mem.above] using hj))⟩

theorem canon_filter (h : m.wf = true) : Mem.wf (m.filter p) = true := (Mem.wf_filter h).1

end Sys2Proof.Machine
end

section
/-! O4: a write of a register or of a unit's state leaves memory alone. -/

namespace Sys2Proof.Machine

variable {s : State} {x : Word}

theorem canon_setHalf {h : BitVec 9} {x : Half} (hs : s.Canon) : (s.setHalf h x).Canon := hs
theorem canon_wrG {r : RF} (hs : s.Canon) : (s.wrG r x).Canon := canon_of_mem (State.wrG_mem ..) hs
theorem canon_wrP {r : BitVec 3} (hs : s.Canon) : (s.wrP r x).Canon := canon_of_mem (State.wrP_mem ..) hs
theorem canon_orFlags {f : BitVec 6} (hs : s.Canon) : (s.orFlags f).Canon := hs

end Sys2Proof.Machine
end

section
/-! O4: an access updates frame descriptors (R143, R150), and nothing else in memory. -/

namespace Sys2Proof.Machine

variable {s : State} {d : BitVec 2} {pool priv dec : Bool} {t : Tenant} {va quad kind n : Nat}

/-- R150: on a miss the walk updates the descriptor of the frame found. -/
theorem canon_touch (hs : s.Canon) : (touch s d pool t va quad kind priv dec).Canon := by
  unfold touch
  dsimp only
  split
  · exact hs
  · split
    · exact canon_modDie hs
    · split
      · exact canon_modDie hs
      · refine canon_modDie ?_
        split
        · exact canon_modDie (canon_memWrite (canon_modDie hs))
        · exact canon_modDie hs

theorem canon_touchSpan (hs : s.Canon) : (touchSpan s d pool t va n quad kind priv dec).Canon :=
  canon_ite (canon_touch hs) (canon_touch (canon_touch hs))

theorem canon_touchOwn {q : Word} (hs : s.Canon) : (s.touchOwn q n kind).Canon := canon_ite (canon_touchSpan hs) hs

end Sys2Proof.Machine
end

section
/-! O4: counters and trace records leave memory alone. -/

namespace Sys2Proof.Machine

variable {s : State} {c : CoreId} {n : SlotNo} {u : List (BitVec 128)} {code : Nat}

theorem canon_countCore {ev m : Nat} (hs : s.Canon) : (s.countCore c ev m).Canon := hs
theorem canon_markIssue (hs : s.Canon) : (s.markIssue c n).Canon := canon_of_mem (mem_markIssue ..) hs
theorem canon_offer (hs : s.Canon) : (s.offer c u).Canon := canon_of_mem (mem_offer ..) hs
theorem canon_offerIf {bit : Nat} (hs : s.Canon) : (s.offerIf c bit u).Canon := canon_of_mem (mem_offerIf ..) hs
theorem canon_offerKept (hs : s.Canon) : (s.offerKept c).Canon := canon_of_mem (mem_offerKept ..) hs
theorem canon_traceIssue {pc bundle : Word} (hs : s.Canon) : (s.traceIssue c n pc bundle).Canon := canon_ite (canon_offer hs) hs
theorem canon_traceStart {src : Nat} (hs : s.Canon) : (s.traceStart c n src).Canon := canon_offerIf hs

theorem canon_traceEvent {p : Nat} {ext : List (BitVec 128)} (hs : s.Canon) : (s.traceEvent c n code p ext).Canon :=
  canon_of_mem (mem_traceEvent ..) hs

theorem canon_tracePre (hs : s.Canon) : (s.tracePre c code).Canon := canon_offerIf hs

theorem canon_traceDebug {skid cause entry kind : Nat} (hs : s.Canon) : (s.traceDebug c n skid cause entry kind).Canon :=
  canon_ite (canon_offerIf hs) (canon_offerIf hs)

theorem canon_traceUser {x : Word} (hs : s.Canon) : (s.traceUser c n x).Canon := canon_offerIf hs

theorem canon_traceSlot {cls : List (BitVec 2)} {ready : Nat} {rot : BitVec 40} (hs : s.Canon) : (s.traceSlot c cls ready rot).Canon :=
  canon_ite (canon_offer hs) hs

theorem canon_traceCounts {k : Core} (hs : s.Canon) : (s.traceCounts c k).Canon := canon_foldl (fun _ _ hu => canon_offer hu) hs

end Sys2Proof.Machine
end

section
/-! O4: the shared operations: requests, squash and commit of chunks, traps, waits, and the frames of the meanings. -/

namespace Sys2Proof.Machine

variable {s : State} {node id : Nat} {op : State → State} {l : LongOp} {c : CoreId} {n : SlotNo} {d : BitVec 2} {rs : List StoreRec}
  {e : ErrOp} {p : Pend} {i : Instr} {body : State → Res} {next : Bool} {chk : State → Option Trap} {hold : State → Option Bool}
  {done : State → Wait → Option State}

theorem canon_emit {ps : List Packet} (hs : s.Canon) : (s.emit node ps).Canon := canon_of_mem (mem_emit ..) hs

theorem canon_note {dest vc op : Nat} {w : Ident} {addr : Word} {data : List Byte} (hs : s.Canon) : (s.note node dest vc op w addr data).Canon :=
  canon_of_mem (mem_note ..) hs

theorem canon_send {r : Req} (hs : s.Canon) : (s.send r).Canon := canon_of_mem (mem_send ..) hs

theorem canon_sendCancel {orphan : Bool} (hs : s.Canon) : (s.sendCancel id orphan).Canon := by
  unfold State.sendCancel
  split
  · exact canon_ite hs (canon_note hs)
  · exact hs

theorem canon_dropReq (hs : s.Canon) : (s.dropReq id).Canon := canon_of_mem (State.dropReq_mem ..) hs
theorem canon_draw (hs : s.Canon) : s.draw.Canon := canon_of_mem (State.draw_mem ..) hs
theorem canon_addLong (hs : s.Canon) : (s.addLong l).Canon := hs
theorem canon_freshId (hs : s.Canon) : s.freshId.Canon := canon_of_mem (State.freshId_mem ..) hs
theorem canon_modChunk {f : Chunk → Chunk} (hs : s.Canon) : (s.modChunk f).Canon := hs
theorem canon_requestToken (hs : s.Canon) : (requestToken s c n).Canon := canon_of_mem (mem_requestToken ..) hs
theorem canon_releaseToken (hs : s.Canon) : (releaseToken s c n).Canon := canon_of_mem (mem_releaseToken ..) hs
theorem canon_squash (hs : s.Canon) : (squash s c n).Canon := canon_of_mem (mem_squash ..) hs

theorem canon_squashMeeting {except_ : Option (CoreId × SlotNo)} {lines : List Nat} (hs : s.Canon) : (squashMeeting s d except_ lines).Canon :=
  canon_of_mem (mem_squashMeeting ..) hs

/-- R169: the bytes are written, and the chunks that have read them are squashed. -/
theorem canon_writeSquash {k : Nat} {bs : List Byte} (hs : s.Canon) : (writeSquash s k bs).Canon :=
  canon_ite hs (canon_squashMeeting (canon_memWrite hs))

theorem canon_sendStores (hs : s.Canon) : (sendStores s c n rs).Canon := canon_of_mem (mem_sendStores ..) hs

theorem canon_cancelWait (hs : s.Canon) : (cancelWait s c n).Canon := by
  unfold cancelWait
  dsimp only
  split
  · exact hs
  · split
    · exact canon_sendCancel (canon_ite (canon_modDie hs) hs)
    · exact canon_ite (canon_modDie hs) hs

theorem canon_dropWork (hs : s.Canon) : (dropWork s c n).Canon := by
  unfold dropWork
  exact canon_modCore (canon_releaseToken (canon_squash (canon_cancelWait hs)))

theorem canon_endContext (hs : s.Canon) : (endContext s c n).Canon := by
  unfold endContext
  exact canon_modCore (canon_dropWork hs)

theorem canon_composeError {ended lost : Bool} (hs : s.Canon) : (composeError s c e ended lost).Canon := canon_of_mem (mem_composeError ..) hs

theorem canon_chargeError {occ : Nat} (hs : s.Canon) : (chargeError s c occ e).Canon :=
  canon_ite (canon_composeError hs) (canon_ite (canon_modCtx (canon_composeError hs)) (canon_endContext (canon_modLaunch (canon_composeError hs))))

theorem canon_violate (hs : s.Canon) : (violate s c n).Canon := canon_of_mem (mem_violate ..) hs
theorem canon_countStores (hs : s.Canon) : (countStores s d rs).Canon := canon_of_mem (mem_countStores ..) hs

/-- R167: a commit writes the near stores of the chunk in one update. -/
theorem canon_performChunk {ch : Chunk} (hs : s.Canon) : (performChunk s c n ch).Canon := by
  unfold performChunk
  extract_lets x refused s₁ s₂ s₃ s₄ s₅ s₆ s₇ s₈
  have h₅ : s₅.Canon := canon_squashMeeting (canon_sendStores (canon_releaseToken (canon_modCtx (canon_memSetAll hs))))
  have h₇ : s₇.Canon := canon_countStores (canon_countDie (canon_countCtx h₅))
  exact canon_foldl (fun _ _ hu => canon_chargeError hu) (canon_ite (canon_violate h₇) h₇)

theorem canon_commitChunk (hs : s.Canon) : (commitChunk s c n).1.Canon := by
  unfold commitChunk
  split
  · exact hs
  · split
    · exact canon_squash hs
    · exact canon_performChunk hs

theorem canon_stopCore (hs : s.Canon) : (stopCore s c).Canon := hs
theorem canon_traceTrap (hs : s.Canon) : (s.traceTrap c n p).Canon := canon_of_mem (traceTrap_mem ..) hs

/-- A trap writes eight words to the trap block of the core, unless it waits or stops the core (R342). -/
theorem canon_enterPriv (hs : s.Canon) : (enterPriv s c n p).Canon := by
  unfold enterPriv
  extract_lets k x t v w
  have hw : w.Canon := canon_modCore (canon_memWrite (canon_traceTrap hs))
  exact canon_ite (canon_ite (canon_stopCore (canon_modCtx hs)) (canon_modCtx hs)) (canon_ite hw (canon_stopCore hw))

theorem canon_enterUpcall (hs : s.Canon) : (enterUpcall s c n p).Canon := canon_modCore (canon_traceTrap hs)
theorem canon_takeBank (hs : s.Canon) : (takeBank s c n p).Canon := hs

theorem canon_enterHandler (hs : s.Canon) : (enterHandler s c n p).Canon :=
  canon_ite (canon_takeBank (canon_traceTrap hs)) (canon_modCore (canon_traceTrap hs))

theorem canon_freezeCtx (hs : s.Canon) : (freezeCtx s c n).Canon := hs

theorem canon_broadcastFreeze {cl : BitVec 8} {cause : Nat} {mark : List Nat} (hs : s.Canon) : (broadcastFreeze s cl cause mark).Canon :=
  canon_ite hs (canon_foldl (fun _ _ hu => canon_modCore hu) hs)

theorem canon_deliver (hs : s.Canon) : (deliver s c n p).Canon := by
  unfold deliver
  extract_lets e u
  have hu : u.Canon := canon_ite (canon_modCtx hs) hs
  exact canon_ite (canon_freezeCtx hu) (canon_ite (canon_enterHandler hu) (canon_ite (canon_enterPriv hu) (canon_enterUpcall hu)))

theorem canon_hitFreeze (hs : s.Canon) : (hitFreeze s c p).Canon := canon_ite (canon_broadcastFreeze hs) hs

theorem canon_raiseAs {f : Fate} (hs : s.Canon) : (raiseAs s f p).Canon := by
  unfold raiseAs
  extract_lets c n i s₁ s₂ r
  have h₂ : s₂.Canon := canon_hitFreeze (canon_ite (canon_countCtx hs) hs)
  have hr : r.1.Canon := canon_commitChunk h₂
  refine canon_ite hs ?_
  split
  · exact canon_deliver h₂
  · exact canon_ite (canon_deliver (canon_modMe h₂)) (canon_ite (canon_modChunk h₂) (canon_ite (canon_deliver hr) hr))

theorem canon_raise {t : Trap} (hs : s.Canon) : (raise s t).Canon :=
  canon_ite hs (canon_ite (canon_ite hs (canon_raiseAs (canon_traceDebug hs))) (canon_raiseAs hs))

theorem canon_discardLong (hs : s.Canon) : (discardLong s c n id).Canon := hs
theorem canon_keepReplays (hs : s.Canon) : (keepReplays s c n id).Canon := canon_of_mem (mem_keepReplays ..) hs

theorem canon_deferFault {cause : BitVec 8} {i0 i1 : Word} (hs : s.Canon) : (deferFault s c n l cause i0 i1).Canon :=
  canon_ite (canon_modCtx (canon_discardLong (canon_squash hs))) (canon_modCore (canon_keepReplays (canon_squash hs)))

theorem canon_wakeCtx {sbit : Bool} (hs : s.Canon) : (wakeCtx s c n sbit).Canon := hs

theorem canon_retTrap (hs : s.Canon) : (retTrap s).Canon :=
  canon_ite (canon_endContext (canon_modMine (canon_modMine hs))) (canon_modMe (canon_modMine hs))

theorem canon_retUpcall (hs : s.Canon) : (retUpcall s).Canon := canon_modMe (canon_modMine (canon_wrG (canon_wrG hs)))
theorem canon_retHandler (hs : s.Canon) : (retHandler s).Canon := canon_ite (canon_modMe (canon_modMine hs)) (canon_of_mem rfl (canon_deliver hs))

theorem canon_replayAll (hs : s.Canon) : (replayAll s c n).Canon := by
  unfold replayAll
  refine canon_modCtx ?_
  refine canon_foldl (fun _ _ hu => ?_) hs
  split
  · exact hu
  · exact canon_modCtx (canon_send hu)

theorem canon_setPc {pc : Word} (hs : s.Canon) : (s.setPc pc).Canon := hs
theorem canon_advance (hs : s.Canon) : s.advance.Canon := hs
theorem canon_markViol (hs : s.Canon) : (s.markViol i).Canon := canon_of_mem (markViol_mem ..) hs
theorem canon_endBefore (hs : s.Canon) : (endBefore s).Canon := canon_ite (canon_modChunk hs) (canon_commitChunk hs)

/-- What a word comes to is canonical, or it traps or is held, from the state it began in. -/
theorem canon_settle {r : Res} (hr : r.Canon) (hs : s.Canon) : (settle s r).Canon := by
  cases r with
  | ok u => exact hr
  | trap t => exact canon_raise hs
  | fault u t => exact canon_ite (canon_raise hs) (canon_raise hr)
  | hold b => exact canon_ite hs hs
  | full => exact canon_endBefore hs

theorem canon_runC (hs : s.Canon) (hb : ∀ u, u.Canon → (body u).Canon) : (runC i s body).Canon := by
  unfold runC
  dsimp only
  have ho : (s.openChunk s.iss.core s.iss.slot).Canon := hs
  generalize s.openChunk s.iss.core s.iss.slot = u at ho ⊢
  split
  · exact canon_raise ho
  · split
    · exact canon_raise ho
    · have hr := hb u ho
      split
      · next t ht => rw [ht] at hr; exact canon_advance (canon_markViol hr)
      · exact canon_settle hr ho

theorem canon_runJ (hs : s.Canon) (hbody : ∀ u, u.Canon → (body u).Canon) : (runJ i s body).Canon := by
  unfold runJ
  dsimp only
  split
  · exact canon_raise hs
  · exact canon_settle (hbody _ hs) hs

theorem canon_runA (hs : s.Canon) (hbody : ∀ u, u.Canon → (body u).Canon) : (runA i s body).Canon := by
  unfold runA
  split
  · exact canon_raise hs
  · exact canon_settle (hbody _ hs) hs

theorem canon_commitThen {op : State → State → State} (hs : s.Canon) (hop : ∀ u v, u.Canon → v.Canon → (op u v).Canon) :
    (commitThen i s op).Canon :=
  canon_ite (hop _ _ (canon_commitChunk hs) (canon_ite (canon_violate (canon_commitChunk hs)) (canon_commitChunk hs)))
    (canon_of_mem rfl (canon_commitChunk hs))

theorem canon_orDefer {held : Option Bool} {e : Vector Word 8} (hop : ∀ u, u.Canon → (op u).Canon) (hs : s.Canon) :
    (orDefer i held e op s).Canon := by
  unfold orDefer
  split
  · exact hop _ hs
  · exact canon_modMe hs

/-- The frame of the words that end a chunk: what they do begins after the commit. -/
theorem canon_endFrame {op : State → State → State} (hs : s.Canon) (hop : ∀ u v, u.Canon → v.Canon → (op u v).Canon) :
    (endFrame i s next chk hold op).Canon := by
  unfold endFrame
  dsimp only
  split
  · exact canon_raise hs
  · split
    · exact canon_raise hs
    · split
      · exact canon_raise hs
      · split
        · exact hs
        · split
          · exact canon_settle trivial hs
          · exact canon_commitThen hs hop

theorem canon_runE (hs : s.Canon) (hop : ∀ u, u.Canon → (op u).Canon) : (runE i s next chk hold op).Canon :=
  canon_endFrame hs fun _ _ _ hv => hop _ hv

theorem canon_runR {e : Vector Word 8} (hs : s.Canon) (hop : ∀ u, u.Canon → (op u).Canon) : (runR i s next chk hold e op).Canon :=
  canon_endFrame hs fun _ _ _ hv => canon_orDefer hop hv

theorem canon_walkPage {p : Word} {n kind : Nat} {t : Option Trap} (hs : s.Canon) : (walkPage i s p n kind t).Canon :=
  canon_ite (canon_touchOwn hs) hs

theorem canon_beginWait {w : Wait} (hd : OptCanon (done s w)) (hs : s.Canon) : (beginWait s w done).Canon := by
  unfold beginWait
  split
  · next t ht => rw [ht] at hd; exact canon_advance hd
  · exact hs

theorem canon_runW {mk : State → Wait} (hs : s.Canon) (hdone : ∀ u w, u.Canon → OptCanon (done u w)) : (runW i s chk mk done).Canon := by
  unfold runW
  dsimp only
  split
  · exact canon_raise hs
  · split
    · exact canon_raise hs
    · split
      · exact canon_raise hs
      · exact canon_beginWait (hdone _ _ (canon_markViol hs)) (canon_markViol hs)

theorem canon_runEW {mk : State → State × Wait} (hs : s.Canon) (hmk : ∀ u, u.Canon → (mk u).1.Canon) (hd : ∀ u w, u.Canon → OptCanon (done u w)) :
    (runEW i s chk mk done).Canon := canon_runE hs fun u hu => canon_beginWait (hd _ _ (hmk u hu)) (hmk u hu)

end Sys2Proof.Machine
end

section
/-! O4: the issue of a bundle, for any meaning of its words that keeps memory canonical. -/

namespace Sys2Proof.Machine

variable {s : State} {ex : Instr → State → Out} {c : CoreId} {n : SlotNo} {sbit : Bool}

theorem canon_touchFetch (hs : s.Canon) : (touchFetch s).Canon := canon_ite (canon_touch hs) hs
theorem canon_breakHit {e : Dbg} (hs : s.Canon) : (breakHit s e).Canon := canon_ite hs (canon_raiseAs (canon_traceDebug hs))

theorem canon_afterIssue {o : Out} {f : State → Out} (ho : OutCanon o) (hf : ∀ u, u.Canon → OutCanon (f u)) : OutCanon (afterIssue o f) := by
  unfold afterIssue
  split
  · exact hf _ ho
  · exact ho

theorem canon_runPair {c a : Instr} (hex : MeaningCanon ex) (hs : s.Canon) : OutCanon (runPair ex c a s) := by
  unfold runPair
  split
  · exact canon_raise hs
  · refine canon_afterIssue (hex _ _ hs) fun r hr => outCanon_ite hr ?_
    refine canon_afterIssue (hex _ _ hs) fun t ht => outCanon_ite ht ?_
    split
    · exact canon_raise hs
    · have hi : (s.traceIssue s.iss.core s.iss.slot s.iss.pc s.iss.bundle).Canon := canon_traceIssue hs
      refine outCanon_ite hr (outCanon_ite ht (outCanon_ite hs (outCanon_ite ?_ ?_)))
      · exact canon_afterIssue (hex _ _ hi) fun u hu => outCanon_ite (hex _ _ hu) hu
      · exact canon_afterIssue (hex _ _ hi) fun u hu => hex _ _ hu

theorem canon_runLone {i : Instr} (hex : MeaningCanon ex) (hs : s.Canon) : OutCanon (runLone ex i s) := by
  refine canon_afterIssue (hex _ _ hs) fun _ hu => ?_
  split
  · exact hu
  · split
    · exact canon_raise hs
    · exact outCanon_ite (hex _ _ (canon_traceIssue hs)) hu

theorem canon_endChunkAfter (hs : s.Canon) : (endChunkAfter s c n).Canon := by
  unfold endChunkAfter
  dsimp only
  split
  · exact canon_modCtx hs
  · exact canon_ite (canon_ite (canon_modCtx (canon_modCtx hs)) (canon_commitChunk (canon_modCtx hs))) (canon_modCtx hs)

theorem canon_endStep (hs : s.Canon) : (endStep s c n).Canon :=
  canon_ite (canon_ite (canon_traceDebug (canon_modCtx (canon_modCore hs))) (canon_modCtx (canon_modCore hs))) hs

theorem canon_issued {first : Bool} (hs : s.Canon) : (issued s sbit first).Canon := by
  unfold issued
  extract_lets c n s₁ s₂ s₃
  have h₂ : s₂.Canon := canon_modCtx (canon_markIssue (canon_countCtx hs))
  exact canon_endStep (canon_endChunkAfter (canon_ite (canon_modCore h₂) h₂))

theorem canon_settleBundle {x : Ctx} {r : State} (hs : r.Canon) : (settleBundle x sbit r).Canon := by
  unfold settleBundle
  split
  · exact canon_issued hs
  · exact canon_issued hs
  · exact canon_modMe hs
  · exact canon_modMe hs
  · exact canon_endStep hs

theorem canon_issueWords {w0 w1 : W32} (hex : MeaningCanon ex) (hs : s.Canon) : OutCanon (issueWords ex s w0 w1) := by
  unfold issueWords
  split
  · exact canon_afterIssue (hex _ _ hs) fun _ hu => canon_settleBundle hu
  · exact outCanon_ite hs (canon_afterIssue (canon_runPair hex hs) (fun _ hu => canon_settleBundle hu))
  · exact outCanon_ite hs (canon_afterIssue (canon_runLone hex hs) (fun _ hu => canon_settleBundle hu))

theorem canon_fetched (hex : MeaningCanon ex) (hs : s.Canon) : OutCanon (issueTurn.fetched ex s) := by
  unfold issueTurn.fetched
  dsimp only
  split
  · exact hs
  · split
    · exact canon_settleBundle (canon_settle (resCanon_ite (canon_touchFetch hs) trivial) hs)
    · split
      · exact canon_settleBundle (canon_breakHit (canon_touchFetch hs))
      · exact canon_issueWords hex (canon_touchFetch hs)

theorem canon_issueTurn (hex : MeaningCanon ex) (hs : s.Canon) : OutCanon (issueTurn ex s c n) := by
  unfold issueTurn
  dsimp only
  split
  · exact outCanon_ite (outCanon_ite hs (canon_endStep (canon_raiseAs (canon_modMe hs)))) (canon_fetched hex hs)
  · exact canon_fetched hex hs

end Sys2Proof.Machine
end

section
/-! O4: the shapes of the integer words. -/

namespace Sys2Proof.Machine

variable {s : State} {i : Instr} {d a b : RF} {g : BitVec 3} {f : Word → Word → Word}

theorem canon_aluW {f : State → Word} (hs : s.Canon) : (aluW i d g f s).Canon := canon_runA hs fun _ hu => canon_ite (canon_wrG hu) hu
theorem canon_aluRR (hs : s.Canon) : (aluRR i d a b g f s).Canon := canon_aluW hs

theorem canon_divOp (hs : s.Canon) : (divOp i d a b g f s).Canon :=
  canon_runA hs fun _ hu => resCanon_ite hu (resCanon_ite trivial (canon_addLong hu))

end Sys2Proof.Machine
end

section
/-! O4: the pointer words. -/

namespace Sys2Proof.Machine

variable {s : State}

theorem canon_ptrOp {i : Instr} {d : RF} {g : BitVec 3} {f : State → Except Trap Word} (hs : s.Canon) : (ptrOp i d g f s).Canon := by
  refine canon_runA hs fun _ hu => ?_
  split
  · exact hu
  · split
    · exact canon_wrG hu
    · exact trivial

end Sys2Proof.Machine
end

section
/-! O4: control transfers. -/

namespace Sys2Proof.Machine

variable {s : State}

theorem canon_execUnassignedEncoding {w0 w1 : W32} (hs : s.Canon) : OutCanon (execUnassignedEncoding w0 w1 s) := by
  unfold execUnassignedEncoding
  split
  · exact canon_raise hs
  · exact hs

theorem canon_goto {t : Option Word} (hs : s.Canon) : (goto s t).Canon := by
  unfold goto
  split
  · exact hs
  · exact trivial

theorem canon_execCall {d : BitVec 24} (hs : s.Canon) : OutCanon (execCall d s) := by
  refine canon_runJ hs fun _ hu => ?_
  split
  · exact canon_setPc (canon_wrG hu)
  · exact trivial

theorem canon_jumpTo {t : Word} (hs : s.Canon) : (jumpTo s t).Canon := resCanon_ite hs trivial

theorem canon_execLoop {a : RF} {d : BitVec 18} (hs : s.Canon) : OutCanon (execLoop a d s) := by
  unfold execLoop
  dsimp only
  refine canon_runJ hs fun _ hu => ?_
  split
  · exact canon_setPc (canon_wrG hu)
  · exact trivial

theorem canon_donePark {w : Wait} (hs : s.Canon) : OptCanon (donePark s w) := optCanon_ite hs trivial

end Sys2Proof.Machine
end

section
/-! O4: helper control. -/

namespace Sys2Proof.Machine

variable {s : State} {w : Wait} {a : RF}

theorem canon_retire (hs : s.Canon) : (retire s).Canon := hs
theorem canon_doneHjoin (hs : s.Canon) : OptCanon (doneHjoin s w) := optCanon_ite hs trivial
theorem canon_doneHsave (hs : s.Canon) : OptCanon (doneHsave s w) := optCanon_ite hs (optCanon_ite trivial (canon_writeSquash hs))

theorem canon_execHload {b : RF} (hs : s.Canon) : OutCanon (execHload a b s) := by
  refine canon_runE hs fun _ hu => ?_
  split
  · exact canon_advance (canon_modCtx hu)
  · exact canon_advance hu

theorem canon_execHresume (hs : s.Canon) : OutCanon (execHresume a s) := by
  refine canon_runE hs fun _ hu => ?_
  split
  · exact canon_advance (canon_modCtx hu)
  · exact canon_advance hu

end Sys2Proof.Machine
end

section
/-! O4: system words. -/

namespace Sys2Proof.Machine

variable {s : State}

theorem canon_trapAfter {cause : BitVec 8} {i0 : Word} (hs : s.Canon) : (trapAfter s cause i0).Canon := canon_of_mem rfl (canon_deliver hs)

end Sys2Proof.Machine
end

section
/-! O4: the key map. -/

namespace Sys2Proof.Machine

variable {s : State} {a : RF}

theorem canon_kmOp {i : Instr} {f : State → KeyMap → KeyMap × Word} (hs : s.Canon) : (kmOp i s a f).Canon :=
  canon_runE hs fun _ hu => canon_advance (canon_wrG hu)

theorem canon_kreadyOp {x : Word} (hs : s.Canon) : (kreadyOp x s).Canon := hs
theorem canon_doneKwait {w : Wait} (hs : s.Canon) : OptCanon (doneKwait a s w) := optCanon_ite trivial (canon_wrG hs)

theorem canon_kloadBody {b c : RF} (hs : s.Canon) : (kloadBody a b c s).Canon := by
  unfold kloadBody
  dsimp only
  split
  · exact trivial
  · split
    · exact hs
    · split
      · exact hs
      · exact canon_wrG (canon_modChunk (canon_countCtx hs))

end Sys2Proof.Machine
end

section
/-! O4: control registers. -/

namespace Sys2Proof.Machine

variable {s : State} {n : BitVec 12} {x : Word} {op : Nat} {a : RF}

theorem canon_modR {f : CoreRegs → CoreRegs} (hs : s.Canon) : (s.modR f).Canon := hs

/-- Each of the writable registers is a field outside memory. -/
theorem canon_crWrite {n : Nat} (hs : s.Canon) : (crWrite s n x).Canon := by
  unfold crWrite
  dsimp only
  iterate 26 refine canon_ite hs ?_
  exact hs

theorem canon_crStore (hs : s.Canon) : (crStore s op n x).Canon := canon_ite (canon_modR (canon_crWrite hs)) (canon_crWrite hs)

theorem canon_crWriteOp {i : Instr} (hs : s.Canon) : (crWriteOp i op a n s).Canon := by
  unfold crWriteOp
  split
  · exact canon_runE hs fun _ hu => canon_advance (canon_crStore hu)
  · refine canon_runC hs fun _ hu => ?_
    split
    · exact trivial
    · exact canon_crStore hu

theorem canon_execCrr (hs : s.Canon) : OutCanon (execCrr a n s) := by
  refine canon_runC hs fun _ hu => ?_
  split
  · exact trivial
  · exact canon_wrG hu

end Sys2Proof.Machine
end

section
/-! O4: loads and stores. -/

namespace Sys2Proof.Machine

variable {s : State} {q p : Word} {n align : Nat} {dst : Dst} {conv : Conv} {t : BitVec 3} {bs : List Byte} {v x : BitVec 4} {b c : RF}

theorem canon_addRead {ks : List Nat} (hs : s.Canon) : (s.addRead ks).Canon := hs
theorem canon_startLoad (hs : s.Canon) : (startLoad s q n dst conv).Canon := canon_of_mem (startLoad_mem ..) hs

theorem canon_watched {kind : Nat} {f : Unit → Res} (hf : ∀ a, (f a).Canon) : (watched s q n kind f).Canon := by
  unfold watched
  split
  · exact trivial
  · exact hf _

theorem canon_loadAt {wr : State → List Byte → Res} (hs : s.Canon) (hwr : ∀ u bs, u.Canon → (wr u bs).Canon) :
    (loadAt s q n align dst conv wr).Canon := by
  unfold loadAt
  dsimp only
  split
  · exact trivial
  · split
    · split
      · exact canon_watched fun _ => canon_countCtx (canon_addRead (canon_of_ok (hwr _ _ hs) ‹_›))
      · exact hwr _ _ hs
    · exact canon_watched fun _ => resCanon_ite trivial (resCanon_ite (canon_addLong hs) (canon_startLoad hs))

theorem canon_scalarLoad {a : RF} {zx : Bool} (hs : s.Canon) : (scalarLoad s a q n zx).Canon := by
  unfold scalarLoad
  exact canon_loadAt hs fun _ _ hu => canon_wrG hu

theorem canon_withEA {y : Int} {f : Word → Res} (hf : ∀ a, (f a).Canon) : (withEA s p y f).Canon := by
  unfold withEA
  split
  · exact hf _
  · exact trivial

theorem canon_buffer {rs : List StoreRec} (hs : s.Canon) : (s.buffer rs).Canon := hs
theorem canon_storeTrap {t : Trap} (hs : s.Canon) : (storeTrap s q n t).Canon := resCanon_ite (canon_touchOwn hs) trivial

theorem canon_storeAt (hs : s.Canon) : (storeAt s q n align bs).Canon := by
  unfold storeAt
  split
  · exact canon_storeTrap hs
  · exact resCanon_ite hs (resCanon_ite trivial (canon_buffer (canon_touchOwn hs)))

theorem canon_withForm {f : Nat → Res} (hf : ∀ a, (f a).Canon) : (withForm s p n t f).Canon := by
  unfold withForm
  split
  · exact hf _
  · exact trivial

theorem canon_formWrite (hs : s.Canon) : (formWrite v p n t s bs).Canon := resCanon_ite trivial hs

theorem canon_execVstf {m : BitVec 3} (hs : s.Canon) : OutCanon (execVstf v b c m t s) := by
  unfold execVstf
  dsimp only
  refine canon_runC hs fun _ hu => ?_
  refine canon_withForm fun _ => ?_
  split
  · exact canon_orFlags (canon_of_ok (canon_storeAt hu) ‹_›)
  · exact canon_storeAt hu

theorem canon_execVldt (hs : s.Canon) : OutCanon (execVldt v b c t s) := by
  unfold execVldt
  dsimp only
  refine canon_runC hs fun _ hu => ?_
  refine canon_withForm fun _ => ?_
  split
  · exact trivial
  · split
    · exact trivial
    · split
      · split
        · exact trivial
        · exact resCanon_ite (canon_of_ok (canon_formWrite hu) ‹_›) (resCanon_ite trivial
            (canon_buffer (canon_countCtx (canon_addRead (canon_of_ok (canon_formWrite hu) ‹_›)))))
      · exact canon_formWrite hu

theorem canon_touchElems {w : Nat} {qs : List Word} (hs : s.Canon) : (touchElems s w qs).Canon := by
  induction qs generalizing s with
  | nil => exact hs
  | cons q t ih => exact canon_ite (canon_touchOwn hs) (ih (canon_touchOwn hs))

theorem canon_execVgath (hs : s.Canon) : OutCanon (execVgath v b x t s) := by
  unfold execVgath
  dsimp only
  refine canon_runC hs fun _ hu => ?_
  split
  · exact trivial
  · exact resCanon_ite trivial (resCanon_ite (canon_addLong (canon_freshId (canon_countCtx (canon_addRead hu))))
      (canon_addLong (canon_send (canon_countCtx (canon_addRead hu)))))

theorem canon_execVscat (hs : s.Canon) : OutCanon (execVscat v b x t s) := by
  unfold execVscat
  dsimp only
  refine canon_runC hs fun _ hu => ?_
  split
  · exact resCanon_ite (canon_touchElems hu) trivial
  · exact resCanon_ite trivial (resCanon_ite trivial (resCanon_ite (canon_addLong (canon_freshId (canon_modChunk (canon_touchElems hu))))
      (canon_addLong (canon_send (canon_modChunk (canon_touchElems hu))))))

end Sys2Proof.Machine
end

section
/-! O4: atomics, fences and inbox messages. -/

namespace Sys2Proof.Machine

variable {s : State} {ord ret : Bool} {q p : Word} {body : Body} {n : Nat} {f : Nat → Option Nat} {a : RF} {w : Wait} {ws : List Word}

theorem canon_sendOp {given : Option Word} (hs : s.Canon) : (sendOp s ord ret q body given).Canon := canon_send hs
theorem canon_startOp {dst : Dst} (hs : s.Canon) : (startOp s ord q body dst p).Canon := canon_addLong (canon_sendOp hs)

theorem canon_atomicAt {k : Nat} (hs : s.Canon) : (atomicAt s k n f).Canon := by
  unfold atomicAt
  split
  · exact canon_writeSquash hs
  · exact hs

theorem canon_amoRun {i : Instr} {res : Nat → Word} {body : Word → Body} (hs : s.Canon) : (amoRun i s a p n f res body).Canon :=
  canon_runE (canon_walkPage hs) fun _ hu => canon_ite (canon_advance (canon_wrG (canon_atomicAt hu)))
    (canon_advance (canon_startOp (canon_touchOwn hu)))

theorem canon_redOp {x : Word} {w : BitVec 1} {op : BitVec 4} (hs : s.Canon) : (redOp p x w op s).Canon :=
  canon_ite (canon_advance (canon_atomicAt hs)) (canon_advance (canon_sendOp (canon_touchOwn hs)))

theorem canon_doneFence (hs : s.Canon) : OptCanon (doneFence s w) := optCanon_ite hs trivial

theorem canon_appendInbox {c : CoreId} (hs : s.Canon) : (appendInbox s c ws ret).1.Canon := by
  unfold appendInbox
  extract_lets r u
  have hu : u.Canon := canon_writeSquash hs
  clear_value u r
  split
  · exact canon_ite hs (canon_modCore hs)
  · exact canon_modCore hu

theorem canon_postOp (hs : s.Canon) : (postOp a p ws s).Canon :=
  canon_ite (canon_advance (canon_wrG (canon_appendInbox hs))) (canon_ite (canon_advance (canon_startOp hs)) (canon_advance (canon_sendOp hs)))

theorem canon_doneRecv (hs : s.Canon) : OptCanon (doneRecv a s w) :=
  optCanon_ite trivial (canon_modMine (canon_foldl (fun _ _ hu => canon_wrG hu) hs))

theorem canon_execIpeek (hs : s.Canon) : OutCanon (execIpeek a s) := by
  unfold execIpeek
  dsimp only
  refine canon_runC hs fun _ hu => ?_
  split
  · exact trivial
  · exact canon_wrG hu

end Sys2Proof.Machine
end

section
/-! O4: entries of the object table. -/

namespace Sys2Proof.Machine

variable {s : State}

theorem canon_walkObj {i : Instr} {idx : Nat} (hs : s.Canon) : (walkObj i s idx).Canon := canon_ite hs (canon_touch hs)

end Sys2Proof.Machine
end

section
/-! O4: rings. -/

namespace Sys2Proof.Machine

variable {s : State} {a : RF} {c : CoreId} {j idx : Nat} {op : RingOp} {x y : Word} {e : Vector Word 8} {i : Instr}

theorem canon_answer {id : Nat} {a : Reply} (hs : s.Canon) : (s.answer id a).Canon := canon_of_mem (mem_answer ..) hs
theorem canon_dropUnbound (hs : s.Canon) : (dropUnbound s c j).Canon := canon_modCore (canon_foldl (fun _ _ hu => canon_answer hu) hs)

theorem canon_ringAt {t : Tenant} {shape : Option (Vector Word 8)} (hs : s.Canon) : (ringAt s c j op idx t x e shape).1.Canon :=
  canon_ite (canon_dropUnbound (canon_modCore hs)) (canon_modCore hs)

theorem canon_walkRing (hs : s.Canon) : (walkRing i s op idx).Canon := by
  unfold walkRing
  dsimp only
  split
  · exact canon_walkObj hs
  · exact canon_ite (canon_walkObj (canon_walkObj hs)) (canon_walkObj hs)

theorem canon_doneRing {w : Wait} (hs : s.Canon) : OptCanon (doneRing op a s w) := by
  unfold doneRing
  split
  · split
    · exact canon_wrG hs
    · exact trivial
  · exact optCanon_ite (canon_wrG (canon_ringAt hs)) trivial

theorem canon_ringWait {lim : Word} (hs : s.Canon) : (ringWait i s op a x lim).Canon := by
  refine canon_runEW (canon_walkRing hs) (fun _ hu => ?_) (fun _ _ hu => canon_doneRing hu)
  split
  · exact hu
  · exact canon_sendOp hu

theorem canon_ringPostOp {sh : Option (Vector Word 8)} (hs : s.Canon) : (ringPostOp op idx y e sh s).Canon :=
  canon_ite (canon_advance (canon_ringAt hs)) (canon_advance (canon_sendOp hs))

theorem canon_ringPost (hs : s.Canon) : (ringPost i s op x y).Canon := canon_runR (canon_walkRing hs) fun _ hu => canon_ringPostOp hu

theorem canon_execRstat {b : RF} (hs : s.Canon) : OutCanon (execRstat a b s) := by
  unfold execRstat
  dsimp only
  split
  · exact canon_runC hs fun _ hu => canon_wrG hu
  · refine canon_runC (canon_walkObj hs) fun _ hu => ?_
    split
    · exact trivial
    · exact resCanon_ite (canon_wrG hu) (resCanon_ite trivial (canon_addLong (canon_sendOp hu)))

end Sys2Proof.Machine
end

section
/-! O4: accesses that are performed for an identity that travels with them. -/

namespace Sys2Proof.Machine

variable {s : State} {n kind : Nat} {ks : List Nat} {bs : List Byte}

theorem canon_touchAt {by_ : CoreId} {t : Tenant} {q : Word} {priv dec : Bool} (hs : s.Canon) : (touchAt s by_ t q n kind priv dec).Canon :=
  canon_ite hs (canon_ite (canon_touchSpan hs) (canon_ite (canon_touchSpan hs) hs))

theorem canon_countPoison {d : BitVec 2} {w : Walk} {va : Nat} (hs : s.Canon) : (countPoison s d w va).Canon := canon_of_mem (countPoison_mem ..) hs
theorem canon_reqTouch {r : Req} {p : Word} (hs : s.Canon) : (r.touch s p n kind).Canon := canon_ite (canon_touchAt hs) hs
theorem canon_writeKeys (hs : s.Canon) : (writeKeys s ks bs).Canon := canon_memSetAll hs

theorem canon_writeKeysSquash (hs : s.Canon) : (writeKeysSquash s ks bs).Canon := by
  unfold writeKeysSquash
  split
  · exact canon_squashMeeting (canon_writeKeys hs)
  · exact canon_writeKeys hs

end Sys2Proof.Machine
end

section
/-! O4: copy channels and their engine. -/

namespace Sys2Proof.Machine

variable {s : State} {c core : CoreId} {i kind n vc op o k w0 m : Nat} {x : Eng} {l ks : List Nat} {d : BitVec 2} {pool dec : Bool}
  {q p : Word} {fw : BitVec 5} {t : CodeTable} {z : Bits} {a : RF} {h : Chan} {obj ring : Vector Word 8} {ch : BitVec 1}

theorem canon_modCh {f : Chan → Chan} (hs : s.Canon) : (s.modCh c i f).Canon := hs

/-- Work goes on from where the work before it came to. -/
theorem canon_bind {α β : Type} {w : Work α} {f : Eng → α → Work β} (hw : w.Canon) (hf : ∀ y v, y.Canon → (f y v).Canon) : (w.bind f).Canon := by
  cases w with
  | ok x v => exact hf x v hw
  | stop x e => exact hw

theorem canon_attempt {α : Type} {w : Work α} (hw : w.Canon) : w.attempt.Canon := by
  cases w with
  | ok x v => exact hw
  | stop x e => exact workCanon_ite hw hw

theorem canon_each {α : Type} {f : Eng → Nat → Work α} (hf : ∀ y k, y.Canon → (f y k).Canon) (hx : x.Canon) : (Work.each f x l).Canon := by
  induction l generalizing x with
  | nil => exact hx
  | cons k t ih => exact canon_bind (hf x k hx) fun y v hy => canon_bind (ih hy) fun z vs hz => hz

theorem canon_takePage {va : Nat} (hx : x.Canon) : (x.takePage c d pool kind dec va).Canon :=
  engCanon_ite hx (engCanon_ite (canon_touch hx) (canon_touch hx))

theorem canon_takePages (hx : x.Canon) : (x.takePages c d pool kind dec l).Canon := by
  induction l generalizing x with
  | nil => exact hx
  | cons va t ih => exact engCanon_ite (canon_takePage hx) (ih (canon_takePage hx))

theorem canon_take (hx : x.Canon) : (x.take c q n kind dec).Canon := by
  unfold Eng.take
  split
  · exact canon_takePages hx
  · exact hx

theorem canon_talk {node : Nat} {out : List Byte} {rop : Nat} {back : List Byte} (hx : x.Canon) : (x.talk c node vc op q out rop back).Canon :=
  engCanon_ite hx (canon_note (canon_note hx))

theorem canon_countEng {wr : Bool} (hs : s.Canon) : (countEng s ks wr).Canon := by
  unfold countEng
  split
  · exact canon_ite (canon_countDie hs) hs
  · exact hs

theorem canon_fail {α : Type} (hx : x.Canon) : (x.fail c p q vc op kind fw : Work α).Canon := by
  unfold Eng.fail
  extract_lets y
  have hy : y.Canon := engCanon_ite (canon_countPoison hx) hx
  exact engCanon_ite hy (canon_talk hy)

theorem canon_engRead (hx : x.Canon) : (engRead x c p n dec o).Canon := by
  unfold engRead
  dsimp only
  split
  · exact hx
  · split
    · exact hx
    · split
      · exact hx
      · split
        · exact canon_fail (canon_take hx)
        · exact canon_talk (canon_take hx)
        · exact canon_talk (canon_countEng (canon_take hx))

theorem canon_engDest (hx : x.Canon) : (engDest x c p n).Canon := by
  unfold engDest
  dsimp only
  split
  · exact hx
  · split
    · exact hx
    · split
      · exact hx
      · split
        · exact canon_fail (canon_take hx)
        · exact hx
        · exact canon_take hx

theorem canon_engWrite {bs : List Byte} (hx : x.Canon) : (engWrite x c q ks bs).Canon :=
  engCanon_ite hx (canon_talk (canon_ite (canon_writeKeys (canon_countEng hx)) (canon_writeKeysSquash (canon_countEng hx))))

theorem canon_movedTo {y : Int} (hx : x.Canon) : (movedTo x p y).Canon := by
  unfold movedTo
  split
  · exact hx
  · exact hx

theorem canon_runSrc {r : Nat} (hx : x.Canon) : (runSrc x c r o).Canon :=
  workCanon_ite (canon_bind (canon_movedTo hx) (fun _ _ hy => canon_bind (canon_engRead hy) (fun _ _ hy1 => canon_movedTo hy1))) (canon_movedTo hx)

theorem canon_nextMove (hx : x.Canon) : (nextMove x c).Canon :=
  canon_bind (canon_runSrc hx) fun _ _ hy => canon_bind (canon_movedTo hy) fun _ _ hy1 => hy1

theorem canon_engDests {qs : List Word} (hx : x.Canon) : (engDests x c n qs).Canon := by
  induction qs generalizing x with
  | nil => exact hx
  | cons q t ih => exact canon_bind (canon_engDest hx) fun y ks hy => canon_bind (ih hy) fun y b hy => hy

theorem canon_writeRun (hx : x.Canon) : (writeRun x c).Canon := by
  refine canon_bind (canon_nextMove hx) fun _ _ h => canon_bind (canon_engRead h) fun _ _ h => ?_
  exact canon_bind (canon_engDests h) fun y _ h => workCanon_ite h (canon_draw (engCanon_foldl (x := y) (fun _ _ h => canon_engWrite h) h))

theorem canon_bump (hx : x.Canon) : (bump x c p i).Canon := by
  unfold bump
  dsimp only
  refine canon_bind (canon_movedTo hx) fun _ _ hy => ?_
  split
  · exact hy
  · split
    · exact hy
    · split
      · exact canon_fail (canon_touchAt hy)
      · exact canon_talk (canon_draw (canon_touchAt hy))
      · exact workCanon_ite hy (canon_talk (canon_countDie (canon_writeKeysSquash (canon_touchAt hy))))

theorem canon_tryBin {t : Nat} (hx : x.Canon) : (tryBin x c k t).Canon := by
  refine canon_bind (canon_bump hx) fun _ _ h => canon_bind (canon_movedTo h) fun _ _ h => ?_
  refine canon_bind (canon_engRead h) fun _ _ h => workCanon_ite h ?_
  refine canon_bind (canon_movedTo h) fun _ _ h => canon_bind (canon_movedTo h) fun _ _ h => ?_
  exact canon_bind (canon_engRead h) fun _ _ h => canon_bind (canon_engDest h) fun _ _ h => workCanon_ite h (canon_draw (canon_engWrite h))

theorem canon_writeToken (hx : x.Canon) : (writeToken x c).Canon := by
  refine canon_bind (canon_movedTo hx) fun _ _ h => canon_bind (canon_engRead h) fun _ _ h => ?_
  refine canon_bind (workCanon_ite (canon_tryBin h) h) fun _ _ h => ?_
  refine canon_bind (workCanon_ite h (canon_tryBin h)) fun _ _ h => ?_
  exact canon_bind (workCanon_ite h (canon_bump h)) fun _ _ h => h

theorem canon_readTable (hx : x.Canon) : (readTable x c).Canon := by
  refine canon_bind (canon_engRead hx) fun _ _ h => canon_bind (canon_movedTo h) fun _ _ h => ?_
  exact canon_bind (canon_engRead h) fun _ _ h => h

theorem canon_nextBit (hx : x.Canon) : (nextBit x c w0 z).Canon := by
  unfold nextBit
  dsimp only
  split
  · exact hx
  · split
    · exact hx
    · exact canon_bind (canon_engRead hx) fun _ _ hy => hy

theorem canon_readCode {fuel l code : Nat} (hx : x.Canon) : (readCode x c t w0 z fuel l code).Canon := by
  induction fuel generalizing x z l code with
  | zero => exact hx
  | succ fuel ih =>
    refine canon_bind (canon_nextBit hx) fun y b hy => ?_
    dsimp only
    split
    · exact hy
    · exact ih hy

theorem canon_readSyms (hx : x.Canon) : (readSyms x c t w0 m z).Canon := by
  induction m generalizing x z with
  | zero => exact hx
  | succ m ih => exact canon_bind (canon_readCode hx) fun y b hy => canon_bind (ih hy) fun y b hy => hy

theorem canon_chunkStart (hx : x.Canon) : (chunkStart x c k).Canon :=
  canon_bind (canon_movedTo hx) fun _ _ hy => canon_bind (canon_engRead hy) fun _ _ hy1 => hy1

theorem canon_chunkBytes (hx : x.Canon) : (chunkBytes x c k m).Canon := by
  refine canon_bind (canon_readTable hx) fun _ _ h => workCanon_ite h ?_
  refine canon_bind (canon_chunkStart h) fun _ _ h => canon_bind (canon_readSyms h) fun _ _ h => workCanon_ite h ?_
  exact canon_bind (canon_movedTo h) fun _ _ h => canon_bind (canon_engRead h) fun _ _ h => h

theorem canon_writeChunk (hx : x.Canon) : (writeChunk x c).Canon := by
  refine canon_bind (canon_chunkBytes hx) fun _ _ h => canon_bind (canon_movedTo h) fun _ _ h => ?_
  exact canon_bind (canon_engDest h) fun _ _ h => workCanon_ite h (canon_draw (canon_engWrite h))

theorem canon_copyNext (hs : s.Canon) : (copyNext s c i).Canon := by
  unfold copyNext
  extract_lets x k
  have hx : x.Canon := hs
  exact workCanon_ite (canon_writeToken hx) (workCanon_ite (canon_writeChunk hx) (canon_writeRun hx))

theorem canon_binRecords (hx : x.Canon) : (binRecords x c).Canon :=
  canon_each (fun _ _ hy => canon_attempt (canon_bind (canon_movedTo hy) (fun _ _ hy1 => canon_bind (canon_engRead hy1) (fun _ _ hy2 => hy2)))) hx

theorem canon_symsEnd (hx : x.Canon) : (symsEnd x c t w0 m z).Canon := by
  induction m generalizing x z with
  | zero => exact hx
  | succ m ih =>
    refine canon_bind (canon_attempt (canon_readCode hx)) fun y b hy => ?_
    split
    · exact ih hy
    · exact hy

theorem canon_streamBytes (hx : x.Canon) : (streamBytes x c).Canon := by
  refine canon_bind (canon_attempt (canon_readTable hx)) fun _ _ hy => ?_
  split
  · exact hy
  · refine canon_bind ?_ fun _ _ hy1 => hy1
    refine canon_each (fun _ _ hy1 => ?_) hy
    refine canon_bind (canon_attempt (canon_chunkStart hy1)) fun _ _ hy2 => ?_
    split
    · exact canon_bind (canon_symsEnd hy2) fun _ _ hy3 => hy3
    · exact hy2

theorem canon_copyRanges (hx : x.Canon) : (copyRanges x c).Canon :=
  workCanon_ite hx (workCanon_ite hx (workCanon_ite (canon_bind (canon_binRecords hx) (fun _ _ hy => hy))
    (workCanon_ite (canon_bind (canon_streamBytes hx) (fun _ _ hy => hy)) hx)))

theorem canon_registerLocks {ls : List Lock} (hs : s.Canon) : (registerLocks s d ls).Canon := by
  refine canon_foldl (fun _ _ hu => ?_) (canon_modDie hs)
  refine canon_foldl (fun _ _ hu1 => ?_) hu
  split
  · exact canon_ite (canon_squash hu1) hu1
  · exact hu1

theorem canon_cpId {x : W32} (hs : s.Canon) : (cpId s a x).Canon := hs
theorem canon_startEng (hs : s.Canon) : (startEng s h obj ring).Canon := hs

theorem canon_cpStart (hs : s.Canon) : (cpStart s a i obj ring).Canon :=
  canon_ite hs (canon_ite (canon_countDie hs) (canon_cpId (canon_modCh (canon_registerLocks
    (canon_modDie (canon_copyRanges (canon_startEng hs)))))))

theorem canon_walkDesc {i : Instr} (hs : s.Canon) : (walkDesc i s h).Canon := by
  unfold walkDesc
  extract_lets d u v
  have hu : u.Canon := canon_ite (canon_walkObj hs) hs
  have hv : v.Canon := canon_ite (canon_walkObj hu) hu
  split
  · exact hv
  · next obj ring hobj =>
    split
    · have hw : (readTable (startEng v h obj ring) v.iss.core).Canon := canon_readTable (x := startEng v h obj ring) hv
      split
      · next ht => rw [ht] at hw; exact hw
      · next ht => rw [ht] at hw; exact canon_ite hv hw
    · exact hv

theorem canon_execCpwp {b : RF} (hs : s.Canon) : OutCanon (execCpwp a b s) := by
  refine canon_runC hs fun _ hu => ?_
  split
  · exact trivial
  · exact canon_wrG hu

theorem canon_doneCpwait {w : Wait} (hs : s.Canon) : OptCanon (doneCpwait a s w) := optCanon_ite trivial (canon_wrG hs)
theorem canon_endCopy {st : ChanState} {cause : Nat} (hs : s.Canon) : (endCopy s c i st cause fw).Canon := hs

theorem canon_execCopyWrite (hs : s.Canon) : OutCanon (execCopyWrite core ch s) := by
  have hw := canon_copyNext (c := core) (i := ch.toNat) hs
  refine canon_ite ?_ hs
  split
  · next ht => exact canon_modCh (engCanon_of_ok hw ht)
  · exact hs

theorem canon_execCopyError (hs : s.Canon) : OutCanon (execCopyError core ch s) := by
  have hw := canon_copyNext (c := core) (i := ch.toNat) hs
  refine canon_ite ?_ hs
  split
  · next ht => exact canon_ite hs (canon_composeError (canon_endCopy (engCanon_of_stop hw ht)))
  · exact hs

theorem canon_wakeCounter (hs : s.Canon) : (wakeCounter s c i).Canon := by
  refine canon_foldl (fun _ _ hu => ?_) hs
  split
  · split
    · exact canon_ite hu hu
    · exact hu
  · exact hu

theorem canon_mbPut {x : W32} (hs : s.Canon) : (mbPut s c i x).Canon := canon_wakeCounter (canon_modCore hs)
theorem canon_mbAdd {x : W32} (hs : s.Canon) : (mbAdd s c i x).Canon := canon_mbPut hs
theorem canon_copyRing (hs : s.Canon) : (copyRing s c h).Canon := canon_ite hs (canon_ite (canon_ite (canon_modCore hs) hs) (canon_send hs))

theorem canon_copyBumps (hs : s.Canon) : (copyBumps s c h).Canon :=
  canon_ite hs (canon_foldl (fun _ _ hu => canon_ite (canon_mbAdd hu) (canon_send hu)) hs)

theorem canon_completeCopy (hs : s.Canon) : (completeCopy s c i).Canon := by
  unfold completeCopy
  dsimp only
  split
  · exact hs
  · split
    · exact canon_modCh (canon_copyRing hs)
    · exact canon_modCh (canon_copyBumps hs)
    · exact hs

theorem canon_execCopyComplete (hs : s.Canon) : OutCanon (execCopyComplete core ch s) :=
  canon_ite (canon_completeCopy (canon_completeCopy (canon_completeCopy hs))) hs

end Sys2Proof.Machine
end

section
/-! O4: mailbox counters. -/

namespace Sys2Proof.Machine

variable {s : State} {op : MbOp} {x p : Word}

theorem canon_mbAt {c : CoreId} {i : Nat} {x : W32} (hs : s.Canon) : (mbAt s c op i x).1.Canon := by
  unfold mbAt
  split <;> dsimp only
  · exact canon_mbAdd hs
  · exact canon_mbPut hs
  · exact hs

theorem canon_mbPostOp (hs : s.Canon) : (mbPostOp op p x s).Canon := canon_ite (canon_advance (canon_mbAt hs)) (canon_advance (canon_sendOp hs))
theorem canon_mbPost {i : Instr} (hs : s.Canon) : (mbPost i s op p x).Canon := canon_runR hs fun _ hu => canon_mbPostOp hu
theorem canon_doneMbwait {w : Wait} (hs : s.Canon) : OptCanon (doneMbwait s w) := optCanon_ite hs trivial

theorem canon_execMbrd {a b : RF} (hs : s.Canon) : OutCanon (execMbrd a b s) := by
  unfold execMbrd
  dsimp only
  refine canon_runC hs fun _ hu => ?_
  split
  · exact trivial
  · exact resCanon_ite (canon_wrG hu) (resCanon_ite trivial (canon_addLong (canon_sendOp hu)))

end Sys2Proof.Machine
end

section
/-! O4: work ids, nodes, launches and fork-join. -/

namespace Sys2Proof.Machine

variable {s : State} {e : Vector Word 8} {d : BitVec 2} {a : RF} {p : Word}

theorem canon_unitStart {by_ c : CoreId} {e : Entry} (hs : s.Canon) : (unitStart s by_ c e).Canon := canon_send hs
theorem canon_modTgu {f : Tgu → Tgu} (hs : s.Canon) : (s.modTgu d f).Canon := hs
theorem canon_dispatch {i : Nat} {n : Node} (hs : s.Canon) : (dispatch s d i n).Canon := canon_unitStart hs
theorem canon_unitReply {d : Dst} {v : Nat} (hs : s.Canon) : (unitReply s d v).Canon := hs

theorem canon_tgNew {d : List Word} (hs : s.Canon) : (tgNew s a d).Canon := by
  unfold tgNew
  dsimp only
  split
  · exact canon_countDie (canon_unitReply hs)
  · split
    · exact canon_dispatch (canon_unitReply hs)
    · exact canon_modTgu (canon_unitReply hs)

theorem canon_tgnewOp (hs : s.Canon) : (tgnewOp a e s).Canon := canon_advance (canon_tgNew hs)

theorem canon_nodeDone {t : Tenant} {h : W32} (hs : s.Canon) : (nodeDone s d t h).Canon := by
  unfold nodeDone
  split
  · exact canon_modTgu hs
  · exact canon_ite (canon_dispatch hs) (canon_modTgu hs)

theorem canon_execTgdone (hs : s.Canon) : OutCanon (execTgdone s) :=
  canon_runE hs fun _ hu => canon_ite (canon_advance (canon_modMe hu)) (canon_advance (canon_send (canon_modMe hu)))

theorem canon_reserveGang (hs : s.Canon) : (reserveGang s d).Canon := by
  unfold reserveGang
  split
  · exact hs
  · exact canon_modTgu (canon_foldl (fun _ _ hu => canon_modCore hu) hs)

theorem canon_tgLaunch (hs : s.Canon) : (tgLaunch s a e).Canon := by
  unfold tgLaunch
  extract_lets d g r
  split
  · split
    · exact canon_reserveGang (canon_modTgu (canon_unitReply hs))
    · exact canon_modTgu (canon_unitReply hs)
  · exact canon_modTgu (canon_unitReply hs)

theorem canon_walkGang (hs : s.Canon) : (walkGang s e).Canon := canon_ite hs (canon_touchOwn hs)
theorem canon_tglaunchOp (hs : s.Canon) : (tglaunchOp a e s).Canon := canon_advance (canon_tgLaunch (canon_walkGang hs))

theorem canon_spawnOp {d : BitVec 18} (hs : s.Canon) : (spawnOp s p d).Canon :=
  canon_ite (canon_setPc (canon_wrG (canon_modMine hs))) (canon_setPc (canon_wrG (canon_countCtx (canon_modR hs))))

theorem canon_spendOp {link : Word} (hs : s.Canon) : (spendOp s p link).Canon := by
  unfold spendOp
  split
  · exact canon_setPc hs
  · extract_lets slow
    have hslow : ∀ u, u.Canon → (slow u).Canon := fun _ hu => canon_retire (canon_ite (canon_mbAt hu) (canon_sendOp hu))
    split
    · exact canon_ite (canon_modMe (canon_modMine hs)) (hslow _ hs)
    · exact hslow _ hs

end Sys2Proof.Machine
end

section
/-! O4: the fitting engine. -/

namespace Sys2Proof.Machine

variable {s : State} {c : CoreId} {n : SlotNo} {eng : BitVec 8} {i old : Nat} {r : Region} {t : Tenant} {obj : BitVec 16}
  {ent : Vector Word 8}

theorem canon_putRegion (hs : s.Canon) : (putRegion s c n eng i old r).Canon := canon_ite hs (canon_traceEvent hs)
theorem canon_countEngine {a b : Bool} (hs : s.Canon) : (countEngine s eng a b).Canon := hs
theorem canon_invalidate (hs : s.Canon) : (invalidate s c n eng i r).Canon := canon_putRegion hs

theorem canon_onBind {own : Option Nat} (hs : s.Canon) : (onBind s c n eng own old t obj ent).1.Canon := by
  unfold onBind
  dsimp only
  split
  · exact hs
  · exact canon_putRegion hs

theorem canon_engineOn {x : List W32} (hs : s.Canon) : (engineOn s c n eng t obj ent x).1.Canon := by
  unfold engineOn
  dsimp only
  split
  · exact canon_onBind hs
  · split
    · exact hs
    · split
      · exact canon_onBind (canon_ite (canon_invalidate hs) hs)
      · exact canon_putRegion (canon_ite (canon_invalidate hs) hs)

theorem canon_closeEvent {v : Inv} {complete : Bool} (hs : s.Canon) : (closeEvent s c n v complete).Canon := by
  unfold closeEvent
  dsimp only
  split
  · exact hs
  · split
    · exact hs
    · exact canon_ite (canon_putRegion (canon_putRegion (canon_ite hs hs))) (canon_putRegion (canon_ite hs hs))

theorem canon_closeInv {ends : Bool} (hs : s.Canon) : (closeInv s c n ends).Canon := by
  unfold closeInv
  exact canon_modCtx (canon_ite (canon_closeEvent hs) hs)

theorem canon_execApxInv {a : RF} (hs : s.Canon) : OutCanon (execApxInv a s) := by
  unfold execApxInv
  dsimp only
  refine canon_runE (canon_walkObj hs) fun _ hu => ?_
  split
  · exact canon_advance (canon_invalidate hu)
  · exact canon_advance hu

theorem canon_apxLoad {x : Word} {v : W32} (hs : s.Canon) : (apxLoad s x ent v).Canon := by
  unfold apxLoad
  extract_lets c n eng e own r w stOk old words got
  refine canon_ite (canon_countEngine hs) ?_
  cases got with
  | none => exact canon_countEngine hs
  | some p => exact canon_putRegion hs

theorem canon_execSurrogateResult {core : CoreId} {slot : SlotNo} (hs : s.Canon) : OutCanon (execSurrogateResult core slot s) := canon_modCtx hs

end Sys2Proof.Machine
end

section
/-! O4: streams of constraints. -/

namespace Sys2Proof.Machine

variable {s : State} {c : CoreId} {n : SlotNo} {j idx : Nat} {x : Stream} {w : Wait} {a : RF} {d : BitVec 2}

theorem canon_streamEvent (hs : s.Canon) : (streamEvent s c n j x).Canon := by
  unfold streamEvent
  split
  · exact hs
  · exact canon_traceEvent hs

theorem canon_bindWalk (hs : s.Canon) : (bindWalk s x idx).Canon := canon_ite (canon_touch hs) hs
theorem canon_pushNow (hs : s.Canon) : OptCanon (pushNow s w) := optCanon_ite trivial (canon_streamEvent (canon_bindWalk hs))
theorem canon_pullRegs {ws : List Word} (hs : s.Canon) : (pullRegs s a ws).Canon := canon_foldl (fun _ _ hu => canon_wrG hu) hs

theorem canon_pullNow (hs : s.Canon) : OptCanon (pullNow a s w) := by
  unfold pullNow
  dsimp only
  split
  · exact trivial
  · split
    · exact canon_pullRegs (canon_modMe (canon_streamEvent hs))
    · exact canon_pullRegs (canon_streamEvent hs)

theorem canon_serveWaiter (hs : s.Canon) : OptCanon (serveWaiter s c n) := by
  unfold serveWaiter
  split
  · refine canon_map (fun _ hu => hu) ?_
    split
    · exact canon_pushNow hs
    · exact canon_pullNow hs
    · trivial
  · trivial

theorem canon_serveStream {m : Nat} (hs : s.Canon) : (serveStream s d j m).Canon := by
  induction m generalizing s with
  | zero => exact hs
  | succ m ih =>
    unfold serveStream
    split
    · next t ht =>
      obtain ⟨p, -, hp⟩ := List.exists_of_findSome?_eq_some ht
      exact ih (hp ▸ canon_serveWaiter hs : OptCanon (some t))
    · exact hs

theorem canon_serveAll (hs : s.Canon) : (serveAll s d j).Canon := canon_serveStream hs
theorem canon_serveStreams (hs : s.Canon) : (serveStreams s).Canon := canon_foldl (fun _ _ hu => canon_serveAll hu) hs
theorem canon_doneCbPush (hs : s.Canon) : OptCanon (doneCbPush s w) := canon_map (fun _ hu => canon_serveAll hu) (canon_pushNow hs)
theorem canon_doneCbPull (hs : s.Canon) : OptCanon (doneCbPull a s w) := canon_map (fun _ hu => canon_serveAll hu) (canon_pullNow hs)

theorem canon_cbWait {i : Instr} {right : Nat} {lim : Word} {vals : List Word} {done : State → Wait → Option State} (hs : s.Canon)
    (hdone : ∀ u w, u.Canon → OptCanon (done u w)) : (cbWait i s idx right lim vals done).Canon := by
  unfold cbWait
  dsimp only
  refine canon_runE (canon_walkObj hs) fun _ hu => ?_
  split
  · exact canon_advance (canon_of_some (hdone _ _ hu) ‹_›)
  · exact hu

theorem canon_cbDoneOp {ticket : BitVec 30} {e : Vector Word 8} (hs : s.Canon) : (cbDoneOp idx ticket e s).Canon :=
  canon_advance (canon_serveAll (canon_streamEvent (canon_ite (canon_modMe hs) hs)))

theorem canon_execCbSt {b : RF} (hs : s.Canon) : OutCanon (execCbSt a b s) := by
  refine canon_runC (canon_ite (canon_walkObj hs) hs) fun _ hu => ?_
  split
  · exact trivial
  · split
    · exact trivial
    · exact resCanon_ite trivial (canon_addLong (canon_freshId hu))

theorem canon_returnHeld {w : Word} (hs : s.Canon) : (returnHeld s c n w).Canon :=
  canon_ite hs (canon_ite hs (canon_serveAll (canon_streamEvent hs)))

theorem canon_returnAllHeld (hs : s.Canon) : (returnAllHeld s c n).Canon := by
  unfold returnAllHeld
  exact canon_modCtx (canon_foldl (fun _ _ hu => canon_returnHeld hu) hs)

end Sys2Proof.Machine
end

section
/-! O4: the shapes of the vector words. -/

namespace Sys2Proof.Machine

variable {s : State} {i : Instr} {d a b : BitVec 4} {m t : BitVec 3} {f : State → Nat → Rounded}

theorem canon_vecRun (hs : s.Canon) : (vecRun i d m t f s).Canon := canon_runA hs fun _ hu => hu
theorem canon_vec1 {f : Nat → Rounded} (hs : s.Canon) : (vec1 i d a m t f s).Canon := canon_vecRun hs
theorem canon_vec2 {f : Nat → Nat → Rounded} (hs : s.Canon) : (vec2 i d a b m t f s).Canon := canon_vecRun hs
theorem canon_vec3 {c : BitVec 4} {f : Nat → Nat → Nat → Rounded} (hs : s.Canon) : (vec3 i d a b c m t f s).Canon := canon_vecRun hs

theorem canon_vecLong {cycles : Nat} (hs : s.Canon) : (vecLong i d m cycles f s).Canon :=
  canon_runA hs fun _ hu => resCanon_ite trivial (canon_addLong hu)

theorem canon_vecWhole {f : State → VReg} (hs : s.Canon) : (vecWhole i d f s).Canon := canon_runA hs fun _ hu => hu

theorem canon_vecReduce {neutral : Nat} {f : Nat → Nat → Rounded} (hs : s.Canon) : (vecReduce i d a m t neutral f s).Canon :=
  canon_runA hs fun _ hu => hu

end Sys2Proof.Machine
end

section
/-! O4: the accord. -/

namespace Sys2Proof.Machine

variable {s : State} {half : BitVec 9} {core : CoreId}

theorem canon_mgetPlace {acc : BitVec 2} {p : Word} {keys : List Nat} (hs : s.Canon) : (mgetPlace s acc p keys).Canon := hs
theorem canon_doneMwait {w : Wait} (hs : s.Canon) : OptCanon (doneMwait s w) := optCanon_ite hs trivial

theorem canon_execAccordCommandBegin (hs : s.Canon) : OutCanon (execAccordCommandBegin half s) := by
  unfold execAccordCommandBegin
  dsimp only
  split
  · exact hs
  · split
    · exact hs
    · split
      · exact hs
      · exact canon_modCore (canon_setHalf (canon_ite (canon_modLaunch (canon_countCore (canon_countCore hs)))
          (canon_countCore (canon_countCore hs))))

theorem canon_execAccordCommandRetire (hs : s.Canon) : OutCanon (execAccordCommandRetire half s) := by
  unfold execAccordCommandRetire
  dsimp only
  split
  · exact hs
  · split
    · exact canon_setHalf hs
    · exact canon_modCore (canon_setHalf hs)

theorem canon_execMgetTileRead (hs : s.Canon) : OutCanon (execMgetTileRead core s) := by
  unfold execMgetTileRead
  dsimp only
  split
  · exact hs
  · exact canon_modCore (canon_countCore hs)

theorem canon_endLong {c : CoreId} {n : SlotNo} {id : Nat} (hs : s.Canon) : (endLong s c n id).Canon := by
  unfold endLong
  split
  · exact canon_ite (canon_discardLong hs) hs
  · exact canon_discardLong hs

theorem canon_execMgetComplete (hs : s.Canon) : OutCanon (execMgetComplete core s) := by
  unfold execMgetComplete
  dsimp only
  split
  · exact hs
  · exact canon_ite hs (canon_endLong (canon_modCore (canon_writeKeysSquash hs)))

end Sys2Proof.Machine
end

section
/-! O4: waits between issue and completion, and releases that wait. -/

namespace Sys2Proof.Machine

variable {s : State} {w : Wait} {c core : CoreId} {n slot : SlotNo} {g : Gone}

theorem canon_waitDone (hs : s.Canon) : OptCanon (waitDone s w) := by
  unfold waitDone
  split
  · exact canon_donePark hs
  · exact canon_doneHjoin hs
  · exact canon_doneHsave hs
  · exact canon_doneFence hs
  · exact canon_doneRecv hs
  · exact canon_doneKwait hs
  · exact canon_doneRing hs
  · exact canon_doneRing hs
  · exact canon_doneCpwait hs
  · exact canon_doneMbwait hs
  · exact canon_doneMwait hs
  · exact canon_doneCbPush hs
  · exact canon_doneCbPull hs
  · exact trivial

theorem canon_completeWait (hs : s.Canon) : OptCanon (completeWait s c n w) :=
  canon_map (fun _ hu => canon_wakeCtx (canon_advance hu)) (canon_waitDone hs)

theorem canon_meetWait (hs : s.Canon) : OptCanon (meetWait s c n w) :=
  optCanon_ite (canon_map (fun _ _ => canon_modCore hs) (canon_waitDone hs)) (canon_completeWait hs)

theorem canon_complTurn {sbit : Bool} (hs : s.Canon) : (complTurn s c n sbit).Canon := by
  unfold complTurn
  dsimp only
  split
  · exact canon_modCore hs
  · split
    · exact canon_modCore (canon_of_some (canon_completeWait hs) ‹_›)
    · exact canon_modCore hs

theorem canon_execWaitConditionMet (hs : s.Canon) : OutCanon (execWaitConditionMet core slot s) := by
  unfold execWaitConditionMet
  dsimp only
  split
  · exact canon_ite (canon_getD (canon_meetWait hs) hs) hs
  · exact hs

theorem canon_leaveWait (hs : s.Canon) : (leaveWait s c n w).Canon := canon_ite hs hs
theorem canon_stopWait (hs : s.Canon) : (stopWait s c n w).Canon := canon_modCore (canon_leaveWait hs)

theorem canon_expireWait {remote : Option Word} (hs : s.Canon) : (expireWait s c n w remote).Canon := by
  unfold expireWait
  extract_lets i x p u r
  have hu : u.Canon := canon_stopWait hs
  have hr : r.1.Canon := canon_commitChunk hu
  split
  · exact canon_deliver (canon_modCtx hu)
  · exact canon_ite (canon_modCtx hu) (canon_ite (canon_deliver (canon_modCtx hr)) hr)

theorem canon_expire (hs : s.Canon) : (expire s c n w).Canon := by
  unfold expire
  split
  · exact canon_of_some (canon_meetWait hs) ‹_›
  · split
    · exact canon_expireWait hs
    · split
      · exact canon_expireWait (canon_dropReq hs)
      · exact canon_sendCancel hs
      · exact hs

theorem canon_execWaitx (hs : s.Canon) : OutCanon (execWaitx core slot s) := by
  unfold execWaitx
  dsimp only
  split
  · exact canon_ite (canon_expire hs) hs
  · exact hs

theorem canon_tickWait (hs : s.Canon) : (tickWait s c n).Canon := by
  unfold tickWait
  dsimp only
  split
  · exact hs
  · split
    · exact hs
    · split
      · exact canon_of_some (canon_meetWait hs) ‹_›
      · split
        · exact hs
        · exact canon_ite hs (canon_ite (canon_expire (canon_modCtx hs)) (canon_modCtx hs))

theorem canon_abandonWait (hs : s.Canon) : (abandonWait s c n w).1.Canon := by
  unfold abandonWait
  extract_lets x mark r
  have hmark : ∀ u, u.Canon → (mark u).Canon := fun _ hu => canon_modCtx (canon_stopWait hu)
  have hr : r.1.Canon := canon_commitChunk hs
  clear_value r mark
  split
  · exact hmark _ hs
  · split
    · exact hs
    · split
      · exact hmark _ hr
      · exact hr

theorem canon_endTrap {p : Pend} (hs : s.Canon) : (endTrap s c n p).Canon :=
  canon_ite (canon_modCtx (canon_ite (canon_modCtx hs) hs)) (canon_deliver (canon_ite (canon_modCtx hs) hs))

theorem canon_finishChunk (hs : s.Canon) : (finishChunk s c n).Canon := by
  unfold finishChunk
  dsimp only
  split
  · exact hs
  · split
    · exact hs
    · split
      · exact canon_endTrap (canon_commitChunk hs)
      · exact canon_commitChunk hs

/-- R167, R188: each word that is a release performs its own operation. -/
theorem canon_releaseOf {u v : State} {i : Instr} {e : Vector Word 8} (hv : v.Canon) : ((releaseOf u i e).2 v).Canon := by
  cases i
  case red => exact canon_redOp hv
  case post => exact canon_postOp hv
  case kready => exact canon_kreadyOp hv
  case mbinc | mbset => exact canon_mbPostOp hv
  case rpush | rrel => exact canon_ringPostOp hv
  case tgnew => exact canon_advance (canon_tgNew hv)
  case tglaunch => exact canon_advance (canon_tgLaunch (canon_walkGang hv))
  case spend => exact canon_spendOp hv
  case hend => exact canon_retire hv
  case cbDone => exact canon_cbDoneOp hv
  all_goals exact hv

theorem canon_performRelease (hs : s.Canon) : (performRelease s c n).Canon := by
  unfold performRelease
  split
  · exact hs
  · extract_lets u f t
    have ht : t.Canon := canon_of_mem rfl (canon_releaseOf (u := u) (canon_modMe (s := u) hs))
    split
    · exact hs
    · exact canon_ite (canon_modCore ht) ht

theorem canon_leaveSlot {ends : Bool} (hs : s.Canon) : (leaveSlot s c n ends).Canon :=
  canon_modCore (canon_ite (canon_returnAllHeld (canon_ite (canon_closeInv hs) hs)) (canon_ite (canon_closeInv hs) hs))

theorem canon_asGone {f : State → State} (hf : ∀ u, u.Canon → (f u).Canon) (hs : s.Canon) : (asGone s c g f).2.Canon := by
  unfold asGone
  dsimp only
  exact canon_foldl (fun _ _ hu => canon_serveAll hu) (canon_modDie (canon_modCore (hf _ hs)))

theorem canon_returnGone {y : Ctx} (hs : s.Canon) : (returnGone s c g y).Canon :=
  canon_foldl (fun _ _ hu => canon_asGone (fun _ ht => canon_returnHeld ht) hu) hs

theorem canon_performGone (hs : s.Canon) : (performGone s c g).Canon := by
  unfold performGone
  extract_lets n ch trial
  split
  · exact hs
  · exact canon_returnGone (canon_asGone (fun _ ht => canon_performRelease ht) (canon_modCore (canon_ite (canon_squash hs) hs)))

end Sys2Proof.Machine
end

section
/-! O4: operations at their destination. -/

namespace Sys2Proof.Machine

variable {s : State} {r : Req} {p x q : Word} {k id : Nat} {ks : List Nat} {c : CoreId}

theorem canon_fails {fw : BitVec 5} {page : Bool} (hs : s.Canon) : (fails s r p k fw page).Canon := canon_answer hs
theorem canon_countAccess {atomic wr : Bool} (hs : s.Canon) : (countAccess s ks atomic wr).Canon := canon_of_mem (countAccess_mem ..) hs

theorem canon_performLoad {ps : List Word} {w : Nat} (hs : s.Canon) : (performLoad s r ps w).Canon := by
  unfold performLoad
  extract_lets a done u
  have hu : u.Canon := canon_foldl (fun _ _ hv => canon_countAccess (canon_touchAt hv)) (canon_draw hs)
  clear_value u a
  cases a with
  | ok bs => exact canon_answer hu
  | error e => exact canon_fails (canon_ite (canon_countPoison hu) hu)

theorem canon_performStore {bs : List Byte} (hs : s.Canon) : (performStore s r p bs).Canon := by
  unfold performStore
  split
  · exact canon_fails (canon_reqTouch hs)
  · exact canon_answer (canon_draw hs)
  · exact canon_ite hs (canon_answer (canon_writeKeysSquash (canon_countAccess (canon_reqTouch hs))))

theorem canon_atomicReq (hs : s.Canon) : (atomicReq s r ks).Canon := by
  unfold atomicReq
  split
  · exact hs
  · refine canon_answer ?_
    split
    · exact canon_writeKeysSquash hs
    · exact hs

theorem canon_performAtomic (hs : s.Canon) : (performAtomic s r p).Canon := by
  unfold performAtomic
  dsimp only
  split
  · exact canon_fails (canon_ite (canon_countPoison (canon_reqTouch hs)) (canon_reqTouch hs))
  · exact canon_answer (canon_draw (canon_reqTouch hs))
  · exact canon_ite hs (canon_atomicReq (canon_countAccess (canon_reqTouch hs)))

theorem canon_performOuter {may : List Nat} (hs : s.Canon) : (performOuter s r p may x).Canon := by
  unfold performOuter
  split
  · exact canon_answer hs
  · split
    · exact canon_answer hs
    · split
      · exact canon_answer hs
      · exact canon_answer hs

theorem canon_performMb {op : MbOp} {x : W32} (hs : s.Canon) : (performMb s r op p x).Canon :=
  canon_ite (canon_performOuter hs) (canon_ite (canon_answer hs) (canon_answer (canon_mbAt hs)))

theorem canon_performPshare (hs : s.Canon) : (performPshare s r p).Canon := by
  unfold performPshare
  dsimp only
  split
  · split
    · exact canon_fails hs
    · exact canon_answer hs
  · split
    · split
      · exact canon_fails (canon_touch hs)
      · exact canon_answer (canon_draw (canon_touch hs))
      · exact canon_ite hs (canon_answer (canon_countDie (canon_writeSquash (canon_touch hs))))
    · exact canon_answer (canon_touch hs)
    · exact canon_answer (canon_touch hs)

theorem canon_performRing {op : RingOp} {obj : BitVec 16} {e : Vector Word 8} {shape : Option (Vector Word 8)} (hs : s.Canon) :
    (performRing s r op c obj x e shape).Canon := canon_ite (canon_answer hs) (canon_ite (canon_answer hs) (canon_answer (canon_ringAt hs)))

theorem canon_watchService {n kind : Nat} (hs : s.Canon) : (watchService s c q n kind).Canon :=
  canon_foldl (fun _ _ hu => canon_ite (canon_broadcastFreeze (canon_traceDebug hu)) (canon_traceDebug hu)) hs

theorem canon_serveAtomic (hs : s.Canon) : (serveAtomic s r q).Canon :=
  canon_ite (canon_answer hs) (canon_ite (canon_answer hs) (canon_ite hs (canon_watchService (canon_atomicReq hs))))

theorem canon_servePost {ws : List Word} {ret : Bool} (hs : s.Canon) : (servePost s r c ws ret).Canon :=
  canon_ite (canon_answer (canon_appendInbox hs)) (canon_ite (canon_answer hs)
    (canon_ite (canon_answer hs) (canon_ite hs (canon_watchService (canon_answer (canon_appendInbox hs))))))

theorem canon_serveReq (hs : s.Canon) : (serveReq s c r).Canon := by
  unfold serveReq
  split
  · exact canon_serveAtomic hs
  · exact canon_serveAtomic hs
  · exact canon_servePost hs
  · exact canon_performRing hs
  · exact canon_answer hs

theorem canon_settleHead (hs : s.Canon) : (settleHead s c).Canon := canon_of_mem (mem_settleHead ..) hs

theorem canon_serveOne (hs : s.Canon) : (serveOne s c id).Canon := by
  unfold serveOne
  split
  · exact hs
  · exact canon_ite hs (canon_countCore (canon_modCore (canon_serveReq hs)))

theorem canon_execServiceTurn {core : CoreId} (hs : s.Canon) : OutCanon (execServiceTurn core s) := by
  refine canon_settleHead ?_
  split
  · exact canon_modCore (canon_serveOne (canon_settleHead hs))
  · exact canon_serveOne (canon_settleHead hs)
  · exact canon_serveOne (canon_settleHead hs)
  · exact canon_settleHead hs

theorem canon_arriveService (hs : s.Canon) : (arriveService s r).Canon := by
  unfold arriveService
  split
  · exact canon_answer hs
  · split
    · exact canon_ite hs (canon_ite hs (canon_ite (canon_settleHead (canon_modCore hs)) hs))
    · split
      · exact canon_performOuter hs
      · exact canon_performOuter hs
      · exact hs

theorem canon_execServiceRequestArrival (hs : s.Canon) : OutCanon (execServiceRequestArrival id s) := by
  unfold execServiceRequestArrival
  split
  · exact canon_ite (canon_arriveService hs) hs
  · exact hs

theorem canon_performHere (hs : s.Canon) : (performHere s r).Canon := by
  unfold performHere
  extract_lets p probe
  split
  · exact canon_answer hs
  · split
    · exact canon_answer hs
    · split
      · exact hs
      · split
        · exact canon_performLoad hs
        · exact hs
        · exact canon_performStore hs
        · exact canon_performAtomic hs
        · exact canon_performAtomic hs
        · exact canon_performMb hs
        · exact canon_answer (canon_nodeDone hs)
        · exact canon_performPshare hs
        · exact canon_performMb hs
        · exact canon_arriveService hs
        · exact canon_arriveService hs
        all_goals exact hs

theorem canon_execRemoteAccessArrival (hs : s.Canon) : OutCanon (execRemoteAccessArrival id s) := by
  unfold execRemoteAccessArrival
  split
  · exact canon_ite (canon_performHere hs) hs
  · exact hs

theorem canon_execFarOperationArrival (hs : s.Canon) : OutCanon (execFarOperationArrival id s) := by
  unfold execFarOperationArrival
  split
  · exact canon_ite (canon_ite (canon_arriveService hs) (canon_performHere hs)) hs
  · exact hs

theorem canon_writeImage (hs : s.Canon) : (writeImage s k).Canon := canon_memWrite hs
theorem canon_divertTo (hs : s.Canon) : (divertTo s c id).Canon := canon_ite (canon_modCore (canon_writeImage hs)) hs

theorem canon_execDivertedArrival (hs : s.Canon) : OutCanon (execDivertedArrival id s) := by
  unfold execDivertedArrival
  split
  · exact hs
  · split
    · exact hs
    · split
      · split
        · exact canon_divertTo hs
        · exact hs
      · split
        · exact canon_ite (canon_ite (canon_answer hs) (canon_performAtomic hs)) hs
        · exact canon_ite (canon_ite (canon_answer hs) (canon_performAtomic hs)) hs
        · exact hs

theorem canon_execRingCancel (hs : s.Canon) : OutCanon (execRingCancel id s) := by
  unfold execRingCancel
  split
  · exact hs
  · split
    · exact hs
    · split
      · exact canon_ite hs (canon_ite (canon_dropReq (canon_settleHead (canon_modCore hs))) (canon_answer (canon_settleHead (canon_modCore hs))))
      · exact hs

end Sys2Proof.Machine
end

section
/-! O4: what comes back to a context. -/

namespace Sys2Proof.Machine

variable {s : State} {c core : CoreId} {n slot h : SlotNo} {l : LongOp} {r : Req} {id : Nat} {p : Pend}

theorem canon_settleReply (hs : s.Canon) : (settleReply s c n l r).Canon := by
  unfold settleReply
  split
  · exact hs
  · exact hs
  · exact canon_ite (canon_discardLong hs) (canon_ite (canon_deferFault hs) hs)
  · exact canon_ite (canon_discardLong hs) (canon_deferFault hs)
  · exact canon_ite (canon_discardLong hs) (canon_chargeError hs)

theorem canon_settleVal {v : Nat} (hs : s.Canon) : (settleVal s c n l v).Canon := canon_ite (canon_ite hs hs) (canon_ite hs hs)

theorem canon_settleLong (hs : s.Canon) : (settleLong s c n l).Canon := by
  unfold settleLong
  split
  · exact canon_settleVal hs
  · split
    · exact canon_settleReply hs
    · exact hs

theorem canon_execLongResultReturn (hs : s.Canon) : OutCanon (execLongResultReturn core slot id s) := by
  unfold execLongResultReturn
  split
  · exact canon_settleLong hs
  · split
    · split
      · exact canon_ite hs (canon_discardLong hs)
      · exact canon_discardLong hs
    · exact hs

theorem canon_execLateReplyForward {n : Nat} (hs : s.Canon) : OutCanon (execLateReplyForward core n s) := by
  unfold execLateReplyForward
  split
  · exact hs
  · split
    · exact canon_ite hs (canon_ite (canon_modCore hs) (canon_discardLong (canon_dropReq (canon_modCore hs))))
    · exact hs

theorem canon_execAcknowledgement (hs : s.Canon) : OutCanon (execAcknowledgement id s) := by
  unfold execAcknowledgement
  split
  · split
    · exact canon_ite hs hs
    · exact canon_ite hs hs
    · exact hs
  · exact hs

theorem canon_failWait (hs : s.Canon) : (failWait s r).Canon := by
  unfold failWait
  split
  · split
    · exact canon_wakeCtx (canon_advance hs)
    · exact hs
  · exact hs

theorem canon_execRemoteError (hs : s.Canon) : OutCanon (execRemoteError id s) := by
  unfold execRemoteError
  dsimp only
  split
  · exact hs
  · split
    · split
      · exact canon_composeError hs
      · split
        · exact canon_ite (canon_settleReply hs) hs
        · exact canon_ite (canon_discardLong hs) (canon_ite hs (canon_chargeError (canon_dropReq (canon_failWait hs))))
    · split
      · exact canon_ite (canon_settleReply hs) hs
      · exact hs
    · exact hs

theorem canon_takePend (hs : s.Canon) : (takePend s c n p).Canon := by
  unfold takePend
  extract_lets x q u r
  have hu : u.Canon := canon_modCtx hs
  have hr : r.1.Canon := canon_commitChunk hu
  refine canon_ite hs ?_
  split
  · exact canon_deliver hu
  · exact canon_ite (canon_modCtx hu) (canon_ite (canon_deliver hr) (canon_modCtx hr))

theorem canon_execPrivilegedTrap (hs : s.Canon) : OutCanon (execPrivilegedTrap core slot s) := by
  unfold execPrivilegedTrap
  dsimp only
  split
  · exact canon_ite (canon_takePend hs) hs
  · exact hs

theorem canon_writeUpcall {rot : BitVec 40} (hs : s.Canon) : (writeUpcall s c n p rot).Canon := by
  unfold writeUpcall
  exact canon_ite hs (canon_ite hs (canon_memWrite hs))

theorem canon_execUpcallRecord (hs : s.Canon) : OutCanon (execUpcallRecord core slot s) := by
  unfold execUpcallRecord
  dsimp only
  split
  · exact canon_ite (canon_writeUpcall hs) hs
  · exact hs

theorem canon_enterUpcEntry (hs : s.Canon) : (enterUpcEntry s c h).Canon := canon_memWrite hs

theorem canon_askBack {w : Wait} (hs : s.Canon) : (askBack s c n w).1.Canon := by
  unfold askBack
  split
  · exact hs
  · generalize (s.req _).map (·.reply) = o
    cases o with
    | none => exact hs
    | some r =>
      cases r with
      | none => exact canon_sendCancel hs
      | ok | page | err | withdrawn => exact hs

theorem canon_deliverUpcall (hs : s.Canon) : (deliverUpcall s c h).Canon := by
  unfold deliverUpcall
  extract_lets k x entryOk a
  have ha : a.1.Canon := by
    unfold a
    split
    · dsimp only
      split
      · exact canon_abandonWait (canon_askBack hs)
      · exact canon_askBack hs
    · split
      · exact canon_commitChunk hs
      · exact hs
  exact canon_ite hs (canon_ite ha (canon_ite (canon_enterUpcEntry ha) (canon_enterPriv ha)))

theorem canon_execUpcallDelivery (hs : s.Canon) : OutCanon (execUpcallDelivery core s) := by
  unfold execUpcallDelivery
  split
  · exact canon_ite (canon_deliverUpcall hs) hs
  · exact hs

theorem canon_execWithdrawalAnswer (hs : s.Canon) : OutCanon (execWithdrawalAnswer core slot s) := by
  unfold execWithdrawalAnswer
  split
  · split
    · split
      · exact canon_of_some (canon_completeWait hs) ‹_›
      · exact canon_ite (canon_leaveWait hs) hs
    · exact hs
  · exact hs

end Sys2Proof.Machine
end

section
/-! O4: the rotation boundary, stealing, and the task graph unit. -/

namespace Sys2Proof.Machine

variable {s : State} {c v thief core : CoreId} {e : Entry} {n : SlotNo} {m : HostMsg} {d die : BitVec 2} {id : Nat} {fill : Bool}
  {l : Launch} {tag : BitVec 16}

theorem canon_enqueueWork (hs : s.Canon) : (enqueueWork s c e).Canon := canon_ite (canon_modCore hs) (canon_modCore (canon_writeImage hs))

theorem canon_startCtx (hs : s.Canon) : (startCtx s c n e).Canon :=
  canon_traceStart (canon_ite (canon_modLaunch (canon_modCore hs)) (canon_modCore hs))

theorem canon_report (hs : s.Canon) : (s.report m).Canon := canon_of_mem (State.report_mem ..) hs
theorem canon_tellFrom (hs : s.Canon) : (s.tellFrom d m).Canon := canon_of_mem (State.tellFrom_mem ..) hs
theorem canon_tell (hs : s.Canon) : (s.tell m).Canon := canon_of_mem (State.tell_mem ..) hs

theorem canon_arriveCtx {m : CtxMsg} (hs : s.Canon) : (arriveCtx s c m).Canon :=
  canon_ite (canon_traceStart (canon_modCore hs)) (canon_tell (canon_traceStart (canon_modCore hs)))

theorem canon_vacate (hs : s.Canon) : (vacate s c n).Canon := canon_ite (canon_modCore (canon_leaveSlot hs)) hs

theorem canon_startHelper {q : HStart} (hs : s.Canon) : (startHelper c s q).Canon := by
  unfold startHelper
  dsimp only
  split
  · exact canon_modCtx hs
  · exact canon_modCtx (canon_startCtx hs)

theorem canon_serveHstart (hs : s.Canon) : (serveHstart s c).Canon := canon_foldl (fun _ _ hu => canon_startHelper hu) (canon_modCore hs)
theorem canon_appliedReply {x : Word} (hs : s.Canon) : (appliedReply s c id x).Canon := canon_ite (canon_tell hs) (canon_answer hs)
theorem canon_refusedReply (hs : s.Canon) : (refusedReply s c id).Canon := canon_ite (canon_tell hs) (canon_answer hs)

theorem canon_applyStart {req : Nat} (hs : s.Canon) : (applyStart s c e req fill).Canon := by
  unfold applyStart
  dsimp only
  split
  · exact canon_refusedReply hs
  · split
    · exact canon_appliedReply (canon_startCtx hs)
    · exact canon_ite (canon_appliedReply (canon_enqueueWork hs)) (canon_modCore hs)

theorem canon_applyArrival {a : Arrival} (hs : s.Canon) : (applyArrival fill c s a).Canon := by
  unfold applyArrival
  split
  · exact canon_applyStart hs
  · exact canon_ite (canon_arriveCtx hs) (canon_modCore hs)
  · exact canon_ite (canon_startCtx hs) (canon_modCore hs)

theorem canon_serveArrivals (hs : s.Canon) : (serveArrivals s c fill).Canon := canon_foldl (fun _ _ hu => canon_applyArrival hu) (canon_modCore hs)

theorem canon_refill (hs : s.Canon) : (refill c s n).Canon := by
  unfold refill
  dsimp only
  split
  · exact hs
  · split
    · exact hs
    · split
      · exact hs
      · exact canon_startCtx (canon_modCore hs)

theorem canon_refillSlots (hs : s.Canon) : (refillSlots s c).Canon := canon_ite hs (canon_foldl (fun _ _ hu => canon_refill hu) (canon_modCore hs))
theorem canon_stealNote {from_ to_ : CoreId} {vc op : Nat} (hs : s.Canon) : (stealNote s from_ to_ vc op).Canon := canon_ite hs (canon_note hs)

theorem canon_askNext {asked : Nat} (hs : s.Canon) : (askNext s c asked).Canon := by
  unfold askNext
  split
  · exact canon_stealNote (canon_modCore hs)
  · exact canon_modCore hs

theorem canon_beginSeek (hs : s.Canon) : (beginSeek s c).Canon := by
  unfold beginSeek
  dsimp only
  split
  · exact hs
  · split
    · exact canon_askNext (canon_modCore hs)
    · exact hs

theorem canon_unqueue (hs : s.Canon) : (unqueue s v c).Canon := canon_of_mem (unqueue_mem ..) hs

theorem canon_markSteal (hs : s.Canon) : (markSteal s v c).Canon := by
  unfold markSteal
  dsimp only
  split
  · exact hs
  · exact canon_send (canon_modCore (canon_unqueue hs))

theorem canon_giveSteal {i : Nat} {e : DqEntry} (hs : s.Canon) : (giveSteal s v c i e).Canon :=
  canon_ite hs (canon_send (canon_offerIf (canon_countCore (canon_modCore hs))))

theorem canon_divertSteal (hs : s.Canon) : (divertSteal s v c).Canon := canon_ite hs (canon_divertTo hs)

theorem canon_execStealRequest {victim : CoreId} (hs : s.Canon) : OutCanon (execStealRequest victim thief s) := by
  unfold execStealRequest
  split
  · split
    · exact hs
    · split
      · exact canon_ite hs (canon_divertSteal hs)
      · split
        · split
          · exact canon_giveSteal hs
          · exact canon_ite (canon_markSteal hs) hs
        · exact hs
  · exact hs

theorem canon_execStealNone (hs : s.Canon) : OutCanon (execStealNone thief s) := by
  unfold execStealNone
  split
  · exact canon_ite hs (canon_ite (canon_askNext (canon_ite (canon_stealNote (canon_unqueue hs)) (canon_unqueue hs))) hs)
  · exact hs

theorem canon_decide_ (hs : s.Canon) : (decide_ s c).Canon := by
  refine canon_tracePre ?_
  refine canon_modCore ?_
  refine canon_foldl (fun _ _ hu => ?_) (canon_foldl (fun _ _ hu => canon_releaseToken (canon_squash hu)) hs)
  split
  · exact canon_sendCancel hu
  · exact hu

theorem canon_applyFreeze {cause : Nat} (hs : s.Canon) : (applyFreeze s c cause).Canon := by
  unfold applyFreeze
  exact canon_modCore (canon_foldl (fun _ _ hu => canon_ite hu (canon_traceDebug (canon_freezeCtx hu))) hs)

theorem canon_applyHalt (hs : s.Canon) : (applyHalt s c).Canon := canon_ite (canon_tell (canon_modCore hs)) hs

theorem canon_boundaryRecords {k : Core} (hs : s.Canon) : (boundaryRecords s c k).Canon :=
  canon_ite (canon_traceCounts (canon_traceSlot (canon_offerKept hs))) (canon_traceSlot (canon_offerKept hs))

theorem canon_grantBank (hs : s.Canon) : (grantBank s c).Canon := by
  unfold grantBank
  dsimp only
  split
  · split
    · exact canon_takeBank hs
    · exact hs
  · exact hs

theorem canon_freezeNow (hs : s.Canon) : (freezeNow s c).Canon := by
  unfold freezeNow
  split
  · exact canon_applyFreeze hs
  · exact hs

theorem canon_boundarySteps (hs : s.Canon) : (boundarySteps s c).Canon := by
  unfold boundarySteps
  extract_lets s₁ k s₂ s₃
  have h₁ : s₁.Canon := canon_freezeNow (canon_foldl (fun _ _ hu => canon_vacate hu) hs)
  have h₂ : s₂.Canon := canon_serveArrivals (canon_serveHstart (canon_grantBank h₁))
  have h₃ : s₃.Canon := canon_refillSlots h₂
  exact canon_ite h₁ (canon_ite (canon_serveArrivals h₁) (canon_ite h₂ (canon_ite (canon_beginSeek h₃) h₃)))

theorem canon_execRotationBoundary (hs : s.Canon) : OutCanon (execRotationBoundary core s) := by
  unfold execRotationBoundary
  extract_lets s₁ k s₂ s₃ s₄
  have h₃ : s₃.Canon := canon_applyHalt (canon_boundarySteps (canon_modCore hs))
  exact canon_modCore (canon_boundaryRecords (canon_ite (canon_decide_ h₃) h₃))

theorem canon_execActiveMessageArrival (hs : s.Canon) : OutCanon (execActiveMessageArrival id s) := by
  unfold execActiveMessageArrival
  split
  · exact hs
  · split
    · exact hs
    · split
      · exact canon_ite (canon_ite (canon_answer hs) (canon_ite (canon_answer hs) (canon_ite (canon_answer hs) (canon_answer (canon_draw hs)))))
          (canon_ite (canon_answer hs) (canon_ite hs (canon_modCore hs)))
      · exact hs

theorem canon_execContextArrival (hs : s.Canon) : OutCanon (execContextArrival id s) := by
  unfold execContextArrival
  split
  · exact hs
  · split
    · exact hs
    · split
      · exact canon_ite (canon_answer hs) (canon_modCore (canon_dropReq hs))
      · exact hs

theorem canon_execSlotViewReport (hs : s.Canon) : OutCanon (execSlotViewReport core s) := canon_reserveGang (canon_modCore (canon_modTgu hs))

theorem canon_execLaunchPlacement (hs : s.Canon) : OutCanon (execLaunchPlacement die s) := by
  unfold execLaunchPlacement
  split
  · exact hs
  · split
    · exact hs
    · exact canon_unitStart (canon_modLaunch hs)

theorem canon_execGangStart (hs : s.Canon) : OutCanon (execGangStart die s) := by
  unfold execGangStart
  split
  · exact hs
  · exact canon_ite hs (canon_foldl (fun _ _ hu => canon_modCore (canon_emit hu)) (canon_modLaunch hs))

theorem canon_freeLaunch (hs : s.Canon) : (freeLaunch s d l).Canon := hs

theorem canon_launchNote {q : Word} {node rop : Nat} (hs : s.Canon) : (launchNote s die l q node rop).Canon :=
  canon_ite hs (canon_note (canon_note hs))

theorem canon_execLaunchCompletion (hs : s.Canon) : OutCanon (execLaunchCompletion die tag s) := by
  unfold execLaunchCompletion
  dsimp only
  split
  · exact hs
  · split
    · exact hs
    · split
      · exact hs
      · split
        · exact hs
        · split
          · exact canon_ite hs (canon_freeLaunch (canon_writeKeysSquash (canon_launchNote (canon_touchAt hs))))
          · exact canon_freeLaunch (canon_launchNote hs)
          · exact canon_composeError (canon_freeLaunch (canon_ite (canon_touchAt hs) (canon_launchNote (canon_touchAt hs))))

theorem canon_execGangHold (hs : s.Canon) : OutCanon (execGangHold core tag s) :=
  canon_ite (canon_modCore (canon_foldl (fun _ _ hu => canon_ite (canon_squash hu) hu) hs)) hs

theorem canon_execGangHoldLift (hs : s.Canon) : OutCanon (execGangHoldLift core tag s) := canon_ite hs (canon_modCore hs)

end Sys2Proof.Machine
end

section
/-! O4: migration, core assignment, page commands, pre-emption, and the debug commands -/

namespace Sys2Proof.Machine

variable {s : State} {d : BitVec 2} {f : State → State} {c core dest : CoreId} {slot n : SlotNo} {tenant : Tenant} {pool : Bool}

theorem canon_dieCommand {node : Nat} (hs : s.Canon) (hf : ∀ u, u.Canon → (f u).Canon) : (dieCommand d node s f).Canon := canon_ite (hf _ hs) hs
theorem canon_hostCommand (hs : s.Canon) (hf : ∀ u, u.Canon → (f u).Canon) : (hostCommand c s f).Canon := canon_dieCommand hs hf

theorem canon_execContextMigration (hs : s.Canon) : OutCanon (execContextMigration core slot dest s) := by
  refine canon_hostCommand hs fun _ hu => ?_
  split
  · exact canon_tell hu
  · split
    · exact canon_tell hu
    · refine canon_modCtx ?_
      split
      · exact canon_sendCancel (canon_modCore hu)
      · exact canon_modCore hu

theorem canon_settleDeparting {w : Wait} (hs : s.Canon) : (settleDeparting s c n w).Canon := by
  unfold settleDeparting
  split
  · exact canon_modCtx (canon_abandonWait hs)
  · split
    · exact canon_modCtx (canon_abandonWait (canon_dropReq hs))
    · split
      · exact canon_modCtx (canon_of_some (canon_completeWait hs) ‹_›)
      · exact hs
    · exact hs

theorem canon_sendContext {d : SlotNo} (hs : s.Canon) : (sendContext s c n dest d).Canon := canon_modCore (canon_send (canon_traceEvent hs))

theorem canon_execRegisterContextMessage (hs : s.Canon) : OutCanon (execRegisterContextMessage core slot s) := by
  unfold execRegisterContextMessage
  dsimp only
  split
  · split
    · exact canon_settleDeparting hs
    · exact canon_ite (canon_sendContext hs) hs
  · exact hs

theorem canon_execCoreUnassign (hs : s.Canon) : OutCanon (execCoreUnassign core s) :=
  canon_hostCommand hs fun _ hu => canon_ite (canon_tell hu) (canon_tell (canon_modCore (canon_leaveSlot (canon_dropWork hu))))

theorem canon_dropPages {pages : List Nat} (hs : s.Canon) : (dropPages s tenant pool d pages).Canon := hs

theorem canon_openPage {frame : Option Nat} {die : BitVec 2} {va : Nat} {large : Bool} (hs : s.Canon) :
    (openPage s frame tenant pool die va large).Canon := canon_modDie (canon_foldl (fun _ _ hu => hu) hs)

/-- R153 steps 3-5: the frame is copied, its leaf entry and the two frame descriptors are written. -/
theorem canon_moveFrame {leaf entry old new n : Nat} (hs : s.Canon) : (moveFrame s d leaf entry old new n).Canon := by
  unfold moveFrame
  extract_lets m₁ m₂ kd ref
  have h₂ : m₂.wf = true := Mem.wf_memWrite _ _ _ (Mem.wf_memWrite _ _ _ hs)
  clear_value m₂ kd ref
  exact canon_countDie (canon_countDie (Mem.wf_memWrite _ _ _ (Mem.wf_memWrite _ _ _ h₂)))

theorem canon_closePage {m : PageCmd} (hs : s.Canon) : (closePage s m).Canon := by
  unfold closePage
  split
  · exact canon_tell hs
  · split
    · exact canon_tell hs
    · split
      · exact canon_serveStreams (canon_tell (canon_dropPages (canon_moveFrame hs)))
      · exact hs

theorem canon_pageStep (hs : s.Canon) : (pageStep s d).Canon := canon_foldl (fun _ _ hu => canon_ite hu (canon_closePage (canon_modDie hu))) hs

theorem canon_putRegions {m : Mem} {area : Nat} {rs : List (Nat × List Byte)} (h : m.wf = true) : (putRegions m d area rs).wf = true :=
  foldl_holds (fun m : Mem => m.wf = true) _ (fun _ _ h => Mem.wf_memWrite _ _ _ h) _ _ h

/-- R357: the save area receives the regions of the image and the scratchpad. -/
theorem canon_writeArea (hs : s.Canon) : (writeArea s c).Canon := by
  unfold writeArea
  extract_lets k d rs m k'
  have hm : m.wf = true := Mem.wf_memWrite _ _ _ (canon_putRegions hs)
  clear_value m k' rs
  exact hm

theorem canon_execSaveAreaWrite (hs : s.Canon) : OutCanon (execSaveAreaWrite core s) := by
  unfold execSaveAreaWrite
  dsimp only
  split
  · exact canon_ite (canon_tracePre (canon_modCore hs)) hs
  · exact canon_tell (canon_tracePre (canon_modCore (canon_writeArea hs)))
  · exact hs

theorem canon_redeliver {id : Nat} (hs : s.Canon) : (redeliver c s id).Canon := by
  unfold redeliver
  split
  · exact hs
  · split
    · exact canon_performMb hs
    · exact canon_performMb hs
    · exact canon_modCore hs
    · exact canon_modCore (canon_dropReq hs)
    · exact canon_modCore (canon_dropReq hs)
    · exact canon_settleHead (canon_modCore hs)

theorem canon_execRestoreComplete (hs : s.Canon) : OutCanon (execRestoreComplete core s) := by
  unfold execRestoreComplete
  dsimp only
  split
  · exact canon_tell (canon_tracePre (canon_foldl (fun _ _ hu => canon_redeliver hu) (canon_setCore (canon_memWrite hs))))
  · exact hs

theorem canon_clusterCommand {cl : BitVec 8} (hs : s.Canon) (hf : ∀ u, u.Canon → (f u).Canon) : (clusterCommand cl s f).Canon :=
  canon_hostCommand hs hf

theorem canon_execRelease {cluster : BitVec 8} {who : Option (CoreId × SlotNo)} (hs : s.Canon) : OutCanon (execRelease cluster who s) := by
  unfold execRelease
  split
  · exact canon_hostCommand hs fun _ hu => canon_modCtx hu
  · exact canon_clusterCommand hs fun _ hu => canon_foldl (fun _ _ hu1 => canon_modCore hu1) hu

end Sys2Proof.Machine
end

section
/-! O4: bring-up, services and firmware. -/

namespace Sys2Proof.Machine

variable {s : State}

theorem canon_serve {stage cause : Nat} (hs : s.Canon) : (s.serve stage cause).Canon := canon_foldl (fun _ _ hu => canon_modDie hu) hs
theorem canon_placeTables (hs : s.Canon) : s.placeTables.Canon := hs

theorem canon_writeDevId {x : BitVec 10} (hs : s.Canon) : (writeDevId s x).Canon :=
  canon_ite hs (canon_of_mem rfl (canon_foldl (fun _ _ hu => hu) hs))

theorem canon_execUcieTraining {devId : BitVec 10} {hdm : List HdmDec} (hs : s.Canon) : OutCanon (execUcieTraining devId hdm s) := by
  have h : (writeDevId (s.serve 3 1) devId).placeTables.Canon := canon_placeTables (canon_writeDevId (canon_serve hs))
  exact canon_ite hs h

theorem canon_execFirmwareVerification {pub digest body sig : List Byte} (hs : s.Canon) :
    OutCanon (execFirmwareVerification pub digest body sig s) := canon_ite hs (canon_ite (canon_of_mem rfl (canon_serve hs)) (canon_report hs))

theorem canon_execIdentityDerivation (hs : s.Canon) : OutCanon (execIdentityDerivation s) := canon_ite hs (canon_of_mem rfl (canon_serve hs))
theorem canon_execNormalService (hs : s.Canon) : OutCanon (execNormalService s) := canon_ite hs (canon_of_mem rfl (canon_serve hs))
theorem canon_tellSvc (hs : s.Canon) : (tellSvc s).Canon := canon_ite (canon_report hs) hs

theorem canon_powerStep (hs : s.Canon) : (powerStep s).Canon := by
  unfold powerStep
  split
  · exact hs
  · split
    · exact hs
    · split
      · exact hs
      · exact canon_tellSvc (canon_modDie hs)

theorem canon_execDieCounterAccess {die : BitVec 2} {n : BitVec 4} {sel : Option (BitVec 8)} (hs : s.Canon) :
    OutCanon (execDieCounterAccess die n sel s) := by
  refine canon_dieCommand hs fun _ hu => ?_
  split
  · exact canon_modDie hu
  · exact canon_tellFrom hu

end Sys2Proof.Machine
end

section
/-! O4: the trace core of a die. -/

namespace Sys2Proof.Machine

variable {s : State} {die : BitVec 2}

theorem canon_acceptStalled {d : BitVec 2} (hs : s.Canon) : (acceptStalled s d).Canon := by
  refine canon_foldl (fun _ _ hu => ?_) hs
  split
  · exact hu
  · exact canon_ite (canon_modCore (canon_modDie hu)) hu

theorem canon_execSillageAccept (hs : s.Canon) : OutCanon (execSillageAccept die s) := by
  unfold execSillageAccept
  split
  · exact canon_acceptStalled hs
  · exact canon_acceptStalled (canon_ite (canon_broadcastFreeze (canon_modDie hs)) (canon_modDie hs))

theorem canon_execLoss (hs : s.Canon) : OutCanon (execLoss die s) := canon_ite (canon_modDie hs) hs

theorem canon_frameIn {t : Nat} (hs : s.Canon) : (frameIn die t s).Canon := by
  unfold frameIn
  dsimp only
  split
  · exact canon_ite hs (canon_modDie hs)
  · exact hs

end Sys2Proof.Machine
end

section
/-! O4: routers and links. -/

namespace Sys2Proof.Machine

variable {s : State} {router inp n port : Nat} {vc : BitVec 2} {p : Packet} {up : Option Nat}

theorem canon_execCreditReturn {buf : Nat} (hs : s.Canon) : OutCanon (execCreditReturn router inp buf s) := canon_ite hs hs
theorem canon_countFlit (hs : s.Canon) : (countFlit s n vc).Canon := canon_ite (canon_countCore hs) (canon_ite (canon_countDie hs) hs)
theorem canon_flitIn {i : Nat} (hs : s.Canon) : (flitIn s p up n i).Canon := canon_ite hs hs
theorem canon_sendFlit {dest : Nat × Nat} (hs : s.Canon) : (sendFlit s n port p dest up).Canon := canon_flitIn (canon_countFlit hs)

theorem canon_execOutputArbitration (hs : s.Canon) : OutCanon (execOutputArbitration router port s) := by
  unfold execOutputArbitration
  split
  · exact canon_ite (canon_sendFlit hs) hs
  · split
    · exact hs
    · split
      · exact canon_sendFlit hs
      · exact hs

theorem canon_execUrgPromotion (hs : s.Canon) : OutCanon (execUrgPromotion router inp vc s) := by
  unfold execUrgPromotion
  dsimp only
  split
  · exact canon_ite hs (canon_ite (canon_countDie (canon_countCore hs)) (canon_ite (canon_countDie hs) (canon_ite (canon_countDie hs) hs)))
  · exact hs

theorem canon_dropCut (hs : s.Canon) : (dropCut s).Canon := canon_ite hs hs

theorem canon_ageNode (hs : s.Canon) : (ageNode s n).Canon := by
  unfold ageNode
  extract_lets r hq u
  split
  · exact hs
  · refine canon_foldl (fun u p hu => ?_) hs
    have ho := canon_execUrgPromotion (router := n) (inp := p.inp) (vc := p.vc) hu
    split
    · next ht => rw [ht] at ho; exact ho
    · exact hu

theorem canon_countPools (hs : s.Canon) : (countPools s).Canon := canon_foldl (fun _ _ hu => canon_ite (canon_countDie hu) hu) hs

theorem canon_fabricCycle (hs : s.Canon) : (fabricCycle s).Canon := by
  unfold fabricCycle
  extract_lets u ns run a b
  have hrun : ∀ u o, u.Canon → OutCanon o → (run u o).Canon := by
    intro u o hu ho
    cases o with
    | next t => exact ho
    | fault | refused => exact hu
  refine canon_ite (canon_dropCut hs) ?_
  have ha : a.Canon := canon_foldl (fun _ _ h => canon_foldl (fun _ _ h => hrun _ _ h (canon_execOutputArbitration h)) h) (canon_dropCut hs)
  have hb : b.Canon := canon_foldl (fun _ _ h => canon_ageNode h) (canon_countPools ha)
  exact canon_foldl (fun _ _ h => canon_foldl (fun _ _ h => canon_foldl (fun _ _ h => hrun _ _ h (canon_execCreditReturn h)) h) h) hb

end Sys2Proof.Machine
end

section
/-! O4: the meanings of all words and events. -/

namespace Sys2Proof.Machine

variable {s : State}

/-- Every word and every event keeps memory canonical: words of one shape by the rule of the shape, the others by their own. -/
theorem canon_exec {i : Instr} (hs : s.Canon) : OutCanon (exec i s) := by
  cases i
  case nop => exact canon_runC hs fun _ hu => hu
  case nopA | vbsc => exact canon_runA hs fun _ hu => hu
  case br | jmp => exact canon_runJ hs fun _ hu => canon_goto hu
  case call => exact canon_execCall hs
  case jmpi | ret => exact canon_runJ hs fun _ hu => canon_jumpTo hu
  case loop => exact canon_execLoop hs
  case park => exact canon_runW hs fun _ _ hu => canon_donePark hu
  case hstart => exact canon_runE hs fun _ hu => canon_advance (canon_modMine (canon_addLong hu))
  case hend => exact canon_runR hs fun _ hu => hu
  case hjoin => exact canon_runW hs fun _ _ hu => canon_doneHjoin hu
  case hsave => exact canon_runEW hs (fun _ hu => hu) (fun _ _ hu => canon_doneHsave hu)
  case hload => exact canon_execHload hs
  case hresume => exact canon_execHresume hs
  case trap | brk => exact canon_runE hs fun _ hu => canon_trapAfter hu
  case eret => exact canon_runE hs fun _ hu => canon_retTrap hu
  case hret => exact canon_runE hs fun _ hu => canon_retHandler hu
  case upret => exact canon_runE hs fun _ hu => canon_retUpcall hu
  case tmark => exact canon_runC hs fun _ hu => canon_traceUser hu
  case cnt | klook | wfield | movl | mstat => exact canon_runC hs fun _ hu => canon_wrG hu
  case pshare => exact canon_runE hs fun _ hu => canon_advance (canon_addLong (canon_send hu))
  case halt => exact canon_runE hs fun _ hu => canon_stopCore (canon_advance hu)
  case crr => exact canon_execCrr hs
  case crw | crs | crc => exact canon_crWriteOp hs
  case ld | ldn | ldx => exact canon_runC hs fun _ hu => canon_withEA fun _ => canon_scalarLoad hu
  case st | stx | vst => exact canon_runC hs fun _ hu => canon_withEA fun _ => canon_storeAt hu
  case vld => exact canon_runC hs fun _ hu => canon_withEA fun _ => canon_loadAt hu fun _ _ hu1 => hu1
  case vldf => exact canon_runC hs fun _ hu => canon_withForm fun _ => canon_loadAt hu fun _ _ hu1 => canon_formWrite hu1
  case vstf => exact canon_execVstf hs
  case vldt => exact canon_execVldt hs
  case vgath => exact canon_execVgath hs
  case vscat => exact canon_execVscat hs
  case amo | acas => exact canon_amoRun hs
  case red => exact canon_runR (canon_walkPage hs) fun _ hu => canon_redOp hu
  case fence => exact canon_runEW hs (fun _ hu => hu) (fun _ _ hu => canon_doneFence hu)
  case post => exact canon_runR hs fun _ hu => canon_postOp hu
  case recv => exact canon_runEW hs (fun _ hu => hu) (fun _ _ hu => canon_doneRecv hu)
  case ipeek => exact canon_execIpeek hs
  case kclaim | kunbind | kunpin | kscan | kwin => exact canon_kmOp hs
  case kready => exact canon_runR hs fun _ hu => canon_kreadyOp hu
  case kwait => exact canon_runW hs fun _ _ hu => canon_doneKwait hu
  case kpin => exact canon_runE hs fun _ hu => canon_advance (canon_wrG hu)
  case kload => exact canon_runC hs fun _ hu => canon_kloadBody hu
  case kinv | kcfg | mmac | mzero | mput => exact canon_runE hs fun _ hu => canon_advance hu
  case rclaim | rwait => exact canon_ringWait hs
  case rpush | rrel | rset => exact canon_ringPost hs
  case rstat => exact canon_execRstat hs
  case cpset => exact canon_runE hs fun _ hu => canon_advance (canon_modCh hu)
  case cpgo => exact canon_runE (canon_ite (canon_walkDesc hs) hs) fun _ hu => canon_advance (canon_cpStart hu)
  case cpwp => exact canon_execCpwp hs
  case cpwait => exact canon_runW hs fun _ _ hu => canon_doneCpwait hu
  case cpabort => exact canon_runE hs fun _ hu => canon_advance (canon_ite hu hu)
  case mbinc | mbset => exact canon_mbPost hs
  case mbwait => exact canon_runW hs fun _ _ hu => canon_doneMbwait hu
  case mbrd => exact canon_execMbrd hs
  case spend => exact canon_runR hs fun _ hu => canon_spendOp hu
  case amsg => exact canon_runE hs fun _ hu => canon_advance (canon_startOp hu)
  case tgnew => exact canon_runR hs fun _ hu => canon_tgnewOp hu
  case tgdone => exact canon_execTgdone hs
  case tglaunch => exact canon_runR (canon_walkObj hs) fun _ hu => canon_tglaunchOp hu
  case tgstat => exact canon_runC hs fun _ hu => resCanon_ite trivial (resCanon_ite trivial (canon_addLong (canon_freshId hu)))
  case spawn => exact canon_runE hs fun _ hu => canon_spawnOp hu
  case apxOn => exact canon_runE (canon_walkObj hs) fun _ hu => canon_advance (canon_modMe (canon_wrP (canon_engineOn hu)))
  case apxIn | apxOut => exact canon_runE hs fun _ hu => canon_advance (canon_modMe hu)
  case apxRes => exact canon_runE hs fun _ hu => canon_advance (canon_addLong hu)
  case apxEnd => exact canon_runE hs fun _ hu => canon_advance (canon_closeInv hu)
  case apxInv => exact canon_execApxInv hs
  case apxSt => exact canon_runE (canon_ite (canon_walkObj hs) hs) fun _ hu => canon_advance (canon_wrG hu)
  case apxLd => exact canon_runE (canon_ite (canon_walkObj hs) hs) fun _ hu => canon_advance (canon_apxLoad hu)
  case cbPush => exact canon_cbWait hs fun _ _ hu => canon_doneCbPush hu
  case cbPull => exact canon_cbWait hs fun _ _ hu => canon_doneCbPull hu
  case cbDone => exact canon_runR (canon_walkObj hs) fun _ hu => canon_cbDoneOp hu
  case cbEnd => exact canon_runE (canon_walkObj hs) fun _ hu => canon_advance (canon_serveAll (canon_streamEvent hu))
  case cbSt => exact canon_execCbSt hs
  case add | sub | mul | mulh | mulhn | and | or | xor | shl | shr | sra | min | max | minn | maxn => exact canon_aluRR hs
  case div | divn | rem | remn => exact canon_divOp hs
  case clz | ctz | popc | sel | addi | andi | ori | xori | shli | shri | srai | movi | movh | bfx | bfi => exact canon_aluW hs
  case cmp | pchk => exact canon_runA hs fun _ hu => canon_ite (canon_wrP hu) hu
  case cmpi | vcmp => exact canon_runA hs fun _ hu => canon_wrP hu
  case padd | paddi | pidx | ptag | pget | pmk => exact canon_ptrOp hs
  case vadd | vsub | vmul | vmin | vmax | vand | vor | vxor | vshift => exact canon_vec2 hs
  case vfma | vfms | vnfma => exact canon_vec3 hs
  case vabs | vneg => exact canon_vec1 hs
  case vdiv | vsqrt | vrcp | vrsq | vexp2 | vlog2 => exact canon_vecLong hs
  case vcvt | vbc | vins | vperm | vslide | vpack | vunpack => exact canon_vecRun hs
  case vsel => exact canon_vecWhole hs
  case vsum | vmaxr => exact canon_vecReduce hs
  case vext => exact canon_runA hs fun _ hu => canon_ite (canon_wrG hu) hu
  case mget => exact canon_runE (canon_walkPage hs) fun _ hu => canon_advance (canon_mgetPlace (canon_touchOwn hu))
  case mwait => exact canon_runW hs fun _ _ hu => canon_doneMwait hu
  case unassignedEncoding => exact canon_execUnassignedEncoding hs
  case rotationBoundary => exact canon_execRotationBoundary hs
  case serviceTurn => exact canon_execServiceTurn hs
  case serviceRequestArrival => exact canon_execServiceRequestArrival hs
  case ringCancel => exact canon_execRingCancel hs
  case remoteAccessArrival => exact canon_execRemoteAccessArrival hs
  case farOperationArrival => exact canon_execFarOperationArrival hs
  case acknowledgement => exact canon_execAcknowledgement hs
  case longResultReturn => exact canon_execLongResultReturn hs
  case waitConditionMet => exact canon_execWaitConditionMet hs
  case waitx => exact canon_execWaitx hs
  case chunkCommit => exact canon_finishChunk hs
  case privilegedTrap => exact canon_execPrivilegedTrap hs
  case upcallRecord => exact canon_execUpcallRecord hs
  case upcallDelivery => exact canon_execUpcallDelivery hs
  case remoteError => exact canon_execRemoteError hs
  case errorRecordAck => exact canon_ite (canon_modDie (canon_note hs)) hs
  case registerContextMessage => exact canon_execRegisterContextMessage hs
  case contextArrival => exact canon_execContextArrival hs
  case lateReplyForward => exact canon_execLateReplyForward hs
  case coreAssign => exact canon_hostCommand hs fun _ hu => canon_ite (canon_tell hu) (canon_tell (canon_modCore hu))
  case coreUnassign => exact canon_execCoreUnassign hs
  case coreResume => exact canon_hostCommand hs fun _ hu => canon_ite (canon_tell (canon_modCore hu)) (canon_tell hu)
  case pageInvalidation => exact canon_dieCommand hs fun _ hu => canon_pageStep (canon_openPage hu)
  case pageMigration => exact canon_dieCommand hs fun _ hu => canon_ite (canon_tell hu) (canon_pageStep (canon_openPage hu))
  case contextMigration => exact canon_execContextMigration hs
  case save | restore => exact canon_hostCommand hs fun _ hu => canon_ite (canon_tell hu) (canon_tracePre (canon_modCore hu))
  case withdrawalAnswer => exact canon_execWithdrawalAnswer hs
  case saveAreaWrite => exact canon_execSaveAreaWrite hs
  case restoreComplete => exact canon_execRestoreComplete hs
  case divertedArrival => exact canon_execDivertedArrival hs
  case gangHold => exact canon_execGangHold hs
  case gangHoldLift => exact canon_execGangHoldLift hs
  case hostActiveMessage => exact canon_ite (canon_emit hs) hs
  case activeMessageArrival => exact canon_execActiveMessageArrival hs
  case slotViewReport => exact canon_execSlotViewReport hs
  case launchPlacement => exact canon_execLaunchPlacement hs
  case launchCompletion => exact canon_execLaunchCompletion hs
  case gangStart => exact canon_execGangStart hs
  case stealRequest => exact canon_execStealRequest hs
  case stealNone => exact canon_execStealNone hs
  case stealBackoffExpiry => exact canon_ite (canon_beginSeek hs) hs
  case copyWrite => exact canon_execCopyWrite hs
  case copyComplete => exact canon_execCopyComplete hs
  case copyError => exact canon_execCopyError hs
  case accordCommandBegin => exact canon_execAccordCommandBegin hs
  case accordCommandRetire => exact canon_execAccordCommandRetire hs
  case mgetTileRead => exact canon_execMgetTileRead hs
  case mgetComplete => exact canon_execMgetComplete hs
  case surrogateResult => exact canon_execSurrogateResult hs
  case heldConstraintReturn => exact canon_ite (canon_returnAllHeld hs) hs
  case qwgtWrite | slotOwnWrite | accWgtWrite | trapCauseWrite | dbgBpWrite | dbgWpWrite => exact hs
  case kmCfgWrite => exact canon_ite hs (canon_modCore hs)
  case sillageAccept => exact canon_execSillageAccept hs
  case loss => exact canon_execLoss hs
  case traceFrame => exact canon_frameIn hs
  case outputArbitration => exact canon_execOutputArbitration hs
  case urgPromotion => exact canon_execUrgPromotion hs
  case creditReturn => exact canon_execCreditReturn hs
  case clusterFreeze => exact canon_ite (canon_freezeNow hs) hs
  case freeze => exact canon_clusterCommand hs fun _ hu => canon_broadcastFreeze hu
  case release => exact canon_execRelease hs
  case step => exact canon_hostCommand hs fun _ hu => canon_ite (canon_modCore (canon_modCtx hu)) hu
  case filterProgramLoad => exact canon_dieCommand hs fun _ hu => canon_ite (canon_tell (canon_modDie hu)) (canon_tell hu)
  case filterCounterRead => exact canon_dieCommand hs fun _ hu => canon_modDie (canon_tellFrom hu)
  case linkFailure => exact canon_ite hs (canon_foldl (fun _ _ hu => canon_modDie hu) hs)
  case fabricConfig | attestationRequest => exact canon_ite (canon_report hs) (canon_report hs)
  case deviceReset => exact canon_filter hs
  case sramSelfTest => exact canon_ite hs (canon_filter hs)
  case ucieTraining => exact canon_execUcieTraining hs
  case accordCalibration => exact canon_ite hs (canon_serve hs)
  case firmwareVerification => exact canon_execFirmwareVerification hs
  case identityDerivation => exact canon_execIdentityDerivation hs
  case normalService => exact canon_execNormalService hs
  case devIdWrite => exact canon_writeDevId hs
  case devSvcWrite => exact canon_dieCommand hs fun _ hu => canon_ite hu (canon_tellSvc (canon_modDie hu))
  case powerLimit => exact canon_ite hs (canon_powerStep hs)
  case trapVectorWrite => exact canon_hostCommand hs fun _ hu => canon_modCore hu
  case dieCounterAccess => exact canon_execDieCounterAccess hs
  case softError => exact canon_ite hs (canon_modCtx hs)
  case unitFence => exact canon_ite hs hs
  case traceLaneDown => exact canon_modDie hs

end Sys2Proof.Machine
end

section
/-! O4: a turn of the clock. -/

namespace Sys2Proof.Machine

variable {s : State} {c : CoreId} {n : SlotNo}

theorem canon_outState {o : Out} (hs : s.Canon) (ho : s.Canon → OutCanon o) : (outState s o).Canon := by
  cases o with
  | next t => exact ho hs
  | fault | refused => exact hs

theorem canon_beginCycle (hs : s.Canon) : (beginCycle s c).Canon :=
  canon_foldl (fun _ _ hu => canon_foldl (fun _ _ hu1 => canon_settleLong hu1) hu) (canon_modCore (canon_countCore hs))

theorem canon_finishSlots {ns : List SlotNo} (hs : s.Canon) : (finishSlots c ns s).Canon := canon_foldl (fun _ _ hu => canon_finishChunk hu) hs

theorem canon_endCycle (hs : s.Canon) : (endCycle s c n).Canon :=
  canon_foldl (fun _ _ hu => canon_ite hu (canon_tickWait hu)) (canon_finishSlots hs)

theorem canon_closeTurn {x : Ctx} (hs : s.Canon) : (closeTurn x c n s).Canon :=
  canon_ite hs (canon_ite (canon_modCtx hs) (canon_countCtx (canon_modCtx hs)))

theorem canon_endReplay (hs : s.Canon) : (endReplay s c n).Canon := canon_ite (canon_modCtx hs) hs

theorem canon_liveTurn {ex : Instr → State → Out} (hex : MeaningCanon ex) (hs : s.Canon) : OutCanon (liveTurn ex s c n) := by
  unfold liveTurn
  extract_lets x u v
  have hu : u.Canon := canon_endReplay hs
  have hv : v.Canon := canon_requestToken hu
  clear_value v u
  refine outCanon_ite hs (outCanon_ite (canon_complTurn hs) ?_)
  split
  · exact canon_takePend hs
  · refine outCanon_ite ?_ (outCanon_ite (canon_ite hs (canon_replayAll hs)) ?_)
    · split
      · exact canon_deliverUpcall hs
      · exact hs
    · exact outCanon_ite (outCanon_ite hv (canon_issueTurn hex hv)) (canon_issueTurn hex hu)

theorem canon_askAgain {w : Wait} (hs : s.Canon) : (askAgain s c n w).Canon := by
  unfold askAgain
  split
  · exact hs
  · split
    · split
      · exact canon_modCtx (canon_send (canon_dropReq hs))
      · exact hs
    · exact canon_ite (canon_ite hs hs) hs

theorem canon_ctxTurn (hex : MeaningCanon ex) (hs : s.Canon) : OutCanon (ctxTurn ex s c n) := by
  unfold ctxTurn
  dsimp only
  have wait : ∀ w, OutCanon (if n = 0 && upcallDue (s.core c) then
      match (s.core c).r.upcPend with
      | h :: _ => .next (deliverUpcall s c h)
      | [] => .next (askAgain s c n w)
    else .next (askAgain s c n w)) := by
    intro w
    refine outCanon_ite ?_ (canon_askAgain hs)
    split
    · exact canon_deliverUpcall hs
    · exact canon_askAgain hs
  split
  · exact canon_liveTurn hex hs
  · exact canon_liveTurn hex hs
  · exact wait _
  · exact wait _
  · exact hs

theorem canon_stepTurn (hex : MeaningCanon ex) (hs : s.Canon) : OutCanon (stepTurn ex s c n) := by
  refine canon_afterIssue (canon_ctxTurn hex hs) fun t ht => ?_
  have h := canon_ite (p := (s.ctx c n).isWaiting = true) (canon_tickWait (c := c) (n := n) ht) ht
  exact canon_ite h (canon_endStep h)

theorem canon_slotWork (hex : MeaningCanon ex) (hs : s.Canon) : OutCanon (slotWork ex s c n) :=
  outCanon_ite (canon_afterIssue (outCanon_ite (canon_stepTurn hex hs) (canon_ctxTurn hex hs)) fun _ ht => canon_closeTurn ht) (canon_closeTurn hs)

theorem canon_slotTurn (hex : MeaningCanon ex) (hs : s.Canon) : OutCanon (slotTurn ex s c n) :=
  canon_afterIssue (canon_slotWork hex (canon_finishSlots (canon_modCtx (canon_beginCycle hs)))) fun _ ht => canon_offerKept (canon_endCycle ht)

theorem canon_serviceCycle (hs : s.Canon) : (serviceCycle s c).Canon := by
  unfold serviceCycle
  extract_lets u
  have hu : u.Canon := canon_outState hs fun hs => canon_execServiceTurn (canon_beginCycle hs)
  exact canon_outState hu fun hu => canon_execRotationBoundary (canon_endCycle hu)

theorem canon_runAll {α : Type} {f : α → State → Out} {xs : List α} (hf : ∀ a u, u.Canon → OutCanon (f a u)) (hs : s.Canon) :
    (runAll f xs s).Canon := canon_foldl (fun _ a hu => canon_outState hu (hf a _)) hs

theorem canon_hostWrite (hs : s.Canon) : (hostWrite s).Canon := by
  unfold hostWrite
  split
  · exact hs
  · exact canon_ite hs (canon_of_mem rfl (canon_writeKeysSquash hs))

theorem canon_fabricStep (hs : s.Canon) : (fabricStep s).Canon := by
  unfold fabricStep
  refine canon_foldl (fun u id hu => ?_) (canon_runAll (fun _ _ => canon_execRingCancel) (canon_hostWrite hs))
  have h₃ := canon_outState (canon_outState (canon_outState hu (canon_execFarOperationArrival (id := id)))
    (canon_execRemoteAccessArrival (id := id))) (canon_execServiceRequestArrival (id := id))
  exact canon_outState (canon_outState (canon_outState h₃ canon_execActiveMessageArrival) canon_execContextArrival) canon_execDivertedArrival

theorem canon_returnStep (hs : s.Canon) : (returnStep s c).Canon := by
  unfold returnStep
  refine canon_runAll (fun _ _ => canon_execLateReplyForward) (canon_runAll (fun _ _ => canon_execLongResultReturn) ?_)
  refine canon_foldl (fun _ _ => canon_runAll fun _ _ => canon_execLongResultReturn) ?_
  exact canon_runAll (fun _ _ => canon_execRemoteError) (canon_runAll (fun _ _ => canon_execAcknowledgement) hs)

theorem canon_contextStep (hs : s.Canon) : (contextStep s c).Canon := by
  unfold contextStep
  refine canon_foldl (fun u n hu => ?_) (canon_foldl (fun _ _ hu => canon_performGone hu) hs)
  have h := canon_outState (canon_performRelease (c := c) (n := n) hu) (canon_execSurrogateResult (core := c) (slot := n))
  exact canon_outState (canon_outState (canon_outState h canon_execUpcallRecord) canon_execWithdrawalAnswer) canon_execRegisterContextMessage

theorem canon_engineStep (hs : s.Canon) : (engineStep s c).Canon := by
  unfold engineStep
  extract_lets chs s₁ s₂ s₃ s₄ s₅ s₆ s₇ s₈
  have h₃ : s₃.Canon := canon_runAll (fun _ _ => canon_execCopyComplete)
    (canon_runAll (fun _ _ => canon_execCopyError) (canon_runAll (fun _ _ => canon_execCopyWrite) hs))
  have h₅ : s₅.Canon := canon_outState (canon_outState h₃ canon_execAccordCommandRetire) canon_execAccordCommandBegin
  have h₇ : s₇.Canon := canon_outState (canon_outState h₅ canon_execMgetTileRead) canon_execMgetComplete
  exact canon_outState (canon_outState h₇ canon_execSaveAreaWrite) canon_execRestoreComplete

theorem canon_seekStep {n : Nat} (hs : s.Canon) : (seekStep s c n).Canon := by
  induction n generalizing s with
  | zero => exact hs
  | succ n ih =>
    unfold seekStep
    split
    · exact hs
    · next q hq =>
      have ht := canon_outState hs fun hs =>
        canon_execStealNone (thief := c) (canon_outState hs (canon_execStealRequest (victim := q.victim) (thief := c)))
      exact canon_ite ht (ih ht)

theorem canon_unitStep (hs : s.Canon) : (unitStep s c).Canon := by
  unfold unitStep
  extract_lets d s₁ s₂ s₃ s₄ tags s₅ s₆
  have h₁ : s₁.Canon := canon_pageStep hs
  have h₂ : s₂.Canon := canon_ite (canon_outState h₁ canon_execSlotViewReport) h₁
  have h₄ : s₄.Canon := canon_outState (canon_outState h₂ canon_execLaunchPlacement) canon_execGangStart
  have h₆ : s₆.Canon := canon_runAll (fun _ _ => canon_execGangHoldLift) (canon_runAll (fun _ _ => canon_execGangHold) h₄)
  exact canon_seekStep (canon_runAll (fun _ _ => canon_execLaunchCompletion) h₆)

theorem canon_traceStep {d : BitVec 2} (hs : s.Canon) : (traceStep s d).Canon :=
  canon_foldl (fun _ _ hu => canon_frameIn (canon_frameIn (canon_outState hu fun hu => canon_execLoss
    (canon_outState hu canon_execSillageAccept)))) hs

theorem canon_sharedStep (hs : s.Canon) : (sharedStep s c).Canon := by
  have h := canon_ite (p := leadsAll s c = true) (canon_powerStep (canon_foldl (l := List.range 12) (fun _ _ h => canon_fabricCycle h) hs)) hs
  exact canon_ite (canon_traceStep h) h

theorem canon_unitsCycle (hs : s.Canon) : (unitsCycle s c).Canon :=
  canon_sharedStep (canon_unitStep (canon_engineStep (canon_contextStep (canon_returnStep (canon_fabricStep hs)))))

theorem canon_turnStep (hex : MeaningCanon ex) (hs : s.Canon) : OutCanon (turnStep ex s) :=
  outCanon_ite (canon_slotTurn hex hs) (outCanon_ite (canon_serviceCycle hs) (canon_unitsCycle hs))

end Sys2Proof.Machine
end

section
/-! O4: the step. -/

namespace Sys2Proof.Machine

variable {s : State}

/-- The step: an event of the agenda, or else a turn of the clock. -/
theorem canon_step (hs : s.Canon) : OutCanon (step s) := by
  unfold step
  split
  · exact outCanon_ite (canon_exec hs) hs
  · exact canon_turnStep (fun _ _ hu => canon_exec hu) hs

end Sys2Proof.Machine
end

section
open Sys2Proof Sys2Proof.Machine

/-- Settles O4: every outcome of `step` that is a next state keeps memory canonical (`canon_step`), since each operation that the step
is made of writes memory, if at all, through `memWrite` and `memSetAll`. -/
theorem stepKeepsMemoryCanonical : Obligations.StepKeepsMemoryCanonical :=
  fun _ _ hs ht => canon_of_next (canon_step hs) ht
end

section
/-! O29: the write of an atomic (R169, R245). -/

namespace Sys2Proof.Machine

/-! ## Writes that squash -/

/-- R169: a write that squashes writes its bytes and no other. -/
theorem mem_writeSquash (s : State) (k : Nat) (bs : List Byte) : (writeSquash s k bs).mem = memWrite s.mem k bs := by
  unfold writeSquash
  split
  · next h => rw [List.isEmpty_iff.mp h]; rfl
  · rw [mem_squashMeeting]

section
variable {s : State} {k n : Nat} {f : Nat → Option Nat}

theorem atomicAt_some {v : Nat} (h : f (memNat s.mem k n) = some v) : atomicAt s k n f = writeSquash s k (natBytes n v) := by
  simp only [atomicAt, h]

theorem atomicAt_none (h : f (memNat s.mem k n) = none) : atomicAt s k n f = s := by
  simp only [atomicAt, h]

theorem atomicAt_mem_outside {j : Nat} (hj : j < k ∨ k + n ≤ j) : memGet (atomicAt s k n f).mem j = memGet s.mem j := by
  cases h : f (memNat s.mem k n) with
  | none => rw [atomicAt_none h]
  | some v => rw [atomicAt_some h, mem_writeSquash, memGet_memWrite _ _ _ _ (by rwa [length_natBytes])]

theorem atomicAt_mem_word {v : Nat} (h : f (memNat s.mem k n) = some v) (hv : v < 2 ^ (8 * n)) : memNat (atomicAt s k n f).mem k n = v := by
  rw [atomicAt_some h, mem_writeSquash, memNat_memWrite_same, Nat.mod_eq_of_lt (by rwa [pow_mul] at hv)]
end

end Sys2Proof.Machine

open Sys2Proof Sys2Proof.Machine

/-- Settles O29: an atomic is a write of its word that squashes, or nothing. -/
theorem atomicMemoryFrame : Obligations.AtomicMemoryFrame :=
  fun _ _ _ _ _ hj => ⟨atomicAt_mem_outside hj, fun _ => atomicAt_mem_word, atomicAt_none⟩
end

section
/-! O27: a squash (R170). -/

namespace Sys2Proof.Machine

/-! ## What a context and its requests are made of -/

/-- What the requests of a context are made of, and where they go: the requests that travel, the next id, its tenant, and itself. -/
def State.sender (s : State) (c : CoreId) (n : SlotNo) : List Req × Nat × Tenant × Ctx := (s.net, s.nextId, (s.core c).tenantOf n, s.ctx c n)

section
variable (s : State) (c : CoreId) (n : SlotNo)

theorem sender_modDie (d : BitVec 2) (f : Die → Die) : (s.modDie d f).sender c n = s.sender c n := rfl

/-- A change of a core that leaves the tenant of the slot and its context. -/
theorem sender_setCore {c' : CoreId} {k : Core} (h : c' = c → k.tenantOf n = (s.core c).tenantOf n ∧ k.ctx n = (s.core c).ctx n) :
    (s.setCore c' k).sender c n = s.sender c n := by
  by_cases hc : c' = c
  · subst hc
    obtain ⟨ht, hx⟩ := h rfl
    simp only [State.sender, State.ctx, State.core_setCore, ht, hx]
    rfl
  · simp only [State.sender, State.ctx, State.core_setCore_ne s k (Ne.symm hc)]
    rfl

theorem sender_modCore (c' : CoreId) {f : Core → Core} (h : ∀ k, (f k).tenantOf n = k.tenantOf n ∧ (f k).ctx n = k.ctx n) :
    (s.modCore c' f).sender c n = s.sender c n := sender_setCore s c n fun hc => hc ▸ h _

@[simp] theorem sender_countCtx (c' : CoreId) (n' : SlotNo) (e : Nat) : (s.countCtx c' n' e).sender c n = s.sender c n :=
  sender_modCore s c n c' fun _ => ⟨rfl, rfl⟩

@[simp] theorem sender_countDie (d : BitVec 2) (e : Nat) : (s.countDie d e).sender c n = s.sender c n := rfl

@[simp] theorem sender_offerIf (c' : CoreId) (b : Nat) (u : List (BitVec 128)) : (s.offerIf c' b u).sender c n = s.sender c n := by
  unfold State.offerIf
  split
  · exact sender_modCore s c n c' fun _ => ⟨rfl, rfl⟩
  · rfl

@[simp] theorem sender_grantToken (d : BitVec 2) : (grantToken s d).sender c n = s.sender c n := by
  unfold grantToken
  dsimp only
  split
  · rw [sender_countDie, sender_countCtx]; rfl
  · rfl

@[simp] theorem sender_requestToken (c' : CoreId) (n' : SlotNo) : (requestToken s c' n').sender c n = s.sender c n := by
  rw [requestToken, sender_grantToken, sender_modDie]

@[simp] theorem sender_releaseToken (c' : CoreId) (n' : SlotNo) : (releaseToken s c' n').sender c n = s.sender c n := by
  rw [releaseToken, sender_grantToken, sender_modDie]

@[simp] theorem sender_countStores (d : BitVec 2) (rs : List StoreRec) : (countStores s d rs).sender c n = s.sender c n :=
  foldl_keeps (fun t : State => t.sender c n) (fun (t : State) _ => t.countDie d 4) (fun _ _ => rfl) _ _

@[simp] theorem sender_violate (c' : CoreId) (n' : SlotNo) : (violate s c' n').sender c n = s.sender c n := by
  unfold violate
  dsimp only
  split
  · rfl
  · split
    · rfl
    · split
      · rfl
      · split
        · rfl
        · rw [State.traceEvent, sender_offerIf]; rfl
end

/-! ## Squashes -/

/-- R170: a context whose chunk is squashed, before its slot goes back to its issuing state. -/
def Ctx.squashed (x : Ctx) (ch : Chunk) : Ctx :=
  { x with
    a := ch.snap, chunk := none, wait := none, compl := none, squashes := x.squashes + 1,
    long := x.long.map fun l => if l.inChunk then { l with cancelled := true, inChunk := false, dst := .none } else l }

/-- R170: its core, with the shadow bank of the snapshot if the slot holds it. -/
def Core.squashed (k : Core) (n : SlotNo) (ch : Chunk) : Core :=
  let k' := k.setCtx n (k.afterSquash n ((k.ctx n).squashed ch))
  if k'.holds n then { k' with h := ch.snapH, sh := ch.snapSh } else k'

/-- A squash leaves every part of a context but the state of its slot. -/
theorem Core.afterSquash_keeps {α : Type} (f : Ctx → α) (hst : ∀ x st, f { x with st := st } = f x) (hheld : ∀ x st, f { x with held := st } = f x)
    (k : Core) (n : SlotNo) (x : Ctx) : f (k.afterSquash n x) = f x := by
  unfold Core.afterSquash
  split
  iterate 6 exact hst x _
  · exact hheld x _
  · rfl

theorem Core.ctx_squashed (k : Core) {n : SlotNo} (ch : Chunk) (hn : n.toNat < 11) :
    (k.squashed n ch).ctx n = k.afterSquash n ((k.ctx n).squashed ch) := by
  unfold Core.squashed
  dsimp only
  split
  · exact Core.ctx_setCtx k n _ hn
  · exact Core.ctx_setCtx k n _ hn

theorem Core.ctx_squashed_ne (k : Core) {n m : SlotNo} (ch : Chunk) (h : m ≠ n) : (k.squashed n ch).ctx m = k.ctx m := by
  unfold Core.squashed
  dsimp only
  split
  · exact Core.ctx_setCtx_ne k _ h
  · exact Core.ctx_setCtx_ne k _ h

theorem Core.tenantOf_squashed (k : Core) (n m : SlotNo) (ch : Chunk) : (k.squashed n ch).tenantOf m = k.tenantOf m := by
  unfold Core.squashed
  dsimp only
  split <;> rfl

section
variable {s : State} {c c' : CoreId} {n n' : SlotNo} {ch : Chunk}

/-- A squash changes the core of the context; what else it does is to count, and to ask for the token. -/
theorem squash_sender (h : (s.ctx c n).chunk = some ch) :
    (squash s c n).sender c' n' = (s.setCore c ((s.core c).squashed n ch)).sender c' n' := by
  have hch : ((s.core c).ctx n).chunk = some ch := h
  unfold squash
  simp only [hch]
  split
  · rw [sender_requestToken, sender_countDie, sender_countCtx]; rfl
  · rw [sender_countDie, sender_countCtx]; rfl

theorem squash_none (h : (s.ctx c n).chunk = none) : squash s c n = s := by
  have hch : ((s.core c).ctx n).chunk = none := h
  simp only [squash, hch]

theorem squash_ctx (hn : n.toNat < 11) (h : (s.ctx c n).chunk = some ch) :
    (squash s c n).ctx c n = (s.core c).afterSquash n ((s.ctx c n).squashed ch) := by
  have hs : (squash s c n).ctx c n = (s.setCore c ((s.core c).squashed n ch)).ctx c n := congrArg (·.2.2.2) (squash_sender h)
  rw [hs, State.ctx, State.core_setCore, Core.ctx_squashed _ _ hn]
  rfl

/-- A squash leaves every other context. -/
theorem squash_sender_ne (h : (c', n') ≠ (c, n)) : (squash s c n).sender c' n' = s.sender c' n' := by
  cases hch : (s.ctx c n).chunk with
  | none => rw [squash_none hch]
  | some ch =>
    rw [squash_sender hch]
    refine sender_setCore s c' n' fun hc => ?_
    subst hc
    exact ⟨Core.tenantOf_squashed .., Core.ctx_squashed_ne _ _ fun hn => h (by rw [hn])⟩
end

end Sys2Proof.Machine

open Sys2Proof Sys2Proof.Machine

/-- Settles O27: the squashed context is `Ctx.squashed`, whatever the state of its slot and whoever gets the token. -/
theorem squashRestoresSnapshot : Obligations.SquashRestoresSnapshot := by
  intro s c n ch hn hch t
  have hx : t.ctx c n = (s.core c).afterSquash n ((s.ctx c n).squashed ch) := squash_ctx hn hch
  have keeps {α : Type} (f : Ctx → α) (hst : ∀ x st, f { x with st := st } = f x) (hheld : ∀ x st, f { x with held := st } = f x) :
      f (t.ctx c n) = f ((s.ctx c n).squashed ch) := by rw [hx, Core.afterSquash_keeps f hst hheld]
  have hlong : (t.ctx c n).long = ((s.ctx c n).squashed ch).long := keeps Ctx.long (fun _ _ => rfl) fun _ _ => rfl
  refine ⟨mem_squash s c n, keeps Ctx.a (fun _ _ => rfl) fun _ _ => rfl, keeps Ctx.chunk (fun _ _ => rfl) fun _ _ => rfl,
    keeps Ctx.wait (fun _ _ => rfl) fun _ _ => rfl, keeps Ctx.squashes (fun _ _ => rfl) fun _ _ => rfl, fun l hl => ?_, ?_, fun i l hi => ?_⟩
  · rw [hlong] at hl
    obtain ⟨m, -, rfl⟩ := List.mem_map.mp hl
    split
    · rfl
    · next h => exact Bool.eq_false_iff.mpr h
  · rw [hlong]; exact List.length_map _
  · rw [hlong]; simp only [Ctx.squashed, List.getElem?_map, hi, Option.map_some]
end

section
/-! O26: an accepted commit (R167, R168, R354). -/

namespace Sys2Proof.Machine

/-! ## The bytes of the near stores -/

/-- The last byte that a list of writes names at a key. -/
def lastAt (cs : List (Nat × Byte)) (k : Nat) : Option Byte := cs.foldl (fun a kb => if kb.1 = k then some kb.2 else a) none

/-- A fold that takes the newest byte it meets keeps what it began with where it meets none. -/
theorem foldl_newest {α : Type} (f : α → Option Byte) (g : Option Byte → α → Option Byte) (hg : ∀ a x, g a x = (f x).or a) (l : List α)
    (a : Option Byte) : l.foldl g a = (l.foldl g none).or a := by
  induction l generalizing a with
  | nil => simp
  | cons x t ih => rw [List.foldl_cons, List.foldl_cons, ih, ih (g none x), hg, hg, Option.or_none, Option.or_assoc]

theorem lastAt_foldl (cs : List (Nat × Byte)) (k : Nat) (a : Option Byte) :
    cs.foldl (fun a kb => if kb.1 = k then some kb.2 else a) a = (lastAt cs k).or a :=
  foldl_newest (fun kb => if kb.1 = k then some kb.2 else none) _ (fun a kb => by split <;> rfl) cs a

theorem lastAt_append (cs ds : List (Nat × Byte)) (k : Nat) : lastAt (cs ++ ds) k = (lastAt ds k).or (lastAt cs k) := by
  rw [lastAt, List.foldl_append, lastAt_foldl]
  rfl

theorem lastAt_cons (j : Nat) (b : Byte) (cs : List (Nat × Byte)) (k : Nat) :
    lastAt ((j, b) :: cs) k = (lastAt cs k).or (if j = k then some b else none) := lastAt_append [(j, b)] cs k

/-- What a list of writes leaves at a key: the last byte that it names there, or what was there. -/
theorem memGet_memSetAll_eq (m : Mem) (cs : List (Nat × Byte)) (k : Nat) : memGet (memSetAll m cs) k = (lastAt cs k).getD (memGet m k) := by
  induction cs generalizing m with
  | nil => rfl
  | cons p cs ih =>
    obtain ⟨j, b⟩ := p
    rw [memSetAll, ih, lastAt_cons]
    cases lastAt cs k with
    | some c => rfl
    | none =>
      by_cases h : j = k
      · subst h; simp
      · simp [h, memGet_memSet_ne _ _ (Ne.symm h)]

/-- R163: a younger store of a buffer hides the bytes of an older one. -/
theorem bufByte_cons (r : StoreRec) (rs : List StoreRec) (k : Nat) :
    bufByte (r :: rs) k = (bufByte rs k).or (lastAt (r.keys.zip r.bytes) k) := by
  unfold bufByte
  rw [List.foldl_cons, foldl_newest (fun r : StoreRec => lastAt (r.keys.zip r.bytes) k) _ fun a r => ?_]
  · refine congrArg (Option.or _) ?_
    change (match lastAt _ k with | some b => some b | none => none) = _
    cases lastAt _ k <;> rfl
  · change (match lastAt _ k with | some b => some b | none => a) = _
    cases lastAt _ k <;> rfl

/-- The youngest byte of a buffer at a key is the last of its writes there. -/
theorem bufByte_eq (buf : List StoreRec) (k : Nat) : bufByte buf k = lastAt (buf.map fun r => r.keys.zip r.bytes).flatten k := by
  induction buf with
  | nil => rfl
  | cons r rs ih => rw [bufByte_cons, ih, List.map_cons, List.flatten_cons, lastAt_append]

/-- The near stores of a chunk that the protection units let through, at the keys where they are performed. -/
def nearStores (s : State) (c : CoreId) (n : SlotNo) (ch : Chunk) : List StoreRec :=
  (ch.buf.filter fun r => r.near && nearAllowed s c n r).map fun r => { r with keys := r.keys.map (nearKey s) }

theorem nearCells_eq (s : State) (c : CoreId) (n : SlotNo) (ch : Chunk) :
    nearCells s c n ch = ((nearStores s c n ch).map fun r => r.keys.zip r.bytes).flatten := by
  rw [nearCells, nearStores, List.map_map]
  rfl

/-! ## Errors that are charged write no memory -/

section
variable (s : State) (c : CoreId) (n : SlotNo)

@[simp] theorem mem_sendCancel (id : Nat) (o : Bool) : (s.sendCancel id o).mem = s.mem := by
  unfold State.sendCancel
  split
  · dsimp only; split <;> rfl
  · rfl

@[simp] theorem mem_cancelWait : (cancelWait s c n).mem = s.mem := by
  unfold cancelWait
  dsimp only
  split
  · rfl
  · split <;> split <;> simp

@[simp] theorem mem_endContext : (endContext s c n).mem = s.mem := by simp [endContext, dropWork]

@[simp] theorem mem_chargeError (o : Nat) (e : ErrOp) : (chargeError s c o e).mem = s.mem := by
  unfold chargeError
  dsimp only
  split
  · simp
  · split <;> simp

/-! ## The far stores -/

/-- The request of a far store (R167, R175). -/
def storeReq (r : StoreRec) : Req :=
  { s.request c n true (destOf r.ptr) r.tso false (.store r.ptr r.bytes r.sc) (some r.given) with phys := r.phys }

/-- The requests of some far stores, in program order. -/
def storeReqs (rs : List StoreRec) : List Req := rs.mapIdx fun i r => { storeReq s c n r with id := s.nextId + i }

theorem sender_leaveCore (r : Req) : (s.leaveCore r).sender c n = s.sender c n := by
  simp only [State.sender, State.ctx, State.core, net_leaveCore, nextId_leaveCore, leaveCore_cores]

/-- A request that is sent is the last that travels, and nothing changes of its context. -/
theorem sender_send (r : Req) : (s.send r).sender c n = (s.net ++ [r], s.nextId + 1, (s.core c).tenantOf n, s.ctx c n) := by
  unfold State.send
  extract_lets wait t a u
  have hu : u.sender c n = t.sender c n := by
    unfold u
    split
    · exact sender_countCtx ..
    · rfl
  split
  · exact hu
  · exact (sender_leaveCore ..).trans hu

variable {s c n}

theorem storeReq_congr {t : State} (ht : (t.core c).tenantOf n = (s.core c).tenantOf n) (hx : t.ctx c n = s.ctx c n) (r : StoreRec) :
    storeReq t c n r = { storeReq s c n r with id := t.nextId } := by
  simp only [storeReq, State.request, ht, hx]

/-- The commit of a chunk changes nothing that its far stores are sent by. -/
theorem storeReqs_committed {t : State} (hid : t.nextId = s.nextId) (ht : (t.core c).tenantOf n = (s.core c).tenantOf n)
    (hx : t.ctx c n = (s.ctx c n).committed) (rs : List StoreRec) : storeReqs t c n rs = storeReqs s c n rs := by
  simp only [storeReqs, storeReq, State.request, hid, ht, hx]
  rfl

/-- The far stores enter the fabric one after the other. -/
theorem sender_sendStores (rs : List StoreRec) : (sendStores s c n rs).sender c n =
    (s.net ++ storeReqs s c n rs, s.nextId + rs.length, (s.core c).tenantOf n, s.ctx c n) := by
  induction rs generalizing s with
  | nil => simp [sendStores, storeReqs, State.sender]
  | cons r rs ih =>
    have hs := sender_send s c n (storeReq s c n r)
    generalize hu : s.send (storeReq s c n r) = u at hs
    simp only [State.sender, Prod.mk.injEq] at hs
    obtain ⟨hnet, hid, ht, hx⟩ := hs
    have hrun : sendStores s c n (r :: rs) = sendStores u c n rs := by rw [← hu]; rfl
    have hreqs : storeReqs s c n (r :: rs) = storeReq s c n r :: storeReqs u c n rs := by
      simp only [storeReqs, List.mapIdx_cons, storeReq_congr ht hx, hid]
      refine congrArg₂ List.cons rfl (congrArg (List.mapIdx · rs) ?_)
      funext i r
      rw [Nat.add_assoc, Nat.add_comm 1]
    rw [hrun, ih, hreqs, hnet, hid, ht, hx, List.length_cons, List.append_assoc, Nat.add_assoc, Nat.add_comm 1]
    rfl
end

/-! ## The commit -/

section
variable {s : State} {c : CoreId} {n : SlotNo} {ch : Chunk}

/-- R168: the squashes of a commit leave the context that commits. -/
theorem sender_squashMeeting (d : BitVec 2) (ls : List Nat) : (squashMeeting s d (some (c, n)) ls).sender c n = s.sender c n := by
  unfold squashMeeting
  split
  · rfl
  · refine foldl_keeps (fun t : State => t.sender c n) _ (fun t c' => ?_) _ _
    refine foldl_keeps (fun t : State => t.sender c n) _ (fun t n' => ?_) _ _
    split
    · rfl
    · next hne =>
      split
      · split
        · exact squash_sender_ne fun he => hne (by simp [he])
        · rfl
      · rfl

theorem performChunk_mem : (performChunk s c n ch).mem = memSetAll s.mem (nearCells s c n ch) := by
  unfold performChunk
  dsimp only
  refine (foldl_keeps State.mem _ (fun t r => mem_chargeError _ _ _ _) _ _).trans ?_
  split <;> simp

/-- R254: nothing is refused of a chunk whose near stores are all admitted. -/
theorem refused_nil (h : ∀ r ∈ ch.buf, r.near = true → nearAllowed s c n r = true) :
    (ch.buf.filter fun r => r.near && !nearAllowed s c n r) = [] := by
  refine List.filter_eq_nil_iff.mpr fun r hr => ?_
  cases hn : r.near with
  | false => simp
  | true => simp [h r hr hn]

/-- A commit of which nothing is refused closes the chunk and sends the far stores; what else it does concerns others. -/
theorem performChunk_sender (hn : n.toNat < 11) (h : ∀ r ∈ ch.buf, r.near = true → nearAllowed s c n r = true) :
    let far := ch.buf.filter fun r => !r.near
    (performChunk s c n ch).sender c n =
      (s.net ++ storeReqs s c n far, s.nextId + far.length, (s.core c).tenantOf n, (s.ctx c n).committed) := by
  intro far
  unfold performChunk
  extract_lets x refused s₁ s₂ s₃ s₄ s₅ s₆ s₇ s₈
  have h₂ : s₂.sender c n = (s.net, s.nextId, (s.core c).tenantOf n, (s.ctx c n).committed) := by
    have hx : s₂.ctx c n = (s.ctx c n).committed := State.ctx_modCtx s₁ c n _ hn
    have ht : (s₂.core c).tenantOf n = (s.core c).tenantOf n := by
      rw [show s₂.core c = _ from State.core_modCore s₁ c _]; rfl
    simp only [State.sender, hx, ht]
    rfl
  have h₃ : s₃.sender c n = (s.net, s.nextId, (s.core c).tenantOf n, (s.ctx c n).committed) := (sender_releaseToken s₂ c n c n).trans h₂
  have h₈ : s₈.sender c n = s₄.sender c n := by
    have h₇ : s₇.sender c n = s₄.sender c n := by
      rw [show s₇.sender c n = s₆.sender c n from sender_countStores .., show s₆ = _ from rfl, sender_countDie, sender_countCtx]
      exact sender_squashMeeting ..
    unfold s₈
    split
    · rw [sender_violate, h₇]
    · exact h₇
  rw [show refused = [] from refused_nil h, List.foldl_nil, h₈]
  simp only [State.sender, Prod.mk.injEq] at h₃
  obtain ⟨hnet, hid, ht, hx⟩ := h₃
  refine (sender_sendStores far).trans ?_
  rw [hnet, hid, ht, hx, storeReqs_committed hid ht hx]
end

end Sys2Proof.Machine

open Sys2Proof Sys2Proof.Machine

/-- Settles O26: an accepted commit is `performChunk`, which writes its near stores at once and of which, where nothing is refused,
everything but the close of the chunk and the far stores concerns others. -/
theorem commitPerformsStores : Obligations.CommitPerformsStores := by
  intro s c n ch hn hch hok t near far
  have hrun : t = performChunk s c n ch := by
    simp only [t, commitChunk, hch] at hok ⊢
    split
    · next h => simp [h] at hok
    · rfl
  refine ⟨fun k => ?_, fun hall => ?_⟩
  · rw [hrun, performChunk_mem, nearCells_eq, memGet_memSetAll_eq, ← bufByte_eq]
    rfl
  · have hs := performChunk_sender hn hall
    rw [← hrun] at hs
    simp only [State.sender, Prod.mk.injEq] at hs
    obtain ⟨hnet, hid, -, hx⟩ := hs
    refine ⟨by rw [hx]; rfl, by rw [hx]; rfl, by rw [hx]; rfl, storeReqs s c n far, hnet, by simp [storeReqs], hid, fun i r hi => ?_⟩
    refine ⟨{ storeReq s c n r with id := s.nextId + i }, by simp [storeReqs, hi], rfl, rfl, rfl, rfl, rfl, rfl, rfl, rfl, rfl⟩
end

section
/-! O19: stores that pass their checks (R163, R237-R239): the bytes wait in the store buffer. -/

namespace Sys2Proof.Machine

/-! ## A store that passes its checks -/

section
variable {s : State} {q : Word} {n align : Nat} {bs : List Byte}

/-- A store that passes its checks and finds room enters the buffer, after its translations. -/
theorem storeAt_buffers (hc : s.check q n 1 align = none) (hw : s.watch q n 1 = none) (hn : n ≠ 0) (hr : s.me.hasRoom [s.storeRec q bs] = true) :
    storeAt s q n align bs = .ok ((s.touchOwn (s.res q) n 1).buffer [s.storeRec q bs]) := by
  simp only [storeAt, hc, hw, Option.or_none, hn, hr, Bool.not_true, Bool.false_eq_true, if_false]

/-- A word whose effect is such a store. -/
theorem runC_storeAt {i : Instr} {body : State → Res} (h : runsC i s) (hb : body s.opened = storeAt s.opened q n align bs)
    (hc : s.opened.check q n 1 align = none) (hw : s.opened.watch q n 1 = none) (hn : n ≠ 0)
    (hr : s.opened.me.hasRoom [s.opened.storeRec q bs] = true) :
    runC i s body = (((s.opened.touchOwn (s.opened.res q) n 1).buffer [s.opened.storeRec q bs]).markViol i).advance :=
  runC_ok h (hb.trans (storeAt_buffers hc hw hn hr))
end

end Sys2Proof.Machine

open Sys2Proof Sys2Proof.Machine

/-- Settles O19: each of the three words is `storeAt` at its address. -/
theorem storeResults : Obligations.StoreResults := by
  intro a b c v w e s q o n ok put bs vs
  have hn : n ≠ 0 := Nat.two_pow_pos _ |>.ne'
  exact ⟨fun hq ⟨hc, hw, hr⟩ h => congrArg _ (runC_storeAt h (withEA_some hq) hc hw hn hr),
    fun hq ⟨hc, hw, hr⟩ h => congrArg _ (runC_storeAt h (withEA_some hq) hc hw hn hr),
    fun hq ⟨hc, hw, hr⟩ h => congrArg _ (runC_storeAt h (withEA_some hq) hc hw (by decide) hr)⟩
end

section
/-! O20: the frame of a store (R163, R150, R405). -/

namespace Sys2Proof.Machine

/-! ## What translations fill -/

/-- A die as translations leave it: only counters have counted, and the cache has gained entries. -/
def DieFilled (x y : Die) : Prop := { y with tlb := x.tlb, cnt := x.cnt } = x ∧ x.tlb <+: y.tlb

/-- Every die is as translations leave it. -/
def DiesFilled (s t : State) : Prop := ∀ e, DieFilled (s.die e) (t.die e)

theorem DieFilled.refl (x : Die) : DieFilled x x := ⟨rfl, List.prefix_rfl⟩

theorem DieFilled.trans {x y z : Die} (h : DieFilled x y) (k : DieFilled y z) : DieFilled x z := by
  refine ⟨?_, h.2.trans k.2⟩
  calc { z with tlb := x.tlb, cnt := x.cnt }
    _ = { ({ z with tlb := y.tlb, cnt := y.cnt } : Die) with tlb := x.tlb, cnt := x.cnt } := rfl
    _ = x := by rw [k.1, h.1]

theorem dieFilled_count (x : Die) (e : Nat) : DieFilled x (x.count e) := by
  unfold DieFilled Die.count
  exact ⟨rfl, List.prefix_rfl⟩

theorem dieFilled_cached (x : Die) (e : Tlb) : DieFilled x { x with tlb := x.tlb ++ [e] } := ⟨rfl, List.prefix_append ..⟩

section
variable {s t u : State}

theorem DiesFilled.refl (s : State) : DiesFilled s s := fun _ => DieFilled.refl _

theorem DiesFilled.trans (h : DiesFilled s t) (k : DiesFilled t u) : DiesFilled s u := fun e => (h e).trans (k e)

theorem diesFilled_of_dies (h : t.dies = s.dies) : DiesFilled s t := fun e => by
  simp only [State.die, h]
  exact DieFilled.refl _

theorem diesFilled_modDie {f : Die → Die} (d : BitVec 2) (hf : ∀ x, DieFilled x (f x)) : DiesFilled s (s.modDie d f) := fun e => by
  by_cases h : e = d
  · subst h; rw [State.die_modDie]; exact hf _
  · rw [State.die_modDie_ne s f h]; exact DieFilled.refl _
end

section
variable (s : State) (d : BitVec 2) (pool : Bool) (t : Tenant) (va n quad kind : Nat) (priv dec : Bool)

theorem diesFilled_touch : DiesFilled s (touch s d pool t va quad kind priv dec) := by
  have hwalk : DiesFilled s (s.modDie d fun x => x.count 16) := diesFilled_modDie d fun x => dieFilled_count x 16
  unfold touch
  split
  · exact DiesFilled.refl s
  · dsimp only
    split
    · exact hwalk
    · split
      · exact hwalk
      · refine (hwalk.trans ?_).trans (diesFilled_modDie d fun x => dieFilled_cached x _)
        split
        · exact (diesFilled_of_dies rfl).trans (diesFilled_modDie _ fun x => dieFilled_count x 4)
        · exact DiesFilled.refl _

/-- A translation changes the dies and memory alone. -/
theorem touch_eq : touch s d pool t va quad kind priv dec =
    { s with dies := (touch s d pool t va quad kind priv dec).dies, mem := (touch s d pool t va quad kind priv dec).mem } := by
  unfold touch
  split
  · rfl
  · dsimp only
    split
    · rfl
    · split
      · rfl
      · split <;> rfl

theorem diesFilled_touchSpan : DiesFilled s (touchSpan s d pool t va n quad kind priv dec) := by
  unfold touchSpan
  dsimp only
  split
  · exact diesFilled_touch s d pool t va quad kind priv dec
  · exact (diesFilled_touch s d pool t va quad kind priv dec).trans (diesFilled_touch _ d pool t (va + n - 1) quad kind priv dec)

theorem touchSpan_eq : touchSpan s d pool t va n quad kind priv dec =
    { s with
      dies := (touchSpan s d pool t va n quad kind priv dec).dies, mem := (touchSpan s d pool t va n quad kind priv dec).mem } := by
  unfold touchSpan
  dsimp only
  split
  · exact touch_eq ..
  · generalize hu : touch s d pool t va quad kind priv dec = u
    have hs : u = { s with dies := u.dies, mem := u.mem } := hu ▸ touch_eq ..
    rw [touch_eq, hs]
end

section
variable (s : State) (q : Word) (n kind : Nat)

theorem diesFilled_touchOwn : DiesFilled s (s.touchOwn q n kind) := by
  unfold State.touchOwn
  split
  · exact diesFilled_touchSpan s _ _ _ _ _ _ _ _ _
  · exact DiesFilled.refl s

theorem touchOwn_eq : s.touchOwn q n kind = { s with dies := (s.touchOwn q n kind).dies, mem := (s.touchOwn q n kind).mem } := by
  unfold State.touchOwn
  split
  · exact touchSpan_eq ..
  · rfl

theorem touchOwn_mem_pages {k : Nat} (h : outsidePages s (dieOf s.iss.core) false s.tenant (pOff q) n k) :
    memGet (s.touchOwn q n kind).mem k = memGet s.mem k := by
  unfold State.touchOwn
  split
  · exact touchSpan_mem_pages s _ _ _ _ _ _ _ _ _ h
  · rfl

/-- An access elsewhere than in the memory of its own die translates nothing at issue. -/
theorem touchOwn_elsewhere (h : s.ownDie q = false) : s.touchOwn q n kind = s := by
  simp [State.touchOwn, h]
end

/-! ## Where a pointer lies that an offset has moved -/

/-- The fields above the offset stay when it moves (R136). -/
theorem extract_setOff {p : Word} {i : Nat} (o m : Nat) (h : offW p ≤ i) : (setOff p o).extractLsb' i m = p.extractLsb' i m := by
  refine BitVec.eq_of_getLsbD_eq fun j hj => ?_
  have hbit : (p.toNat / 2 ^ offW p * 2 ^ offW p + o % 2 ^ offW p).testBit (i + j) = p.getLsbD (i + j) := by
    rw [Nat.mul_comm, Nat.testBit_two_pow_mul_add _ (Nat.mod_lt _ (Nat.two_pow_pos _)), if_neg (by omega), Nat.testBit_div_two_pow,
      Nat.sub_add_cancel (by omega)]
    rfl
  rw [BitVec.getLsbD_extractLsb', BitVec.getLsbD_extractLsb', setOff, BitVec.getLsbD_ofNat, hbit]
  by_cases hij : i + j < 64
  · simp [hij]
  · simp [hij, BitVec.getLsbD_of_ge p (i + j) (by omega)]

/-- R135: resolving a pointer leaves its space. -/
theorem pSpc_resolve (dev : BitVec 10) (c : CoreId) (p : Word) : pSpc (resolve dev c p) = pSpc p := by
  have hhigh : (p.extractLsb' 54 10).extractLsb' 0 2 = p.extractLsb' 54 2 := by
    ext i hi
    simp [show i < 10 by omega]
  unfold resolve
  split
  · split
    · refine congrArg BitVec.toNat ?_
      rw [BitVec.extractLsb'_append_eq_of_le (by decide), BitVec.extractLsb'_append_eq_of_le (by decide),
        BitVec.extractLsb'_append_eq_of_le (by decide)]
      exact hhigh
    · rfl
  · split
    · split
      · refine congrArg BitVec.toNat ?_
        rw [BitVec.extractLsb'_append_eq_of_le (by decide), BitVec.extractLsb'_append_eq_of_le (by decide)]
        exact hhigh
      · rfl
    · rfl

/-- A pointer names the memory of the issuing die by its own ids or by the self value of the device (R135). -/
theorem ownDie_res (s : State) (p : Word) :
    s.ownDie (s.res p) = (pSpc p == 1 && (pDev p == 0x3FF || pDev p == s.devId) && pDie p == dieOf s.iss.core) := by
  rw [State.ownDie, State.res, pSpc_resolve]
  cases h : pSpc p == 1 with
  | false => rfl
  | true =>
    have h1 : pSpc p = 1 := beq_iff_eq.mp h
    simp only [resolve, h1, one_ne_zero, if_false, if_true]
    cases hd : pDev p == 0x3FF with
    | false => rw [if_neg (by simpa using hd), Bool.false_or]
    | true =>
      rw [if_pos (beq_iff_eq.mp hd), pDev, pDie, BitVec.extractLsb'_append_eq_of_le (by decide), BitVec.extractLsb'_append_eq_right,
        BitVec.extractLsb'_append_eq_of_add_le (by decide), BitVec.extractLsb'_extractLsb'_of_le (show 42 + 2 ≤ 44 by decide)]
      simp [pDie]

theorem offW_le (p : Word) : offW p ≤ 48 := by
  unfold offW
  split
  · decide
  · split <;> decide

theorem ownDie_moveOff (s : State) {p q : Word} {d : Int} (h : moveOff p d = some q) : s.ownDie (s.res q) = s.ownDie (s.res p) := by
  obtain ⟨o, rfl⟩ : ∃ o, q = setOff p o := by
    unfold moveOff at h
    dsimp only at h
    split at h
    · cases h
    · exact ⟨_, (Option.some.inj h).symm⟩
  have hw := offW_le p
  have hspc : pSpc (setOff p o) = pSpc p := congrArg BitVec.toNat (extract_setOff o 2 (by omega))
  rw [ownDie_res, ownDie_res, hspc]
  cases h1 : pSpc p == 1 with
  | false => rfl
  | true =>
    have hw1 : offW p = 39 := by rw [offW, beq_iff_eq.mp h1]; rfl
    rw [pDev, pDev, pDie, pDie, extract_setOff o 10 (by omega), extract_setOff o 2 (by omega)]

/-! ## What a store leaves of the issuing context and its core -/

theorem Core.setCtx_setCtx (k : Core) (n : SlotNo) (x y : Ctx) : (k.setCtx n x).setCtx n y = k.setCtx n y := by
  simp only [Core.setCtx, vset, Vector.setIfInBounds_setIfInBounds]

theorem Core.setCtx_self (k : Core) (n : SlotNo) : k.setCtx n (k.ctx n) = k := by
  by_cases h : n.toNat < 11
  · have hv : vset k.ctxs n.toNat (k.ctx n) = k.ctxs := by
      ext i hi
      by_cases hin : n.toNat = i <;> simp [vset, vget, Core.ctx, hin, hi]
    rw [Core.setCtx, hv]
  · exact Core.setCtx_ge _ _ _ (by omega)

/-- A change of a context's chunk, its PC and its mark, and, if the flag is set, of FP.FLAGS. -/
structure CtxStored (fl : Bool) (x y : Ctx) : Prop where
  eq : y = { x with chunk := y.chunk, a := { x.a with pc := y.a.pc, wonly := y.a.wonly, fpf := y.a.fpf } }
  flags : fl = false → y.a.fpf = x.a.fpf

/-- What a store leaves alone, beside memory and the dies: the issue record, everything outside the cores, the other cores, and of its own core
everything but the chunk, the PC and the mark of the issuing context, and, if the flag is set, its FP.FLAGS. -/
structure Stored (fl : Bool) (s t : State) : Prop where
  iss : t.iss = s.iss
  net : t.net = s.net
  halves : t.halves = s.halves
  engines : t.engines = s.engines
  cores : ∀ c, c ≠ s.iss.core → t.core c = s.core c
  mine : t.mine = s.mine.setCtx s.iss.slot t.me
  me : CtxStored fl s.me t.me

section
variable {fl : Bool} {s t u : State}

theorem CtxStored.refl (x : Ctx) : CtxStored fl x x := ⟨rfl, fun _ => rfl⟩

theorem CtxStored.trans {x y z : Ctx} (h : CtxStored fl x y) (k : CtxStored fl y z) : CtxStored fl x z := by
  refine ⟨?_, fun hf => (k.flags hf).trans (h.flags hf)⟩
  rw [k.eq, h.eq]

theorem Stored.trans (h : Stored fl s t) (k : Stored fl t u) : Stored fl s u where
  iss := k.iss.trans h.iss
  net := k.net.trans h.net
  halves := k.halves.trans h.halves
  engines := k.engines.trans h.engines
  cores c hc := (k.cores c (by rwa [h.iss])).trans (h.cores c hc)
  mine := by rw [k.mine, h.mine, h.iss, Core.setCtx_setCtx]
  me := h.me.trans k.me

theorem stored_modMe {f : Ctx → Ctx} (hf : ∀ x, CtxStored fl x (f x)) : Stored fl s (s.modMe f) where
  iss := rfl
  net := rfl
  halves := rfl
  engines := rfl
  cores _ h := State.core_modCore_ne s _ h
  mine := by
    rw [State.modMe_mine]
    by_cases h : s.iss.slot.toNat < 11
    · rw [State.me_modMe s f h]
    · rw [Core.setCtx_ge _ _ _ (by omega), Core.setCtx_ge _ _ _ (by omega)]
  me := by rcases State.modMe_me s f with h | h <;> rw [h]; exacts [hf _, CtxStored.refl _]

theorem stored_modChunk (f : Chunk → Chunk) : Stored fl s (s.modChunk f) := stored_modMe fun _ => ⟨rfl, fun _ => rfl⟩

theorem stored_opened : Stored fl s s.opened :=
  stored_modMe (f := fun x => { x with chunk := some (x.chunk.getD (freshChunk x.a s.mine.h s.mine.sh)) }) fun _ => ⟨rfl, fun _ => rfl⟩

theorem stored_setPc (pc : Word) : Stored fl s (s.setPc pc) :=
  stored_modMe (f := fun x => { x with a := { x.a with pc := pc, wonly := false } }) fun _ => ⟨rfl, fun _ => rfl⟩

theorem stored_advance : Stored fl s s.advance := stored_setPc _

theorem stored_orFlags (f : BitVec 6) : Stored true s (s.orFlags f) := stored_modMe fun _ => ⟨rfl, nofun⟩

/-- A change of the dies and of memory. -/
theorem stored_of_cores (ds : Vector Die 4) (m : Mem) : Stored fl s { s with dies := ds, mem := m } :=
  ⟨rfl, rfl, rfl, rfl, fun _ _ => rfl, (Core.setCtx_self s.mine s.iss.slot).symm, CtxStored.refl _⟩

theorem stored_refl : Stored fl s s := stored_of_cores s.dies s.mem

theorem stored_markViol (i : Instr) : Stored fl s (s.markViol i) := by
  unfold State.markViol
  split
  · exact stored_modChunk _
  · exact stored_refl

theorem stored_touchOwn (q : Word) (n kind : Nat) : Stored fl s (s.touchOwn q n kind) := by
  rw [touchOwn_eq]
  exact stored_of_cores _ _

theorem Stored.others (h : Stored fl s t) : sameOthers s t := by
  refine ⟨h.cores, fun n hn => ?_⟩
  have hctx : t.mine.ctx n = s.mine.ctx n := by rw [h.mine, Core.ctx_setCtx_ne _ _ hn]
  rw [State.mine, h.iss] at hctx
  exact hctx

theorem Stored.regs (h : Stored fl s t) : sameRegs s t [] [] [] := by
  have hho : t.mine.holder = s.mine.holder := by rw [h.mine]; rfl
  refine ⟨fun r _ => ?_, fun r _ => ?_, fun r _ => ?_⟩
  · rw [State.nowG, State.nowG, State.isShadow_of_eq h.iss hho, h.me.eq, h.mine]; rfl
  · rw [State.nowV, State.nowV, h.me.eq]
  · rw [State.nowP, State.nowP, h.me.eq]; rfl

theorem Stored.special (h : Stored fl s t) : sameSpecial s t := by
  rw [sameSpecial, h.me.eq]
  exact ⟨rfl, rfl, rfl, rfl, rfl, rfl, rfl, rfl⟩

theorem Stored.units (h : Stored fl s t) : sameUnits s t := by
  rw [sameUnits, h.mine]
  exact ⟨rfl, rfl, rfl, rfl, rfl, rfl⟩
end

/-! ## The words -/

/-- A store of n bytes at a pointer: it leaves what `Stored` says, and of the dies and memory what its translations make. -/
structure StoredAt (fl : Bool) (s t : State) (q : Word) (n : Nat) : Prop where
  stored : Stored fl s t
  dies : t.dies = (s.touchOwn (s.res q) n 1).dies
  mem : t.mem = (s.touchOwn (s.res q) n 1).mem

section
variable {fl : Bool} {s t : State} {q : Word} {n : Nat}

theorem storeAt_stored {align : Nat} {bs : List Byte} (h : storeAt s q n align bs = .ok t) : StoredAt fl s t q n := by
  unfold storeAt at h
  split at h
  · unfold storeTrap at h
    split at h <;> cases h
  · split at h
    · next hn =>
      obtain rfl := Res.ok.inj h
      subst hn
      have htouch : s.touchOwn (s.res q) 0 1 = s := by simp [State.touchOwn]
      exact ⟨stored_refl, by rw [htouch], by rw [htouch]⟩
    · dsimp only at h
      split at h
      · cases h
      · obtain rfl := Res.ok.inj h
        exact ⟨(stored_touchOwn _ _ _).trans (stored_modChunk _), rfl, rfl⟩

/-- A C word that issues has come to a state, marks a violation and goes on. -/
theorem runC_issued {i : Instr} {body : State → Res} (h : (runC i s body).iss.fate = .issued) :
    ∃ u, body s.opened = .ok u ∧ runC i s body = (u.markViol i).advance := by
  unfold runC at h ⊢
  rw [← State.opened] at h ⊢
  dsimp only at h ⊢
  split at h
  · exact absurd h (raise_not_issued _ _)
  · split at h
    · exact absurd h (raise_not_issued _ _)
    · next hpc =>
      rw [if_neg hpc]
      split at h
      · next u hu => exact ⟨u, hu, rfl⟩
      · next hne =>
        obtain ⟨u, hu⟩ := settle_issued h
        exact absurd hu (hne u)

/-- A word goes on after its store. -/
theorem StoredAt.advance (h : StoredAt fl s t q n) (i : Instr) : StoredAt fl s (t.markViol i).advance q n := by
  have hdies : (t.markViol i).dies = t.dies := by unfold State.markViol; split <;> rfl
  exact ⟨(h.stored.trans (stored_markViol i)).trans stored_advance, hdies.trans h.dies, (markViol_mem t i).trans h.mem⟩

theorem StoredAt.orFlags (h : StoredAt false s t q n) (f : BitVec 6) : StoredAt true s (t.orFlags f) q n :=
  ⟨{ h.stored with me := ⟨h.stored.me.eq, nofun⟩ : Stored true s t }.trans (stored_orFlags f), h.dies, h.mem⟩

/-- A word with a displacement that comes to a state has formed its address. -/
theorem withEA_ok {base : Word} {d : Int} {f : Word → Res} (h : withEA s base d f = .ok t) : ∃ q, moveOff base d = some q ∧ f q = .ok t := by
  cases hq : moveOff base d with
  | none => rw [withEA_none hq] at h; cases h
  | some q => exact ⟨q, rfl, (withEA_some hq).symm.trans h⟩

/-- The size of a formatted access (R240). -/
theorem formSize_ok {p : Word} {m nb : Nat} {y : BitVec 3} (h : formSize s p m y = .ok nb) : nb = formBytes (pFmt p) (pBlg p) m := by
  unfold formSize at h
  dsimp only at h
  split at h
  · cases h
  · split at h
    · cases h
    · split at h
      · split at h
        · cases h
        · exact (Except.ok.inj h).symm
      · split at h
        · cases h
        · exact (Except.ok.inj h).symm

/-- A formatted access that comes to a state does so with that size. -/
theorem withForm_ok {p : Word} {m : Nat} {y : BitVec 3} {f : Nat → Res} (h : withForm s p m y f = .ok t) :
    f (formBytes (pFmt p) (pBlg p) m) = .ok t := by
  unfold withForm at h
  split at h
  · next hs => rwa [formSize_ok hs] at h
  · cases h

/-- What a store word that issues leaves: it has stored at the address and the size that it gives (R237-R239, R242), its address lies where
its base does, and only `vstf` records flags. -/
def StoreIssued (s t : State) (i : Instr) (b : RF) : Prop :=
  ∃ fl q n, s.storeArea i = some (q, n) ∧ s.ownDie (s.res q) = s.ownDie (s.res (s.rdG b)) ∧
    ((∀ v c m u, i ≠ .vstf v b c m u) → fl = false) ∧ StoredAt fl s.opened t q n

/-- A word that stores at a displacement from its base. -/
theorem runC_storeAt_issued {i : Instr} {body : State → Res} {b : RF} {d : Int} {align : Nat} {bs : List Byte} (h : runC i s body = t)
    (ht : t.iss.fate = .issued) (hb : body s.opened = withEA s.opened (s.opened.rdG b) d fun q => storeAt s.opened q n align bs)
    (ha : s.storeArea i = (moveOff (s.opened.rdG b) d).map (·, n)) : StoreIssued s t i b := by
  subst h
  obtain ⟨u, hu, hr⟩ := runC_issued ht
  obtain ⟨q, hq, hst⟩ := withEA_ok (hb.symm.trans hu)
  refine ⟨false, q, n, by rw [ha, hq]; rfl, ?_, fun _ => rfl, hr ▸ (storeAt_stored hst).advance i⟩
  rw [State.opened_rdG] at hq
  exact ownDie_moveOff s hq

/-- A formatted store that issues (R242). -/
theorem execVstf_issued {v : BitVec 4} {b c : RF} {m y : BitVec 3} (h : execVstf v b c m y s = .next t) (ht : t.iss.fate = .issued) :
    StoredAt true s.opened t (s.rdG b) (formBytes (pFmt (s.rdG b)) (pBlg (s.rdG b)) (s.rdG c).toNat) := by
  obtain rfl := Host.Outcome.next.inj h
  obtain ⟨u, hu, hr⟩ := runC_issued ht
  rw [hr]
  refine StoredAt.advance ?_ _
  rw [State.opened_rdG, State.opened_rdG] at hu
  have hput := withForm_ok hu
  dsimp only at hput
  split at hput
  · next hst =>
    obtain rfl := Res.ok.inj hput
    exact (storeAt_stored hst).orFlags _
  · next hne => exact absurd hput (hne u)

/-- The store words (R237-R239, R242). -/
theorem exec_store_issued {i : Instr} {b : RF} (hx : exec i s = .next t) (ht : t.iss.fate = .issued)
    (hi : (∃ w a e, i = .st w a b e) ∨ (∃ a c w, i = .stx a b c w) ∨ (∃ v e, i = .vst v b e) ∨ (∃ v c m u, i = .vstf v b c m u)) :
    StoreIssued s t i b := by
  have hn {u} (h : exec i s = .next u) : u = t := Host.Outcome.next.inj (h.symm.trans hx)
  rcases hi with ⟨w, a, e, rfl⟩ | ⟨a, c, w, rfl⟩ | ⟨v, e, rfl⟩ | ⟨v, c, m, y, rfl⟩
  · exact runC_storeAt_issued (hn rfl) ht rfl (by simp only [State.storeArea, State.opened_rdG])
  · exact runC_storeAt_issued (hn rfl) ht rfl (by simp only [State.storeArea, State.opened_rdG])
  · exact runC_storeAt_issued (hn rfl) ht rfl (by simp only [State.storeArea, State.opened_rdG])
  · exact ⟨true, _, _, rfl, rfl, fun hne => absurd rfl (hne v c m y), execVstf_issued hx ht⟩
end

section
variable {s : State}

/-- The translations of the issuing context are those of its tenant, with a chunk open or not. -/
theorem State.opened_tenant : s.opened.tenant = s.tenant := by
  rw [State.tenant, State.opened_mine]
  rfl

theorem StoredAt.mem_pages {fl : Bool} {t : State} {q : Word} {n k : Nat} (h : StoredAt fl s.opened t q n)
    (hk : outsidePages s (dieOf s.iss.core) false s.tenant (pOff (s.res q)) n k) : memGet t.mem k = memGet s.mem k := by
  rw [h.mem, touchOwn_mem_pages]
  · rfl
  · rw [State.opened_tenant]
    exact hk

/-- A store elsewhere than in the memory of its own die changes no byte. -/
theorem StoredAt.mem_elsewhere {fl : Bool} {t : State} {q : Word} {n : Nat} (h : StoredAt fl s.opened t q n)
    (hq : s.ownDie (s.res q) = false) : t.mem = s.mem := by
  have htouch : s.opened.touchOwn (s.res q) n 1 = s.opened := touchOwn_elsewhere s.opened (s.res q) n 1 hq
  rw [h.mem, show s.opened.res q = s.res q from rfl, htouch]
  rfl
end

end Sys2Proof.Machine

open Sys2Proof Sys2Proof.Machine

/-- Settles O20: a store word that issues has opened the chunk, translated its address, entered the buffer and gone on (`StoreIssued`), and
each of these leaves what `Stored` and `DiesFilled` say. -/
theorem storeFrame : Obligations.StoreFrame := by
  intro i b s t _ hx ht hi
  obtain ⟨fl, q, n, harea, hown, hfl, h⟩ := exec_store_issued hx ht hi
  have hst : Stored fl s t := stored_opened.trans h.stored
  have hdies : DiesFilled s t := (diesFilled_touchOwn s.opened (s.res q) n 1).trans (diesFilled_of_dies h.dies)
  exact ⟨hst.others, hst.regs, hst.special, hst.units, hst.net, hst.halves, hst.engines, fun hne => hst.me.flags (hfl hne), hdies,
    fun he k => by rw [h.mem_elsewhere (hown.trans he)], q, n, harea, fun k hk => h.mem_pages hk⟩
end

section
/-! O30: `fence`, `post` and `recv` (R178, R248, R250, R251). -/

namespace Sys2Proof.Machine

/-! ## Waits after a commit -/

section
variable {i : Instr} {s : State} {chk : State → Option Trap}

/-- A waiting word that ends its chunk completes in the state that its commit leaves, or parks there (log 13). -/
theorem runEW_ends (mk : State → State × Wait) (done : State → Wait → Option State) (h : endsAt i s) (hc : chk s.opened = none) :
    runEW i s chk mk done = beginWait (mk (s.committed i)).1 (mk (s.committed i)).2 done :=
  runE_ends _ h hc (unheld_noHold s)

/-- A release that its own check refuses takes the check's trap. -/
theorem runR_trap {hold : State → Option Bool} (e : Vector Word 8) (op : State → State) {t : Trap} (h : runsC i s)
    (hc : chk s.opened = some t) : runR i s true chk hold e op = raise s.opened t := by
  obtain ⟨pc, hp⟩ := runsC_next h
  have h0 : s.opened.early i = none := h.1
  have h1 : s.opened.nextPc.isNone = false := by simp [hp]
  simp only [State.opened] at h0 hc h1 ⊢
  simp only [runR, endFrame, h0, hc, h1, Bool.and_false, Bool.false_eq_true, if_false]

/-- How a pointer resolves, and whether it is the issuer's own scratchpad, is as before the commit. -/
theorem commitChunk_ownSp (q : Word) :
    (commitChunk s.opened s.iss.core s.iss.slot).1.ownSp ((commitChunk s.opened s.iss.core s.iss.slot).1.res q) =
      s.opened.ownSp (s.opened.res q) := by
  have hf := fixed_commitChunk s.opened s.iss.core s.iss.slot
  generalize (commitChunk s.opened s.iss.core s.iss.slot).1 = u at hf
  have hiss : u.iss = s.opened.iss := congrArg (·.1) hf
  have hdev : u.devId = s.opened.devId := congrArg (·.2.1) hf
  simp only [State.ownSp, State.res, isSp, hiss, hdev]
  rfl

theorem committed_ownSp_res (q : Word) : (s.committed i).ownSp ((s.committed i).res q) = s.opened.ownSp (s.opened.res q) := by
  rw [committed_res, committed_ownSp]
end

/-! ## `fence` -/

section
variable {s : State} {k : BitVec 2}

/-- R178: an operation that a fence awaits is outstanding. -/
theorem fenceIds_outstanding {n id : Nat} (h : id ∈ fenceIds s n) : (s.req id).isSome = true ∨ s.me.long.any (·.id == id) = true := by
  unfold fenceIds at h
  rcases List.mem_append.mp h with h | h
  · obtain ⟨l, hl, rfl⟩ := List.mem_map.mp h
    exact .inr (List.any_eq_true.mpr ⟨l, (List.mem_filter.mp hl).1, beq_self_eq_true _⟩)
  · obtain ⟨r, hr, rfl⟩ := List.mem_map.mp h
    exact .inl (List.find?_isSome.mpr ⟨r, (List.mem_filter.mp hr).1, beq_self_eq_true _⟩)

theorem doneFence_nil {w : Wait} (h : w.ids = []) : doneFence s w = some s := by
  simp [doneFence, h]

theorem doneFence_waits {w : Wait} {n : Nat} (hw : w.ids = fenceIds s n) (h : fenceIds s n ≠ []) : doneFence s w = none := by
  obtain ⟨id, hid⟩ := List.exists_mem_of_ne_nil _ h
  refine if_neg fun hall => ?_
  have hdone := List.all_eq_true.mp hall id (hw ▸ hid)
  rcases fenceIds_outstanding hid with ho | ho
  · rw [Option.isSome_iff_ne_none] at ho
    simp [ho] at hdone
  · simp [ho] at hdone

theorem exec_fence_completes (h : endsAt (.fence k) s) (hk : fenceIds (s.committed (.fence k)) k.toNat = []) :
    exec (.fence k) s = .next (s.committed (.fence k)).advance :=
  congrArg Host.Outcome.next ((runEW_ends _ _ h rfl).trans (beginWait_done (doneFence_nil hk)))

theorem exec_fence_waits (h : endsAt (.fence k) s) (hk : fenceIds (s.committed (.fence k)) k.toNat ≠ []) :
    exec (.fence k) s = .next (park (s.committed (.fence k))
      { (s.committed (.fence k)).newWait (.fence k) [] none with ids := fenceIds (s.committed (.fence k)) k.toNat }) :=
  congrArg Host.Outcome.next ((runEW_ends _ _ h rfl).trans (beginWait_park (doneFence_waits rfl hk)))
end

/-! ## `post` -/

section
variable {a b c : RF} {n : BitVec 6} {s : State}

/-- What holds the write of a `post` to the own inbox back (R171). -/
def inboxHold (s : State) : Option Bool :=
  if (s.mine.ring 0).inboxFull then none else s.holdWrite (spKey s.iss.core ((s.mine.ring 0).slotOff (s.mine.ring 0).w)) 64

theorem unheld_postHold_own {p : Word} (ho : s.opened.ownSp (s.opened.res p) = true) (hr : released s) (hi : unheld inboxHold s) :
    unheld (postHold a p) s := by
  obtain ⟨hr0, hr1⟩ := unheld_holdRelease hr
  obtain ⟨hi0, hi1⟩ := hi
  constructor
  · rw [postHold, if_pos ho, hr0]; exact hi0
  · rw [postHold, if_pos (by rw [commitChunk_ownSp, ho]), hr1]; exact hi1

theorem unheld_postHold_far {p : Word} (ho : s.opened.ownSp (s.opened.res p) = false) (hl : a ≠ 0 → mayLong s) :
    unheld (postHold a p) s := by
  have hfar (u : State) (hu : u.ownSp (u.res p) = false) (hc : a ≠ 0 → holdLong u = none) : postHold a p u = none := by
    rw [postHold, hu, if_neg Bool.false_ne_true]
    split
    · next ha => exact hc (by simpa using ha)
    · rfl
  exact ⟨hfar _ ho fun ha => (unheld_holdLong (hl ha)).1, hfar _ (by rw [commitChunk_ownSp, ho]) fun ha => (unheld_holdLong (hl ha)).2⟩

/-- A `post` that nothing holds back is performed in the state that its commit leaves. -/
theorem exec_post (h : endsAt (.post a b c n) s) (hc : postCheck s.opened (s.rdG b) = none) (hh : unheld (postHold a (s.rdG b)) s) :
    exec (.post a b c n) s = .next (postOp a (s.rdG b) (postWords c n s) (s.committed (.post a b c n))) :=
  congrArg Host.Outcome.next (runR_ends _ _ h hc hh)

variable {m : State} {p : Word} {ws : List Word}

/-- R250: an entry goes to an own inbox that has room. -/
theorem postOp_room (ho : m.ownSp (m.res p) = true) (hf : (m.mine.ring 0).inboxFull = false) : postOp a p ws m =
    (((writeSquash m (spKey m.iss.core ((m.mine.ring 0).slotOff (m.mine.ring 0).w)) (entryBytes ws)).modCore m.iss.core fun k =>
      k.setRing 0 { m.mine.ring 0 with w := (m.mine.ring 0).w + 1 }).wrG a
        (BitVec.ofNat 64 ((m.mine.ring 0).n - ((m.mine.ring 0).w + 1 - (m.mine.ring 0).c).toNat))).advance := by
  have hf' : ((m.core m.iss.core).ring 0).inboxFull = false := hf
  simp only [postOp, ho, if_true, appendInbox, hf', Bool.false_eq_true, if_false]
  rfl

/-- R249, R250: a full one refuses it, and counts the refusal where no issuer learns of it. -/
theorem postOp_full (ho : m.ownSp (m.res p) = true) (hf : (m.mine.ring 0).inboxFull = true) : postOp a p ws m =
    ((if a = 0 then m.modCore m.iss.core fun k => k.setRing 0 { m.mine.ring 0 with drops := (m.mine.ring 0).drops + 1 } else m).wrG a
      (BitVec.allOnes 64)).advance := by
  have hf' : ((m.core m.iss.core).ring 0).inboxFull = true := hf
  simp only [postOp, ho, if_true, appendInbox, hf']
  by_cases ha : a = 0
  · subst ha; rfl
  · simp only [bne_iff_ne, ne_eq, ha, not_false_eq_true, if_true, if_false]

/-- A `post` elsewhere is long where it has a result. -/
theorem postOp_far_result (ho : m.ownSp (m.res p) = false) (ha : a ≠ 0) :
    postOp a p ws m = (startOp m true (m.res p) (.post (m.res p) ws true) (m.dstG a) p).advance := by
  simp only [postOp, ho, Bool.false_eq_true, if_false, bne_iff_ne, ne_eq, ha, not_false_eq_true, if_true]

theorem postOp_far_posted (ho : m.ownSp (m.res p) = false) :
    postOp 0 p ws m = (sendOp m true false (m.res p) (.post (m.res p) ws false) (some p)).advance := by
  simp only [postOp, ho, Bool.false_eq_true, if_false]
  rfl

/-- The checks of an own inbox that has room are those of a store at its next entry (R250). -/
theorem postCheck_own (ho : s.ownSp (s.res p) = true) (hf : (s.mine.ring 0).inboxFull = false) (hs : pSpc p = 0) (hz : p.extractLsb' 18 14 = 0) :
    postCheck s p = (s.checkProt (inboxNext s s.iss.core) 64 1).or
      ((s.checkLock (inboxNext s s.iss.core) 64 1).or (s.watch (inboxNext s s.iss.core) 64 1)) := by
  simp [postCheck, ho, hf, hs, hz]

theorem exec_post_trap {t : Trap} (h : runsC (.post a b c n) s) (ht : postCheck s.opened (s.rdG b) = some t) :
    exec (.post a b c n) s = .next (raise s.opened t) := congrArg Host.Outcome.next (runR_trap _ _ h ht)
end

/-! ## `recv` -/

section
variable {a b : RF} {s : State}

theorem doneRecv_empty {w : Wait} (h : (s.mine.ring 0).w = (s.mine.ring 0).c) : doneRecv a s w = none := if_pos h

/-- R251: the eight words of the oldest entry. -/
theorem doneRecv_entry {w : Wait} (h : (s.mine.ring 0).w ≠ (s.mine.ring 0).c) : doneRecv a s w =
    some (((List.range 8).foldl (fun u i => u.wrG (grp a i)
      (BitVec.ofNat 64 (memNat s.mem (spKey s.iss.core ((s.mine.ring 0).slotOff (s.mine.ring 0).c) + 8 * i) 8))) s).modMine fun k =>
        k.setRing 0 { s.mine.ring 0 with c := (s.mine.ring 0).c + 1, f := (s.mine.ring 0).c + 1 }) := by
  refine (if_neg h).trans (congrArg (fun u : State => some (u.modMine _)) (List.foldl_ext _ _ _ fun u i hi => ?_))
  simp only [List.getD_eq_getElem?_getD, List.getElem?_map, List.getElem?_range (List.mem_range.mp hi), Option.map_some, Option.getD_some]

theorem exec_recv (h : endsAt (.recv a b) s) (hl : entryLocked s.opened 64 = none) : exec (.recv a b) s =
    .next (beginWait (s.committed (.recv a b)) ((s.committed (.recv a b)).newWait (.recv a b) [] (limitOf ((s.committed (.recv a b)).rdG b)))
      (doneRecv a)) := congrArg Host.Outcome.next (runEW_ends _ _ h hl)

theorem exec_recv_locked {t : Trap} (h : runsC (.recv a b) s) (hl : entryLocked s.opened 64 = some t) :
    exec (.recv a b) s = .next (raise s.opened t) := congrArg Host.Outcome.next (runE_trap _ h hl)
end

end Sys2Proof.Machine

open Sys2Proof Sys2Proof.Machine

/-- Settles O30: each word by what it comes to in the state that its commit leaves. -/
theorem inboxResults : Obligations.InboxResults := by
  refine ⟨fun k s h => ⟨exec_fence_completes h, exec_fence_waits h⟩, fun a b c n s => ?_⟩
  intro o p q ws
  refine ⟨fun hc h => ?_, fun ho hf hs hz h => ?_, fun h hl => ?_, fun t h hl => exec_recv_locked h hl⟩
  · intro m r
    have hq : q = m.res p := (committed_res s (.post a b c n) p).symm
    have hown : m.ownSp (m.res p) = o.ownSp q := committed_ownSp_res p
    refine ⟨fun ho hrel hi => ?_, fun ho ha hl => ?_, fun ho ha => ?_⟩
    · have hrun := exec_post h hc (unheld_postHold_own ho hrel hi)
      exact ⟨fun hf => hrun.trans (congrArg _ (postOp_room (hown.trans ho) hf)), fun hf => hrun.trans (congrArg _ (postOp_full (hown.trans ho) hf))⟩
    · have hrun := exec_post h hc (unheld_postHold_far ho fun _ => hl)
      rw [hq]
      exact hrun.trans (congrArg _ (postOp_far_result (hown.trans ho) ha))
    · have hrun := exec_post h hc (unheld_postHold_far ho fun hne => absurd ha hne)
      rw [hq]
      subst ha
      exact hrun.trans (congrArg _ (postOp_far_posted (hown.trans ho)))
  · intro e t ht
    exact exec_post_trap h ((postCheck_own ho hf hs hz).trans ht)
  · intro m r w
    exact ⟨fun hne => (exec_recv h hl).trans (congrArg _ (beginWait_done (doneRecv_entry hne))),
      fun he => (exec_recv h hl).trans (congrArg _ (beginWait_park (doneRecv_empty he)))⟩
end
section
/-! O7: counts of bits, `sel` and bit fields (R195, R196, R202). -/

namespace Sys2Proof.Machine

/-! ## Words that write one register -/

section
variable {i : Instr} {s : State} {d : RF} {f : State → Word} {v : Word}

/-- p0 guards nothing (R39, R78). -/
theorem guard_zero (s : State) : s.guard 0 = true := by
  simp [State.guard, State.rdP]

/-- R78: a word of the shape `aluW` writes its value under its guard. -/
theorem exec_aluW {g : BitVec 3} (hx : exec i s = .next (aluW i d g f s)) (hv : f s = v) (h : runsA i s) :
    exec i s = .next (if s.guard g then s.wrG d v else s) := by
  rw [hx, ← hv]
  exact congrArg _ (runA_eq _ h)

/-- The same of a word that has no guard. -/
theorem exec_aluW_unguarded (hx : exec i s = .next (aluW i d 0 f s)) (hv : f s = v) (h : runsA i s) : exec i s = .next (s.wrG d v) := by
  rw [exec_aluW hx hv h, guard_zero]
  rfl
end

/-! ## Counts of bits -/

section
variable {x : Word}

/-- Above the highest 1 there are as many bits as `clz` counts. -/
theorem clzW_toNat (h : x ≠ 0) : (clzW x).toNat = 63 - Nat.log2 x.toNat := by
  rw [clzW, if_neg h, BitVec.toNat_ofNat, Nat.mod_eq_of_lt (by omega)]

variable (x)

theorem log2_toNat_lt : Nat.log2 x.toNat < 64 := by
  by_cases h : x.toNat = 0
  · rw [h]; decide
  · exact (Nat.log2_lt h).mpr x.isLt

theorem clzW_spec : (clzW x).toNat ≤ 64 ∧ (∀ i, 64 - (clzW x).toNat ≤ i → x.getLsbD i = false) ∧
    ((clzW x).toNat < 64 → x.getLsbD (63 - (clzW x).toNat) = true) := by
  by_cases h : x = 0
  · subst h
    exact ⟨by decide, fun i _ => BitVec.getLsbD_zero, fun hlt => absurd hlt (by decide)⟩
  · have hx : x.toNat ≠ 0 := fun e => h (BitVec.eq_of_toNat_eq e)
    have hlog := log2_toNat_lt x
    rw [clzW_toNat h]
    refine ⟨by omega, fun i hi => ?_, fun _ => ?_⟩
    · exact Nat.testBit_lt_two_pow ((Nat.log2_lt hx).mp (by omega))
    · rw [show 63 - (63 - x.toNat.log2) = x.toNat.log2 by omega]
      exact Nat.testBit_log2 hx

/-- `ctz` is the place of the lowest 1, and 64 where there is none. -/
theorem ctzW_spec : (ctzW x).toNat ≤ 64 ∧ (∀ i, i < (ctzW x).toNat → x.getLsbD i = false) ∧
    ((ctzW x).toNat < 64 → x.getLsbD (ctzW x).toNat = true) := by
  unfold ctzW
  cases hf : (List.range 64).find? fun i => x.getLsbD i with
  | none =>
    rw [List.find?_range_eq_none] at hf
    exact ⟨by decide, fun i hi => by simpa using hf i hi, fun hlt => absurd hlt (by decide)⟩
  | some k =>
    obtain ⟨hk, hmem, hlow⟩ := List.find?_range_eq_some.mp hf
    have hlt : k < 64 := List.mem_range.mp hmem
    rw [Option.getD_some, BitVec.toNat_ofNat, Nat.mod_eq_of_lt (by omega)]
    exact ⟨hlt.le, fun i hi => by simpa using hlow i hi, fun _ => hk⟩

theorem popcW_eq : popcW x = BitVec.ofNat 64 ((List.range 64).filter fun i => x.getLsbD i).length := by
  rw [popcW, List.countP_eq_length_filter]
end

/-! ## Bit fields -/

section
variable (x old : Word) (o n : Nat) {j : Nat}

/-- The integer of a field is that of its bits as two's complement. -/
theorem toSigned_toInt {w : Nat} (y : BitVec w) : toSigned w y.toNat = y.toInt := by
  rw [toSigned, Nat.mod_eq_of_lt y.isLt, BitVec.toInt_eq_toNat_cond]
  split <;> split <;> push_cast <;> omega

/-- A field as a bit vector: bit j is bit o + j of the source. -/
theorem bfxW_field (q : Bool) : bfxW x o n q = if q then (x.extractLsb' o n).signExtend 64 else (x.extractLsb' o n).zeroExtend 64 := by
  have hf : x.toNat / 2 ^ o % 2 ^ n = (x.extractLsb' o n).toNat := by
    rw [BitVec.extractLsb'_toNat, Nat.shiftRight_eq_div_pow]
  rw [bfxW, hf]
  refine if_congr Iff.rfl ?_ ?_
  · rw [toSigned_toInt]; rfl
  · exact BitVec.ofNat_toNat _ _

theorem bfxW_bit (q : Bool) (hn : 0 < n) (hj : j < 64) :
    (bfxW x o n q).getLsbD j = if j < n then x.getLsbD (o + j) else (q && x.getLsbD (o + n - 1)) := by
  rw [bfxW_field]
  cases q with
  | false => simp [hj]
  | true =>
    rw [if_pos rfl, BitVec.getLsbD_signExtend, BitVec.msb_eq_getLsbD_last]
    simp only [BitVec.getLsbD_extractLsb', hj, show n - 1 < n by omega, show o + (n - 1) = o + n - 1 by omega, decide_true, Bool.true_and]
    split
    · next h => rw [decide_eq_true h, Bool.true_and]
    · rfl

/-- A number placed at bit o. -/
theorem getLsbD_placed (y : Nat) (hj : j < 64) : (BitVec.ofNat 64 (y * 2 ^ o)).getLsbD j = (decide (o ≤ j) && y.testBit (j - o)) := by
  rw [BitVec.getLsbD_ofNat, Nat.testBit_mul_two_pow, decide_eq_true hj, Bool.true_and]

theorem bfiW_bit (z : Bool) (hj : j < 64) : (bfiW old x o n z).getLsbD j =
    if o ≤ j ∧ j < o + n then x.getLsbD (j - o) else (!z && old.getLsbD j) := by
  have hfield : (BitVec.ofNat 64 (x.toNat % 2 ^ n * 2 ^ o)).getLsbD j = (decide (o ≤ j ∧ j < o + n) && x.getLsbD (j - o)) := by
    rw [getLsbD_placed o _ hj, Nat.testBit_mod_two_pow, ← Bool.and_assoc, ← Bool.decide_and]
    exact congrArg₂ and (decide_eq_decide.mpr (by omega)) rfl
  have hmask : (BitVec.ofNat 64 ((2 ^ n - 1) * 2 ^ o)).getLsbD j = decide (o ≤ j ∧ j < o + n) := by
    rw [getLsbD_placed o _ hj, Nat.testBit_two_pow_sub_one, ← Bool.decide_and]
    exact decide_eq_decide.mpr (by omega)
  have hkept : (bfiW old x o n false).getLsbD j = (old.getLsbD j && !decide (o ≤ j ∧ j < o + n) ||
      (decide (o ≤ j ∧ j < o + n) && x.getLsbD (j - o))) := by
    rw [← hfield, ← hmask]
    simp [bfiW, hj]
  cases z with
  | true =>
    refine hfield.trans ?_
    by_cases h : o ≤ j ∧ j < o + n <;> simp [h]
  | false =>
    rw [hkept]
    by_cases h : o ≤ j ∧ j < o + n <;> simp [h]
end
end Sys2Proof.Machine

open Sys2Proof Sys2Proof.Machine

/-- Settles O7: each word is `aluW` at a value whose bits `clzW_spec`, `ctzW_spec`, `bfxW_bit` and `bfiW_bit` give. -/
theorem bitResults : Obligations.BitResults := by
  refine ⟨fun d a b g s => ?_, fun d a pos len q s _ => ?_⟩
  · intro x
    exact ⟨fun h => ⟨_, exec_aluW rfl rfl h, clzW_spec x⟩, fun h => ⟨_, exec_aluW rfl rfl h, ctzW_spec x⟩,
      exec_aluW rfl (popcW_eq x), exec_aluW_unguarded rfl rfl⟩
  · intro x n o
    refine ⟨fun h => ⟨_, exec_aluW_unguarded rfl rfl h, fun j hj => bfxW_bit x o n (q == 1) (Nat.succ_pos _) hj⟩,
      fun h => ⟨_, exec_aluW_unguarded rfl rfl h, fun j hj => ?_⟩⟩
    exact bfiW_bit x _ o n (q == 1) hj
end
section
/-! O6: the integer operations on registers (R195, R196). -/

namespace Sys2Proof.Machine

/-! ## Values of the table -/

section
variable (x y : Word)

/-- Bits 127:64 of a product are its floor by 2^64, whatever the number of bits it is kept in. -/
theorem extractLsb'_ofInt_high (z : Int) : (BitVec.ofInt 128 z).extractLsb' 64 64 = BitVec.ofInt 64 (z / 2 ^ 64) := by
  apply BitVec.eq_of_toNat_eq
  rw [BitVec.extractLsb'_toNat, BitVec.toNat_ofInt, BitVec.toNat_ofInt, Nat.shiftRight_eq_div_pow]
  omega

theorem mulhW_eq : mulhW x y = (x.signExtend 128 * y.signExtend 128).extractLsb' 64 64 := by
  rw [mulhW, ← extractLsb'_ofInt_high, BitVec.ofInt_mul]
  rfl

theorem mulhnW_eq : mulhnW x y = (x.zeroExtend 128 * y.zeroExtend 128).extractLsb' 64 64 := by
  have hx := x.isLt
  have hy := y.isLt
  apply BitVec.eq_of_toNat_eq
  rw [mulhnW, BitVec.extractLsb'_toNat, BitVec.toNat_mul, BitVec.toNat_setWidth, BitVec.toNat_setWidth, BitVec.toNat_ofNat,
    Nat.shiftRight_eq_div_pow, Nat.mod_eq_of_lt (show x.toNat < 2 ^ 128 by omega), Nat.mod_eq_of_lt (show y.toNat < 2 ^ 128 by omega)]
  omega

/-- R196: a shift counts by bits 5:0 of its operand. -/
theorem shc_eq : shc y = (y &&& 63).toNat := by
  rw [shc, BitVec.toNat_and]
  exact (Nat.and_two_pow_sub_one_eq_mod y.toNat 6).symm

/-- The smaller and the larger of two words, by their order as signed or as natural numbers: of equal ones either. -/
theorem minW_eq : minW x y = if x.slt y then x else y := by
  simp only [minW, BitVec.slt_iff_toInt_lt]
  split <;> split
  · rfl
  · exact BitVec.eq_of_toInt_eq (by omega)
  · omega
  · rfl

theorem maxW_eq : maxW x y = if x.slt y then y else x := by
  simp only [maxW, BitVec.slt_iff_toInt_lt]
  split <;> split
  · rfl
  · exact BitVec.eq_of_toInt_eq (by omega)
  · omega
  · rfl

theorem minnW_eq : minnW x y = if x.ult y then x else y := by
  simp only [minnW, BitVec.ult_iff_toNat_lt]
  split <;> split
  · rfl
  · exact BitVec.eq_of_toNat_eq (by omega)
  · omega
  · rfl

theorem maxnW_eq : maxnW x y = if x.ult y then y else x := by
  simp only [maxnW, BitVec.ult_iff_toNat_lt]
  split <;> split
  · rfl
  · exact BitVec.eq_of_toNat_eq (by omega)
  · omega
  · rfl
end

end Sys2Proof.Machine

open Sys2Proof Sys2Proof.Machine

/-- Settles O6: each word is `aluW` at its value of the table. -/
theorem integerResults : Obligations.IntegerResults := by
  intro d a b g s x y p hp h
  simp only [List.mem_cons, List.not_mem_nil, or_false] at hp
  rcases hp with rfl | rfl | rfl | rfl | rfl | rfl | rfl | rfl | rfl | rfl | rfl | rfl | rfl | rfl | rfl
  · exact exec_aluW rfl rfl h
  · exact exec_aluW rfl rfl h
  · exact exec_aluW rfl rfl h
  · exact exec_aluW rfl (mulhW_eq x y) h
  · exact exec_aluW rfl (mulhnW_eq x y) h
  · exact exec_aluW rfl rfl h
  · exact exec_aluW rfl rfl h
  · exact exec_aluW rfl rfl h
  · exact exec_aluW rfl (congrArg (x <<< ·) (shc_eq y)) h
  · exact exec_aluW rfl (congrArg (x >>> ·) (shc_eq y)) h
  · exact exec_aluW rfl (congrArg x.sshiftRight (shc_eq y)) h
  · exact exec_aluW rfl (minW_eq x y) h
  · exact exec_aluW rfl (maxW_eq x y) h
  · exact exec_aluW rfl (minnW_eq x y) h
  · exact exec_aluW rfl (maxnW_eq x y) h
end

section
/-! O9: immediate operations and moves (R197-R200). -/

namespace Sys2Proof.Machine

/-- R199, R200: the high word replaced. -/
theorem highW_eq (old : Word) (h : W32) : highW old h.toNat = h ++ old.extractLsb' 0 32 := by
  have hh := h.isLt
  apply BitVec.eq_of_toNat_eq
  rw [highW, BitVec.toNat_append, BitVec.extractLsb'_toNat, Nat.shiftRight_zero,
    ← Nat.shiftLeft_add_eq_or_of_lt (Nat.mod_lt _ (by decide)), Nat.shiftLeft_eq, BitVec.toNat_ofNat]
  omega

/-- R200: the three modes of `movl`. -/
theorem movlW_eq (old : Word) {m : BitVec 2} (w : W32) (h : m ≠ 3) : movlW old m w =
    if m = 0 then w.signExtend 64 else if m = 1 then w.zeroExtend 64 else w ++ old.extractLsb' 0 32 := by
  rw [← highW_eq]
  revert h
  match m with
  | 0 | 1 | 2 => exact fun _ => rfl
  | 3 => exact fun h => absurd rfl h

/-- A C or lone word that comes to a state and marks no violation goes on from it. -/
theorem exec_runC_ok {i : Instr} {s t : State} {body : State → Res} (hx : exec i s = .next (runC i s body)) (h : runsC i s)
    (hv : isViol i = false) (hb : body s.opened = .ok t) : exec i s = .next t.advance := by
  rw [hx, runC_ok h hb, markViol_none _ hv]

end Sys2Proof.Machine

open Sys2Proof Sys2Proof.Machine

/-- Settles O9: the immediates are `aluW` without a guard, and `movl` is a lone word of its own. -/
theorem immediateResults : Obligations.ImmediateResults := by
  refine ⟨fun d a i n k s p hp h => ?_, fun d m w s hm h => ?_⟩
  · simp only [List.mem_cons, List.not_mem_nil, or_false] at hp
    rcases hp with rfl | rfl | rfl | rfl | rfl | rfl | rfl | rfl | rfl
    · exact exec_aluW_unguarded rfl rfl h
    · exact exec_aluW_unguarded rfl rfl h
    · exact exec_aluW_unguarded rfl rfl h
    · exact exec_aluW_unguarded rfl rfl h
    · exact exec_aluW_unguarded rfl rfl h
    · exact exec_aluW_unguarded rfl rfl h
    · exact exec_aluW_unguarded rfl rfl h
    · exact exec_aluW_unguarded rfl rfl h
    · have hk : k.toNat = (k.zeroExtend 32 : W32).toNat := (BitVec.toNat_setWidth_of_le (by decide)).symm
      exact exec_aluW_unguarded rfl ((congrArg _ hk).trans (highW_eq _ _)) h
  · exact exec_runC_ok rfl h rfl (by rw [movlW_eq _ _ hm])
end

section
/-! O10: comparisons (R201). -/

namespace Sys2Proof.Machine

/-- The conditions of R201, by their code. -/
theorem condOk_eq (c : BitVec 3) (x y : Word) : condOk c x y =
    [x == y, x != y, x.slt y, x.sle y, y.slt x, y.sle x, x.ult y, x.ule y].getD c.toNat false := by
  match c with
  | 0 | 1 | 2 | 3 | 4 | 5 | 6 | 7 => rfl

end Sys2Proof.Machine

open Sys2Proof Sys2Proof.Machine

/-- Settles O10: the condition is that of its code, and a whole predicate takes its truth. -/
theorem comparisonResults : Obligations.ComparisonResults := by
  intro p a b g c i s holds
  refine ⟨fun h => ?_, fun h => ?_⟩
  · refine congrArg Host.Outcome.next ((runA_eq _ h).trans ?_)
    rw [condOk_eq]
    rfl
  · refine congrArg Host.Outcome.next ((runA_eq _ h).trans ?_)
    rw [condOk_eq]
    rfl
end
section
/-! O11: the pointer operations (R203-R209). -/

namespace Sys2Proof.Machine

section
variable {i : Instr} {s : State} {d : RF} {g : BitVec 3} {f : State → Except Trap Word}

/-- What a pointer operation comes to: the pointer written, or its trap. -/
def ptrDone (s : State) (d : RF) : Except Trap Word → State
  | .ok x => s.wrG d x
  | .error t => raise s t

/-- R78: a word of the shape `ptrOp` acts under its guard. -/
theorem exec_ptrOp (hx : exec i s = .next (ptrOp i d g f s)) (h : runsA i s) :
    exec i s = .next (if s.guard g then ptrDone s d (f s) else s) := by
  rw [hx, ptrOp, runA_eq _ h]
  cases s.guard g with
  | false => rfl
  | true => cases f s <;> rfl

/-- The same of a word that has no guard. -/
theorem exec_ptrOp_unguarded (hx : exec i s = .next (ptrOp i d 0 f s)) (h : runsA i s) : exec i s = .next (ptrDone s d (f s)) := by
  rw [exec_ptrOp hx h, guard_zero]
  rfl

/-- R204: a pointer moves within its offset field, or ADDR reports it. -/
theorem ptrDone_paddW (p : Word) (n : Int) : ptrDone s d (paddW s p n) =
    if 0 ≤ (pOff p : Int) + n ∧ (pOff p : Int) + n < 2 ^ offW p then s.wrG d (setOff p ((pOff p : Int) + n).toNat) else raise s (s.tAddr p) := by
  have hcond : (0 ≤ (pOff p : Int) + n ∧ (pOff p : Int) + n < 2 ^ offW p) ↔
      ¬(((pOff p : Int) + n < 0 || decide (((2 ^ offW p : Nat) : Int) ≤ pOff p + n)) = true) := by
    rw [Bool.or_eq_true, decide_eq_true_eq, decide_eq_true_eq, not_or, not_lt, not_le]
    push_cast
    rfl
  unfold paddW moveOff
  dsimp only
  split
  · next q hq =>
    split at hq
    · cases hq
    · next hin =>
      obtain rfl := Option.some.inj hq
      rw [if_pos (hcond.mpr hin)]
      rfl
  · next hq =>
    split at hq
    · next hout =>
      rw [if_neg fun hc => hcond.mp hc hout]
      rfl
    · cases hq

/-- R205: FORMAT for a tag that sizes no element, ADDR for elements that are no whole number of bytes; else the move of R204. -/
theorem ptrDone_pidxW (p : Word) (n : Int) : ptrDone s d (pidxW s p n) =
    if tagOk (pFmt p) (pBlg p) then (match elemBytes (pFmt p) (pBlg p) n with
      | some y => ptrDone s d (paddW s p y)
      | none => raise s (s.tAddr p)) else raise s (s.tFormat p) := by
  unfold pidxW
  generalize tagOk (pFmt p) (pBlg p) = tag
  generalize elemBytes (pFmt p) (pBlg p) n = m
  cases tag with
  | false =>
    rw [if_neg Bool.false_ne_true]
    rfl
  | true =>
    rw [if_pos rfl]
    cases m <;> rfl

/-- R209: the location of a pointer to a scratchpad or to die memory is replaced; no other has one. -/
theorem ptrDone_pmkW (p l : Word) : ptrDone s d (pmkW s p l) =
    if pSpc p = 0 then s.wrG d (p.extractLsb' 54 10 ++ l.extractLsb' 16 10 ++ l.extractLsb' 4 12 ++ p.extractLsb' 0 32)
    else if pSpc p = 1 then s.wrG d (p.extractLsb' 54 10 ++ l.extractLsb' 16 10 ++ l.extractLsb' 14 2 ++ p.extractLsb' 0 42)
    else raise s (s.tAddr p) := by
  unfold pmkW
  split
  · rfl
  · split <;> rfl

/-- R208: the predicate that `pchk` writes. -/
theorem true64_pchkOk (p : Word) (n : Nat) : true64 (pchkOk p n) =
    if mbzOk p ∧ pOff p + n ≤ 2 ^ offW p ∧ tagOk (pFmt p) (pBlg p) then BitVec.allOnes 64 else 0 := by
  refine if_congr ?_ rfl rfl
  rw [pchkOk, Bool.and_eq_true, Bool.and_eq_true, decide_eq_true_eq, and_assoc]
end

end Sys2Proof.Machine

open Sys2Proof Sys2Proof.Machine

/-- Settles O11: each word but `pchk` is `ptrOp`, and `ptrDone` says what its pointer comes to. -/
theorem pointerResults : Obligations.PointerResults := by
  intro d a b k g i f l s x y moved
  have hmoved (n : Int) : ptrDone s d (paddW s (s.rdG a) n) = moved n := ptrDone_paddW x n
  refine ⟨fun h => ?_, fun h => ?_, fun h => ?_, fun h => ?_, fun h => ?_, fun h => ?_, fun h => ?_⟩
  · rw [exec_ptrOp rfl h, hmoved]
  · rw [exec_ptrOp_unguarded rfl h, hmoved]
  · rw [exec_ptrOp rfl h, ptrDone_pidxW]
    simp only [hmoved]
    rfl
  · exact exec_ptrOp_unguarded rfl h
  · exact exec_ptrOp rfl h
  · refine congrArg Host.Outcome.next ((runA_eq _ h).trans ?_)
    rw [true64_pchkOk]
    rfl
  · rw [exec_ptrOp rfl h, ptrDone_pmkW]
end
section
/-! O25: the frame of a C word that stays in its chunk (R165, R210, R237). Each way in which such a word changes the state is a write of a
register that it names, a count, a line in the read signature of its chunk, or the start of a long operation with its request. -/

namespace Sys2Proof.Machine

/-! ## What such a word leaves alone -/

/-- What a word leaves beside the registers of the lists: memory, the dies and the units outside the cores, the other contexts and cores, the
special registers, FP.FLAGS, and of its core the units and the holder of the bank. -/
structure WordKept (s t : State) (gs : List RF) (vs : List (BitVec 4)) (ps : List (BitVec 3)) : Prop where
  iss : t.iss = s.iss
  mem : t.mem = s.mem
  dies : t.dies = s.dies
  halves : t.halves = s.halves
  engines : t.engines = s.engines
  others : sameOthers s t
  units : sameUnits s t
  holder : t.mine.holder = s.mine.holder
  regs : sameRegs s t gs vs ps
  special : sameSpecial s t
  flags : t.me.a.fpf = s.me.a.fpf

section
variable {s t u : State} {gs : List RF} {vs : List (BitVec 4)} {ps : List (BitVec 3)}

theorem WordKept.trans (h : WordKept s t gs vs ps) (k : WordKept t u gs vs ps) : WordKept s u gs vs ps where
  iss := k.iss.trans h.iss
  mem := k.mem.trans h.mem
  dies := k.dies.trans h.dies
  halves := k.halves.trans h.halves
  engines := k.engines.trans h.engines
  others := by
    obtain ⟨hc, hn⟩ := h.others
    obtain ⟨kc, kn⟩ := k.others
    rw [h.iss] at kc kn
    exact ⟨fun c h => (kc c h).trans (hc c h), fun n h => (kn n h).trans (hn n h)⟩
  units := by
    obtain ⟨h1, h2, h3, h4, h5, h6⟩ := h.units
    obtain ⟨k1, k2, k3, k4, k5, k6⟩ := k.units
    refine ⟨?_, k2.trans h2, k3.trans h3, k4.trans h4, k5.trans h5, k6.trans h6⟩
    calc { u.mine.r with cntVal := s.mine.r.cntVal }
      _ = { ({ u.mine.r with cntVal := t.mine.r.cntVal } : CoreRegs) with cntVal := s.mine.r.cntVal } := rfl
      _ = s.mine.r := by rw [k1, h1]
  holder := k.holder.trans h.holder
  regs := by
    obtain ⟨hg, hv, hp⟩ := h.regs
    obtain ⟨kg, kv, kp⟩ := k.regs
    exact ⟨fun r hr => (kg r hr).trans (hg r hr), fun r hr => (kv r hr).trans (hv r hr), fun r hr => (kp r hr).trans (hp r hr)⟩
  special := by
    obtain ⟨h1, h2, h3, h4, h5, h6, h7, h8⟩ := h.special
    obtain ⟨k1, k2, k3, k4, k5, k6, k7, k8⟩ := k.special
    exact ⟨k1.trans h1, k2.trans h2, k3.trans h3, k4.trans h4, k5.trans h5, k6.trans h6, k7.trans h7, k8.trans h8⟩
  flags := k.flags.trans h.flags

/-- A write of registers of the lists (R74, R75) that sets no flag. -/
theorem Kept.wordKept (h : Kept s t gs vs ps) (hf : t.me.a.fpf = s.me.a.fpf) : WordKept s t gs vs ps :=
  ⟨h.iss, h.mem, h.device.1, h.device.2.1, h.device.2.2.1, h.others, h.units, h.holder, h.regs, h.ctx.special, hf⟩

/-- A change of the chunk, the PC and the mark of the issuing context. -/
theorem Stored.wordKept (h : Stored false s t) (hm : t.mem = s.mem) (hd : t.dies = s.dies) : WordKept s t gs vs ps :=
  ⟨h.iss, hm, hd, h.halves, h.engines, h.others, h.units, by rw [h.mine]; rfl,
    ⟨fun r _ => h.regs.1 r List.not_mem_nil, fun r _ => h.regs.2.1 r List.not_mem_nil, fun r _ => h.regs.2.2 r List.not_mem_nil⟩, h.special,
    h.me.flags rfl⟩

theorem wordKept_refl : WordKept s s gs vs ps := (Kept.refl s).wordKept rfl

theorem wordKept_opened : WordKept s s.opened gs vs ps := stored_opened.wordKept rfl rfl

theorem wordKept_setPc (pc : Word) : WordKept s (s.setPc pc) gs vs ps := (stored_setPc pc).wordKept rfl rfl

theorem wordKept_modChunk (f : Chunk → Chunk) : WordKept s (s.modChunk f) gs vs ps := (stored_modChunk f).wordKept rfl rfl

theorem wordKept_addRead (ks : List Nat) : WordKept s (s.addRead ks) gs vs ps := wordKept_modChunk _

theorem wordKept_wrG (d : RF) (x : Word) : WordKept s (s.wrG d x) [d] vs ps :=
  (kept_wrG d x).wordKept ((kept_wrG (vs := []) (ps := []) d x).ctx.whole rfl)

theorem wordKept_wrV (d : BitVec 4) (x : VReg) : WordKept s (s.wrV d x) gs [d] ps := by
  refine (kept_wrV d x).wordKept ?_
  rcases State.modMe_me s fun c => { c with a := c.a.wrV d.toNat x } with h | h <;> rw [State.wrV, h]
  rfl

/-! ## Counts -/

theorem countCtx_mine (n : SlotNo) (e : Nat) : (s.countCtx s.iss.core n e).mine =
    { s.mine with r := cntAdd s.mine.r e 1 (some (n, (s.mine.ctx n).priv)) } := State.core_modCore s _ _

theorem countCtx_me (n : SlotNo) (e : Nat) : (s.countCtx s.iss.core n e).me = s.me := congrArg (·.ctx s.iss.slot) (countCtx_mine n e)

theorem wordKept_countCtx {c : CoreId} (hc : c = s.iss.core) (n : SlotNo) (e : Nat) : WordKept s (s.countCtx c n e) gs vs ps := by
  subst hc
  exact {
    iss := rfl
    mem := rfl
    dies := rfl
    halves := rfl
    engines := rfl
    others := ⟨fun _ h => State.core_modCore_ne s _ h, fun m _ => congrArg (·.ctx m) (countCtx_mine n e)⟩
    units := by rw [sameUnits, countCtx_mine]; exact ⟨rfl, rfl, rfl, rfl, rfl, rfl⟩
    holder := by rw [countCtx_mine]
    regs := by
      have hho : (s.countCtx s.iss.core n e).mine.holder = s.mine.holder := by rw [countCtx_mine]
      refine ⟨fun r _ => ?_, fun r _ => ?_, fun r _ => ?_⟩
      · rw [State.nowG, State.nowG, State.isShadow_of_eq (s := s) (t := s.countCtx s.iss.core n e) rfl hho, countCtx_me, countCtx_mine]
      · rw [State.nowV, State.nowV, countCtx_me]
      · rw [State.nowP, State.nowP, countCtx_me]
    special := by rw [sameSpecial, countCtx_me]; exact ⟨rfl, rfl, rfl, rfl, rfl, rfl, rfl, rfl⟩
    flags := by rw [countCtx_me] }

/-! ## Long operations and their requests -/

theorem wordKept_addLong {l : LongOp} (h : s.mine.holds s.iss.slot = false → ∀ n, l.dst ≠ .h n) : WordKept s (s.addLong l) gs vs ps :=
  (kept_addLong h).wordKept ((kept_addLong (gs := []) (vs := []) (ps := []) h).ctx.whole rfl)

/-- A long operation on a vector register. -/
theorem wordKept_addLong_v {l : LongOp} {v : BitVec 4} (h : l.dst = .v v) : WordKept s (s.addLong l) gs vs ps :=
  wordKept_addLong fun _ n => by rw [h]; exact nofun

theorem wordKept_freshId : WordKept s s.freshId gs vs ps := kept_freshId.wordKept rfl

/-- The parts of the state that packets which leave a core do not change (R387). -/
def State.still (s : State) : Iss × Mem × List (Nat × Core) × Vector Die 4 × List (Nat × Half) × List (Nat × Engine) :=
  (s.iss, s.mem, s.cores, s.dies, s.halves, s.engines)

theorem still_hostXlate (r : Req) : (hostXlate s r).still = s.still := by
  unfold hostXlate
  split <;> rfl

theorem still_leaveCore (r : Req) : (s.leaveCore r).still = s.still := still_hostXlate (s := { s with seqs := _ }) r

theorem WordKept.of_still (h : t.still = s.still) : WordKept s t gs vs ps := by
  simp only [State.still, Prod.mk.injEq] at h
  obtain ⟨hi, hm, hc, hd, hh, he⟩ := h
  have hcore : t.core = s.core := by funext c; rw [State.core, State.core, hc]
  have hmine : t.mine = s.mine := by rw [State.mine, State.mine, hi, hcore]
  have hme : t.me = s.me := by rw [State.me, State.me, State.ctx, State.ctx, hi, hcore]
  refine ⟨hi, hm, hd, hh, he, ⟨fun c _ => by rw [hcore], fun n _ => by rw [State.ctx, State.ctx, hcore]⟩, ?_, by rw [hmine],
    ⟨fun r _ => ?_, fun r _ => ?_, fun r _ => ?_⟩, ?_, by rw [hme]⟩
  · rw [sameUnits, hmine]; exact ⟨rfl, rfl, rfl, rfl, rfl, rfl⟩
  · rw [State.nowG, State.nowG, State.isShadow_of_eq hi (by rw [hmine]), hmine, hme]
  · rw [State.nowV, State.nowV, hme]
  · rw [State.nowP, State.nowP, hme]
  · rw [sameSpecial, hme]; exact ⟨rfl, rfl, rfl, rfl, rfl, rfl, rfl, rfl⟩

/-- A request that is no operation of R175 is counted by nothing, and enters the fabric. -/
theorem wordKept_send {r : Req} (ho : r.ord = false) : WordKept s (s.send r) gs vs ps := by
  refine .of_still ?_
  unfold State.send
  simp only [ho, Bool.false_and, Bool.false_eq_true, if_false]
  split
  · rfl
  · exact still_leaveCore r

theorem wordKept_startLoad {q : Word} {n : Nat} {dst : Dst} {conv : Conv} (h : s.mine.holds s.iss.slot = false → ∀ k, dst ≠ .h k) :
    WordKept s (startLoad s q n dst conv) gs vs ps := by
  unfold startLoad
  extract_lets r near ks body l₀ l t u v
  have ht : WordKept s t gs vs ps := by
    unfold t
    split
    · exact wordKept_addRead ks
    · exact wordKept_refl
  have hu : WordKept s u gs vs ps := ht.trans (wordKept_countCtx (congrArg Iss.core ht.iss).symm _ _)
  have hv : WordKept s v gs vs ps := hu.trans (wordKept_send rfl)
  exact hv.trans (wordKept_addLong (by rw [Core.holds, hv.holder, hv.iss]; exact h))

/-! ## Loads -/

theorem watched_ok {q : Word} {n kind : Nat} {f : Unit → Res} (h : watched s q n kind f = .ok t) : f () = .ok t := by
  unfold watched at h
  split at h
  · cases h
  · exact h

/-- A load that comes to a state has written its register at once or has started as a long operation (R236, R237). -/
theorem loadAt_kept {q : Word} {n align : Nat} {dst : Dst} {conv : Conv} {wr : State → List Byte → Res}
    (hwr : ∀ bs u, wr s bs = .ok u → WordKept s u gs vs ps) (hd : s.mine.holds s.iss.slot = false → ∀ k, dst ≠ .h k)
    (h : loadAt s q n align dst conv wr = .ok t) : WordKept s t gs vs ps := by
  unfold loadAt at h
  split at h
  · cases h
  · split at h
    · dsimp only at h
      split at h
      · next u hu =>
        obtain rfl := Res.ok.inj (watched_ok h)
        have hread : WordKept s (u.addRead (s.byteKeys (s.res q) n)) gs vs ps := (hwr _ u hu).trans (wordKept_addRead _)
        exact hread.trans (wordKept_countCtx (congrArg Iss.core hread.iss).symm _ _)
      · next hne => exact absurd h (hne t)
    · have hlong := watched_ok h
      split at hlong
      · cases hlong
      · split at hlong <;> obtain rfl := Res.ok.inj hlong
        · exact wordKept_freshId.trans (wordKept_addLong hd)
        · exact wordKept_startLoad hd

theorem scalarLoad_kept {a : RF} {q : Word} {n : Nat} {zx : Bool} (h : scalarLoad s a q n zx = .ok t) : WordKept s t [a] vs ps := by
  have hput {cv : Conv} (bs : List Byte) (u : State) (hu : putScalar a cv s bs = .ok u) : WordKept s u [a] vs ps :=
    Res.ok.inj hu ▸ wordKept_wrG _ _
  cases zx with
  | false => exact loadAt_kept hput (dstG_ne_bank a) ((scalarLoad_sx s a q n).symm.trans h)
  | true => exact loadAt_kept hput (dstG_ne_bank a) ((scalarLoad_zx s a q n).symm.trans h)

theorem withEA_kept {base : Word} {d : Int} {f : Word → Res} (hf : ∀ q u, f q = .ok u → WordKept s u gs vs ps)
    (h : withEA s base d f = .ok t) : WordKept s t gs vs ps := by
  obtain ⟨q, -, hq⟩ := withEA_ok h
  exact hf q t hq

/-- A vector register is none of the bank. -/
theorem vreg_ne_bank (v : BitVec 4) (n : BitVec 4) : Dst.v v ≠ .h n := nofun

theorem formWrite_kept {v : BitVec 4} {p : Word} {n : Nat} {y : BitVec 3} {bs : List Byte} (h : formWrite v p n y s bs = .ok t) :
    WordKept s t gs [v] ps := by
  unfold formWrite at h
  split at h
  · cases h
  · obtain rfl := Res.ok.inj h
    exact wordKept_wrV _ _

/-! ## The words -/

section
variable {i : Instr}

/-- What a word that stays in its chunk leaves, when it issues; its WONLY mark is lost (R459). -/
def WordFrame (s t : State) (i : Instr) : Prop :=
  WordKept s t i.destG i.destV i.destP ∧ (s.iss.slot.toNat < 11 → t.me.a.wonly = false)

theorem setPc_wonly (pc : Word) (h : s.iss.slot.toNat < 11) : (s.setPc pc).me.a.wonly = false := by
  rw [State.setPc, State.me_modMe s _ h]

/-- A word that goes on at a place has left what its own effect left. -/
theorem WordKept.frame (h : WordKept s.opened u i.destG i.destV i.destP) (pc : Word) : WordFrame s (u.setPc pc) i :=
  ⟨(wordKept_opened.trans h).trans (wordKept_setPc pc), fun hs => setPc_wonly pc (by rw [h.iss]; exact hs)⟩

theorem runC_frame {body : State → Res} (hv : isViol i = false) (hb : ∀ u, body s.opened = .ok u → WordKept s.opened u i.destG i.destV i.destP)
    (h : runC i s body = t) (ht : t.iss.fate = .issued) : WordFrame s t i := by
  subst h
  obtain ⟨u, hu, hr⟩ := runC_issued ht
  rw [hr, markViol_none _ hv]
  exact (hb u hu).frame _

/-- A control transfer that issues has come to a state. -/
theorem runJ_issued {body : State → Res} (h : (runJ i s body).iss.fate = .issued) : body s.opened = .ok (runJ i s body) := by
  unfold runJ at h ⊢
  rw [← State.opened] at h ⊢
  dsimp only at h ⊢
  split at h
  · exact absurd h (raise_not_issued _ _)
  · obtain ⟨u, hu⟩ := settle_issued h
    rw [hu]
    rfl

theorem runJ_frame {body : State → Res} (hb : ∀ t, body s.opened = .ok t → ∃ u pc, WordKept s.opened u i.destG i.destV i.destP ∧ t = u.setPc pc)
    (h : runJ i s body = t) (ht : t.iss.fate = .issued) : WordFrame s t i := by
  subst h
  obtain ⟨u, pc, hu, hr⟩ := hb _ (runJ_issued ht)
  rw [hr]
  exact hu.frame pc

theorem goto_ok {pc : Option Word} (h : goto s pc = .ok t) : ∃ p, t = s.setPc p := by
  cases pc with
  | none => cases h
  | some p => exact ⟨p, (Res.ok.inj h).symm⟩

theorem jumpTo_ok {pc : Word} (h : jumpTo s pc = .ok t) : t = s.setPc pc := by
  unfold jumpTo at h
  split at h
  · exact (Res.ok.inj h).symm
  · cases h

theorem runJ_goto_frame {body : State → Res} {pc : Option Word} (hb : body s.opened = goto s.opened pc) (h : runJ i s body = t)
    (ht : t.iss.fate = .issued) : WordFrame s t i :=
  runJ_frame (fun _ hu => let ⟨p, e⟩ := goto_ok (hb.symm.trans hu); ⟨_, p, wordKept_refl, e⟩) h ht

theorem runJ_jumpTo_frame {body : State → Res} {pc : Word} (hb : body s.opened = jumpTo s.opened pc) (h : runJ i s body = t)
    (ht : t.iss.fate = .issued) : WordFrame s t i :=
  runJ_frame (fun _ hu => ⟨_, pc, wordKept_refl, jumpTo_ok (hb.symm.trans hu)⟩) h ht

/-- A call writes G[63], a loop its count (R210, R212). -/
theorem execCall_frame {d : BitVec 24} (h : execCall d s = .next t) (ht : t.iss.fate = .issued) : WordFrame s t (.call d) := by
  refine runJ_frame (fun t hb => ?_) (Host.Outcome.next.inj h) ht
  split at hb
  · exact ⟨_, _, wordKept_wrG _ _, (Res.ok.inj hb).symm⟩
  · cases hb

theorem execLoop_frame {a : RF} {d : BitVec 18} (h : execLoop a d s = .next t) (ht : t.iss.fate = .issued) : WordFrame s t (.loop a d) := by
  refine runJ_frame (fun t hb => ?_) (Host.Outcome.next.inj h) ht
  dsimp only at hb
  split at hb
  · exact ⟨_, _, wordKept_wrG _ _, (Res.ok.inj hb).symm⟩
  · cases hb

/-- A scalar load at a displacement from its base. -/
theorem execLoad_frame {body : State → Res} {base : Word} {d : Int} {f : Word → Res} (hv : isViol i = false)
    (hb : body s.opened = withEA s.opened base d f) (hf : ∀ q u, f q = .ok u → WordKept s.opened u i.destG i.destV i.destP)
    (h : runC i s body = t) (ht : t.iss.fate = .issued) : WordFrame s t i :=
  runC_frame hv (fun _ hu => withEA_kept hf (hb.symm.trans hu)) h ht

theorem execVld_frame {v : BitVec 4} {b : RF} {e : BitVec 12} (h : execVld v b e s = .next t) (ht : t.iss.fate = .issued) :
    WordFrame s t (.vld v b e) := by
  refine runC_frame rfl (fun u hu => ?_) (Host.Outcome.next.inj h) ht
  obtain ⟨q, -, hq⟩ := withEA_ok hu
  refine loadAt_kept (fun bs w hw => ?_) (fun _ => vreg_ne_bank v) hq
  exact Res.ok.inj hw ▸ wordKept_wrV v _

theorem execVldf_frame {v : BitVec 4} {b c : RF} {y : BitVec 3} (h : execVldf v b c y s = .next t) (ht : t.iss.fate = .issued) :
    WordFrame s t (.vldf v b c y) :=
  runC_frame rfl (fun _ hu => loadAt_kept (fun _ _ => formWrite_kept) (fun _ => vreg_ne_bank v) (withForm_ok hu)) (Host.Outcome.next.inj h) ht

/-- A gather is one long operation, with a request where an element lies elsewhere (R244). -/
theorem execVgath_frame {v : BitVec 4} {b : RF} {x : BitVec 4} {y : BitVec 3} (h : execVgath v b x y s = .next t) (ht : t.iss.fate = .issued) :
    WordFrame s t (.vgath v b x y) := by
  refine runC_frame rfl (fun u hu => ?_) (Host.Outcome.next.inj h) ht
  have hread (ks : List Nat) (e : Nat) :
      WordKept s.opened ((s.opened.addRead ks).countCtx s.opened.iss.core s.opened.iss.slot e) [] [v] [] :=
    (wordKept_addRead ks).trans (wordKept_countCtx rfl _ _)
  dsimp only at hu
  split at hu
  · cases hu
  · split at hu
    · cases hu
    · split at hu <;> obtain rfl := Res.ok.inj hu
      · exact ((hread _ _).trans wordKept_freshId).trans (wordKept_addLong_v rfl)
      · exact ((hread _ _).trans (wordKept_send rfl)).trans (wordKept_addLong_v rfl)

theorem kloadBody_kept {a b c : RF} (h : kloadBody a b c s = .ok t) : WordKept s t [a] [] [] := by
  unfold kloadBody at h
  dsimp only at h
  split at h
  · cases h
  · split at h
    · cases h
    · split at h
      · cases h
      · obtain rfl := Res.ok.inj h
        exact (((wordKept_countCtx rfl _ _).trans (wordKept_countCtx rfl _ _)).trans (wordKept_modChunk _)).trans (wordKept_wrG _ _)

theorem execMbrd_frame {a b : RF} (h : execMbrd a b s = .next t) (ht : t.iss.fate = .issued) : WordFrame s t (.mbrd a b) := by
  refine runC_frame rfl (fun u hu => ?_) (Host.Outcome.next.inj h) ht
  dsimp only at hu
  split at hu
  · cases hu
  · split at hu
    · obtain rfl := Res.ok.inj hu
      exact wordKept_wrG _ _
    · split at hu
      · cases hu
      · obtain rfl := Res.ok.inj hu
        have hsent : WordKept s.opened (sendOp s.opened false true (s.opened.res (s.opened.rdG b))
          (.mb .rd (s.opened.res (s.opened.rdG b)) 0) (some (s.opened.rdG b))) [a] [] [] := wordKept_send rfl
        exact hsent.trans (wordKept_addLong (by rw [Core.holds, hsent.holder, hsent.iss]; exact dstG_ne_bank a))

theorem execTgstat_frame {a b : RF} (h : execTgstat a b s = .next t) (ht : t.iss.fate = .issued) : WordFrame s t (.tgstat a b) := by
  refine runC_frame rfl (fun u hu => ?_) (Host.Outcome.next.inj h) ht
  dsimp only at hu
  split at hu
  · cases hu
  · split at hu
    · cases hu
    · obtain rfl := Res.ok.inj hu
      exact wordKept_freshId.trans (wordKept_addLong (dstG_ne_bank a))

/-- The C words of R210, R228 and R237 that stay in their chunk, the waits and the words that leave a trace record apart. -/
def staysInChunk : Instr → Bool
  | .nop | .br .. | .jmp .. | .call .. | .jmpi .. | .ret | .loop .. | .cnt .. | .crr .. | .ld .. | .ldn .. | .ldx .. | .vld .. | .vldf .. |
    .vgath .. | .ipeek .. | .klook .. | .kload .. | .cpwp .. | .mbrd .. | .wfield .. | .tgstat .. => true
  | _ => false

theorem exec_staysInChunk_frame (hp : staysInChunk i = true) (hx : exec i s = .next t) (ht : t.iss.fate = .issued) : WordFrame s t i := by
  have hn {u} (h : exec i s = .next u) : u = t := Host.Outcome.next.inj (h.symm.trans hx)
  cases i
  case nop => exact runC_frame rfl (fun u hu => Res.ok.inj hu ▸ wordKept_refl) (hn rfl) ht
  case br | jmp => exact runJ_goto_frame rfl (hn rfl) ht
  case jmpi | ret => exact runJ_jumpTo_frame rfl (hn rfl) ht
  case call => exact execCall_frame hx ht
  case loop => exact execLoop_frame hx ht
  case cnt | wfield =>
    refine runC_frame rfl (fun u hu => ?_) (hn rfl) ht
    exact Res.ok.inj hu ▸ wordKept_wrG _ _
  case crr a n =>
    refine runC_frame rfl (fun u hu => ?_) (hn rfl) ht
    split at hu
    · cases hu
    · exact Res.ok.inj hu ▸ wordKept_wrG _ _
  case ipeek a =>
    refine runC_frame rfl (fun u hu => ?_) (hn rfl) ht
    dsimp only at hu
    split at hu
    · cases hu
    · exact Res.ok.inj hu ▸ wordKept_wrG _ _
  case cpwp a b =>
    refine runC_frame rfl (fun u hu => ?_) (hn rfl) ht
    split at hu
    · cases hu
    · exact Res.ok.inj hu ▸ wordKept_wrG _ _
  case klook =>
    refine runC_frame rfl (fun u hu => ?_) (hn rfl) ht
    exact Res.ok.inj hu ▸ (wordKept_countCtx rfl _ _).trans (wordKept_wrG _ _)
  case ld | ldn | ldx => exact execLoad_frame rfl rfl (fun _ _ => scalarLoad_kept) (hn rfl) ht
  case vld => exact execVld_frame hx ht
  case vldf => exact execVldf_frame hx ht
  case vgath => exact execVgath_frame hx ht
  case kload => exact runC_frame rfl (fun _ => kloadBody_kept) (hn rfl) ht
  case mbrd => exact execMbrd_frame hx ht
  case tgstat => exact execTgstat_frame hx ht
  all_goals exact absurd hp nofun
end
end

end Sys2Proof.Machine

open Sys2Proof Sys2Proof.Machine

/-- Settles O25: each of these words comes to a state that `WordKept` relates to the one it ran in, and goes on. -/
theorem cWordFrame : Obligations.CWordFrame := by
  intro i s t _ hx ht hi
  have hp : staysInChunk i = true := by
    rcases hi with rfl | ⟨p, n, d, rfl⟩ | ⟨d, rfl⟩ | ⟨d, rfl⟩ | ⟨a, rfl⟩ | rfl | ⟨a, d, rfl⟩ | ⟨a, rfl⟩ | ⟨a, n, rfl⟩ | ⟨w, a, b, e, rfl⟩ |
      ⟨w, a, b, e, rfl⟩ | ⟨a, b, c, w, rfl⟩ | ⟨v, b, e, rfl⟩ | ⟨v, b, c, u, rfl⟩ | ⟨v, b, x, u, rfl⟩ | ⟨a, rfl⟩ | ⟨a, b, rfl⟩ | ⟨a, b, c, rfl⟩ |
      ⟨a, b, rfl⟩ | ⟨a, b, rfl⟩ | ⟨a, n, rfl⟩ | ⟨a, b, rfl⟩ <;> rfl
  obtain ⟨h, hw⟩ := exec_staysInChunk_frame hp hx ht
  exact ⟨fun k => by rw [h.mem], h.others, h.regs, h.special, h.units, h.dies, h.halves, h.engines, h.flags, hw⟩
end
section
/-! O23: the words that read a value of the core (R228, R229, R232, R252, R268, R284, R295, R299, R359, R375), and `kload` (R275). -/

namespace Sys2Proof.Machine

section
variable {a b : RF} {s : State}

/-! ## Words that go on with a value -/

theorem exec_tmark (h : runsC (.tmark a) s) :
    exec (.tmark a) s = .next (s.opened.traceUser s.opened.iss.core s.opened.iss.slot (s.opened.rdG a)).advance := exec_runC_ok rfl h rfl rfl

theorem exec_cnt (h : runsC (.cnt a) s) : exec (.cnt a) s = .next (s.opened.wrG a (s.opened.mine.rot.zeroExtend 64)).advance :=
  exec_runC_ok rfl h rfl rfl

/-- R232: a register of user scope, or any in privileged mode. -/
theorem exec_crr {n : BitVec 12} (h : runsC (.crr a n) s) (hn : n.toNat < 0x800 ∨ s.opened.me.priv = true) :
    exec (.crr a n) s = .next (s.opened.wrG a (crRead s.opened n.toNat)).advance := by
  have hpriv : crPriv s.opened n = none := by
    rcases hn with hn | hn <;> simp [crPriv, hn]
  exact exec_runC_ok rfl h rfl (by rw [hpriv])

theorem exec_klook (h : runsC (.klook a b) s) : exec (.klook a b) s =
    .next (let l := s.opened.mine.km.lookup (keyOf (s.opened.rdG b))
      (s.opened.countLook l.1).wrG a (kStatus l.1 l.2)).advance := exec_runC_ok rfl h rfl rfl

theorem exec_cpwp (h : runsC (.cpwp a b) s) (hb : (s.opened.rdG b).toNat < 2) :
    exec (.cpwp a b) s = .next (s.opened.wrG a (s.opened.mine.ch (s.opened.rdG b).toNat).wp).advance :=
  exec_runC_ok rfl h rfl (by simp only [chanOf, if_pos hb])

/-- R299: a counter of the issuing core. -/
theorem exec_mbrd_own (h : runsC (.mbrd a b) s) (hm : mbOk (s.opened.rdG b) = true) (ho : s.opened.ownSp (s.opened.res (s.opened.rdG b)) = true) :
    exec (.mbrd a b) s = .next (s.opened.wrG a ((vget s.opened.mine.mbox (mbIdx (s.opened.rdG b)) 0).zeroExtend 64)).advance := by
  have hc : mbCheck s.opened (s.opened.rdG b) false = none := by
    rw [mbCheck, hm]
    rfl
  refine exec_runC_ok rfl h rfl ?_
  simp only [hc, ho, if_true]
  rfl

theorem exec_wfield {f : BitVec 6} (h : runsC (.wfield a f) s) :
    exec (.wfield a f) s = .next (s.opened.wrG a (widField s.opened.me.a.wid s.opened.me.a.widf f.toNat)).advance := exec_runC_ok rfl h rfl rfl

/-- R284: index 0 names the issuing core's ring 0 while it is unbound. -/
theorem exec_rstat_unbound (h : runsC (.rstat a b) s) (hi : objIdx (s.opened.rdG b) = 0) (hr : (s.mine.ring 0).obj = none) :
    exec (.rstat a b) s = .next (s.opened.wrG a ((s.opened.mine.ring 0).stat ((s.opened.rdG b).extractLsb' 16 2).toNat)).advance := by
  have hsel (y : BitVec 2) : (y.setWidth 64 : Word).extractLsb' 0 2 = y := by
    revert y; decide
  rw [State.opened_rdG] at hi ⊢
  refine exec_runC_ok (if_pos ?_) h rfl ?_
  · simp [hi, hr]
  · rw [hsel]

/-- R375: the word is read at issue, and its reply comes back to a long operation (log 11). -/
theorem exec_tgstat (h : runsC (.tgstat a b) s) (hr : tgstatRsv (s.opened.rdG b) = false) (hl : s.opened.canLong = true) :
    exec (.tgstat a b) s = .next (s.opened.freshId.addLong { s.opened.newLong s.opened.nextId (s.opened.dstG a) .word with
      val := some (tgstatWord s.opened (s.opened.rdG b)) }).advance :=
  exec_runC_ok rfl h rfl (by simp only [hr, hl]; rfl)

/-! ## `ipeek` -/

/-- The number of entries in the issuing core's inbox (R252). -/
def inboxUsed (s : State) : Nat := ((s.mine.ring 0).w - (s.mine.ring 0).c).toNat

theorem exec_ipeek_empty (h : runsC (.ipeek a) s) (hu : inboxUsed s.opened = 0) : exec (.ipeek a) s = .next (s.opened.wrG a 0).advance := by
  unfold inboxUsed at hu
  exact exec_runC_ok rfl h rfl (by simp only [hu, if_true])

theorem exec_ipeek_entry (h : runsC (.ipeek a) s) (hu : inboxUsed s.opened ≠ 0) (hl : entryLocked s.opened 4 = none) :
    exec (.ipeek a) s = .next (s.opened.wrG a (BitVec.ofNat 64
      (memNat s.opened.mem (spKey s.opened.iss.core ((s.opened.mine.ring 0).slotOff (s.opened.mine.ring 0).c)) 4 * 2 ^ 32 +
        inboxUsed s.opened))).advance := by
  unfold inboxUsed at hu ⊢
  exact exec_runC_ok rfl h rfl (by simp only [hu, hl, if_false])

theorem exec_ipeek_locked {t : Trap} (h : runsC (.ipeek a) s) (hu : inboxUsed s.opened ≠ 0) (hl : entryLocked s.opened 4 = some t) :
    exec (.ipeek a) s = .next (raise s.opened t) := by
  unfold inboxUsed at hu
  exact congrArg Host.Outcome.next (runC_trap h (by simp only [hu, hl, if_false]))
end

/-! ## `kload` -/

section
variable (a b c : RF) (s : State)

/-- Where the 8 bytes that `kload` reads lie in the issuer's scratchpad, and the pointer to them (R275). -/
def kloadAt : Nat := s.mine.km.slotOff (s.mine.km.lookup (keyOf (s.rdG b))).2 + (s.rdG c).toNat
def kloadPtr : Word := (0 : BitVec 10) ++ (0x3FF : BitVec 10) ++ (0xFFF : BitVec 12) ++ BitVec.ofNat 32 (kloadAt b c s % 2 ^ 18)
def kloadKeys : List Nat := (List.range 8).map fun i => spKey s.iss.core (kloadAt b c s + i)

/-- The state of a hit before its register is written: the look and the load are counted, and the lines read. -/
def kloadRead : State :=
  ((s.countLook stHIT).countCtx s.iss.core s.iss.slot 10).modChunk fun ch => { ch with rsig := ch.rsig ++ linesOf (kloadKeys b c s) }

variable {a b c s}

/-- R275: where an offset lies outside its slot. -/
theorem kloadBad_iff {m : KeyMap} {o : Nat} :
    kloadBad m o = true ↔ m.sizelog = 0 ∨ o % 8 ≠ 0 ∨ 2 ^ m.sizelog.toNat < o + 8 := by
  rw [kloadBad, Bool.or_eq_true, Bool.or_eq_true, decide_eq_true_eq, decide_eq_true_eq, decide_eq_true_eq, or_assoc]

theorem kloadBody_bad (h : s.mine.km.sizelog = 0 ∨ (s.rdG c).toNat % 8 ≠ 0 ∨ 2 ^ s.mine.km.sizelog.toNat < (s.rdG c).toNat + 8) :
    kloadBody a b c s = .trap (s.tAddr (s.rdG c)) := by
  simp only [kloadBody, kloadBad_iff.mpr h, if_true]

section
variable (h0 : s.mine.km.sizelog ≠ 0) (h8 : (s.rdG c).toNat % 8 = 0) (hle : (s.rdG c).toNat + 8 ≤ 2 ^ s.mine.km.sizelog.toNat)
include h0 h8 hle

theorem kloadBad_false : kloadBad s.mine.km (s.rdG c).toNat = false := by
  rw [Bool.eq_false_iff, ne_eq, kloadBad_iff]
  rintro (h | h | h)
  · exact h0 h
  · exact h h8
  · exact absurd h (not_lt.mpr hle)

theorem kloadBody_miss (hm : (s.mine.km.lookup (keyOf (s.rdG b))).1 ≠ stHIT) : kloadBody a b c s =
    .fault (s.countLook (s.mine.km.lookup (keyOf (s.rdG b))).1)
      (keyMiss s a (s.rdG b) (s.mine.km.lookup (keyOf (s.rdG b))).1 (s.mine.km.lookup (keyOf (s.rdG b))).2) := by
  simp only [kloadBody, kloadBad_false h0 h8 hle, Bool.false_eq_true, if_false, if_pos hm]

variable (hh : (s.mine.km.lookup (keyOf (s.rdG b))).1 = stHIT)
include hh

theorem kloadBody_hit : kloadBody a b c s = match (s.check (kloadPtr b c s) 8 0 8).or (s.watch (kloadPtr b c s) 8 0) with
    | some t => .fault (s.countLook stHIT) t
    | none => .ok ((kloadRead b c s).wrG a (BitVec.ofNat 64 (leBytes (s.readOwn (kloadKeys b c s)) 0 8))) := by
  simp only [kloadBody, kloadBad_false h0 h8 hle, Bool.false_eq_true, if_false, hh, ne_eq, not_true]
  rfl
end
end

/-- A write of a general register reads back, but for g0 (R39). -/
theorem nowG_wrG_same {s : State} {r : RF} (x : Word) (hs : s.iss.slot.toNat < 11) (hr : r ≠ 0) : (s.wrG r x).nowG r = x := by
  have hr0 : r.toNat ≠ 0 := fun e => hr (BitVec.eq_of_toNat_eq e)
  have hlt : r.toNat < 64 := r.isLt
  have hsh : (s.wrG r x).isShadow r = s.isShadow r :=
    State.isShadow_of_eq (State.wrG_iss s r x) (kept_wrG (vs := []) (ps := []) r x).holder r
  unfold State.nowG
  rw [hsh]
  unfold State.wrG
  split
  · next h =>
    rw [State.mine_modMine, vget_vset_same _ _ _ _ (by omega)]
  · rw [State.me_modMe s _ hs]
    exact Arch.rdG_wrG_same _ _ _ hr0 hlt

theorem wordKept_kloadRead {b c : RF} {s : State} : WordKept s (kloadRead b c s) [] [] [] :=
  ((wordKept_countCtx rfl _ _).trans (wordKept_countCtx rfl _ _)).trans (wordKept_modChunk _)

/-- What `kload` comes to on a hit that passes its checks. -/
theorem exec_kload_hit {a b c : RF} {s : State} (h : runsC (.kload a b c) s) {v : Word}
    (hb : kloadBody a b c s.opened = .ok ((kloadRead b c s.opened).wrG a v)) : ∃ u : State, exec (.kload a b c) s = .next u.advance ∧
      (∀ r, r ≠ a → u.nowG r = s.opened.nowG r) ∧ u.mem = s.opened.mem ∧ (s.opened.iss.slot.toNat < 11 → a ≠ 0 → u.nowG a = v) := by
  have hread := wordKept_kloadRead (b := b) (c := c) (s := s.opened)
  have hwr : WordKept (kloadRead b c s.opened) ((kloadRead b c s.opened).wrG a v) [a] [] [] := wordKept_wrG a v
  refine ⟨_, exec_runC_ok rfl h rfl hb, fun r hr => ?_, hwr.mem.trans hread.mem, fun hs ha => nowG_wrG_same v hs ha⟩
  exact (hwr.regs.1 r (by simpa using hr)).trans (hread.regs.1 r List.not_mem_nil)

end Sys2Proof.Machine

open Sys2Proof Sys2Proof.Machine

/-- Settles O23: each word goes on with its value, and `kload` is `kloadBody`. -/
theorem readWordResults : Obligations.ReadWordResults := by
  refine ⟨fun a b n f s => ?_, fun a b c s => ?_⟩
  · intro o k x
    exact ⟨exec_tmark, exec_cnt, exec_crr, fun h => ⟨exec_ipeek_empty h, exec_ipeek_entry h, fun t => exec_ipeek_locked h⟩, exec_klook,
      exec_cpwp, exec_mbrd_own, exec_wfield, exec_rstat_unbound, exec_tgstat⟩
  · intro o m off l at_ q h
    refine ⟨fun hbad => congrArg Host.Outcome.next (runC_trap h (kloadBody_bad hbad)), fun h0 h8 hle => ⟨fun hm => ?_, fun t hh hc hf => ?_,
      fun hh hc hw => ?_⟩⟩
    · intro t
      have hb : kloadBody a b c o = .fault (o.countLook l.1) t := kloadBody_miss h0 h8 hle hm
      exact ⟨fun hf => congrArg Host.Outcome.next (runC_fault _ h hb hf), fun hf => congrArg Host.Outcome.next (runC_fault_held _ h hb hf)⟩
    · have hb : kloadBody a b c o = .fault (o.countLook stHIT) t := by
        rw [kloadBody_hit h0 h8 hle hh, show o.check (kloadPtr b c o) 8 0 8 = some t from hc]
        rfl
      exact congrArg Host.Outcome.next (runC_fault _ h hb hf)
    · refine exec_kload_hit h ?_
      rw [kloadBody_hit h0 h8 hle hh, show o.check (kloadPtr b c o) 8 0 8 = none from hc, show o.watch (kloadPtr b c o) 8 0 = none from hw]
      rfl
end
section
/-! O41: helper control (R216-R221, R188, R189). -/

namespace Sys2Proof.Machine

section
variable {i : Instr} {s m : State} {a b : RF}

/-! ## `hstart` -/

/-- The request that `hstart` leaves for the next boundary (R216). -/
def startRequest (b : RF) (m : State) : HStart := { id := m.nextId, pc := m.rdG b, w1 := m.rdG (grp b 1), w2 := m.rdG (grp b 2) }

/-- R216: its handle is long; the request stands behind those that wait. -/
def hstartOp (a b : RF) (m : State) : State :=
  (m.freshId.addLong { m.newLong m.nextId (m.dstG a) .word with inChunk := false }).modMine fun k =>
    { k with sched := { k.sched with hstart := k.sched.hstart ++ [startRequest b m] } }

theorem addLong_sched (l : LongOp) : (m.addLong l).mine.sched = m.mine.sched := by
  rw [State.addLong, State.mine_modMine, State.modMe_mine]
  rfl

theorem hstartOp_hstart : (hstartOp a b m).mine.sched.hstart = m.mine.sched.hstart ++ [startRequest b m] := by
  rw [hstartOp, State.mine_modMine, addLong_sched]
  rfl

theorem exec_hstart (h : endsAt (.hstart a b) s) (hf : s.opened.fetchOk (s.opened.rdG b) = true) (hl : mayLong s) :
    exec (.hstart a b) s = .next (hstartOp a b (s.committed (.hstart a b))).advance :=
  congrArg Host.Outcome.next (runE_ends _ h (if_pos hf) (unheld_holdLong hl))

/-! ## `hend` -/

/-- Before its commit a chunk-ending word that `hold` keeps back does not issue. -/
theorem endFrame_held {next : Bool} {chk : State → Option Trap} {hold : State → Option Bool} (op : State → State → State)
    (he : s.opened.early i = none) (hn : next = true → s.nextPc ≠ none) (hc : chk s.opened = none) (ho : s.opened.me.nearOut = false)
    (hh : hold s.opened = some false) : endFrame i s next chk hold op = holdTurn s.opened := by
  have hnext : (next && s.opened.nextPc.isNone) = false := by
    cases next with
    | false => rfl
    | true => simpa [Option.isSome_iff_ne_none] using hn rfl
  simp only [State.opened] at he hc ho hh hnext ⊢
  simp only [endFrame, he, hc, ho, hh, hnext, Bool.false_eq_true, if_false]
  rfl

/-- The commit of a word that records no violation leaves what its chunk's commit leaves (R416). -/
theorem committed_eq_commitChunk (hv : isViol i = false) : s.committed i = (commitChunk s.opened s.iss.core s.iss.slot).1 := by
  simp [State.committed, hv]

theorem exec_hend_held (he : s.opened.early .hend = none) (ho : s.opened.me.nearOut = false) (hb : s.opened.behind = true) :
    exec .hend s = .next (holdTurn s.opened) := by
  have hh : holdRelease s.opened = some false := by rw [holdRelease, hb]; rfl
  exact congrArg Host.Outcome.next (endFrame_held (next := false) (chk := fun _ => none) _ he nofun rfl ho hh)

theorem exec_hend (he : s.opened.early .hend = none) (hm : mayCommit s) (hr : released s) : exec .hend s = .next (retire (s.committed .hend)) :=
  congrArg Host.Outcome.next (runR_eq _ _ he nofun rfl hm (unheld_holdRelease hr))

/-- R188: where the commit has sent operations that the retirement must follow, it stays with the context. -/
theorem exec_hend_deferred (he : s.opened.early .hend = none) (hm : mayCommit s) (hb : s.opened.behind = false)
    (hc : (s.committed .hend).behind = true) : exec .hend s = .next ((s.committed .hend).modMe fun x =>
      { x with rel := some { i := .hend, iss := (s.committed .hend).iss, e := Vector.replicate 8 0, sbit := false } }) := by
  have hh : holdRelease s.opened = none := by rw [holdRelease, hb]; rfl
  have hheld : holdRelease (commitChunk s.opened s.iss.core s.iss.slot).1 = some false := by
    rw [← committed_eq_commitChunk (i := .hend) rfl, holdRelease, hc]
    rfl
  have hrun := endFrame_eq (next := false) (chk := fun _ => none)
    (fun u => orDefer .hend (holdRelease u) (Vector.replicate 8 0) retire) he nofun rfl hm hh
  rw [hheld] at hrun
  exact congrArg Host.Outcome.next hrun

/-! ## `hload`, `hresume` and `hsave`: the helper slot that G[a] names -/

section
variable (h1 : 1 ≤ (s.opened.rdG a).toNat) (h2 : (s.opened.rdG a).toNat ≤ 10)
include h1 h2

theorem exec_hload (h : endsAt (.hload a b) s) (hst : (s.opened.mine.ctx (BitVec.ofNat 4 (s.opened.rdG a).toNat)).st = .upcall)
    (hrec : (s.opened.mine.ctx (BitVec.ofNat 4 (s.opened.rdG a).toNat)).recorded = true)
    (hrep : (s.opened.mine.ctx (BitVec.ofNat 4 (s.opened.rdG a).toNat)).replay = []) (hc : imageCheck s.opened (s.opened.rdG b) 0 = none)
    (hi : imageRefused s.opened (imageAt s.opened (s.opened.rdG b)) = none) (hw : imageWatch s.opened (s.opened.rdG b) 0 = none)
    (hm : (s.committed (.hload a b)).rdG a = s.opened.rdG a) : exec (.hload a b) s = .next (let m := s.committed (.hload a b)
      m.modCtx m.iss.core (BitVec.ofNat 4 (s.opened.rdG a).toNat) fun x => loadImage x (imageAt m (m.rdG b))).advance := by
  rw [← helper_eq h1 h2] at hst hrec hrep
  refine congrArg Host.Outcome.next ((runE_ends _ h ?_ (unheld_noHold s)).trans ?_)
  · simp only [hst, hrec, hrep, hc, hi, hw]
    rfl
  · simp only [hm, helperSlot_eq h1 h2]

theorem exec_hresume (h : endsAt (.hresume a) s) (hst : (s.opened.mine.ctx (BitVec.ofNat 4 (s.opened.rdG a).toNat)).st = .upcall ∨
      (s.opened.mine.ctx (BitVec.ofNat 4 (s.opened.rdG a).toNat)).st = .hupcall)
    (hrec : (s.opened.mine.ctx (BitVec.ofNat 4 (s.opened.rdG a).toNat)).recorded = true)
    (hf : s.opened.fetchOk (s.opened.mine.ctx (BitVec.ofNat 4 (s.opened.rdG a).toNat)).a.pc = true)
    (hm : (s.committed (.hresume a)).rdG a = s.opened.rdG a) : exec (.hresume a) s = .next (let m := s.committed (.hresume a)
      m.modCtx m.iss.core (BitVec.ofNat 4 (s.opened.rdG a).toNat) resumeCtx).advance := by
  rw [← helper_eq h1 h2] at hst hrec hf
  have hup : ((s.opened.helper (s.opened.rdG a)).st == .upcall || (s.opened.helper (s.opened.rdG a)).st == .hupcall) = true := by
    rw [Bool.or_eq_true, beq_iff_eq, beq_iff_eq]
    exact hst
  refine congrArg Host.Outcome.next ((runE_ends _ h ?_ (unheld_noHold s)).trans ?_)
  · simp only [hup, hrec, hf]
    rfl
  · simp only [hm, helperSlot_eq h1 h2]

theorem exec_hsave (h : endsAt (.hsave a b) s) (hst : (s.opened.mine.ctx (BitVec.ofNat 4 (s.opened.rdG a).toNat)).st = .upcall)
    (hrep : (s.opened.mine.ctx (BitVec.ofNat 4 (s.opened.rdG a).toNat)).replay = []) (hc : imageCheck s.opened (s.opened.rdG b) 1 = none)
    (hw : imageWatch s.opened (s.opened.rdG b) 1 = none) : exec (.hsave a b) s = .next (let m := s.committed (.hsave a b)
      beginWait m (m.newWait (.hsave a b) [m.rdG a, m.rdG b] none) doneHsave) := by
  rw [← helper_eq h1 h2] at hst hrep
  refine congrArg Host.Outcome.next (runEW_ends _ _ h ?_)
  simp only [hst, hrep, hc, hw]
  rfl
end

/-- R60, R219: the image is written once the slot's long operations have returned and no token holder meets the write. -/
theorem doneHsave_eq {x y : Word} (h1 : 1 ≤ x.toNat) (h2 : x.toNat ≤ 10) (hst : (m.mine.ctx (BitVec.ofNat 4 x.toNat)).st = .upcall) :
    doneHsave m (m.newWait (.hsave a b) [x, y] none) =
      if m.mine.longOf (BitVec.ofNat 4 x.toNat) = 0 ∧ m.writeHeld (spKey m.iss.core (pOff y)) 2048 = false
      then some (writeSquash m (spKey m.iss.core (pOff y)) (imageBytes (m.mine.ctx (BitVec.ofNat 4 x.toNat)))) else none := by
  have hup : (m.mine.ctx (BitVec.ofNat 4 x.toNat)).inUpcall = true := by
    rw [Ctx.inUpcall, hst]
    rfl
  have hheld : (m.mine.longOf (BitVec.ofNat 4 x.toNat) != 0 || m.writeHeld (spKey m.iss.core (pOff y)) 2048) = true ↔
      ¬(m.mine.longOf (BitVec.ofNat 4 x.toNat) = 0 ∧ m.writeHeld (spKey m.iss.core (pOff y)) 2048 = false) := by
    rw [Bool.or_eq_true, bne_iff_ne, not_and_or, Bool.not_eq_false]
  simp only [doneHsave, State.newWait, List.headD_cons, List.getD_cons_succ, List.getD_cons_zero, hup, helperSlot_eq h1 h2, Option.getD_some,
    hheld, Bool.not_true, Bool.false_eq_true, if_false, ite_not, helper_eq h1 h2]
end

end Sys2Proof.Machine

open Sys2Proof Sys2Proof.Machine

/-- Settles O41: each word by what it does in the state that its commit leaves. -/
theorem helperWordResults : Obligations.HelperWordResults := by
  intro a b s o
  refine ⟨?_, ?_, ?_, ?_, ?_⟩
  · intro i m h hf hl
    exact ⟨_, startRequest b m, exec_hstart h hf hl, hstartOp_hstart, rfl, rfl, rfl, rfl, rfl⟩
  · intro he hm m
    exact ⟨exec_hend he hm, exec_hend_held he, exec_hend_deferred he hm⟩
  · intro i m n h h1 h2 hst hrec hrep hc hi hw hm
    exact exec_hload h1 h2 h hst hrec hrep hc hi hw hm
  · intro i m n h h1 h2 hst hrec hf hm
    exact exec_hresume h1 h2 h hst hrec hf hm
  · intro i m n h h1 h2 hst hrep hc hw hm hmst k now
    have hx := exec_hsave h1 h2 h hst hrep hc hw
    have hd : doneHsave m (m.newWait i [m.rdG a, m.rdG b] none) =
        if now then some (writeSquash m k (imageBytes (m.mine.ctx n))) else none := by
      refine (doneHsave_eq (by rwa [hm]) (by rwa [hm]) (by rw [hm]; exact hmst)).trans ?_
      rw [hm]
    exact ⟨fun hnow => hx.trans (congrArg _ (beginWait_done (by rw [hd, if_pos hnow]))),
      fun hnow => hx.trans (congrArg _ (beginWait_park (by rw [hd, if_neg hnow])))⟩
end

section
/-! O17: loads from the issuer's own scratchpad (R237-R239): the register is written at once. -/

namespace Sys2Proof.Machine

/-! ## The bytes of an access of the own scratchpad -/

/-- The keys of n bytes of the issuer's own scratchpad at a pointer. -/
def State.ownKeys (s : State) (q : Word) (n : Nat) : List Nat := (List.range n).map fun i => spKey s.iss.core (pOff (s.res q) + i)

section
variable {s : State} {q : Word}

theorem ownSp_iff {r : Word} : s.ownSp r = true ↔ pSpc r = 0 ∧ pDev r = s.devId ∧ pCore r = s.iss.core := by
  simp [State.ownSp, isSp, and_assoc]

theorem byteKeys_own (h : s.ownSp (s.res q) = true) (n : Nat) : s.byteKeys (s.res q) n = s.ownKeys q n := by
  obtain ⟨hspc, hdev, hcore⟩ := ownSp_iff.mp h
  have hdie : s.dieSp (s.res q) = true := by simp [State.dieSp, hspc, hdev, hcore]
  exact List.map_congr_left fun i _ => by simp only [State.byteKey, hdie, if_true, hcore]

/-! ## A load from it -/

variable {n align : Nat} {dst : Dst} {conv : Conv} {wr : State → List Byte → Res} {u : State}

/-- What such a load leaves besides its register: the lines read (R162) and its count. -/
def State.loaded (s u : State) (q : Word) (n : Nat) : State := (u.addRead (s.ownKeys q n)).countCtx s.iss.core s.iss.slot 10

/-- R237: a load from the own scratchpad that passes its checks writes at once. -/
theorem loadAt_own (hown : s.ownSp (s.res q) = true) (hc : s.check q n 0 align = none) (hw : s.watch q n 0 = none)
    (hwr : wr s (s.readOwn (s.ownKeys q n)) = .ok u) : loadAt s q n align dst conv wr = .ok (s.loaded u q n) := by
  simp only [loadAt, hc, hown, if_true, byteKeys_own hown, hwr, watched, hw]
  rfl
end

/-! ## The value -/

theorem ofNat_patOf (x : Int) : BitVec.ofNat 64 (patOf 64 x) = BitVec.ofInt 64 x := by
  rw [← BitVec.ofInt_natCast, patOf, Int.toNat_of_nonneg (Int.emod_nonneg x (by decide))]
  exact BitVec.eq_of_toInt_eq (by simp only [BitVec.toInt_ofInt, Int.emod_bmod])

/-- R237: a load without zero extension writes its bytes as a signed number. -/
theorem putScalar_sx (a : RF) (n : Nat) (s : State) (bs : List Byte) :
    putScalar a (.sx n) s bs = .ok (s.wrG a (BitVec.ofInt 64 (toSigned (8 * n) (leBytes bs 0 n)))) := by
  rw [← ofNat_patOf]
  rfl

/-! ## The words -/

section
variable {i : Instr} {s : State} {body : State → Res} {q : Word} {n : Nat}

/-- A load passes its checks and comes from the own scratchpad. -/
def State.loadsOwn (s : State) (q : Word) (n : Nat) : Prop := s.ownSp (s.res q) = true ∧ s.check q n 0 n = none ∧ s.watch q n 0 = none

variable (hx : exec i s = .next (runC i s body)) (h : runsC i s) (hv : isViol i = false) (hok : s.opened.loadsOwn q n)
include hx h hv hok

/-- A word whose effect is a load from the own scratchpad. -/
theorem exec_loadAt_own {dst : Dst} {conv : Conv} {wr : State → List Byte → Res} {u : State}
    (hb : body s.opened = loadAt s.opened q n n dst conv wr) (hwr : wr s.opened (s.opened.readOwn (s.opened.ownKeys q n)) = .ok u) :
    exec i s = .next (s.opened.loaded u q n).advance := by
  obtain ⟨hown, hc, hw⟩ := hok
  exact exec_runC_ok hx h hv (hb.trans (loadAt_own hown hc hw hwr))

variable {a : RF}

theorem exec_scalarLoad_own_sx (hb : body s.opened = scalarLoad s.opened a q n false) : exec i s = .next (s.opened.loaded
    (s.opened.wrG a (BitVec.ofInt 64 (toSigned (8 * n) (leBytes (s.opened.readOwn (s.opened.ownKeys q n)) 0 n)))) q n).advance :=
  exec_loadAt_own hx h hv hok (hb.trans (scalarLoad_sx ..)) (putScalar_sx ..)

theorem exec_scalarLoad_own_zx (hb : body s.opened = scalarLoad s.opened a q n true) : exec i s = .next (s.opened.loaded
    (s.opened.wrG a (BitVec.ofNat 64 (leBytes (s.opened.readOwn (s.opened.ownKeys q n)) 0 n))) q n).advance :=
  exec_loadAt_own hx h hv hok (hb.trans (scalarLoad_zx ..)) rfl
end

section
variable {a b c : RF} {w : BitVec 2} {s : State} {q : Word}

/-- R238: the width and the extension of `ldx` by its code. -/
theorem ldx_body_sx (h : moveOff (s.rdG b) (s.rdG c).toInt = some q) :
    (withEA s (s.rdG b) (s.rdG c).toInt fun q => scalarLoad s a q (widthOf ((w.setWidth 3).toNat % 4)) (4 ≤ (w.setWidth 3).toNat)) =
      scalarLoad s a q (2 ^ w.toNat) false := by
  obtain ⟨⟨hcode, hsx⟩, -⟩ := ldx_width w
  rw [withEA_some h, hcode, decide_eq_false hsx]
  rfl

theorem ldx_body_zx (h : moveOff (s.rdG b) (s.rdG c).toInt = some q) :
    (withEA s (s.rdG b) (s.rdG c).toInt fun q => scalarLoad s a q (widthOf ((w.setWidth 3 + 4).toNat % 4)) (4 ≤ (w.setWidth 3 + 4).toNat)) =
      scalarLoad s a q (2 ^ w.toNat) true := by
  obtain ⟨-, hcode, hzx⟩ := ldx_width w
  rw [withEA_some h, hcode, decide_eq_true hzx]
  rfl
end

end Sys2Proof.Machine

open Sys2Proof Sys2Proof.Machine

/-- Settles O17: each word is a load at its address, whose bytes come at once from the own scratchpad. -/
theorem ownLoadResults : Obligations.OwnLoadResults := by
  intro a b c v w e s q o bytes done ok n
  refine ⟨fun hq hok => ⟨fun h => ?_, fun h => ?_⟩, fun hq hok => ⟨fun h => ?_, fun h => ?_⟩, fun hq hok h => ?_⟩
  · exact exec_scalarLoad_own_sx rfl h rfl hok (withEA_some hq)
  · exact exec_scalarLoad_own_zx rfl h rfl hok (withEA_some hq)
  · exact exec_scalarLoad_own_sx rfl h rfl hok (ldx_body_sx hq)
  · exact exec_scalarLoad_own_zx rfl h rfl hok (ldx_body_zx hq)
  · exact exec_loadAt_own rfl h rfl hok (withEA_some hq) rfl
end

section
/-! O21: the formatted vector words on the issuer's own scratchpad (R240-R243). -/

namespace Sys2Proof.Machine

/-! ## Access checks that pass -/

section
variable {s : State} {p : Word} {n kind align : Nat}

/-- A check that passes refuses neither the address, nor the rights, nor a lock. -/
theorem check_passes (h : s.check p n kind align = none) :
    addrBad p n align = false ∧ s.checkProt p n kind = none ∧ s.checkLock p n kind = none ∧ s.checkPage p n kind = none := by
  cases hbad : addrBad p n align with
  | true => rw [check_of_addrBad hbad] at h; cases h
  | false =>
    rw [check_of_addrOk hbad, Option.or_eq_none_iff, Option.or_eq_none_iff] at h
    exact ⟨rfl, h⟩
end

/-! ## The words -/

section
variable {v : BitVec 4} {p : Word} {n nb : Nat} {t : BitVec 3} {s : State}

theorem withForm_eq (h : formSize s p n t = .ok nb) (f : Nat → Res) : withForm s p n t f = f nb := by simp only [withForm, h]

/-- R241: the lanes that decoded bytes give. -/
def formLanes (p : Word) (n : Nat) (t : BitVec 3) (bs : List Byte) : VReg := BitVec.ofNat 512 (convVal (.vform (pFmt p) (pBlg p) n t) bs 0)

theorem formWrite_eq {bs : List Byte} (h : zpAnyBad (pFmt p) (pBlg p) n bs = false) :
    formWrite v p n t s bs = .ok (s.wrV v (formLanes p n t bs)) := by
  simp only [formWrite, h]
  rfl
end

/-- A formatted access of nb bytes of the own scratchpad has its size and passes the checks of a load and of a store (R240, R243). -/
structure FormOwn (s : State) (p : Word) (n : Nat) (t : BitVec 3) (nb : Nat) : Prop where
  size : formSize s p n t = .ok nb
  pos : 0 < nb
  own : s.ownSp (s.res p) = true
  zeroPoints : zpAnyBad (pFmt p) (pBlg p) n (s.readOwn (s.ownKeys p nb)) = false
  loadCheck : s.check p nb 0 1 = none
  storeCheck : s.check p nb 1 1 = none
  loadWatch : s.watch p nb 0 = none
  storeWatch : s.watch p nb 1 = none

/-- The state after the load of a formatted vector from the own scratchpad (R241). -/
def State.formLoaded (s : State) (v : BitVec 4) (p : Word) (n : Nat) (t : BitVec 3) (nb : Nat) : State :=
  s.loaded (s.wrV v (formLanes p n t (s.readOwn (s.ownKeys p nb)))) p nb

section
variable {v : BitVec 4} {b c : RF} {m t : BitVec 3} {s : State} {nb : Nat}

variable (hf : FormOwn s.opened (s.opened.rdG b) (s.opened.rdG c).toNat t nb)
include hf

/-- R241. -/
theorem exec_vldf_own (h : runsC (.vldf v b c t) s) :
    exec (.vldf v b c t) s = .next (s.opened.formLoaded v (s.opened.rdG b) (s.opened.rdG c).toNat t nb).advance :=
  exec_runC_ok rfl h rfl ((withForm_eq hf.size _).trans (loadAt_own hf.own hf.loadCheck hf.loadWatch (formWrite_eq hf.zeroPoints)))

/-- R242: the elements enter the store buffer, and their flags FP.FLAGS. -/
theorem exec_vstf_own {r : List Byte × BitVec 6} (h : runsC (.vstf v b c m t) s)
    (he : encodeElems (pFmt (s.opened.rdG b)) (pBlg (s.opened.rdG b)) m.toNat false
      ((List.range (s.opened.rdG c).toNat).map fun k => laneNum t (laneOf t (s.opened.rdV v) k)) = r)
    (hr : s.opened.me.hasRoom [s.opened.storeRec (s.opened.rdG b) r.1] = true) :
    exec (.vstf v b c m t) s = .next ((((s.opened.touchOwn (s.opened.res (s.opened.rdG b)) nb 1).buffer
      [s.opened.storeRec (s.opened.rdG b) r.1]).orFlags r.2).markViol (.vstf v b c m t)).advance := by
  refine congrArg Host.Outcome.next (runC_ok h ((withForm_eq hf.size _).trans ?_))
  simp only [he, storeAt_buffers hf.storeCheck hf.storeWatch hf.pos.ne' hr]

/-- R243: the load, and the zeros that enter the store buffer. -/
theorem exec_vldt_own (h : runsC (.vldt v b c t) s)
    (hr : s.opened.me.hasRoom [s.opened.storeRec (s.opened.rdG b) (List.replicate nb 0)] = true) :
    exec (.vldt v b c t) s = .next (((s.opened.formLoaded v (s.opened.rdG b) (s.opened.rdG c).toNat t nb).buffer
      [s.opened.storeRec (s.opened.rdG b) (List.replicate nb 0)]).markViol (.vldt v b c t)).advance := by
  obtain ⟨hbad, hprot0, hlock0, -⟩ := check_passes hf.loadCheck
  obtain ⟨-, hprot1, hlock1, -⟩ := check_passes hf.storeCheck
  refine congrArg Host.Outcome.next (runC_ok h ((withForm_eq hf.size _).trans ?_))
  simp only [hbad, hf.own, Bool.not_true, Bool.or_self, Bool.false_eq_true, if_false, hprot0, hprot1, hlock0, hlock1, firstTrap, Option.or_none,
    byteKeys_own hf.own, formWrite_eq hf.zeroPoints, hf.loadWatch, hf.storeWatch, hf.pos.ne', hr]
  rfl
end

end Sys2Proof.Machine

open Sys2Proof Sys2Proof.Machine

/-- Settles O21: each word has its size and passes its checks, and does what its own rule says. -/
theorem formattedResults : Obligations.FormattedResults := by
  intro v b c m t s nb o p n ks bs val r zero hsize hpos hown hz hc0 hc1 hw0 hw1
  have hkeys : ks = o.ownKeys p nb := byteKeys_own hown nb
  have hf : FormOwn o p n t nb := ⟨hsize, hpos, hown, hkeys ▸ hz, hc0, hc1, hw0, hw1⟩
  have hload : ((o.wrV v val).addRead ks).countCtx o.iss.core o.iss.slot 10 = o.formLoaded v p n t nb := by
    simp only [val, bs, hkeys]
    rfl
  rw [hload]
  exact ⟨exec_vldf_own hf, fun hr h => exec_vstf_own hf h rfl hr, fun hr h => exec_vldt_own hf h hr⟩
end

section
/-! O22: `vgath` and `vscat` are long, and come 24 cycles later where every element lies in the own scratchpad (R244). -/

namespace Sys2Proof.Machine

/-! ## What the two words start -/

section
variable (s : State) (v : BitVec 4) (b : RF) (x : BitVec 4) (t : BitVec 3)

/-- The addresses of the sixteen elements, and their resolved pointers. -/
def State.elems : List Word := (elemPtrs (s.rdG b) (s.rdV x) (laneBits t / 8)).filterMap id
def State.elemRes : List Word := (s.elems b x t).map s.res

/-- The keys of the elements' bytes, and those of the near ones (R160, R162). -/
def State.elemKeys : List Nat := ((s.elemRes b x t).map fun r => s.byteKeys r (laneBits t / 8)).flatten
def State.elemNearKeys : List Nat :=
  (((s.elemRes b x t).filter fun r => s.nearLoad r (laneBits t / 8)).map fun r => s.byteKeys r (laneBits t / 8)).flatten

/-- The long operation of a gather, and the state in which its lines have been read and it has been counted. -/
def State.gathOp : LongOp :=
  { s.newLong s.nextId (.v v) (.lanes t) with
    near := !(s.elemNearKeys b x t).isEmpty, own := s.ownBytes (s.elemKeys b x t), given := some (s.rdG b) }
def State.gathRead : State :=
  (s.addRead (s.elemNearKeys b x t)).countCtx s.iss.core s.iss.slot (if (s.elemNearKeys b x t).isEmpty then 11 else 10)

/-- The request of a gather with an element elsewhere, which names all sixteen (log 35). -/
def State.gathReq : Req :=
  s.request s.iss.core s.iss.slot false (destOf ((s.elemRes b x t).headD 0)) ((s.elemRes b x t).any s.isTso) true
    (.load (s.elemRes b x t) (laneBits t / 8)) (some (s.rdG b))

/-- The sixteen stores of a scatter, and its long operation. -/
def State.scatRecs : List StoreRec :=
  (s.elems b x t).mapIdx fun k q => { s.storeRec q (natBytes (laneBits t / 8) (laneOf t (s.rdV v) k)) with sc := true }
def State.scatOp : LongOp :=
  { s.newLong s.nextId .none .word with near := true, scat := s.scatRecs v b x t, given := some (s.rdG b) }

/-- The state in which a scatter's elements have been translated and its near lines are in the write signature. -/
def State.scatMarked : State :=
  (touchElems s (laneBits t / 8) (s.elems b x t)).modChunk fun ch => { ch with
    wsig := ch.wsig ++ linesOf (((s.scatRecs v b x t).filter (·.near)).map (·.keys)).flatten }

/-- The probe of a scatter with an element elsewhere (log 47). -/
def State.scatReq : Req :=
  s.request s.iss.core s.iss.slot false (destOf ((s.scatRecs v b x t).headD (s.storeRec 0 [])).ptr) false true
    (.probe (s.elemRes b x t) (laneBits t / 8)) (some (s.rdG b))
end

/-! ## The words -/

section
variable {s : State} {v : BitVec 4} {b : RF} {x : BitVec 4} {t : BitVec 3}
variable (hl : s.opened.canLong = true)
include hl

section
variable (h : runsC (.vgath v b x t) s)
  (hc : elemChecks s.opened (s.opened.rdG b) (elemPtrs (s.opened.rdG b) (s.opened.rdV x) (laneBits t / 8)) (laneBits t / 8) 0 = none)
include h hc

/-- R244: every element lies in the own scratchpad. -/
theorem exec_vgath_own (ho : (s.opened.elemRes b x t).all s.opened.ownSp = true) : exec (.vgath v b x t) s =
    .next (State.addLong (s.opened.gathRead b x t).freshId { s.opened.gathOp v b x t with
      val := some (convVal (.lanes t) (s.opened.readOwn (s.opened.elemKeys b x t)) 0), due := some (s.opened.mine.cyc + 24) }).advance := by
  unfold State.elemRes State.elems at ho
  refine exec_runC_ok rfl h rfl ?_
  simp only [hc, hl, ho, Bool.not_true, Bool.false_eq_true, if_false, if_true]
  rfl

theorem exec_vgath_elsewhere (ho : (s.opened.elemRes b x t).all s.opened.ownSp = false) : exec (.vgath v b x t) s =
    .next (State.addLong ((s.opened.gathRead b x t).send (s.opened.gathReq b x t))
      { s.opened.gathOp v b x t with body := some (.load (s.opened.elemRes b x t) (laneBits t / 8)) }).advance := by
  unfold State.elemRes State.elems at ho
  refine exec_runC_ok rfl h rfl ?_
  simp only [hc, hl, ho, Bool.not_true, Bool.false_eq_true, if_false]
  rfl
end

section
variable (h : runsC (.vscat v b x t) s)
  (hc : elemChecks s.opened (s.opened.rdG b) (elemPtrs (s.opened.rdG b) (s.opened.rdV x) (laneBits t / 8)) (laneBits t / 8) 1 = none)
  (hr : s.opened.me.hasRoom (s.opened.scatRecs v b x t) = true)
include h hc hr

theorem exec_vscat_own (ho : (s.opened.elemRes b x t).all s.opened.ownSp = true) : exec (.vscat v b x t) s =
    .next ((State.addLong (s.opened.scatMarked v b x t).freshId { s.opened.scatOp v b x t with
      val := some 0, due := some (s.opened.mine.cyc + 24) }).markViol (.vscat v b x t)).advance := by
  unfold State.scatRecs State.elems at hr
  unfold State.elemRes State.elems at ho
  rw [List.all_map] at ho
  refine congrArg Host.Outcome.next (runC_ok h ?_)
  simp only [hc, hl, hr, Bool.not_true, Bool.false_eq_true, if_false]
  exact if_pos ho

theorem exec_vscat_elsewhere (ho : (s.opened.elemRes b x t).all s.opened.ownSp = false) : exec (.vscat v b x t) s =
    .next ((State.addLong ((s.opened.scatMarked v b x t).send (s.opened.scatReq v b x t))
      { s.opened.scatOp v b x t with body := some (.probe (s.opened.elemRes b x t) (laneBits t / 8)) }).markViol (.vscat v b x t)).advance := by
  unfold State.scatRecs State.elems at hr
  unfold State.elemRes State.elems at ho
  rw [List.all_map] at ho
  refine congrArg Host.Outcome.next (runC_ok h ?_)
  simp only [hc, hl, hr, Bool.not_true, Bool.false_eq_true, if_false]
  exact if_neg (by rw [← Bool.not_eq_true] at ho; exact ho)
end
end

end Sys2Proof.Machine

open Sys2Proof Sys2Proof.Machine

/-- Settles O22: each word starts its long operation, in a state that has the request of those with an element elsewhere. -/
theorem gatherScatterResults : Obligations.GatherScatterResults := by
  intro v x b t s o w es qs rs ks recs hl
  refine ⟨fun h hc => ⟨fun ho => ?_, fun ho => ?_⟩, fun h hc hr => ⟨fun ho => ?_, fun ho => ?_⟩⟩
  · exact ⟨_, _, exec_vgath_own hl h hc ho, rfl, rfl, rfl, rfl⟩
  · exact ⟨_, _, exec_vgath_elsewhere hl h hc ho, rfl, rfl, rfl, rfl, mem_send .., _, net_send .., rfl, rfl, rfl⟩
  · exact ⟨_, _, exec_vscat_own hl h hc hr ho, rfl, rfl, rfl⟩
  · exact ⟨_, _, exec_vscat_elsewhere hl h hc hr ho, rfl, rfl, rfl⟩
end

section
/-! O28: `amo`, `acas` and `red` (R169, R246, R247, R97, R176). -/

namespace Sys2Proof.Machine

/-! ## An atomic that passes its checks walks nothing before its bundle -/

section
variable {s : State} {p : Word} {n kind : Nat}

/-- A trap there may be takes PAGE. -/
def takesPage (t : Option Trap) : Bool := t.any fun t => t.cause == cPAGE

theorem takesPage_or (t u : Option Trap) (ht : takesPage t = false) (hu : takesPage u = false) : takesPage (t.or u) = false := by
  cases t with
  | none => exact hu
  | some _ => exact ht

/-- Of the checks of an access only the translation takes PAGE. -/
theorem takesPage_checkProt : takesPage (s.checkProt p n kind) = false := by
  unfold State.checkProt
  split <;> rfl

theorem takesPage_checkLock : takesPage (s.checkLock p n kind) = false := by
  unfold State.checkLock
  cases lockHit s (dieOf s.iss.core) s.tenant (s.res p) n kind <;> rfl

theorem takesPage_watch : takesPage (s.watch p n kind) = false := by
  unfold State.watch
  cases s.mine.wps.find? _ with
  | none => rfl
  | some e =>
    simp only [Option.map_some, takesPage, Option.any_some, watchStop]
    split <;> rfl

/-- A translation that does not fault, held or not (R153), takes no PAGE. -/
theorem takesPage_checkPage (h : s.pageFault (s.res p) n kind s.tenant s.me.priv = none) : takesPage (s.checkPage p n kind) = false := by
  simp only [State.checkPage, h, Option.map_none]
  split
  · split <;> rfl
  · rfl

theorem opened_pageFault (r : Word) : s.opened.pageFault r n kind s.opened.tenant s.opened.me.priv = s.pageFault r n kind s.tenant s.me.priv := by
  rw [State.opened_tenant, (State.opened_me_a s).2.1]
  rfl

/-- A check of own-die memory that passes finds its translations. -/
theorem pageFault_of_checkPage (hd : (n != 0 && s.ownDie (s.res p) && (kind == 1 || kind == 2)) = true) (h : s.checkPage p n kind = none) :
    s.pageFault (s.res p) n kind s.tenant s.me.priv = none := by
  rw [State.checkPage, if_pos hd] at h
  split at h
  · cases h
  · exact Option.map_eq_none_iff.mp h

theorem takesPage_checkPage_of_opened (h : s.opened.checkPage p n kind = none) : takesPage (s.checkPage p n kind) = false := by
  by_cases hd : (n != 0 && s.ownDie (s.res p) && (kind == 1 || kind == 2)) = true
  · exact takesPage_checkPage ((opened_pageFault _).symm.trans (pageFault_of_checkPage (s := s.opened) hd h))
  · rw [State.checkPage, if_neg hd]
    rfl

/-- An atomic passes where its address is good, it is not to SPC 3, and its access passes. -/
theorem atomicCheck_passes (h : atomicCheck s p n = none) :
    addrBad p n n = false ∧ pSpc p ≠ 3 ∧ s.check p n 2 n = none ∧ s.watch p n 2 = none := by
  unfold atomicCheck at h
  split at h
  · cases h
  · next hbad =>
    split at h
    · cases h
    · next hspc => exact ⟨Bool.eq_false_iff.mpr hbad, hspc, Option.or_eq_none_iff.mp h⟩

/-- R147: where the checks pass once the chunk is open, there is no walk to a PAGE before that. -/
theorem takesPage_atomicCheck (h : atomicCheck s.opened p n = none) : takesPage (atomicCheck s p n) = false := by
  obtain ⟨hbad, hspc, hcheck, -⟩ := atomicCheck_passes h
  obtain ⟨-, -, -, hpage⟩ := check_passes hcheck
  rw [atomicCheck, hbad, if_neg Bool.false_ne_true, if_neg hspc, check_of_addrOk hbad]
  exact takesPage_or _ _ (takesPage_or _ _ takesPage_checkProt (takesPage_or _ _ takesPage_checkLock (takesPage_checkPage_of_opened hpage)))
    takesPage_watch

theorem walkPage_none (i : Instr) {t : Option Trap} (h : takesPage t = false) : walkPage i s p n kind t = s := by
  unfold takesPage at h
  simp only [walkPage, h, Bool.false_and, Bool.false_eq_true, if_false]

theorem walkPage_atomic (i : Instr) (h : atomicCheck s.opened p n = none) : walkPage i s p n kind (atomicCheck s p n) = s :=
  walkPage_none i (takesPage_atomicCheck h)
end

/-! ## What holds an atomic back -/

section
variable {s : State} {p : Word} {n : Nat} {w : BitVec 1}

/-- R171: the write of an atomic of the own scratchpad. -/
def atomicHold (p : Word) (n : Nat) (s : State) : Option Bool := s.holdWrite (s.ownKey p) n

/-- R97, R171: what holds `amo` and `acas` back. -/
def amoHold (p : Word) (n : Nat) (s : State) : Option Bool := if s.ownSp (s.res p) then atomicHold p n s else holdLong s

theorem unheld_amoHold_own (ho : s.opened.ownSp (s.opened.res p) = true) (h : unheld (atomicHold p n) s) : unheld (amoHold p n) s :=
  ⟨(if_pos ho).trans h.1, (if_pos ((commitChunk_ownSp p).trans ho)).trans h.2⟩

theorem unheld_amoHold_elsewhere (ho : s.opened.ownSp (s.opened.res p) = false) (h : mayLong s) : unheld (amoHold p n) s := by
  obtain ⟨h0, h1⟩ := unheld_holdLong h
  exact ⟨(if_neg (by simp [ho])).trans h0, (if_neg (by simp [commitChunk_ownSp, ho])).trans h1⟩

theorem unheld_redHold_own (ho : s.opened.ownSp (s.opened.res p) = true) (hr : released s) (h : unheld (atomicHold p (amoBytes w)) s) :
    unheld (redHold p w) s := by
  obtain ⟨hr0, hr1⟩ := unheld_holdRelease hr
  constructor
  · rw [redHold, if_pos ho, hr0]; exact h.1
  · rw [redHold, if_pos ((commitChunk_ownSp p).trans ho), hr1]; exact h.2

theorem unheld_redHold_elsewhere (ho : s.opened.ownSp (s.opened.res p) = false) : unheld (redHold p w) s :=
  ⟨if_neg (by simp [ho]), if_neg (by simp [commitChunk_ownSp, ho])⟩
end

/-! ## `amo` and `acas` -/

section
variable {i : Instr} {s m : State} {a : RF} {p : Word} {n : Nat} {f : Nat → Option Nat} {res : Nat → Word} {body : Word → Body}

/-- R246: what `amo` and `acas` do after their commit. -/
def amoOp (a : RF) (p : Word) (n : Nat) (f : Nat → Option Nat) (res : Nat → Word) (body : Word → Body) (m : State) : State :=
  if m.ownSp (m.res p) then ((atomicAt m (m.ownKey p) n f).wrG a (res (memNat m.mem (m.ownKey p) n))).advance
  else (startOp (m.touchOwn (m.res p) n 2) true (m.res p) (body (m.res p)) (m.dstG a) p).advance

theorem amoRun_ends (hc : atomicCheck s.opened p n = none) (h : endsAt i s) (hh : unheld (amoHold p n) s) :
    amoRun i s a p n f res body = amoOp a p n f res body (s.committed i) := by
  rw [amoRun, walkPage_atomic i hc]
  exact runE_ends _ h hc hh

theorem amoOp_own (ho : m.ownSp (m.res p) = true) : amoOp a p n f res body m =
    ((atomicAt m (m.ownKey p) n f).wrG a (res (memNat m.mem (m.ownKey p) n))).advance := if_pos ho

theorem amoOp_elsewhere (ho : m.ownSp (m.res p) = false) : amoOp a p n f res body m =
    (startOp (m.touchOwn (m.res p) n 2) true (m.res p) (body (m.res p)) (m.dstG a) p).advance :=
  if_neg (by rw [ho]; exact Bool.false_ne_true)

variable (hc : atomicCheck s.opened p n = none) (h : endsAt i s)
include hc h

theorem amoRun_own (ho : s.opened.ownSp (s.opened.res p) = true) (hh : unheld (atomicHold p n) s) : amoRun i s a p n f res body =
    ((atomicAt (s.committed i) ((s.committed i).ownKey p) n f).wrG a (res (memNat (s.committed i).mem ((s.committed i).ownKey p) n))).advance :=
  (amoRun_ends hc h (unheld_amoHold_own ho hh)).trans (amoOp_own ((committed_ownSp_res p).trans ho))

theorem amoRun_elsewhere (ho : s.opened.ownSp (s.opened.res p) = false) (hl : mayLong s) : amoRun i s a p n f res body =
    (startOp ((s.committed i).touchOwn (s.opened.res p) n 2) true (s.opened.res p) (body (s.opened.res p)) ((s.committed i).dstG a) p).advance := by
  rw [amoRun_ends hc h (unheld_amoHold_elsewhere ho hl), amoOp_elsewhere ((committed_ownSp_res p).trans ho), committed_res]
end

/-- R246: a compare-and-swap writes where its comparand matches. -/
theorem atomicAt_casNew (s : State) (k n : Nat) (cmp new : Word) : atomicAt s k n (fun m => casNew n m cmp new) =
    if memNat s.mem k n = cutTo n cmp then writeSquash s k (natBytes n (cutTo n new)) else s := by
  split
  · next h => exact atomicAt_some (if_pos h)
  · next h => exact atomicAt_none (if_neg h)

/-! ## `red` -/

section
variable {b c : RF} {w : BitVec 1} {op : BitVec 4} {s : State}

theorem exec_red (hc : atomicCheck s.opened (s.rdG b) (amoBytes w) = none) (h : endsAt (.red b c w op) s) (hh : unheld (redHold (s.rdG b) w) s) :
    exec (.red b c w op) s = .next (redOp (s.rdG b) (s.rdG c) w op (s.committed (.red b c w op))) := by
  refine congrArg Host.Outcome.next ?_
  rw [walkPage_atomic _ hc]
  exact runR_ends _ _ h hc hh

variable {p x : Word} {m : State}

theorem redOp_own (ho : m.ownSp (m.res p) = true) : redOp p x w op m = (writeSquash m (m.ownKey p) (natBytes (amoBytes w)
    (amoNew op.toNat (amoBytes w) (memNat m.mem (m.ownKey p) (amoBytes w)) (cutTo (amoBytes w) x)))).advance := if_pos ho

theorem redOp_elsewhere (ho : m.ownSp (m.res p) = false) : redOp p x w op m =
    (sendOp (m.touchOwn (m.res p) (amoBytes w) 2) true false (m.res p) (.amo (m.res p) x w op) (some p)).advance :=
  if_neg (by rw [ho]; exact Bool.false_ne_true)
end

end Sys2Proof.Machine

open Sys2Proof Sys2Proof.Machine

/-- Settles O28: `amo` and `acas` are `amoRun`, and `red` is `redOp`, in the state that their commit leaves. -/
theorem atomicResults : Obligations.AtomicResults := by
  intro a b c w op s o p x n q new old free hc
  refine ⟨fun h => ⟨fun ho hh => ?_, fun ho hl => ?_⟩, fun h => ⟨fun ho hh => ?_, fun ho hl => ?_⟩, fun h => ⟨fun ho hr hh => ?_, fun ho => ?_⟩⟩
  · exact congrArg Host.Outcome.next (amoRun_own hc h ho hh)
  · exact congrArg Host.Outcome.next (amoRun_elsewhere hc h ho hl)
  · exact congrArg Host.Outcome.next ((amoRun_own hc h ho hh).trans (by rw [atomicAt_casNew]))
  · exact congrArg Host.Outcome.next (amoRun_elsewhere hc h ho hl)
  · exact (exec_red hc h (unheld_redHold_own ho hr hh)).trans (congrArg _ (redOp_own ((committed_ownSp_res p).trans ho)))
  · have hq : q = (s.committed (.red b c w op)).res p := (committed_res s _ p).symm
    rw [hq]
    exact (exec_red hc h (unheld_redHold_elsewhere ho)).trans (congrArg _ (redOp_elsewhere ((committed_ownSp_res p).trans ho)))
end

section
/-! O32: the life cycle of an entry of the key map (R264, R265, R269-R277). -/

namespace Sys2Proof.Machine

/-! ## Result words (R265) -/

theorem kFail_toNat {st slot r : Nat} (hst : st < 4) (hr : r < 16) :
    (kFail st slot r).toNat = st * 2 ^ 62 + r * 2 ^ 56 + slot % 2 ^ 12 := by
  have h : st * 2 ^ 62 + r * 2 ^ 56 + slot % 2 ^ 12 < 2 ^ 64 := by omega
  rw [kFail, BitVec.toNat_ofNat, Nat.mod_eq_of_lt h]

/-- A field of a word, by the quotient that it is. -/
theorem extract_of_div {x : Word} {n i j y : Nat} (hx : x.toNat = n) (h : n / 2 ^ i % 2 ^ j = y % 2 ^ j) : x.extractLsb' i j = BitVec.ofNat j y := by
  apply BitVec.eq_of_toNat_eq
  rw [BitVec.extractLsb'_toNat, hx, Nat.shiftRight_eq_div_pow, BitVec.toNat_ofNat, h]

theorem kFail_fields {st slot r : Nat} (hst : st < 4) (hr : r < 16) (hs : slot < 2 ^ 12) :
    (kFail st slot r).extractLsb' 62 2 = BitVec.ofNat 2 st ∧ (kFail st slot r).extractLsb' 56 4 = BitVec.ofNat 4 r ∧
    (kFail st slot r).extractLsb' 0 12 = BitVec.ofNat 12 slot ∧ (kFail st slot r).extractLsb' 12 44 = 0 ∧
    (kFail st slot r).extractLsb' 60 2 = 0 ∧ kFail st slot 0 = kStatus st slot := by
  have h := kFail_toNat (slot := slot) hst hr
  exact ⟨extract_of_div h (by omega), extract_of_div h (by omega), extract_of_div h (by omega), extract_of_div (y := 0) h (by omega),
    extract_of_div (y := 0) h (by omega), by rw [kFail, kStatus, Nat.zero_mul, Nat.add_zero]⟩

/-- A failure's word is not the word of success. -/
theorem kFail_ne_zero {st slot r : Nat} (hst : st < 4) (hr : r < 16) (h0 : r ≠ 0) : kFail st slot r ≠ 0 := by
  intro h
  have hn : st * 2 ^ 62 + r * 2 ^ 56 + slot % 2 ^ 12 = 0 := by rw [← kFail_toNat hst hr, h]; rfl
  omega

/-! ## How a key resolves (R264) -/

/-- The status of a block at the position to which its window maps it. -/
def KPos.status (p : KPos) (head b : BitVec 24) : Nat :=
  if p.st ≠ posInvalid ∧ p.tag = b then (if p.st = posValid then stHIT else stBUSY)
  else if (b - head - 1).toNat ≠ 0 ∧ (b - head - 1).toNat < 2 ^ 23 then stGAP else stMISS

/-- The status of a block in a window. -/
def KWindow.status (w : KWindow) (b : BitVec 24) : Nat := (w.at_ (w.posOf b)).status w.head b

section
variable {w : KWindow} {b : BitVec 24}

theorem KWindow.status_valid (ht : (w.at_ (w.posOf b)).tag = b) (hv : (w.at_ (w.posOf b)).st = posValid) : w.status b = stHIT := by
  simp [KWindow.status, KPos.status, ht, hv, posValid, posInvalid]

theorem KWindow.status_busy (ht : (w.at_ (w.posOf b)).tag = b) (hv : (w.at_ (w.posOf b)).st = posBusy) : w.status b = stBUSY := by
  simp [KWindow.status, KPos.status, ht, hv, posValid, posInvalid, posBusy]

theorem KWindow.status_absent (h : (w.at_ (w.posOf b)).tag ≠ b ∨ (w.at_ (w.posOf b)).st = posInvalid) :
    w.status b = if (b - w.head - 1).toNat ≠ 0 ∧ (b - w.head - 1).toNat < 2 ^ 23 then stGAP else stMISS :=
  if_neg fun hp => h.elim (fun ht => ht hp.2) fun hi => hp.1 hi

/-- A window names a block that it does not hold MISS or GAP. -/
theorem KWindow.status_absent_cases (h : (w.at_ (w.posOf b)).tag ≠ b ∨ (w.at_ (w.posOf b)).st = posInvalid) :
    w.status b = stGAP ∨ w.status b = stMISS := by
  rw [KWindow.status_absent h]
  split
  · exact .inl rfl
  · exact .inr rfl

theorem KWindow.holds_of_status (h : w.status b = stHIT ∨ w.status b = stBUSY) :
    (w.at_ (w.posOf b)).tag = b ∧ (w.at_ (w.posOf b)).st ≠ posInvalid := by
  by_cases ha : (w.at_ (w.posOf b)).tag ≠ b ∨ (w.at_ (w.posOf b)).st = posInvalid
  · obtain hg | hm := KWindow.status_absent_cases ha
    · simp [hg, stHIT, stGAP, stBUSY] at h
    · simp [hm, stHIT, stMISS, stBUSY] at h
  · exact ⟨by_contra fun ht => ha (.inl ht), fun hi => ha (.inr hi)⟩

/-- A position that holds a block is one of the window's. -/
theorem KWindow.posOf_lt (h : (w.at_ (w.posOf b)).st ≠ posInvalid) : w.posOf b < w.pos.length := by
  by_contra hl
  rw [KWindow.at_, List.getD_eq_default _ _ (by omega)] at h
  exact h rfl
end

section
variable {m m' : KeyMap} {k : BitVec 56}

theorem KeyMap.lookup_exact {e : KExact} (h : m.exact_.find? (·.key == k) = some e) :
    m.lookup k = (if e.valid then stHIT else stBUSY, e.slot) := by simp only [KeyMap.lookup, h]

theorem KeyMap.lookup_miss (hx : m.exact_.find? (·.key == k) = none) (hw : m.wins.find? (·.prefix32 == keyPre k) = none) :
    m.lookup k = (stMISS, 0) := by simp only [KeyMap.lookup, hx, hw]

theorem KeyMap.lookup_window {w : KWindow} (hx : m.exact_.find? (·.key == k) = none) (hw : m.wins.find? (·.prefix32 == keyPre k) = some w) :
    m.lookup k = (w.status (keyBlock k), w.base + w.posOf (keyBlock k)) := by
  simp only [KeyMap.lookup, hx, hw, KWindow.status, KPos.status, bne_iff_ne, beq_iff_eq, Bool.and_eq_true]
  split
  · split <;> rfl
  · by_cases h0 : (keyBlock k - w.head - 1).toNat = 0
    · rw [if_pos h0, if_neg fun h => h.1 h0]
    · rw [if_neg h0]
      by_cases hd : (keyBlock k - w.head - 1).toNat < 2 ^ 23
      · rw [if_pos hd, if_pos ⟨h0, hd⟩]
      · rw [if_neg hd, if_neg fun h => hd h.2]

/-- What a key resolves to rests on its EXACT entry and on the window of its prefix. -/
theorem KeyMap.lookup_congr (hx : m'.exact_.find? (·.key == k) = m.exact_.find? (·.key == k))
    (hw : m'.wins.find? (·.prefix32 == keyPre k) = m.wins.find? (·.prefix32 == keyPre k)) : m'.lookup k = m.lookup k := by
  simp only [KeyMap.lookup, hx, hw]

theorem KeyMap.pinOf_congr (hx : m'.exact_.find? (·.key == k) = m.exact_.find? (·.key == k))
    (hw : m'.wins.find? (·.prefix32 == keyPre k) = m.wins.find? (·.prefix32 == keyPre k)) : m'.pinOf k = m.pinOf k := by
  simp only [KeyMap.pinOf, hx, hw]

theorem KeyMap.pinOf_exact {e : KExact} (h : m.exact_.find? (·.key == k) = some e) : m.pinOf k = e.pin := by simp only [KeyMap.pinOf, h]

theorem KeyMap.pinOf_window {w : KWindow} (hx : m.exact_.find? (·.key == k) = none) (hw : m.wins.find? (·.prefix32 == keyPre k) = some w) :
    m.pinOf k = (w.at_ (w.posOf (keyBlock k))).pin := by simp only [KeyMap.pinOf, hx, hw]

theorem KeyMap.pinOf_none (hx : m.exact_.find? (·.key == k) = none) (hw : m.wins.find? (·.prefix32 == keyPre k) = none) :
    m.pinOf k = 0 := by simp only [KeyMap.pinOf, hx, hw]

/-- A key's EXACT entry is HIT or BUSY. -/
theorem KeyMap.binds_exact {e : KExact} (h : m.exact_.find? (·.key == k) = some e) : (m.lookup k).1 = stHIT ∨ (m.lookup k).1 = stBUSY := by
  rw [KeyMap.lookup_exact h]
  cases e.valid
  · exact .inr rfl
  · exact .inl rfl

theorem KWindow.status_lt (w : KWindow) (b : BitVec 24) : w.status b < 4 := by
  unfold KWindow.status KPos.status stHIT stBUSY stGAP stMISS
  split
  · split <;> decide
  · split <;> decide

theorem KeyMap.status_lt (m : KeyMap) (k : BitVec 56) : (m.lookup k).1 < 4 := by
  cases hx : m.exact_.find? (·.key == k) with
  | some e => rcases KeyMap.binds_exact hx with h | h <;> rw [h] <;> decide
  | none =>
    cases hw : m.wins.find? (·.prefix32 == keyPre k) with
    | some w => rw [KeyMap.lookup_window hx hw]; exact w.status_lt _
    | none => rw [KeyMap.lookup_miss hx hw]; decide

/-- A key that resolves to MISS or GAP has no EXACT entry. -/
theorem KeyMap.exact_none (h : (m.lookup k).1 = stMISS ∨ (m.lookup k).1 = stGAP) : m.exact_.find? (·.key == k) = none := by
  cases hx : m.exact_.find? (·.key == k) with
  | none => rfl
  | some e => rcases KeyMap.binds_exact hx with hb | hb <;> rw [hb] at h <;> exact absurd h (by decide)

theorem KeyMap.bindsKey_iff : m.bindsKey k = true ↔ (m.lookup k).1 = stHIT ∨ (m.lookup k).1 = stBUSY := by simp [KeyMap.bindsKey]

theorem KeyMap.not_bindsKey (h : (m.lookup k).1 = stMISS ∨ (m.lookup k).1 = stGAP) : m.bindsKey k = false := by
  simp only [KeyMap.bindsKey, Bool.or_eq_false_iff, decide_eq_false_iff_not]
  rcases h with h | h <;> rw [h] <;> decide

/-- A key that resolves to an entry but has no EXACT one stands in the window of its prefix. -/
theorem KeyMap.window_of_binds (h : (m.lookup k).1 = stHIT ∨ (m.lookup k).1 = stBUSY) (hx : m.exact_.find? (·.key == k) = none) :
    ∃ w, m.wins.find? (·.prefix32 == keyPre k) = some w ∧ (w.status (keyBlock k) = stHIT ∨ w.status (keyBlock k) = stBUSY) := by
  cases hw : m.wins.find? (·.prefix32 == keyPre k) with
  | none => rw [KeyMap.lookup_miss hx hw] at h; exact absurd h (by decide)
  | some w => rw [KeyMap.lookup_window hx hw] at h; exact ⟨w, rfl, h⟩

theorem KeyMap.any_key_iff : m.exact_.any (·.key == k) = true ↔ m.exact_.find? (·.key == k) ≠ none := by
  rw [← Option.isSome_iff_ne_none, List.find?_isSome]
  simp

theorem KeyMap.any_key_false (h : m.exact_.find? (·.key == k) = none) : m.exact_.any (·.key == k) = false := by
  rw [Bool.eq_false_iff, ne_eq, KeyMap.any_key_iff, not_not, h]
end

/-! ## Changing an entry or a position -/

/-- Changes one position of a window. -/
def KWindow.setPos (w : KWindow) (j : Nat) (f : KPos → KPos) : KWindow := { w with pos := w.pos.set j (f (w.at_ j)) }

section
variable (w : KWindow) {j : Nat} (f : KPos → KPos) (b : BitVec 24)

@[simp] theorem KWindow.setPos_head : (w.setPos j f).head = w.head := rfl

@[simp] theorem KWindow.setPos_posOf : (w.setPos j f).posOf b = w.posOf b := by simp [KWindow.setPos, KWindow.posOf]

theorem KWindow.at_setPos (h : j < w.pos.length) : (w.setPos j f).at_ j = f (w.at_ j) := by simp [KWindow.setPos, KWindow.at_, h]

theorem KWindow.at_setPos_ne {i : Nat} (h : i ≠ j) : (w.setPos j f).at_ i = w.at_ i := by
  simp [KWindow.setPos, KWindow.at_, List.getD_eq_getElem?_getD, h.symm]

/-- Each block of another position stands as it did. -/
theorem KWindow.status_setPos_ne (h : w.posOf b ≠ j) : (w.setPos j f).status b = w.status b := by
  rw [KWindow.status, KWindow.setPos_posOf, KWindow.at_setPos_ne w f h, KWindow.setPos_head, KWindow.status]
end

/-- A change of pins changes no status. -/
theorem KWindow.status_setPos_pin (w : KWindow) (j n : Nat) (b : BitVec 24) : (w.setPos j fun p => { p with pin := n }).status b = w.status b := by
  by_cases h : w.posOf b = j
  · by_cases hl : j < w.pos.length
    · rw [KWindow.status, KWindow.setPos_posOf, h, KWindow.at_setPos w _ hl, KWindow.status, h]
      rfl
    · simp [KWindow.setPos, List.set_eq_of_length_le (Nat.not_lt.mp hl)]
  · exact KWindow.status_setPos_ne w _ b h

section
variable (m : KeyMap) (k k' : BitVec 56)

/-- The search for a prefix after a change of windows that keeps their prefixes. -/
theorem find_wins_map (p : W32) {f : KWindow → KWindow} (hf : ∀ w, (f w).prefix32 = w.prefix32) (l : List KWindow) :
    (l.map f).find? (·.prefix32 == p) = (l.find? (·.prefix32 == p)).map f := by
  rw [List.find?_map]
  simp only [Function.comp_def, hf]

/-- The search for a key after a change of entries that keeps their keys. -/
theorem find_exact_map {f : KExact → KExact} (hf : ∀ e, (f e).key = e.key) (l : List KExact) :
    (l.map f).find? (·.key == k) = (l.find? (·.key == k)).map f := by
  rw [List.find?_map]
  simp only [Function.comp_def, hf]

theorem prefix_of_find {p : W32} {w : KWindow} (h : m.wins.find? (·.prefix32 == p) = some w) : w.prefix32 = p := by
  simpa using List.find?_some h

theorem key_of_find {e : KExact} (h : m.exact_.find? (·.key == k) = some e) : e.key = k := by simpa using List.find?_some h

@[simp] theorem KeyMap.modPos_exact (p : W32) (j : Nat) (f : KPos → KPos) : (m.modPos p j f).exact_ = m.exact_ := rfl
@[simp] theorem KeyMap.modExact_wins (f : KExact → KExact) : (m.modExact k f).wins = m.wins := rfl

theorem KeyMap.find_modPos {p : W32} (j : Nat) (f : KPos → KPos) {w : KWindow} (h : m.wins.find? (·.prefix32 == p) = some w) :
    (m.modPos p j f).wins.find? (·.prefix32 == p) = some (w.setPos j f) := by
  rw [KeyMap.modPos, find_wins_map p (fun w => by split <;> rfl), h]
  simp [prefix_of_find m h, KWindow.setPos]

theorem KeyMap.find_modPos_ne {p q : W32} (j : Nat) (f : KPos → KPos) (h : q ≠ p) :
    (m.modPos p j f).wins.find? (·.prefix32 == q) = m.wins.find? (·.prefix32 == q) := by
  rw [KeyMap.modPos, find_wins_map q (fun w => by split <;> rfl)]
  cases hw : m.wins.find? (·.prefix32 == q) with
  | none => rfl
  | some w => simp [prefix_of_find m hw, h]

theorem KeyMap.find_modExact (f : KExact → KExact) (hf : ∀ e, (f e).key = e.key) {e : KExact} (h : m.exact_.find? (·.key == k) = some e) :
    (m.modExact k f).exact_.find? (·.key == k) = some (f e) := by
  rw [KeyMap.modExact, find_exact_map k fun e => by split <;> simp [hf], h]
  simp [key_of_find m k h]

theorem KeyMap.find_modExact_ne {f : KExact → KExact} (hf : ∀ e, (f e).key = e.key) (h : k' ≠ k) :
    (m.modExact k f).exact_.find? (·.key == k') = m.exact_.find? (·.key == k') := by
  rw [KeyMap.modExact, find_exact_map k' fun e => by split <;> simp [hf]]
  cases he : m.exact_.find? (·.key == k') with
  | none => rfl
  | some e => simp [key_of_find m k' he, h]
end

/-! ## `kclaim` of a slot (R269) -/

/-- The entry that a claim of a slot adds. -/
def claimedEntry (k : BitVec 56) (c : Word) : KExact := { key := k, slot := c.toNat, valid := false, pin := 0 }

section
variable {m : KeyMap} {k : BitVec 56} {c : Word} (hc : c ≠ BitVec.allOnes 64)
include hc

theorem KeyMap.claim_slot_taken (hx : m.exact_.find? (·.key == k) ≠ none) : m.claim k c = (m, kFail (m.lookup k).1 (m.lookup k).2 1) := by
  simp only [KeyMap.claim, if_neg hc, KeyMap.any_key_iff.mpr hx, if_true]

variable (hx : m.exact_.find? (·.key == k) = none)
include hx

theorem KeyMap.claim_slot_beyond (hs : m.slots ≤ c.toNat) : m.claim k c = (m, kFail (m.lookup k).1 (m.lookup k).2 7) := by
  simp only [KeyMap.claim, if_neg hc, KeyMap.any_key_false hx, Bool.false_eq_true, if_false, if_pos hs]

variable (hs : c.toNat < m.slots)
include hs

theorem KeyMap.claim_slot_bound (hb : m.bound c.toNat = true) : m.claim k c = (m, kFail (m.lookup k).1 (m.lookup k).2 2) := by
  simp only [KeyMap.claim, if_neg hc, KeyMap.any_key_false hx, Bool.false_eq_true, if_false, if_neg (Nat.not_le.mpr hs), if_pos hb]

variable (hb : m.bound c.toNat = false)
include hb

theorem KeyMap.claim_slot_full (hu : 1024 ≤ m.inUse) : m.claim k c = (m, kFail (m.lookup k).1 (m.lookup k).2 3) := by
  simp only [KeyMap.claim, if_neg hc, KeyMap.any_key_false hx, Bool.false_eq_true, if_false, if_neg (Nat.not_le.mpr hs), hb, if_pos hu]

theorem KeyMap.claim_slot (hu : m.inUse < 1024) :
    m.claim k c = ({ m with exact_ := m.exact_ ++ [claimedEntry k c] }, 0) := by
  simp only [KeyMap.claim, if_neg hc, KeyMap.any_key_false hx, Bool.false_eq_true, if_false, if_neg (Nat.not_le.mpr hs), hb,
    if_neg (Nat.not_le.mpr hu), claimedEntry]
end

/-- A key that a claim of a slot takes is BUSY there. -/
theorem KeyMap.lookup_claim_slot {m : KeyMap} {k : BitVec 56} {c : Word} (hc : c ≠ BitVec.allOnes 64) (h : (m.claim k c).2 = 0) :
    (m.claim k c).1.lookup k = (stBUSY, c.toNat) := by
  have hf : ∀ r, r < 16 → r ≠ 0 → m.claim k c ≠ (m, kFail (m.lookup k).1 (m.lookup k).2 r) := fun r hr h0 he =>
    kFail_ne_zero (m.status_lt k) hr h0 ((congrArg Prod.snd he).symm.trans h)
  have hx : m.exact_.find? (·.key == k) = none := by_contra fun hx => hf 1 (by decide) (by decide) (KeyMap.claim_slot_taken hc hx)
  have hs : c.toNat < m.slots := Nat.lt_of_not_le fun hs => hf 7 (by decide) (by decide) (KeyMap.claim_slot_beyond hc hx hs)
  have hb : m.bound c.toNat = false := Bool.eq_false_iff.mpr fun hb => hf 2 (by decide) (by decide) (KeyMap.claim_slot_bound hc hx hs hb)
  have hu : m.inUse < 1024 := Nat.lt_of_not_le fun hu => hf 3 (by decide) (by decide) (KeyMap.claim_slot_full hc hx hs hb hu)
  rw [KeyMap.claim_slot hc hx hs hb hu]
  have hfind : (m.exact_ ++ [claimedEntry k c]).find? (·.key == k) = some (claimedEntry k c) := by
    simp [List.find?_append, hx, claimedEntry]
  exact KeyMap.lookup_exact (m := { m with exact_ := m.exact_ ++ [claimedEntry k c] }) hfind

/-! ## `kclaim` of a window position (R269) -/

section
variable {m : KeyMap} {k : BitVec 56}

theorem KeyMap.claim_window_none (hw : m.wins.find? (·.prefix32 == keyPre k) = none) :
    m.claim k (BitVec.allOnes 64) = (m, kFail (m.lookup k).1 (m.lookup k).2 8) := by simp only [KeyMap.claim, if_true, hw]

variable {w : KWindow} (hw : m.wins.find? (·.prefix32 == keyPre k) = some w)
include hw

theorem KeyMap.claim_window_held (h : (m.lookup k).1 = stHIT ∨ (m.lookup k).1 = stBUSY) :
    m.claim k (BitVec.allOnes 64) = (m, kFail (m.lookup k).1 (m.lookup k).2 1) := by
  simp only [KeyMap.claim, if_true, hw, Bool.or_eq_true, decide_eq_true_eq, if_pos h]

theorem KeyMap.claim_window_gap (h : (m.lookup k).1 = stGAP) :
    m.claim k (BitVec.allOnes 64) = (m, kFail (m.lookup k).1 (m.lookup k).2 10) := by
  simp [KeyMap.claim, hw, h, stGAP, stHIT, stBUSY]

variable (hm : (m.lookup k).1 = stMISS)
include hm

theorem KeyMap.claim_window_older (hd : 2 ^ 23 ≤ (keyBlock k - w.head - 1).toNat) :
    m.claim k (BitVec.allOnes 64) = (m, kFail (m.lookup k).1 (m.lookup k).2 9) := by
  simp only [KeyMap.claim, if_true, hw, hm, KWindow.older, hd, decide_true]; rfl

variable (hd : (keyBlock k - w.head - 1).toNat < 2 ^ 23)
include hd

theorem KeyMap.claim_window_pinned (hp : (w.at_ (w.posOf (keyBlock k))).pin ≠ 0) :
    m.claim k (BitVec.allOnes 64) = (m, kFail stBUSY (m.lookup k).2 4) := by
  have hp' : ((w.at_ (w.posOf (keyBlock k))).pin != 0) = true := by rwa [bne_iff_ne]
  simp only [KeyMap.claim, if_true, hw, hm, KWindow.older, Nat.not_le.mpr hd, decide_false, hp']; rfl

variable (hp : (w.at_ (w.posOf (keyBlock k))).pin = 0)
include hp

theorem KeyMap.claim_window : m.claim k (BitVec.allOnes 64) =
    (m.modPos (keyPre k) (w.posOf (keyBlock k)) fun _ => { tag := keyBlock k, st := posBusy, pin := 0 }, 0) := by
  simp only [KeyMap.claim, if_true, hw, hm, KWindow.older, Nat.not_le.mpr hd, decide_false, hp]; rfl
end

/-- A key is its prefix and its block (R263). -/
theorem key_ext {k k' : BitVec 56} (hp : keyPre k' = keyPre k) (hb : keyBlock k' = keyBlock k) : k' = k := by
  have hp' := congrArg BitVec.toNat hp
  have hb' := congrArg BitVec.toNat hb
  simp only [keyPre, keyBlock, BitVec.extractLsb'_toNat, Nat.shiftRight_eq_div_pow] at hp' hb'
  apply BitVec.eq_of_toNat_eq
  omega

section
variable {m : KeyMap} {k : BitVec 56} {w : KWindow} (hw : m.wins.find? (·.prefix32 == keyPre k) = some w)

/-- The map of a window position claimed for the block of a key. -/
def KeyMap.claimed (m : KeyMap) (k : BitVec 56) (w : KWindow) : KeyMap :=
  m.modPos (keyPre k) (w.posOf (keyBlock k)) fun _ => { tag := keyBlock k, st := posBusy, pin := 0 }

include hw

theorem KeyMap.find_claimed : (m.claimed k w).wins.find? (·.prefix32 == keyPre k) =
    some (w.setPos (w.posOf (keyBlock k)) fun _ => { tag := keyBlock k, st := posBusy, pin := 0 }) := m.find_modPos _ _ hw

variable (hl : 0 < w.pos.length)
include hl

theorem KeyMap.lookup_claimed (hx : m.exact_.find? (·.key == k) = none) :
    (m.claimed k w).lookup k = (stBUSY, w.base + w.posOf (keyBlock k)) := by
  have hj : w.posOf (keyBlock k) < w.pos.length := Nat.mod_lt _ hl
  have hx' : (m.claimed k w).exact_.find? (·.key == k) = none := hx
  rw [KeyMap.lookup_window hx' (KeyMap.find_claimed hw), KWindow.setPos_posOf, KWindow.status_busy]
  · rfl
  · rw [KWindow.setPos_posOf, KWindow.at_setPos w _ hj]
  · rw [KWindow.setPos_posOf, KWindow.at_setPos w _ hj]

/-- A block that stood in the claimed position does no longer. -/
theorem KeyMap.not_binds_claimed {k' : BitVec 56} (hp : keyPre k' = keyPre k) (hj : w.posOf (keyBlock k') = w.posOf (keyBlock k))
    (hk : k' ≠ k) (hx : m.exact_.find? (·.key == k') = none) : (m.claimed k w).bindsKey k' = false := by
  have hl' : w.posOf (keyBlock k) < w.pos.length := Nat.mod_lt _ hl
  have hw' := KeyMap.find_claimed hw
  rw [← hp] at hw'
  have hx' : (m.claimed k w).exact_.find? (·.key == k') = none := hx
  refine KeyMap.not_bindsKey ?_
  rw [KeyMap.lookup_window hx' hw']
  refine (KWindow.status_absent_cases (.inl ?_)).symm
  rw [KWindow.setPos_posOf, hj, KWindow.at_setPos w _ hl']
  exact fun hb => hk (key_ext hp hb.symm)

omit hl in
/-- A key of another prefix or of another position resolves as it did. -/
theorem KeyMap.lookup_claimed_ne {k' : BitVec 56} (h : keyPre k' ≠ keyPre k ∨ w.posOf (keyBlock k') ≠ w.posOf (keyBlock k)) :
    (m.claimed k w).lookup k' = m.lookup k' := by
  by_cases hp : keyPre k' = keyPre k
  · have hj : w.posOf (keyBlock k') ≠ w.posOf (keyBlock k) := h.resolve_left (not_not.mpr hp)
    cases hx : m.exact_.find? (·.key == k') with
    | some e =>
      have hx' : (m.claimed k w).exact_.find? (·.key == k') = some e := hx
      rw [KeyMap.lookup_exact hx, KeyMap.lookup_exact hx']
    | none =>
      have hx' : (m.claimed k w).exact_.find? (·.key == k') = none := hx
      have hw' := KeyMap.find_claimed hw
      rw [← hp] at hw hw'
      rw [KeyMap.lookup_window hx hw, KeyMap.lookup_window hx' hw', KWindow.setPos_posOf, KWindow.status_setPos_ne w _ _ hj]
      rfl
  · exact KeyMap.lookup_congr rfl (m.find_modPos_ne _ _ hp)
end

/-! ## `kready` (R270) -/

section
variable {m : KeyMap} {k : BitVec 56}

theorem KeyMap.ready_idle (h : (m.lookup k).1 ≠ stBUSY) : m.ready k = m := if_pos h

variable (h : (m.lookup k).1 = stBUSY)
include h

theorem KeyMap.ready_exact (hx : m.exact_.find? (·.key == k) ≠ none) : m.ready k = m.modExact k fun e => { e with valid := true } := by
  simp only [KeyMap.ready, h, ne_eq, not_true_eq_false, if_false, KeyMap.any_key_iff.mpr hx, if_true]

/-- The window of a prefix with a block made ready. -/
def KWindow.readied (w : KWindow) (b : BitVec 24) : KWindow := { w.setPos (w.posOf b) (fun p => { p with st := posValid }) with head := b }

theorem KeyMap.ready_window (hx : m.exact_.find? (·.key == k) = none) :
    m.ready k = { m with wins := m.wins.map fun w => if w.prefix32 == keyPre k then w.readied (keyBlock k) else w } := by
  simp only [KeyMap.ready, h, ne_eq, not_true_eq_false, if_false, KeyMap.any_key_false hx, Bool.false_eq_true]
  rfl

theorem KeyMap.find_ready (hx : m.exact_.find? (·.key == k) = none) (p : W32) : (m.ready k).wins.find? (·.prefix32 == p) =
    if p = keyPre k then (m.wins.find? (·.prefix32 == p)).map (·.readied (keyBlock k)) else m.wins.find? (·.prefix32 == p) := by
  rw [KeyMap.ready_window h hx]
  dsimp only
  rw [find_wins_map p fun w => by split <;> rfl]
  cases hw : m.wins.find? (·.prefix32 == p) with
  | none => simp
  | some w =>
    simp only [Option.map_some, prefix_of_find m hw, beq_iff_eq]
    split <;> rfl

omit h in
theorem KWindow.readied_posOf (w : KWindow) (b b' : BitVec 24) : (w.readied b).posOf b' = w.posOf b' :=
  w.setPos_posOf (j := w.posOf b) (fun p => { p with st := posValid }) b'

omit h in
theorem KWindow.readied_at_pin (w : KWindow) (b : BitVec 24) (i : Nat) : ((w.readied b).at_ i).pin = (w.at_ i).pin := by
  show ((w.setPos (w.posOf b) fun p => { p with st := posValid }).at_ i).pin = (w.at_ i).pin
  by_cases hi : i = w.posOf b
  · by_cases hl : i < w.pos.length
    · rw [← hi, KWindow.at_setPos w _ hl]
    · simp [KWindow.setPos, ← hi, List.set_eq_of_length_le (Nat.not_lt.mp hl)]
  · rw [KWindow.at_setPos_ne w _ hi]

/-- A key made ready resolves from BUSY to HIT at the same slot. -/
theorem KeyMap.lookup_ready : (m.ready k).lookup k = (stHIT, (m.lookup k).2) := by
  cases hx : m.exact_.find? (·.key == k) with
  | some e =>
    have hx' : (m.ready k).exact_.find? (·.key == k) = some { e with valid := true } := by
      rw [KeyMap.ready_exact h (by simp [hx])]
      exact KeyMap.find_modExact m k (fun e => { e with valid := true }) (fun _ => rfl) hx
    rw [KeyMap.lookup_exact hx', KeyMap.lookup_exact hx]
    rfl
  | none =>
    obtain ⟨w, hw, hst⟩ := KeyMap.window_of_binds (.inr h) hx
    obtain ⟨htag, hpos⟩ := KWindow.holds_of_status hst
    have hx' : (m.ready k).exact_.find? (·.key == k) = none := by rw [KeyMap.ready_window h hx]; exact hx
    have hw' : (m.ready k).wins.find? (·.prefix32 == keyPre k) = some (w.readied (keyBlock k)) := by
      rw [KeyMap.find_ready h hx, if_pos rfl, hw]
      rfl
    have hat : (w.readied (keyBlock k)).at_ ((w.readied (keyBlock k)).posOf (keyBlock k)) =
        { w.at_ (w.posOf (keyBlock k)) with st := posValid } := by
      rw [KWindow.readied_posOf]
      exact KWindow.at_setPos w (fun p => { p with st := posValid }) (KWindow.posOf_lt hpos)
    rw [KeyMap.lookup_window hx' hw', KeyMap.lookup_window hx hw, KWindow.status_valid (by rw [hat, htag]) (by rw [hat])]
    rw [KWindow.readied_posOf]
    rfl

/-- The head of its window moves to its block. -/
theorem KeyMap.head_ready (hx : m.exact_.find? (·.key == k) = none) :
    ((m.ready k).wins.find? (·.prefix32 == keyPre k)).map (·.head) = some (keyBlock k) := by
  obtain ⟨w, hw, -⟩ := KeyMap.window_of_binds (.inr h) hx
  rw [KeyMap.find_ready h hx, if_pos rfl, hw]
  rfl
end

/-- `kready` changes no pin count. -/
theorem KeyMap.pinOf_ready (m : KeyMap) (k k' : BitVec 56) : (m.ready k).pinOf k' = m.pinOf k' := by
  by_cases h : (m.lookup k).1 = stBUSY
  swap
  · rw [KeyMap.ready_idle h]
  by_cases hx : m.exact_.find? (·.key == k) = none
  · have hx' : (m.ready k).exact_ = m.exact_ := by rw [KeyMap.ready_window h hx]
    have hw := KeyMap.find_ready h hx (keyPre k')
    simp only [KeyMap.pinOf, hx', hw]
    cases m.exact_.find? (·.key == k') with
    | some e => rfl
    | none =>
      split_ifs
      · cases m.wins.find? (·.prefix32 == keyPre k') with
        | none => rfl
        | some w =>
          dsimp only [Option.map_some]
          rw [KWindow.readied_at_pin, KWindow.readied_posOf]
      · rfl
  · rw [KeyMap.ready_exact h hx]
    by_cases hk : k' = k
    · subst hk
      obtain ⟨e, he⟩ := Option.ne_none_iff_exists'.mp hx
      rw [KeyMap.pinOf_exact he, KeyMap.pinOf_exact (KeyMap.find_modExact m k' (fun e => { e with valid := true }) (fun _ => rfl) he)]
    · exact KeyMap.pinOf_congr (KeyMap.find_modExact_ne m k k' (fun _ => rfl) hk) rfl

/-! ## `kunbind` and `kinv` (R272, R276) -/

section
variable {m : KeyMap} {k k' : BitVec 56}

theorem find_key_filter (l : List KExact) (h : k' ≠ k) : (l.filter (·.key != k)).find? (·.key == k') = l.find? (·.key == k') := by
  rw [List.find?_filter]
  congr 1
  funext e
  by_cases he : e.key = k'
  · simp [he, h]
  · simp [he]

theorem find_prefix_filter {p q : W32} (l : List KWindow) (h : p ≠ q) :
    (l.filter (·.prefix32 != q)).find? (·.prefix32 == p) = l.find? (·.prefix32 == p) := by
  rw [List.find?_filter]
  congr 1
  funext w
  by_cases hw : w.prefix32 = p
  · simp [hw, h]
  · simp [hw]

theorem any_key_filter (l : List KExact) (k : BitVec 56) : (l.filter (·.key != k)).any (·.key == k) = false := by
  rw [List.any_eq_false]
  intro e he
  simpa using (List.mem_filter.mp he).2

theorem any_prefix_filter (l : List KWindow) (p : W32) : (l.filter (·.prefix32 != p)).any (·.prefix32 == p) = false := by
  rw [List.any_eq_false]
  intro w hw
  simpa using (List.mem_filter.mp hw).2

theorem KeyMap.unbind_absent (h : (m.lookup k).1 = stMISS ∨ (m.lookup k).1 = stGAP) :
    m.unbind k = (m, kFail (m.lookup k).1 (m.lookup k).2 6) := by simp only [KeyMap.unbind, Bool.or_eq_true, decide_eq_true_eq, if_pos h]

theorem not_absent (h : (m.lookup k).1 = stHIT ∨ (m.lookup k).1 = stBUSY) : ¬((m.lookup k).1 = stMISS ∨ (m.lookup k).1 = stGAP) := by
  rcases h with h | h <;> rw [h] <;> decide

theorem KeyMap.unbind_window (h : (m.lookup k).1 = stHIT ∨ (m.lookup k).1 = stBUSY) (hx : m.exact_.find? (·.key == k) = none) :
    m.unbind k = (m, kFail (m.lookup k).1 (m.lookup k).2 8) := by simp only [KeyMap.unbind, Bool.or_eq_true, decide_eq_true_eq, if_neg (not_absent h), hx]

section
variable {e : KExact} (hx : m.exact_.find? (·.key == k) = some e)
include hx

theorem KeyMap.unbind_busy (hv : e.valid = false) : m.unbind k = (m, kFail (m.lookup k).1 (m.lookup k).2 5) := by
  have hb : (m.lookup k).1 = stBUSY := by rw [KeyMap.lookup_exact hx, hv]; rfl
  simp only [KeyMap.unbind, Bool.or_eq_true, decide_eq_true_eq, if_neg (not_absent (.inr hb)), hx, if_pos hb]

theorem KeyMap.unbind_valid (hv : e.valid = true) : m.unbind k = if e.pin ≠ 0 then (m, kFail (m.lookup k).1 (m.lookup k).2 4)
    else ({ m with exact_ := m.exact_.filter (·.key != k) }, 0) := by
  have hh : (m.lookup k).1 = stHIT := by rw [KeyMap.lookup_exact hx, hv]; rfl
  have hb : ¬(m.lookup k).1 = stBUSY := by rw [hh]; decide
  simp only [KeyMap.unbind, Bool.or_eq_true, decide_eq_true_eq, if_neg (not_absent (.inl hh)), hx, if_neg hb, bne_iff_ne]
end

/-- What `kunbind` can do: fail with a reason, or remove the EXACT entry of its key. -/
theorem KeyMap.unbind_cases (m : KeyMap) (k : BitVec 56) : (∃ r, r < 16 ∧ r ≠ 0 ∧ m.unbind k = (m, kFail (m.lookup k).1 (m.lookup k).2 r)) ∨
    m.unbind k = ({ m with exact_ := m.exact_.filter (·.key != k) }, 0) := by
  by_cases ha : (m.lookup k).1 = stMISS ∨ (m.lookup k).1 = stGAP
  · exact .inl ⟨6, by decide, by decide, KeyMap.unbind_absent ha⟩
  cases hx : m.exact_.find? (·.key == k) with
  | none => exact .inl ⟨8, by decide, by decide, by simp only [KeyMap.unbind, Bool.or_eq_true, decide_eq_true_eq, if_neg ha, hx]⟩
  | some e =>
    cases hv : e.valid with
    | false => exact .inl ⟨5, by decide, by decide, KeyMap.unbind_busy hx hv⟩
    | true =>
      rw [KeyMap.unbind_valid hx hv]
      split
      · exact .inl ⟨4, by decide, by decide, rfl⟩
      · exact .inr rfl

theorem KeyMap.any_unbind (h : (m.unbind k).2 = 0) : (m.unbind k).1.exact_.any (·.key == k) = false := by
  obtain ⟨r, hr, h0, hu⟩ | hu := m.unbind_cases k
  · rw [hu] at h
    exact absurd h (kFail_ne_zero (m.status_lt k) hr h0)
  · rw [hu]
    exact any_key_filter _ _

theorem KeyMap.find_unbind_ne (h : k' ≠ k) : (m.unbind k).1.exact_.find? (·.key == k') = m.exact_.find? (·.key == k') := by
  obtain ⟨r, -, -, hu⟩ | hu := m.unbind_cases k
  · rw [hu]
  · rw [hu]
    exact find_key_filter _ h

theorem KeyMap.inv_exact {x : Word} (h : x.getLsbD 63 = false) : m.inv x = { m with exact_ := m.exact_.filter (·.key != keyOf x) } := by
  simp only [KeyMap.inv, h, Bool.false_eq_true, if_false]

theorem KeyMap.inv_window {x : Word} (h : x.getLsbD 63 = true) : m.inv x = { m with wins := m.wins.filter (·.prefix32 != x.extractLsb' 0 32) } :=
  if_pos h
end

/-! ## Pins (R273) -/

section
variable {m : KeyMap} {k k' : BitVec 56} (n : Nat)

theorem KeyMap.setPin_exact (hx : m.exact_.find? (·.key == k) ≠ none) : m.setPin k n = m.modExact k fun e => { e with pin := n } := by
  simp only [KeyMap.setPin, KeyMap.any_key_iff.mpr hx, if_true]

theorem KeyMap.setPin_window {w : KWindow} (hx : m.exact_.find? (·.key == k) = none) (hw : m.wins.find? (·.prefix32 == keyPre k) = some w) :
    m.setPin k n = m.modPos (keyPre k) (w.posOf (keyBlock k)) fun p => { p with pin := n } := by
  simp only [KeyMap.setPin, KeyMap.any_key_false hx, Bool.false_eq_true, if_false, hw]

variable (h : (m.lookup k).1 = stHIT ∨ (m.lookup k).1 = stBUSY)
include h

theorem KeyMap.lookup_setPin (k' : BitVec 56) : (m.setPin k n).lookup k' = m.lookup k' := by
  by_cases hx : m.exact_.find? (·.key == k) = none
  · obtain ⟨w, hw, -⟩ := KeyMap.window_of_binds h hx
    rw [KeyMap.setPin_window n hx hw]
    by_cases hp : keyPre k' = keyPre k
    · have hw' := m.find_modPos (w.posOf (keyBlock k)) (fun p => { p with pin := n }) hw
      rw [← hp] at hw hw'
      cases hx' : m.exact_.find? (·.key == k') with
      | some e => rw [KeyMap.lookup_exact hx', KeyMap.lookup_exact (m := m.modPos ..) hx']
      | none =>
        rw [KeyMap.lookup_window hx' hw, ← hp, KeyMap.lookup_window (m := m.modPos ..) hx' hw', KWindow.status_setPos_pin, KWindow.setPos_posOf]
        rfl
    · exact KeyMap.lookup_congr rfl (m.find_modPos_ne _ _ hp)
  · rw [KeyMap.setPin_exact n hx]
    by_cases hk : k' = k
    · subst hk
      obtain ⟨e, he⟩ := Option.ne_none_iff_exists'.mp hx
      rw [KeyMap.lookup_exact he, KeyMap.lookup_exact (KeyMap.find_modExact m k' (fun e => { e with pin := n }) (fun _ => rfl) he)]
    · exact KeyMap.lookup_congr (KeyMap.find_modExact_ne m k k' (fun _ => rfl) hk) rfl

theorem KeyMap.pinOf_setPin : (m.setPin k n).pinOf k = n := by
  by_cases hx : m.exact_.find? (·.key == k) = none
  · obtain ⟨w, hw, hst⟩ := KeyMap.window_of_binds h hx
    have hj := KWindow.posOf_lt (KWindow.holds_of_status hst).2
    rw [KeyMap.setPin_window n hx hw, KeyMap.pinOf_window (m := m.modPos ..) hx (m.find_modPos _ _ hw), KWindow.setPos_posOf,
      KWindow.at_setPos w _ hj]
  · obtain ⟨e, he⟩ := Option.ne_none_iff_exists'.mp hx
    rw [KeyMap.setPin_exact n hx, KeyMap.pinOf_exact (KeyMap.find_modExact m k (fun e => { e with pin := n }) (fun _ => rfl) he)]

/-- A key of another slot keeps its pins. -/
theorem KeyMap.pinOf_setPin_ne (hs : (m.lookup k').2 ≠ (m.lookup k).2) : (m.setPin k n).pinOf k' = m.pinOf k' := by
  by_cases hx : m.exact_.find? (·.key == k) = none
  · obtain ⟨w, hw, -⟩ := KeyMap.window_of_binds h hx
    rw [KeyMap.setPin_window n hx hw]
    by_cases hp : keyPre k' = keyPre k
    · have hw' := m.find_modPos (w.posOf (keyBlock k)) (fun p => { p with pin := n }) hw
      rw [KeyMap.lookup_window hx hw] at hs
      rw [← hp] at hw hw'
      cases hx' : m.exact_.find? (·.key == k') with
      | some e => rw [KeyMap.pinOf_exact hx', KeyMap.pinOf_exact (m := m.modPos ..) hx']
      | none =>
        rw [KeyMap.lookup_window hx' hw] at hs
        have hj : w.posOf (keyBlock k') ≠ w.posOf (keyBlock k) := fun he => hs (by rw [he])
        rw [KeyMap.pinOf_window hx' hw, ← hp, KeyMap.pinOf_window (m := m.modPos ..) hx' hw', KWindow.setPos_posOf, KWindow.at_setPos_ne w _ hj]
    · exact KeyMap.pinOf_congr rfl (m.find_modPos_ne _ _ hp)
  · rw [KeyMap.setPin_exact n hx]
    have hk : k' ≠ k := fun he => hs (by rw [he])
    exact KeyMap.pinOf_congr (KeyMap.find_modExact_ne m k k' (fun _ => rfl) hk) rfl

omit n

theorem KeyMap.pin_binds : m.pin k = (m.setPin k (m.pinOf k + 1), 0) := by simp only [KeyMap.pin, KeyMap.bindsKey_iff.mpr h, if_true]

theorem KeyMap.unpin_none (hp : m.pinOf k = 0) : m.unpin k = (m, kFail (m.lookup k).1 (m.lookup k).2 11) := by
  simp only [KeyMap.unpin, KeyMap.bindsKey_iff.mpr h, Bool.not_true, Bool.false_eq_true, if_false, if_pos hp]

theorem KeyMap.unpin_binds (hp : m.pinOf k ≠ 0) : m.unpin k = (m.setPin k (m.pinOf k - 1), 0) := by
  simp only [KeyMap.unpin, KeyMap.bindsKey_iff.mpr h, Bool.not_true, Bool.false_eq_true, if_false, if_neg hp]

/-- A pin, put or taken, changes no resolution and no pin of a key of another slot. -/
theorem KeyMap.pins_frame {u : KeyMap × Word} (hu : u ∈ [m.pin k, m.unpin k]) :
    (∀ k', u.1.lookup k' = m.lookup k') ∧ ∀ k', (m.lookup k').2 ≠ (m.lookup k).2 → u.1.pinOf k' = m.pinOf k' := by
  have hs : u.1 = m ∨ ∃ n, u.1 = m.setPin k n := by
    rcases List.mem_pair.mp hu with rfl | rfl
    · exact .inr ⟨_, by rw [KeyMap.pin_binds h]⟩
    · by_cases hp : m.pinOf k = 0
      · exact .inl (by rw [KeyMap.unpin_none h hp])
      · exact .inr ⟨_, by rw [KeyMap.unpin_binds h hp]⟩
  obtain hs | ⟨n, hs⟩ := hs <;> rw [hs]
  · exact ⟨fun _ => rfl, fun _ _ => rfl⟩
  · exact ⟨KeyMap.lookup_setPin n h, fun k' => KeyMap.pinOf_setPin_ne n h⟩
end

theorem KeyMap.pins_absent {m : KeyMap} {k : BitVec 56} (h : (m.lookup k).1 = stMISS ∨ (m.lookup k).1 = stGAP) :
    m.pin k = (m, kFail (m.lookup k).1 (m.lookup k).2 6) ∧ m.unpin k = (m, kFail (m.lookup k).1 (m.lookup k).2 6) := by
  simp [KeyMap.pin, KeyMap.unpin, KeyMap.not_bindsKey h]

/-! ## `kscan` (R274) -/

section
variable {m : KeyMap}

/-- A slot that `kscan` takes: of a VALID EXACT entry with no pin. -/
theorem any_fits_iff (l : List KExact) (sl : Nat) : (l.any fun e => e.slot == sl && e.valid && e.pin == 0) = true ↔
    ∃ e ∈ l, e.slot = sl ∧ e.valid = true ∧ e.pin = 0 := by simp [and_assoc]

/-- The first element of a list of values of a range that fits. -/
theorem find_map_range {f : Nat → Nat} {p : Nat → Bool} {n i : Nat} (hi : i < n) (hp : p (f i) = true) (hj : ∀ j, j < i → p (f j) = false) :
    ((List.range n).map f).find? p = some (f i) := by
  have h : (List.range n).find? (p ∘ f) = some i := by
    rw [List.find?_range_eq_some]
    exact ⟨hp, by simpa using hi, fun j hlt => by simp [hj j hlt]⟩
  rw [List.find?_map, h]
  rfl

theorem KeyMap.scan_takes {i : Nat} (hi : i < m.slots)
    (hf : ∃ e ∈ m.exact_, e.slot = (m.hand.toNat + i) % m.slots ∧ e.valid = true ∧ e.pin = 0)
    (hj : ∀ j, j < i → ¬∃ e ∈ m.exact_, e.slot = (m.hand.toNat + j) % m.slots ∧ e.valid = true ∧ e.pin = 0) :
    m.scan = ({ m with hand := BitVec.ofNat 12 (((m.hand.toNat + i) % m.slots + 1) % m.slots) }, kStatus stHIT ((m.hand.toNat + i) % m.slots)) := by
  rw [← any_fits_iff] at hf
  simp only [← any_fits_iff, Bool.not_eq_true] at hj
  simp only [KeyMap.scan]
  rw [find_map_range (f := fun i => (m.hand.toNat + i) % m.slots) (p := fun sl => m.exact_.any fun e => e.slot == sl && e.valid && e.pin == 0) hi hf hj]

theorem KeyMap.scan_none (h : ∀ i, i < m.slots → ¬∃ e ∈ m.exact_, e.slot = (m.hand.toNat + i) % m.slots ∧ e.valid = true ∧ e.pin = 0) :
    m.scan = (m, 0) := by
  simp only [← any_fits_iff] at h
  simp only [KeyMap.scan]
  rw [List.find?_eq_none.mpr]
  intro sl hsl
  obtain ⟨i, hi, rfl⟩ := List.mem_map.mp hsl
  exact h i (List.mem_range.mp hi)
end

/-! ## `kwin` (R277) -/

section
variable {m : KeyMap} {p : W32} {h : BitVec 24} {w base : Nat}

theorem KeyMap.window_taken (hp : m.wins.any (·.prefix32 == p) = true) : m.window p h w base = (m, kFail stMISS base 1) := by
  simp only [KeyMap.window, hp, if_true]; rfl

variable (hp : m.wins.any (·.prefix32 == p) = false)
include hp

theorem KeyMap.window_beyond (hs : m.slots < base + w) : m.window p h w base = (m, kFail stMISS base 7) := by
  simp only [KeyMap.window, hp, Bool.false_eq_true, if_false, if_pos hs]; rfl

variable (hs : base + w ≤ m.slots)
include hs

theorem KeyMap.window_bound {i : Nat} (hi : i < w) (hb : m.bound (base + i) = true) (hj : ∀ j, j < i → m.bound (base + j) = false) :
    m.window p h w base = (m, kFail stMISS (base + i) 2) := by
  have hf : (List.range w).find? (fun i => m.bound (base + i)) = some i := by
    rw [List.find?_range_eq_some]
    exact ⟨hb, by simpa using hi, fun j hlt => by simp [hj j hlt]⟩
  simp only [KeyMap.window, hp, Bool.false_eq_true, if_false, if_neg (Nat.not_lt.mpr hs), hf]
  rfl

variable (hb : ∀ i, i < w → m.bound (base + i) = false)
include hb

theorem KeyMap.window_full (hu : 1024 ≤ m.inUse) : m.window p h w base = (m, kFail stMISS base 3) := by
  have hf : (List.range w).find? (fun i => m.bound (base + i)) = none := by simpa using hb
  simp only [KeyMap.window, hp, Bool.false_eq_true, if_false, if_neg (Nat.not_lt.mpr hs), hf, if_pos hu]
  rfl

/-- The WINDOW entry that `kwin` creates. -/
def freshWindow (p : W32) (h : BitVec 24) (w base : Nat) : KWindow :=
  { prefix32 := p, base := base, head := h, pos := List.replicate w { tag := 0, st := 0, pin := 0 } }

theorem KeyMap.window_done (hu : m.inUse < 1024) : m.window p h w base = ({ m with wins := m.wins ++ [freshWindow p h w base] }, 0) := by
  have hf : (List.range w).find? (fun i => m.bound (base + i)) = none := by simpa using hb
  simp only [KeyMap.window, hp, Bool.false_eq_true, if_false, if_neg (Nat.not_lt.mpr hs), hf, if_neg (Nat.not_le.mpr hu)]
  rfl
end

section
variable {m : KeyMap} {k : BitVec 56} (p : W32) (h : BitVec 24) (w base : Nat)

/-- The map with a fresh window. -/
def KeyMap.withWindow (m : KeyMap) (p : W32) (h : BitVec 24) (w base : Nat) : KeyMap := { m with wins := m.wins ++ [freshWindow p h w base] }

theorem freshWindow_at (i : Nat) : (freshWindow p h w base).at_ i = { tag := 0, st := posInvalid, pin := 0 } := by
  rw [KWindow.at_, freshWindow, List.getD_eq_getElem?_getD, List.getElem?_replicate]
  split <;> rfl

theorem freshWindow_posOf (b : BitVec 24) : (freshWindow p h w base).posOf b = b.toNat % w := by simp [KWindow.posOf, freshWindow]

theorem KeyMap.bound_withWindow {i : Nat} (hi : i < w) : (m.withWindow p h w base).bound (base + i) = true := by
  simp [KeyMap.bound, KeyMap.withWindow, freshWindow, hi]

theorem KeyMap.inUse_withWindow : (m.withWindow p h w base).inUse = m.inUse + 1 := by simp [KeyMap.inUse, KeyMap.withWindow, Nat.add_assoc]

variable {p}

theorem KeyMap.find_withWindow (hp : m.wins.any (·.prefix32 == p) = false) :
    (m.withWindow p h w base).wins.find? (·.prefix32 == p) = some (freshWindow p h w base) := by
  have hn : m.wins.find? (·.prefix32 == p) = none := by simpa using hp
  rw [KeyMap.withWindow, List.find?_append, hn]
  simp [freshWindow]

theorem KeyMap.find_withWindow_ne {q : W32} (hq : q ≠ p) : (m.withWindow p h w base).wins.find? (·.prefix32 == q) = m.wins.find? (·.prefix32 == q) := by
  rw [KeyMap.withWindow, List.find?_append]
  simp [freshWindow, hq.symm]

/-- A fresh window holds no block. -/
theorem KeyMap.lookup_withWindow (hp : m.wins.any (·.prefix32 == p) = false) (hx : m.exact_.find? (·.key == k) = none) (hk : keyPre k = p) :
    (m.withWindow p h w base).lookup k =
      (if (keyBlock k - h - 1).toNat ≠ 0 ∧ (keyBlock k - h - 1).toNat < 2 ^ 23 then stGAP else stMISS, base + (keyBlock k).toNat % w) := by
  subst hk
  rw [KeyMap.lookup_window (m := m.withWindow ..) hx (KeyMap.find_withWindow h w base hp), freshWindow_posOf,
    KWindow.status_absent (.inr (by rw [freshWindow_at]))]
  rfl

/-- The first claim is of the block behind its head. -/
theorem KeyMap.claim_withWindow (hp : m.wins.any (·.prefix32 == p) = false) (hx : m.exact_.find? (·.key == k) = none) (hk : keyPre k = p)
    (hb : keyBlock k = h + 1) : ((m.withWindow p h w base).claim k (BitVec.allOnes 64)).2 = 0 := by
  have hd : (keyBlock k - h - 1).toNat = 0 := by rw [hb]; bv_omega
  have hm := KeyMap.lookup_withWindow h w base hp hx hk
  rw [hd] at hm
  subst hk
  rw [KeyMap.claim_window (KeyMap.find_withWindow h w base hp) (by rw [hm]; rfl) (lt_of_eq_of_lt hd (by decide)) (by rw [freshWindow_at])]

/-- Every other key resolves as it did. -/
theorem KeyMap.lookup_withWindow_ne (hk : m.exact_.find? (·.key == k) ≠ none ∨ keyPre k ≠ p) : (m.withWindow p h w base).lookup k = m.lookup k := by
  cases hx : m.exact_.find? (·.key == k) with
  | some e => rw [KeyMap.lookup_exact hx, KeyMap.lookup_exact (m := m.withWindow ..) hx]
  | none => exact KeyMap.lookup_congr rfl (KeyMap.find_withWindow_ne h w base (hk.resolve_left (not_not.mpr hx)))
end

end Sys2Proof.Machine

open Sys2Proof Sys2Proof.Machine

/-- Settles O32, operation by operation: what a key resolves to rests on the entry and the window that its search finds, and each operation is
one change of these. -/
theorem keyMapLifeCycle : Obligations.KeyMapLifeCycle := by
  intro m k c x ones l b ex wi
  refine ⟨fun _ _ _ hst hr hs => kFail_fields hst hr hs, fun e h => KeyMap.lookup_exact h, KeyMap.lookup_miss, ?_, KeyMap.lookup_claim_slot,
    ?_, KeyMap.claim_window_none, ?_, KeyMap.lookup_ready, KeyMap.head_ready, KeyMap.ready_idle, m.pinOf_ready k,
    fun h => ⟨KeyMap.unbind_absent h, KeyMap.pins_absent h⟩, KeyMap.unbind_window, ?_, KeyMap.any_unbind, fun k' => KeyMap.find_unbind_ne, ?_, ?_, ?_, ?_, ?_⟩
  case refine_1 =>
    intro w hx hw j p d
    have hl : l = (w.status b, w.base + j) := KeyMap.lookup_window hx hw
    rw [hl]
    exact ⟨fun ht hv => by rw [KWindow.status_valid ht hv], fun ht hv => by rw [KWindow.status_busy ht hv],
      fun ha => by rw [KWindow.status_absent ha]⟩
  case refine_2 =>
    exact fun hc => ⟨KeyMap.claim_slot_taken hc, fun hx => ⟨KeyMap.claim_slot_beyond hc hx, fun hs => ⟨KeyMap.claim_slot_bound hc hx hs, fun hb =>
      ⟨KeyMap.claim_slot_full hc hx hs hb, fun hu => by rw [KeyMap.claim_slot hc hx hs hb hu]⟩⟩⟩⟩
  case refine_3 =>
    intro w hw j d
    refine ⟨KeyMap.claim_window_held hw, KeyMap.claim_window_gap hw, fun hm => ⟨KeyMap.claim_window_older hw hm, fun hd =>
      ⟨KeyMap.claim_window_pinned hw hm hd, fun hp hl => ?_⟩⟩⟩
    rw [KeyMap.claim_window hw hm hd hp]
    exact ⟨rfl, KeyMap.lookup_claimed hw hl (KeyMap.exact_none (.inl hm)), fun k' => KeyMap.not_binds_claimed hw hl, fun k' => KeyMap.lookup_claimed_ne hw⟩
  case refine_4 =>
    intro e hx
    refine ⟨KeyMap.unbind_busy hx, fun hv hp => ?_, fun hv hp => ?_⟩
    · rw [KeyMap.unbind_valid hx hv, if_pos hp]
    · rw [KeyMap.unbind_valid hx hv, if_neg (not_not.mpr hp)]
  case refine_5 =>
    intro h
    rw [KeyMap.inv_exact h]
    exact ⟨any_key_filter _ _, rfl, fun k' => find_key_filter _⟩
  case refine_6 =>
    intro h
    rw [KeyMap.inv_window h]
    exact ⟨any_prefix_filter _ _, rfl, fun p => find_prefix_filter _⟩
  case refine_7 =>
    intro h
    refine ⟨fun u => KeyMap.pins_frame h, by rw [KeyMap.pin_binds h], by rw [KeyMap.pin_binds h, KeyMap.pinOf_setPin _ h], KeyMap.unpin_none h, fun hp => ?_⟩
    rw [KeyMap.unpin_binds h hp]
    exact ⟨rfl, KeyMap.pinOf_setPin _ h⟩
  case refine_8 => exact ⟨fun i => KeyMap.scan_takes, KeyMap.scan_none⟩
  case refine_9 =>
    intro p h w base u
    refine ⟨KeyMap.window_taken, fun hp => ⟨KeyMap.window_beyond hp, fun hs => ⟨fun i => KeyMap.window_bound hp hs, fun hb =>
      ⟨KeyMap.window_full hp hs hb, fun hu => ?_⟩⟩⟩⟩
    have hu' : u = (m.withWindow p h w base, 0) := KeyMap.window_done hp hs hb hu
    rw [hu']
    exact ⟨rfl, KeyMap.inUse_withWindow p h w base, fun i => KeyMap.bound_withWindow p h w base, fun hx hk =>
      ⟨KeyMap.lookup_withWindow h w base hp hx hk, KeyMap.claim_withWindow h w base hp hx hk⟩, KeyMap.lookup_withWindow_ne h w base⟩
end

section
/-! O31: `kready` in a state whose commit takes the shadow bank away (R141, R254, R270, R349). -/

namespace Sys2Proof.Machine

theorem exec_kready {s : State} {a : RF} (h : endsAt (.kready a) s) (hr : released s) : exec (.kready a) s =
    .next (kreadyOp (s.rdG a) (s.committed (.kready a))) := congrArg Host.Outcome.next (runR_ends _ _ h rfl (unheld_holdRelease hr))

/-- A near store to core 1's scratchpad, whose protection unit admits nothing at reset. -/
def refusedStore : StoreRec :=
  { ptr := spPtr 0 1 0, given := spPtr 0 1 0, bytes := [0], keys := [spKey 1 0], near := true, tso := false, sc := false, phys := [] }

/-- A helper of core 0 in its handler, whose chunk holds the store: the shadow register behind g48 holds 6, a key that is BUSY, and its own
g48 holds 0. The commit ends the helper, and its bank goes with it. -/
def handlerCommitting : State :=
  let km : KeyMap := { KeyMap.zero with exact_ := [{ key := 6, slot := 1, valid := false, pin := 0 }] }
  let s := State.reset.modCore 0 fun k => { k with holder := some 1, h := vset k.h 0 6, km := km }
  let s := s.modCtx 0 1 fun x => { x with st := .handler, chunk := some { freshChunk x.a (Vector.replicate 16 0) 0 with buf := [refusedStore] } }
  { s with iss := { core := 0, slot := 1, bundle := 0, pc := 0, src := none, srcH := Vector.replicate 16 0, srcSh := 0, first := 0, fate := .issued } }

theorem handlerCommitting_ends : endsAt (.kready 48) handlerCommitting := by unfold endsAt runsC mayCommit; decide +kernel

theorem handlerCommitting_released : released handlerCommitting := by unfold released; decide +kernel

/-- The key made ready is the one of the shadow register at issue, 6; after the commit the field names the helper's own g48. -/
theorem handlerCommitting_kready : let m := handlerCommitting.committed (.kready 48)
    (kreadyOp (handlerCommitting.rdG 48) m).mine.km.lookup 6 = (stHIT, 1) ∧
    (m.setKm (m.mine.km.ready (keyOf (m.rdG 48)))).advance.mine.km.lookup 6 = (stBUSY, 1) := by decide +kernel

end Sys2Proof.Machine

open Sys2Proof Sys2Proof.Machine

/-- Refutes O31: the statement has `kready` make ready the key that its register field names after the commit. The model reads the register at
issue, and a commit that ends the context, here a handler's with a near store that another core refuses, takes from the field the
shadow register that it named. -/
theorem not_keyMapResults : ¬ Obligations.KeyMapResults := by
  intro h
  obtain ⟨-, -, hready, -⟩ := h 48 0 0 0 0 0 0 0 handlerCommitting
  have hstated := hready _ (List.mem_cons_self ..) handlerCommitting_ends fun _ => handlerCommitting_released
  have hexec := exec_kready handlerCommitting_ends handlerCommitting_released
  have hsame := Host.Outcome.next.inj (hexec.symm.trans hstated)
  obtain ⟨hHit, hBusy⟩ := handlerCommitting_kready
  have hlook := hHit.symm.trans (congrArg (fun t : State => t.mine.km.lookup 6) hsame)
  exact absurd (hlook.trans hBusy) (by decide)
end

section
/-! O33: the ring words (R281, R283, R285, R188). -/

namespace Sys2Proof.Machine

/-! ## Rings and requests under the state's operations -/

theorem Core.ring_setRing (k : Core) {j : Nat} (r : Ring) (hj : j < 32) : (k.setRing j r).ring j = r := vget_vset_same _ _ _ _ hj

theorem State.wrG_rings (s : State) (r : RF) (x : Word) : (s.wrG r x).mine.rings = s.mine.rings := by
  unfold State.wrG
  split
  · rw [State.mine_modMine]
  · show (s.modCore s.iss.core fun k => k.setCtx s.iss.slot _).mine.rings = _
    rw [State.mine_modCore_iss]
    rfl

theorem req_of_net {s t : State} (h : t.net = s.net) (id : Nat) : t.req id = s.req id := by rw [State.req, State.req, h]

/-- The request that `modReq` changes. -/
theorem req_modReq (s : State) (id : Nat) (f : Req → Req) (hf : ∀ r, (f r).id = r.id) : (s.modReq id f).req id = (s.req id).map f := by
  have hid (r : Req) : (if r.id = id then f r else r).id = r.id := by
    by_cases h : r.id = id
    · rw [if_pos h, hf]
    · rw [if_neg h]
  rw [State.req, State.modReq, List.find?_map]
  simp only [Function.comp_def, hid]
  cases h : s.net.find? fun r => r.id == id with
  | none => rw [State.req, h]; rfl
  | some r =>
    have hr : r.id = id := by simpa using List.find?_some h
    rw [State.req, h]
    simp [hr]

theorem net_fillWindow (s : State) : s.fillWindow.net = s.net := by
  unfold State.fillWindow
  refine foldl_keeps State.net _ (fun b a => ?_) _ _
  split
  · rfl
  · split
    · rfl
    · rw [net_leaveCore]

/-- What the issuer of a request finds once it is answered. -/
theorem req_answer (s : State) (id : Nat) (a : Reply) : (s.answer id a).req id = (s.req id).map fun r => { r with reply := a } := by
  rw [← req_modReq s id (fun r => { r with reply := a }) fun _ => rfl]
  apply req_of_net
  unfold State.answer
  dsimp only
  split
  · split
    · rw [net_fillWindow]; rfl
    · rfl
  · rfl

theorem req_send {s : State} {id : Nat} (r : Req) (hid : r.id = id) (h : s.req id = none) : (s.send r).req id = some r := by
  rw [State.req] at h
  rw [State.req, net_send, List.find?_append, h, Option.none_or, List.find?_singleton, if_pos (beq_iff_eq.mpr hid)]

/-- A request just sent is not answered. -/
theorem req_sendOp {s : State} {ord ret : Bool} {q : Word} {body : Body} {given : Option Word} (h : s.req s.nextId = none) :
    ((sendOp s ord ret q body given).req s.nextId).map (·.reply) = some .none := by
  change ((s.send _).req s.nextId).map (·.reply) = _
  rw [req_send _ ?hid h]
  case hid => rfl
  rfl

/-! ## `rpush`, `rrel` and `rset` -/

section
variable {i : Instr} {s m : State} {op : RingOp} {x y : Word} {idx : Nat} {e : Vector Word 8} {sh : Option (Vector Word 8)}

/-- An operation on a ring changes that ring, and `rset` empties the latches of it (R325). -/
def ringChanged (m : State) (op : RingOp) (idx : Nat) (y : Word) (e : Vector Word 8) (sh : Option (Vector Word 8)) : State :=
  m.modCore m.iss.core fun k => (if op = .set then k.forget (rnNum e) else k).setRing (rnNum e)
    ((k.ring (rnNum e)).op m.devId m.iss.core op idx m.tenant y e sh).1

theorem ringAt_own : (ringAt m m.iss.core (rnNum e) op idx m.tenant y e sh).1 =
    if op = .set ∧ m.mine.rwait ≠ [] then dropUnbound (ringChanged m op idx y e sh) m.iss.core (rnNum e) else ringChanged m op idx y e sh := by
  have hset : (op == .set) = decide (op = .set) := rfl
  simp only [ringAt, ringChanged, hset, Bool.and_eq_true, decide_eq_true_eq, Bool.not_eq_true', List.isEmpty_eq_false_iff]
  rfl

theorem unheld_ringHold (hr : ownRing (s.committed i) e = true → op ≠ .set → released s) : unheld (ringHold op e) s := by
  have hown : ownRing (s.committed i) e = ownRing s.opened e := by
    simp only [ownRing, rnDevOf, committed_devId, committed_iss, State.opened_devId, State.opened_iss]
  have hown' : ownRing (commitChunk s.opened s.iss.core s.iss.slot).1 e = ownRing s.opened e := by
    have hf := fixed_commitChunk s.opened s.iss.core s.iss.slot
    have hdev : (commitChunk s.opened s.iss.core s.iss.slot).1.devId = s.opened.devId := congrArg (·.2.1) hf
    have hiss : (commitChunk s.opened s.iss.core s.iss.slot).1.iss = s.opened.iss := congrArg (·.1) hf
    simp only [ownRing, rnDevOf, hdev, hiss]
  by_cases hc : (ownRing s.opened e && op != .set) = true
  · have hc' := hc
    rw [Bool.and_eq_true, bne_iff_ne] at hc
    obtain ⟨h0, h1⟩ := unheld_holdRelease (hr (hown.trans hc.1) hc.2)
    exact ⟨(if_pos hc').trans h0, (if_pos (by rw [hown']; exact hc')).trans h1⟩
  · exact ⟨if_neg hc, if_neg (by rw [hown']; exact hc)⟩

/-- A ring word whose checks pass is performed in the state that its commit leaves. -/
theorem ringPost_ends (hu : ringUse (walkRing i s op (objIdx x)) op (objIdx x) = .ok e)
    (hs : op = .set → ringCapture (walkRing i s op (objIdx x)) e = .ok sh) (hn : op ≠ .set → sh = none)
    (h : endsAt i (walkRing i s op (objIdx x))) (hh : unheld (ringHold op e) (walkRing i s op (objIdx x))) :
    ringPost i s op x y = ringPostOp op (objIdx x) y e sh ((walkRing i s op (objIdx x)).committed i) := by
  have hsh : (if (op == .set) = true then ringCapture (walkRing i s op (objIdx x)) e else .ok none) = .ok sh := by
    by_cases hop : op = .set
    · rw [if_pos (beq_iff_eq.mpr hop), hs hop]
    · rw [if_neg (by rwa [beq_iff_eq]), hn hop]
  simp only [ringPost, hu, valOf, hsh]
  exact runR_ends _ _ h rfl hh

theorem ringPostOp_own (ho : ownRing m e = true) : ringPostOp op idx y e sh m =
    (if op = .set ∧ m.mine.rwait ≠ [] then dropUnbound (ringChanged m op idx y e sh) m.iss.core (rnNum e)
      else ringChanged m op idx y e sh).advance := by
  rw [ringPostOp, if_pos ho, ringAt_own]

theorem ringPostOp_elsewhere (ho : ownRing m e = false) : ringPostOp op idx y e sh m =
    (sendOp m true false (ringDest m e) (ringBody m op idx y e sh) none).advance :=
  if_neg (by rw [ho]; exact Bool.false_ne_true)
end

/-- What the posting words do, at the own ring and at another's. -/
theorem ringPost_results {i : Instr} {s : State} {op : RingOp} {x y : Word} (hex : exec i s = .next (ringPost i s op x y)) :
    let u := walkRing i s op (objIdx x); let m := u.committed i
    ∀ e sh, ringUse u op (objIdx x) = .ok e → (op = .set → ringCapture u e = .ok sh) → (op ≠ .set → sh = none) → endsAt i u →
      (ownRing m e = true → (op ≠ .set → released u) → exec i s = .next (if op = .set ∧ m.mine.rwait ≠ [] then
        dropUnbound (ringChanged m op (objIdx x) y e sh) m.iss.core (rnNum e) else ringChanged m op (objIdx x) y e sh).advance) ∧
      (ownRing m e = false → exec i s = .next (sendOp m true false (ringDest m e) (ringBody m op (objIdx x) y e sh) none).advance) := by
  intro u m e sh hu hs hn h
  refine ⟨fun ho hr => ?_, fun ho => ?_⟩
  · rw [hex, ringPost_ends hu hs hn h (unheld_ringHold (i := i) fun _ => hr), ringPostOp_own ho]
  · have hh : unheld (ringHold op e) u := unheld_ringHold (i := i) fun ho' => absurd (ho.symm.trans ho') Bool.false_ne_true
    rw [hex, ringPost_ends hu hs hn h hh, ringPostOp_elsewhere ho]

/-! ## A request for a ring that is bound to another object -/

section
variable {t : State} {k : CoreId} {id : Nat} {r : Req} {op : RingOp} {obj : BitVec 16} {x : Word} {e : Vector Word 8}
  {sh : Option (Vector Word 8)} {d : BitVec 10} (hr : t.req id = some r) (hb : r.body = .ring op k d obj x e sh)
include hr hb

/-- It fails in the ring-wait table (R281). -/
theorem dropUnbound_fails (hne : ((t.core k).ring (rnNum e)).obj ≠ some obj) (hw : (t.core k).rwait = [id]) : dropUnbound t k (rnNum e) =
    (t.answer id (.err eBind 0 (Config.ringPtr obj.toNat))).modCore k fun y => { y with rwait := [] } := by
  have hgone : (((t.core k).ring (rnNum e)).obj != some obj) = true := by rwa [bne_iff_ne]
  simp only [dropUnbound, hw, List.filterMap_cons, List.filterMap_nil, hr, hb, Option.map_some, hgone, Bool.and_true, decide_true, if_true,
    List.foldl_cons, List.foldl_nil, State.modCore, answer_core, List.filter_cons, List.any_cons, List.any_nil, beq_self_eq_true, Bool.true_or,
    Bool.not_true, Bool.false_eq_true, if_false, List.filter_nil]

/-- One that names the object of the ring stays there. -/
theorem dropUnbound_keeps (he : ((t.core k).ring (rnNum e)).obj = some obj) (hw : (t.core k).rwait = [id]) :
    dropUnbound t k (rnNum e) = t.modCore k fun y => y := by
  have hkeep : (((t.core k).ring (rnNum e)).obj != some obj) = false := by simp [he]
  have hself : { t.core k with rwait := [id] } = t.core k := by rw [← hw]
  simp only [dropUnbound, hw, List.filterMap_cons, List.filterMap_nil, hr, hb, Option.map_some, hkeep, Bool.and_false, Bool.false_eq_true, if_false,
    List.foldl_nil, State.modCore, List.filter_cons, List.any_nil, Bool.not_false, if_true, List.filter_nil, hself]

/-- It fails as it reaches the head of the service queue (R281). -/
theorem settleHead_fails (hop : op = .claim ∨ op = .wait) (hne : ((t.core k).ring (rnNum e)).obj ≠ some obj) (hq : (t.core k).svcq = [id]) :
    settleHead t k = (t.answer id (.err eBind 0 (Config.ringPtr obj.toNat))).modCore k fun y => y.dropSvc id := by
  have hun : ringUnbound t r = some obj := by
    have hc : ((op == .claim || op == .wait) && ((t.core k).ring (rnNum e)).obj != some obj) = true := by
      rw [Bool.and_eq_true, bne_iff_ne]
      exact ⟨by rcases hop with rfl | rfl <;> rfl, hne⟩
    simp only [ringUnbound, hb, ringOf, hc, if_true]
  simp only [settleHead, hq, moveHeads, hr, hun]
end

/-! ## `rclaim` and `rwait` -/

section
variable {i : Instr} {s m : State} {op : RingOp} {a : RF} {x lim : Word} {idx : Nat} {e : Vector Word 8} {tag : BitVec 8}

/-- The wait of a ring word: the index, the number of the ring, and the tag of its slot pointers. -/
def ringWaiting (i : Instr) (idx : Nat) (e : Vector Word 8) (tag : BitVec 8) (lim : Word) (m : State) : Wait :=
  m.newWait i [BitVec.ofNat 64 idx, BitVec.ofNat 64 (rnNum e), tag.setWidth 64] (limitOf lim)

/-- What the word begins with: a wait at the own ring, or a request and a wait for its reply. -/
def ringBegin (i : Instr) (op : RingOp) (idx : Nat) (e : Vector Word 8) (tag : BitVec 8) (lim : Word) (m : State) : State × Wait :=
  if ownRing m e then (m, ringWaiting i idx e tag lim m)
  else (sendOp m false true (ringDest m e) (ringBody m op idx (tag.setWidth 64) e none) none,
    { ringWaiting i idx e tag lim m with req := some m.nextId })

theorem ringWait_ends (hu : ringUse (walkRing i s op (objIdx x)) op (objIdx x) = .ok e)
    (ht : ringShape (walkRing i s op (objIdx x)) e = .ok tag) (h : endsAt i (walkRing i s op (objIdx x))) :
    ringWait i s op a x lim = let b := ringBegin i op (objIdx x) e tag lim ((walkRing i s op (objIdx x)).committed i)
      beginWait b.1 b.2 (doneRing op a) := by
  simp only [ringWait, hu, ht, valOf]
  exact runEW_ends _ _ h rfl

theorem ringBegin_elsewhere (ho : ownRing m e = false) : ringBegin i op idx e tag lim m =
    (sendOp m false true (ringDest m e) (ringBody m op idx (tag.setWidth 64) e none) none,
      { ringWaiting i idx e tag lim m with req := some m.nextId }) := if_neg (by rw [ho]; exact Bool.false_ne_true)

theorem ringBegin_own (ho : ownRing m e = true) : ringBegin i op idx e tag lim m = (m, ringWaiting i idx e tag lim m) := if_pos ho

/-- A wait for the reply of a request that is not answered goes on. -/
theorem doneRing_unanswered {w : Wait} {id : Nat} (hw : w.req = some id) (hr : (s.req id).map (·.reply) = some .none) : doneRing op a s w = none := by
  simp only [doneRing, hw, hr]

/-- The number of a ring, and the index of its object, as the wait holds them. -/
theorem rnNum_ofNat (e : Vector Word 8) : (BitVec.ofNat 64 (rnNum e)).toNat = rnNum e := by
  have h : rnNum e < 2 ^ 5 := Nat.mod_lt _ (by decide)
  rw [BitVec.toNat_ofNat, Nat.mod_eq_of_lt (by omega)]

theorem objIdx_objIdx (x : Word) : objIdx (BitVec.ofNat 64 (objIdx x)) = objIdx x := by
  simp only [objIdx, BitVec.toNat_ofNat]
  omega

theorem doneRing_own : doneRing op a m (ringWaiting i (objIdx x) e tag lim m) =
    if (m.mine.ring (rnNum e)).ready op = true then
      some ((ringAt m m.iss.core (rnNum e) op (objIdx x) m.tenant (tag.setWidth 64) noEntry none).1.wrG a
        (ringAt m m.iss.core (rnNum e) op (objIdx x) m.tenant (tag.setWidth 64) noEntry none).2)
    else none := by
  have hj : ((ringWaiting i (objIdx x) e tag lim m).vals.getD 1 0).toNat = rnNum e := rnNum_ofNat e
  have hi : objIdx ((ringWaiting i (objIdx x) e tag lim m).vals.headD 0) = objIdx x := objIdx_objIdx x
  have hn : (ringWaiting i (objIdx x) e tag lim m).req = none := rfl
  simp only [doneRing, hn, hj, hi]
  rfl

/-- What a claim or a wait leaves of its ring and of memory. -/
theorem ringAt_ring (hop : op ≠ .set) (hj : rnNum e < 32) (z : Word) (v : Word) :
    ((ringAt m m.iss.core (rnNum e) op idx m.tenant v noEntry none).1.wrG a z).mine.ring (rnNum e) =
      ((m.mine.ring (rnNum e)).op m.devId m.iss.core op idx m.tenant v noEntry none).1 ∧
    ((ringAt m m.iss.core (rnNum e) op idx m.tenant v noEntry none).1.wrG a z).mem = m.mem := by
  have hset : (op == .set) = false := by rwa [beq_eq_false_iff_ne]
  simp only [ringAt, hset, Bool.false_and, Bool.false_eq_true, if_false, State.wrG_mem, State.modCore_mem, and_true]
  rw [Core.ring, State.wrG_rings]
  exact (congrArg (Core.ring · _) (State.core_modCore m _ _)).trans (Core.ring_setRing _ _ hj)
end

/-- What the waiting words do, at the own ring and at another's. -/
theorem ringWait_results {i : Instr} {s : State} {op : RingOp} {a : RF} {x lim : Word} (hop : op ≠ .set)
    (hex : exec i s = .next (ringWait i s op a x lim)) :
    let idx := objIdx x; let u := walkRing i s op idx; let m := u.committed i
    ∀ e tag, ringUse u op idx = .ok e → ringShape u e = .ok tag → endsAt i u →
      (ownRing m e = false → m.req m.nextId = none → ∃ w : Wait, w.i = i ∧ w.left = limitOf lim ∧ w.req = some m.nextId ∧
        exec i s = .next (park (sendOp m false true (ringDest m e) (ringBody m op idx (tag.zeroExtend 64) e none) none) w)) ∧
      (ownRing m e = true → (((m.mine.ring (rnNum e)).ready op = true → rnNum e < 32 → ∃ t, exec i s = .next (State.advance t) ∧
          t.mine.ring (rnNum e) = ((m.mine.ring (rnNum e)).op m.devId m.iss.core op idx m.tenant (tag.zeroExtend 64) noEntry none).1 ∧
          t.mem = m.mem) ∧
        ((m.mine.ring (rnNum e)).ready op = false → rnNum e < 32 → ∃ w : Wait, exec i s = .next (park m w) ∧ w.i = i ∧ w.left = limitOf lim))) := by
  intro idx u m e tag hu ht h
  rw [hex, ringWait_ends hu ht h]
  refine ⟨fun ho hid => ?_, fun ho => ⟨fun hready hj => ?_, fun hready _ => ?_⟩⟩
  · rw [ringBegin_elsewhere ho, beginWait_park (doneRing_unanswered rfl (req_sendOp hid))]
    exact ⟨_, rfl, rfl, rfl, rfl⟩
  · rw [ringBegin_own ho, beginWait_done (doneRing_own.trans (if_pos hready))]
    exact ⟨_, rfl, ringAt_ring hop hj _ _⟩
  · rw [ringBegin_own ho, beginWait_park (doneRing_own.trans (if_neg (by rw [hready]; exact Bool.false_ne_true)))]
    exact ⟨_, rfl, rfl, rfl⟩

end Sys2Proof.Machine

open Sys2Proof Sys2Proof.Machine

/-- Settles O33: the posting words and the waiting words each by one lemma over the operation. -/
theorem ringResults : Obligations.RingResults := by
  intro a b c s
  refine ⟨List.forall_mem_cons.mpr ⟨ringPost_results rfl, List.forall_mem_cons.mpr ⟨ringPost_results rfl, List.forall_mem_cons.mpr
    ⟨ringPost_results rfl, List.forall_mem_nil _⟩⟩⟩, ?_, List.forall_mem_cons.mpr ⟨ringWait_results nofun rfl, List.forall_mem_cons.mpr
    ⟨ringWait_results nofun rfl, List.forall_mem_nil _⟩⟩⟩
  intro t k id r op obj x e sh hr hb hop u
  refine ⟨fun hne => ⟨dropUnbound_fails hr hb hne, settleHead_fails hr hb hop hne, mem_answer .., ?_⟩, dropUnbound_keeps hr hb⟩
  rw [req_answer, hr]
  rfl
end

section
/-! O34: the indices of a ring (R281, R283, R284). -/

open Sys2Proof Sys2Proof.Machine

/-- Settles O34: `Ring.op` by its cases. -/
theorem ringIndices : Obligations.RingIndices := by
  intro r dev c i t x e sh f
  have hpush : f .push = r.push := rfl
  have hrel : f .rel = r.rel := rfl
  refine ⟨⟨rfl, rfl, rfl, rfl⟩, fun h => ?_, fun h => if_pos h, ⟨rfl, rfl⟩, fun h => ?_, fun h => if_pos h, ⟨rfl, rfl, rfl, rfl, rfl⟩, rfl, ?_, ?_⟩
  · rw [hpush, Ring.push, if_neg h]
    exact ⟨rfl, rfl, by dsimp only; ring⟩
  · rw [hrel, Ring.rel, if_neg h]
  · simp [Ring.ready]
  · simp [Ring.ready]
end

section
/-! O36: mailbox counters (R298, R299), and `rstat` of a bound ring (R284). -/

namespace Sys2Proof.Machine

/-! ## `mbinc` and `mbset` -/

section
variable {i : Instr} {s : State} {op : MbOp} {p x : Word}

theorem mbCheck_ok (u : State) (h : mbOk p = true) : mbCheck u p false = none := by
  rw [mbCheck, h]
  rfl

theorem unheld_mbHold_own (ho : s.opened.ownSp (s.opened.res p) = true) (hr : released s) : unheld (mbHold p) s := by
  obtain ⟨h0, h1⟩ := unheld_holdRelease hr
  exact ⟨(if_pos ho).trans h0, (if_pos ((commitChunk_ownSp p).trans ho)).trans h1⟩

theorem unheld_mbHold_elsewhere (ho : s.opened.ownSp (s.opened.res p) = false) : unheld (mbHold p) s :=
  ⟨if_neg (by rw [ho]; exact Bool.false_ne_true), if_neg (by rw [commitChunk_ownSp, ho]; exact Bool.false_ne_true)⟩

/-- The words act in the state that their commit leaves. -/
theorem mbPost_ends (h : endsAt i s) (hp : mbOk p = true) (hh : unheld (mbHold p) s) : mbPost i s op p x = mbPostOp op p x (s.committed i) :=
  runR_ends _ _ h (mbCheck_ok _ hp) hh

/-- R176, R188: the change of an own counter waits for the earlier operations to this device. -/
theorem mbPost_behind (h : endsAt i s) (hp : mbOk p = true) (ho : s.opened.ownSp (s.opened.res p) = true) (hb : s.opened.behind = true) :
    mbPost i s op p x = holdTurn s.opened := by
  have hhold : mbHold p s.opened = some false := by rw [mbHold, if_pos ho, holdRelease, if_pos hb]
  exact endFrame_held (chk := fun u => mbCheck u p false) _ h.1.1 (fun _ => h.1.2) (mbCheck_ok _ hp) h.2.1 hhold

theorem mbPostOp_own {m : State} (ho : m.ownSp (m.res p) = true) :
    mbPostOp op p x m = (mbAt m m.iss.core op (mbIdx p) (x.extractLsb' 0 32)).1.advance := if_pos ho

theorem mbPostOp_elsewhere {m : State} (ho : m.ownSp (m.res p) = false) :
    mbPostOp op p x m = (sendOp m true false (m.res p) (.mb op (m.res p) x) (some p)).advance := if_neg (by rw [ho]; exact Bool.false_ne_true)
end

/-! ## The waits on a counter -/

section
variable {s : State} {c : CoreId} {n : SlotNo} {j : Nat}

/-- One slot's part of `wakeCounter`. -/
def wakeSlot (c : CoreId) (i : Nat) (s : State) (n : SlotNo) : State :=
  match (s.ctx c n).wait with
  | some w => match w.i with
    | .mbwait _ _ _ =>
      if (s.ctx c n).isWaiting && (s.core c).tests n && mbIdx (w.vals.headD 0) == i && mbReached (s.core c) i (w.vals.getD 1 0) then
        { (wakeCtx (asCtx s c n w.bundle).advance c n w.sbit) with iss := s.iss }
      else s
    | _ => s
  | none => s

theorem wakeCounter_eq (s : State) (c : CoreId) (i : Nat) : wakeCounter s c i = allSlots.foldl (wakeSlot c i) s := rfl

/-- With no wait in the core a change of a counter wakes none. -/
theorem wakeCounter_idle (h : ∀ n, (s.ctx c n).wait = none) : wakeCounter s c j = s :=
  List.foldl_fixed' (fun n => by simp only [h n]) _

/-- What a change of another slot leaves to slot n: its context, the holder of the bank, the counters, and whether its wait is tested. -/
structure SlotKept (n : SlotNo) (k k' : Core) : Prop where
  ctx : k'.ctx n = k.ctx n
  holder : k'.holder = k.holder
  mbox : k'.mbox = k.mbox
  tests : k'.tests n = k.tests n

theorem SlotKept.refl (k : Core) : SlotKept n k k := ⟨rfl, rfl, rfl, rfl⟩

theorem SlotKept.trans {k k' k'' : Core} (h : SlotKept n k k') (h' : SlotKept n k' k'') : SlotKept n k k'' :=
  ⟨h'.ctx.trans h.ctx, h'.holder.trans h.holder, h'.mbox.trans h.mbox, h'.tests.trans h.tests⟩

theorem slotKept_setCtx (k : Core) {m : SlotNo} (x : Ctx) (h : n ≠ m) : SlotKept n k (k.setCtx m x) := by
  have hctx : (k.setCtx m x).ctx n = k.ctx n := Core.ctx_setCtx_ne k x h
  refine ⟨hctx, rfl, rfl, ?_⟩
  simp only [Core.tests, hctx]
  rfl

/-- The instruction that a wait completes moves its context's PC. -/
theorem core_asCtx_advance (s : State) (c : CoreId) (m : SlotNo) (b : Word) :
    ∃ x : Ctx, (asCtx s c m b).advance.core c = (s.core c).setCtx m x ∧ x.st = (s.ctx c m).st :=
  ⟨_, State.core_modCore (asCtx s c m b) c _, rfl⟩

/-- The core after the wake of one of its slots. -/
theorem core_wake (s : State) (c : CoreId) (m : SlotNo) (b : Word) (z : Bool) : ∃ x y, (wakeCtx (asCtx s c m b).advance c m z).core c =
    ((s.core c).setCtx m x).setCtx m y := by
  obtain ⟨x, hx, -⟩ := core_asCtx_advance s c m b
  exact ⟨x, _, by rw [wakeCtx, State.core_modCore, hx]⟩

/-- The wake of another slot. -/
theorem slotKept_wakeSlot {m : SlotNo} (h : n ≠ m) : SlotKept n (s.core c) ((wakeSlot c j s m).core c) := by
  unfold wakeSlot
  split
  · next w _ =>
    split
    · split
      · obtain ⟨x, y, hk⟩ := core_wake s c m w.bundle w.sbit
        show SlotKept n (s.core c) ((wakeCtx (asCtx s c m w.bundle).advance c m w.sbit).core c)
        rw [hk]
        exact (slotKept_setCtx _ x h).trans (slotKept_setCtx _ y h)
      · exact .refl _
    · exact .refl _
  · exact .refl _

theorem slotKept_wakeSlots (l : List SlotNo) (h : n ∉ l) : SlotKept n (s.core c) ((l.foldl (wakeSlot c j) s).core c) := by
  induction l generalizing s with
  | nil => exact .refl _
  | cons m l ih =>
    rw [List.mem_cons, not_or] at h
    obtain ⟨hm, hl⟩ := h
    exact (slotKept_wakeSlot hm).trans (ih hl)

/-- A context whose wait completes. -/
def Woken (x : Ctx) (st : SlotState) (sbit : Bool) : Prop := x.st = st ∧ x.wait = none ∧ x.compl = some sbit

theorem woken_goLive {x : Ctx} (st : SlotState) (sbit : Bool) (h : x.isWaiting = true) : Woken { x.goLive st with compl := some sbit } st sbit := by
  have hst : (x.st == .frozen) = false ∧ (x.st == .departing) = false := by
    rw [Ctx.isWaiting, Bool.or_eq_true, beq_iff_eq, beq_iff_eq] at h
    rcases h with h | h <;> rw [h] <;> exact ⟨rfl, rfl⟩
  simp only [Ctx.goLive, hst.1, hst.2, Bool.false_eq_true, if_false, Woken, and_self]

theorem ctx_wake (hn : n.toNat < 11) (b : Word) (z : Bool) (h : (s.ctx c n).isWaiting = true) :
    Woken ((wakeCtx (asCtx s c n b).advance c n z).ctx c n) ((s.core c).liveState n) z := by
  obtain ⟨x, hx, hst⟩ := core_asCtx_advance s c n b
  rw [State.ctx, wakeCtx, State.core_modCore, Core.ctx_setCtx _ _ _ hn, hx, Core.ctx_setCtx _ _ _ hn]
  exact woken_goLive _ z (by rw [Ctx.isWaiting, hst]; exact h)

theorem mem_allSlots (hn : n.toNat < 11) : n ∈ allSlots := List.mem_map.mpr ⟨n.toNat, List.mem_range.mpr hn, by simp⟩

theorem nodup_allSlots : allSlots.Nodup := by decide

/-- R299: a wait on the counter whose target is reached completes. -/
theorem wakeCounter_wakes {w : Wait} {x y z : RF} (hn : n.toNat < 11) (hw : (s.ctx c n).wait = some w) (hi : w.i = .mbwait x y z)
    (hst : (s.ctx c n).isWaiting = true) (ht : (s.core c).tests n = true) (hj : mbIdx (w.vals.headD 0) = j)
    (hr : mbReached (s.core c) j (w.vals.getD 1 0) = true) : Woken ((wakeCounter s c j).ctx c n) ((s.core c).liveState n) w.sbit := by
  obtain ⟨l, l', hl⟩ := List.append_of_mem (mem_allSlots hn)
  have hnd := nodup_allSlots
  rw [hl, List.nodup_append, List.nodup_cons] at hnd
  obtain ⟨-, ⟨hl', -⟩, hdis⟩ := hnd
  have hnl : n ∉ l := fun hm => hdis n hm n (List.mem_cons_self ..) rfl
  rw [wakeCounter_eq, hl, List.foldl_append, List.foldl_cons]
  obtain ⟨hctx, hholder, hmbox, htests⟩ : SlotKept n (s.core c) ((l.foldl (wakeSlot c j) s).core c) := slotKept_wakeSlots l hnl
  generalize l.foldl (wakeSlot c j) s = u at hctx hholder hmbox htests
  have huctx : u.ctx c n = s.ctx c n := hctx
  have hreach : mbReached (u.core c) j (w.vals.getD 1 0) = true := by rw [mbReached, hmbox]; exact hr
  have hstep : wakeSlot c j u n = { (wakeCtx (asCtx u c n w.bundle).advance c n w.sbit) with iss := u.iss } := by
    simp only [wakeSlot, huctx, hw, hi, hst, htests, ht, hj, hreach, beq_self_eq_true, Bool.and_self, if_true]
  have hkept := slotKept_wakeSlots (s := wakeSlot c j u n) (c := c) (j := j) l' hl'
  have hlive : (u.core c).liveState n = (s.core c).liveState n := by rw [Core.liveState, Core.holds, hholder]; rfl
  rw [State.ctx, hkept.ctx, hstep, ← hlive]
  exact ctx_wake hn _ _ (by rw [huctx]; exact hst)
end

/-- A change of a counter leaves every context. -/
theorem ctx_modMbox (m : State) (c' : CoreId) (f : Core → Vector W32 64) (c : CoreId) (n : SlotNo) :
    (m.modCore c' fun k => { k with mbox := f k }).ctx c n = m.ctx c n := by
  by_cases h : c = c'
  · subst h
    rw [State.ctx, State.core_modCore]
    rfl
  · rw [State.ctx, State.core_modCore_ne _ _ h]
    rfl

/-- What `mbinc` and `mbset` do: at the own core, behind an earlier operation to this device, and elsewhere. -/
theorem mbPost_results {i : Instr} {s : State} {op : MbOp} {f : W32 → W32 → W32} {p x : Word} (hex : exec i s = .next (mbPost i s op p x))
    (hop : ∀ (m : State) (c : CoreId) (j : Nat) (y : W32), (mbAt m c op j y).1 =
      wakeCounter (m.modCore c fun k => { k with mbox := vset k.mbox j (f (vget k.mbox j 0) y) }) c j)
    (h : endsAt i s) (hp : mbOk p = true) :
    let m := s.committed i; let q := m.res p; let j := mbIdx p; let y : W32 := x.extractLsb' 0 32
    let u := m.modCore m.iss.core fun k => { k with mbox := vset k.mbox j (f (vget k.mbox j 0) y) }
    (m.ownSp q = true → released s → exec i s = .next (wakeCounter u m.iss.core j).advance ∧
      ((∀ c n, (m.ctx c n).wait = none) → exec i s = .next u.advance)) ∧
    (s.opened.ownSp q = true → s.opened.behind = true → exec i s = .next (holdTurn s.opened)) ∧
    (m.ownSp q = false → exec i s = .next (sendOp m true false q (.mb op q x) (some p)).advance) := by
  intro m q j y u
  have hown : m.ownSp q = s.opened.ownSp (s.opened.res p) := committed_ownSp_res p
  have hq : q = s.opened.res p := committed_res s i p
  refine ⟨fun ho hr => ?_, fun ho hb => ?_, fun ho => ?_⟩
  · have hx : exec i s = .next (wakeCounter u m.iss.core j).advance := by
      rw [hex, mbPost_ends h hp (unheld_mbHold_own (hown.symm.trans ho) hr), mbPostOp_own ho, hop]
    refine ⟨hx, fun hw => ?_⟩
    rw [hx, wakeCounter_idle fun n => (congrArg Ctx.wait (ctx_modMbox m _ _ _ n)).trans (hw _ n)]
  · rw [hex, mbPost_behind h hp (hq ▸ ho) hb]
  · rw [hex, mbPost_ends h hp (unheld_mbHold_elsewhere (hown.symm.trans ho)), mbPostOp_elsewhere ho]

/-! ## `mbrd` and `rstat` of another core -/

section
variable {s : State} {a b : RF}

theorem exec_mbrd_elsewhere (h : runsC (.mbrd a b) s) (hm : mbOk (s.opened.rdG b) = true)
    (ho : s.opened.ownSp (s.opened.res (s.opened.rdG b)) = false) (hl : s.opened.canLong = true) :
    let o := s.opened; let q := o.res (o.rdG b)
    exec (.mbrd a b) s = .next ((sendOp o false true q (.mb .rd q 0) (some (o.rdG b))).addLong
      { o.newLong o.nextId (o.dstG a) .word with body := some (.mb .rd q 0), given := some (o.rdG b) }).advance := by
  intro o q
  refine exec_runC_ok rfl h rfl ?_
  simp only [mbCheck_ok _ hm, ho, hl, Bool.false_eq_true, if_false, Bool.not_true]
  rfl

theorem length_net_sendOp (s : State) (ord ret : Bool) (q : Word) (body : Body) (given : Option Word) :
    (sendOp s ord ret q body given).net.length = s.net.length + 1 := (congrArg List.length (net_send s _)).trans List.length_append

/-- The selector of `rstat` as the words hold it. -/
theorem selector_setWidth (y : BitVec 2) : (y.setWidth 64 : Word).extractLsb' 0 2 = y := by
  revert y
  decide

variable {e : Vector Word 8} (hb : ¬(objIdx (s.rdG b) = 0 ∧ (s.mine.ring 0).obj = none))
  (h : runsC (.rstat a b) (walkObj (.rstat a b) s (objIdx (s.rdG b))))
  (hu : ringUse (walkObj (.rstat a b) s (objIdx (s.rdG b))).opened .stat (objIdx (s.rdG b)) = .ok e)
include hb h hu

theorem exec_rstat_own (ho : ownRing (walkObj (.rstat a b) s (objIdx (s.rdG b))).opened e = true) :
    let u := (walkObj (.rstat a b) s (objIdx (s.rdG b))).opened
    exec (.rstat a b) s = .next (u.wrG a ((u.mine.ring (rnNum e)).stat ((s.rdG b).extractLsb' 16 2).toNat)).advance := by
  intro u
  refine (if_neg (by simpa using hb)).trans (congrArg Host.Outcome.next ((runC_ok h (t := u.wrG a _) ?_).trans (by rw [markViol_none _ rfl])))
  simp only [hu, ho, if_true, selector_setWidth]
  rfl

theorem exec_rstat_elsewhere (ho : ownRing (walkObj (.rstat a b) s (objIdx (s.rdG b))).opened e = false)
    (hl : (walkObj (.rstat a b) s (objIdx (s.rdG b))).opened.canLong = true) :
    let u := (walkObj (.rstat a b) s (objIdx (s.rdG b))).opened
    let body := ringBody u .stat (objIdx (s.rdG b)) (((s.rdG b).extractLsb' 16 2).setWidth 64) e none
    exec (.rstat a b) s = .next ((sendOp u false true (ringDest u e) body none).addLong
      { u.newLong u.nextId (u.dstG a) .word with body := some body }).advance := by
  intro u body
  refine (if_neg (by simpa using hb)).trans (congrArg Host.Outcome.next ((runC_ok h (t := State.addLong _ _) ?_).trans (by rw [markViol_none _ rfl])))
  simp only [hu, ho, hl, Bool.false_eq_true, if_false, Bool.not_true]
  rfl
end

end Sys2Proof.Machine

open Sys2Proof Sys2Proof.Machine

/-- Settles O36: the two posting words by `mbPost`, and each read of another core by the long operation that it starts. -/
theorem mailboxResults : Obligations.MailboxResults := by
  intro a b s o
  have hinc := mbPost_results (i := .mbinc a b) (op := .inc) (f := fun v x => v + x) (s := s) rfl fun _ _ _ _ => by
    simp only [mbAt, mbAdd, mbPut, State.modCore]
  have hset := mbPost_results (i := .mbset a b) (op := .set) (f := fun _ x => x) (s := s) rfl fun _ _ _ _ => by simp only [mbAt, mbPut]
  refine ⟨List.forall_mem_cons.mpr ⟨hinc, List.forall_mem_cons.mpr ⟨hset, List.forall_mem_nil _⟩⟩,
    fun c n w j x y z hn hw hi hst ht hj hr => wakeCounter_wakes hn hw hi hst ht hj (decide_eq_true hr), exec_mbrd_elsewhere, ?_⟩
  intro e idx i u hb h hu
  exact ⟨exec_rstat_own hb h hu, fun ho hl => ⟨_, _, exec_rstat_elsewhere hb h hu ho hl, rfl, length_net_sendOp ..⟩⟩
end

section
/-! O35: the copy-channel words (R290-R292, R295, R97, R100, R183, R187). -/

namespace Sys2Proof.Machine

section
variable {s : State} {x : Word}

theorem chanOf_lt (h : x.toNat < 2) : chanOf x = some x.toNat := if_pos h

theorem chanCheck_lt (u : State) (h : x.toNat < 2) : chanCheck u x = none := by
  rw [chanCheck, chanOf_lt h]
  rfl
end

/-! ## `cpset` -/

theorem exec_cpset {a b : RF} {s : State} (h : endsAt (.cpset a b) s) (ha : (s.rdG a).toNat < 2)
    (ho : s.opened.ownSp (s.opened.res (s.rdG b)) = true) (hc : s.opened.check (s.rdG b) 64 0 64 = none)
    (hw : s.opened.watch (s.rdG b) 64 0 = none) :
    let m := s.committed (.cpset a b)
    exec (.cpset a b) s = .next (m.modCh m.iss.core (s.rdG a).toNat fun h =>
      { h with shadow := dwords8 (memRead m.mem (m.ownKey (s.rdG b)) 64) }).advance := by
  intro m
  obtain ⟨hbad, -⟩ := check_passes hc
  have hchk : (chanCheck s.opened (s.rdG a)).or (if addrBad (s.rdG b) 64 64 || !s.opened.ownSp (s.opened.res (s.rdG b)) then
      some (s.opened.tAddr (s.rdG b)) else (s.opened.check (s.rdG b) 64 0 64).or (s.opened.watch (s.rdG b) 64 0)) = none := by
    rw [chanCheck_lt _ ha, hbad, ho, hc, hw]
    rfl
  refine congrArg Host.Outcome.next ((runE_ends _ h hchk (unheld_noHold s)).trans ?_)
  rw [chanOf_lt ha]
  rfl

/-! ## `cpgo` -/

section
variable {s : State} {n : Nat} {objs : Vector Word 8 × Vector Word 8} (h : cpgoCheck s n = .ok objs)
include h

/-- A `cpgo` whose checks pass has a sound descriptor, whose objects are as its entries say. -/
theorem cpgoCheck_passes : descBad s (s.mine.ch n).shadow = false ∧ descObjs s (s.mine.ch n).shadow = .ok objs := by
  unfold cpgoCheck at h
  dsimp only at h
  split at h
  · cases h
  · next hbad =>
    split at h
    · cases h
    · next o r ho =>
      split at h
      · cases h
      · exact ⟨Bool.eq_false_iff.mpr hbad, by rw [ho, ← Except.ok.inj h]⟩
end

section
variable {s : State} {d : Vector Word 8} {objs : Vector Word 8 × Vector Word 8}

theorem ringEntry_ok {r : Vector Word 8} (hv : cdRv d = true) (h : ringEntry s d = .ok r) :
    useObj s (cdRing d) kRING rENG = .ok r ∧ ringBad r = false := by
  rw [ringEntry, hv, if_neg (by decide)] at h
  split at h
  · cases h
  · next e he =>
    split at h
    · cases h
    · next hb =>
      obtain rfl := Except.ok.inj h
      exact ⟨he, Bool.eq_false_iff.mpr hb⟩

variable (h : descObjs s d = .ok objs)
include h

theorem descObjs_ring : ringEntry s d = .ok objs.2 := by
  unfold descObjs at h
  split at h
  · cases h
  · next r hr =>
    suffices hs : r = objs.2 by rw [hr, hs]
    split at h
    · split at h
      · cases h
      · split at h
        · cases h
        · exact congrArg Prod.snd (Except.ok.inj h)
    · split at h
      · split at h
        · cases h
        · split at h
          · cases h
          · exact congrArg Prod.snd (Except.ok.inj h)
      · exact congrArg Prod.snd (Except.ok.inj h)

theorem descObjs_bins (hk : cdKind d = ckBINS) : useObj s (cdObj d) kBINSET rENG = .ok objs.1 ∧ binsetBad objs.1 = false := by
  rw [descObjs, descObjs_ring h] at h
  simp only [hk, if_true] at h
  split at h
  · cases h
  · next e he =>
    split at h
    · cases h
    · next hb =>
      obtain rfl : e = objs.1 := congrArg Prod.fst (Except.ok.inj h)
      exact ⟨he, Bool.eq_false_iff.mpr hb⟩

theorem descObjs_code (hk : cdKind d = ckDECODE) :
    useObj s (cdObj d) kCODE rENG = .ok objs.1 ∧ codeBadFor objs.1 (pFmt (cdDst d)) = false := by
  have hne : ckDECODE ≠ ckBINS := by decide
  rw [descObjs, descObjs_ring h] at h
  simp only [hk, if_neg hne, if_true] at h
  split at h
  · cases h
  · next e he =>
    split at h
    · cases h
    · next hb =>
      obtain rfl : e = objs.1 := congrArg Prod.fst (Except.ok.inj h)
      exact ⟨he, Bool.eq_false_iff.mpr hb⟩
end

section
variable {a b : RF} {s : State} {objs : Vector Word 8 × Vector Word 8}

/-- What holds `cpgo` back (R97, R171). -/
def cpgoHold (n : Nat) (objs : Vector Word 8 × Vector Word 8) (s : State) : Option Bool := (holdLong s).or (cpHold s n objs.1 objs.2)

/-- A `cpgo` whose checks pass runs in the state that has the translations of what it reads. -/
theorem exec_cpgo_runE (hn : (s.rdG b).toNat < 2) (hc : cpgoCheck s (s.rdG b).toNat = .ok objs) : exec (.cpgo a b) s =
    .next (runE (.cpgo a b) (walkDesc (.cpgo a b) s (s.mine.ch (s.rdG b).toNat)) true (fun _ => none) (cpgoHold (s.rdG b).toNat objs)
      fun m => (cpStart m a (s.rdG b).toNat objs.1 objs.2).advance) := by
  have hbad := (cpgoCheck_passes hc).1
  show execCpgo a b s = _
  unfold execCpgo
  simp only [chanOf_lt hn, Option.getD_some, chanCheck_lt _ hn, Option.isNone_none, hbad, Bool.not_false, Bool.and_self, if_true, hc, valOf]
  rfl

theorem unheld_cpgoHold {u : State} {n : Nat} (hl : mayLong u) (hh : unheld (fun m => cpHold m n objs.1 objs.2) u) : unheld (cpgoHold n objs) u := by
  obtain ⟨hl0, hl1⟩ := unheld_holdLong hl
  exact ⟨by rw [cpgoHold, hl0]; exact hh.1, by rw [cpgoHold, hl1]; exact hh.2⟩

theorem cpgoHold_full {u : State} {n : Nat} (h : u.canLong = false) : cpgoHold n objs u = some true := by
  rw [cpgoHold, holdLong, h]
  rfl

variable {m : State} {n : Nat} {obj ring : Vector Word 8}

theorem cpStart_active (h : (m.mine.ch n).st = .active) : cpStart m a n obj ring = cpId m a 0 := if_pos (by rw [h]; rfl)

theorem cpStart_full (h : (m.mine.ch n).st ≠ .active) (hf : 254 < (m.die (dieOf m.iss.core)).locks.length) :
    cpStart m a n obj ring = (cpId m a 0).countDie (dieOf m.iss.core) 3 :=
  (if_neg (by rwa [beq_iff_eq])).trans (if_pos (decide_eq_true (by omega)))

theorem cpStart_starts (h : (m.mine.ch n).st ≠ .active) (hf : (m.die (dieOf m.iss.core)).locks.length ≤ 254) :
    let h' := startedChan m (m.mine.ch n) obj ring
    let w := copyRanges (startEng m (m.mine.ch n) obj ring) m.iss.core
    cpStart m a n obj ring = cpId ((registerLocks (w.eng.s.modDie (dieOf m.iss.core) fun x =>
      { x with xid := if x.xid + 1 = 0 then 1 else x.xid + 1 }) (dieOf m.iss.core) (copyLocks m.iss.core n h' (w.val.getD (none, none)))).modCh
        m.iss.core n fun _ => h') a h'.xid :=
  (if_neg (by rwa [beq_iff_eq])).trans (if_neg (by rw [locksFull, decide_eq_true_eq]; omega))
end

/-! ## `cpabort` -/

section
variable {a : RF} {s : State} (ha : (s.rdG a).toNat < 2)
include ha

/-- R187: a copy whose completion has begun is not ended, and the bundle waits. -/
theorem exec_cpabort_held (h : endsAt (.cpabort a) s) (hh : abortHold (s.rdG a).toNat s.opened = some false) :
    exec (.cpabort a) s = .next (holdTurn s.opened) := by
  rw [← Option.getD_some (a := (s.rdG a).toNat) (b := 0), ← chanOf_lt ha] at hh
  exact congrArg Host.Outcome.next (endFrame_held (chk := fun u => chanCheck u (s.rdG a)) _ h.1.1 (fun _ => h.1.2) (chanCheck_lt _ ha) h.2.1 hh)

theorem exec_cpabort (h : endsAt (.cpabort a) s) (hh : unheld (abortHold (s.rdG a).toNat) s) :
    let m := s.committed (.cpabort a)
    exec (.cpabort a) s = .next (if (m.mine.ch (s.rdG a).toNat).st == .active then endCopy m m.iss.core (s.rdG a).toNat .aborted 0 0 else m).advance := by
  intro m
  rw [← Option.getD_some (a := (s.rdG a).toNat) (b := 0), ← chanOf_lt ha] at hh
  refine congrArg Host.Outcome.next ((runE_ends _ h (chanCheck_lt _ ha) hh).trans ?_)
  rw [chanOf_lt ha]
  rfl
end

end Sys2Proof.Machine

open Sys2Proof Sys2Proof.Machine

/-- Settles O35: `cpgo` passes its checks and starts the copy by `cpStart`; the other two words act after their commit. -/
theorem copyChannelResults : Obligations.CopyChannelResults := by
  intro a b s o
  refine ⟨fun h ha => exec_cpset h ha, ?_, fun h ha => ⟨fun _ => exec_cpabort_held ha h, fun hst hh => ?_, fun hst hh => ?_⟩⟩
  · intro i n de hn objs hc u h
    obtain ⟨-, hobjs⟩ := cpgoCheck_passes hc
    refine ⟨fun hv => ringEntry_ok hv (descObjs_ring hobjs), descObjs_bins hobjs, descObjs_code hobjs, fun hl => ?_, fun hl hh => ?_⟩
    · rw [exec_cpgo_runE hn hc, runE_hold _ h rfl (cpgoHold_full hl)]
    · intro m ch d h' id
      have hx : exec (.cpgo a b) s = .next (cpStart m a (s.rdG b).toNat objs.1 objs.2).advance := by
        rw [exec_cpgo_runE hn hc, runE_ends _ h rfl (unheld_cpgoHold hl hh)]
      rw [hx]
      refine ⟨fun hst => by rw [cpStart_active hst]; rfl, fun hst hf => ⟨by rw [cpStart_starts hst hf]; rfl, rfl, rfl, rfl, rfl, rfl, rfl⟩,
        fun hst hf => by rw [cpStart_full hst hf]; rfl⟩
  · rw [exec_cpabort ha h hh, if_pos (by rw [hst]; rfl)]
    rfl
  · rw [exec_cpabort ha h hh, if_neg (by rwa [beq_iff_eq])]
end

section
/-! O59: the accesses of an engine keep the rest of the state. -/

namespace Sys2Proof.Machine

/-- Engine work that keeps the channel, but for the translations that it holds, and every byte of memory outside the page
descriptors. -/
structure Eng.Keeps (x y : Eng) : Prop where
  active : y.h.active = x.h.active
  pos : y.h.pos = x.h.pos
  devId : y.s.devId = x.s.devId
  descBase : ∀ d, (y.s.die d).descBase = (x.s.die d).descBase
  mem : ∀ k, outsideDescs x.s k → memGet y.s.mem k = memGet x.s.mem k

namespace Eng.Keeps

variable {x y z : Eng}

theorem refl (x : Eng) : x.Keeps x := ⟨rfl, rfl, rfl, fun _ => rfl, fun _ _ => rfl⟩

theorem outsideDescs (h : x.Keeps y) {k : Nat} (hk : outsideDescs x.s k) : Machine.outsideDescs y.s k :=
  fun d => by rw [h.descBase]; exact hk d

theorem trans (h : x.Keeps y) (h' : y.Keeps z) : x.Keeps z where
  active := h'.active.trans h.active
  pos := h'.pos.trans h.pos
  devId := h'.devId.trans h.devId
  descBase d := (h'.descBase d).trans (h.descBase d)
  mem k hk := (h'.mem k (h.outsideDescs hk)).trans (h.mem k hk)

end Eng.Keeps

section
variable (x : Eng) (c : CoreId) (d : BitVec 2) (pool : Bool) (q : Word) (m kind : Nat) (dec : Bool)

theorem Eng.takePage_keeps (va : Nat) : x.Keeps (x.takePage c d pool kind dec va) := by
  unfold Eng.takePage
  split
  · exact .refl x
  · have hdev : (touch x.s d pool x.h.tenant va (quadOf c) kind x.h.priv dec).devId = x.s.devId :=
      congrArg (·.2.1) (fixed_touch x.s d pool x.h.tenant va (quadOf c) kind x.h.priv dec)
    dsimp only
    split <;> exact ⟨rfl, rfl, hdev, fun _ => descBase_touch .., fun _ hk => touch_mem _ _ _ _ _ _ _ _ _ hk⟩

theorem Eng.takePages_keeps (l : List Nat) : x.Keeps (x.takePages c d pool kind dec l) := by
  induction l generalizing x with
  | nil => exact .refl x
  | cons va t ih =>
    have hpage := x.takePage_keeps c d pool kind dec va
    unfold Eng.takePages
    dsimp only
    split
    · exact hpage
    · exact hpage.trans (ih _)

theorem Eng.take_keeps : x.Keeps (x.take c q m kind dec) := by
  unfold Eng.take
  split
  · exact x.takePages_keeps c _ _ kind dec _
  · exact .refl x

theorem Eng.talk_keeps (node vc op : Nat) (out : List Byte) (rop : Nat) (back : List Byte) :
    x.Keeps (x.talk c node vc op q out rop back) := by
  unfold Eng.talk
  split
  · exact .refl x
  · exact ⟨rfl, rfl, rfl, fun _ => rfl, fun _ _ => rfl⟩

@[simp] theorem mem_talk (node vc op : Nat) (out : List Byte) (rop : Nat) (back : List Byte) :
    (x.talk c node vc op q out rop back).s.mem = x.s.mem := by unfold Eng.talk; split <;> rfl

end

@[simp] theorem mem_countEng (s : State) (ks : List Nat) (wr : Bool) : (countEng s ks wr).mem = s.mem := by
  unfold countEng; split
  · split <;> rfl
  · rfl

theorem descBase_countEng (s : State) (ks : List Nat) (wr : Bool) (d : BitVec 2) : ((countEng s ks wr).die d).descBase = (s.die d).descBase := by
  unfold countEng; split
  · split
    · exact descBase_modDie s _ d fun x => Die.count_descBase x _
    · rfl
  · rfl

theorem devId_countEng (s : State) (ks : List Nat) (wr : Bool) : (countEng s ks wr).devId = s.devId := by
  unfold countEng; split
  · split <;> rfl
  · rfl

theorem Eng.countEng_keeps (x : Eng) (ks : List Nat) (wr : Bool) : x.Keeps { x with s := countEng x.s ks wr } :=
  ⟨rfl, rfl, devId_countEng x.s ks wr, descBase_countEng x.s ks wr, fun _ _ => by rw [mem_countEng]⟩

/-! ## The accesses of a run's move -/

section
variable {x : Eng} {c : CoreId} {p q : Word} {n o : Nat} {dec : Bool} {ks : List Nat} {bs : List Byte}

theorem engAddr_none (h : addrBad p n 1 = false) : engAddr p n = none := by simp [engAddr, h]

/-- A read of bytes in reach takes its translations, and its value is the bytes that then stand there. -/
theorem engRead_found (ha : addrBad p n 1 = false) (hn : n ≠ 0) (hw : x.waits c (resolve x.s.devId c p) n = false)
    (hf : x.found c (resolve x.s.devId c p) n 4 dec = .ok ks) :
    let y := x.take c (resolve x.s.devId c p) n 4 dec
    engRead x c p n dec o = .ok ({ y with s := countEng y.s ks false }.talk c (keysAt y.s ks) 0 1 (resolve x.s.devId c p) [] 15 (bytesAt y.s ks))
      (bytesAt y.s ks) := by
  simp only [engRead, engAddr_none ha, hn, hw, hf, if_false, Bool.false_eq_true]

/-- A write to bytes in reach takes its translations, and goes to the keys found. -/
theorem engDest_found (ha : addrBad p n 1 = false) (hn : n ≠ 0) (hw : x.waits c (resolve x.s.devId c p) n = false)
    (hf : x.found c (resolve x.s.devId c p) n 5 false = .ok ks) :
    engDest x c p n = .ok (x.take c (resolve x.s.devId c p) n 5 false) ks := by
  simp only [engDest, engAddr_none ha, hn, hw, hf, if_false, Bool.false_eq_true]

theorem mem_engWrite (hb : bs ≠ []) :
    (engWrite x c q ks bs).s.mem = memSetAll x.s.mem (ks.zip ((countEng x.s ks true).cutBytes ks bs)) := by
  have he : bs.isEmpty = false := by simpa using hb
  simp only [engWrite, he, Bool.false_eq_true, if_false, mem_talk]
  split
  · simp only [writeKeys, mem_countEng]
  · rw [mem_writeKeysSquash, mem_countEng]

theorem Eng.talk_h (node vc op : Nat) (out : List Byte) (rop : Nat) (back : List Byte) :
    (x.talk c node vc op q out rop back).h = x.h := by unfold Eng.talk; split <;> rfl

theorem engWrite_h : (engWrite x c q ks bs).h = x.h := by
  unfold engWrite; dsimp only; split
  · rfl
  · exact Eng.talk_h ..

/-- What a write leaves at each of its keys. -/
theorem engWrite_at (hnd : ks.Nodup) (hl : ks.length = bs.length) {i : Nat} (hi : i < bs.length) :
    memGet (engWrite x c q ks bs).s.mem (ks.getD i 0) = x.s.cutByte (ks.getD i 0) (bs.getD i 0) := by
  have hb : bs ≠ [] := by rintro rfl; exact absurd hi (by simp)
  have hk : i < ks.length := hl ▸ hi
  rw [mem_engWrite hb, State.cutBytes, cutByte_congr (descBase_countEng x.s ks true),
    memGet_memSetAll_zip _ hnd (by simp [hl]) (by simpa [hl] using hi)]
  simp [hi, hk]

theorem engWrite_ne (hb : bs ≠ []) {k : Nat} (hk : k ∉ ks) : memGet (engWrite x c q ks bs).s.mem k = memGet x.s.mem k := by
  rw [mem_engWrite hb, memGet_memSetAll_zip_ne _ _ hk]

theorem dropPassed_pos (h : Chan) (s : State) (c : CoreId) : (h.dropPassed s c).pos = h.pos ∧ (h.dropPassed s c).wp = h.wp := by
  unfold Chan.dropPassed; dsimp only; split <;> exact ⟨rfl, rfl⟩

theorem movedTo_some {y : Int} (h : moveOff p y = some q) : movedTo x p y = .ok x q := by simp only [movedTo, h]

theorem runOffs_linear {d : Vector Word 8} (h : cdKind d = ckLINEAR) (r : Nat) : runOffs d r = (0, 0) := by
  simp [runOffs, h, ckLINEAR, ckSTRIDED, ckGATHER]

theorem copyDests_linear {d : Vector Word 8} (h : cdKind d = ckLINEAR) : copyDests d q = [q] := by
  simp [copyDests, h, ckLINEAR, ckMCAST]

/-- The next move of a LINEAR copy: its bytes at the copy's place. -/
theorem nextMove_linear (hk : cdKind x.h.active = ckLINEAR) (hpos : x.h.pos < cdSize0 x.h.active)
    (hp : moveOff (cdSrc x.h.active) x.h.pos = some p) (hq : moveOff (cdDst x.h.active) x.h.pos = some q) :
    nextMove x c = .ok x { src := p, dst := q, n := min (cdSize0 x.h.active - x.h.pos) (64 - pOff q % 64) } := by
  have hg : cdKind x.h.active ≠ ckGATHER := by rw [hk]; decide
  simp only [nextMove, runSrc, hg, if_false, Nat.mod_eq_of_lt hpos, runOffs_linear hk, Int.zero_add, movedTo_some hp,
    movedTo_some hq, Work.bind_ok]

/-- One write of a copy to one destination in reach, whose bytes have been read. -/
theorem writeRun_single {y : Eng} {m : Move} (hm : nextMove x c = .ok x m) (hr : engRead x c m.src m.n false = .ok y bs)
    (hone : copyDests y.h.active (resolve y.s.devId c m.dst) = [resolve y.s.devId c m.dst])
    {w : Eng} (hd : engDest y c (resolve y.s.devId c m.dst) m.n = .ok w ks) (hh : engHeld w.s c ks = false) :
    let v := engWrite w c (resolve y.s.devId c m.dst) ks bs
    writeRun x c = .ok { s := v.s.draw, h := { v.h with wp := past m.dst m.n, pos := v.h.pos + m.n }.dropPassed v.s c } () := by
  simp only [writeRun, hm, hr, hone, hd, hh, engDests, Work.bind_ok, List.any_cons, List.any_nil, Bool.or_false,
    Bool.false_eq_true, if_false, List.foldl_cons, List.foldl_nil]

end

section
variable {s : State} {c : CoreId} {n : Nat}

/-- R289: a LINEAR copy's step moves the bytes up to the next line of its destination. -/
theorem copyNext_linear (p q : Word) (m : Nat) (ks kd : List Nat) (bs : List Byte) {x : Eng} :
    let z := Eng.open_ s c n; let k := z.h
    cdKind k.active = ckLINEAR → k.pos < cdSize0 k.active → moveOff (cdSrc k.active) k.pos = some p →
    moveOff (cdDst k.active) k.pos = some q → m = min (cdSize0 k.active - k.pos) (64 - pOff q % 64) →
    let ps := resolve s.devId c p
    let pd := resolve s.devId c (resolve s.devId c q)
    addrBad p m 1 = false → addrBad (resolve s.devId c q) m 1 = false → z.waits c ps m = false → z.found c ps m 4 false = .ok ks →
    engRead z c p m false = .ok x bs → x.waits c pd m = false → x.found c pd m 5 false = .ok kd →
    engHeld (x.take c pd m 5 false).s c kd = false → kd.Nodup → ks.length = m → kd.length = m →
      ∃ u, copyNext s c n = .ok u () ∧ u.h.pos = k.pos + m ∧ u.h.wp = past q m ∧
        (∀ i, i < m → memGet u.s.mem (kd.getD i 0) = s.cutByte (kd.getD i 0) (memGet (z.take c ps m 4 false).s.mem (ks.getD i 0))) ∧
        ∀ x, x ∉ kd → outsideDescs s x → memGet u.s.mem x = memGet s.mem x := by
  intro z k hkind hpos hp hq hm ps pd haddr haddr' hwait hfound hread hwait' hfound' hheld hnodup hks hkd
  have hm0 : m ≠ 0 := by
    have : pOff q % 64 < 64 := Nat.mod_lt _ (by omega)
    omega
  have hy := engRead_found (x := z) (o := 0) haddr hm0 hwait hfound
  rw [hread] at hy
  injection hy with hx hbs
  have hxkeeps : z.Keeps x := by
    rw [hx]
    exact ((z.take_keeps c ps m 4 false).trans (Eng.countEng_keeps _ ks false)).trans (Eng.talk_keeps _ c ps _ _ _ _ _ _)
  have hwkeeps := hxkeeps.trans (x.take_keeps c pd m 5 false)
  have hdev : x.s.devId = s.devId := hxkeeps.devId
  have hlen : bs.length = m := by rw [hbs, bytesAt, List.length_map, hks]
  have hbs0 : bs ≠ [] := by rintro rfl; exact hm0 hlen.symm
  have hdest : engDest x c (resolve x.s.devId c q) m = .ok (x.take c pd m 5 false) kd := by
    rw [← hdev] at haddr'
    exact (engDest_found haddr' hm0 (by rw [hdev]; exact hwait') (by rw [hdev]; exact hfound')).trans (by rw [hdev])
  have hmove := nextMove_linear (x := z) (c := c) hkind hpos hp hq
  have hone := copyDests_linear (d := x.h.active) (q := resolve x.s.devId c q) (by rw [hxkeeps.active]; exact hkind)
  rw [← hm] at hmove
  have hnext : copyNext s c n = writeRun z c := by
    have hb : cdKind z.h.active ≠ ckBINS := by rw [hkind]; decide
    have hd : cdKind z.h.active ≠ ckDECODE := by rw [hkind]; decide
    show (if cdKind z.h.active = ckBINS then _ else if cdKind z.h.active = ckDECODE then _ else writeRun z c) = _
    rw [if_neg hb, if_neg hd]
  refine ⟨_, hnext.trans (writeRun_single hmove hread hone hdest hheld), ?_, ?_, fun i hi => ?_, fun j hj hjd => ?_⟩
  · refine (dropPassed_pos _ _ _).1.trans ?_
    dsimp only
    rw [engWrite_h, hwkeeps.pos]
  · exact (dropPassed_pos _ _ _).2
  · refine (engWrite_at hnodup (hkd.trans hlen.symm) (hlen ▸ hi)).trans ?_
    rw [cutByte_congr (s := s) hwkeeps.descBase, hbs]
    show s.cutByte _ ((ks.map (memGet (z.take c ps m 4 false).s.mem)).getD i 0) = _
    simp [hks, hi]
  · exact (engWrite_ne hbs0 hj).trans (hwkeeps.mem j hjd)
end

/-! ## Where the runs lie -/

section
variable {d : Vector Word 8}

theorem cdSize_pos (i : Nat) : 0 < cdSize d i := by
  unfold cdSize; dsimp only; split <;> omega

/-- R289: run i1 + n1 * (i2 + n2 * i3) of a STRIDED copy. -/
theorem runOffs_strided (h : cdKind d = ckSTRIDED) {i1 i2 : Nat} (i3 : Nat) (h1 : i1 < cdSize d 1) (h2 : i2 < cdSize d 2) :
    runOffs d (i1 + cdSize d 1 * (i2 + cdSize d 2 * i3)) =
      ((i1 : Int) * cdSs d 1 + i2 * cdSs d 2 + i3 * cdSs d 3, (i1 : Int) * cdDs d 1 + i2 * cdDs d 2 + i3 * cdDs d 3) := by
  have hdiv : (i1 + cdSize d 1 * (i2 + cdSize d 2 * i3)) / cdSize d 1 = i2 + cdSize d 2 * i3 := by
    rw [Nat.add_mul_div_left _ _ (cdSize_pos 1), Nat.div_eq_of_lt h1, Nat.zero_add]
  have hmod : (i1 + cdSize d 1 * (i2 + cdSize d 2 * i3)) % cdSize d 1 = i1 := by
    rw [Nat.add_mul_mod_self_left, Nat.mod_eq_of_lt h1]
  have hmod2 : (i2 + cdSize d 2 * i3) % cdSize d 2 = i2 := by rw [Nat.add_mul_mod_self_left, Nat.mod_eq_of_lt h2]
  have hdiv2 : (i2 + cdSize d 2 * i3) / cdSize d 2 = i3 := by
    rw [Nat.add_mul_div_left _ _ (cdSize_pos 2), Nat.div_eq_of_lt h2, Nat.zero_add]
  simp only [runOffs, h, if_true, ← Nat.div_div_eq_div_mul, hdiv, hmod, hmod2, hdiv2]

theorem runOffs_gather (h : cdKind d = ckGATHER) (r : Nat) : runOffs d r = (0, (r : Int) * cdSize0 d) := by
  simp [runOffs, h, ckGATHER, ckSTRIDED]

/-- R289: an MCAST copy writes on each core of its mask. -/
theorem mem_copyDests_mcast (h : cdKind d = ckMCAST) (q x : Word) : x ∈ copyDests d q ↔
    ∃ i, i < 16 ∧ (cdMask d).getLsbD i = true ∧ x = q.extractLsb' 36 28 ++ BitVec.ofNat 4 i ++ q.extractLsb' 0 32 := by
  simp only [copyDests, h, if_true, List.mem_map, List.mem_filter, List.mem_range, and_assoc, eq_comm (a := x)]

/-- R289: a GATHER copy takes the source of a run from its index. -/
theorem runSrc_gather {z z' : Eng} {c : CoreId} {r o : Nat} {p q : Word} {bs : List Byte} (h : cdKind z.h.active = ckGATHER)
    (hp : moveOff (cdIndex z.h.active) (4 * r) = some p) (hr : engRead z c p 4 false (2 ^ 32) = .ok z' bs)
    (hq : moveOff (cdSrc z.h.active) ((leBytes bs 0 4 * cdSize0 z.h.active : Nat) + (o : Int)) = some q) : runSrc z c r o = .ok z' q := by
  simp only [runSrc, h, if_true, movedTo_some hp, Work.bind_ok, hr, movedTo_some hq]
end

/-! ## The steps of a copy and its completion -/

section
variable {s : State} {c : CoreId} {ch : BitVec 1} {x : Eng} {e : CopyErr}

theorem execCopyWrite_ok (hr : copyRuns s c ch.toNat = true) (hn : copyNext s c ch.toNat = .ok x ()) :
    execCopyWrite c ch s = .next (x.s.modCh c ch.toNat fun _ => x.h) := by
  simp only [execCopyWrite, hr, hn, if_true]

/-- A step that cannot be performed writes nothing. -/
theorem execCopyWrite_stop (hr : copyRuns s c ch.toNat = true) (hn : copyNext s c ch.toNat = .stop x e) : execCopyWrite c ch s = .next s := by
  simp only [execCopyWrite, hr, hn, if_true]

theorem execCopyError_stop (hr : copyRuns s c ch.toNat = true) (hn : copyNext s c ch.toNat = .stop x e) :
    (e.cause ≠ 0 → execCopyError c ch s =
      .next (composeError (endCopy x.s c ch.toNat .error e.cause e.fw) c (copyErrOp x.h e) false false)) ∧
    (e.cause = 0 → execCopyError c ch s = .next s) := by
  constructor <;> intro h <;> simp only [execCopyError, hr, hn, if_true, h, if_false]

/-- A completion waits for the answers that the part before it asked for. -/
theorem completeCopy_awaits (ch : Nat) (h : copyAwaits s ((s.core c).ch ch) = true) : completeCopy s c ch = s := by
  simp [completeCopy, h]

theorem completeCopy_inactive (ch : Nat) (h : ((s.core c).ch ch).st ≠ .active) : completeCopy s c ch = s := by
  simp [completeCopy, h]

theorem ch_modCh (f : Chan → Chan) {i : Nat} (hi : i < 2) : ((s.modCh c i f).core c).ch i = f ((s.core c).ch i) := by
  rw [State.modCh, State.core_modCore]
  exact vget_vset_same _ _ _ _ hi

theorem core_of_cores {s t : State} (h : t.cores = s.cores) : t.core c = s.core c := by simp only [State.core, h]

theorem ch_endCopy (st : ChanState) (cause : Nat) (fw : BitVec 5) {i : Nat} (hi : i < 2) :
    ((endCopy s c i st cause fw).core c).ch i =
      { (s.core c).ch i with st := st, cause := BitVec.ofNat 4 cause, fw := fw, pages := [], comp := 0, acks := [] } := by
  rw [endCopy, releaseLocks, core_of_cores (State.modDie_cores ..)]
  exact ch_modCh _ hi

/-- A completion that has neither a ring nor a counter to tell: it is ready for its next part. -/
def completingQuietly (s : State) (c : CoreId) (i : Nat) : Prop :=
  ((s.core c).ch i).st = .active ∧ copyAwaits s ((s.core c).ch i) = false ∧ cdRv ((s.core c).ch i).active = false ∧
    cdMv ((s.core c).ch i).active = false

/-- The parts of such a completion: two that send nothing, and the end. -/
theorem completeCopy_part {i : Nat} (hi : i < 2) (h : completingQuietly s c i) :
    (((s.core c).ch i).comp ≤ 1 → completingQuietly (completeCopy s c i) c i ∧
      (((completeCopy s c i).core c).ch i).comp = ((s.core c).ch i).comp + 1 ∧ (completeCopy s c i).mem = s.mem) ∧
    (2 ≤ ((s.core c).ch i).comp → completeCopy s c i = endCopy s c i .done 0 0) := by
  obtain ⟨hst, haw, hrv, hmv⟩ := h
  have hring : copyRing s c ((s.core c).ch i) = s := by simp [copyRing, hrv]
  have hbump : copyBumps s c ((s.core c).ch i) = s := by simp [copyBumps, hmv]
  have hpart : ∀ n, completingQuietly (s.modCh c i fun h => { h with comp := n, acks := [] }) c i := fun n => by
    refine ⟨?_, ?_, ?_, ?_⟩ <;> rw [ch_modCh _ hi]
    · exact hst
    · simp [copyAwaits]
    · exact hrv
    · exact hmv
  constructor
  · intro hc
    obtain h0 | h1 : ((s.core c).ch i).comp = 0 ∨ ((s.core c).ch i).comp = 1 := by omega
    · have he : completeCopy s c i = s.modCh c i fun h => { h with comp := 1, acks := [] } := by
        simp [completeCopy, hst, haw, h0, hring]
      rw [he, ch_modCh _ hi, h0]
      exact ⟨hpart 1, rfl, rfl⟩
    · have he : completeCopy s c i = s.modCh c i fun h => { h with comp := 2, acks := [] } := by
        simp [completeCopy, hst, haw, h1, hbump]
      rw [he, ch_modCh _ hi, h1]
      exact ⟨hpart 2, rfl, rfl⟩
  · intro hc
    obtain ⟨n, hn⟩ := Nat.exists_eq_add_of_le' hc
    simp [completeCopy, hst, haw, hn]

/-- Once a completion is ready for its last part, that part ends the copy, and no later one does anything. -/
theorem completeCopy_last {i : Nat} (hi : i < 2) (h : completingQuietly s c i) (hc : 2 ≤ ((s.core c).ch i).comp) :
    let u := completeCopy s c i
    completeCopy u c i = u ∧ ((u.core c).ch i).st = .done ∧ ((u.core c).ch i).cause = 0 ∧ u.mem = s.mem := by
  rw [(completeCopy_part hi h).2 hc]
  have hch := ch_endCopy (s := s) (c := c) .done 0 0 hi
  refine ⟨completeCopy_inactive i (by rw [hch]; exact nofun), by rw [hch], by rw [hch]; rfl, rfl⟩

/-- R293: within three parts it ends. -/
theorem completeCopy_thrice {i : Nat} (hi : i < 2) (h : completingQuietly s c i) :
    let u := completeCopy (completeCopy (completeCopy s c i) c i) c i
    ((u.core c).ch i).st = .done ∧ ((u.core c).ch i).cause = 0 ∧ u.mem = s.mem := by
  by_cases h2 : 2 ≤ ((s.core c).ch i).comp
  · obtain ⟨hfix, hend⟩ := completeCopy_last hi h h2
    dsimp only
    rw [hfix, hfix]
    exact hend
  · obtain ⟨hnext, hcomp, hmem⟩ := (completeCopy_part hi h).1 (by omega)
    by_cases h1 : ((s.core c).ch i).comp = 1
    · obtain ⟨hfix, hst, hcause, hm⟩ := completeCopy_last hi hnext (by omega)
      dsimp only
      rw [hfix]
      exact ⟨hst, hcause, hm.trans hmem⟩
    · obtain ⟨hnext', hcomp', hmem'⟩ := (completeCopy_part hi hnext).1 (by omega)
      obtain ⟨-, hst, hcause, hm⟩ := completeCopy_last hi hnext' (by omega)
      exact ⟨hst, hcause, hm.trans (hmem'.trans hmem)⟩

theorem execCopyComplete_end (hst : ((s.core c).ch ch.toNat).st = .active)
    (ht : copyTotal ((s.core c).ch ch.toNat) ≤ ((s.core c).ch ch.toNat).pos) :
    execCopyComplete c ch s = .next (completeCopy (completeCopy (completeCopy s c ch.toNat) c ch.toNat) c ch.toNat) := by
  simp [execCopyComplete, hst, ht]
end

end Sys2Proof.Machine
end

section
/-! O59: what an accord command accumulates. -/

namespace Sys2Proof.Machine

/-! ## Words of a tile -/

/-- A field of a word made of fields of one width. -/
theorem ofNat_field (f : Nat → Nat) {w m n N : Nat} (hN : N = w * m) (hw : 0 < w) (h : n < m) :
    (BitVec.ofNat N ((List.range m).map fun n => f n % 2 ^ w * 2 ^ (w * n)).sum).toNat / 2 ^ (w * n) % 2 ^ w = f n % 2 ^ w := by
  have hb : 1 < 2 ^ w := Nat.one_lt_two_pow (by omega)
  have hdigit : ∀ x ∈ (List.range m).map fun n => f n % 2 ^ w, x < 2 ^ w := by
    intro x hx
    obtain ⟨i, -, rfl⟩ := List.mem_map.mp hx
    exact Nat.mod_lt _ (by omega)
  have hlt := Nat.ofDigits_lt_base_pow_length hb hdigit
  rw [List.length_map, List.length_range] at hlt
  simp only [pow_mul]
  rw [sum_eq_ofDigits, BitVec.toNat_ofNat, hN, pow_mul, Nat.mod_eq_of_lt hlt, ofDigits_digit hdigit (by simpa using h)]
  simp

theorem tileWord_ofWords (f : Nat → Nat) {n : Nat} (h : n < 256) : tileWord (ofWords f) n = f n % 2 ^ 32 :=
  ofNat_field f rfl (by omega) h

/-! ## Integer accumulation (R125) -/

theorem patOf_lt (w : Nat) (x : Int) : patOf w x < 2 ^ w := by
  have h : (0 : Int) < (2 ^ w : Nat) := by exact_mod_cast Nat.two_pow_pos w
  have h1 := Int.emod_lt_of_pos x h
  have h0 := Int.emod_nonneg x (Int.ne_of_gt h)
  unfold patOf
  omega

/-- A sum of 32-bit integers may be wrapped before the rest is added. -/
theorem patOf_wrap_add (x y : Int) : patOf 32 (toSigned 32 (patOf 32 x) + y) = patOf 32 (x + y) := by
  unfold patOf toSigned
  dsimp only
  split <;> omega

/-- R125: steps that wrap come to the wrapped sum. -/
theorem foldl_wrap (f : Nat → Int) (l : List Nat) (p : Int × Bool) :
    let r := l.foldl (fun (p : Int × Bool) k => (toSigned 32 (patOf 32 (p.1 + f k)), p.2)) p
    patOf 32 r.1 = patOf 32 (p.1 + (l.map f).sum) ∧ r.2 = p.2 := by
  induction l generalizing p with
  | nil => simp
  | cons k t ih =>
    obtain ⟨h1, h2⟩ := ih (toSigned 32 (patOf 32 (p.1 + f k)), p.2)
    refine ⟨h1.trans ?_, h2⟩
    rw [patOf_wrap_add, List.map_cons, List.sum_cons, Int.add_assoc]

/-- R125: steps that clamp, without the mark that one did. -/
theorem foldl_clamp (f : Nat → Int) (l : List Nat) (p : Int × Bool) :
    (l.foldl (fun (p : Int × Bool) k =>
      if p.1 + f k < -(2 ^ 31 : Nat) then (-(2 ^ 31 : Nat), true)
      else if (2 ^ 31 : Nat) ≤ p.1 + f k then ((2 ^ 31 : Nat) - 1, true)
      else (p.1 + f k, p.2)) p).1 = l.foldl (fun b k => max (-2 ^ 31) (min (2 ^ 31 - 1) (b + f k))) p.1 := by
  induction l generalizing p with
  | nil => rfl
  | cons k t ih =>
    simp only [List.foldl_cons]
    rw [ih]
    congr 1
    split
    · dsimp only; omega
    · split <;> dsimp only <;> omega

section
variable (m : MacMode) (oa ob : Opnd) (i j c0 : Nat)

/-- The product that an integer command adds at step l. -/
def macProd (l : Nat) : Int := negIfI m.nb (negIfI m.na ((oa.int i l).1 * (ob.int l j).1))

theorem macInt_wrap (h : m.sat = false) : macInt m oa ob i j c0 =
    (patOf 32 ((if m.fresh then 0 else toSigned 32 c0) + ((List.range 64).map (macProd m oa ob i j)).sum), false) := by
  obtain ⟨h1, h2⟩ := foldl_wrap (macProd m oa ob i j) (List.range 64) (if m.fresh then 0 else toSigned 32 c0, false)
  simp only [macInt, h, Bool.not_false, if_true]
  rw [Prod.mk.injEq]
  exact ⟨h1, h2⟩

theorem macInt_clamp (h : m.sat = true) : (macInt m oa ob i j c0).1 =
    patOf 32 ((List.range 64).foldl (fun b l => max (-2 ^ 31) (min (2 ^ 31 - 1) (b + macProd m oa ob i j l)))
      (if m.fresh then 0 else toSigned 32 c0)) := by
  have h1 := foldl_clamp (macProd m oa ob i j) (List.range 64) (if m.fresh then 0 else toSigned 32 c0, false)
  simp only [macInt, h, Bool.not_true, Bool.false_eq_true, if_false]
  exact congrArg (patOf 32) h1

end

/-! ## Floating accumulation (R123, R124) -/

theorem signBit_ffmt3 (s : Bool) : signBit (ffmt 3) s ≤ 2 ^ 31 := by cases s <;> decide

/-- A value that is not zero overflows, or takes a code up to the largest finite one. -/
theorem roundFloat_fin (f mode : Nat) (sat s : Bool) {n : Nat} (d : Nat) (hn : n ≠ 0) : ∃ code flags,
    roundFloat f mode sat (.fin s n d) =
      if (ffmt f).maxc < code then overflow (ffmt f) mode sat s else { code := signBit (ffmt f) s + code, flags := flags } :=
  ⟨_, _, if_neg hn⟩

/-- The pattern of a rounded sum has 32 bits. -/
theorem rne32_lt (v : Num) : rne32 v < 2 ^ 32 := by
  have hmax : (ffmt 3).maxc = 0x7F7FFFFF := rfl
  have hinf : (ffmt 3).inf = some 0x7F800000 := rfl
  unfold rne32
  cases v with
  | nan => decide
  | inf s => cases s <;> decide
  | fin s n d =>
    have hs := signBit_ffmt3 s
    by_cases hn : n = 0
    · simp only [roundFloat, hn, if_true]; omega
    · obtain ⟨code, flags, h⟩ := roundFloat_fin 3 0 false s d hn
      rw [h]
      split
      · simp only [overflow, hinf, Bool.false_eq_true, if_false, if_true]; omega
      · dsimp only; omega

theorem foldl_rne32_lt {α : Type} (f : Nat → α → Num) (l : List α) {c : Nat} (h : c < 2 ^ 32) :
    l.foldl (fun c x => rne32 (f c x)) c < 2 ^ 32 := by
  induction l generalizing c with
  | nil => exact h
  | cons x t ih => exact ih (rne32_lt _)

section
variable (m : MacMode) (oa ob : Opnd) (i j : Nat) {c0 : Nat}

theorem macStart_lt (h : c0 < 2 ^ 32) : (if m.fresh then 2 ^ 31 else c0) < 2 ^ 32 := by split <;> omega

theorem macBlock_lt (h : c0 < 2 ^ 32) : macBlock m oa ob i j c0 < 2 ^ 32 := foldl_rne32_lt _ _ (macStart_lt m h)

theorem macFloat_lt (h : c0 < 2 ^ 32) : macFloat m oa ob i j c0 < 2 ^ 32 := foldl_rne32_lt _ _ (macStart_lt m h)

/-- R123: outside of reduced service each product is added by itself. -/
theorem macFloat_single (h : m.reduced = false) : macFloat m oa ob i j c0 =
    (List.range 64).foldl (fun b l => rne32 ((fp32 b).sum2 ((negIf m.na (oa.at_ i l)).mul (negIf m.nb (ob.at_ l j)))))
      (if m.fresh then 2 ^ 31 else c0) := by
  simp only [macFloat, kGroups, h, Bool.false_eq_true, if_false, List.foldl_map, List.map_cons, List.map_nil, Num.sum]

end

section
variable {m : MacMode} {oa ob : Opnd} {x : Tile} {n : Nat}

theorem tileWord_lt (x : Tile) (n : Nat) : tileWord x n < 2 ^ 32 := Nat.mod_lt _ (by omega)

theorem tileWord_macTile_int (h : isInt32 (shFmt oa.e) (shFmt ob.e) = true) (hn : n < 256) :
    tileWord (macTile m oa ob x).1 n = (macInt m oa ob (n / 16) (n % 16) (tileWord x n)).1 := by
  simp only [macTile, h, if_true, tileWord_ofWords _ hn]
  exact Nat.mod_eq_of_lt (patOf_lt 32 _)

theorem macTile_noClamp (h : isInt32 (shFmt oa.e) (shFmt ob.e) = true) (hs : m.sat = false) : (macTile m oa ob x).2 = false := by
  simp [macTile, h, macInt_wrap _ _ _ _ _ _ hs]

theorem tileWord_macTile_block (h : isInt32 (shFmt oa.e) (shFmt ob.e) = false) (hb : isBlk (shFmt oa.e) = true ∨ isBlk (shFmt ob.e) = true)
    (hn : n < 256) : tileWord (macTile m oa ob x).1 n = macBlock m oa ob (n / 16) (n % 16) (tileWord x n) := by
  have hb' : (isBlk (shFmt oa.e) || isBlk (shFmt ob.e)) = true := by simpa using hb
  simp only [macTile, h, hb', Bool.false_eq_true, if_false, if_true, tileWord_ofWords _ hn]
  exact Nat.mod_eq_of_lt (macBlock_lt m oa ob _ _ (tileWord_lt x n))

theorem tileWord_macTile_float (h : isInt32 (shFmt oa.e) (shFmt ob.e) = false) (ha : isBlk (shFmt oa.e) = false)
    (hb : isBlk (shFmt ob.e) = false) (hn : n < 256) :
    tileWord (macTile m oa ob x).1 n = macFloat m oa ob (n / 16) (n % 16) (tileWord x n) := by
  simp only [macTile, h, ha, hb, Bool.or_false, Bool.false_eq_true, if_false, tileWord_ofWords _ hn]
  exact Nat.mod_eq_of_lt (macFloat_lt m oa ob _ _ (tileWord_lt x n))

end

/-- R123-R125: what a command accumulates in a word of its tile. -/
theorem macTile_accumulates (m : MacMode) (oa ob : Opnd) (x : Tile) (i k : Nat) : i < 16 → k < 16 →
      let c0 := tileWord x (16 * i + k)
      let z := tileWord (macTile m oa ob x).1 (16 * i + k)
      let prod := fun l => negIfI m.nb (negIfI m.na ((oa.int i l).1 * (ob.int l k).1))
      let from_ := if m.fresh then 0 else toSigned 32 c0
      (isInt32 (shFmt oa.e) (shFmt ob.e) = true → m.sat = false →
        z = patOf 32 (from_ + ((List.range 64).map prod).sum) ∧ (macTile m oa ob x).2 = false) ∧
      (isInt32 (shFmt oa.e) (shFmt ob.e) = true → m.sat = true →
        z = patOf 32 ((List.range 64).foldl (fun b l => max (-2 ^ 31) (min (2 ^ 31 - 1) (b + prod l))) from_)) ∧
      (isInt32 (shFmt oa.e) (shFmt ob.e) = false → isBlk (shFmt oa.e) = false → isBlk (shFmt ob.e) = false → m.reduced = false →
        z = (List.range 64).foldl (fun b l => rne32 ((fp32 b).sum2 ((negIf m.na (oa.at_ i l)).mul (negIf m.nb (ob.at_ l k)))))
          (if m.fresh then 2 ^ 31 else c0)) ∧
      (isInt32 (shFmt oa.e) (shFmt ob.e) = false → isBlk (shFmt oa.e) = true ∨ isBlk (shFmt ob.e) = true →
        z = macBlock m oa ob i k c0) := by
  intro hi hk
  have hn : 16 * i + k < 256 := by omega
  have hrow : (16 * i + k) / 16 = i := by omega
  have hcol : (16 * i + k) % 16 = k := by omega
  refine ⟨fun h hs => ⟨?_, macTile_noClamp h hs⟩, fun h hs => ?_, fun h ha hb hr => ?_, fun h hb => ?_⟩
  · rw [tileWord_macTile_int h hn, hrow, hcol, macInt_wrap _ _ _ _ _ _ hs]; rfl
  · rw [tileWord_macTile_int h hn, hrow, hcol, macInt_clamp _ _ _ _ _ _ hs]; rfl
  · rw [tileWord_macTile_float h ha hb hn, hrow, hcol, macFloat_single _ _ _ _ _ hr]
  · rw [tileWord_macTile_block h hb hn, hrow, hcol]

/-! ## The bytes of `mget` (R330) -/

theorem getD_flatten {f : Nat → List Byte} {n : Nat} (hf : ∀ i, (f i).length = n) {m i k : Nat} (h : i < m) (hk : k < n) :
    (((List.range m).map f).flatten).getD (n * i + k) 0 = (f i).getD k 0 := by
  induction m generalizing f i with
  | zero => omega
  | succ m ih =>
    rw [List.range_succ_eq_map, List.map_cons, List.flatten_cons, List.map_map]
    cases i with
    | zero => rw [Nat.mul_zero, Nat.zero_add]; exact List.getD_append _ _ _ _ (by rw [hf]; exact hk)
    | succ i =>
      rw [List.getD_append_right _ _ _ _ (by rw [hf, Nat.mul_succ]; omega), hf, Nat.mul_succ,
        show n * i + n + k - n = n * i + k by omega]
      exact ih (fun i => hf (i + 1)) (by omega)

/-- An integer rounds to the range of I8 by clamping (R115). -/
theorem roundRange_ofInt (lo hi y : Int) (h : lo ≤ hi) : (roundRange lo hi 0 (Num.ofInt y)).val = max lo (min hi y) := by
  have hround : roundNat 0 (decide (y < 0)) y.natAbs 1 = y.natAbs := by simp [roundNat, Nat.mod_one]
  have hsigned : signedNat (decide (y < 0)) y.natAbs = y := by
    unfold signedNat; split <;> rename_i hy <;> simp only [decide_eq_true_eq] at hy <;> omega
  simp only [roundRange, Num.ofInt, hround, hsigned]
  split
  · dsimp only; omega
  · split <;> dsimp only <;> omega

theorem ofNat_patOf8 (x : Int) : BitVec.ofNat 8 (patOf 8 x) = BitVec.ofInt 8 x := by
  rw [← BitVec.ofInt_natCast, patOf, Int.toNat_of_nonneg (Int.emod_nonneg x (by decide))]
  exact BitVec.eq_of_toInt_eq (by simp only [BitVec.toInt_ofInt, Int.emod_bmod])

section
variable {p : Word} {x : Tile} {i k : Nat}

/-- A row of an I8 tile: its words clamped. -/
theorem encodeElems_i8 (l : Nat) (ys : List Int) : (encodeElems 9 l 0 false (ys.map Num.ofInt)).1 =
    ys.map fun y => BitVec.ofInt 8 (max (-128) (min 127 y)) := by
  have hcode : ∀ y : Int, natBytes 1 (roundElem 9 0 false (Num.ofInt y)).code = [BitVec.ofInt 8 (max (-128) (min 127 y))] := by
    intro y
    have : (roundElem 9 0 false (Num.ofInt y)).code = patOf 8 (roundRange (-128) 127 0 (Num.ofInt y)).val := rfl
    rw [this, roundRange_ofInt _ _ _ (by omega)]
    simp [natBytes, ofNat_patOf8]
  have : (encodeElems 9 l 0 false (ys.map Num.ofInt)).1 =
      ((((ys.map Num.ofInt).map (roundElem 9 0 false)).map (·.code)).map (natBytes 1)).flatten := rfl
  rw [this]
  simp only [List.map_map, Function.comp_def, hcode, ← List.flatMap_def, ← List.map_eq_flatMap]
end

end Sys2Proof.Machine
end

section
/-! O59: the events of the accord, of `mget`, of surrogates and of ended contexts. -/

namespace Sys2Proof.Machine

/-! ## The bytes of `mget` (R330) -/

section
variable {p : Word} (x : Tile) {i k : Nat}

/-- The bytes of row i of a tile in the format of a pointer. -/
def mgetRowBytes (x : Tile) (p : Word) (i : Nat) : List Byte :=
  let ws := (List.range 16).map fun j => tileWord x (16 * i + j)
  if pFmt p = 0 || pFmt p = 3 then (ws.map (natBytes 4)).flatten
  else (encodeElems (pFmt p) (pBlg p) 0 false (ws.map fun w => if 9 ≤ pFmt p && pFmt p ≤ 12 then Num.ofInt (toSigned 32 w) else fp32 w)).1

theorem mgetBytes_rows (p : Word) : mgetBytes x p = ((List.range 16).map (mgetRowBytes x p)).flatten := rfl

/-- Rows of words. -/
theorem mgetRowBytes_words (h : pFmt p = 0 ∨ pFmt p = 3) (i : Nat) :
    mgetRowBytes x p i = ((List.range 16).map fun j => natBytes 4 (tileWord x (16 * i + j))).flatten := by
  have h' : (pFmt p = 0 || pFmt p = 3) = true := by simpa using h
  rw [mgetRowBytes, if_pos h', List.map_map]; rfl

/-- Rows of I8 elements. -/
theorem mgetRowBytes_i8 (h : pFmt p = 9) (i : Nat) : mgetRowBytes x p i =
    (List.range 16).map fun j => BitVec.ofInt 8 (max (-128) (min 127 (toSigned 32 (tileWord x (16 * i + j))))) := by
  have hint : (((List.range 16).map fun j => tileWord x (16 * i + j)).map fun w =>
      if (9 ≤ 9 && 9 ≤ 12) = true then Num.ofInt (toSigned 32 w) else fp32 w) =
      ((List.range 16).map fun j => toSigned 32 (tileWord x (16 * i + j))).map Num.ofInt := by
    simp
  simp only [mgetRowBytes, h]
  rw [if_neg (by decide)]
  refine (congrArg (fun ys => (encodeElems 9 (pBlg p) 0 false ys).1) hint).trans ?_
  rw [encodeElems_i8, List.map_map]; rfl

theorem mgetBytes_word (h : pFmt p = 0 ∨ pFmt p = 3) (hi : i < 16) (hk : k < 16) :
    leBytes (mgetBytes x p) (64 * i + 4 * k) 4 = tileWord x (16 * i + k) := by
  have hlen : ∀ i, (mgetRowBytes x p i).length = 64 := fun i => by
    rw [mgetRowBytes_words x h]; exact length_flatten_natBytes 4 16 _
  have hrow : leBytes (mgetBytes x p) (64 * i + 4 * k) 4 = leBytes (mgetRowBytes x p i) (4 * k) 4 :=
    leBytes_congr 4 fun b hb => by
      rw [mgetBytes_rows, Nat.add_assoc, getD_flatten hlen hi (by omega)]
  rw [hrow, mgetRowBytes_words x h, leBytes_flatten (fun j => length_natBytes 4 _) hk, leBytes_natBytes]
  exact Nat.mod_eq_of_lt (tileWord_lt x _)

theorem mgetBytes_i8 (h : pFmt p = 9) (hi : i < 16) (hk : k < 16) :
    (mgetBytes x p).getD (16 * i + k) 0 = BitVec.ofInt 8 (max (-128) (min 127 (toSigned 32 (tileWord x (16 * i + k))))) := by
  have hlen : ∀ i, (mgetRowBytes x p i).length = 16 := fun i => by rw [mgetRowBytes_i8 x h]; simp
  rw [mgetBytes_rows, getD_flatten hlen hi hk, mgetRowBytes_i8 x h]
  simp [hk]

end

/-! ## Accord commands -/

section
variable {s : State} {c : CoreId} {h : BitVec 9} {y : Half} {a : AccCmd} {j : Nat}

theorem half_setHalf (s : State) (h : BitVec 9) (y : Half) : (s.setHalf h y).half h = y := by
  simp [State.half, State.setHalf]

theorem cores_modLaunch (t : BitVec 16) (f : Launch → Launch) : (s.modLaunch t f).cores = s.cores := by
  unfold State.modLaunch; split <;> rfl

theorem core_markReduced (p : Prop) [Decidable p] (t : BitVec 16) (f : Launch → Launch) (c : CoreId) :
    (if p then s.modLaunch t f else s).core c = s.core c := by
  split
  · exact core_of_cores (cores_modLaunch t f)
  · rfl

theorem core_setHalf (s : State) (c : CoreId) : (s.setHalf h y).core c = s.core c := rfl

theorem acc_countCore (e m : Nat) : ((s.countCore c e m).core c).acc = (s.core c).acc := by
  rw [State.countCore, State.core_modCore]

/-- R318: the command that the arbiter chooses begins. -/
theorem execAccordCommandBegin_begins (hb : (s.half h).begun = none) (ha : arbitrate (s.half h) (eligibleCores s h) = some (j, y))
    (ho : oldestCmd (s.core (halfCore h j)) = some a) :
    ∃ u, execAccordCommandBegin h s = .next u ∧ u.half h = y ∧ u.mem = s.mem ∧
      (u.core (halfCore h j)).acc.q = (s.core (halfCore h j)).acc.q.map fun z =>
        if z.seq = a.seq then beginCmd s (halfCore h j) (s.core (halfCore h j)) a else z := by
  simp only [execAccordCommandBegin, hb, Option.isSome_none, Bool.false_eq_true, if_false, ha, ho]
  refine ⟨_, rfl, half_setHalf _ h y, ?_, ?_⟩
  · split
    · exact mem_modLaunch ..
    · rfl
  · rw [State.core_modCore, core_setHalf, core_markReduced, acc_countCore, acc_countCore]

theorem execAccordCommandRetire_retires {m : BitVec 3} (hb : (s.half h).begun = some m)
    (hf : (s.core (halfCore h m.toNat)).acc.q.find? (·.begun) = some a) :
    execAccordCommandRetire h s =
      .next ((s.setHalf h { s.half h with begun := none }).modCore (halfCore h m.toNat) fun k => retireCmd k a) := by
  have hf' : ((s.setHalf h { s.half h with begun := none }).core (halfCore h m.toNat)).acc.q.find? (·.begun) = some a := hf
  simp only [execAccordCommandRetire, hb, hf']

theorem cmdTile_lt (i : Instr) : cmdTile i < 4 := by
  unfold cmdTile; split
  · exact BitVec.isLt _
  · exact BitVec.isLt _
  · exact BitVec.isLt _
  · decide

theorem Core.ring_setRing_ne (k : Core) {i j : Nat} (r : Ring) (h : i ≠ j) : (k.setRing j r).ring i = k.ring i :=
  vget_vset_ne _ _ _ h

/-- R324: the entries that a slot's release adds to C and F. -/
def freedBy (keep : Bool) : W32 := if keep then 0 else 1

theorem freeSlot_same (k : Core) {j : Nat} (keep : Bool) (hj : j < 32) :
    ((freeSlot k j keep).ring j).c = (k.ring j).c + freedBy keep ∧ ((freeSlot k j keep).ring j).f = (k.ring j).f + freedBy keep := by
  cases keep
  · simp only [freeSlot, Bool.false_eq_true, if_false, Core.ring_setRing _ _ hj, freedBy, and_self]
  · simp [freeSlot, freedBy]

theorem freeSlot_ne (k : Core) {i j : Nat} (keep : Bool) (h : i ≠ j) : (freeSlot k j keep).ring i = k.ring i := by
  cases keep
  · simp only [freeSlot, Bool.false_eq_true, if_false, Core.ring_setRing_ne _ _ h]
  · simp [freeSlot]

/-- A command frees its slots, and changes nothing else that its retirement reads of the unit. -/
theorem freeSlot_acc (k : Core) (j : Nat) (keep : Bool) : (freeSlot k j keep).acc = k.acc := by
  cases keep <;> simp [freeSlot, Core.setRing]

theorem retireCmd_rings (k : Core) (hr : (cmdRings a.i).isSome = true) (hb : a.bind = false) :
    (retireCmd k a).rings = (freeSlot (freeSlot k a.ringA (cmdKeeps a.i).1) a.ringB (cmdKeeps a.i).2).rings := by
  simp [retireCmd, hr, hb]

/-- The state of the unit from which a retirement goes on: that of the core. -/
theorem retireCmd_freed (k : Core) : (if ((cmdRings a.i).isSome && !a.bind) = true then
    freeSlot (freeSlot k a.ringA (cmdKeeps a.i).1) a.ringB (cmdKeeps a.i).2 else k).acc = k.acc := by
  split
  · rw [freeSlot_acc, freeSlot_acc]
  · rfl

theorem retireCmd_tiles_written (k : Core) {x : Tile} (h : a.res = some x) :
    (retireCmd k a).acc.tiles = vset k.acc.tiles (cmdTile a.i) x := by
  simp only [retireCmd, retireCmd_freed, h]

theorem retireCmd_tiles_kept (k : Core) (h : a.res = none) : (retireCmd k a).acc.tiles = k.acc.tiles := by
  simp only [retireCmd, retireCmd_freed, h]

theorem retireCmd_q (k : Core) : (retireCmd k a).acc.q = k.acc.q.filter fun z => z.seq != a.seq := by
  simp only [retireCmd, retireCmd_freed]

theorem retireCmd_tile (k : Core) (i : Nat) : vget (retireCmd k a).acc.tiles i 0 =
    (match a.res with | some x => if i = cmdTile a.i then x else vget k.acc.tiles i 0 | none => vget k.acc.tiles i 0) := by
  cases hres : a.res with
  | none => rw [retireCmd_tiles_kept k hres]
  | some x =>
    rw [retireCmd_tiles_written k hres]
    dsimp only
    split
    · next h => rw [h]; exact vget_vset_same _ _ _ _ (cmdTile_lt a.i)
    · next h => exact vget_vset_ne _ _ _ h

theorem mem_retireCmd_q (k : Core) (z : AccCmd) (hz : z ∈ (retireCmd k a).acc.q) : z.seq ≠ a.seq ∧ z ∈ k.acc.q := by
  rw [retireCmd_q, List.mem_filter] at hz
  exact ⟨by simpa using hz.2, hz.1⟩

/-- R324: the slots of a command are freed unless it keeps them. -/
theorem retireCmd_frees (k : Core) (hr : (cmdRings a.i).isSome = true) (hb : a.bind = false) (hne : a.ringA ≠ a.ringB)
    (hA : a.ringA < 32) (hB : a.ringB < 32) :
    ((retireCmd k a).ring a.ringA).c = (k.ring a.ringA).c + freedBy (cmdKeeps a.i).1 ∧
    ((retireCmd k a).ring a.ringA).f = (k.ring a.ringA).f + freedBy (cmdKeeps a.i).1 ∧
    ((retireCmd k a).ring a.ringB).c = (k.ring a.ringB).c + freedBy (cmdKeeps a.i).2 ∧
    ((retireCmd k a).ring a.ringB).f = (k.ring a.ringB).f + freedBy (cmdKeeps a.i).2 := by
  have hring : ∀ j, (retireCmd k a).ring j = (freeSlot (freeSlot k a.ringA (cmdKeeps a.i).1) a.ringB (cmdKeeps a.i).2).ring j :=
    fun j => by simp only [Core.ring, retireCmd_rings k hr hb]
  obtain ⟨hAc, hAf⟩ := freeSlot_same k (cmdKeeps a.i).1 hA
  obtain ⟨hBc, hBf⟩ := freeSlot_same (freeSlot k a.ringA (cmdKeeps a.i).1) (cmdKeeps a.i).2 hB
  rw [freeSlot_ne _ _ hne.symm] at hBc hBf
  simp only [hring, freeSlot_ne _ _ hne, hAc, hAf, hBc, hBf, and_self]

end

/-! ## `mget`, surrogates, ended contexts -/

section
variable {s : State} {c : CoreId} {n : SlotNo} {g : Mget}

theorem execMgetTileRead_reads (hf : (s.core c).acc.mgets.find? (mgetReady (s.core c)) = some g) :
    ∃ u, execMgetTileRead c s = .next u ∧ u.mem = s.mem ∧ (u.core c).acc.mgets = (s.core c).acc.mgets.map fun z =>
      if z.seq = g.seq then { z with bytes := some (mgetBytes (vget (s.core c).acc.tiles g.acc.toNat 0) g.ptr) } else z := by
  simp only [execMgetTileRead, hf]
  exact ⟨_, rfl, rfl, by rw [State.core_modCore, acc_countCore]⟩

theorem execMgetComplete_writes (hf : (s.core c).acc.mgets.find? (fun g => g.bytes.isSome && g.due ≤ (s.core c).cyc) = some g)
    (hh : keysHeld s g.keys = false) : execMgetComplete c s =
      .next (endLong ((writeKeysSquash s g.keys (g.bytes.getD [])).modCore c fun k =>
        { k with acc := { k.acc with mgets := k.acc.mgets.filter fun z => z.seq != g.seq } }) c g.slot g.id) := by
  simp only [execMgetComplete, hf, hh, Bool.false_eq_true, if_false]

theorem Inv.settled_pend {v : Inv} (h : v.pend = true) : v.settled.pend = false := by simp [Inv.settled, h]

theorem Inv.settled_out {v : Inv} (h : v.pend = true) {i : Nat} (hi : i < v.res.length) (h16 : i < 16) :
    vget v.settled.out i 0 = v.res.getD i 0 := by
  simp only [Inv.settled, h, if_true, vget_ofFn _ _ h16]
  simp [hi]

theorem execSurrogateResult_settles (hp : (s.ctx c n).inv.pend = true) (hn : n.toNat < 11) :
    ∃ u, execSurrogateResult c n s = .next u ∧ (u.ctx c n).inv.pend = false ∧
      ∀ i, i < (s.ctx c n).inv.res.length → i < 16 → vget (u.ctx c n).inv.out i 0 = (s.ctx c n).inv.res.getD i 0 := by
  refine ⟨_, rfl, ?_, fun i hi h16 => ?_⟩ <;> rw [State.ctx_modCtx _ _ _ _ hn]
  · exact Inv.settled_pend hp
  · exact Inv.settled_out hp hi h16

theorem execHeldConstraintReturn_retiring (hr : (s.ctx c n).retiring = true) (hc : (s.ctx c n).chunk = none) (hl : (s.ctx c n).rel = none)
    (hv : (s.ctx c n).st ≠ .vacant) : execHeldConstraintReturn c n s = .next (returnAllHeld s c n) := by
  simp [execHeldConstraintReturn, hr, hc, Ctx.owes_none _ hl, hv]
end

end Sys2Proof.Machine

open Sys2Proof Sys2Proof.Machine

/-- Settles O59: a copy's move by its read and its one write, a command's words by the folds of its accumulation, and each other event by
its own definition. -/
theorem engineEvents : Obligations.EngineEvents := by
  unfold Obligations.EngineEvents
  intro s c n ch h x e y a j g
  refine ⟨execCopyWrite_ok, ?_, ?_, ?_, ?_, fun z q m kind dec k hk => (z.take_keeps c q m kind dec).mem k hk, ?_, ?_,
    macTile_accumulates, execAccordCommandBegin_begins, fun m => execAccordCommandRetire_retires, ?_, execMgetTileRead_reads, ?_,
    execMgetComplete_writes, execSurrogateResult_settles, execHeldConstraintReturn_retiring⟩
  · intro hst ht haw
    refine (execCopyComplete_end hst ht).trans ?_
    rw [completeCopy_awaits _ haw, completeCopy_awaits _ haw, completeCopy_awaits _ haw]
  · intro hst ht haw hrv hmv
    exact ⟨_, execCopyComplete_end hst ht, completeCopy_thrice ch.isLt ⟨hst, haw, hrv, hmv⟩⟩
  · intro hr hn
    exact ⟨(execCopyError_stop hr hn).1, (execCopyError_stop hr hn).2, execCopyWrite_stop hr hn⟩
  · intro z k p q m ks kd bs
    exact copyNext_linear p q m ks kd bs
  · intro d
    exact ⟨fun hd i1 i2 i3 => runOffs_strided hd i3, runOffs_gather, fun hd q x => mem_copyDests_mcast hd q x⟩
  · intro z z' r o p q bs
    exact runSrc_gather
  · intro k i _
    exact ⟨retireCmd_tile k i, mem_retireCmd_q k, retireCmd_frees k⟩
  · intro x p i k hi hk
    exact ⟨fun hf => mgetBytes_word x hf hi hk, fun hf => mgetBytes_i8 x hf hi hk⟩
end

section
/-! O12: the lanes of a masked vector result (R300, R301, R304). -/

namespace Sys2Proof.Machine

/-! ## Lanes of a register -/

section
variable {t : BitVec 3}

/-- R300: the lanes of a type fill a vector register. -/
theorem laneBits_mul_laneCount (h : t ≠ 7) : 512 = laneBits t * laneCount t := by
  revert t; decide

theorem laneBits_pos (t : BitVec 3) : 0 < laneBits t := by
  revert t; decide

theorem laneOf_lt (t : BitVec 3) (v : VReg) (k : Nat) : laneOf t v k < 2 ^ laneBits t := Nat.mod_lt _ (Nat.two_pow_pos _)

theorem laneOf_ofLanes (ht : t ≠ 7) (f : Nat → Nat) {k : Nat} (hk : k < laneCount t) :
    laneOf t (ofLanes (laneBits t) (laneCount t) f) k = f k % 2 ^ laneBits t :=
  ofNat_field f (laneBits_mul_laneCount ht) (laneBits_pos t) hk

variable (s : State) (m : BitVec 3) (old : VReg) (f : Nat → Rounded) {k : Nat}

/-- R301: what a masked result holds in a lane: the new code of an active lane, and the old lane elsewhere. -/
theorem laneOf_masked (ht : t ≠ 7) (hk : k < laneCount t) : laneOf t (masked s t m old f).1 k =
    (if s.active m k then f k else plain (laneOf t old k)).code % 2 ^ laneBits t := by
  rw [masked, laneOf_ofLanes ht _ hk]
  simp [hk]
end

end Sys2Proof.Machine

open Sys2Proof Sys2Proof.Machine

/-- Settles O12: the lane of a masked result, and that neither code exceeds its lane. -/
theorem maskedLanes : Obligations.MaskedLanes := by
  intro s t m old f k ht hk hf
  rw [laneOf_masked s m old f ht hk, State.active]
  split
  · exact Nat.mod_eq_of_lt (hf k)
  · exact Nat.mod_eq_of_lt (laneOf_lt t old k)
end

section
/-! O14: integer lanes and the trees of reductions (R128, R130). -/

namespace Sys2Proof.Machine

/-! ## Integer lanes (R128) -/

section
variable {w : Nat} {t : BitVec 3}

theorem patOf_congr {x y : Int} (h : x ≡ y [ZMOD (2 ^ w : Nat)]) : patOf w x = patOf w y := by
  rw [patOf, patOf, h.eq]

theorem patOf_natCast (w n : Nat) : patOf w (n : Int) = n % 2 ^ w := by
  rw [patOf, ← Int.natCast_emod, Int.toNat_natCast]

theorem toSigned_modEq (w x : Nat) : toSigned w x ≡ x [ZMOD (2 ^ w : Nat)] := by
  have hmod : ((x % 2 ^ w : Nat) : Int) ≡ x [ZMOD (2 ^ w : Nat)] := by
    rw [Int.natCast_emod]
    exact Int.mod_modEq _ _
  unfold toSigned
  dsimp only
  split
  · have hwrap : ((x % 2 ^ w : Nat) : Int) - (2 ^ w : Nat) ≡ (x % 2 ^ w : Nat) [ZMOD (2 ^ w : Nat)] := by
      simp [Int.modEq_iff_dvd]
    rw [Nat.cast_pow, Nat.cast_ofNat] at hwrap
    exact hwrap.trans hmod
  · exact hmod

/-- The integer of a lane is its pattern, up to the lane's modulus. -/
theorem laneInt_modEq (t : BitVec 3) (x : Nat) : laneInt t x ≡ x [ZMOD (2 ^ laneBits t : Nat)] := by
  rw [laneInt]
  split
  · rfl
  · exact toSigned_modEq ..

/-- A lane whose integer is congruent to a natural number holds that number, cut to the lane. -/
theorem intLane_of_modEq {x : Int} {n : Nat} (h : x ≡ n [ZMOD (2 ^ laneBits t : Nat)]) : intLane t x = plain (n % 2 ^ laneBits t) := by
  rw [intLane, patOf_congr h, patOf_natCast]

theorem laneAdd_int (ht : isFloatT t = false) (a b : Nat) : laneAdd t a b = plain ((a + b) % 2 ^ laneBits t) := by
  rw [laneAdd, if_neg (by simp [ht])]
  refine intLane_of_modEq ?_
  rw [Nat.cast_add]
  exact (laneInt_modEq t a).add (laneInt_modEq t b)
end

/-! ## Reduction trees (R130) -/

section
variable {f : Nat → Nat → Rounded}

/-- The lanes that one level of a tree gives. -/
def pairCodes (f : Nat → Nat → Rounded) (xs : List Nat) : List Nat := (pairUp f xs).map (·.code)

theorem pairCodes_cons_cons (a b : Nat) (xs : List Nat) : pairCodes f (a :: b :: xs) = (f a b).code :: pairCodes f xs := rfl

theorem length_pairCodes {n : Nat} {xs : List Nat} (h : xs.length = 2 * n) : (pairCodes f xs).length = n := by
  induction xs using List.twoStepInduction generalizing n with
  | nil => simp at h; simp [pairCodes, pairUp, h]
  | singleton a => simp at h; omega
  | cons_cons a b xs ih _ =>
    rw [pairCodes_cons_cons, List.length_cons, ih (n := n - 1) (by simp at h; omega)]
    simp at h; omega

/-- What a tree over 2^j lanes keeps, level by level, holds of its result. -/
theorem tree_induction {P : List Nat → Nat → Prop} (one : ∀ x, P [x] x)
    (level : ∀ n xs z, xs.length = 2 * n → P (pairCodes f xs) z → P xs z) :
    ∀ {j : Nat} {xs : List Nat}, xs.length = 2 ^ j → P xs (tree f j xs).code
  | 0, xs, h => by
    obtain ⟨x, rfl⟩ := List.length_eq_one_iff.mp h
    exact one x
  | j + 1, xs, h => by
    rw [Nat.pow_succ'] at h
    exact level _ xs _ h (tree_induction one level (length_pairCodes h))

theorem orFlags_eq_zero {l : List (BitVec 6)} (h : ∀ x ∈ l, x = 0) : orFlags l = 0 := by
  rw [orFlags]
  induction l with
  | nil => rfl
  | cons x l ih =>
    obtain ⟨rfl, hl⟩ := List.forall_mem_cons.mp h
    exact ih hl

theorem pairUp_flags (h : ∀ a b, (f a b).flags = 0) (xs : List Nat) : ∀ x ∈ (pairUp f xs).map (·.flags), x = 0 := by
  induction xs using List.twoStepInduction with
  | nil => exact List.forall_mem_nil _
  | singleton a => exact List.forall_mem_nil _
  | cons_cons a b xs ih _ => exact List.forall_mem_cons.mpr ⟨h a b, ih⟩

/-- A tree of operations that raise no flag raises none. -/
theorem tree_flags (h : ∀ a b, (f a b).flags = 0) : ∀ (j : Nat) (xs : List Nat), (tree f j xs).flags = 0
  | 0, _ => rfl
  | j + 1, xs => by
    rw [tree]
    dsimp only
    rw [orFlags_eq_zero (pairUp_flags h xs), tree_flags h j]
    rfl

theorem tree_four (f : Nat → Nat → Rounded) (a b c d : Nat) : let x := f a b; let y := f c d; let z := f x.code y.code
    tree f 2 [a, b, c, d] = { code := z.code, flags := z.flags ||| (x.flags ||| y.flags) } := by
  simp [tree, pairUp, orFlags, plain]
end

section
variable {t : BitVec 3} {j : Nat} {xs : List Nat}

theorem pairCodes_laneAdd_sum (ht : isFloatT t = false) {n : Nat} (h : xs.length = 2 * n) :
    (pairCodes (laneAdd t) xs).sum ≡ xs.sum [MOD 2 ^ laneBits t] := by
  induction xs using List.twoStepInduction generalizing n with
  | nil => rfl
  | singleton a => simp at h; omega
  | cons_cons a b xs ih _ =>
    simp only [pairCodes_cons_cons, List.sum_cons, ← Nat.add_assoc]
    rw [laneAdd_int ht]
    exact (Nat.mod_modEq _ _).add (ih (n := n - 1) (by simp at h; omega))

theorem pairCodes_laneAdd_lt (ht : isFloatT t = false) (xs : List Nat) : ∀ x ∈ pairCodes (laneAdd t) xs, x < 2 ^ laneBits t := by
  induction xs using List.twoStepInduction with
  | nil => exact List.forall_mem_nil _
  | singleton a => exact List.forall_mem_nil _
  | cons_cons a b xs ih _ =>
    refine List.forall_mem_cons.mpr ⟨?_, ih⟩
    rw [laneAdd_int ht]
    exact Nat.mod_lt _ (Nat.two_pow_pos _)

/-- R130: the tree of integer sums is the wrapped sum. -/
theorem tree_laneAdd (ht : isFloatT t = false) (h : xs.length = 2 ^ j) (hx : ∀ x ∈ xs, x < 2 ^ laneBits t) :
    tree (laneAdd t) j xs = plain (xs.sum % 2 ^ laneBits t) := by
  have hcode : (∀ x ∈ xs, x < 2 ^ laneBits t) → (tree (laneAdd t) j xs).code = xs.sum % 2 ^ laneBits t := by
    refine tree_induction (P := fun xs z => (∀ x ∈ xs, x < 2 ^ laneBits t) → z = xs.sum % 2 ^ laneBits t) (fun x hx => ?_)
      (fun n xs z hn ih _ => ?_) h
    · rw [List.sum_singleton, Nat.mod_eq_of_lt (hx x (List.mem_singleton_self x))]
    · rw [ih (pairCodes_laneAdd_lt ht xs), pairCodes_laneAdd_sum ht hn]
  have hflags := tree_flags (f := laneAdd t) (fun a b => by rw [laneAdd_int ht]; rfl) j xs
  rw [plain, ← hcode hx, ← hflags]

theorem laneMinMax_flags (t : BitVec 3) (u : Bool) (a b : Nat) : (laneMinMax t u a b).flags = 0 := by
  unfold laneMinMax; split <;> rfl

/-- R128: the larger of two integer lanes is one of them, and neither exceeds it. -/
theorem laneMax_int (ht : isFloatT t = false) (a b : Nat) : let z := (laneMinMax t true a b).code
    (z = a ∨ z = b) ∧ laneInt t a ≤ laneInt t z ∧ laneInt t b ≤ laneInt t z := by
  simp only [laneMinMax, ht, Bool.false_eq_true, if_false, if_true, plain]
  split
  · next h => exact ⟨.inr rfl, h, le_rfl⟩
  · next h => exact ⟨.inl rfl, le_rfl, le_of_not_ge h⟩

/-- `z` is one of the lanes, and the largest of them. -/
def IsMaxLane (t : BitVec 3) (xs : List Nat) (z : Nat) : Prop := z ∈ xs ∧ ∀ x ∈ xs, laneInt t x ≤ laneInt t z

theorem isMaxLane_of_pairCodes (ht : isFloatT t = false) {n z : Nat} (h : xs.length = 2 * n)
    (hz : IsMaxLane t (pairCodes (laneMinMax t true) xs) z) : IsMaxLane t xs z := by
  suffices hlevel : (∀ y ∈ pairCodes (laneMinMax t true) xs, y ∈ xs) ∧
      ∀ x ∈ xs, ∃ y ∈ pairCodes (laneMinMax t true) xs, laneInt t x ≤ laneInt t y by
    refine ⟨hlevel.1 z hz.1, fun x hx => ?_⟩
    obtain ⟨y, hy, hxy⟩ := hlevel.2 x hx
    exact hxy.trans (hz.2 y hy)
  clear hz
  induction xs using List.twoStepInduction generalizing n with
  | nil => exact ⟨List.forall_mem_nil _, List.forall_mem_nil _⟩
  | singleton a => simp at h; omega
  | cons_cons a b xs ih _ =>
    obtain ⟨hmem, hle⟩ := ih (n := n - 1) (by simp at h; omega)
    obtain ⟨hab, ha, hb⟩ := laneMax_int ht a b
    rw [pairCodes_cons_cons]
    refine ⟨List.forall_mem_cons.mpr ⟨by rcases hab with hab | hab <;> simp [hab], fun y hy => by simp [hmem y hy]⟩, ?_⟩
    refine List.forall_mem_cons.mpr ⟨⟨_, List.mem_cons_self, ha⟩,
      List.forall_mem_cons.mpr ⟨⟨_, List.mem_cons_self, hb⟩, fun x hx => ?_⟩⟩
    obtain ⟨y, hy, hxy⟩ := hle x hx
    exact ⟨y, List.mem_cons_of_mem _ hy, hxy⟩

/-- R130: the tree of integer maxima is the largest lane. -/
theorem tree_laneMax (ht : isFloatT t = false) (h : xs.length = 2 ^ j) : IsMaxLane t xs (tree (laneMinMax t true) j xs).code :=
  tree_induction (P := IsMaxLane t) (fun x => ⟨List.mem_singleton_self x, fun y hy => by rw [List.mem_singleton.mp hy]⟩)
    (fun _ _ _ hn hz => isMaxLane_of_pairCodes ht hn hz) h
end

/-! ## Block quantisation (R118-R120) -/

section
variable {scale : Nat → Num} {bound : Nat} {x : Num}

/-- The value is within the bound times the scale of the code. -/
def Fits (scale : Nat → Num) (bound : Nat) (x : Num) (c : Nat) : Prop := x.cmp ((Num.ofInt bound).mul (scale c)) ≠ .gt

theorem findScale_fits {fuel c : Nat} (h : Fits scale bound x c) : findScale scale bound x (fuel + 1) c = some c := by
  rw [findScale]
  split
  · next hgt => exact absurd hgt h
  · rfl

theorem findScale_next {fuel c : Nat} (h : ¬Fits scale bound x c) :
    findScale scale bound x (fuel + 1) c = findScale scale bound x fuel (c + 1) := by
  rw [findScale, not_not.mp h]

/-- The search finds the first code that fits, or all of its codes are too small. -/
theorem findScale_spec (fuel c : Nat) :
    (∀ r, findScale scale bound x fuel c = some r →
      c ≤ r ∧ r < c + fuel ∧ (∀ i, c ≤ i → i < r → ¬Fits scale bound x i) ∧ Fits scale bound x r) ∧
    (findScale scale bound x fuel c = none → ∀ i, c ≤ i → i < c + fuel → ¬Fits scale bound x i) := by
  induction fuel generalizing c with
  | zero => exact ⟨nofun, fun _ i h1 h2 => by omega⟩
  | succ fuel ih =>
    by_cases h : Fits scale bound x c
    · rw [findScale_fits h]
      refine ⟨fun r hr => ?_, nofun⟩
      obtain rfl := Option.some.inj hr
      exact ⟨le_rfl, by omega, fun i h1 h2 => by omega, h⟩
    · rw [findScale_next h]
      obtain ⟨hsome, hnone⟩ := ih (c + 1)
      have hfirst (i : Nat) (hi : c ≤ i) (hrest : c + 1 ≤ i → ¬Fits scale bound x i) : ¬Fits scale bound x i := by
        rcases hi.eq_or_lt with rfl | hlt
        · exact h
        · exact hrest hlt
      refine ⟨fun r hr => ?_, fun hr i h1 h2 => hfirst i h1 fun h1' => hnone hr i h1' (by omega)⟩
      obtain ⟨hlo, hhi, hbelow, hfits⟩ := hsome r hr
      exact ⟨by omega, by omega, fun i h1 h2 => hfirst i h1 fun h1' => hbelow i h1' h2, hfits⟩

/-- R118, R119: the scale of a block is the smallest code from 1 that fits, or 255. -/
theorem findScale_least (scale : Nat → Num) (bound : Nat) (x : Num) : let c := (findScale scale bound x 255 1).getD 255
    1 ≤ c ∧ c ≤ 255 ∧ (∀ i, 1 ≤ i → i < c → ¬Fits scale bound x i) ∧ (c = 255 ∨ Fits scale bound x c) := by
  obtain ⟨hsome, hnone⟩ := findScale_spec (scale := scale) (bound := bound) (x := x) 255 1
  cases hr : findScale scale bound x 255 1 with
  | none => exact ⟨by decide, by decide, fun i h1 h2 => hnone hr i h1 (Nat.lt_succ_of_lt h2), .inl rfl⟩
  | some r =>
    obtain ⟨hlo, hhi, hbelow, hfits⟩ := hsome r hr
    exact ⟨hlo, Nat.le_of_lt_succ hhi, hbelow, .inr hfits⟩
end

section
variable (f mode : Nat) (xs : List Num)

/-- The largest magnitude of a block. -/
def blockMax (xs : List Num) : Num := (xs.map Num.abs).foldl Num.maxN (.fin false 0 1)

theorem quantScaled_zero (h : (blockMax xs).isZero = true) : quantScaled f mode xs =
    let el := xs.map fun y => if y.isNan then roundElem (elemFmt f) mode true .nan else { code := 0, flags := 0 }
    { scale := 0, zero := 0, codes := el.map (·.code), flags := orFlags (el.map (·.flags)) &&& quantMask } := if_pos h

theorem quantScaled_nonzero (h : (blockMax xs).isZero = false) : quantScaled f mode xs =
    let c := (findScale e3m5 (elemMax2 f) ((Num.ofInt 2).mul (blockMax xs)) 255 1).getD 255
    let el := xs.map fun y => roundElem (elemFmt f) mode true (y.divBy (e3m5 c))
    { scale := c, zero := 0, codes := el.map (·.code), flags := orFlags (el.map (·.flags)) &&& quantMask } :=
  if_neg (by rw [← blockMax, h]; exact Bool.false_ne_true)

/-- R118: a block without a magnitude has scale 0, and codes that are zero but for a NaN. -/
theorem quantScaled_zero_codes (h : (blockMax xs).isZero = true) : (quantScaled f mode xs).scale = 0 ∧
    ∀ k, k < xs.length → (xs.getD k .nan).isNan = false → (quantScaled f mode xs).codes.getD k 1 = 0 := by
  rw [quantScaled_zero f mode xs h]
  refine ⟨rfl, fun k hk hn => ?_⟩
  rw [List.getD_eq_getElem _ _ hk] at hn
  simp [hk, hn]

/-- R118: a block with a magnitude. -/
theorem quantScaled_scale (h : (blockMax xs).isZero = false) : let b := quantScaled f mode xs
    let fits := Fits e3m5 (elemMax2 f) ((Num.ofInt 2).mul (blockMax xs))
    1 ≤ b.scale ∧ b.scale ≤ 255 ∧ (∀ c, 1 ≤ c → c < b.scale → ¬fits c) ∧ (b.scale = 255 ∨ fits b.scale) ∧
      b.codes = xs.map fun y => (roundElem (elemFmt f) mode true (y.divBy (e3m5 b.scale))).code := by
  rw [quantScaled_nonzero f mode xs h]
  obtain ⟨hlo, hhi, hbelow, hfits⟩ := findScale_least e3m5 (elemMax2 f) ((Num.ofInt 2).mul (blockMax xs))
  exact ⟨hlo, hhi, hbelow, hfits, List.map_map⟩

theorem quantScaled_zeroPoint : (quantScaled f mode xs).zero = 0 := by
  cases h : (blockMax xs).isZero with
  | true => rw [quantScaled_zero f mode xs h]
  | false => rw [quantScaled_nonzero f mode xs h]
end

section
variable (f mode : Nat) (xs : List Num)

/-- The least and the greatest value of a block, 0 among them. -/
def blockLo (xs : List Num) : Num := xs.foldl Num.minN (.fin false 0 1)
def blockHi (xs : List Num) : Num := xs.foldl Num.maxN (.fin false 0 1)

/-- The scale code and the zero point of an affine block of integer range r. -/
def affineScale (r : Int × Int) (xs : List Num) : Nat :=
  (findScale e5m3 (r.2 - r.1).toNat ((blockHi xs).sum2 (blockLo xs).neg) 255 1).getD 255
def affineZero (r : Int × Int) (xs : List Num) : Int :=
  match blockLo xs with
  | .inf _ => r.2
  | l => (roundRange r.1 r.2 0 ((Num.ofInt r.1).sum2 (l.divBy (e5m3 (affineScale r xs))).neg)).val

/-- The integer of an element of scale s and zero point z. -/
def affineInt (r : Int × Int) (mode : Nat) (s : Num) (z : Int) (y : Num) : Int :=
  match y with
  | .nan => z
  | .inf n => if n then r.1 else r.2
  | .fin n k d => max r.1 (min r.2 (roundInt mode ((Num.fin n k d).divBy s) + z))

theorem affineZero_of_fin (r : Int × Int) {u : Bool} {n d : Nat} (h : blockLo xs = .fin u n d) : affineZero r xs =
    (roundRange r.1 r.2 0 ((Num.ofInt r.1).sum2 ((blockLo xs).divBy (e5m3 (affineScale r xs))).neg)).val := by
  rw [affineZero, h]

theorem affineZero_of_inf (r : Int × Int) {u : Bool} (h : blockLo xs = .inf u) : affineZero r xs = r.2 := by
  rw [affineZero, h]

theorem quantAffine_flat (h : (blockHi xs).cmp (blockLo xs) = .eq) : let b := quantAffine f mode xs
    b.scale = 0 ∧ b.zero = 0 ∧ b.codes = xs.map fun _ => 0 := by
  have hb := show quantAffine f mode xs = _ from if_pos h
  rw [hb]
  exact ⟨rfl, rfl, rfl⟩

theorem zero_mem_intRange (f : Nat) : (intRange f).1 ≤ 0 ∧ 0 ≤ (intRange f).2 := by
  unfold intRange
  split <;> decide

/-- R115: rounding to a range that holds 0 stays in it. -/
theorem roundRange_mem {lo hi : Int} (hlo : lo ≤ 0) (hhi : 0 ≤ hi) (mode : Nat) (v : Num) :
    lo ≤ (roundRange lo hi mode v).val ∧ (roundRange lo hi mode v).val ≤ hi := by
  cases v with
  | nan => exact ⟨hlo, hhi⟩
  | inf u => cases u <;> simp [roundRange] <;> omega
  | fin u n d =>
    simp only [roundRange]
    split
    · dsimp only; omega
    · split <;> dsimp only <;> omega

theorem affineZero_mem {r : Int × Int} (hlo : r.1 ≤ 0) (hhi : 0 ≤ r.2) : r.1 ≤ affineZero r xs ∧ affineZero r xs ≤ r.2 := by
  unfold affineZero
  split
  · omega
  · exact roundRange_mem hlo hhi _ _

/-- An integer clamped to a range, whatever flags go with it. -/
theorem clamp_fst {lo hi x : Int} (g : BitVec 6) (h : lo ≤ hi) :
    (if x < lo then (lo, flagSAT ||| flagNX) else if hi < x then (hi, flagSAT ||| flagNX) else (x, g)).1 = max lo (min hi x) := by
  split
  · dsimp only; omega
  · split <;> dsimp only <;> omega

theorem quantAffine_spread (h : (blockHi xs).cmp (blockLo xs) ≠ .eq) : let b := quantAffine f mode xs; let r := intRange (elemFmt f)
    b.scale = affineScale r xs ∧ b.zero = patOf 8 (affineZero r xs) ∧
      b.codes = xs.map fun y => patOf (elemWidth f) (affineInt r mode (e5m3 (affineScale r xs)) (affineZero r xs) y) := by
  have hb := show quantAffine f mode xs = _ from if_neg h
  rw [hb]
  refine ⟨rfl, rfl, ?_⟩
  dsimp only
  rw [List.map_map]
  refine List.map_congr_left fun y _ => congrArg (patOf _) ?_
  cases y with
  | nan => rfl
  | inf n => rfl
  | fin n k d =>
    obtain ⟨hlo, hhi⟩ := zero_mem_intRange (elemFmt f)
    exact clamp_fst _ (hlo.trans hhi)
end

/-! ## Comparison (R308) -/

/-- Bit k of a number made of one bit for each of n lanes. -/
theorem testBit_sum_bits (b : Nat → Bool) (n k : Nat) :
    ((List.range n).map fun i => if b i then 2 ^ i else 0).sum.testBit k = (decide (k < n) && b k) := by
  have hdigits : ((List.range n).map fun i => if b i then 2 ^ i else 0).sum = Nat.ofDigits 2 ((List.range n).map fun i => (b i).toNat) := by
    rw [← sum_eq_ofDigits]
    exact congrArg List.sum (List.map_congr_left fun i _ => by cases b i <;> simp)
  have hlt : ∀ x ∈ (List.range n).map fun i => (b i).toNat, x < 2 := by
    simpa using fun i _ => Bool.toNat_le (b i)
  rw [hdigits, Nat.testBit_eq_decide_div_mod_eq]
  by_cases hk : k < n
  · rw [ofDigits_digit hlt (by simpa using hk)]
    simp [hk]
  · have hbound := Nat.ofDigits_lt_base_pow_length (by decide) hlt
    rw [List.length_map, List.length_range] at hbound
    rw [Nat.div_eq_of_lt (hbound.trans_le (Nat.pow_le_pow_right (by decide) (Nat.le_of_not_lt hk)))]
    simp [hk]

theorem getLsbD_lanes (b : Nat → Bool) (n : Nat) {k : Nat} (h : k < 64) :
    (BitVec.ofNat 64 ((List.range n).map fun i => if b i then 2 ^ i else 0).sum).getLsbD k = (decide (k < n) && b k) := by
  rw [BitVec.getLsbD_ofNat, testBit_sum_bits, decide_eq_true h, Bool.true_and]

/-! ## The words (R308-R311, R314) -/

section
variable {a b d c : BitVec 4} {g : RF} {p m t : BitVec 3} {s : State}

theorem exec_vcmp (h : runsA (.vcmp p a b m t c) s) : ∃ z, exec (.vcmp p a b m t c) s = .next (s.wrP p z) ∧
    ∀ k, k < 64 → z.getLsbD k =
      (decide (k < laneCount t) && s.active m k && laneCond t c.toNat (laneOf t (s.rdV a) k) (laneOf t (s.rdV b) k)) :=
  ⟨_, congrArg Host.Outcome.next (runA_eq _ h), fun k hk => by rw [Bool.and_assoc]; exact getLsbD_lanes _ _ hk⟩

theorem exec_vsel (h : runsA (.vsel d a b m t) s) : exec (.vsel d a b m t) s = .next (s.wrV d
    (ofLanes (laneBits t) (laneCount t) fun k => if s.active m k then laneOf t (s.rdV a) k else laneOf t (s.rdV b) k)) := by
  have hlane : ∀ k, (if s.active m k then laneOf t (s.rdV a) k else laneOf t (s.rdV b) k) =
      laneOf t (s.rdV (if s.active m k then a else b)) k := fun k => (apply_ite (fun r => laneOf t (s.rdV r) k) ..).symm
  simp only [hlane]
  exact congrArg Host.Outcome.next (runA_eq _ h)

/-- R310: a reduction writes its code in lane 0 of a register of zeros. -/
theorem vecReduce_eq {i : Instr} (neutral : Nat) (f : Nat → Nat → Rounded) (h : runsA i s) : vecReduce i d a m t neutral f s =
    let x := reduceLanes s t m (s.rdV a) neutral f
    (s.wrV d (BitVec.ofNat 512 (x.code % 2 ^ laneBits t))).orFlags x.flags := runA_eq _ h

theorem exec_vext (h : runsA (.vext a g c m t) s) : exec (.vext a g c m t) s =
    .next (if s.active m c.toNat then s.wrG g (laneWord t (laneOf t (s.rdV a) c.toNat)) else s) :=
  congrArg Host.Outcome.next (runA_eq _ h)

theorem exec_vbsc {l : BitVec 3} {f r : BitVec 4} (h : runsA (.vbsc d a l f m t r) s) :
    let q := encodeElems (f.toNat + 12) l.toNat r.toNat false (vbscVals s a m t)
    exec (.vbsc d a l f m t r) s = .next ((s.wrV d (BitVec.ofNat 512 (leBytes q.1 0 64))).orFlags q.2) :=
  congrArg Host.Outcome.next (runA_eq _ h)
end

end Sys2Proof.Machine

open Sys2Proof Sys2Proof.Machine

/-- Settles O14: each word by its one equation; the tree by what its levels keep; a block by the first scale that fits. -/
theorem vectorOtherResults : Obligations.VectorOtherResults := by
  refine ⟨?words, ?tree, tree_four, ?scaled, ?affine⟩
  case words =>
    intro d a b c g l p m t f r s
    exact ⟨exec_vcmp, exec_vsel, fun h => congrArg _ (vecReduce_eq _ _ h), fun h => congrArg _ (vecReduce_eq _ _ h), exec_vext, exec_vbsc⟩
  case tree =>
    intro t j xs ht h hx
    exact ⟨tree_laneAdd ht h hx, tree_laneMax ht h⟩
  case scaled =>
    intro f mode xs
    exact ⟨quantScaled_zeroPoint f mode xs, quantScaled_zero_codes f mode xs, quantScaled_scale f mode xs⟩
  case affine =>
    intro f mode xs
    refine ⟨quantAffine_flat f mode xs, fun h => ?_⟩
    obtain ⟨hscale, hzero, hcodes⟩ := quantAffine_spread f mode xs h
    obtain ⟨hlo, hhi⟩ := zero_mem_intRange (elemFmt f)
    obtain ⟨hmin, hmax⟩ := affineZero_mem xs hlo hhi
    obtain ⟨h1, h255, hbelow, hfits⟩ := findScale_least e5m3 ((intRange (elemFmt f)).2 - (intRange (elemFmt f)).1).toNat
      ((blockHi xs).sum2 (blockLo xs).neg)
    rw [hscale]
    refine ⟨h1, h255, hbelow, hfits, affineZero (intRange (elemFmt f)) xs, hmin, hmax, hzero, ?_, ?_, hcodes⟩
    · rintro n d (hl | hl) <;> exact affineZero_of_fin xs _ hl
    · exact fun u hl => affineZero_of_inf xs _ hl
end

section
/-! O37: the accord words (R316, R330-R333). -/

namespace Sys2Proof.Machine

/-! ## Commands enter the queue (R316) -/

section
variable {i : Instr} {s : State} {ja jb : Nat} {p : Word}

/-- R316: a command whose checks pass, and that finds room, is queued in the state that its commit leaves. -/
theorem command_queued {chk : State → Option Trap}
    (hx : exec i s = .next (runE i s true chk holdQueue fun m => (enqueue m i ja jb p).advance))
    (h : endsAt i s) (hc : chk s.opened = none) (hq : unheld holdQueue s) : ∃ t x, exec i s = .next (State.advance t) ∧
      t.mine.acc = { (s.committed i).mine.acc with seq := (s.committed i).mine.acc.seq + 1, q := (s.committed i).mine.acc.q ++ [x] } ∧
      x.i = i ∧ x.begun = false ∧ x.res = none ∧ x.ringA = ja ∧ x.ringB = jb ∧ x.ptr = p ∧
      x.ltag = ((s.committed i).mine.ctx (s.committed i).iss.slot).a.ltag ∧ t.mem = (s.committed i).mem := by
  rw [hx, runE_ends _ h hc hq]
  exact ⟨_, _, rfl, congrArg Core.acc (State.mine_modMine (s.committed i) _), rfl, rfl, rfl, rfl, rfl, rfl, rfl, rfl⟩

theorem holdQueue_full (h : 8 ≤ s.mine.acc.q.length) : holdQueue s = some true := if_neg (Nat.not_lt.mpr h)
end

section
variable {acc : BitVec 2} {a : RF} {s : State} {p : Word}

theorem exec_mzero_full (h : endsAt (.mzero acc) s) (hq : 8 ≤ s.opened.mine.acc.q.length) : exec (.mzero acc) s = .next (hold97 s.opened) :=
  congrArg Host.Outcome.next (runE_hold (chk := fun _ => none) _ h rfl (holdQueue_full hq))

/-- R329: the checks of `mput` are those of an access, but for the translation, which a scratchpad has none of. -/
def mputCheck (s : State) (p : Word) : Option Trap :=
  if !s.ownSp (s.res p) || addrBad p 1024 4 then some (s.tAddr p) else (s.checkProt p 1024 0).or (s.checkLock p 1024 0)

theorem mputCheck_none (ho : s.ownSp (s.res p) = true) (h : s.check p 1024 0 4 = none) : mputCheck s p = none := by
  obtain ⟨hbad, hprot, hlock, -⟩ := check_passes h
  rw [mputCheck, ho, hbad, hprot, hlock]
  rfl

theorem exec_mwait (h : runsC (.mwait a) s) : exec (.mwait a) s = .next (if s.opened.mine.acc.q = [] then s.opened.advance
    else park s.opened (s.opened.newWait (.mwait a) [] (limitOf (s.opened.rdG a)))) := by
  refine congrArg _ (runW_done h rfl rfl ?_)
  simp only [doneMwait, List.isEmpty_iff]

theorem exec_mstat (h : runsC (.mstat a) s) : exec (.mstat a) s = .next (s.opened.wrG a (mstatWord s.opened.mine)).advance :=
  congrArg Host.Outcome.next (runC_ok h rfl)
end

/-! ## `mget` (R330, R331) -/

section
variable {acc : BitVec 2} {a : RF} {s m : State} {p : Word}

theorem mgetCheck_passes (h : mgetCheck s p = none) : s.checkPage p (16 * mgetRow p) 1 = none := by
  unfold mgetCheck at h
  dsimp only at h
  split at h
  · cases h
  · split at h
    · cases h
    · exact (Option.or_eq_none_iff.mp (Option.or_eq_none_iff.mp h).2).2

/-- R147: where the checks pass once the chunk is open, there is no walk to a PAGE before that. -/
theorem takesPage_mgetCheck (h : mgetCheck s.opened p = none) : takesPage (mgetCheck s p) = false := by
  unfold mgetCheck
  dsimp only
  split
  · rfl
  · split
    · rfl
    · exact takesPage_or _ _ takesPage_checkProt (takesPage_or _ _ takesPage_checkLock (takesPage_checkPage_of_opened (mgetCheck_passes h)))

theorem exec_mget (h : endsAt (.mget acc a) s) (hc : mgetCheck s.opened (s.rdG a) = none) (hl : mayLong s) :
    exec (.mget acc a) s = .next (mgetPlace ((s.committed (.mget acc a)).touchOwn (s.res (s.rdG a)) (16 * mgetRow (s.rdG a)) 1) acc (s.rdG a)
      (s.mgetKeys (s.res (s.rdG a)) (16 * mgetRow (s.rdG a)))).advance := by
  refine congrArg Host.Outcome.next ?_
  rw [walkPage_none _ (takesPage_mgetCheck hc)]
  exact runE_ends _ h hc (unheld_holdLong hl)

theorem addLong_acc (l : LongOp) : (m.addLong l).mine.acc = m.mine.acc := by
  rw [State.addLong, State.mine_modMine, State.modMe_mine]
  rfl

theorem addLong_cyc (l : LongOp) : (m.addLong l).mine.cyc = m.mine.cyc := by
  rw [State.addLong, State.mine_modMine, State.modMe_mine]
  rfl

/-- The long operation that an `mget` starts. -/
def mgetLong (m : State) : State := m.freshId.addLong { m.newLong m.nextId .none .word with inChunk := false }

theorem mgetPlace_acc (m : State) (acc : BitVec 2) (p : Word) (keys : List Nat) : (mgetPlace m acc p keys).mine.acc =
    { (mgetLong m).mine.acc with
      seq := (mgetLong m).mine.acc.seq + 1
      mgets := (mgetLong m).mine.acc.mgets ++ [{ seq := (mgetLong m).mine.acc.seq, id := m.nextId, slot := m.iss.slot, acc := acc, ptr := p,
                                                 keys := keys, bytes := none, due := (mgetLong m).mine.cyc + 64 }] } :=
  congrArg Core.acc (State.mine_modMine (mgetLong m) _)

/-- R331: an `mget` takes its place behind those before it, and may write 64 cycles on. -/
theorem mgetPlace_placed (m : State) (acc : BitVec 2) (p : Word) (keys : List Nat) : ∃ g : Mget,
    (mgetPlace m acc p keys).mine.acc.mgets = m.mine.acc.mgets ++ [g] ∧ g.acc = acc ∧ g.ptr = p ∧ g.keys = keys ∧ g.bytes = none ∧
      g.due = m.mine.cyc + 64 ∧ (mgetPlace m acc p keys).mine.acc.tiles = m.mine.acc.tiles ∧ (mgetPlace m acc p keys).mem = m.mem := by
  have hacc : (mgetLong m).mine.acc = m.mine.acc := addLong_acc (m := m.freshId) _
  have hcyc : (mgetLong m).mine.cyc = m.mine.cyc := addLong_cyc (m := m.freshId) _
  rw [mgetPlace_acc, hacc, hcyc]
  exact ⟨_, rfl, rfl, rfl, rfl, rfl, rfl, rfl, rfl⟩
end

end Sys2Proof.Machine

open Sys2Proof Sys2Proof.Machine

/-- Settles O37: a command is queued by its one operation, `mget` is placed, and `mwait` and `mstat` answer at once. -/
theorem accordWordResults : Obligations.AccordWordResults := by
  intro acc na nb fr ka kb ra rb mode a s o queued
  refine ⟨?mmac, ?mzero, ?mput, ?mget, exec_mwait, exec_mstat⟩
  case mmac => exact fun h hc => command_queued (chk := fun u => macCheck u u.mine ra rb _ _) rfl h hc
  case mzero => exact fun h => ⟨command_queued (chk := fun _ => none) rfl h rfl, exec_mzero_full h⟩
  case mput => exact fun h ho hc => command_queued (chk := (mputCheck · (s.rdG a))) rfl h (mputCheck_none ho hc)
  case mget =>
    intro q n h hc hl m
    obtain ⟨g, hg⟩ := mgetPlace_placed m acc (s.rdG a) (s.mgetKeys q n)
    exact ⟨_, g, exec_mget h hc hl, hg⟩
end

section
/-! O13: rounding to a natural number, and the exponent of a value (R114, R115). -/

namespace Sys2Proof.Machine

/-! ## Rounding to a natural number (R114) -/

section
variable {n d : Nat}

/-- A mode takes the number above a quotient q with remainder r, and not q. -/
def roundsUp (mode : Nat) (neg : Bool) (d q r : Nat) : Bool :=
  match mode with
  | 0 => d < 2 * r || (d = 2 * r && q % 2 = 1)
  | 1 => false
  | 2 => !neg && r ≠ 0
  | 3 => neg && r ≠ 0
  | _ => d ≤ 2 * r

theorem roundNat_eq (mode : Nat) (neg : Bool) (n d : Nat) :
    roundNat mode neg n d = if roundsUp mode neg d (n / d) (n % d) then n / d + 1 else n / d := rfl

/-- Rounding takes the quotient or the next number. -/
theorem roundNat_near (mode : Nat) (neg : Bool) (n d : Nat) : roundNat mode neg n d = n / d + 1 ∨ roundNat mode neg n d = n / d :=
  ite_eq_or_eq _ _ _

theorem le_roundNat {k : Nat} (mode : Nat) (neg : Bool) (hd : 0 < d) (h : k * d ≤ n) : k ≤ roundNat mode neg n d := by
  have := (Nat.le_div_iff_mul_le hd).mpr h
  have := roundNat_near mode neg n d
  omega

theorem roundNat_le {k : Nat} (mode : Nat) (neg : Bool) (hd : 0 < d) (h : n < k * d) : roundNat mode neg n d ≤ k := by
  have := (Nat.div_lt_iff_lt_mul hd).mpr h
  have := roundNat_near mode neg n d
  omega

/-- What each mode makes of a quotient and a remainder. -/
theorem roundNat_quotient (mode : Nat) (neg : Bool) {q r : Nat} (hr : r < d) : roundNat mode neg (q * d + r) d =
    if roundsUp mode neg d q r then q + 1 else q := by
  have hq : (q * d + r) / d = q := by
    rw [Nat.mul_comm, Nat.mul_add_div (by omega), Nat.div_eq_of_lt hr, Nat.add_zero]
  have hm : (q * d + r) % d = r := by rw [Nat.mul_comm, Nat.mul_add_mod, Nat.mod_eq_of_lt hr]
  rw [roundNat_eq, hq, hm]

/-- A natural number rounds to itself. -/
theorem roundNat_mul (mode : Nat) (neg : Bool) (k : Nat) (hd : 0 < d) : roundNat mode neg (k * d) d = k := by
  have h := roundNat_quotient mode neg (q := k) hd
  rw [Nat.add_zero] at h
  rw [h, if_neg]
  unfold roundsUp
  split <;> simp <;> omega

variable (neg : Bool) (hd : 0 < d)
include hd

theorem exists_quotient (n : Nat) : ∃ q r, r < d ∧ n = q * d + r := ⟨n / d, n % d, Nat.mod_lt n hd, (Nat.div_add_mod' n d).symm⟩

/-- Mode 0: to nearest, ties to even. -/
theorem roundNat_nearestEven : let k := roundNat 0 neg n d
    2 * (k * d) ≤ 2 * n + d ∧ 2 * n ≤ 2 * (k * d) + d ∧ (2 * (k * d) = 2 * n + d ∨ 2 * n = 2 * (k * d) + d → k % 2 = 0) := by
  obtain ⟨q, r, hr, rfl⟩ := exists_quotient hd n
  rw [roundNat_quotient 0 neg hr]
  simp only [roundsUp, Bool.or_eq_true, Bool.and_eq_true, decide_eq_true_eq]
  split
  · rw [Nat.add_mul]; omega
  · omega

/-- Mode 1: toward zero. -/
theorem roundNat_down : let k := roundNat 1 neg n d; k * d ≤ n ∧ n < k * d + d := by
  obtain ⟨q, r, hr, rfl⟩ := exists_quotient hd n
  rw [roundNat_quotient 1 neg hr]
  exact ⟨Nat.le_add_right _ _, Nat.add_lt_add_left hr _⟩

/-- Modes 2 and 3: upward and downward, away from zero on the side of their sign. -/
theorem roundNat_away {mode : Nat} (h : (mode = 2 ∧ neg = false) ∨ (mode = 3 ∧ neg = true)) :
    let k := roundNat mode neg n d; n ≤ k * d ∧ k * d < n + d := by
  have hup : ∀ q r : Nat, r < d → roundNat mode neg (q * d + r) d = if r ≠ 0 then q + 1 else q := by
    intro q r hr
    rw [roundNat_quotient mode neg hr]
    rcases h with ⟨rfl, rfl⟩ | ⟨rfl, rfl⟩ <;> simp [roundsUp]
  obtain ⟨q, r, hr, rfl⟩ := exists_quotient hd n
  rw [hup q r hr]
  dsimp only
  split
  · rw [Nat.add_mul]; omega
  · omega

/-- The same modes on the side of the other sign: toward zero. -/
theorem roundNat_toward {mode : Nat} (h : (mode = 2 ∧ neg = true) ∨ (mode = 3 ∧ neg = false)) :
    let k := roundNat mode neg n d; k * d ≤ n ∧ n < k * d + d := by
  obtain ⟨q, r, hr, rfl⟩ := exists_quotient hd n
  rw [roundNat_quotient mode neg hr]
  rcases h with ⟨rfl, rfl⟩ | ⟨rfl, rfl⟩ <;> exact ⟨Nat.le_add_right _ _, Nat.add_lt_add_left hr _⟩

/-- Mode 4: to nearest, ties away from zero. -/
theorem roundNat_nearestAway : let k := roundNat 4 neg n d; 2 * (k * d) ≤ 2 * n + d ∧ 2 * n < 2 * (k * d) + d := by
  obtain ⟨q, r, hr, rfl⟩ := exists_quotient hd n
  rw [roundNat_quotient 4 neg hr]
  simp only [roundsUp, decide_eq_true_eq]
  split
  · rw [Nat.add_mul]; omega
  · omega
end

/-! ## Powers of two (R115) -/

/-- The exponent is the difference of those of the numerator and the denominator, or one less. -/
theorem floorLog2_eq (n d : Nat) : let l : Int := (Nat.log2 n : Int) - Nat.log2 d
    floorLog2 n d = if (overPow n d l).1 < 1 * (overPow n d l).2 then l - 1 else l := by
  intro l
  unfold floorLog2 overPow
  simp only [Nat.one_mul]
  split <;> rfl

section
variable {n d : Nat} (hd : 0 < d) (e : Int)
include hd

theorem overPow_snd_pos : 0 < (overPow n d e).2 := by
  unfold overPow
  split
  · positivity
  · exact hd

/-- A rational over a power of two, as a quotient. -/
theorem overPow_div : ((overPow n d e).1 : ℚ) / (overPow n d e).2 = n / d / 2 ^ e := by
  have hdne : (d : ℚ) ≠ 0 := by exact_mod_cast hd.ne'
  unfold overPow
  split
  · next h =>
    obtain ⟨a, rfl⟩ := Int.eq_ofNat_of_zero_le h
    push_cast
    rw [Int.toNat_natCast, zpow_natCast, div_div]
  · next h =>
    obtain ⟨a, ha⟩ := Int.eq_ofNat_of_zero_le (show 0 ≤ -e by omega)
    obtain rfl : e = -(a : Int) := by omega
    push_cast
    rw [neg_neg, Int.toNat_natCast, zpow_neg, zpow_natCast, div_inv_eq_mul, mul_div_right_comm]

theorem overPow_lt_iff (c : Nat) : (overPow n d e).1 < c * (overPow n d e).2 ↔ (n : ℚ) / d < c * 2 ^ e := by
  have hpos : (0 : ℚ) < (overPow n d e).2 := by exact_mod_cast overPow_snd_pos hd e
  rw [← div_lt_iff₀ (by positivity), ← overPow_div hd, div_lt_iff₀ hpos]
  norm_cast

theorem overPow_le_iff (c : Nat) : c * (overPow n d e).2 ≤ (overPow n d e).1 ↔ c * 2 ^ e ≤ (n : ℚ) / d := by
  rw [← not_lt, overPow_lt_iff hd, not_lt]

/-- The power of two below a positive rational. -/
theorem floorLog2_bounds (hn : 0 < n) : (2 : ℚ) ^ floorLog2 n d ≤ n / d ∧ (n : ℚ) / d < 2 ^ (floorLog2 n d + 1) := by
  have hd' : (0 : ℚ) < d := by exact_mod_cast hd
  have hnlo : (2 : ℚ) ^ (Nat.log2 n : Int) ≤ n := by exact_mod_cast Nat.log2_self_le hn.ne'
  have hnhi : (n : ℚ) < 2 ^ (Nat.log2 n + 1 : Int) := by exact_mod_cast Nat.lt_log2_self
  have hdlo : (2 : ℚ) ^ (Nat.log2 d : Int) ≤ d := by exact_mod_cast Nat.log2_self_le hd.ne'
  have hdhi : (d : ℚ) < 2 ^ (Nat.log2 d + 1 : Int) := by exact_mod_cast Nat.lt_log2_self
  rw [floorLog2_eq]
  generalize hl : (Nat.log2 n : Int) - Nat.log2 d = l
  have hbelow : (2 : ℚ) ^ (l - 1) ≤ n / d := by
    rw [le_div_iff₀ hd']
    calc (2 : ℚ) ^ (l - 1) * d ≤ 2 ^ (l - 1) * 2 ^ (Nat.log2 d + 1 : Int) := by gcongr
      _ = 2 ^ (Nat.log2 n : Int) := by rw [← zpow_add₀ two_ne_zero]; congr 1; omega
      _ ≤ n := hnlo
  have habove : (n : ℚ) / d < 2 ^ (l + 1) := by
    rw [div_lt_iff₀ hd']
    calc (n : ℚ) < 2 ^ (Nat.log2 n + 1 : Int) := hnhi
      _ = 2 ^ (l + 1) * 2 ^ (Nat.log2 d : Int) := by rw [← zpow_add₀ two_ne_zero]; congr 1; omega
      _ ≤ 2 ^ (l + 1) * d := by gcongr
  split
  · next h =>
    rw [overPow_lt_iff hd, Nat.cast_one, one_mul] at h
    exact ⟨hbelow, by rwa [sub_add_cancel]⟩
  · next h =>
    rw [overPow_lt_iff hd, Nat.cast_one, one_mul] at h
    exact ⟨le_of_not_gt h, habove⟩

/-- It is the only such power. -/
theorem floorLog2_unique (hn : 0 < n) (hlo : (2 : ℚ) ^ e ≤ n / d) (hhi : (n : ℚ) / d < 2 ^ (e + 1)) : floorLog2 n d = e := by
  obtain ⟨hlo', hhi'⟩ := floorLog2_bounds hd hn
  have h1 := (zpow_lt_zpow_iff_right₀ (one_lt_two (α := ℚ))).mp (hlo.trans_lt hhi')
  have h2 := (zpow_lt_zpow_iff_right₀ (one_lt_two (α := ℚ))).mp (hlo'.trans_lt hhi)
  omega
end

end Sys2Proof.Machine
end

section
/-! O13: codes of a float format, and rounding to it (R105, R114, R115, R131). -/

namespace Sys2Proof.Machine

/-! ## Comparing values -/

section
variable (u : Bool)

theorem scaled_eq (k : Nat) (e : Int) : ∃ n d, 0 < d ∧ Num.scaled u k e = .fin u n d ∧ (n : ℚ) / d = k * 2 ^ e := by
  unfold Num.scaled
  split
  · next h =>
    obtain ⟨a, rfl⟩ := Int.eq_ofNat_of_zero_le h
    exact ⟨_, _, Nat.one_pos, rfl, by push_cast; rw [Int.toNat_natCast, div_one, zpow_natCast]⟩
  · next h =>
    obtain ⟨a, ha⟩ := Int.eq_ofNat_of_zero_le (show 0 ≤ -e by omega)
    obtain rfl : e = -(a : Int) := by omega
    exact ⟨_, _, by positivity, rfl, by push_cast; rw [neg_neg, Int.toNat_natCast, zpow_neg, zpow_natCast, div_eq_mul_inv]⟩

variable {n d m e : Nat} (hd : 0 < d) (he : 0 < e)
include hd he

theorem cmp_fin_eq : (Num.fin u n d).cmp (.fin u m e) = .eq ↔ (n : ℚ) / d = m / e := by
  rw [div_eq_div_iff (by positivity) (by positivity)]
  simp only [Num.cmp, compare_eq_iff_eq]
  cases u <;> simp only [signedNat, Bool.false_eq_true, if_false, if_true, neg_mul, neg_inj] <;> norm_cast

theorem cmp_fin_gt : (Num.fin false n d).cmp (.fin false m e) = .gt ↔ (m : ℚ) / e < n / d := by
  rw [div_lt_div_iff₀ (by positivity) (by positivity)]
  simp only [Num.cmp, compare_gt_iff_gt, signedNat, Bool.false_eq_true, if_false]
  norm_cast
end

section
variable (u : Bool) (k k' E E' : Nat) (c : Int)

/-- Values on one grid compare as natural numbers. -/
theorem scaled_grid (a b A B : Nat) : (a : ℚ) * 2 ^ (A + c : Int) < b * 2 ^ (B + c : Int) ↔ a * 2 ^ A < b * 2 ^ B := by
  rw [zpow_add₀ two_ne_zero, zpow_add₀ two_ne_zero, ← mul_assoc, ← mul_assoc, mul_lt_mul_iff_left₀ (by positivity)]
  norm_cast

theorem cmp_scaled_gt : (Num.scaled false k (E + c)).cmp (Num.scaled false k' (E' + c)) = .gt ↔ k' * 2 ^ E' < k * 2 ^ E := by
  obtain ⟨n, d, hd, hn, hv⟩ := scaled_eq false k (E + c)
  obtain ⟨n', d', hd', hn', hv'⟩ := scaled_eq false k' (E' + c)
  rw [hn, hn', cmp_fin_gt hd hd', hv, hv', scaled_grid]

theorem cmp_scaled_self (e : Int) : (Num.scaled u k e).cmp (Num.scaled u k e) = .eq := by
  obtain ⟨n, d, hd, hn, hv⟩ := scaled_eq u k e
  rw [hn, cmp_fin_eq u hd hd]

theorem cmp_scaled_double (e : Int) : (Num.scaled u k (e + 1)).cmp (Num.scaled u (2 * k) e) = .eq := by
  obtain ⟨n, d, hd, hn, hv⟩ := scaled_eq u k (e + 1)
  obtain ⟨n', d', hd', hn', hv'⟩ := scaled_eq u (2 * k) e
  rw [hn, hn', cmp_fin_eq u hd hd', hv, hv', zpow_add₀ two_ne_zero]
  push_cast
  ring
end

/-! ## Codes of a format (R105) -/

/-- A format with infinities: what R105 says of FP32, BF16 and FP16. -/
structure Ieee (x : FFmt) : Prop where
  inf : x.inf = some ((2 ^ x.e - 1) * 2 ^ x.m)
  maxc : x.maxc + 1 = (2 ^ x.e - 1) * 2 ^ x.m
  exp : 2 ≤ x.e

theorem ieee_ffmt {f : Nat} (h1 : 1 ≤ f) (h3 : f ≤ 3) : Ieee (ffmt f) := by
  interval_cases f <;> constructor <;> decide

/-- `k` is a significand at the exponent field that follows `E`: with the leading bit, or without it at the least exponent. -/
def IsSig (x : FFmt) (k E : Nat) : Prop := k < 2 ^ (x.m + 1) ∧ (k < 2 ^ x.m → E = 0)

section
variable {x : FFmt}

theorem signBit_eq (x : FFmt) (u : Bool) : signBit x u = u.toNat * 2 ^ (x.e + x.m) := by cases u <;> simp [signBit]

/-- The fields of a code with its sign. -/
theorem signed_fields (u : Bool) {c : Nat} (hc : c < 2 ^ (x.e + x.m)) :
    (signBit x u + c) % 2 ^ x.m = c % 2 ^ x.m ∧ (signBit x u + c) / 2 ^ x.m % 2 ^ x.e = c / 2 ^ x.m ∧
      decide ((signBit x u + c) / 2 ^ (x.m + x.e) % 2 = 1) = u := by
  have hexp : c / 2 ^ x.m < 2 ^ x.e := (Nat.div_lt_iff_lt_mul (Nat.two_pow_pos _)).mpr (by rwa [← Nat.pow_add])
  have hsplit : signBit x u + c = 2 ^ x.m * (2 ^ x.e * u.toNat) + c := by rw [signBit_eq, Nat.pow_add]; ring
  refine ⟨?_, ?_, ?_⟩
  · rw [hsplit, Nat.mul_add_mod]
  · rw [hsplit, Nat.mul_add_div (Nat.two_pow_pos _), Nat.mul_add_mod, Nat.mod_eq_of_lt hexp]
  · rw [signBit_eq, Nat.mul_comm, Nat.add_comm x.m, Nat.mul_add_div (Nat.two_pow_pos _), Nat.div_eq_of_lt hc]
    cases u <;> rfl

theorem exists_signed (x : FFmt) {a : Nat} (ha : a < 2 ^ (1 + x.e + x.m)) : ∃ u c, c < 2 ^ (x.e + x.m) ∧ a = signBit x u + c := by
  rw [Nat.add_assoc, Nat.pow_add, Nat.pow_one] at ha
  by_cases h : a < 2 ^ (x.e + x.m)
  · exact ⟨false, a, h, (Nat.zero_add a).symm⟩
  · refine ⟨true, a - 2 ^ (x.e + x.m), by omega, ?_⟩
    rw [signBit, if_pos rfl]
    omega

/-- The fields of a code made of a significand and its exponent. -/
theorem sig_fields {k E : Nat} (h : IsSig x k E) : let c := E * 2 ^ x.m + k
    (k < 2 ^ x.m → c / 2 ^ x.m = 0 ∧ c % 2 ^ x.m = k) ∧ (2 ^ x.m ≤ k → c / 2 ^ x.m = E + 1 ∧ 2 ^ x.m + c % 2 ^ x.m = k) := by
  obtain ⟨hk, hE⟩ := h
  refine ⟨fun hlt => ?_, fun hle => ?_⟩
  · rw [hE hlt, Nat.zero_mul, Nat.zero_add]
    exact ⟨Nat.div_eq_of_lt hlt, Nat.mod_eq_of_lt hlt⟩
  · obtain ⟨r, rfl⟩ := Nat.exists_eq_add_of_le hle
    have hr : r < 2 ^ x.m := by rw [Nat.pow_succ] at hk; omega
    rw [show E * 2 ^ x.m + (2 ^ x.m + r) = 2 ^ x.m * (E + 1) + r by ring, Nat.mul_add_div (Nat.two_pow_pos _), Nat.mul_add_mod,
      Nat.div_eq_of_lt hr, Nat.mod_eq_of_lt hr]
    exact ⟨rfl, rfl⟩

theorem exists_sig (x : FFmt) (c : Nat) : ∃ k E, IsSig x k E ∧ c = E * 2 ^ x.m + k := by
  have hpow : 2 ^ (x.m + 1) = 2 * 2 ^ x.m := Nat.pow_succ'
  by_cases hc : c < 2 ^ x.m
  · exact ⟨c, 0, ⟨by omega, fun _ => rfl⟩, by omega⟩
  · have hmod := Nat.mod_lt c (Nat.two_pow_pos x.m)
    refine ⟨2 ^ x.m + c % 2 ^ x.m, c / 2 ^ x.m - 1, ⟨by omega, fun _ => by omega⟩, ?_⟩
    have hpos : 0 < c / 2 ^ x.m := Nat.div_pos (Nat.le_of_not_lt hc) (Nat.two_pow_pos _)
    have hdm := Nat.div_add_mod' c (2 ^ x.m)
    obtain ⟨q, hq⟩ := Nat.exists_eq_add_of_le' hpos
    rw [hq, Nat.add_mul] at hdm
    rw [hq, Nat.add_sub_cancel]
    omega

/-- A code up to that of infinity leaves the sign bit alone. -/
theorem lt_signBit {c : Nat} (h : c ≤ (2 ^ x.e - 1) * 2 ^ x.m) : c < 2 ^ (x.e + x.m) := by
  refine h.trans_lt ?_
  rw [Nat.pow_add]
  exact Nat.mul_lt_mul_of_pos_right (Nat.sub_lt (Nat.two_pow_pos _) Nat.one_pos) (Nat.two_pow_pos _)

variable (hx : Ieee x)
include hx

theorem Ieee.maxc_lt : x.maxc < (2 ^ x.e - 1) * 2 ^ x.m := by
  have := hx.maxc
  omega

/-- A code holds an infinity or NaN where its exponent field is all ones, and otherwise one up to the largest finite one. -/
theorem Ieee.le_maxc_iff {c : Nat} (hc : c < 2 ^ (x.e + x.m)) : c ≤ x.maxc ↔ c / 2 ^ x.m ≠ 2 ^ x.e - 1 := by
  have hexp : c / 2 ^ x.m < 2 ^ x.e := (Nat.div_lt_iff_lt_mul (Nat.two_pow_pos _)).mpr (by rwa [← Nat.pow_add])
  have hlt : c < (2 ^ x.e - 1) * 2 ^ x.m ↔ c / 2 ^ x.m < 2 ^ x.e - 1 := (Nat.div_lt_iff_lt_mul (Nat.two_pow_pos _)).symm
  have := hx.maxc
  omega

/-- The largest finite code is that of the largest significand at the largest exponent. -/
theorem Ieee.maxc_eq : x.maxc = (2 ^ x.e - 3) * 2 ^ x.m + (2 ^ (x.m + 1) - 1) ∧ IsSig x (2 ^ (x.m + 1) - 1) (2 ^ x.e - 3) := by
  have hpos := Nat.two_pow_pos x.m
  have hpow : 2 ^ (x.m + 1) = 2 * 2 ^ x.m := Nat.pow_succ'
  have hexp : 2 ^ 2 ≤ 2 ^ x.e := Nat.pow_le_pow_right (by decide) hx.exp
  have hmax := hx.maxc
  obtain ⟨b, hb⟩ := Nat.exists_eq_add_of_le' hexp
  rw [hb] at hmax ⊢
  rw [show b + 2 ^ 2 - 1 = b + 1 + 2 by omega, Nat.add_mul] at hmax
  rw [show b + 2 ^ 2 - 3 = b + 1 by omega]
  exact ⟨by omega, by omega, fun h => by omega⟩
end

section
variable {f : Nat} (hf : f ≠ 4) (hx : Ieee (ffmt f)) (u : Bool)
include hf hx

/-- The value of a finite code (R105). -/
theorem decodeFloat_sig {k E : Nat} (h : IsSig (ffmt f) k E) (hc : E * 2 ^ (ffmt f).m + k ≤ (ffmt f).maxc) :
    decodeFloat f (signBit (ffmt f) u + (E * 2 ^ (ffmt f).m + k)) = Num.scaled u k (E + (1 - (ffmt f).bias - (ffmt f).m : Int)) := by
  have hlt := lt_signBit (hc.trans hx.maxc_lt.le)
  obtain ⟨hfrac, hexp, hsign⟩ := signed_fields u hlt
  have hfin := (hx.le_maxc_iff hlt).mp hc
  obtain ⟨hsub, hnorm⟩ := sig_fields h
  simp only [decodeFloat, hf, hfrac, hexp, hsign, hfin, false_and, and_false, if_false]
  by_cases hk : k < 2 ^ (ffmt f).m
  · obtain ⟨h0, h1⟩ := hsub hk
    rw [if_pos h0, h1, h.2 hk, Nat.cast_zero, zero_add]
  · obtain ⟨h0, h1⟩ := hnorm (Nat.le_of_not_lt hk)
    rw [if_neg (by omega), h0, h1]
    congr 1
    push_cast
    ring

/-- The infinities. -/
theorem decodeFloat_inf : decodeFloat f (signBit (ffmt f) u + (2 ^ (ffmt f).e - 1) * 2 ^ (ffmt f).m) = .inf u := by
  obtain ⟨hfrac, hexp, hsign⟩ := signed_fields u (lt_signBit (x := ffmt f) le_rfl)
  rw [Nat.mul_div_cancel _ (Nat.two_pow_pos _)] at hexp
  simp only [decodeFloat, hf, hfrac, hexp, hsign, hx.inf, Nat.mul_mod_left, false_and, if_false, Option.isSome_some, and_self, if_true]

/-- A code above that of infinity is NaN. -/
theorem decodeFloat_nan {c : Nat} (hlo : (2 ^ (ffmt f).e - 1) * 2 ^ (ffmt f).m < c) (hc : c < 2 ^ ((ffmt f).e + (ffmt f).m)) :
    decodeFloat f (signBit (ffmt f) u + c) = .nan := by
  obtain ⟨hfrac, hexp, hsign⟩ := signed_fields u hc
  have hones : c / 2 ^ (ffmt f).m = 2 ^ (ffmt f).e - 1 := not_not.mp ((hx.le_maxc_iff hc).not.mp (Nat.not_le.mpr (hx.maxc_lt.trans hlo)))
  have hne : c % 2 ^ (ffmt f).m ≠ 0 := fun h0 => by
    have := Nat.div_add_mod' c (2 ^ (ffmt f).m)
    rw [hones, h0] at this
    omega
  simp only [decodeFloat, hf, hfrac, hexp, hsign, hx.inf, hones, hne, false_and, if_false, Option.isSome_some, and_self, if_true]
end

/-! ## Rounding to a format (R115) -/

/-- A significand, or the next power of two, exceeds the largest finite code where its value exceeds the largest finite value. -/
theorem maxc_lt_iff {x : FFmt} (hx : Ieee x) {k E : Nat} (hk : k ≤ 2 ^ (x.m + 1)) (hE : k < 2 ^ x.m → E = 0) :
    x.maxc < E * 2 ^ x.m + k ↔ (2 ^ (x.m + 1) - 1) * 2 ^ (2 ^ x.e - 3) < k * 2 ^ E := by
  obtain ⟨hmax, -⟩ := hx.maxc_eq
  rw [hmax]
  generalize 2 ^ x.e - 3 = F
  have hpos := Nat.two_pow_pos x.m
  rw [Nat.pow_succ'] at hk ⊢
  generalize 2 ^ x.m = M at *
  rcases lt_trichotomy E F with hlt | rfl | hgt
  · obtain ⟨t, rfl⟩ := Nat.exists_eq_add_of_lt hlt
    have hcode : E * M + k ≤ (E + t + 1) * M + (2 * M - 1) := by rw [Nat.add_mul, Nat.add_mul]; omega
    have hval : k * 2 ^ E ≤ (2 * M - 1) * 2 ^ (E + t + 1) :=
      calc k * 2 ^ E ≤ 2 * M * 2 ^ E := Nat.mul_le_mul_right _ hk
        _ = M * 2 ^ (E + 1) := by ring
        _ ≤ (2 * M - 1) * 2 ^ (E + t + 1) := Nat.mul_le_mul (by omega) (Nat.pow_le_pow_right (by decide) (by omega))
    exact iff_of_false hcode.not_gt hval.not_gt
  · rw [Nat.mul_lt_mul_right (Nat.two_pow_pos E)]
    omega
  · obtain ⟨t, rfl⟩ := Nat.exists_eq_add_of_lt hgt
    have hM : M ≤ k := not_lt.mp fun h => by have := hE h; omega
    have hcode : F * M + (2 * M - 1) < (F + t + 1) * M + k := by rw [Nat.add_mul, Nat.add_mul]; omega
    have hval : (2 * M - 1) * 2 ^ F < k * 2 ^ (F + t + 1) :=
      calc (2 * M - 1) * 2 ^ F < 2 * M * 2 ^ F := Nat.mul_lt_mul_of_pos_right (by omega) (Nat.two_pow_pos _)
        _ = M * 2 ^ (F + 1) := by ring
        _ ≤ k * 2 ^ (F + t + 1) := Nat.mul_le_mul hM (Nat.pow_le_pow_right (by decide) (by omega))
    exact iff_of_true hcode hval

section
variable (x : FFmt) (mode n d : Nat) (neg : Bool)

/-- R115: the exponent to which a value is rounded: its own, or the least of the format. -/
def roundExp : Int := max (1 - (x.bias : Int)) (floorLog2 n d)

/-- The value over the unit of that exponent, and what it rounds to. -/
def roundQuot : Nat × Nat := overPow n d (roundExp x n d - x.m)
def roundSig : Nat := roundNat mode neg (roundQuot x n d).1 (roundQuot x n d).2

/-- The exponent field, less one. -/
def roundField : Nat := (roundExp x n d + x.bias - 1).toNat

theorem roundField_cast : (roundField x n d : Int) = roundExp x n d + x.bias - 1 := by
  have : 1 - (x.bias : Int) ≤ roundExp x n d := le_max_left ..
  rw [roundField, Int.toNat_of_nonneg (by omega)]

variable {n d} (hn : 0 < n) (hd : 0 < d)
include hd

theorem roundQuot_pos : 0 < (roundQuot x n d).2 := overPow_snd_pos hd _

include hn

/-- What a value rounds to is a significand, or the next power of two. -/
theorem roundSig_le : roundSig x mode n d neg ≤ 2 ^ (x.m + 1) := by
  refine roundNat_le mode neg (roundQuot_pos x hd) ?_
  rw [roundQuot, overPow_lt_iff hd]
  refine (floorLog2_bounds hd hn).2.trans_le ?_
  rw [Nat.cast_pow, Nat.cast_ofNat, ← zpow_natCast, ← zpow_add₀ two_ne_zero]
  refine zpow_le_zpow_right₀ one_le_two ?_
  have : floorLog2 n d ≤ roundExp x n d := le_max_right ..
  push_cast
  omega

theorem roundField_eq_zero (h : roundSig x mode n d neg < 2 ^ x.m) : roundField x n d = 0 := by
  by_contra hne
  have hexp : roundExp x n d = floorLog2 n d := by
    have := roundField_cast x n d
    rw [roundExp] at this ⊢
    omega
  refine absurd (le_roundNat mode neg (roundQuot_pos x hd) ?_) (Nat.not_le.mpr h)
  rw [roundQuot, overPow_le_iff hd, hexp, Nat.cast_pow, Nat.cast_ofNat, ← zpow_natCast, ← zpow_add₀ two_ne_zero, add_sub_cancel]
  exact (floorLog2_bounds hd hn).1
end

section
variable {f : Nat} (mode : Nat) (neg : Bool) {n d : Nat}

theorem roundExp_eq (x : FFmt) (n d : Nat) :
    (if floorLog2 n d < 1 - (x.bias : Int) then 1 - (x.bias : Int) else floorLog2 n d) = roundExp x n d := by
  rw [roundExp]
  split <;> omega

/-- R131: a value that is not exact sets NX, and UF where it is tiny besides. -/
theorem inexactFlags (exact : Prop) [Decidable exact] (tiny : Bool) :
    ((if exact then 0 else flagNX) ||| if (tiny && !decide exact) = true then flagUF else 0) =
      if exact then 0 else flagNX ||| if tiny then flagUF else 0 := by
  by_cases h : exact <;> cases tiny <;> simp [h]

theorem roundSig_eq (x : FFmt) (mode n d : Nat) (neg : Bool) :
    roundNat mode neg (overPow n d (roundExp x n d - x.m)).1 (overPow n d (roundExp x n d - x.m)).2 = roundSig x mode n d neg := rfl

/-- R115: the code of a value that is not zero, or its overflow. -/
theorem roundFloat_fin_sig (hn : 0 < n) (hd : 0 < d) : ∃ uf : Bool, roundFloat f mode false (.fin neg n d) =
    let k := roundSig (ffmt f) mode n d neg
    let c := roundField (ffmt f) n d * 2 ^ (ffmt f).m + k
    if (ffmt f).maxc < c then overflow (ffmt f) mode false neg
    else { code := signBit (ffmt f) neg + c,
           flags := if k * (roundQuot (ffmt f) n d).2 = (roundQuot (ffmt f) n d).1 then 0 else flagNX ||| if uf then flagUF else 0 } := by
  have hcode : (if roundSig (ffmt f) mode n d neg < 2 ^ (ffmt f).m then roundSig (ffmt f) mode n d neg
      else (roundExp (ffmt f) n d + (ffmt f).bias - 1).toNat * 2 ^ (ffmt f).m + roundSig (ffmt f) mode n d neg) =
      roundField (ffmt f) n d * 2 ^ (ffmt f).m + roundSig (ffmt f) mode n d neg := by
    split
    · next h => rw [roundField_eq_zero _ _ _ hn hd h, Nat.zero_mul, Nat.zero_add]
    · rfl
  simp only [roundFloat, hn.ne', if_false, roundExp_eq, roundSig_eq, hcode, decide_eq_true_eq, inexactFlags]
  exact ⟨_, rfl⟩
end

section
variable {f : Nat} (hf1 : 1 ≤ f) (hf3 : f ≤ 3)
include hf1 hf3

theorem decodeFloat_maxc : decodeFloat f (ffmt f).maxc =
    Num.scaled false (2 ^ ((ffmt f).m + 1) - 1) ((2 ^ (ffmt f).e - 3 : Nat) + (1 - (ffmt f).bias - (ffmt f).m : Int)) := by
  obtain ⟨hmax, hsig⟩ := (ieee_ffmt hf1 hf3).maxc_eq
  have h := decodeFloat_sig (by omega) (ieee_ffmt hf1 hf3) false hsig hmax.ge
  rwa [← hmax, signBit, if_neg Bool.false_ne_true, Nat.zero_add] at h

/-- R115: the result of an overflow, by its mode. -/
theorem overflow_eq {mode : Nat} (neg : Bool) (hm : mode ≤ 4) : overflow (ffmt f) mode false neg =
    { code := signBit (ffmt f) neg +
        (if mode = 0 ∨ mode = 4 ∨ (mode = 2 ∧ neg = false) ∨ (mode = 3 ∧ neg = true) then (ffmt f).inf.getD 0 else (ffmt f).maxc)
      flags := flagOF ||| flagNX } := by
  unfold overflow
  rw [(ieee_ffmt hf1 hf3).inf]
  interval_cases mode <;> cases neg <;> rfl

variable (mode : Nat) (neg : Bool) {n d : Nat} (hn : 0 < n) (hd : 0 < d)
include hn hd

/-- A rounded value exceeds the largest finite one where its code exceeds the largest finite code. -/
theorem exceeds_iff : (Num.scaled false (roundSig (ffmt f) mode n d neg) (roundExp (ffmt f) n d - (ffmt f).m)).cmp
      (decodeFloat f (ffmt f).maxc) = .gt ↔
    (ffmt f).maxc < roundField (ffmt f) n d * 2 ^ (ffmt f).m + roundSig (ffmt f) mode n d neg := by
  have hexp : roundExp (ffmt f) n d - (ffmt f).m = roundField (ffmt f) n d + (1 - (ffmt f).bias - (ffmt f).m : Int) := by
    rw [roundField_cast]; ring
  rw [hexp, decodeFloat_maxc hf1 hf3, cmp_scaled_gt,
    maxc_lt_iff (ieee_ffmt hf1 hf3) (roundSig_le _ mode neg hn hd) (roundField_eq_zero _ mode neg hn hd)]

/-- R115: a value within the range becomes the code of what it rounds to. -/
theorem decodeFloat_rounded (hc : roundField (ffmt f) n d * 2 ^ (ffmt f).m + roundSig (ffmt f) mode n d neg ≤ (ffmt f).maxc) :
    (decodeFloat f (signBit (ffmt f) neg + (roundField (ffmt f) n d * 2 ^ (ffmt f).m + roundSig (ffmt f) mode n d neg))).cmp
      (Num.scaled neg (roundSig (ffmt f) mode n d neg) (roundExp (ffmt f) n d - (ffmt f).m)) = .eq := by
  have hexp : roundExp (ffmt f) n d - (ffmt f).m = roundField (ffmt f) n d + (1 - (ffmt f).bias - (ffmt f).m : Int) := by
    rw [roundField_cast]; ring
  have hzero := roundField_eq_zero (ffmt f) mode neg hn hd
  rw [hexp]
  rcases (roundSig_le (ffmt f) mode neg hn hd).lt_or_eq with hlt | heq
  · rw [decodeFloat_sig (by omega) (ieee_ffmt hf1 hf3) neg ⟨hlt, hzero⟩ hc]
    exact cmp_scaled_self ..
  · have hpow : 2 ^ ((ffmt f).m + 1) = 2 * 2 ^ (ffmt f).m := Nat.pow_succ'
    have hcarry : roundField (ffmt f) n d * 2 ^ (ffmt f).m + roundSig (ffmt f) mode n d neg =
        (roundField (ffmt f) n d + 1) * 2 ^ (ffmt f).m + 2 ^ (ffmt f).m := by rw [heq, hpow]; ring
    have hsig : IsSig (ffmt f) (2 ^ (ffmt f).m) (roundField (ffmt f) n d + 1) :=
      ⟨Nat.pow_lt_pow_right (by decide) (Nat.lt_succ_self _), fun h => absurd h (lt_irrefl _)⟩
    rw [hcarry] at hc ⊢
    rw [decodeFloat_sig (by omega) (ieee_ffmt hf1 hf3) neg hsig hc, heq, hpow, Nat.cast_add, Nat.cast_one, add_right_comm]
    exact cmp_scaled_double ..
end

/-! ## A value of a format rounds to itself -/

section
variable {x : FFmt} {k E n d : Nat} (h : IsSig x k E) (hd : 0 < d)
  (hv : (n : ℚ) / d = k * 2 ^ (E + (1 - x.bias - x.m : Int)))
include h hd hv

theorem roundExp_sig (hn : 0 < n) : roundExp x n d = E + 1 - x.bias := by
  obtain ⟨hlt, hE⟩ := h
  have hshift (a : Nat) (b : Int) : (2 : ℚ) ^ b = (2 ^ a : Nat) * 2 ^ (b - a) := by
    rw [Nat.cast_pow, Nat.cast_ofNat, ← zpow_natCast, ← zpow_add₀ two_ne_zero, add_sub_cancel]
  have hval : (n : ℚ) / d = k * 2 ^ ((E + 1 - x.bias : Int) - x.m) := by rw [hv]; congr 2; ring
  rcases lt_or_ge k (2 ^ x.m) with hsub | hnorm
  · have hlog := (zpow_lt_zpow_iff_right₀ (one_lt_two (α := ℚ))).mp (((floorLog2_bounds hd hn).1.trans_eq hval).trans_lt
      (b := (k : ℚ) * _) (c := 2 ^ (E + 1 - x.bias : Int)) (by rw [hshift x.m (E + 1 - x.bias)]; gcongr))
    rw [hE hsub] at hlog ⊢
    rw [roundExp]
    omega
  · have hlog : floorLog2 n d = E + 1 - x.bias := by
      refine floorLog2_unique hd _ hn ?_ ?_
      · rw [hval, hshift x.m (E + 1 - x.bias)]
        gcongr
      · rw [hval, hshift (x.m + 1) (E + 1 - x.bias + 1), show (E + 1 - x.bias + 1 : Int) - (x.m + 1 : Nat) = (E + 1 - x.bias) - x.m by
          push_cast; ring]
        gcongr
    rw [roundExp, hlog]
    omega

/-- It is exact: its quotient is the significand. -/
theorem roundQuot_sig (hn : 0 < n) : (roundQuot x n d).1 = k * (roundQuot x n d).2 := by
  have hpos : (0 : ℚ) < (roundQuot x n d).2 := by exact_mod_cast roundQuot_pos x hd
  have hq : ((roundQuot x n d).1 : ℚ) / (roundQuot x n d).2 = k := by
    rw [roundQuot, overPow_div hd, hv, roundExp_sig h hd hv hn, show (E + 1 - x.bias : Int) - x.m = E + (1 - x.bias - x.m) by ring]
    exact mul_div_cancel_right₀ _ (by positivity)
  rw [div_eq_iff hpos.ne'] at hq
  exact_mod_cast hq
end

section
variable {f : Nat} (mode : Nat) (u : Bool)

theorem roundFloat_sig {k E : Nat} (h : IsSig (ffmt f) k E) (hc : E * 2 ^ (ffmt f).m + k ≤ (ffmt f).maxc) :
    roundFloat f mode false (Num.scaled u k (E + (1 - (ffmt f).bias - (ffmt f).m : Int))) =
      plain (signBit (ffmt f) u + (E * 2 ^ (ffmt f).m + k)) := by
  obtain ⟨n, d, hd, hnum, hv⟩ := scaled_eq u k (E + (1 - (ffmt f).bias - (ffmt f).m : Int))
  have hd' : (d : ℚ) ≠ 0 := by exact_mod_cast hd.ne'
  rw [hnum]
  rcases Nat.eq_zero_or_pos k with rfl | hk
  · have hn : n = 0 := by simpa [hd'] using hv
    have hE : E = 0 := h.2 (Nat.two_pow_pos _)
    subst hn hE
    simp [roundFloat, plain]
  · have hn : 0 < n := Nat.pos_of_ne_zero fun h0 => by
      rw [h0, Nat.cast_zero, zero_div] at hv
      exact absurd hv.symm (by positivity)
    have hexact := roundQuot_sig h hd hv hn
    have hsig : roundSig (ffmt f) mode n d u = k := by
      rw [roundSig, hexact]
      exact roundNat_mul mode u k (roundQuot_pos _ hd)
    have hfield : roundField (ffmt f) n d = E := by
      have := roundField_cast (ffmt f) n d
      rw [roundExp_sig h hd hv hn] at this
      omega
    obtain ⟨uf, hround⟩ := roundFloat_fin_sig (f := f) mode u hn hd
    simp only [hsig, hfield, hexact, if_true, if_neg hc.not_gt] at hround
    exact hround

/-- R115: a code that is no NaN is what its value rounds to, without a flag. -/
theorem roundFloat_decodeFloat (hf1 : 1 ≤ f) (hf3 : f ≤ 3) {a : Nat} (ha : a < 2 ^ (1 + (ffmt f).e + (ffmt f).m))
    (hnan : decodeFloat f a ≠ .nan) : roundFloat f mode false (decodeFloat f a) = plain a := by
  have hx := ieee_ffmt hf1 hf3
  have hf4 : f ≠ 4 := by omega
  obtain ⟨u, c, hc, rfl⟩ := exists_signed (ffmt f) ha
  rcases le_or_gt c (ffmt f).maxc with hfin | hbig
  · obtain ⟨k, E, h, rfl⟩ := exists_sig (ffmt f) c
    rw [decodeFloat_sig hf4 hx u h hfin]
    exact roundFloat_sig mode u h hfin
  · rcases (show (2 ^ (ffmt f).e - 1) * 2 ^ (ffmt f).m ≤ c by have := hx.maxc; omega).eq_or_lt with rfl | hgt
    · rw [decodeFloat_inf hf4 hx u]
      simp only [roundFloat, hx.inf, Bool.false_eq_true, if_false]
      rfl
    · exact absurd (decodeFloat_nan hf4 hx u hgt hc) hnan
end

end Sys2Proof.Machine
end

section
/-! O13: the lanes of the vector words, and the words that write them (R117, R128, R305-R307, R311-R313, R315). -/

namespace Sys2Proof.Machine

/-! ## Integer lanes (R128) -/

section
variable {t : BitVec 3} (ht : isFloatT t = false) (a b c : Nat)
include ht

theorem laneSub_int (hb : b < 2 ^ laneBits t) : laneSub t a b = plain ((a + (2 ^ laneBits t - b)) % 2 ^ laneBits t) := by
  rw [laneSub, if_neg (by simp [ht])]
  refine intLane_of_modEq (((laneInt_modEq t a).sub (laneInt_modEq t b)).trans (Int.modEq_iff_dvd.mpr ⟨1, ?_⟩))
  rw [Nat.cast_add, Nat.cast_sub hb.le]
  ring

theorem laneMul_int : laneMul t a b = plain (a * b % 2 ^ laneBits t) := by
  rw [laneMul, if_neg (by simp [ht])]
  refine intLane_of_modEq ?_
  rw [Nat.cast_mul]
  exact (laneInt_modEq t a).mul (laneInt_modEq t b)

theorem laneFma_int : laneFma t a b c = plain ((a * b + c) % 2 ^ laneBits t) := by
  rw [laneFma, if_neg (by simp [ht])]
  refine intLane_of_modEq ?_
  rw [Nat.cast_add, Nat.cast_mul]
  exact ((laneInt_modEq t a).mul (laneInt_modEq t b)).add (laneInt_modEq t c)
end

/-! ## Float lanes (R128) -/

section
variable {t : BitVec 3}

theorem roundLane_false (t : BitVec 3) (v : Num) : roundLane t v false = roundFloat (fmtOfT t) 0 false v := by
  simp [roundLane]

/-- NaN rounds to the canonical NaN, with NV where the operation is invalid. -/
theorem roundLane_nan (ht : isFloatT t = true) (bad : Bool) : roundLane t .nan bad = { code := nanOf t, flags := if bad then flagNV else 0 } := by
  revert t; cases bad <;> decide

theorem isFloatT_cases (ht : isFloatT t = true) : t = 0 ∨ t = 1 ∨ t = 2 := by
  revert t; decide

theorem laneNum_eq (ht : isFloatT t = true) (a : Nat) : laneNum t a = decodeFloat (fmtOfT t) a := by
  rcases isFloatT_cases ht with rfl | rfl | rfl <;> rfl

/-- The format of a float type has infinities, and its codes fill the lane. -/
theorem fmtOfT_ieee (ht : isFloatT t = true) :
    1 ≤ fmtOfT t ∧ fmtOfT t ≤ 3 ∧ 1 + (ffmt (fmtOfT t)).e + (ffmt (fmtOfT t)).m = laneBits t := by
  revert t; decide

end

section
variable {x y : Num}

theorem sum2_nan (h : x = .nan ∨ y = .nan) : x.sum2 y = .nan := by
  rcases h with rfl | rfl
  · rfl
  · cases x <;> rfl

theorem mul_nan (h : x = .nan ∨ y = .nan) : x.mul y = .nan := by
  rcases h with rfl | rfl
  · rfl
  · cases x <;> rfl

theorem isNan_or (h : x = .nan ∨ y = .nan) : (x.isNan || y.isNan) = true := by
  rcases h with rfl | rfl <;> simp [Num.isNan]

theorem sumInvalid_nan (h : x = .nan ∨ y = .nan) : Num.sumInvalid [x, y] = false := by
  rcases h with rfl | rfl <;> simp [Num.sumInvalid, Num.isNan]

theorem mulInvalid_nan (h : x = .nan ∨ y = .nan) : x.mulInvalid y = false := by
  rcases h with rfl | rfl <;> simp [Num.mulInvalid, Num.isNan]
end

section
variable {t : BitVec 3} (ht : isFloatT t = true) {a b : Nat}
include ht

theorem laneAdd_float (a b : Nat) :
    laneAdd t a b = roundLane t ((laneNum t a).sum2 (laneNum t b)) (Num.sumInvalid [laneNum t a, laneNum t b]) := if_pos ht

theorem laneMul_float (a b : Nat) :
    laneMul t a b = roundLane t ((laneNum t a).mul (laneNum t b)) ((laneNum t a).mulInvalid (laneNum t b)) := if_pos ht

/-- R128: a NaN operand gives the canonical NaN and no flag. -/
theorem float_nan (c : Nat) (h : laneNum t a = .nan ∨ laneNum t b = .nan) : let nan : Rounded := { code := nanOf t, flags := 0 }
    laneAdd t a b = nan ∧ laneSub t a b = nan ∧ laneMul t a b = nan ∧ (∀ u, laneMinMax t u a b = nan) ∧ laneFma t a b c = nan := by
  have hneg : laneNum t a = .nan ∨ (laneNum t b).neg = .nan := h.imp_right fun hb => by rw [hb]; rfl
  refine ⟨?_, ?_, ?_, fun u => ?_, ?_⟩
  · rw [laneAdd_float ht, sum2_nan h, sumInvalid_nan h]
    exact roundLane_nan ht false
  · rw [laneSub, if_pos ht, fAdd, sum2_nan hneg, sumInvalid_nan hneg]
    exact roundLane_nan ht false
  · rw [laneMul_float ht, mul_nan h, mulInvalid_nan h]
    exact roundLane_nan ht false
  · rw [laneMinMax, if_pos ht, fMinMax]
    exact congrArg plain (if_pos (isNan_or h))
  · have hvalid : (!(laneNum t a).isNan && !(laneNum t b).isNan) = false := by
      rw [← Bool.not_or, isNan_or h]; rfl
    rw [laneFma, if_pos ht, fFma, if_neg Bool.false_ne_true, mul_nan h, mulInvalid_nan h, hvalid, Bool.false_and, Bool.or_false, Bool.and_false]
    exact roundLane_nan ht false

/-- An invalid operation gives the canonical NaN and NV. -/
theorem laneAdd_infs {u : Bool} (ha : laneNum t a = .inf u) (hb : laneNum t b = .inf (!u)) :
    laneAdd t a b = { code := nanOf t, flags := flagNV } := by
  rw [laneAdd_float ht, ha, hb]
  cases u <;> exact roundLane_nan ht true

theorem laneMul_infZero {u : Bool} (ha : laneNum t a = .inf u) (hb : (laneNum t b).isZero = true) :
    laneMul t a b = { code := nanOf t, flags := flagNV } := by
  rw [laneMul_float ht, ha]
  cases hy : laneNum t b with
  | nan => rw [hy] at hb; cases hb
  | inf v => rw [hy] at hb; cases hb
  | fin v k e =>
    obtain rfl : k = 0 := by rw [hy] at hb; exact of_decide_eq_true hb
    exact roundLane_nan ht true

/-- Finite operands: the exact result, rounded once. -/
theorem float_fin {u v : Bool} {n d k e : Nat} (ha : laneNum t a = .fin u n d) (hb : laneNum t b = .fin v k e) :
    laneAdd t a b = roundFloat (fmtOfT t) 0 false ((laneNum t a).sum2 (laneNum t b)) ∧
    laneMul t a b = roundFloat (fmtOfT t) 0 false ((laneNum t a).mul (laneNum t b)) := by
  have hsum : Num.sumInvalid [laneNum t a, laneNum t b] = false := by
    rw [ha, hb]
    simp only [Num.sumInvalid, Num.sum, Num.sum2]
    split <;> exact Bool.and_false _
  have hmul : (laneNum t a).mulInvalid (laneNum t b) = false := by rw [ha, hb]; rfl
  rw [laneAdd_float ht, laneMul_float ht, hsum, hmul, roundLane_false, roundLane_false]
  exact ⟨rfl, rfl⟩

/-- A value of the type rounds to itself. -/
theorem roundFloat_laneNum (mode : Nat) (h : a < 2 ^ laneBits t) (hn : laneNum t a ≠ .nan) :
    roundFloat (fmtOfT t) mode false (laneNum t a) = plain a := by
  obtain ⟨h1, h3, hbits⟩ := fmtOfT_ieee ht
  rw [laneNum_eq ht] at hn ⊢
  exact roundFloat_decodeFloat mode h1 h3 (by rwa [hbits]) hn
end

/-! ## Rounding to a float type, with its flags (R115, R131) -/

section
variable {f mode n d : Nat} (neg : Bool)

theorem overPow_floorLog2 (hn : 0 < n) (hd : 0 < d) : let q := overPow n d (floorLog2 n d); q.2 ≤ q.1 ∧ q.1 < 2 * q.2 := by
  obtain ⟨hlo, hhi⟩ := floorLog2_bounds hd hn
  have h1 := (overPow_le_iff (n := n) hd (floorLog2 n d) 1).mpr (by rwa [Nat.cast_one, one_mul])
  have h2 := (overPow_lt_iff (n := n) hd (floorLog2 n d) 2).mpr (by rwa [Nat.cast_ofNat, mul_comm, ← zpow_add_one₀ two_ne_zero])
  rw [Nat.one_mul] at h1
  exact ⟨h1, h2⟩

/-- Within the range only NX and UF are set, and NX where the value is not exact. -/
theorem inexactFlags_nx (exact : Prop) [Decidable exact] (uf : Bool) :
    let g : BitVec 6 := if exact then 0 else flagNX ||| if uf then flagUF else 0
    g.getLsbD 4 = !decide exact ∧ g &&& (flagNV ||| flagDZ ||| flagOF ||| flagSAT) = 0 := by
  by_cases h : exact <;> cases uf <;> simp only [h, if_true, if_false] <;> decide

variable (hf1 : 1 ≤ f) (hf3 : f ≤ 3) (hn : 0 < n) (hd : 0 < d)
include hf1 hf3 hn hd

theorem roundFloat_within :
    let x := ffmt f; let q := roundQuot x n d; let k := roundSig x mode n d neg; let r := roundFloat f mode false (.fin neg n d)
    (Num.scaled false k (roundExp x n d - x.m)).cmp (decodeFloat f x.maxc) ≠ .gt →
      (decodeFloat f r.code).cmp (Num.scaled neg k (roundExp x n d - x.m)) = .eq ∧ r.flags.getLsbD 4 = (k * q.2 != q.1) ∧
      r.flags &&& (flagNV ||| flagDZ ||| flagOF ||| flagSAT) = 0 := by
  intro x q k r h
  have hc := (exceeds_iff hf1 hf3 mode neg hn hd).not.mp h
  obtain ⟨uf, hround⟩ := roundFloat_fin_sig (f := f) mode neg hn hd
  have hr : r = _ := hround.trans (if_neg hc)
  rw [hr]
  obtain ⟨hnx, hrest⟩ := inexactFlags_nx (k * q.2 = q.1) uf
  exact ⟨decodeFloat_rounded hf1 hf3 mode neg hn hd (Nat.le_of_not_lt hc), hnx, hrest⟩

theorem roundFloat_beyond (hm : mode ≤ 4) :
    let x := ffmt f
    (Num.scaled false (roundSig x mode n d neg) (roundExp x n d - x.m)).cmp (decodeFloat f x.maxc) = .gt →
      roundFloat f mode false (.fin neg n d) =
        { code := signBit x neg +
            (if mode = 0 ∨ mode = 4 ∨ (mode = 2 ∧ neg = false) ∨ (mode = 3 ∧ neg = true) then x.inf.getD 0 else x.maxc)
          flags := flagOF ||| flagNX } := by
  intro x h
  obtain ⟨uf, hround⟩ := roundFloat_fin_sig (f := f) mode neg hn hd
  exact (hround.trans (if_pos ((exceeds_iff hf1 hf3 mode neg hn hd).mp h))).trans (overflow_eq hf1 hf3 neg hm)
end

/-! ## Conversion (R117) -/

section
variable {f t : BitVec 3} (mode a : Nat) (sat : Bool) (hne : f ≠ t)
include hne

theorem convertLane_floatInt (hf : isFloatT f = true) (ht : isFloatT t = false) : convertLane f t mode sat a =
    { code := patOf (laneBits t) (roundRange (laneRange t).1 (laneRange t).2 mode (laneNum f a)).val
      flags := (roundRange (laneRange t).1 (laneRange t).2 mode (laneNum f a)).flags } := by
  simp only [convertLane, hne, hf, ht, Bool.false_eq_true, if_false, if_true]

theorem convertLane_intInt (hf : isFloatT f = false) (ht : isFloatT t = false) : convertLane f t mode sat a = intToInt t sat (laneInt f a) := by
  simp only [convertLane, hne, hf, ht, Bool.false_eq_true, if_false]

theorem convertLane_intFloat (hf : isFloatT f = false) (ht : isFloatT t = true) :
    convertLane f t mode sat a = roundFloat (fmtOfT t) mode false (laneNum f a) := by
  simp only [convertLane, hne, hf, ht, if_false, if_true, Bool.and_false]
end

section
variable {lo hi : Int} {mode : Nat} (w : Nat)

theorem roundRange_fin (u : Bool) (n d : Nat) : let y := signedNat u (roundNat mode u n d)
    ({ code := patOf w (roundRange lo hi mode (.fin u n d)).val, flags := (roundRange lo hi mode (.fin u n d)).flags } : Rounded) =
      if y < lo ∨ hi < y then { code := patOf w (if y < lo then lo else hi), flags := flagSAT ||| flagNX }
      else { code := patOf w y, flags := if roundNat mode u n d * d = n then 0 else flagNX } := by
  intro y
  have hflag : (if intInexact mode (.fin u n d) then flagNX else 0) = if roundNat mode u n d * d = n then 0 else flagNX := by
    by_cases h : roundNat mode u n d * d = n <;> simp [intInexact, h]
  simp only [roundRange, hflag]
  by_cases h1 : y < lo
  · simp [h1, y]
  · by_cases h2 : hi < y
    · simp [h1, h2, y]
    · simp [h1, h2, y]

theorem intToInt_sat (t : BitVec 3) (y : Int) : let lo := (laneRange t).1; let hi := (laneRange t).2
    intToInt t true y = if y < lo ∨ hi < y then { code := patOf (laneBits t) (if y < lo then lo else hi), flags := flagSAT ||| flagNX }
      else plain (patOf (laneBits t) y) := by
  intro lo hi
  unfold intToInt
  by_cases h1 : y < lo
  · simp [h1, lo]
  · by_cases h2 : hi < y <;> simp [h1, h2, lo, hi, intLane]
end

/-! ## The words (R305, R307, R311-R313, R315) -/

section
variable {i : Instr} {s : State} {d : BitVec 4} {m t : BitVec 3} {f : State → Nat → Rounded} {v : Nat → Rounded}

/-- A word of masked lanes writes the active lanes and ORs their flags. -/
theorem exec_vecRun (hx : exec i s = .next (vecRun i d m t f s)) (hv : f s = v) (h : runsA i s) :
    exec i s = .next ((s.wrV d (masked s t m (s.rdV d) v).1).orFlags (masked s t m (s.rdV d) v).2) := by
  rw [hx, ← hv, vecRun, runA_eq _ h]
  rfl
end

end Sys2Proof.Machine

open Sys2Proof Sys2Proof.Machine

/-- Settles O13: each word is `vecRun` at its lanes; the values of the lanes by R128, R114-R117 and R131, a rule each. -/
theorem vectorResults : Obligations.VectorResults := by
  refine ⟨?words, ?integer, ?float, ?natural, ?round, ?convert⟩
  case words =>
    intro d a b c n l x h g m t f r s A B C N put p hp hr
    simp only [List.mem_cons, List.not_mem_nil, or_false] at hp
    rcases hp with rfl | rfl | rfl | rfl | rfl | rfl | rfl | rfl | rfl | rfl | rfl | rfl | rfl | rfl | rfl | rfl | rfl | rfl | rfl | rfl | rfl
    all_goals exact exec_vecRun rfl rfl hr
  case integer =>
    intro t a b c ht _ hb _
    exact ⟨laneAdd_int ht a b, laneSub_int ht a b hb, laneMul_int ht a b, laneFma_int ht a b c⟩
  case float =>
    intro t a b c ht x y nan
    exact ⟨float_nan ht c, fun u => laneAdd_infs ht, fun u => laneMul_infZero ht, fun u n d v k e => float_fin ht,
      fun mode => roundFloat_laneNum ht mode⟩
  case natural =>
    intro neg n d hd k
    exact ⟨roundNat_nearestEven neg hd, roundNat_down neg hd, fun _ h => roundNat_away neg hd h, fun _ h => roundNat_toward neg hd h,
      roundNat_nearestAway neg hd⟩
  case round =>
    intro f mode n d neg hf1 hf3 hm hn hd
    exact ⟨overPow_floorLog2 hn hd, roundFloat_within neg hf1 hf3 hn hd, roundFloat_beyond neg hf1 hf3 hn hd hm⟩
  case convert =>
    intro f t mode a sat hne w lo hi
    refine ⟨fun hf ht => ?_, fun hf ht => ?_, convertLane_intFloat mode a sat hne⟩
    · rw [convertLane_floatInt mode a sat hne hf ht]
      refine ⟨fun h => ?_, fun u h => ?_, fun u n d h => ?_⟩ <;> rw [h]
      · rfl
      · rfl
      · exact roundRange_fin w u n d
    · rw [convertLane_intInt mode a _ hne hf ht, convertLane_intInt mode a _ hne hf ht]
      exact ⟨rfl, intToInt_sat t _⟩
end

section
/-! O43: taking a trap (R340, R341, R342, R345, R275). -/

namespace Sys2Proof.Machine

/-! ## Fields of TRAP.CAUSE (R341) -/

/-- The mode, the context and the cause stand side by side. -/
theorem causeWord_split (p : Pend) (n : SlotNo) (priv : Bool) (nrep : Nat) :
    ∃ k, causeWord p n priv nrep = BitVec.ofNat 64 (2 ^ 13 * k + (if priv then 2 ^ 12 else 0) + n.toNat * 2 ^ 8 + p.cause.toNat) := by
  refine ⟨(if p.dfr then 1 else 0) + (if p.wonly then 2 else 0) + (nrepField nrep).toNat * 2 ^ 3 + 2 ^ 50, ?_⟩
  unfold causeWord
  congr 1
  split <;> split <;> split <;> omega

theorem causeWord_slot (p : Pend) (n : SlotNo) (priv : Bool) (nrep : Nat) : (causeWord p n priv nrep).extractLsb' 8 4 = n := by
  obtain ⟨k, hk⟩ := causeWord_split p n priv nrep
  have hn := n.isLt
  have hc := p.cause.isLt
  refine BitVec.eq_of_toNat_eq ?_
  rw [hk, BitVec.extractLsb'_toNat, BitVec.toNat_ofNat, Nat.shiftRight_eq_div_pow]
  split <;> omega

theorem causeWord_mode (p : Pend) (n : SlotNo) (priv : Bool) (nrep : Nat) : (causeWord p n priv nrep).getLsbD 12 = priv := by
  obtain ⟨k, hk⟩ := causeWord_split p n priv nrep
  have hn := n.isLt
  have hc := p.cause.isLt
  have hbit : (2 ^ 13 * k + (if priv then 2 ^ 12 else 0) + n.toNat * 2 ^ 8 + p.cause.toNat) / 2 ^ 12 % 2 = if priv then 1 else 0 := by
    split <;> omega
  rw [hk, BitVec.getLsbD_ofNat, Nat.testBit_eq_decide_div_mod_eq, hbit]
  cases priv <;> rfl

/-! ## What a trap leaves of the cores -/

section
variable {s : State} {c : CoreId} {n : SlotNo} {p : Pend}

theorem offerIf_core_ne (s : State) (bit : Nat) (u : List (BitVec 128)) {c' : CoreId} (h : c' ≠ c) :
    (s.offerIf c bit u).core c' = s.core c' := by
  unfold State.offerIf
  split
  · exact State.core_modCore_ne s _ h
  · rfl

/-- The count and the record of a trap are its core's. -/
theorem traceTrap_core_ne {c' : CoreId} (h : c' ≠ c) : (s.traceTrap c n p).core c' = s.core c' := by
  rw [State.traceTrap, State.traceEvent, offerIf_core_ne _ _ _ h, State.countCtx, State.core_modCore_ne _ _ h]

theorem privTaken_core_ne {c' : CoreId} (h : c' ≠ c) : (privTaken s c n p).core c' = s.core c' := by
  rw [privTaken, State.core_modCore_ne _ _ h, State.core_withMem, traceTrap_core_ne h]

/-- The context goes on at the vector in privileged mode, with the mark gone and every other register as it was. -/
theorem privTaken_ctx (hn : n.toNat < 11) : (privTaken s c n p).ctx c n =
    { s.ctx c n with
      priv := true, st := (s.core c).liveState n, wait := none, replaying := false, tpend := (s.ctx c n).without p,
      inv := (s.ctx c n).inv.abandon, a := { (s.ctx c n).a with pc := (s.core c).r.trapVec, wonly := false } } := by
  obtain ⟨v, l, hk⟩ := traceTrap_core s c n p
  rw [State.ctx, privTaken_core, hk, Core.privEntry, Core.ctx_setCtx _ _ _ hn]
  rfl

theorem privTaken_ctx_ne {m : SlotNo} (h : m ≠ n) : (privTaken s c n p).ctx c m = s.ctx c m := by
  obtain ⟨v, l, hk⟩ := traceTrap_core s c n p
  rw [State.ctx, privTaken_core, hk, Core.privEntry, Core.ctx_setCtx_ne _ _ h]
  rfl

theorem privTaken_trapMark : ((privTaken s c n p).core c).r.trapMark = some p.pc := by rw [privTaken_core, Core.privEntry_r]

/-! ## The receivers -/

/-- R340: a vector that cannot be fetched from stops the core. -/
theorem enterPriv_badVector (hb : (s.core c).busyBit = false) (hf : fetchOkAt s c (s.core c).r.trapVec = false) :
    enterPriv s c n p = stopCore (privTaken s c n p) c := by
  have hd : (privTaken s c n p).devId = s.devId := congrArg (·.2.1) (fixed_traceTrap s c n p)
  rw [← fetchOkAt_congr hd] at hf
  unfold enterPriv
  extract_lets k x t u w
  rw [if_neg (by rw [hb]; exact Bool.false_ne_true)]
  exact if_neg (ne_true_of_eq_false hf)

/-- R342: a trap of another context than the one that BUSY names waits. -/
theorem enterPriv_waits (hb : (s.core c).busyBit = true) (h : (s.core c).busyCtx ≠ n) :
    enterPriv s c n p = s.modCtx c n fun x => { x with tpend := if x.tpend.contains p then x.tpend else x.tpend ++ [p] } := by
  unfold enterPriv
  extract_lets
  rw [if_pos hb, if_neg h]

/-- R342: a trap of the context that BUSY names stops the core. -/
theorem enterPriv_nested (hb : (s.core c).busyBit = true) (h : (s.core c).busyCtx = n) :
    enterPriv s c n p = stopCore (s.modCtx c n fun x => { x with tpend := x.without p }) c := by
  unfold enterPriv
  extract_lets
  rw [if_pos hb, if_pos h]

/-- R345: the helper in UPCALL. -/
theorem enterUpcall_ctx (hn : n.toNat < 11) : (enterUpcall s c n p).ctx c n =
    { s.ctx c n with
      st := if (s.core c).holds n then .hupcall else .upcall, upc := some (p, (s.core c).rot), recorded := false, wait := none,
      replaying := false, tpend := (s.ctx c n).without p, inv := (s.ctx c n).inv.abandon,
      a := { (s.ctx c n).a with pc := p.pc, wonly := p.wonly } } := by
  obtain ⟨v, l, hk⟩ := traceTrap_core s c n p
  rw [enterUpcall, State.ctx, State.core_modCore, hk, Core.ctx_setCtx _ _ _ hn]
  rfl

/-- R275: the core of a context that takes the free bank. -/
def Core.bankTaken (k : Core) (n : SlotNo) (p : Pend) : Core :=
  { k with holder := some n, sh := 0, h := vset (vset (vset (vset k.h 0 p.info0) 1 p.pc) 2 p.aux) 3 p.aux2,
           bankq := k.bankq.filter (· != n) }.setCtx n
    { k.ctx n with st := .handler, kmiss := none, wait := none, inv := (k.ctx n).inv.abandon,
                   a := { (k.ctx n).a with pc := k.r.kmHandler, wonly := false } }

theorem Core.bankTaken_ctx (k : Core) (p : Pend) (hn : n.toNat < 11) : (k.bankTaken n p).ctx n =
    { k.ctx n with st := .handler, kmiss := none, wait := none, inv := (k.ctx n).inv.abandon,
                   a := { (k.ctx n).a with pc := k.r.kmHandler, wonly := false } } := Core.ctx_setCtx _ _ _ hn

theorem Core.bankTaken_h (k : Core) (p : Pend) : vget (k.bankTaken n p).h 0 0 = p.info0 ∧ vget (k.bankTaken n p).h 1 0 = p.pc := by
  simp [Core.bankTaken, vget_vset_ne]

theorem enterHandler_free (hh : (s.core c).holder = none) (hq : (s.core c).bankq = []) :
    enterHandler s c n p = (s.traceTrap c n p).modCore c fun k => k.bankTaken n p := by
  obtain ⟨v, l, hk⟩ := traceTrap_core s c n p
  unfold enterHandler
  extract_lets t
  refine if_pos ?_
  rw [show t.core c = _ from hk, hh, hq]
  rfl

end

end Sys2Proof.Machine

open Sys2Proof Sys2Proof.Machine

/-- Settles O43: the state that each receiver leaves is named, and its fields are read off it. -/
theorem trapEntry : Obligations.TrapEntry := by
  intro s c n p hn
  refine ⟨fun hb hf => ?taken, fun hb hf => ?badVector, fun hb => ⟨fun h => ?waits, fun h => ?nested⟩, ?upcall, fun hh hq => ?handler⟩
  case taken =>
    have hx := enterPriv_eq (n := n) (p := p) hb hf
    have ht := enterPriv_took (p := p) hn hb hf
    intro k x t r
    refine ⟨ht.trapPc, ht.info0, ht.info1, ht.cause, ?_, ?_, ?_, ?_, fun i => ht.savedReg_eq, ?_, fun a => ht.mem_outside, ht.priv, ?_⟩
    · exact ht.cause ▸ causeWord_busy ..
    · exact ht.cause ▸ causeWord_cause ..
    · exact ht.cause ▸ causeWord_slot ..
    · exact ht.cause ▸ causeWord_mode ..
    · show ((enterPriv s c n p).core c).r.trapMark = some p.pc
      rw [hx, privTaken_trapMark]
    · rw [show t = _ from hx, privTaken_ctx hn]
      exact ⟨rfl, rfl, fun m => privTaken_ctx_ne, fun c' => privTaken_core_ne⟩
  case badVector => rw [enterPriv_badVector hb hf, stopCore, State.core_modCore]
  case waits =>
    rw [enterPriv_waits hb h, State.ctx_modCtx _ _ _ _ hn]
    refine ⟨?_, rfl, rfl, ?_, ?_⟩
    · rw [State.modCtx, State.core_modCore]; rfl
    · dsimp only
      split
      · next hp => exact List.contains_iff_mem.mp hp
      · exact List.mem_append_right _ (List.mem_singleton_self p)
    · rw [State.modCtx, State.core_modCore]; rfl
  case nested =>
    rw [enterPriv_nested hb h, stopCore, State.core_modCore, State.modCtx, State.core_modCore]
    exact ⟨rfl, rfl⟩
  case upcall =>
    intro t
    rw [enterUpcall_ctx hn]
    exact ⟨rfl, rfl, rfl, rfl, rfl, traceTrap_mem ..⟩
  case handler =>
    obtain ⟨v, l, hk⟩ := traceTrap_core s c n p
    intro t
    have ht : t = _ := enterHandler_free hh hq
    have hcore : t.core c = ((s.traceTrap c n p).core c).bankTaken n p := by rw [ht, State.core_modCore]
    rw [State.ctx, hcore, Core.bankTaken_ctx _ _ hn, ht]
    obtain ⟨h0, h1⟩ := ((s.traceTrap c n p).core c).bankTaken_h (n := n) p
    refine ⟨rfl, rfl, ?_, rfl, h0, h1, ?_, traceTrap_mem ..⟩
    · rw [hk]
    · rw [hk]
      rfl
end

section
/-! O44: `eret` (R343, R459). -/

namespace Sys2Proof.Machine

section
variable {m : State}

/-- R343: the registers named 56 to 63 of the issuing context have come back, and BUSY is clear. -/
def trapRestored (m : State) : State :=
  m.modMine fun k => { k with r := { k.r with trapCause := m.mine.r.trapCause &&& ~~~ BitVec.twoPow 64 63 } }.setCtx m.iss.slot
    { m.me with a := { m.me.a with
      g := Vector.ofFn fun i => if i.val < 56 then vget m.me.a.g i.val 0 else m.savedReg m.iss.core (i.val - 56) } }

theorem trapRestored_r : (trapRestored m).mine.r = { m.mine.r with trapCause := m.mine.r.trapCause &&& ~~~ BitVec.twoPow 64 63 } := by
  rw [trapRestored, State.mine_modMine]
  rfl

theorem trapRestored_me (hslot : m.iss.slot.toNat < 11) : (trapRestored m).me = { m.me with a := { m.me.a with
    g := Vector.ofFn fun i => if i.val < 56 then vget m.me.a.g i.val 0 else m.savedReg m.iss.core (i.val - 56) } } := by
  show (trapRestored m).mine.ctx m.iss.slot = _
  rw [trapRestored, State.mine_modMine, Core.ctx_setCtx _ _ _ hslot]

/-- The context goes on, while KILL is clear and another context, or none, holds the shadow bank. -/
theorem retTrap_resumes (hkill : m.mine.r.trapCause.getLsbD 62 = false) (hh : m.mine.holds m.iss.slot = false) :
    retTrap m = (trapRestored m).modMe fun x =>
      ({ x with priv := m.mine.r.trapCause.getLsbD 12, replaying := x.mustReplay, skipStop := true } : Ctx).resumeAt
      (trapRestored m).mine.r.trapPc (m.mine.r.trapCause.getLsbD 14 && marks (trapRestored m).mine.r.trapMark (trapRestored m).mine.r.trapPc)
      ((trapRestored m).mine.awayTrap m.iss.slot) := by
  unfold retTrap
  extract_lets c n tc t who
  have ht : t = trapRestored m := congrArg (State.setCore m c) (if_neg (ne_true_of_eq_false hh))
  rw [if_neg (by rw [hkill]; exact Bool.false_ne_true), ht]

theorem retTrap_mine_r (hkill : m.mine.r.trapCause.getLsbD 62 = false) (hh : m.mine.holds m.iss.slot = false) :
    (retTrap m).mine.r = { m.mine.r with trapCause := m.mine.r.trapCause &&& ~~~ BitVec.twoPow 64 63 } := by
  rw [retTrap_resumes hkill hh, State.modMe_mine, Core.setCtx_r, trapRestored_r]

/-- Its mode and its registers, with the mark if it belongs to the bundle at TRAP.PC (R459). -/
theorem retTrap_me (hslot : m.iss.slot.toNat < 11) (hkill : m.mine.r.trapCause.getLsbD 62 = false) (hh : m.mine.holds m.iss.slot = false) :
    (retTrap m).me.priv = m.mine.r.trapCause.getLsbD 12 ∧
    (retTrap m).me.a = { m.me.a with
      g := Vector.ofFn fun i => if i.val < 56 then vget m.me.a.g i.val 0 else m.savedReg m.iss.core (i.val - 56), pc := m.mine.r.trapPc,
      wonly := m.mine.r.trapCause.getLsbD 14 && marks m.mine.r.trapMark m.mine.r.trapPc } := by
  rw [retTrap_resumes hkill hh, State.me_modMe (trapRestored m) _ hslot, Ctx.resumeAt_a, Ctx.resumeAt_priv, trapRestored_r, trapRestored_me hslot]
  exact ⟨rfl, rfl⟩

theorem retTrap_mem (hkill : m.mine.r.trapCause.getLsbD 62 = false) (hh : m.mine.holds m.iss.slot = false) : (retTrap m).mem = m.mem := by
  rw [retTrap_resumes hkill hh]
  rfl
end

end Sys2Proof.Machine

open Sys2Proof Sys2Proof.Machine

/-- Settles O44: `eret` is `retTrap` in the state that its commit leaves, and what that does to the issuing context and its core is named. -/
theorem trapReturn : Obligations.TrapReturn := by
  intro s he hm hf
  have hc : (if s.opened.fetchOk s.opened.mine.r.trapPc then none else some (s.opened.tAddr s.opened.mine.r.trapPc)) = none := if_pos hf
  refine ⟨congrArg Host.Outcome.next (runE_eq retTrap he (fun h => absurd h Bool.false_ne_true) hc hm (unheld_noHold s)), fun hs hkill hh => ?_⟩
  have hslot : (s.committed .eret).iss.slot.toNat < 11 := by rw [committed_iss]; exact hs
  obtain ⟨hpriv, ha⟩ := retTrap_me hslot hkill hh
  intro t
  rw [ha, hpriv, retTrap_mine_r hkill hh]
  refine ⟨rfl, rfl, rfl, fun i hi => ?_, rfl, fun i hi => ?_, retTrap_mem hkill hh⟩
  · rw [vget_ofFn _ _ (show 56 + i < 64 by omega)]
    dsimp only
    rw [if_neg (by omega), Nat.add_sub_cancel_left]
  · rw [vget_ofFn _ _ (show i < 64 by omega), if_pos hi]
end

section
/-! O55: pre-emption of a core, and the holds of gangs (R352-R357, R374, R393). -/

namespace Sys2Proof.Machine

/-! ## Bytes that are copied -/

/-- A copy reads as what it was copied from. -/
theorem memRead_memWrite_memRead (m m' : Mem) (k j n : Nat) : memRead (memWrite m k (memRead m' j n)) k n = memRead m' j n :=
  List.map_congr_left fun _ hi => memGet_memWrite_memRead m (List.mem_range.mp hi) m'

/-! ## What trace records leave alone -/

section
variable (s : State) (c : CoreId) (code : Nat)

theorem tracePre_core : ∃ l, (s.tracePre c code).core c = { s.core c with kept := l } := by
  unfold State.tracePre State.offerIf
  split
  · exact ⟨_, State.core_modCore ..⟩
  · exact ⟨_, rfl⟩

theorem tracePre_mem : (s.tracePre c code).mem = s.mem := mem_offerIf ..

theorem tracePre_hostOut : (s.tracePre c code).hostOut = s.hostOut := by unfold State.tracePre State.offerIf; split <;> rfl

theorem tracePre_hostUp (d : BitVec 2) : hostUp (s.tracePre c code) d = hostUp s d := by unfold State.tracePre State.offerIf; split <;> rfl
end

/-! ## SAVE (R352, R353) -/

section
variable {s : State} {c : CoreId} {area spill cap : Nat} (hup : hostUp s (dieOf c) = true)
include hup

theorem exec_save_accepted (hp : (s.core c).pre = .running) (ha : areaOk area spill cap = true) : exec (.save c area spill cap) s =
    .next (((hostNote s (nodeCore c) 3 18 (dieOf c ++ (0 : BitVec 10))).modCore c fun k =>
      { k with pre := .stopping, saveArea := area, divBase := spill, divCap := cap }).tracePre c 1) :=
  congrArg Host.Outcome.next ((hostCommand_up _ hup).trans (if_neg (by rw [hostNote_core, hp, ha]; decide)))

theorem exec_save_refused (hp : (s.core c).pre ≠ .running) : exec (.save c area spill cap) s =
    .next ((hostNote s (nodeCore c) 3 18 (dieOf c ++ (0 : BitVec 10))).tell (.refused "SAVE" c)) :=
  congrArg Host.Outcome.next ((hostCommand_up _ hup).trans (if_pos (by rw [hostNote_core, bne_iff_ne.mpr hp, Bool.true_or])))
end

section
variable {s : State} {c : CoreId}

theorem exec_saveAreaWrite_draining (hp : (s.core c).pre = .draining) (hd : drained s c = true) : exec (.saveAreaWrite c) s =
    .next ((s.modCore c fun k => { k with pre := .saving }).tracePre c 3) := by
  show execSaveAreaWrite c s = _
  simp only [execSaveAreaWrite, hp, hd, if_true]

theorem exec_saveAreaWrite_saving (hp : (s.core c).pre = .saving) : exec (.saveAreaWrite c) s =
    .next ((((writeArea s c).modCore c fun k => { k with pre := .saved }).tracePre c 4).tell (.ok "SAVE" c)) := by
  show execSaveAreaWrite c s = _
  simp only [execSaveAreaWrite, hp]
end

/-! ## The save area (R357) -/

section
variable (s : State) (c : CoreId)

/-- The regions of the area beside the scratchpad. -/
def areaParts : List (Nat × List Byte) :=
  areaRegions (s.core c) (memRead s.mem ((s.core c).trapBlock c) 64) ++
    imageRegions.map fun r => (r.1, (List.range r.2).map fun i => Config.imageByte s.free (r.1 + i))

/-- The record of what is written in the area. -/
def areaRecord : Saved :=
  { area := (s.core c).saveArea, img := { s.core c with trapArea := some (s.core c).saveArea, pre := .saved }, parts := areaParts s c }

/-- The scratchpad is the last that is written, and the record of the area stands before those of older ones. -/
theorem writeArea_eq : writeArea s c = ({ s.draw with
    mem := memWrite (putRegions s.mem (dieOf c) (s.core c).saveArea (areaParts s c)) (dmKey (dieOf c) ((s.core c).saveArea + 0x30000))
      (memRead s.mem (spKey c 0) (2 ^ 18))
    saved := (c.toNat, areaRecord s c) ::
      s.saved.filter fun p => !(dieOf (BitVec.ofNat 12 p.1) == dieOf c && areasMeet p.2.area (s.core c).saveArea) } : State).setCore c
    { s.core c with trapArea := some (s.core c).saveArea } := rfl

theorem writeArea_core : (writeArea s c).core c = { s.core c with trapArea := some (s.core c).saveArea } := by
  rw [writeArea_eq, State.core_setCore]

theorem writeArea_core_ne : sameCoresBut s (writeArea s c) c := fun c' h => by
  rw [writeArea_eq, State.core_setCore_ne _ _ h]
  exact core_of_cores rfl

theorem writeArea_scratchpad : memRead (writeArea s c).mem (dmKey (dieOf c) ((s.core c).saveArea + 0x30000)) (2 ^ 18) =
    memRead s.mem (spKey c 0) (2 ^ 18) := by
  rw [writeArea_eq, State.setCore_mem, memRead_memWrite_memRead]

theorem writeArea_saved : (writeArea s c).saved = (c.toNat, areaRecord s c) ::
    s.saved.filter fun p => !(dieOf (BitVec.ofNat 12 p.1) == dieOf c && areasMeet p.2.area (s.core c).saveArea) := by
  rw [writeArea_eq, State.setCore]

theorem savedAt_writeArea : savedAt (writeArea s c) c (s.core c).saveArea = some (areaRecord s c) := by
  have hself : (c.toNat == c.toNat && (areaRecord s c).area == (s.core c).saveArea) = true := by
    rw [beq_self_eq_true]
    exact beq_self_eq_true _
  rw [savedAt, writeArea_saved, List.find?_cons_of_pos (by exact hself), Option.map_some]
end

theorem areaMatches_iff {s : State} {c : CoreId} {area : Nat} {v : Saved} (h : savedAt s c area = some v) : areaMatches s c area = true ↔
    ∀ r ∈ v.parts, memRead s.mem (dmKey (dieOf c) (area + r.1)) r.2.length = r.2 := by
  simp only [areaMatches, h, List.all_eq_true, beq_iff_eq]

/-! ## RESTORE (R352, R355, R357) -/

section
variable {s : State} {c : CoreId} {area spill cap : Nat} (hup : hostUp s (dieOf c) = true)
include hup

theorem exec_restore_accepted {v : Saved} (hp : (s.core c).pre = .saved) (hm : areaMatches s c area = true) (ha : areaOk area spill cap = true)
    (hv : savedAt s c area = some v) : exec (.restore c area spill cap) s =
    .next (((hostNote s (nodeCore c) 3 18 (dieOf c ++ (0 : BitVec 10))).modCore c fun k =>
      { (if area = k.saveArea then k else olderImage k v.img) with
        pre := .restoring, saveArea := area, trapArea := some area, divBase := spill, divCap := cap }).tracePre c 5) := by
  have hm' : areaMatches (hostNote s (nodeCore c) 3 18 (dieOf c ++ (0 : BitVec 10))) c area = true := hm
  have hv' : savedAt (hostNote s (nodeCore c) 3 18 (dieOf c ++ (0 : BitVec 10))) c area = some v := hv
  refine congrArg Host.Outcome.next ((hostCommand_up _ hup).trans ((if_neg ?_).trans ?_))
  · rw [hostNote_core, hp, hm', ha]; decide
  · simp only [hv']

theorem exec_restore_refused (hm : areaMatches s c area = false) : exec (.restore c area spill cap) s =
    .next ((hostNote s (nodeCore c) 3 18 (dieOf c ++ (0 : BitVec 10))).tell (.refused "RESTORE" c)) := by
  have hm' : areaMatches (hostNote s (nodeCore c) 3 18 (dieOf c ++ (0 : BitVec 10))) c area = false := hm
  refine congrArg Host.Outcome.next ((hostCommand_up _ hup).trans (if_pos ?_))
  rw [hm', Bool.not_false, Bool.or_true, Bool.true_or]
end

section
variable (s : State) (c : CoreId) (v : Saved)

/-- R357: the core is RUNNING, with its scratchpad read back and the counts of its SAVE. -/
def restored : State :=
  ({ s with mem := memWrite s.mem (spKey c 0) (memRead s.mem (dmKey (dieOf c) ((s.core c).saveArea + 0x30000)) (2 ^ 18)) } : State).setCore c
    { asSaved (s.core c) v.img with pre := .running, divert := [] }

theorem restored_mem : (restored s c v).mem =
    memWrite s.mem (spKey c 0) (memRead s.mem (dmKey (dieOf c) ((s.core c).saveArea + 0x30000)) (2 ^ 18)) := by
  rw [restored, State.setCore_mem]

theorem restored_downLinks : (restored s c v).downLinks = s.downLinks := by rw [restored, State.setCore]

theorem restored_hostOut : (restored s c v).hostOut = s.hostOut := by rw [restored, State.setCore]

theorem restored_core : (restored s c v).core c = { asSaved (s.core c) v.img with pre := .running, divert := [] } := by
  rw [restored, State.core_setCore]

/-- With no arrival diverted, RESTORE ends at once. -/
theorem exec_restoreComplete_undiverted (hp : (s.core c).pre = .restoring) (hv : savedAt s c (s.core c).saveArea = some v)
    (hd : (s.core c).divert = []) : exec (.restoreComplete c) s = .next (((restored s c v).tracePre c 6).tell (.ok "RESTORE" c)) := by
  have hv' : ∀ m, savedAt { s with mem := m } c (s.core c).saveArea = some v := fun _ => hv
  show execRestoreComplete c s = _
  simp only [execRestoreComplete, hp, hd, hv', List.foldl_nil]
  rfl
end

/-! ## Withdrawals and diversion (R354, R356) -/

section
variable {s : State} {c : CoreId}

theorem exec_withdrawalAnswer_performed {n : SlotNo} {w : Wait} {t : State} (hw : (s.ctx c n).wait = some w) (hp : (s.core c).pre = .draining)
    (hh : heldElsewhere s c n = true) (ht : completeWait s c n w = some t) : exec (.withdrawalAnswer c n) s = .next t := by
  show execWithdrawalAnswer c n s = _
  simp only [execWithdrawalAnswer, hw, hp, hh, ht, beq_self_eq_true, Bool.and_self, if_true]

/-- An arrival that its core diverts. -/
theorem exec_divertedArrival {id : Nat} {r : Req} (hr : s.req id = some r) (ho : onWay s r = true) (hd : isDiverted s r.body = true)
    (hc : divertible s r.body = some c) : exec (.divertedArrival id) s = .next (divertTo s c id) := by
  show execDivertedArrival id s = _
  simp only [execDivertedArrival, hr, ho, hd, hc, Bool.not_true, Bool.false_eq_true, if_false, if_true]

/-! ## Gang holds (R374) -/

/-- The open chunks of a gang's members on a core are squashed. -/
def gangSquashed (s : State) (c : CoreId) (tag : BitVec 16) : State :=
  allSlots.foldl (fun s n => if (s.ctx c n).a.ltag == tag && (s.ctx c n).member && (s.ctx c n).st != .vacant then squash s c n else s) s

theorem gangSquashed_mem (s : State) (c : CoreId) (tag : BitVec 16) : (gangSquashed s c tag).mem = s.mem := by
  refine foldl_keeps State.mem _ (fun t n => ?_) _ _
  split
  · exact mem_squash ..
  · rfl

theorem exec_gangHold_broken {tag : BitVec 16} (hb : s.atBoundary c = true) (ht : tag ≠ 0) (hg : gangBroken s tag = true)
    (ha : (gangSlots s tag).any (·.1 == c) = true) (hp : (s.core c).pre = .running) (hh : (s.core c).gheld.contains tag = false) :
    exec (.gangHold c tag) s = .next ((gangSquashed s c tag).modCore c fun k => { k with gheld := k.gheld ++ [tag] }) := by
  refine congrArg Host.Outcome.next (if_pos ?_)
  rw [hb, bne_iff_ne.mpr ht, hg, ha, hp, hh]
  rfl

theorem exec_gangHoldLift_whole {tag : BitVec 16} (hg : gangBroken s tag = false) : exec (.gangHoldLift c tag) s =
    .next (s.modCore c fun k => { k with gheld := k.gheld.filter (· != tag) }) :=
  congrArg Host.Outcome.next (if_neg (by rw [hg]; exact Bool.false_ne_true))
end

end Sys2Proof.Machine

open Sys2Proof Sys2Proof.Machine

/-- Settles O55: each event is the branch of its meaning that its premises select, and what is read back is what was copied. -/
theorem preemptionEvents : Obligations.PreemptionEvents := by
  intro s c n area spill cap tag h up
  refine ⟨exec_save_accepted, exec_save_refused, exec_saveAreaWrite_draining, exec_saveAreaWrite_saving, ?area,
    fun hup hp hm ha _ hv => exec_restore_accepted hup hp hm ha hv, fun hup _ hm => exec_restore_refused hup hm, fun _ => areaMatches_iff,
    fun v hup hp hv hd => ⟨_, exec_restoreComplete_undiverted s c v hp hv hd, ?complete⟩,
    fun _ _ hw hp hh ht => exec_withdrawalAnswer_performed hw hp hh ht, fun id r hr ho hd hc => ?divert,
    fun hb ht hg ha hp hh => ⟨_, exec_gangHold_broken hb ht hg ha hp hh, ?held⟩, exec_gangHoldLift_whole⟩
  case area =>
    intro k t
    have hcore : t.core c = { k with trapArea := some k.saveArea } := writeArea_core s c
    rw [hcore]
    exact ⟨fun _ _ => writeArea_scratchpad s c, ⟨_, savedAt_writeArea s c, rfl, rfl, rfl⟩, rfl, rfl, writeArea_core_ne s c⟩
  case complete =>
    obtain ⟨l, hl⟩ := tracePre_core (restored s c v) c 6
    rw [restored_core] at hl
    have hout : hostUp ((restored s c v).tracePre c 6) (dieOf c) = true := by
      rw [tracePre_hostUp, hostUp, restored_downLinks]
      exact hup
    refine ⟨?_, ?_, ?_, fun m => ?_, fun _ => ?_⟩
    · rw [State.tell_core, hl]
    · rw [State.tell_hostOut _ (.ok "RESTORE" c) hout, tracePre_hostOut, restored_hostOut]
    · rw [State.tell_core, hl]
      rfl
    · rw [State.tell_ctx, State.ctx, hl]
      rfl
    · rw [State.tell_mem, tracePre_mem, restored_mem, memRead_memWrite_memRead]
  case divert => exact ⟨fun hl => (exec_divertedArrival hr ho hd hc).trans (congrArg Host.Outcome.next (if_pos hl)),
    fun hl => (exec_divertedArrival hr ho hd hc).trans (congrArg Host.Outcome.next (if_neg (Nat.not_lt.mpr hl)))⟩
  case held =>
    rw [State.core_modCore, State.modCore_mem, gangSquashed_mem]
    exact ⟨List.mem_append_right _ (List.mem_singleton_self tag), rfl⟩
end
